-- ==== Sys2Proof/Word.lean ====
section
/-! DEFINITION. The plain words of the model: bytes, instruction words, die, context and link numbers. -/
namespace Sys2Proof

/-- One byte. -/
abbrev Byte := BitVec 8

/-- A run of bytes, lowest address first (00_scope R9). -/
abbrev Bytes := List (BitVec 8)

/-- An instruction word of 256 bits (01 Table 1.5). -/
abbrev IWord := BitVec 256

/-- Dies D0 to D19. -/
abbrev Die := Fin 20

/-- Contexts 0 to 7 (01 R22). -/
abbrev Ctx := Fin 8

/-- Link index 4 × port + link (13, before Table 13.2). -/
abbrev Link := Fin 32

/-- Physical arrays 0 to 6 of a die (04 R77). -/
abbrev Arr := Fin 7

/-- Mailboxes 0 to 8 (15 R371). -/
abbrev Mbx := Fin 9

/-- Pseudo-channels 0 to 63 (08 Table 8.1). -/
abbrev Pc := Fin 64

end Sys2Proof
end

