-- ==== Sys2Proof/Syntax.lean ====
section
/-! DEFINITION. The commands of the block: one constructor of `Instr` per row of spec/opcode_table.json.

What a row leaves to the outside (the word a stream issues, the bytes of a packet, a physical error, a sensor
reading) is an operand; what the device itself holds is read from the state. -/
namespace Sys2Proof

/-- What the fall-back controller compares at an MK: the policy digests of the other members (07 R160), and how often in
succession its two copies disagreed (12 Table 12.1). -/
structure FallbackCheck where
  digests : List (BitVec 64)
  disagreed : Nat
  deriving DecidableEq, Repr

/-- The physical happenings that one engine instruction meets: the outcome of the duplicated unit's compare
(12 R293, R106), scratchpad bits in error found by its reads (09 R201) and stack codewords returned with symbol
errors (08 R188). `Phys.none` is the undisturbed case. -/
structure Phys where
  /-- mismatches of the compare in succession: 0 none, 1 retried away, 2 or more poison the line (12 R293) -/
  mismatch : Nat
  /-- output byte offset, within the output, of the 256-byte line that mismatches -/
  line : Nat
  /-- the mismatch is one of the vector engine's duplicated Repeatable generator, not of its lanes (12 Table 12.1) -/
  generator : Bool
  /-- which of the instruction's outputs that line belongs to: 0 the primary one, then the others in the order of their
  fields -/
  output : Nat
  /-- scratchpad words in error: die, word address, bits (09 R201) -/
  spBits : List (Nat × Nat × Nat)
  /-- codewords (die, local offset divided by 64) and the symbol errors met by their read (08 R188) -/
  cwErrs : List (Nat × Nat × List (Nat × BitVec 8))
  /-- mismatches in succession of the sequencer's compare over the word as it issues (12 Table 12.1) -/
  issue : Nat
  /-- the instruction meets an uncorrectable error in its word's fetch, or in a descriptor copy, slot or semaphore of its
  context (12 R300) -/
  own : Bool
  /-- it meets one in state that every context shares (12 R301) -/
  shared : Bool
  deriving DecidableEq, Repr

/-- No physical error. -/
def Phys.none : Phys := { mismatch := 0, line := 0, generator := false, output := 0, spBits := [], cwErrs := [], issue := 0, own := false, shared := false }

/-- What an error of an accumulating array strikes: a long register, a cell with the adders behind it, or one of the two
copies of a narrow adder (04 R87). -/
inductive UpsetAt where
  | register
  | cell
  | adder
  deriving DecidableEq, Repr

/-- A packet as it is carried: header, payload descriptor, payload (10 Tables 10.3, 10.4). -/
structure Pkt where
  hdr : BitVec 256
  desc : BitVec 256
  payload : Bytes
  deriving DecidableEq, Repr

/-- A codeword as a link receives it (10 R234): what the FEC says, the codeword control and the ten slots. -/
structure LinkCw where
  /-- the FEC could correct it (10 R237) -/
  good : Bool
  /-- symbols the FEC corrected -/
  corrected : Nat
  /-- codeword control, bits [19:0] -/
  control : BitVec 20
  /-- the ten 64-byte slots, slot 0 first -/
  slots : List (BitVec 512)
  deriving DecidableEq, Repr

/-- Who a memory request is charged to (08 R183): a context's stall or the service class. -/
inductive Charge where
  | stall (c : Ctx)
  | service
  deriving DecidableEq, Repr

/-- What a memory request asks (08 R177). -/
inductive MemOp where
  | read
  | write (data : Bytes) (poison : Bool)
  deriving DecidableEq, Repr

/-- What a host access through CXL.mem asks (15 R367). -/
inductive HostOp where
  | read (len : Nat)
  | write (data : Bytes) (poison : Bool)
  deriving DecidableEq, Repr

/-- How the host answers a request to the host-memory window (15 R368). -/
inductive HostReply where
  | completed (data : Bytes)
  | refused
  | poisoned (data : Bytes)
  deriving DecidableEq, Repr

/-- What starts a pseudo-channel's retraining (08 R193). -/
inductive RetrainCause where
  | interval
  | temperature
  | correctionRate
  deriving DecidableEq, Repr

/-- Whole-unit work (12 Table 12.8). -/
inductive UnitWork where
  | selftest
  | margin
  | gambits
  | spareTest
  deriving DecidableEq, Repr

/-- The three rings of a mailbox (15 Table 15.5). -/
inductive RingSel where
  | cmd
  | cpl
  | evt
  deriving DecidableEq, Repr

/-- Width the host link trained to (15 R363). -/
inductive HostWidth where
  | x8
  | x16
  deriving DecidableEq, Repr

/-- Who sends a management request (13 R343, R344): a datagram from an IPv6 address, or MCTP on I3C. -/
inductive Requester where
  | udp (address : BitVec 128)
  | mctp
  deriving DecidableEq, Repr

/-- Transport of an SPDM request (15 R383). -/
inductive SpdmPath where
  | doe
  | mctp
  deriving DecidableEq, Repr

/-- One die's outcome of the boot checks (16 R388). -/
structure DieBoot where
  lockstepOk : Bool
  stackOk : Bool
  arraysOk : Bool
  deriving DecidableEq, Repr

/-- What the boot meets outside the state (16 R387): the checks of every die, whether the fuse writes take, for each link the
HELLO of its peer where the lanes train within two seconds (10 R233, Table 10.2), and the width of the host link. -/
structure BootEnv where
  dies : List DieBoot
  fuseWriteOk : Bool
  hellos : List (Option (BitVec 33))
  hostLink : Option HostWidth
  deriving DecidableEq, Repr

/-- The fall-back controller's state of one slot (07 R156, R162, R173). -/
structure SlotCtl where
  levelS : Bool
  levelW : Bool
  trio : Bool
  overS : Nat
  overW : Nat
  underS : Nat
  underW : Nat
  silent : Nat
  reported : Bool
  deriving DecidableEq, Repr

/-- A chunk of the fall-back reserve (07 R166). -/
structure Chunk where
  slot : Nat
  side : Nat
  piece : Nat
  spBase : Nat
  spLen : Nat
  hbmBase : Nat
  hbmLen : Nat
  deriving DecidableEq, Repr

/-- An image of a member's persistent state (14 R350): header fields of 14 Table 14.3, the fall-back state, and the bytes
of the active areas as (die, local offset, bytes). -/
structure Image where
  generation : Nat
  step : Nat
  commitCount : Nat
  skipRun : Nat
  fwRev : BitVec 16
  numericsRev : BitVec 8
  ctl : List (Nat × SlotCtl)
  chunks : List Chunk
  slots : List (Nat × BitVec 32)
  body : List (Nat × Nat × Bytes)
  deriving DecidableEq, Repr

/-- The commands, one constructor per row of the table. -/
inductive Instr where
  -- the die sequencer (01)
  | syWait (d : Die) (c : Ctx) (w : IWord)
  | sySignal (d : Die) (c : Ctx) (w : IWord)
  | sySet (d : Die) (c : Ctx) (w : IWord)
  | syFence (d : Die) (c : Ctx) (w : IWord)
  | syJump (d : Die) (c : Ctx) (w : IWord)
  | mkStep (d : Die) (c : Ctx) (w : IWord)
  | mkFencePassed (c : Ctx)
  | mkReductionReceived (c : Ctx) (step : Nat) (verdict : BitVec 64) (stats : Bytes) (check : FallbackCheck) (stepsAgree : Bool)
      (restorable : Nat) (retirementMap : List Nat)
  | cfSeed (d : Die) (c : Ctx) (w : IWord)
  | cfAccdef (d : Die) (c : Ctx) (w : IWord)
  | cfTimeout (d : Die) (c : Ctx) (w : IWord)
  | cfNop (d : Die) (c : Ctx) (w : IWord)
  | instructionComplete (d : Die) (c : Ctx) (index : Nat)
  | syncTimeout (d : Die) (c : Ctx)
  -- the shaper (03)
  | shQuant (d : Die) (c : Ctx) (w : IWord) (x : Phys)
  | shDequant (d : Die) (c : Ctx) (w : IWord) (x : Phys)
  | shRotate (d : Die) (c : Ctx) (w : IWord) (x : Phys)
  -- the matrix arrays (04)
  | mmProduct (d : Die) (c : Ctx) (w : IWord) (x : Phys)
  | tileCheckComplete (d : Die) (a : Arr) (upset : Option (UpsetAt × Nat × Nat × Int)) (x : Phys)
  | mmDrain (d : Die) (c : Ctx) (w : IWord) (x : Phys)
  | mmSpill (d : Die) (c : Ctx) (w : IWord) (x : Phys)
  | mmDiscard (d : Die) (c : Ctx) (w : IWord) (x : Phys)
  -- the vector engine (05)
  | vxAdd (d : Die) (c : Ctx) (w : IWord) (x : Phys)
  | vxSub (d : Die) (c : Ctx) (w : IWord) (x : Phys)
  | vxMul (d : Die) (c : Ctx) (w : IWord) (x : Phys)
  | vxFma (d : Die) (c : Ctx) (w : IWord) (x : Phys)
  | vxMax (d : Die) (c : Ctx) (w : IWord) (x : Phys)
  | vxMin (d : Die) (c : Ctx) (w : IWord) (x : Phys)
  | vxScale (d : Die) (c : Ctx) (w : IWord) (x : Phys)
  | vxConvert (d : Die) (c : Ctx) (w : IWord) (x : Phys)
  | vxFunc (d : Die) (c : Ctx) (w : IWord) (x : Phys)
  | vxReduce (d : Die) (c : Ctx) (w : IWord) (x : Phys)
  | vxSoftmax (d : Die) (c : Ctx) (w : IWord) (x : Phys)
  | vxSoftmaxBwd (d : Die) (c : Ctx) (w : IWord) (x : Phys)
  | vxNorm (d : Die) (c : Ctx) (w : IWord) (x : Phys)
  | vxNormBwd (d : Die) (c : Ctx) (w : IWord) (x : Phys)
  | vxTopk (d : Die) (c : Ctx) (w : IWord) (x : Phys)
  | vxRelu (d : Die) (c : Ctx) (w : IWord) (x : Phys)
  | vxDropout (d : Die) (c : Ctx) (w : IWord) (x : Phys)
  | vxMaxpool (d : Die) (c : Ctx) (w : IWord) (x : Phys)
  | vxMaskmul (d : Die) (c : Ctx) (w : IWord) (x : Phys)
  | vxUnpool (d : Die) (c : Ctx) (w : IWord) (x : Phys)
  | vxMaskgen (d : Die) (c : Ctx) (w : IWord) (x : Phys)
  | vxRandom (d : Die) (c : Ctx) (w : IWord) (x : Phys)
  | vxTable (d : Die) (c : Ctx) (w : IWord) (x : Phys)
  | vxKvappend (d : Die) (c : Ctx) (w : IWord) (x : Phys)
  | vxKvscore (d : Die) (c : Ctx) (w : IWord) (x : Phys)
  | vxKvmix (d : Die) (c : Ctx) (w : IWord) (x : Phys)
  -- the update engine (06)
  | upStep (d : Die) (c : Ctx) (w : IWord) (x : Phys)
  | upWcopy (d : Die) (c : Ctx) (w : IWord) (x : Phys)
  | upVerdict (d : Die) (c : Ctx) (w : IWord)
  | roundVerdictReceived (c : Ctx) (round : Nat) (verdict : BitVec 64) (roundsAgree : Bool)
  -- the move engine (09)
  | mvCopy (d : Die) (c : Ctx) (w : IWord) (x : Phys)
  | mvSetcopy (d : Die) (c : Ctx) (w : IWord) (x : Phys)
  | mvGather (d : Die) (c : Ctx) (w : IWord) (x : Phys)
  | mvScatter (d : Die) (c : Ctx) (w : IWord) (x : Phys)
  | mvScatterAdd (d : Die) (c : Ctx) (w : IWord) (x : Phys)
  | mvWindow (d : Die) (c : Ctx) (w : IWord) (x : Phys)
  | mvFill (d : Die) (c : Ctx) (w : IWord) (x : Phys)
  | mvSeal (d : Die) (c : Ctx) (w : IWord) (x : Phys)
  -- the collective unit (11)
  | clShift (d : Die) (c : Ctx) (w : IWord) (x : Phys)
  | clPermute (d : Die) (c : Ctx) (w : IWord) (x : Phys)
  | clAlltoall (d : Die) (c : Ctx) (w : IWord) (x : Phys)
  | clGradsend (d : Die) (c : Ctx) (w : IWord) (x : Phys)
  | clGradrecv (d : Die) (c : Ctx) (w : IWord) (x : Phys)
  | clReduce (d : Die) (c : Ctx) (w : IWord) (x : Phys)
  | clReduceScatter (d : Die) (c : Ctx) (w : IWord) (x : Phys)
  | clGather (d : Die) (c : Ctx) (w : IWord) (x : Phys)
  | clBcast (d : Die) (c : Ctx) (w : IWord) (x : Phys)
  | clSetcast (d : Die) (c : Ctx) (w : IWord) (x : Phys)
  | clExpress (d : Die) (c : Ctx) (w : IWord) (x : Phys)
  | clSlotGranted (d : Die) (c : Ctx)
  | collectiveTimeout (d : Die) (c : Ctx) (index : Nat)
  | expressResend (c : Ctx) (group : Nat)
  -- the fabric (10)
  | linkCodewordReceived (l : Link) (r : LinkCw)
  | idleFlit (l : Link) (f : BitVec 512)
  | creditFlit (l : Link) (f : BitVec 512)
  | replayFlit (l : Link) (f : BitVec 512)
  | abortFlit (l : Link) (f : BitVec 512)
  | helloFlit (l : Link) (f : BitVec 512)
  | controlFlitInterval (l : Link)
  | laneLockLost (l : Link) (lane : Fin 8)
  | linkRetrainDone (l : Link) (ok : Bool)
  | routerPacketArrival (from_ : Option Link) (p : Pkt)
  | packetAdvance (index : Nat)
  | packetStaleTimeout (index : Nat)
  | putReceived (p : Pkt)
  | signalReceived (p : Pkt)
  | getReqReceived (p : Pkt) (x : Phys)
  | getRespReceived (p : Pkt)
  | collReceived (p : Pkt)
  | expressReceived (p : Pkt)
  | ackReceived (p : Pkt)
  | nakReceived (p : Pkt)
  | msgAckReceived (p : Pkt)
  | mgmtReceived (p : Pkt)
  | ackTimer (d : Die) (srcNode : Nat) (srcDie : Nat) (space : Nat)
  | e2eTimeout (d : Die) (index : Nat)
  | nakBackoffExpiry (d : Die) (index : Nat)
  | trackingEntryExpiry (d : Die) (srcNode : Nat) (srcDie : Nat) (space : Nat)
  -- the memory system (08)
  | memoryRequest (d : Die) (address : Nat) (len : Nat) (op : MemOp) (who : Charge)
  | memoryReadReturn (d : Die) (errs : List (Nat × List (Nat × BitVec 8)))
  | rowRepair (d : Die) (pc : Pc) (bank : Fin 16) (sid : Fin 16) (row : Fin 4096) (errs : List (Nat × List (Nat × BitVec 8)))
  | pageRetirement (d : Die) (page : Fin 1048576)
  | scrubGranule (d : Die) (errs : List (Nat × List (Nat × BitVec 8)))
  | retrainStart (d : Die) (pc : Pc) (cause : RetrainCause)
  | retrainDone (d : Die) (pc : Pc) (eyes : List (BitVec 16))
  | stallWindow (d : Die) (demand : List Nat)
  | hostMemAccess (dpa : Nat) (op : HostOp) (errs : List (Nat × List (Nat × BitVec 8)))
  -- integrity (12)
  | lockstepMismatch (d : Die)
  | captureWrite (d : Die)
  | spareTest (d : Die) (pass : Bool)
  | spareEnterService (d : Die)
  | checkerSelftest (d : Die) (unit : Fin 14) (a : Arr) (pass : Bool)
  | gambitRun (d : Die) (a : Arr) (vectorEngine : Bool) (gambit : Nat) (vector : Nat) (mismatches : Nat)
  | quietWorkStart (d : Die) (arrays : BitVec 7) (work : UnitWork) (lengthUs : Nat)
  | quietWindowEnd (c : Ctx)
  | arrayBorrow (d : Die) (a : Arr) (work : UnitWork)
  | arrayReturn (d : Die) (a : Arr) (mismatches : Nat)
  | marginSweepDone (d : Die) (a : Arr) (topMhz : Nat) (tempC : Nat)
  | linkEyeScan (l : Link) (eyes : List (BitVec 16)) (tempC : Nat)
  -- counters and ledger (13)
  | tallyPeriod (d : Die)
  | tallyDump (d : Die)
  | bwWindowEnd (d : Die) (i : Fin 5) (tx : BitVec 32) (rx : BitVec 32)
  | lifetimeRecord (d : Die)
  | ledgerCheckpoint
  | ledgerFlashWrite
  | datagramSend
  | lifetimeRecordsRequest (who : Requester) (q : BitVec 256)
  | rollingRecordsRequest (who : Requester) (q : BitVec 256)
  | historyDatagramsRequest (who : Requester) (q : BitVec 256)
  | captureSlotRequest (who : Requester) (q : BitVec 256)
  | captureExportedRequest (who : Requester) (q : BitVec 256)
  | checkpointNowRequest (who : Requester) (q : BitVec 256)
  | mctpGambitInstall (package : Bytes)
  -- long runs (14)
  | generationCopyDone (c : Ctx) (generation : Nat) (own : Bool) (namesBack : Bool)
  | stopClassDetermined (c : Ctx) (maxClass : Nat) (missing : List Nat)
  | restore (c : Ctx) (generation : Nat) (ownOk : Bool) (buddyImage : Option Image)
  | swapResend
  | swapDeadline
  -- the mailboxes (15)
  | cmdDoorbell (m : Mbx) (tail : BitVec 32)
  | commandFetch (m : Mbx) (record : Option (BitVec 512))
  | ringEnableWrite (m : Mbx) (ring : RingSel) (v : BitVec 64)
  | cplHeadWrite (m : Mbx) (v : BitVec 32)
  | evtHeadWrite (m : Mbx) (v : BitVec 32)
  | mailboxErrClear (m : Mbx) (v : BitVec 64)
  | registerWrite (bar : Nat) (offset : Nat) (v : BitVec 64)
  -- Suphor commands: mailbox m runs the command it has started; `data` is its data buffer as read (none: the
  -- read failed or met poison), `ok` says that the write of its data buffer took
  | getGeometry (m : Mbx) (ok : Bool)
  | getStatus (m : Mbx) (ok : Bool)
  | reset (m : Mbx)
  | ctxCreate (m : Mbx) (data : Option Bytes)
  | ctxDestroy (m : Mbx)
  | stallSet (m : Mbx)
  | memAlloc (m : Mbx)
  | memFree (m : Mbx)
  | descWrite (m : Mbx) (data : Option Bytes)
  | descRead (m : Mbx) (ok : Bool)
  | progLoad (m : Mbx) (data : Option Bytes)
  | launch (m : Mbx)
  | stop (m : Mbx)
  | slotWrite (m : Mbx)
  | slotRead (m : Mbx) (ok : Bool)
  | entryRegister (m : Mbx) (data : Option Bytes)
  | entryRead (m : Mbx) (ok : Bool)
  | groupRegister (m : Mbx) (data : Option Bytes)
  | groupRelease (m : Mbx)
  | policySetFallback (m : Mbx) (data : Option Bytes)
  | policySetResilience (m : Mbx) (data : Option Bytes)
  | policySetSamplePeriod (m : Mbx)
  | policySetIntegrity (m : Mbx) (data : Option Bytes)
  | policySetScrubPeriod (m : Mbx)
  | policySetE2eTimeout (m : Mbx)
  | policySetCheckpointInterval (m : Mbx)
  | policySetTally (m : Mbx)
  | policyRead (m : Mbx) (ok : Bool)
  | fallbackRead (m : Mbx) (ok : Bool)
  | ringRegister (m : Mbx)
  | measureSetCounter (m : Mbx)
  | measureSetHistogram (m : Mbx)
  | measureSetWindow (m : Mbx)
  | tallyRequest (m : Mbx)
  | ledgerRead (m : Mbx) (ok : Bool)
  | captureRead (m : Mbx) (ok : Bool)
  | captureExported (m : Mbx)
  | checkpointNow (m : Mbx)
  | collectorSet (m : Mbx) (data : Option Bytes)
  | gambitInstall (m : Mbx) (data : Option Bytes)
  | calRead (m : Mbx) (ok : Bool)
  | calWrite (m : Mbx) (data : Option Bytes)
  | fwInstall (m : Mbx) (data : Option Bytes)
  | linkReset (m : Mbx)
  | castle (m : Mbx) (spareRevs : Option (BitVec 16 × BitVec 8)) (sparePorts : BitVec 8)
  -- the host link (15)
  | hostLinkDown
  | hostLinkUp (width : HostWidth)
  | hostLinkRetrain (result : Option HostWidth)
  | hostPortReset
  -- attestation and monitoring (15, 16)
  | spdmGetVersion (via : SpdmPath) (req : Bytes)
  | spdmGetCapabilities (via : SpdmPath) (req : Bytes)
  | spdmNegotiateAlgorithms (via : SpdmPath) (req : Bytes)
  | spdmGetDigests (via : SpdmPath) (req : Bytes)
  | spdmGetCertificate (via : SpdmPath) (req : Bytes)
  | spdmChallenge (via : SpdmPath) (req : Bytes)
  | spdmGetMeasurements (via : SpdmPath) (req : Bytes)
  | spdmUnsupportedRequest (via : SpdmPath) (req : Bytes)
  | pldmSensorRead (sensor : Nat)
  | pldmCollectorSet (collector : BitVec 64) (portEnable : BitVec 64) (address : Bytes)
  -- the Dyolo debug port (16)
  | dyoloNop (d : Die) (frame : BitVec 160)
  | dyoloStatus (d : Die) (frame : BitVec 160)
  | dyoloGetNonce (d : Die) (frame : BitVec 160)
  | dyoloPush (d : Die) (frame : BitVec 160)
  | dyoloPushReset (d : Die) (frame : BitVec 160)
  | dyoloUnlock (d : Die) (frame : BitVec 160)
  | dyoloRelock (d : Die) (frame : BitVec 160)
  | dyoloInstall (d : Die) (frame : BitVec 160)
  | dyoloHalt (d : Die) (frame : BitVec 160)
  | dyoloResume (d : Die) (frame : BitVec 160)
  | dyoloStep (d : Die) (frame : BitVec 160) (x : Phys)
  | dyoloBreakSet (d : Die) (frame : BitVec 160)
  | dyoloBreakClear (d : Die) (frame : BitVec 160)
  | dyoloRead (d : Die) (frame : BitVec 160) (x : Phys)
  | dyoloWrite (d : Die) (frame : BitVec 160) (x : Phys)
  | dyoloResetDevice (d : Die) (frame : BitVec 160)
  | extest (d : Die) (cells : BitVec 64)
  | idcode (d : Die)
  | samplePreload (d : Die) (cells : BitVec 64)
  | bypass (d : Die)
  | tapReset
  -- power, boot, clocks (16, 17)
  | powerOn (inputMv : Nat)
  | railsGood
  | powerOff
  | inputVoltageFault (inputMv : Nat)
  | rideThroughExpiry
  | inputVoltageRecovered (inputMv : Nat) (durationUs : Nat)
  | moduleReset
  | resetRelease (railsGoodUs : Nat)
  | boot (env : BootEnv)
  | moduleDrain
  | drainComplete
  | shutdownReqRelease
  | pwrLimitSample (code : BitVec 2)
  | powerSample (watts : Nat) (avg100us : Nat)
  | cappingEpisodeEnd (durationUs : Nat)
  | thermalSample (dieMilliC : List Nat) (stackMilliC : List Nat) (inletMilliC : Nat) (outletMilliC : Nat)
  | thermtrip (d : Die)
  | hostRefclkLoss
  | fabRefclkLoss
  | rideThroughEntry (inputMv : Nat)
  | resetHoldExpiry
  | railLeavesWindow
  | fabRefclkReturn
  | hostWindowCompletion (d : Die) (c : Ctx) (index : Nat) (reply : HostReply)
  | quietWorkDone (d : Die) (arrays : BitVec 7) (mismatches : List (Nat × Nat))
  | selftestOverdue (d : Die) (a : Arr) (work : UnitWork) (pastTwice : Bool)
  | watchdogExpiry (d : Die)
  deriving DecidableEq, Repr

end Sys2Proof
end

