-- ==== Sys2Proof/Machine/Bits.lean ====
section
/-! DEFINITION. Bit fields, little-endian bytes and the check codes (00_scope R8, R9; 09 R212; 10 R239). -/
namespace Sys2Proof.Machine

/-- Bits [hi:lo] of a word (00_scope R8). -/
def fld {n : Nat} (w : BitVec n) (hi lo : Nat) : Nat := (w.toNat >>> lo) % 2 ^ (hi + 1 - lo)

/-- Bit i of a word. -/
def bit {n : Nat} (w : BitVec n) (i : Nat) : Bool := w.getLsbD i

/-- Bits [hi:lo] as a two's-complement number. -/
def sfld {n : Nat} (w : BitVec n) (hi lo : Nat) : Int :=
  let v := fld w hi lo
  if v < 2 ^ (hi - lo) then (v : Int) else (v : Int) - (2 ^ (hi + 1 - lo) : Nat)

/-- A word from a list of (value, width) fields, the least significant first. -/
def packNat : List (Nat × Nat) → Nat
  | [] => 0
  | (v, k) :: rest => v % 2 ^ k + 2 ^ k * packNat rest

/-- The same at a stated width. -/
def pack (n : Nat) (fields : List (Nat × Nat)) : BitVec n := BitVec.ofNat n (packNat fields)

/-- A word with bits [hi:lo] replaced. -/
def setFld {n : Nat} (w : BitVec n) (hi lo v : Nat) : BitVec n :=
  BitVec.ofNat n (w.toNat - (fld w hi lo) * 2 ^ lo + (v % 2 ^ (hi + 1 - lo)) * 2 ^ lo)

def b2n (b : Bool) : Nat := if b then 1 else 0

/-- The n bytes of a number, little-endian (00_scope R9). -/
def leBytes : Nat → Nat → Bytes
  | 0, _ => []
  | n + 1, v => BitVec.ofNat 8 v :: leBytes n (v / 256)

/-- The number a run of bytes holds, little-endian. -/
def leNat : Bytes → Nat
  | [] => 0
  | b :: bs => b.toNat + 256 * leNat bs

/-- The number a run of bytes holds, first byte most significant (16 R390). -/
def beNat (bs : Bytes) : Nat := leNat bs.reverse

def beBytes (n v : Nat) : Bytes := (leBytes n v).reverse

/-- n bytes of a run from offset o; bytes beyond its end read 0. -/
def slice (bs : Bytes) (o n : Nat) : Bytes :=
  let s := (bs.drop o).take n
  s ++ List.replicate (n - s.length) 0

/-- The little-endian number in n bytes from offset o. -/
def leAt (bs : Bytes) (o n : Nat) : Nat := leNat (slice bs o n)

/-- A record given as bytes, as one word. -/
def wordOf (n : Nat) (bs : Bytes) : BitVec n := BitVec.ofNat n (leNat bs)

/-- Pads a run with zero bytes to n bytes, or cuts it. -/
def padTo (n : Nat) (bs : Bytes) : Bytes := slice bs 0 n

def ceilDiv (a b : Nat) : Nat := (a + b - 1) / b

/-- Signed n-bit reading of a number. -/
def signedOf (n v : Nat) : Int := if v % 2 ^ n < 2 ^ (n - 1) then ((v % 2 ^ n : Nat) : Int) else ((v % 2 ^ n : Nat) : Int) - (2 ^ n : Nat)

/-- Two's-complement image of an integer in n bits. -/
def twos (n : Nat) (v : Int) : Nat := (v % ((2 ^ n : Nat) : Int)).toNat

def crcBit32 (c : BitVec 32) : BitVec 32 :=
  if c.getLsbD 0 then (c >>> 1) ^^^ 0x82F63B78#32 else c >>> 1

def crcByte32 (c : BitVec 32) (b : BitVec 8) : BitVec 32 :=
  let c := c ^^^ b.setWidth 32
  crcBit32 (crcBit32 (crcBit32 (crcBit32 (crcBit32 (crcBit32 (crcBit32 (crcBit32 c)))))))

/-- CRC-32C: polynomial 0x1EDC_6F41, reflected, initial value and final XOR of all ones (09 R212). -/
def crc32c (bs : Bytes) : BitVec 32 := (bs.foldl crcByte32 0xFFFFFFFF#32) ^^^ 0xFFFFFFFF#32

def crcBit16 (c : BitVec 16) : BitVec 16 :=
  if c.getLsbD 15 then (c <<< 1) ^^^ 0x1021#16 else c <<< 1

def crcByte16 (c : BitVec 16) (b : BitVec 8) : BitVec 16 :=
  let c := c ^^^ ((b.setWidth 16) <<< 8)
  crcBit16 (crcBit16 (crcBit16 (crcBit16 (crcBit16 (crcBit16 (crcBit16 (crcBit16 c)))))))

/-- CRC-16: polynomial 0x1021, initial value 0xFFFF, no reflection, no final XOR (10 R239). -/
def crc16 (bs : Bytes) : BitVec 16 := bs.foldl crcByte16 0xFFFF#16

/-- Saturating addition on w bits. -/
def satAdd (w a b : Nat) : Nat := min (a + b) (2 ^ w - 1)

/-- Number of 1 bits. -/
def popcount {n : Nat} (w : BitVec n) : Nat := (List.range n).countP fun i => w.getLsbD i

/-- Positions of the 1 bits, ascending. -/
def onesOf {n : Nat} (w : BitVec n) : List Nat := (List.range n).filter fun i => w.getLsbD i

/-- A word with bit i set or cleared. -/
def setBit {n : Nat} (w : BitVec n) (i : Nat) (b : Bool) : BitVec n :=
  if b then w ||| BitVec.twoPow n i else w &&& ~~~ (BitVec.twoPow n i)

end Sys2Proof.Machine
end

