-- ==== Sys2Proof/Machine/Burst.lean ====
section
/-! DEFINITION. The burst code RS(72,64) of a codeword (08 R187 to R190), over the errors that a read meets. The
code is linear, so decoding depends on the error pattern alone: stored codewords are exact, plain or with the poison
mark. -/
namespace Sys2Proof.Machine

/-- Doubling in GF(2^8) with 0x11D. -/
def gfDouble (a : Nat) : Nat := if 2 * a < 256 then 2 * a else (2 * a) ^^^ 0x11D

/-- Product in GF(2^8), over the bits of b from the top one down. -/
def gfMulFuel : Nat → Nat → Nat → Nat
  | 0, _, _ => 0
  | n + 1, a, b => let r := gfMulFuel n a (b / 2); (gfDouble r) ^^^ (if b % 2 = 1 then a else 0)

def gfMul (a b : Nat) : Nat := gfMulFuel 8 a b

def gfPow (a : Nat) : Nat → Nat
  | 0 => 1
  | n + 1 => gfMul a (gfPow a n)

/-- Inverse: a^254. -/
def gfInv (a : Nat) : Nat :=
  let a2 := gfMul a a
  let a4 := gfMul a2 a2
  let a8 := gfMul a4 a4
  let a16 := gfMul a8 a8
  let a32 := gfMul a16 a16
  let a64 := gfMul a32 a32
  let a128 := gfMul a64 a64
  gfMul a128 (gfMul a64 (gfMul a32 (gfMul a16 (gfMul a8 (gfMul a4 a2)))))

/-- Locator of symbol j: α^(71 − j). -/
def locator (j : Nat) : Nat := gfPow 2 (71 - j)

/-- Coefficients of g(x) = (x + α^0) … (x + α^7), highest degree first (08 R187). -/
def genPoly : List Nat :=
  (List.range 8).foldl (fun p i => (List.zip (p ++ [0]) (0 :: p)).map fun e => e.1 ^^^ gfMul e.2 (gfPow 2 i)) [1]

/-- Check symbols 64 to 71 of a codeword's data symbols: D(x) × x^8 mod g(x), highest degree first (08 R187). -/
def checkSymbols (data : List Nat) : List Nat :=
  data.foldl (fun rest v =>
    let lead := v ^^^ rest.headD 0
    (List.zip (rest.tail ++ [0]) genPoly.tail).map fun e => e.1 ^^^ gfMul lead e.2) (List.replicate 8 0)

/-- The poison mark over check symbols 64 to 71 (08 R190). -/
def poisonMark : List (Nat × Nat) :=
  [(64, 0x3A), (65, 0xC5), (66, 0x96), (67, 0x69), (68, 0x0F), (69, 0xF0), (70, 0x5C), (71, 0xA3)]

/-- The 8 syndromes of an error pattern. -/
def syndromes (errs : List (Nat × Nat)) : List Nat :=
  (List.range 8).map fun i => errs.foldl (fun acc e => acc ^^^ gfMul e.2 (gfPow (locator e.1) i)) 0

/-- Magnitudes at the given symbols that explain every syndrome, if there are any: the unknowns are eliminated one by
one, and what then remains of the syndromes must be 0. -/
def explain : List Nat → List Nat → Option (List (Nat × Nat))
  | [], ss => if ss.all (· = 0) then some [] else none
  | j :: js, ss =>
    let x := locator j
    let ts := (List.zip ss ss.tail).map fun (a, b) => b ^^^ gfMul x a
    (explain js ts).map fun zs =>
      let ys := zs.map fun (k, z) => (k, gfMul z (gfInv (locator k ^^^ x)))
      (j, ys.foldl (fun acc y => acc ^^^ y.2) (ss.headD 0)) :: ys

/-- What a decode gives (08 Table 8.9): the errors left in the delivered data, and for a corrected codeword the
symbols that were corrected at unknown positions. -/
inductive Decoded where
  | clean (left : List (Nat × Nat))
  | corrected (left : List (Nat × Nat)) (at_ : List Nat)
  | poison (left : List (Nat × Nat))
  | uncorrectable
  deriving DecidableEq, Repr

/-- The error pattern with a correction applied; symbols that come out right are dropped. -/
def applyFix (errs fix : List (Nat × Nat)) : List (Nat × Nat) :=
  ((List.range 72).map fun j =>
    (j, (errs ++ fix).foldl (fun acc e => if e.1 = j then acc ^^^ e.2 else acc) 0)).filter fun e => e.2 ≠ 0

/-- Ordinary decoding within 2e + f ≤ 4 (08 R188). `erased` are the symbols of erased pins. -/
def decodeOrdinary (erased : List Nat) (errs : List (Nat × Nat)) : Option Decoded :=
  let ss := syndromes errs
  match explain erased ss with
  | some fix => some (.clean (applyFix errs fix))
  | none =>
    let free := (List.range 72).filter fun j => !erased.contains j
    let one := fun (_ : Unit) => free.findSome? fun j =>
      (explain (j :: erased) ss).map fun fix => Decoded.corrected (applyFix errs fix) [j]
    let two := fun (_ : Unit) => free.findSome? fun j => free.findSome? fun k =>
      if j < k then (explain [j, k] ss).map fun fix => Decoded.corrected (applyFix errs fix) [j, k] else none
    if erased.length = 0 then (match one () with | some r => some r | none => two ())
    else if erased.length ≤ 2 then one ()
    else none

/-- Decoding of a stored codeword that meets the given errors (08 R188, R190). -/
def decodeCw (erased : List Nat) (poisoned : Bool) (errs : List (Nat × Nat)) : Decoded :=
  match decodeOrdinary erased (if poisoned then errs ++ poisonMark else errs) with
  | some r => r
  | none =>
    match explain erased (syndromes (if poisoned then errs else errs ++ poisonMark)) with
    | some fix => .poison (applyFix (if poisoned then errs else errs ++ poisonMark) fix)
    | none => .uncorrectable

end Sys2Proof.Machine
end

