-- ==== Sys2Proof/Config.lean ====
section
/-! DEFINITION. What the spec leaves open or an implementation fixes: constants without a body, so that no proof can
see a value of them. -/
namespace Sys2Proof

/-- The functions of 05 Table 5.2 that the spec bounds and does not fix (exp, log, 1/√x, tanh, sigmoid, GELU, SiLU),
for one numerics revision: revision, FUNC, operand (05 R104; log 6). -/
opaque Config.vxFunc : BitVec 8 → Nat → BitVec 32 → BitVec 32

/-- b^n of 06 R136, for one numerics revision (log 6). -/
opaque Config.powN : BitVec 8 → BitVec 32 → Nat → BitVec 32

/-- A die's cycle count when a record is made (00 R7; log 7). -/
opaque Config.cycle : Nat → BitVec 64

/-- A Free-mode generator word (05 R120, 06 R139; log 7). -/
opaque Config.freeWord : Nat → BitVec 32

/-- A fresh nonce of the debug port (16 R403; log 7). -/
opaque Config.nonce : Nat → BitVec 64

/-- A draw of the sampling generator (13 R327; log 7). -/
opaque Config.sampleDraw : Nat → Nat

/-- A latency or cycle stamp of a sample record or a histogram (13 R328; log 7). -/
opaque Config.stamp : Nat → BitVec 32

/-- Sixteen random bytes at a time, for SPDM nonces (log 7). -/
opaque Config.randomByte : Nat → BitVec 8

/-- A byte of a saved accumulation's image, whose layout is private to the device (04 R98; log 127). -/
opaque Config.saveByte : Nat → BitVec 8

/-- The ten SECDED check bits over a scratchpad word's data, whose code no rule gives (09 Table 9.1; log 9). -/
opaque Config.secded : BitVec 256 → BitVec 10

/-- A signature with IDENTITY_KEY, 512 bytes, over the given bytes (16 R390, R398; log 8). -/
opaque Config.identitySign : Bytes → Bytes

/-- The certificate chain of slot 0, in DER form (16 R399; log 8). -/
opaque Config.certificateChain : Bytes

/-- Bytes of that chain that its first certificate, the root, takes (log 8). -/
opaque Config.rootLength : Nat

/-- A byte of a die controller's memory as its firmware left it: die, address (16 Table 16.10; log 9). -/
opaque Config.controllerByte : Nat → Nat → BitVec 8

/-- Value of a result of which the spec states none, by rule number and draw (log 9). -/
opaque Config.unstated : Nat → Nat → BitVec 64

end Sys2Proof
end

