-- ==== Sys2Proof/Machine/State.lean ====
section
/-! DEFINITION. The state of the block, as plain data, and the state right after reset.

Sparse tables are lists of (key, value) in one canonical form (Machine/Maps.lean): keys strictly rising and no
entry equal to what an unlisted key reads as. -/
namespace Sys2Proof.Machine

/-- Why a command stops the model. The type is empty: every fault that the spec describes is a next state, in which
what the spec says of that fault holds, and no command ends a run (safe). -/
inductive Fault : Type
  deriving DecidableEq, Repr

/-- Why a command has no meaning. -/
inductive Refusal where
  /-- an arm of exec whose command has no meaning yet (safe); no arm is left in this form -/
  | notModelled (mnemonic : String)
  deriving DecidableEq, Repr

/-- A sparse table. -/
abbrev SMap (α : Type) := List (Nat × α)

/-- Where poison came from (12 R298). -/
inductive Origin where
  | compute
  | memory
  deriving DecidableEq, Repr

/-- Accumulators, held or waiting for their check (04 R94, R98). -/
inductive AccPhase where
  /-- accumulated; the check of the tile is still to come, then the tile drains or spills or is held -/
  | checking
  /-- held for its stream -/
  | held
  /-- open for the receipt of partials (11 R282) -/
  | receipt
  deriving DecidableEq, Repr

/-- A descriptor as an instruction took it when it issued: the word, and base and seal after area and reserve
(09 R202, R207, R208). -/
structure Bound where
  idx : Nat
  word : BitVec 512
  area : Nat
  base : Nat
  sealAt : Nat
  deriving DecidableEq, Repr

/-- One accumulation of an array bank: one tile (04 R78, R79, R86, R94 to R98). -/
structure Accum where
  ctx : Nat
  /-- the physical array that holds it; none: it lies in the context save area (04 R98) -/
  phys : Option Nat
  /-- the physical array that began it -/
  origin : Nat
  logical : Nat
  /-- BANK field: 0 lower, 1 upper, 2 whole -/
  bank : Nat
  rows : Nat
  cols : Nat
  transpose : Bool
  colOff : Nat
  exact : Bool
  promo : Nat
  /-- long registers, row-major, in grid units of 2^-22 -/
  regs : List Int
  nonfinite : List Bool
  poison : List Bool
  /-- expected sums per row and group of 16 columns (04 R86) -/
  expected : List Int
  /-- block contributions as the cells produced them, per row and group (04 R87, promotion mode) -/
  blockSums : List Int
  /-- values promoted and added, per row and group (04 R87, promotion mode) -/
  promoted : List Int
  count : Nat
  /-- a bound carry: the SPILL descriptor of the instruction that bound it (04 R97) -/
  carry : Option Bound
  /-- OUT and SPILL of the instruction that ends it, while it is checking -/
  outT : Option Bound
  spillT : Option Bound
  /-- panel headers that the drain takes its scales and rotation from -/
  aHdrs : List (BitVec 256)
  wHdrs : List (BitVec 256)
  phase : AccPhase
  /-- the instruction word that ends the accumulation, while it is checking -/
  ender : IWord
  endAddr : Nat
  /-- output position of this tile within the instruction -/
  tile : Nat
  /-- contributions of earlier instructions, of other arrays, or of partials (12 R304) -/
  earlier : Bool
  elsewhere : Bool
  partials : Bool
  /-- first row of the tile, as the record of its check names it (04 R87) -/
  rowOff : Nat
  /-- where its image lies while it is saved: local offset in the save area, and the first of the free values that the image
  is made of, whose layout is private to the device (04 R98) -/
  saved : Option (Nat × Nat)
  /-- the context's descriptors as the ending instruction took them (09 R202) -/
  descs : SMap (BitVec 512)
  deriving DecidableEq, Repr

/-- A matrix array (04 R77, R78, R86; 12 R306). -/
structure ArraySt where
  /-- live and shadow code of each cell, key rank × 256 + file -/
  live : SMap (BitVec 4)
  shadow : SMap (BitVec 4)
  /-- the accumulator bank, key row × 256 + column: the long register, its non-finite flag [72] and its poison bit [73] -/
  bank : SMap (BitVec 74)
  /-- the checksum file's expected sums, key bank row × 16 + group -/
  sums : SMap (BitVec 72)
  tileCount : Nat
  mismatch1 : Option Nat
  mismatch2 : Option Nat
  /-- latest sweep's highest passing frequency, MHz (17 R417) -/
  sweep : Option Nat
  deriving DecidableEq, Repr

/-- A stall of a controller (08 Tables 8.6, 8.7). -/
structure StallSt where
  floor : BitVec 8
  ceil : BitVec 8
  weight : BitVec 4
  enable : Bool
  unitsLast : BitVec 17
  debt : BitVec 18
  readCw : BitVec 64
  writeCw : BitVec 64
  floorMiss : BitVec 32
  ceilOverrun : BitVec 32
  /-- delivery units charged since the last window ended (08 R185) -/
  charged : Nat
  /-- units that the context's own accesses ask for and no window has granted yet (08 R183, R184) -/
  asked : Nat
  /-- windows of the running run of four, and the units granted and owed in it (08 R185) -/
  runWindows : Nat
  runGranted : Nat
  runOwed : Nat
  /-- STALL_CFGn [19:0] that STALL_SET wrote, for the next window -/
  next : Option (BitVec 20)
  deriving DecidableEq, Repr

/-- One corrected codeword of a pseudo-channel (08 R188, R189, R195). -/
structure Correction where
  /-- index of the read among the pseudo-channel's reads -/
  read : Nat
  /-- the one pin it is confined to -/
  pin : Option Nat
  /-- row: bank, SID and row number as one number -/
  row : Nat
  codeword : Nat
  time : Nat
  /-- some error lay outside erased pins -/
  outside : Bool
  deriving DecidableEq, Repr

/-- A pseudo-channel (08 Table 8.12, R189, R193). -/
structure PcSt where
  eraseA : BitVec 6
  eraseB : BitVec 6
  retraining : Bool
  ueTotal : BitVec 16
  reads : Nat
  log : List Correction
  /-- consecutive retrainings within margin of the first and second erased pin (08 R189) -/
  okRunA : Nat
  okRunB : Nat
  /-- a third pin met a condition of 08 R189 -/
  third : Bool
  /-- stack temperature at the latest retraining, °C (08 R193) -/
  trainedC : Int
  deriving DecidableEq, Repr

/-- A codeword as it stood when its controller accepted a read of it (08 R178). -/
structure CwSeen where
  data : Bytes
  mark : Option Origin
  /-- it lay in a retired page -/
  retired : Bool
  /-- a write to the codeword was accepted since -/
  overtaken : Bool
  deriving DecidableEq, Repr

/-- A read request in flight (08 R177): `seen` holds its codewords. -/
structure MemReq where
  offset : Nat
  len : Nat
  who : Charge
  seen : List CwSeen
  /-- count of free values at its acceptance (13 R326) -/
  born : Nat
  deriving DecidableEq, Repr

/-- What a memory controller delivered last (08 R188). -/
structure Delivery where
  offset : Nat
  data : Bytes
  /-- poison mark of each codeword -/
  poison : List Bool
  deriving DecidableEq, Repr

/-- A packet that its source has not yet seen acknowledged (10 R257 to R260, R265). -/
structure SrcPkt where
  dstNode : Nat
  space : Nat
  seq : Nat
  pkt : Pkt
  ctx : Nat
  /-- number of the instruction that sent it -/
  instr : Nat
  counted : Nat
  /-- current BUSY backoff in microseconds, 0 none yet -/
  backoff : Nat
  /-- NAK reason whose backoff is running, 0 none -/
  waitReason : Nat
  /-- multicast: members (logical node) that have not acknowledged the message -/
  members : List Nat
  /-- false: it waits for a place in its space's window or for an earlier chunk (10 R257, 11 R277) -/
  sent : Bool
  /-- the port that it first left by, and the count of free values then (13 R326) -/
  firstSent : Option (Nat × Nat)
  deriving DecidableEq, Repr

/-- A receive tracking entry (10 R258). -/
structure Track where
  srcNode : Nat
  srcDie : Nat
  space : Nat
  /-- next SEQ expected: cumulative SEQ plus 1 -/
  next : Nat
  bitmap : BitVec 256
  /-- new packets since the last ACK (10 R259) -/
  unacked : Nat
  deriving DecidableEq, Repr

/-- A message table entry (10 R255). -/
structure MsgEntry where
  srcNode : Nat
  srcDie : Nat
  msgId : Nat
  space : Nat
  len : Nat
  ctx : Nat
  sem : Nat
  val : Nat
  count : Nat
  deriving DecidableEq, Repr

/-- A contribution that an operation expects: its length and its chunk (11 R276, R277). -/
structure Expect where
  phase : Nat
  rank : Nat
  len : Nat
  chunk : Nat
  deriving DecidableEq, Repr

/-- Bytes of a contribution that have arrived, with a poison mark each. -/
structure Piece where
  phase : Nat
  rank : Nat
  off : Nat
  bytes : Bytes
  poison : List Bool
  deriving DecidableEq, Repr

/-- A value of an express stage: stage (0 to 3 for X to W; 4: a die of this device), origin, payload, poison. -/
structure ExpVal where
  stage : Nat
  origin : Nat
  val : BitVec 512
  poison : Bool
  deriving DecidableEq, Repr

/-- A collective operation of a die (11 R273, R278). -/
structure CollOp where
  ctx : Nat
  group : Nat
  /-- CL operation code -/
  op : Nat
  seq : Nat
  word : IWord
  addr : Nat
  /-- number of the instruction -/
  instr : Nat
  hash : BitVec 32
  /-- false: it waits for a slot of its context's share (11 R273) -/
  open_ : Bool
  expect : List Expect
  pieces : List Piece
  /-- phases and ranks of contributions that are complete -/
  done : List (Nat × Nat)
  /-- DST as the instruction took it, and for CL.SETCAST the planes of the set at DST -/
  dst : Option Bound
  planes : List (Option Bound)
  /-- the reduction has been formed, or an express result written -/
  result : Bool
  express : List ExpVal
  /-- express: packets of the latest stage, forwarded ones included (11 R286) -/
  outputs : List Pkt
  deriving DecidableEq, Repr

/-- A parked payload of the early-arrival area (11 R274, R422); `taken`: an open receipt has matched it, and it occupies the
area no longer. -/
structure Parked where
  ctx : Nat
  pkt : Pkt
  taken : Bool
  deriving DecidableEq, Repr

/-- A move that waits in its queue (09 R202, R220; 15 R368): context, number of the instruction, queue, word, the context's
descriptors as it issued, and whether its requests to the host are out. -/
structure MoveWait where
  ctx : Nat
  num : Nat
  queue : Nat
  word : IWord
  descs : SMap (BitVec 512)
  asked : Bool
  deriving DecidableEq, Repr

/-- A latched tally (13 R330, R331). -/
structure Tally where
  trigger : Nat
  missed : Nat
  step : Nat
  ctx : Nat
  body : Bytes
  deriving DecidableEq, Repr

/-- A capture of failing operands (12 R304). -/
structure Capture where
  kind : Nat
  bytes : Bytes
  tileCount : Nat
  exported : Bool
  order : Nat
  deriving DecidableEq, Repr

/-- A selectable counter (13 Table 13.1). -/
structure Counter where
  select : BitVec 64
  value : BitVec 64
  deriving DecidableEq, Repr

/-- A histogram (13 Tables 13.4, 13.6). -/
structure Histogram where
  select : BitVec 32
  /-- count of free values at the write of the select word: what began before is discarded (13 R326) -/
  since : Nat
  bins : SMap (BitVec 32)
  count : BitVec 64
  sum : BitVec 64
  max : BitVec 32
  deriving DecidableEq, Repr

/-- A bandwidth instance (13 Table 13.3). -/
structure BwWin where
  txLast : BitVec 32
  rxLast : BitVec 32
  txPeak : BitVec 32
  rxPeak : BitVec 32
  windows : BitVec 32
  shift : BitVec 5
  /-- units of the window that runs (13 R324) -/
  txNow : Nat
  rxNow : Nat
  deriving DecidableEq, Repr

/-- A die's tap and debug side (16 R400 to R405). -/
structure DebugSt where
  ir : BitVec 8
  boundary : BitVec 64
  response : BitVec 160
  haltedController : Bool
  /-- die-controller memory as the debug port wrote it -/
  memory : SMap (BitVec 8)
  /-- breakpoints of the die controller and of the sequencer: index, context (8: the controller), instruction -/
  breaks : List (Nat × Nat × Nat)
  deriving DecidableEq, Repr

/-- An episode of thermal capping (17 R415): whether the stack's sensor began it, its peak, and the samples since it began
and since the clocks came back to nominal. -/
structure ThermalEpisode where
  stack : Bool
  peakMilliC : Nat
  samples : Nat
  atNominal : Nat
  deriving DecidableEq, Repr

/-- One die. -/
structure DieSt where
  -- geometry record (01 Table 1.14)
  arrayMask : BitVec 7
  arrayAbsent : BitVec 7
  stackPages : BitVec 32
  retiredPages : BitVec 32
  -- arrays (04)
  arrays : Vector ArraySt 7
  accs : List Accum
  /-- moves that wait, in the order of their issue (09 R220) -/
  moves : List MoveWait
  -- memory controller (08)
  stalls : Vector StallSt 8
  pcs : Vector PcSt 64
  requests : List MemReq
  delivered : Option Delivery
  failedRows : List Nat
  repairedRows : List Nat
  softRows : List Nat
  spareUsed : SMap Nat
  retired : List Nat
  scrubNext : Nat
  capacityVerdict : BitVec 2
  -- fabric endpoint (10)
  nextSeq : SMap Nat
  unacked : List SrcPkt
  tracks : List Track
  messages : List MsgEntry
  reorder : List Pkt
  nextMsg : Nat
  -- collective unit (11)
  ops : List CollOp
  parked : List Parked
  groupSeq : SMap Nat
  -- fall-back statistics of the running step (07 Table 7.2): key context × 512 + slot × 2 + side, fields in order
  stats : SMap (List Nat)
  -- integrity (12)
  integVerdict : BitVec 2
  spareUsed_ : Bool
  sparePending : Bool
  spareTesting : Bool
  spareFailed : Bool
  checkerFailed : Bool
  overdue : Bool
  retiredArrays : BitVec 7
  captureLost : BitVec 16
  compareRetries : BitVec 32
  capture : Option Capture
  borrowing : Option (Nat × UnitWork)
  /-- arrays taken by whole-unit work in quiet time, and the work (12 R315) -/
  quietWork : List (Nat × UnitWork)
  /-- when the array was retired whose place the spare takes (12 R308) -/
  retiredAt : Nat
  -- counters (13)
  aggregate : SMap (BitVec 64)
  counters : Vector Counter 32
  hists : Vector Histogram 8
  bw : Vector BwWin 5
  tallies : List Tally
  tallyMissed : Nat
  /-- time of the latest tally since reset (13 R330) -/
  lastTally : Option Nat
  recordSeq : BitVec 32
  -- power (17 Table 17.10)
  capPower : Bool
  capTemp : Bool
  capMargin : Bool
  thermalMhz : Nat
  powerMhz : Nat
  marginMhz : Nat
  vddMv : Nat
  dieTempC : Int
  stackTempC : Int
  thermalEpisode : Option ThermalEpisode
  -- debug (16)
  tapSide : DebugSt
  deriving DecidableEq, Repr

/-- What holds a stream (01 R16, R17; 06 R146; 11 R273). -/
inductive Hold where
  | header (sem : Nat) (target : BitVec 32)
  | wait (sem : Nat) (target : BitVec 32)
  | fence
  | mk
  | verdict (round : Nat)
  | slot
  | bank
  | receipt
  deriving DecidableEq, Repr

/-- An instruction that has issued and not completed (01 R14). -/
structure InFlight where
  /-- number of the instruction on its die and context -/
  num : Nat
  cls : Nat
  op : Nat
  addr : Nat
  sigEn : Bool
  sigSem : Nat
  /-- a move that waits in its queue, for its turn or for the host (09 R220, 15 R368) -/
  moveWait : Bool
  /-- the product of a requantising pair, which completes when its SH.QUANT completes (04 R90) -/
  paired : Bool
  /-- tiles whose check is still to come (04 R88) -/
  tiles : Nat
  /-- a collective operation that has not completed (11 R278) -/
  collWait : Bool
  /-- UP.VERDICT waiting for its round verdict (06 R146) -/
  verdictWait : Bool
  instance_ : Nat
  fault : Bool
  poison : Bool
  nonfinite : Bool
  tagged : Bool
  /-- bytes that it has read from or written to stacks (13 R328) -/
  stackBytes : Nat
  /-- count of free values at its issue (13 R326) -/
  born : Nat
  /-- output and offset of the line whose compare mismatched twice, of an instruction that writes later (12 R293, 15 R368) -/
  badLine : Option (Nat × Nat)
  deriving DecidableEq, Repr

/-- One stream: a context on a die (01 R12, R21; 16 R404). -/
structure Stream where
  launched : Bool
  pc : Nat
  entry : Nat
  hold : Option Hold
  /-- count of free values when the wait began (13 R326) -/
  heldSince : Nat
  -- CF state (01 Table 1.11)
  seedVector : BitVec 64
  seedUpdate : BitVec 64
  accMode : Bool
  promoInterval : Nat
  timeoutUs : Nat
  -- step marker
  fenced : Bool
  mkStep : Nat
  quietEn : Bool
  quietUs : Nat
  rounds : Nat
  -- completion
  inflight : List InFlight
  issued : Nat
  nextSample : Nat
  /-- the instruction issued last carries a sampling tag -/
  tagged : Bool
  -- debug
  halted : Bool
  single : Bool
  /-- the MM word of a requantising pair whose SH.QUANT must issue next (04 R90) -/
  pair : Option IWord
  deriving DecidableEq, Repr

/-- A memory range of a context (15 R378): kind 0 local, 1 striped, 2 scratchpad. -/
structure Range where
  index : Nat
  kind : Nat
  die : Nat
  base : Nat
  len : Nat
  deriving DecidableEq, Repr

/-- A commit entry with its maps (06 Table 6.2, R132, R145). -/
structure Entry where
  word : BitVec 256
  area : Bool
  written : SMap Nat
  lastMap : SMap Nat
  lastStep : Nat
  codeBytes : Nat
  /-- complete at the fence of the running MK (06 R145) -/
  complete : Bool
  deriving DecidableEq, Repr

/-- A registered ring (15 R380). -/
structure Ring where
  address : Nat
  sizeLog : Nat
  writeIndex : BitVec 32
  dropped : BitVec 32
  deriving DecidableEq, Repr

/-- A generation of the buddy checkpoint that this device holds (14 R349 to R352), and which of its two copies are
written. The image is held as a record; its layout in the checkpoint area is private to the device (log 19). -/
structure Generation where
  image : Image
  own : Bool
  buddy : Bool
  deriving DecidableEq, Repr

/-- How a stopped context is classed (14 Table 14.4). -/
inductive StopCause where
  | none
  | program
  | partial_
  | skipLimit
  | memory
  | isolated
  | device
  | lost
  | unrecoverable
  | halted
  deriving DecidableEq, Repr

/-- A context (01 R22; 15 R377). -/
structure CtxSt where
  -- creation record (15 Table 15.11)
  stall : BitVec 20
  clSlots : Nat
  semBase : Nat
  semCount : Nat
  progBase : Nat
  progCount : Nat
  hbmPages : Nat
  scratchKib : Nat
  commitMode : Bool
  inPlaceAction : Bool
  skipLimit : Nat
  dieMask : BitVec 20
  /-- local page of the save area, die by die (04 R98) -/
  saveBases : List Nat
  -- memory and tables
  ranges : List Range
  descs : SMap (BitVec 512)
  progLen : SMap Nat
  slots : SMap (BitVec 32)
  slotWrites : SMap (BitVec 32)
  /-- key die × 1,024 + entry -/
  entries : SMap Entry
  -- launch
  streams : Vector Stream 20
  /-- dies that a LAUNCH started since the context was last idle -/
  launchMask : BitVec 20
  stepGroup : Nat
  startStep : Nat
  lastStep : Option Nat
  /-- a stop of this context's streams: its cause -/
  stopped : Option StopCause
  jobClass : Nat
  -- verdicts (06)
  verdict : BitVec 64
  /-- what was contributed at the fence, and the step it belongs to -/
  mkSent : Option (Nat × BitVec 64)
  /-- the combined statistics contributed with it (07 R160), 32 KiB -/
  mkStats : Bytes
  /-- a stream's MK carried another STEP than this device expects (01 R18) -/
  mkBad : Bool
  /-- quiet window that the MK opens, in microseconds -/
  mkQuiet : Option Nat
  /-- a committed MK that waits for both copies of its generation: its step record and verdict (14 R351) -/
  mkTail : Option Bytes
  /-- the streams stop as that MK completes: the HALT that it took effect at (07 R170) -/
  mkStop : Bool
  commitCount : BitVec 64
  skipRun : Nat
  roundVerdicts : SMap (BitVec 64)
  /-- contribution to the round verdict that is awaited (06 R146) -/
  roundSent : Option (BitVec 64)
  inPlaceStopped : Bool
  -- fall-back (07)
  policy : Option Bytes
  policyNext : Option Bytes
  ctl : SMap SlotCtl
  chunks : List Chunk
  /-- reduced statistics and state of the latest MK (15 R379) -/
  reduced : Bytes
  reducedCtl : SMap SlotCtl
  reducedStep : Nat
  retirementMap : List Nat
  reducedMap : List Nat
  halt : Bool
  -- long runs (14)
  resilience : Option (BitVec 256)
  resilienceNext : Option (BitVec 256)
  genLast : Nat
  commitLast : Nat
  generations : List Generation
  restorable : Nat
  afterResume : Bool
  /-- automatic restores since the last restorable generation taken after a resume, and the generation resumed from
  (14 R355) -/
  restores : Nat
  resumeGen : Nat
  /-- what the job stop class selected: 0 HOLD, 1 RESTORE, 2 CASTLE (14 R355) -/
  restart : Nat
  /-- the buddy has been asked whether it names this member back (14 R348) -/
  buddyChecked : Bool
  -- measurement
  samplePeriod : Nat
  stepRing : Option Ring
  sampleRing : Option Ring
  quietUntil : Option Nat
  freeBroken : Bool
  deriving DecidableEq, Repr

/-- A mailbox (15 Table 15.5, R371 to R375). -/
structure MbxSt where
  cmdBase : BitVec 64
  cmdSize : BitVec 4
  cmdEnable : Bool
  cmdTail : BitVec 32
  cmdHead : BitVec 32
  cplBase : BitVec 64
  cplSize : BitVec 4
  cplEnable : Bool
  cplVector : BitVec 6
  cplHead : BitVec 32
  cplTail : BitVec 32
  evtBase : BitVec 64
  evtSize : BitVec 4
  evtEnable : Bool
  evtIrqEn : Bool
  evtVector : BitVec 6
  evtHead : BitVec 32
  evtTail : BitVec 32
  fetchErr : Bool
  tailErr : Bool
  linkRecovered : Bool
  evtDropped : BitVec 32
  /-- the command that runs -/
  started : Option (BitVec 512)
  /-- commands next to start that a CTX_DESTROY aborts (15 R373) -/
  aborts : Nat
  /-- commands fetched and not yet started -/
  fetched : List (BitVec 512)
  heldCpl : List (BitVec 256 × Bool)
  heldEvt : List Bytes
  deriving DecidableEq, Repr

/-- A codeword of a replay buffer (10 R237). -/
structure ReplayCw where
  seq : Nat
  slotMap : BitVec 10
  slots : List (BitVec 512)
  /-- packets with a flit in it -/
  pkts : List Pkt
  deriving DecidableEq, Repr

/-- A flit slot: a control flit, or a flit of a packet (10 R234, R235). -/
structure OutSlot where
  control : Bool
  flit : BitVec 512
  pkt : Option Pkt
  deriving DecidableEq, Repr

/-- A link (10 Table 10.9, R236 to R238). -/
structure LinkSt where
  state : BitVec 2
  exits : List Nat
  replays : BitVec 16
  uncorrected : BitVec 32
  correctedSymbols : BitVec 32
  /-- flits freed in this end's input buffers since the link came up, per VC -/
  freed : Vector (BitVec 12) 8
  /-- the peer's totals as last received, and the flits sent to it, per VC -/
  peerFreed : Vector (BitVec 12) 8
  sent : Vector (BitVec 12) 8
  rxSeq : Nat
  rxAny : Bool
  waitingReplay : Bool
  txSeq : Nat
  replay : List ReplayCw
  /-- slots of the codeword that is being filled, slot 0 first -/
  open_ : List OutSlot
  /-- the VC of VC0 to VC5 that was served last (10 R243) -/
  rr : Nat
  /-- unsequenced control flits and replayed codewords on their way to the peer -/
  control : List (BitVec 512)
  resent : List Nat
  sameReplays : Nat × Nat
  replayTimes : List Nat
  hello : Option (BitVec 33)
  /-- its lanes are trained; it has not been in service since boot -/
  trained : Bool
  fresh : Bool
  /-- flits of a packet received in part -/
  partialIn : List (BitVec 512)
  deriving DecidableEq, Repr

/-- A packet that waits in the router (10 R242, R247). -/
structure Waiting where
  pkt : Pkt
  /-- the link whose input buffer it occupies; none: injected here -/
  from_ : Option Nat
  since : Nat
  deriving DecidableEq, Repr

/-- A Wearis record of a ledger tier, or on its way (13 Table 13.9). -/
structure Rec where
  bytes : Bytes
  tier : Nat
  deriving DecidableEq, Repr

/-- A datagram of D19 (13 R341). -/
structure Datagram where
  seq : Nat
  /-- 0 lifetime, 1 response, 2 rolling, 3 tally (13 R342) -/
  priority : Nat
  /-- the collector that asked; none: every configured collector -/
  dest : Option (BitVec 128)
  bytes : Bytes
  deriving DecidableEq, Repr

/-- A collector (13 R340). -/
structure Collector where
  enable : Bool
  address : BitVec 128
  port : BitVec 16
  deriving DecidableEq, Repr

/-- An installed gambit (12 R310, R311). -/
structure Gambit where
  id : BitVec 64
  bytes : Bytes
  deriving DecidableEq, Repr

/-- What the flash keeps across resets (16 Table 16.2, 13 R332). -/
structure Flash where
  slotA : Option Bytes
  slotB : Option Bytes
  preferB : Bool
  calibration : Option Bytes
  staging : Option Bytes
  keyGeneration : BitVec 32
  keyValid : BitVec 16
  keys : SMap Bytes
  gambits : List Gambit
  lifetime : List Bytes
  rolling : List Bytes
  captures : SMap Capture
  captureOrder : Nat
  collectors : Vector Collector 2
  badBlocks : BitVec 13
  rollEraseMax : BitVec 32
  /-- bytes ever written to the rolling tier -/
  rollBytes : Nat
  chainLifetimeBroken : Bool
  chainRollingBroken : Bool
  deriving DecidableEq, Repr

/-- The fuses a rule reads or blows (16 Table 16.1); a digest is its bytes, lowest first, as one number. -/
structure Fuses where
  deviceId : BitVec 64
  romDigest : BitVec 512
  fwKeyHash : BitVec 512
  calKeyHash : BitVec 512
  serviceKeyHash : BitVec 512
  secVersion : Nat
  /-- rows repaired for good: die and row -/
  repairs : List (Nat × Nat)
  deriving DecidableEq, Repr

/-- Boot, identity and debug port (16). -/
structure BootSt where
  stage : BitVec 8
  deviceFault : Bool
  bootCount : BitVec 32
  /-- ACTION of the next BOOT record (13 Table 13.13) -/
  cause : Nat
  /-- the previous shutdown wrote its checkpoint -/
  cleanShutdown : Bool
  runningB : Bool
  runningSec : Nat
  runningPkg : Bytes
  calInForce : Bytes
  nonce : Option (BitVec 64)
  unlocked : Bool
  scope : BitVec 3
  scopeDies : BitVec 20
  unlockedSinceBoot : Bool
  writeUsed : Bool
  scopesGranted : BitVec 3
  push : Bytes
  deriving DecidableEq, Repr

/-- Power states (17 Table 17.2). -/
inductive PowerState where
  | off
  | reset
  | run
  | drain
  deriving DecidableEq, Repr

/-- Power, pins and clocks (17). -/
structure PowerSt where
  state : PowerState
  pwrEn : Bool
  /-- RESET_N low -/
  resetAsserted : Bool
  /-- RAILS_OK_N low -/
  railsOk : Bool
  /-- RESET_N was released before the rails had been good for 1 ms (17 R408) -/
  resetHold : Bool
  shutdownReq : Bool
  shutdownAck : Bool
  readyN : Bool
  faultN : Bool
  thermtripN : Bool
  inputMv : Nat
  rideThrough : Option Nat
  inputPeakMv : Nat
  limitCode : BitVec 2
  effectiveW : Nat
  inputW : Nat
  belowCount : Nat
  skipAlternate : Bool
  episode : Option (Nat × Nat)
  inletMilliC : Int
  outletMilliC : Int
  coolantHigh : Bool
  hostRefclk : Bool
  fabRefclk : Bool
  /-- PWR_EN was asserted with the input in range, and the converters bring the rails up (17 R408) -/
  starting : Bool
  deriving DecidableEq, Repr

/-- FAB_NODE and the tables of the fabric (10 Table 10.8, R246, R263). -/
structure FabricSt where
  logical : BitVec 14
  px : BitVec 4
  py : BitVec 4
  pz : BitVec 3
  pw : BitVec 3
  dxM1 : BitVec 4
  dyM1 : BitVec 4
  dzM1 : BitVec 3
  dwM1 : BitVec 3
  remapGen : BitVec 16
  e2eUs : BitVec 24
  remap : SMap (BitVec 16)
  multicast : SMap (BitVec 49)
  groups : SMap (BitVec 256)
  waiting : List Waiting
  inbox : List Pkt
  discards : SMap Nat
  /-- devices found unreachable or not in service, by logical node (10 R260, R267) -/
  unreachable : List Nat
  /-- a swap this device coordinates: L, S, nodes not yet acknowledged, tag and mailbox of its command -/
  swap : Option (Nat × Nat × List Nat × BitVec 512 × Nat)
  deriving DecidableEq, Repr

/-- The SPDM responder on one transport (15 R383): the latest response, and the messages that its signatures cover. -/
structure SpdmSt where
  response : Bytes
  negotiated : Bool
  /-- GET_VERSION to ALGORITHMS -/
  vca : Bytes
  /-- GET_DIGESTS, GET_CERTIFICATE and their responses -/
  certs : Bytes
  /-- GET_MEASUREMENTS and their responses since the last signed one -/
  measured : Bytes
  deriving DecidableEq, Repr

/-- Host link and SPDM (15 R363, R383). -/
structure HostSt where
  link : Option HostWidth
  /-- HOST_POISON_READS and HOST_DISCARDS (15 Table 15.5) -/
  poisonReads : BitVec 32
  discards : BitVec 32
  /-- MSI-X table and vectors raised -/
  msix : SMap (BitVec 64)
  raised : SMap Nat
  /-- CXL component registers written by the host (15 Table 15.3, BAR3) -/
  component : SMap (BitVec 64)
  /-- what the last read through CXL.mem returned: data and poison indication -/
  lastRead : Bytes × Bool
  spdmDoe : SpdmSt
  spdmMctp : SpdmSt
  /-- the latest PLDM answer: its completion code, then what the sensor reads -/
  pldm : Bytes
  deriving DecidableEq, Repr

/-- Policies of the device and the ledger's running state (12, 13). -/
structure LedgerSt where
  queue : List Rec
  rollDropped : Nat
  rollDroppedBoot : BitVec 32
  lifetimeFull : Bool
  nearFull : Bool
  chainBroken : Bool
  verdict : Nat
  checkpointMin : Nat
  lastCheckpoint : Nat
  /-- rolling writes of the last 3,600 s: time and bytes (13 R337) -/
  rollWrites : List (Nat × Nat)
  tallyCtx : Option Nat
  tallyMinUs : Nat
  tallyPeriodUs : Nat
  tallyRing : Option Ring
  send : List Datagram
  history : List Datagram
  dgramSeq : Nat
  integrityPolicy : BitVec 128
  scrubHours : Nat
  mctpResponses : List Bytes
  deriving DecidableEq, Repr

/-- The whole block. -/
structure State where
  /-- the commands that wait, first in first out -/
  pending : List Instr
  /-- the model's own: free values drawn so far -/
  freeCtr : Nat
  /-- the model's own: microseconds passed (an empty queue's step is one microsecond) -/
  now : Nat
  -- memories: key die × 2^36 + local offset; die × 2^26 + offset; host physical address
  stack : List Host.Cell
  /-- poisoned codewords, key die × 2^30 + codeword -/
  stackPoison : SMap Origin
  scratch : List Host.Cell
  /-- poisoned words, key die × 2^21 + word -/
  scratchPoison : SMap Origin
  /-- pair tags of words, same key (09 Table 9.1) -/
  tags : SMap (BitVec 8)
  hostMem : List Host.Cell
  hostPoison : SMap Bool
  -- sequencers: key die × 256 + semaphore; die × 8,192 + instruction
  sems : SMap (BitVec 32)
  program : SMap (BitVec 256)
  -- geometry header (01 Table 1.13)
  numericsRev : BitVec 8
  fwRev : BitVec 16
  dieMask : BitVec 20
  portMask : BitVec 8
  tableGen : BitVec 32
  -- units
  dies : Vector DieSt 20
  ctxs : Vector (Option CtxSt) 8
  mailboxes : Vector MbxSt 9
  links : Vector LinkSt 32
  fabric : FabricSt
  host : HostSt
  ledger : LedgerSt
  flash : Flash
  fuses : Fuses
  bootSt : BootSt
  power : PowerSt
  deriving DecidableEq, Repr

/-! ### Right after reset

Every register at its Reset column; a value the spec does not give is named in notes/assumptions/2.md and 3.md. -/

def ArraySt.reset : ArraySt :=
  { live := [], shadow := [], bank := [], sums := [], tileCount := 0, mismatch1 := none, mismatch2 := none, sweep := none }

def StallSt.reset : StallSt :=
  { floor := 0, ceil := 0, weight := 1, enable := false, unitsLast := 0, debt := 0, readCw := 0, writeCw := 0,
    floorMiss := 0, ceilOverrun := 0, charged := 0, asked := 0, runWindows := 0, runGranted := 0, runOwed := 0, next := none }

def PcSt.reset : PcSt :=
  { eraseA := 0x3F, eraseB := 0x3F, retraining := false, ueTotal := 0, reads := 0, log := [], okRunA := 0,
    okRunB := 0, third := false, trainedC := 0 }

def Counter.reset : Counter := { select := 0, value := 0 }

def Histogram.reset : Histogram := { select := 0, since := 0, bins := [], count := 0, sum := 0, max := 0 }

def BwWin.reset : BwWin := { txLast := 0, rxLast := 0, txPeak := 0, rxPeak := 0, windows := 0, shift := 20, txNow := 0, rxNow := 0 }

def DebugSt.reset : DebugSt := { ir := 0x01, boundary := 0, response := 0, haltedController := false, memory := [], breaks := [] }

def DieSt.reset : DieSt :=
  { arrayMask := 0x3F, arrayAbsent := 0, stackPages := 1048576, retiredPages := 0
    arrays := Vector.replicate 7 ArraySt.reset, accs := [], moves := []
    stalls := Vector.replicate 8 StallSt.reset, pcs := Vector.replicate 64 PcSt.reset, requests := []
    delivered := none, failedRows := [], repairedRows := [], softRows := [], spareUsed := [], retired := []
    scrubNext := 0, capacityVerdict := 0
    nextSeq := [], unacked := [], tracks := [], messages := [], reorder := [], nextMsg := 0
    ops := [], parked := [], groupSeq := [], stats := []
    integVerdict := 0, spareUsed_ := false, sparePending := false, spareTesting := false, spareFailed := false
    checkerFailed := false, overdue := false, retiredArrays := 0, captureLost := 0, compareRetries := 0
   , capture := none, borrowing := none, quietWork := [], retiredAt := 0
    aggregate := [], counters := Vector.replicate 32 Counter.reset, hists := Vector.replicate 8 Histogram.reset
    bw := Vector.replicate 5 BwWin.reset, tallies := [], tallyMissed := 0, lastTally := none, recordSeq := 0
    capPower := false, capTemp := false, capMargin := false, thermalMhz := 1400, powerMhz := 1400
    marginMhz := 1400, vddMv := 0, dieTempC := 0, stackTempC := 0, thermalEpisode := none
    tapSide := DebugSt.reset }

/-- A stream as a launch leaves it before its entry is set (01 Table 1.11). -/
def Stream.reset : Stream :=
  { launched := false, pc := 0, entry := 0, hold := none, heldSince := 0, seedVector := 0, seedUpdate := 0, accMode := false
    promoInterval := 16, timeoutUs := 10000000, fenced := false, mkStep := 0, quietEn := false, quietUs := 0
    rounds := 0, inflight := [], issued := 0, nextSample := 0, tagged := false, halted := false, single := false, pair := none }

/-- Mailbox m (15 Table 15.5). -/
def MbxSt.reset (m : Nat) : MbxSt :=
  { cmdBase := 0, cmdSize := 4, cmdEnable := false, cmdTail := 0, cmdHead := 0
    cplBase := 0, cplSize := 4, cplEnable := false, cplVector := BitVec.ofNat 6 (2 * m), cplHead := 0, cplTail := 0
    evtBase := 0, evtSize := 4, evtEnable := false, evtIrqEn := false
    evtVector := BitVec.ofNat 6 (2 * m + 1), evtHead := 0, evtTail := 0
    fetchErr := false, tailErr := false, linkRecovered := false, evtDropped := 0
    started := none, aborts := 0, fetched := [], heldCpl := [], heldEvt := [] }

def LinkSt.reset : LinkSt :=
  { state := 0, exits := [], replays := 0, uncorrected := 0, correctedSymbols := 0
    freed := Vector.replicate 8 0, peerFreed := Vector.replicate 8 0, sent := Vector.replicate 8 0
    rxSeq := 0, rxAny := false, waitingReplay := false, txSeq := 0, replay := [], open_ := [], rr := 5, control := [], resent := []
    sameReplays := (0, 0), replayTimes := [], hello := none, trained := false, fresh := true, partialIn := [] }

def Collector.reset : Collector := { enable := false, address := 0, port := 0 }

def Flash.reset : Flash :=
  { slotA := none, slotB := none, preferB := false, calibration := none, staging := none, keyGeneration := 0
    keyValid := 0, keys := [], gambits := [], lifetime := [], rolling := [], captures := [], captureOrder := 0
    collectors := Vector.replicate 2 Collector.reset, badBlocks := 0, rollEraseMax := 0, rollBytes := 0
    chainLifetimeBroken := false, chainRollingBroken := false }

def Fuses.reset : Fuses :=
  { deviceId := 0, romDigest := 0, fwKeyHash := 0, calKeyHash := 0, serviceKeyHash := 0, secVersion := 0, repairs := [] }

def BootSt.reset : BootSt :=
  { stage := 0, deviceFault := false, bootCount := 0, cause := 1, cleanShutdown := false, runningB := false
    runningSec := 0, runningPkg := [], calInForce := [], nonce := none, unlocked := false, scope := 0
    scopeDies := 0, unlockedSinceBoot := false, writeUsed := false, scopesGranted := 0, push := [] }

def PowerSt.reset : PowerSt :=
  { state := .reset, pwrEn := true, resetAsserted := true, railsOk := true, resetHold := false
    shutdownReq := false, shutdownAck := false, readyN := false, faultN := false, thermtripN := false
    inputMv := 52000, rideThrough := none, inputPeakMv := 52000, limitCode := 3, effectiveW := 3400, inputW := 0
    belowCount := 0, skipAlternate := false, episode := none, inletMilliC := 0, outletMilliC := 0
    coolantHigh := false, hostRefclk := true, fabRefclk := true, starting := false }

def FabricSt.reset : FabricSt :=
  { logical := 0, px := 0, py := 0, pz := 0, pw := 0, dxM1 := 0, dyM1 := 0, dzM1 := 0, dwM1 := 0, remapGen := 0
    e2eUs := 100, remap := [], multicast := [], groups := [], waiting := [], inbox := [], discards := []
    unreachable := [], swap := none }

def SpdmSt.reset : SpdmSt := { response := [], negotiated := false, vca := [], certs := [], measured := [] }

def HostSt.reset : HostSt :=
  { link := none, poisonReads := 0, discards := 0, msix := [], raised := [], component := [], lastRead := ([], false)
    spdmDoe := SpdmSt.reset, spdmMctp := SpdmSt.reset, pldm := [] }

/-- Table 12.10's Reset column as one word: 24, 48, 24, 48, 7, 14, 60, BORROW_EN 1. -/
def integrityDefault : BitVec 128 := 0x083C0E0730183018

def LedgerSt.reset : LedgerSt :=
  { queue := [], rollDropped := 0, rollDroppedBoot := 0, lifetimeFull := false, nearFull := false
    chainBroken := false, verdict := 0, checkpointMin := 60, lastCheckpoint := 0, rollWrites := [], tallyCtx := none
    tallyMinUs := 100000, tallyPeriodUs := 1000000, tallyRing := none, send := [], history := [], dgramSeq := 0
    integrityPolicy := integrityDefault, scrubHours := 24, mctpResponses := [] }

/-- The module right after reset: rails up, RESET_N asserted, BOOT_STAGE 0x00, nothing in any memory. -/
def State.reset : State :=
  { pending := [], freeCtr := 0, now := 0
    stack := [], stackPoison := [], scratch := [], scratchPoison := [], tags := [], hostMem := [], hostPoison := []
    sems := [], program := []
    numericsRev := 0, fwRev := 0, dieMask := 0xFFFFF, portMask := 0xFF, tableGen := 0
    dies := Vector.replicate 20 DieSt.reset, ctxs := Vector.replicate 8 none
    mailboxes := Vector.ofFn fun m => MbxSt.reset m.val
    links := Vector.replicate 32 LinkSt.reset
    fabric := FabricSt.reset, host := HostSt.reset, ledger := LedgerSt.reset, flash := Flash.reset
    fuses := Fuses.reset, bootSt := BootSt.reset, power := PowerSt.reset }

end Sys2Proof.Machine
end

