-- ==== Sys2Proof/Machine/Maps.lean ====
section
/-! DEFINITION. The one sparse table of the model: reading, writing and its canonical form. -/
namespace Sys2Proof.Machine

/-- What key k reads as; `d` is what an unlisted key reads as. -/
def SMap.get {α : Type} (d : α) : SMap α → Nat → α
  | [], _ => d
  | (j, v) :: rest, k => if j = k then v else SMap.get d rest k

/-- Drops key k. -/
def SMap.erase {α : Type} : SMap α → Nat → SMap α
  | [], _ => []
  | (j, v) :: rest, k => if j = k then rest else if k < j then (j, v) :: rest else (j, v) :: SMap.erase rest k

/-- Lists v at key k, keeping the keys rising. -/
def SMap.insert {α : Type} : SMap α → Nat → α → SMap α
  | [], k, v => [(k, v)]
  | (j, u) :: rest, k, v =>
    if k < j then (k, v) :: (j, u) :: rest
    else if k = j then (k, v) :: rest
    else (j, u) :: SMap.insert rest k v

/-- Writes v at key k: writing what an unlisted key reads as removes the entry. -/
def SMap.put {α : Type} [DecidableEq α] (d : α) (m : SMap α) (k : Nat) (v : α) : SMap α :=
  if v = d then SMap.erase m k else SMap.insert m k v

/-- The key and value are listed. -/
def SMap.find {α : Type} : SMap α → Nat → Option α
  | [], _ => none
  | (j, v) :: rest, k => if j = k then some v else SMap.find rest k

/-- Drops every key from lo up to, but not including, hi. -/
def SMap.eraseRange {α : Type} (m : SMap α) (lo hi : Nat) : SMap α := m.filter fun e => e.1 < lo || hi ≤ e.1

/-- Writes every entry of the first table, whose keys rise, into the second, by fuel. -/
def SMap.mergeFuel {α : Type} [DecidableEq α] (d : α) : Nat → SMap α → SMap α → SMap α
  | 0, _, m => m
  | _ + 1, [], m => m
  | n + 1, (j, v) :: new, m =>
    match m with
    | [] => if v = d then SMap.mergeFuel d n new [] else (j, v) :: SMap.mergeFuel d n new []
    | (k, u) :: rest =>
      if k < j then (k, u) :: SMap.mergeFuel d n ((j, v) :: new) rest
      else
        let rest := if k = j then rest else (k, u) :: rest
        if v = d then SMap.mergeFuel d n new rest else (j, v) :: SMap.mergeFuel d n new rest

def SMap.merge {α : Type} [DecidableEq α] (d : α) (new m : SMap α) : SMap α :=
  SMap.mergeFuel d (new.length + m.length + 1) new m

/-- Every key of m is above k. -/
def SMap.above {α : Type} (k : Nat) : SMap α → Bool
  | [] => true
  | (j, _) :: rest => k < j && SMap.above k rest

/-- The canonical form: keys strictly rising, and no entry equal to what an unlisted key reads as. -/
def SMap.wf {α : Type} [DecidableEq α] (d : α) : SMap α → Bool
  | [] => true
  | (j, v) :: rest => decide (v ≠ d) && SMap.above j rest && SMap.wf d rest

end Sys2Proof.Machine
end

