-- ==== Sys2Proof/Machine/Ops.lean ====
section
/-! DEFINITION. Named operations over the registers, the memories, the records and the faults of the block. -/
namespace Sys2Proof.Machine

/-! ### Dies, contexts, streams -/

def dieOf (n : Nat) : Die := ⟨n % 20, Nat.mod_lt _ (by decide)⟩
def ctxOf (n : Nat) : Ctx := ⟨n % 8, Nat.mod_lt _ (by decide)⟩
def mbxOf (n : Nat) : Mbx := ⟨n % 9, Nat.mod_lt _ (by decide)⟩
def linkOf (n : Nat) : Link := ⟨n % 32, Nat.mod_lt _ (by decide)⟩
def arrOf (n : Nat) : Arr := ⟨n % 7, Nat.mod_lt _ (by decide)⟩
def pcOf (n : Nat) : Pc := ⟨n % 64, Nat.mod_lt _ (by decide)⟩

def State.die (s : State) (d : Die) : DieSt := s.dies[d]

def State.updDie (s : State) (d : Die) (f : DieSt → DieSt) : State := { s with dies := s.dies.set d (f s.dies[d]) }

def State.updDies (s : State) (f : Die → DieSt → DieSt) : State :=
  { s with dies := Vector.ofFn fun d => f d s.dies[d] }

def State.ctx (s : State) (c : Ctx) : Option CtxSt := s.ctxs[c]

def State.updCtx (s : State) (c : Ctx) (f : CtxSt → CtxSt) : State :=
  { s with ctxs := s.ctxs.set c ((s.ctxs[c]).map f) }

def State.setCtx (s : State) (c : Ctx) (x : Option CtxSt) : State := { s with ctxs := s.ctxs.set c x }

def CtxSt.stream (x : CtxSt) (d : Die) : Stream := x.streams[d]

def CtxSt.updStream (x : CtxSt) (d : Die) (f : Stream → Stream) : CtxSt :=
  { x with streams := x.streams.set d (f x.streams[d]) }

def CtxSt.updStreams (x : CtxSt) (f : Die → Stream → Stream) : CtxSt :=
  { x with streams := Vector.ofFn fun d => f d x.streams[d] }

def State.stream (s : State) (d : Die) (c : Ctx) : Option Stream := (s.ctx c).map (·.stream d)

def State.updStream (s : State) (d : Die) (c : Ctx) (f : Stream → Stream) : State :=
  s.updCtx c (·.updStream d f)

def State.mbx (s : State) (m : Mbx) : MbxSt := s.mailboxes[m]

def State.updMbx (s : State) (m : Mbx) (f : MbxSt → MbxSt) : State :=
  { s with mailboxes := s.mailboxes.set m (f s.mailboxes[m]) }

def State.link (s : State) (l : Link) : LinkSt := s.links[l]

def State.updLink (s : State) (l : Link) (f : LinkSt → LinkSt) : State :=
  { s with links := s.links.set l (f s.links[l]) }

def State.dieInService (s : State) (d : Die) : Bool := s.dieMask.getLsbD d

/-- Some stream of the context is launched. -/
def CtxSt.running (x : CtxSt) : Bool := x.streams.toList.any (·.launched)

/-- A microsecond passes (log 5). -/
def State.tick (s : State) : State := { s with now := s.now + 1 }

/-- Draws the next free value. -/
def State.draw (s : State) : Nat × State := (s.freeCtr, { s with freeCtr := s.freeCtr + 1 })

/-! ### Arrays present (01 R25) -/

def DieSt.present (x : DieSt) : List Nat := (onesOf x.arrayMask).filter fun a => !x.arrayAbsent.getLsbD a

def DieSt.activeArrays (x : DieSt) : Nat := x.present.length

/-- The physical array a logical index maps to. -/
def DieSt.physOf (x : DieSt) (i : Nat) : Option Nat := x.present[i % x.activeArrays]?

/-! ### Places in memory -/

/-- A byte's place: a die's scratchpad, a die's stack, host memory behind the window. -/
inductive Place where
  | sp (die off : Nat)
  | st (die off : Nat)
  | host (h : Nat)
  deriving DecidableEq, Repr

def spKey (die off : Nat) : Nat := die * 2 ^ 26 + off
def stKey (die off : Nat) : Nat := die * 2 ^ 36 + off
def spWordKey (die off : Nat) : Nat := die * 2 ^ 21 + off / 32
def cwKey (die off : Nat) : Nat := die * 2 ^ 30 + off / 64

/-- The place n bytes further. -/
def Place.plus : Place → Nat → Place
  | .sp d o, n => .sp d (o + n)
  | .st d o, n => .st d (o + n)
  | .host h, n => .host (h + n)

/-- A striped offset's stack and local offset (08 R181). -/
def stripe (off : Nat) : Nat × Nat :=
  let g := off / 2048
  (g % 20, (g / 20) * 2048 + off % 2048)

/-- A device address as seen from a die (08 Table 8.2); none: outside every range. -/
def deviceAddr (die a : Nat) : Option Place :=
  if a < 0x001000000000 then some (.st die a)
  else if a < 0x015000000000 then some (.st (a / 2 ^ 36 - 1) (a % 2 ^ 36))
  else if a < 0x100000000000 then none
  else if a < 0x114000000000 then let (d, l) := stripe (a - 0x100000000000); some (.st d l)
  else if a < 0x800000000000 then none
  else if a < 0x1000000000000 then some (.host (a - 0x800000000000))
  else none

/-- A striped address moves between stacks inside a run, so a byte is always looked up by its own device address. -/
def pageOf (off : Nat) : Nat := off / 65536

def State.isRetired (s : State) (die off : Nat) : Bool := (s.die (dieOf die)).retired.contains (pageOf off)

/-- The stored byte at a place. -/
def State.byteAt (s : State) : Place → Byte
  | .sp d o => SMap.get 0 s.scratch (spKey d o)
  | .st d o => SMap.get 0 s.stack (stKey d o)
  | .host h => SMap.get 0 s.hostMem h

/-- Addresses in a die's memory-poison list (12 R298). -/
def State.poisonListed (s : State) (d : Nat) : Nat :=
  s.stackPoison.countP (fun e => decide (e.1 / 2 ^ 30 = d ∧ e.2 = Origin.memory)) +
    s.scratchPoison.countP (fun e => decide (e.1 / 2 ^ 21 = d ∧ e.2 = Origin.memory))

/-- The memory-poison list of a die holds 8,192 addresses (12 R298). -/
def State.poisonListFull (s : State) (d : Nat) : Bool := 8192 ≤ s.poisonListed d

/-- Origin as the readers treat it: with a full list every poisoned address of the die is memory-origin (12 R298). -/
def State.originOf (s : State) (d : Nat) (o : Option Origin) : Option Origin :=
  o.map fun x => if s.poisonListFull d then .memory else x

/-- Poison and its origin at a place (08 R191, R197; 09 R201; 12 R298). A retired page reads as memory-origin poison. -/
def State.poisonAt (s : State) : Place → Option Origin
  | .sp d o => s.originOf d (SMap.find s.scratchPoison (spWordKey d o))
  | .st d o => if s.isRetired d o then some .memory else s.originOf d (SMap.find s.stackPoison (cwKey d o))
  | .host h => (SMap.find s.hostPoison (h / 64)).map fun _ => .memory

/-- Stores a byte, poison aside. A write to a retired page is discarded (08 R197). -/
def State.putByte (s : State) (p : Place) (b : Byte) : State :=
  match p with
  | .sp d o => { s with scratch := SMap.put 0 s.scratch (spKey d o) b }
  | .st d o => if s.isRetired d o then s else { s with stack := SMap.put 0 s.stack (stKey d o) b }
  | .host h => { s with hostMem := SMap.put 0 s.hostMem h b }

def State.putBytes (s : State) (p : Place) (bs : Bytes) : State :=
  (bs.foldl (fun (acc : State × Nat) b => (acc.1.putByte (p.plus acc.2) b, acc.2 + 1)) (s, 0)).1

/-- Bytes of one protection unit: a 32-byte scratchpad word, a 64-byte codeword, a 64-byte host line. -/
def Place.unit : Place → Nat
  | .sp _ _ => 32
  | _ => 64

def Place.off : Place → Nat
  | .sp _ o => o
  | .st _ o => o
  | .host h => h

/-- Marks the unit at a place poisoned. Memory-origin poison that a full list cannot take is kept unlisted, and an address that
is listed already stays so (12 R298). -/
def State.mark (s : State) (p : Place) (o : Origin) : State :=
  match p with
  | .sp d off =>
    let o := if s.poisonListFull d && SMap.find s.scratchPoison (spWordKey d off) ≠ some .memory then .compute else o
    { s with scratchPoison := SMap.insert s.scratchPoison (spWordKey d off) o }
  | .st d off =>
    let o := if s.poisonListFull d && SMap.find s.stackPoison (cwKey d off) ≠ some .memory then .compute else o
    if s.isRetired d off then s else { s with stackPoison := SMap.insert s.stackPoison (cwKey d off) o }
  | .host h => { s with hostPoison := SMap.insert s.hostPoison (h / 64) true }

def State.unmark (s : State) (p : Place) : State :=
  match p with
  | .sp d off => { s with scratchPoison := SMap.erase s.scratchPoison (spWordKey d off) }
  | .st d off => { s with stackPoison := SMap.erase s.stackPoison (cwKey d off) }
  | .host h => { s with hostPoison := SMap.erase s.hostPoison (h / 64) }

/-- Poison bookkeeping of a write of n bytes at p: a full unit of unmarked data clears it, of marked data leaves
compute-origin poison; a partial write leaves poison and origin as they were, and marks a clean unit when its data is
marked (08 R191, 09 R201, 12 R298). -/
def State.touchUnits (s : State) (p : Place) (n : Nat) (poison : Bool) : State :=
  if n = 0 then s else
    let u := p.unit
    let first := p.off / u
    let last := (p.off + n - 1) / u
    (List.range (last + 1 - first)).foldl (fun st i =>
      let base := (first + i) * u
      let q : Place := match p with
        | .sp d _ => .sp d base
        | .st d _ => .st d base
        | .host _ => .host base
      let full := p.off ≤ base && base + u ≤ p.off + n
      if full then (if poison then st.mark q .compute else st.unmark q)
      else if poison && (st.poisonAt q).isNone then st.mark q .compute
      else st) s

/-- A write of a run of bytes that lies in one place. -/
def State.write (s : State) (p : Place) (bs : Bytes) (poison : Bool) : State :=
  (s.putBytes p bs).touchUnits p bs.length poison

/-- A run's stored bytes. -/
def State.read (s : State) (p : Place) (n : Nat) : Bytes := (List.range n).map fun i => s.byteAt (p.plus i)

/-- Poison marks byte by byte. -/
def State.readPoison (s : State) (p : Place) (n : Nat) : List (Option Origin) :=
  (List.range n).map fun i => s.poisonAt (p.plus i)

/-! ### Semaphores (01 R15, R16) -/

/-- A context-relative semaphore's place. -/
def semKey (d : Die) (base i : Nat) : Nat := d.val * 256 + (base + i)

def State.sem (s : State) (d : Die) (c : Ctx) (i : Nat) : BitVec 32 :=
  match s.ctx c with
  | some x => SMap.get 0 s.sems (semKey d x.semBase i)
  | none => 0

def State.semSet (s : State) (d : Die) (c : Ctx) (i : Nat) (v : BitVec 32) : State :=
  match s.ctx c with
  | some x => if i < x.semCount then { s with sems := SMap.put 0 s.sems (semKey d x.semBase i) v } else s
  | none => s

/-- Adds modulo 2^32 (01 R15). -/
def State.semAdd (s : State) (d : Die) (c : Ctx) (i : Nat) (v : BitVec 32) : State :=
  s.semSet d c i (s.sem d c i + v)

/-- S satisfies T when (S − T) mod 2^32 is below 2^31 (01 R16). -/
def satisfies (sv t : BitVec 32) : Bool := (sv - t).toNat < 2 ^ 31

/-! ### Counters (13 R321, R322, R325) -/

/-- Does a select word count this occurrence? -/
def selects (sel : BitVec 64) (ev qual : Nat) (c : Option Nat) : Bool :=
  fld sel 11 0 = ev && ev ≠ 0 && (bit sel 24 || fld sel 23 12 = qual) && (!bit sel 28 || c = some (fld sel 27 25))

/-- n occurrences of an event on a die. -/
def State.count (s : State) (d : Die) (ev qual : Nat) (c : Option Nat) (n : Nat := 1) : State :=
  s.updDie d fun x => { x with
    aggregate := SMap.put 0 x.aggregate ev (SMap.get 0 x.aggregate ev + BitVec.ofNat 64 n)
    counters := x.counters.map fun k => if selects k.select ev qual c then { k with value := k.value + BitVec.ofNat 64 n } else k }

/-- Histogram bin of a latency (13 R325). -/
def histBin (l : Nat) : Nat :=
  let l := min l (2 ^ 32 - 1)
  if l < 4 then l else 2 * Nat.log2 l + (l >>> (Nat.log2 l - 1)) % 2

def Histogram.add (h : Histogram) (l : Nat) : Histogram :=
  let v := min l (2 ^ 32 - 1)
  { h with
    bins := SMap.put 0 h.bins (histBin l) (BitVec.ofNat 32 (satAdd 32 (SMap.get 0 h.bins (histBin l)).toNat 1))
    count := h.count + 1, sum := h.sum + BitVec.ofNat 64 v, max := BitVec.ofNat 32 (Nat.max h.max.toNat v) }

/-- Does a histogram measure this source (13 Table 13.5)? -/
def Histogram.selected (h : Histogram) (source qual : Nat) (c : Option Nat) : Bool :=
  decide (fld h.select 3 0 = source) && (bit h.select 16 || decide (fld h.select 15 4 = qual)) &&
    (!bit h.select 20 || decide (c = some (fld h.select 19 17)))

/-- A histogram as the write of its select word leaves it (13 R326). -/
def Histogram.fresh (select : BitVec 32) (since : Nat) : Histogram := { Histogram.reset with select := select, since := since }

/-- The histogram measures this source, and was set before the measurement began at `start` (13 R326). -/
def Histogram.takes (h : Histogram) (source qual : Nat) (c : Option Nat) (start : Nat) : Bool :=
  h.selected source qual c && decide (h.since < start)

/-- Every histogram of the die that measures this source takes the latency, which is a free value (log 7). A measurement that
began before its select word was written is discarded (13 R326); `start` is the count of free values at its beginning. -/
def State.measure (s : State) (d : Die) (source qual : Nat) (c : Option Nat) (start : Nat) : State :=
  if (s.die d).hists.toList.any fun h => h.takes source qual c start then
    let (n, s) := s.draw
    s.updDie d fun x => { x with hists := x.hists.map fun h => if h.takes source qual c start then h.add (Config.stamp n).toNat else h }
  else s

/-- Units of a bandwidth instance's running window (13 R324): sent, and received. -/
def State.addUnits (s : State) (d : Die) (i : Fin 5) (tx rx : Nat) : State :=
  s.updDie d fun x => { x with bw := x.bw.set i { x.bw[i] with txNow := x.bw[i].txNow + tx, rxNow := x.bw[i].rxNow + rx } }

/-! ### Records and events (13 Tables 13.9, 13.12; 15 R375) -/

/-- The 64-byte event body (13 Table 13.12). -/
def eventBody (action reason unit inst a b c d : Nat) : Bytes :=
  leBytes 64 (packNat [(action, 8), (reason, 8), (unit, 8), (0, 8), (inst, 16), (0, 16), (a, 64), (b, 64), (c, 64), (d, 256)])

/-- The 64-byte Wearis header with LSEQ and LINK still 0 (13 Table 13.9). -/
def recHeader (type tier : Nat) (deviceLevel : Bool) (step : Option Nat) (len16 die ctx seq boot cycle : Nat) : Bytes :=
  leBytes 64 (packNat [(type, 8), (1, 4), (tier, 2), (b2n deviceLevel, 1), (b2n step.isSome, 1), (len16, 12), (die, 5),
    (0, 7), (ctx, 8), (0, 16), (step.getD 0, 64), (seq, 32), (boot, 32), (cycle, 64)])

/-- A record of a die: draws its cycle count, takes the next record sequence number (13 R333). -/
def State.makeRec (s : State) (d : Die) (type tier : Nat) (deviceLevel : Bool) (step : Option Nat) (ctx : Option Nat)
    (body : Bytes) : Bytes × State :=
  let (n, s) := s.draw
  let seq := (s.die d).recordSeq
  let s := s.updDie d fun x => { x with recordSeq := x.recordSeq + 1 }
  let body := padTo (ceilDiv body.length 16 * 16) body
  (recHeader type tier deviceLevel step (4 + body.length / 16) d (ctx.getD 0xFF) seq.toNat s.bootSt.bootCount.toNat
    (Config.cycle n).toNat ++ body, s)

/-- Bytes of records that wait. -/
def queueBytes (q : List Rec) : Nat := (q.map (·.bytes.length)).foldl (· + ·) 0

/-- Drops the oldest rolling records until what is left is no more than 4 MiB, or none is left. -/
def dropRolling : Nat → List Rec → List Rec
  | 0, q => q
  | n + 1, q =>
    if queueBytes q ≤ 4194304 then q
    else match q.findIdx? (fun e => e.tier = 1) with
      | some i => dropRolling n (q.eraseIdx i)
      | none => q

/-- Puts a record into the queue. A queue of more than 4 MiB drops its oldest rolling records; each is counted (13 R333). -/
def State.enqueue (s : State) (r : Rec) : State :=
  let all := s.ledger.queue ++ [r]
  if queueBytes all ≤ 4194304 then { s with ledger := { s.ledger with queue := all } }
  else
    let q := dropRolling all.length all
    let k := all.length - q.length
    ({ s with ledger := { s.ledger with
      queue := q, rollDropped := s.ledger.rollDropped + k
      rollDroppedBoot := BitVec.ofNat 32 (satAdd 32 s.ledger.rollDroppedBoot.toNat k) } }).count 0 0xA04 0 none k

/-- What background work did, unless it would add a lifetime record to a full queue: then it waits, and is sent again (13
R333; log 11). -/
def State.unlessFull (s t : State) : State :=
  if 4194304 < queueBytes t.ledger.queue && queueBytes s.ledger.queue < queueBytes t.ledger.queue then s else t

/-- A command of background work. -/
def background (s : State) (o : Host.Outcome State Fault Refusal) : Host.Outcome State Fault Refusal :=
  match o with
  | .next t => .next (s.unlessFull t)
  | o => o

/-- Raises an MSI-X vector (15 R370). -/
def State.raise (s : State) (v : Nat) : State :=
  { s with host := { s.host with raised := SMap.put 0 s.host.raised v (SMap.get 0 s.host.raised v + 1) } }

/-- Writes an event into a mailbox's ring, or holds or drops it (15 R364, R375). -/
def State.postEvent (s : State) (m : Mbx) (r : Bytes) : State :=
  let x := s.mbx m
  let dropIt := s.updMbx m fun x => { x with evtDropped := BitVec.ofNat 32 (satAdd 32 x.evtDropped.toNat 1) }
  if !x.evtEnable then dropIt
  else if s.host.link.isNone then
    if x.heldEvt.length < 256 then s.updMbx m fun x => { x with heldEvt := x.heldEvt ++ [r] } else dropIt
  else if (x.evtTail - x.evtHead).toNat ≥ 2 ^ x.evtSize.toNat then dropIt
  else
    let slot := x.evtTail.toNat % 2 ^ x.evtSize.toNat
    let s := s.write (.host (x.evtBase.toNat / 4096 * 4096 + 512 * slot)) (padTo 512 r) false
    let s := s.updMbx m fun x => { x with evtTail := x.evtTail + 1 }
    if x.evtIrqEn then s.raise x.evtVector.toNat else s

/-- Posts an event: to mailbox 0, and to the context's own mailbox (15 R375). -/
def State.post (s : State) (c : Option Nat) (r : Bytes) : State :=
  let s := match c with
    | some c => if c < 8 then s.postEvent (mbxOf (c + 1)) r else s
    | none => s
  s.postEvent 0 r

/-- STEP of a context for its records: the step it works on (13 Table 13.9). -/
def CtxSt.stepNow (x : CtxSt) : Nat := match x.lastStep with | some n => n + 1 | none => x.startStep

def State.stepOf (s : State) (c : Option Nat) : Option Nat :=
  match c with
  | some c => (s.ctx (ctxOf c)).map (·.stepNow)
  | none => match s.ledger.tallyCtx with
    | some t => (s.ctx (ctxOf t)).map (·.stepNow)
    | none => none

/-- A record that goes to the ledger: made, queued with its tier, and for the event types posted to the host with tier
unledgered (13 Table 13.13, 15 R375). -/
def State.logWith (s : State) (d : Die) (device : Bool) (type tier : Nat) (c : Option Nat) (toHost : Bool) (body : Bytes) : State :=
  let (r, s) := s.makeRec d type tier device (s.stepOf c) c body
  let s := s.enqueue { bytes := r, tier := tier }
  if toHost then s.post c (leBytes 2 (leAt r 0 2 % 2 ^ 12 + 2 * 2 ^ 12 + leAt r 0 2 / 2 ^ 14 * 2 ^ 14) ++ r.drop 2) else s

/-- A die's record. -/
def State.log (s : State) (d : Die) (type tier : Nat) (c : Option Nat) (toHost : Bool) (body : Bytes) : State :=
  s.logWith d false type tier c toHost body

/-- A record of the device controller for the device as a whole. -/
def State.logDevice (s : State) (type tier : Nat) (c : Option Nat) (toHost : Bool) (body : Bytes) : State :=
  s.logWith 0 true type tier c toHost body

/-- A host-type event: never in flash, never sent to the network (15 R375). -/
def State.hostEvent (s : State) (type : Nat) (c : Option Nat) (body : Bytes) : State :=
  let (r, s) := s.makeRec 0 type 2 true (s.stepOf c) c body
  s.post c r

/-- A change of the geometry table: TABLE_GEN and the event of 01 R24. `inst` is the die, or 0xFF for the header. -/
def State.geometryChange (s : State) (inst : Nat) : State :=
  let s := { s with tableGen := s.tableGen + 1 }
  s.hostEvent 0x80 none (eventBody 0 0 13 inst s.tableGen.toNat 0 0 0)

/-! ### Stopping a context (01 R13, 06 R149, 11 R275) -/

def StopCause.code : StopCause → Nat
  | .none => 0
  | .program => 1
  | .partial_ => 2
  | .skipLimit => 3
  | .memory => 4
  | .isolated => 5
  | .device => 6
  | .lost => 7
  | .unrecoverable => 8
  | .halted => 9

/-- The cause of greater code wins; a cause without one yields (14 R354). -/
def StopCause.worse (a b : StopCause) : StopCause := if a.code < b.code then b else a

/-- The context's streams stop on every die. Its parked payloads, its open collective slots and the halves that its receipts hold
open are discarded. -/
def State.stopStreams (s : State) (c : Ctx) (cause : StopCause) : State :=
  let s := s.updCtx c fun x => { x with
    streams := x.streams.map fun t => { t with launched := false, hold := none, fenced := false, quietEn := false }
    quietUntil := none
    stopped := some (match x.stopped with | some a => a.worse cause | none => cause) }
  s.updDies fun _ x => { x with
    ops := x.ops.filter (·.ctx ≠ c.val), parked := x.parked.filter (·.ctx ≠ c.val)
    accs := x.accs.filter fun a => !(a.ctx = c.val && a.phase = .receipt) }

/-- The sync timeout or the collective timeout ends the backoffs of a context's packets (10 R260). -/
def State.endBackoffs (s : State) (c : Ctx) : State :=
  s.updDies fun _ x => { x with unacked := x.unacked.filter fun k => !(k.ctx = c.val && 1 ≤ k.waitReason && k.waitReason ≤ 3) }

/-- Ors bits into the running verdict (06 R148). -/
def State.orVerdict (s : State) (c : Ctx) (v : BitVec 64) : State :=
  s.updCtx c fun x => { x with verdict := x.verdict ||| v }

def vNonfinite : BitVec 64 := 1
def vTainted : BitVec 64 := 2
def vFault : BitVec 64 := 4
def vSkip : BitVec 64 := 8

/-- Contributes FAULT to the running verdict and to the step and round verdicts that are pending (06 R149). -/
def State.contributeFault (s : State) (c : Ctx) : State :=
  s.updCtx c fun x => { x with
    verdict := x.verdict ||| vFault, mkSent := x.mkSent.map fun e => (e.1, e.2 ||| vFault), roundSent := x.roundSent.map (· ||| vFault) }

/-- A fault that stops the context: streams stop and FAULT is contributed (06 R149). -/
def State.faultStop (s : State) (c : Ctx) (cause : StopCause) : State := (s.contributeFault c).stopStreams c cause

/-! ### Fault records (13 Table 13.13, TYPE 0x05) -/

/-- What a fault record carries. -/
structure FaultInfo where
  /-- 1 compute, 2 memory, 3 device, 4 context -/
  cls : Nat
  /-- REASON of Table 13.13 -/
  reason : Nat
  sub : Nat := 0
  unit : Nat := 8
  inst : Nat := 0
  valueB : Nat := 0
  valueC : Nat := 0
  valueD : Nat := 0
  second : Nat := 0
  deriving DecidableEq, Repr

def FaultInfo.body (f : FaultInfo) (addr : Nat) : Bytes :=
  eventBody f.cls f.reason f.unit f.inst (addr % 2 ^ 32 + f.sub % 256 * 2 ^ 32) f.valueB f.valueC
    (f.valueD % 2 ^ 64 + f.second % 2 ^ 64 * 2 ^ 64)

/-- Records a fault, to the host and the ledger. -/
def State.recordFault (s : State) (d : Die) (c : Option Nat) (addr : Nat) (f : FaultInfo) : State :=
  s.log d 0x05 0 c true (f.body addr)

/-- Event number that a fault of this reason counts in, with its qualifier (13 Table 13.2). -/
def FaultInfo.event (f : FaultInfo) : Option (Nat × Nat) :=
  match f.reason with
  | 1 => some (0x004, 0)
  | 2 => some (0x004, 0)
  | 3 => some (0x004, 0)
  | 5 => some (0x205, 0)
  | 6 => some (0x204, f.sub)
  | 7 => some (0x103, f.inst)
  | 10 => some (0x302, 0)
  | 11 => some (0x404, 0)
  | 12 => some (0x604, f.unit)
  | 13 => some (0x606, 0)
  | 14 => some (0x405, f.sub)
  | 16 => some (0x805, f.sub)
  | _ => none

def State.countFault (s : State) (d : Die) (c : Option Nat) (f : FaultInfo) : State :=
  match f.event with
  | some (e, q) => s.count d e q c
  | none => s

/-- A fault that stops the context's streams on every die and is reported (01 R13, R17, R22; 03 R55; 04 R99; 06 R153;
10 R260; 11 R276). -/
def State.stopFault (s : State) (d : Die) (c : Ctx) (addr : Nat) (f : FaultInfo) (cause : StopCause := .program) : State :=
  ((s.countFault d (some c.val) f).recordFault d (some c.val) addr f).faultStop c cause

/-- A compute fault: recorded, TAINTED set, streams go on (12 R296). -/
def State.computeFault (s : State) (d : Die) (c : Ctx) (addr : Nat) (f : FaultInfo) : State :=
  ((s.countFault d (some c.val) f).recordFault d (some c.val) addr f).orVerdict c vTainted

/-- A memory-class fault kills the consuming context (12 R299). -/
def State.kill (s : State) (d : Die) (c : Ctx) (addr : Nat) (f : FaultInfo) : State :=
  (((s.countFault d (some c.val) f).recordFault d (some c.val) addr f).orVerdict c vTainted).faultStop c .memory

/-- A device fault: every context stops (12 R301). -/
def State.deviceFaultNow (s : State) (d : Die) (f : FaultInfo) : State :=
  let s := s.recordFault d none 0 f
  let s := (List.finRange 8).foldl (fun st c => if (st.ctx c).isSome then st.faultStop c .device else st) s
  ({ s with bootSt := { s.bootSt with deviceFault := true }, power := { s.power with faultN := true } }).raise 18

/-! ### A context's ranges (01 R22) -/

/-- Some byte of a range lies outside: is the local byte (die, off) of a stack in the context's ranges? -/
def CtxSt.ownsStack (x : CtxSt) (die off : Nat) : Bool :=
  x.ranges.any fun r =>
    (r.kind = 0 && r.die = die && r.base ≤ off && off < r.base + r.len)
    || (r.kind = 1 && r.base / 20 ≤ off && off < (r.base + r.len) / 20)

def CtxSt.ownsSp (x : CtxSt) (die off : Nat) : Bool :=
  x.ranges.any fun r => r.kind = 2 && r.die = die && r.base ≤ off && off < r.base + r.len

/-- A place is inside the context's ranges; the host window is not checked against them (01 R22, 15 R368). -/
def CtxSt.owns (x : CtxSt) : Place → Bool
  | .sp d o => x.ownsSp d o
  | .st d o => x.ownsStack d o
  | .host _ => true

/-- Every byte of a run of device addresses is inside; the run is looked at where a range or a stripe can end. -/
def CtxSt.ownsRun (x : CtxSt) (at_ : Nat → Option Place) (n : Nat) : Bool :=
  (List.range n).all fun i => match at_ i with | some p => x.owns p | none => false

end Sys2Proof.Machine
end

