-- ==== Sys2Proof/Machine/Stack.lean ====
section
/-! DEFINITION. What a controller does with one codeword: counting, decoding, correcting, poisoning, and judging pins
and rows (08 R187 to R198). -/
namespace Sys2Proof.Machine

/-- Pseudo-channel of a local offset (08 Table 8.3). -/
def pcNum (off : Nat) : Nat := off / 1024 % 64

/-- A row of a pseudo-channel as one number: pseudo-channel and page, since a page holds one row of each (08 R180). -/
def rowId (pc page : Nat) : Nat := pc * 2 ^ 20 + page

/-- Microseconds of the model's clock that have passed since t. -/
def State.since (s : State) (t : Nat) : Nat := s.now - t

def hoursUs (h : Nat) : Nat := h * 3600000000

/-- Spare rows left in the stack (08 Table 8.11). -/
def DieSt.spareRowsFree (x : DieSt) : Nat := 32768 - (x.spareUsed.map (·.2)).foldl (· + ·) 0

def PcSt.erasedPins (p : PcSt) : List Nat :=
  (if p.eraseA = 0x3F then [] else [p.eraseA.toNat]) ++ (if p.eraseB = 0x3F then [] else [p.eraseB.toNat])

/-- Symbols of the erased pins (08 Table 8.8). -/
def PcSt.erasedSymbols (p : PcSt) : List Nat := p.erasedPins.flatMap fun q => [2 * q, 2 * q + 1]

def DieSt.erasedPinCount (x : DieSt) : Nat := (x.pcs.toList.map (·.erasedPins.length)).foldl (· + ·) 0

def DieSt.updPc (x : DieSt) (p : Pc) (f : PcSt → PcSt) : DieSt := { x with pcs := x.pcs.set p (f x.pcs[p]) }

/-- Sends a record of an event type to the ledger and the host. -/
def State.event (s : State) (d : Die) (type tier : Nat) (c : Option Nat) (body : Bytes) : State :=
  s.log d type tier c true body

/-- Capacity verdict of a stack and the field value that gives it (08 Table 8.10). -/
def DieSt.capacity (x : DieSt) : Nat × Nat :=
  if 20972 ≤ x.retiredPages.toNat then (2, x.retiredPages.toNat)
  else if x.pcs.toList.any (·.third) then (2, 3)
  else if 32768 ≤ x.retiredPages.toNat then (2, x.retiredPages.toNat)
  else if 5243 ≤ x.retiredPages.toNat then (1, x.retiredPages.toNat)
  else if x.pcs.toList.any (fun p => p.erasedPins.length = 2) then (1, 2)
  else if x.spareRowsFree < 1024 then (1, x.spareRowsFree)
  else (0, x.retiredPages.toNat)

/-- Brings the capacity verdict up to date; a change is recorded and sent (08 R198). -/
def State.judgeCapacity (s : State) (d : Die) : State :=
  let x := s.die d
  let (v, why) := x.capacity
  if x.capacityVerdict.toNat = v then s
  else
    (s.updDie d fun x => { x with capacityVerdict := BitVec.ofNat 2 v }).event d 0x0B 0 none
      (eventBody 1 0 10 d x.capacityVerdict.toNat v why 0)

/-- Erases a pin of a pseudo-channel, or notes that a third one met a condition (08 R189). -/
def State.erasePin (s : State) (d : Die) (p : Pc) (pin : Nat) : State :=
  let q := (s.die d).pcs[p]
  let free := (s.die d).spareRowsFree
  if q.erasedPins.contains pin then s
  else if q.eraseA = 0x3F then
    ((s.updDie d fun x => x.updPc p fun q => { q with eraseA := BitVec.ofNat 6 pin, okRunA := 0 }).event d 0x06 0 none
      (eventBody 4 0 10 p 0 pin free 0)).judgeCapacity d
  else if q.eraseB = 0x3F then
    ((s.updDie d fun x => x.updPc p fun q => { q with eraseB := BitVec.ofNat 6 pin, okRunB := 0 }).event d 0x06 0 none
      (eventBody 4 0 10 p 0 pin free 0)).judgeCapacity d
  else if q.third then s
  else
    ((s.updDie d fun x => x.updPc p fun q => { q with third := true }).event d 0x06 0 none
      (eventBody 6 0 10 p 0 pin free 0)).judgeCapacity d

/-- A row is judged failed (08 R195). -/
def State.failRow (s : State) (d : Die) (row : Nat) : State :=
  s.updDie d fun x => if x.failedRows.contains row then x else { x with failedRows := x.failedRows ++ [row] }

/-- One pin's two symbols hold every given symbol. -/
def onePin (syms : List Nat) : Option Nat :=
  match syms with
  | [] => none
  | j :: rest => if rest.all (fun k => k / 2 = j / 2) then some (j / 2) else none

/-- Judges a pin after a correction: 16 codewords of 4 rows within the last 1,048,576 read (08 R189). -/
def PcSt.pinBad (q : PcSt) (pin : Nat) : Bool :=
  let l := q.log.filter fun e => e.pin = some pin && q.reads < e.read + 1048576
  16 ≤ ((l.map fun e => (e.row, e.codeword)).eraseDups).length && 4 ≤ ((l.map (·.row)).eraseDups).length

/-- Judges a row: 4 distinct codewords corrected outside erased pins within 24 h (08 R195). -/
def PcSt.rowBad (q : PcSt) (row now : Nat) : Bool :=
  let l := q.log.filter fun e => e.row = row && e.outside && now < e.time + hoursUs 24
  4 ≤ ((l.map (·.codeword)).eraseDups).length

/-- Notes a corrected codeword and judges its pin and its row. -/
def State.noteCorrection (s : State) (d : Die) (off : Nat) (syms : List Nat) : State :=
  let p := pcOf (pcNum off)
  let pin := onePin syms
  let row := rowId p (pageOf off)
  let s := s.count d 0x503 p none
  let s := match pin with
    | some q => s.count d 0x504 (36 * p.val + q) none
    | none => s
  let s := s.updDie d fun x => x.updPc p fun q =>
    { q with log := q.log.filter (fun e => q.reads < e.read + 1048576 || s.now < e.time + hoursUs 24) ++
        [{ read := q.reads, pin := pin, row := row, codeword := off / 64 % 16, time := s.now, outside := true }] }
  let q := (s.die d).pcs[p]
  let s := match pin with
    | some k => if q.pinBad k then s.erasePin d p k else s
    | none => s
  if q.rowBad row s.now then s.failRow d row else s

/-- The 72 symbols that a codeword holds: its data, and the check symbols of that data, XORed with the mark where it is poison
(08 R187, R190; log 67). -/
def State.codeword (s : State) (d : Die) (off : Nat) : List Nat :=
  let data := (s.read (.st d (off / 64 * 64)) 64).map (·.toNat)
  let mark := poisonMark.map (·.2)
  let check := checkSymbols data
  data ++ (if (SMap.find s.stackPoison (cwKey d off)).isSome then (List.zip check mark).map (fun e => e.1 ^^^ e.2) else check)

/-- Sideband of a scratchpad word: check bits, pair tag, poison (09 Table 9.1). The check bits are a function of the data
that no rule gives (log 9). -/
def State.sideband (s : State) (d word : Nat) : BitVec 19 :=
  let bits := wordOf 256 (s.read (.sp d (32 * word)) 32)
  pack 19 [((Config.secded bits).toNat, 10), ((SMap.get 0 s.tags (d * 2 ^ 21 + word)).toNat, 8),
    (b2n (SMap.find s.scratchPoison (spWordKey d (32 * word))).isSome, 1)]

/-- What a read of a codeword delivers: 64 bytes and the origin of their poison. -/
structure CwRead where
  data : Bytes
  poison : Option Origin
  deriving DecidableEq, Repr

def xorByte (b : Byte) (v : Nat) : Byte := b ^^^ BitVec.ofNat 8 v

/-- The 64 data symbols with errors in them. -/
def xorData (data : Bytes) (errs : List (Nat × Nat)) : Bytes :=
  errs.foldl (fun bs e => if e.1 < 64 then bs.set e.1 (xorByte (bs.getD e.1 0) e.2) else bs) data

/-- A codeword as it stands. -/
def State.cwSeen (s : State) (d : Die) (off : Nat) : CwSeen :=
  let base := off / 64 * 64
  { data := s.read (.st d base) 64, mark := SMap.find s.stackPoison (cwKey d off), retired := s.isRetired d base, overtaken := false }

/-- Decoding of the codeword that holds local offset `off` as a read found it, in 08 Table 8.9's order, with what it writes
back, counts and judges. Nothing is written back over a write that was accepted since the read (R188, R191). -/
def State.decodeSeen (s : State) (d : Die) (off : Nat) (errs : List (Nat × BitVec 8)) (v : CwSeen) : CwRead × State :=
  let base := off / 64 * 64
  let p := pcOf (pcNum off)
  let es := errs.map fun e => (e.1, e.2.toNat)
  if v.retired then ({ data := v.data, poison := some .memory }, s)
  else
    match decodeCw (s.die d).pcs[p].erasedSymbols v.mark.isSome es with
    | .clean left => ({ data := xorData v.data left, poison := none }, s)
    | .corrected left at_ =>
      let data := xorData v.data left
      let s := if v.overtaken then s else s.write (.st d base) data false
      ({ data := data, poison := none }, s.noteCorrection d off at_)
    | .poison left => ({ data := xorData v.data left, poison := s.originOf d (some (v.mark.getD .memory)) }, s)
    | .uncorrectable =>
      let data := xorData v.data es
      let s := s.count d 0x505 p none
      let s := s.updDie d fun x => x.updPc p fun q => { q with ueTotal := BitVec.ofNat 16 (satAdd 16 q.ueTotal.toNat 1) }
      let s := if v.overtaken then s else (s.putBytes (.st d base) data).mark (.st d base) .memory
      ({ data := data, poison := some .memory }, s.failRow d (rowId p (pageOf off)))

def State.updStall (s : State) (d : Die) (c : Nat) (f : StallSt → StallSt) : State :=
  if h : c < 8 then s.updDie d fun x => { x with stalls := x.stalls.set c (f x.stalls[c]) } else s

/-- Counts the read of one codeword; the stall `c` is the one charged, none for the service class. -/
def State.noteRead (s : State) (d : Die) (off : Nat) (c : Option Nat) : State :=
  let p := pcOf (pcNum off)
  let s := ((s.count d 0x501 p c).addUnits d 1 0 1).updDie d fun x => x.updPc p fun q => { q with reads := q.reads + 1 }
  match c with
  | some k => s.updStall d k fun x => { x with readCw := x.readCw + 1 }
  | none => s

/-- A read or scrub of the codeword that holds local offset `off`, with the errors that it meets. -/
def State.readCodeword (s : State) (d : Die) (off : Nat) (errs : List (Nat × BitVec 8)) (c : Option Nat) (v : CwSeen) : CwRead × State :=
  let s := s.noteRead d off c
  let poison := v.retired || (match decodeCw (s.die d).pcs[pcOf (pcNum off)].erasedSymbols v.mark.isSome (errs.map fun e => (e.1, e.2.toNat)) with
    | .poison _ => true
    | _ => false)
  let s := if poison then s.count d 0x506 (pcOf (pcNum off)) c else s
  s.decodeSeen d off errs v

/-- The codewords of n bytes from local offset off. -/
def codewordsIn (off n : Nat) : List Nat :=
  if n = 0 then [] else (List.range ((off + n - 1) / 64 + 1 - off / 64)).map fun i => (off / 64 + i) * 64

/-- Counts an engine's read of n bytes of a stack from local offset off, codeword by codeword, and measures it; what the read
met in error is `applyPhys`'s. -/
def State.countReads (s : State) (d : Die) (off n : Nat) (c : Option Nat) : State :=
  (codewordsIn off n).foldl (fun st o =>
    let st := (st.noteRead d o c).measure d 1 (pcNum o) c st.freeCtr
    if (st.poisonAt (.st d o)).isSome then st.count d 0x506 (pcOf (pcNum o)) c else st) s

/-- A waiting read whose codeword a write overtakes (08 R178, R188). -/
def MemReq.overtake (q : MemReq) (o : Nat) : MemReq :=
  if q.offset / 64 ≤ o / 64 then { q with seen := q.seen.modify (o / 64 - q.offset / 64) fun v => { v with overtaken := true } } else q

/-- Counts a write of n bytes of a stack from local offset off, codewords written and the partial ones (08 R177), and notes it
for the reads that wait. -/
def State.countWrites (s : State) (d : Die) (off n : Nat) (c : Option Nat) : State :=
  (codewordsIn off n).foldl (fun st o =>
    let p := pcOf (pcNum o)
    let st := ((st.count d 0x502 p c).addUnits d 1 1 0).updDie d fun x => { x with requests := x.requests.map (·.overtake o) }
    let st := match c with
      | some k => st.updStall d k fun x => { x with writeCw := x.writeCw + 1 }
      | none => st
    if off ≤ o && o + 64 ≤ off + n then st else st.count d 0x507 p c) s

/-! ### Charging (08 R183, R185) -/

/-- Bus units of n bytes from local offset off: 2 a codeword. -/
def unitsOf (off n : Nat) : Nat := 2 * (codewordsIn off n).length

/-- A fabric or collective delivery is charged to the receiving context's stall in full. -/
def State.chargeDelivery (s : State) (d : Die) (off n : Nat) (c : Nat) : State :=
  s.updStall d c fun k => { k with charged := k.charged + unitsOf off n }

/-- A context's own access asks for units of its stall. -/
def State.askUnits (s : State) (d : Die) (off n : Nat) (c : Nat) : State :=
  s.updStall d c fun k => { k with asked := k.asked + unitsOf off n }

/-- A die's controller takes requests of the context: its stall is served and holds no debt, and fewer than 256 requests are in
flight (08 R177, R184, R185). -/
def State.stackReady (s : State) (d : Die) (c : Ctx) : Bool :=
  let x := s.die d
  x.stalls[c].enable && x.stalls[c].debt = 0 && x.requests.length < 256

/-- So does every die's. -/
def State.stacksReady (s : State) (c : Ctx) : Bool := (List.finRange 20).all fun d => s.stackReady d c

/-- Scratchpad words with bits in error that a read finds: one bit is corrected, more poison the word (09 R201). -/
def State.scratchErrors (s : State) (bits : List (Nat × Nat × Nat)) : State :=
  bits.foldl (fun st e =>
    let d := dieOf e.1
    let bank := e.2.1 * 32 / 256 % 32
    if e.2.2 = 0 then st
    else if e.2.2 = 1 then st.count d 0x601 bank none
    else (st.count d 0x602 bank none).mark (.sp d (e.2.1 * 32)) .memory) s

/-- What the physical world does to the words and codewords that one instruction reads; the reads themselves are counted as the
instruction makes them. -/
def State.applyPhys (s : State) (x : Phys) : State :=
  x.cwErrs.foldl (fun st e => (st.decodeSeen (dieOf e.1) (e.2.1 * 64) e.2.2 (st.cwSeen (dieOf e.1) (e.2.1 * 64))).2) (s.scratchErrors x.spBits)

end Sys2Proof.Machine
end

