-- ==== Sys2Proof/Machine/Checks.lean ====
section
/-! DEFINITION. What the integrity unit shares among its users: quiet time, verdicts, mismatches, retirement, captures
(12 R304 to R309, R315 to R318; 04 R98). -/
namespace Sys2Proof.Machine

/-- No quiet window of a launched context has ended, and each has one: the device is in quiet time (12 R315). -/
def State.quiet (s : State) : Bool :=
  s.ctxs.toList.all fun x => match x with
    | some y => !y.running || (match y.quietUntil with | some t => s.now < t | none => false)
    | none => true

/-- End of the quiet period as known now; none when no context is launched (12 R315). -/
def State.quietEnd (s : State) : Option Nat :=
  s.ctxs.toList.foldl (fun acc x => match x with
    | some y => if y.running then (match acc, y.quietUntil with
        | none, t => t
        | some a, some t => some (min a t)
        | some a, none => some a) else acc
    | none => acc) none

/-- Integrity verdict and the field value that gives it (12 R318). -/
def DieSt.integrity (x : DieSt) : Nat × Nat :=
  if x.checkerFailed then (2, 1)
  else if popcount x.arrayMask < 6 && x.spareUsed_ then (2, popcount x.arrayMask)
  else if x.arrayMask = 0 then (2, 0)
  else if x.spareUsed_ then (1, 1)
  else if x.overdue then (1, 1)
  else (0, 0)

/-- Brings the integrity verdict up to date; a change is recorded and sent (12 R318). -/
def State.judgeIntegrity (s : State) (d : Die) : State :=
  let x := s.die d
  let (v, why) := x.integrity
  if x.integVerdict.toNat = v then s
  else
    (s.updDie d fun x => { x with integVerdict := BitVec.ofNat 2 v }).event d 0x0B 0 none
      (eventBody 2 0 8 d x.integVerdict.toNat v why 0)

/-! ### The accumulator bank and the checksum file (04 R78, R86) -/

/-- First bank row of a BANK field. -/
def bankBase (bank : Nat) : Nat := if bank = 1 then 256 else 0

/-- The registers of an accumulation as the bank holds them, and its expected sums. -/
def Accum.bankCells (a : Accum) : SMap (BitVec 74) :=
  (List.zip a.regs (List.zip a.nonfinite a.poison)).zipIdx.map fun (e, i) =>
    ((bankBase a.bank + i / a.cols) * 256 + i % a.cols, BitVec.ofNat 74 (twos 72 e.1 + b2n e.2.1 * 2 ^ 72 + b2n e.2.2 * 2 ^ 73))

def Accum.sumCells (a : Accum) : SMap (BitVec 72) :=
  a.expected.zipIdx.map fun (e, i) => ((bankBase a.bank + i / (a.cols / 16)) * 16 + i % (a.cols / 16), BitVec.ofNat 72 (twos 72 e))

/-- Writes an accumulation into the bank and the checksum file of the array that holds it. -/
def DieSt.storeBank (x : DieSt) (a : Accum) : DieSt :=
  match a.phys with
  | none => x
  | some p => { x with arrays := x.arrays.set (arrOf p) { x.arrays[arrOf p] with
      bank := SMap.merge 0 a.bankCells x.arrays[arrOf p].bank, sums := SMap.merge 0 a.sumCells x.arrays[arrOf p].sums } }

/-- A further accumulation. -/
def DieSt.addAcc (x : DieSt) (a : Accum) : DieSt := ({ x with accs := x.accs ++ [a] }).storeBank a

/-! ### Context save (04 R98) -/

/-- Bytes of a saved accumulation's image: 16 for each register and for each group. A half takes 1,088 KiB, as R98 moves it
(its layout is private; log 127). -/
def Accum.imageLen (a : Accum) : Nat := 17 * a.rows * a.cols

/-- Where a context's save area keeps an accumulation. -/
def CtxSt.saveAt (x : CtxSt) (d : Die) (a : Accum) : Nat :=
  x.saveBases.getD d 0 * 65536 + (2 * a.logical + b2n (a.bank = 1)) * 1114112

/-- Saves one held accumulation: its image, in free values, goes to the save area. -/
def State.saveAcc (s : State) (d : Die) (a : Accum) : State :=
  match s.ctx (ctxOf a.ctx) with
  | none => s
  | some y =>
    let at_ := y.saveAt d a
    let n := s.freeCtr
    let s := (s.count d 0x105 (a.phys.getD 0) (some a.ctx)).write (.st d at_) ((List.range a.imageLen).map fun i => Config.saveByte (n + i)) false
    let s := s.countWrites d at_ a.imageLen none
    ({ s with freeCtr := n + a.imageLen }).updDie d fun x =>
      { x with accs := x.accs.map fun k => if k = a then { k with phys := none, saved := some (at_, n) } else k }

/-- Saves the held accumulations that `which` picks to their save areas (04 R98). -/
def State.saveAccs (s : State) (d : Die) (which : Accum → Bool) : State :=
  ((s.die d).accs.filter fun a => a.phase = .held && a.phys.isSome && which a).foldl (fun st a => st.saveAcc d a) s

/-- An array record (13 Table 13.13, TYPE 0x08). -/
def State.arrayEvent (s : State) (d : Die) (action reason : Nat) (a : Nat) : State :=
  s.event d 0x08 (if action = 5 || action = 6 then 1 else 0) none
    (eventBody action reason 0 a (((s.die d).arrays.toList.map (·.tileCount)).getD a 0) 0 0 0)

/-- Retires an array: mask, geometry event, accumulations saved, record, spare powered up (12 R306 to R308, R317). -/
def State.retireArray (s : State) (d : Die) (a reason : Nat) : State :=
  if !(s.die d).arrayMask.getLsbD a then s
  else
    let wake := !(s.die d).spareUsed_ && !(s.die d).sparePending && !(s.die d).spareTesting && a ≠ 6
    let s := s.updDie d fun x => { x with
      arrayMask := setBit x.arrayMask a false, arrayAbsent := setBit x.arrayAbsent a false
      quietWork := x.quietWork.filter fun e => e.1 ≠ a
      borrowing := (match x.borrowing with | some b => if b.1 = a then none else some b | none => none)
      retiredArrays := setBit x.retiredArrays a true, spareTesting := x.spareTesting || wake
      retiredAt := if wake then s.now else x.retiredAt }
    let s := s.geometryChange d
    let s := s.saveAccs d fun k => k.phys = some a
    (s.arrayEvent d 1 reason a).judgeIntegrity d

/-- A mismatch that counts toward retirement (12 R306). -/
def State.noteMismatch (s : State) (d : Die) (a : Arr) : State :=
  let x := (s.die d).arrays[a]
  let third : Bool := match x.mismatch2 with
    | some t => decide (x.tileCount < t + 1000000)
    | none => false
  let s := s.updDie d fun y => { y with arrays := y.arrays.set a { x with mismatch1 := some x.tileCount, mismatch2 := x.mismatch1 } }
  if third then s.retireArray d a 1 else s

/-- Takes a capture, or counts it lost while the buffer is full (12 R304). -/
def State.takeCapture (s : State) (d : Die) (c : Capture) : State :=
  if (s.die d).capture.isSome then
    (s.updDie d fun x => { x with captureLost := BitVec.ofNat 16 (satAdd 16 x.captureLost.toNat 1) }).count d 0x903 0 none
  else (s.updDie d fun x => { x with capture := some c }).count d 0x902 c.kind none

/-- A tested spare enters service (12 R308). -/
def State.enterSpare (s : State) (d : Die) : State :=
  let s := s.updDie d fun x => { x with sparePending := false, spareUsed_ := true, arrayMask := setBit x.arrayMask 6 true }
  ((s.geometryChange d).arrayEvent d 4 0 6).judgeIntegrity d

/-- At an MK, a spare that waits enters service in quiet time, or when SPARE_DEADLINE_MIN has passed since the
retirement (12 R308). -/
def State.sparesAtMk (s : State) : State :=
  (List.finRange 20).foldl (fun st d =>
    let x := st.die d
    if x.sparePending && (st.quiet || decide (x.retiredAt + fld st.ledger.integrityPolicy 58 48 * 60000000 ≤ st.now))
    then st.enterSpare d else st) s

/-- A checker failed on a unit other than an array (12 R309). -/
def State.failChecker (s : State) (d : Die) : State :=
  (s.updDie d fun x => { x with checkerFailed := true }).judgeIntegrity d

end Sys2Proof.Machine
end

