-- ==== Sys2Proof/Machine/Num.lean ====
section
/-! DEFINITION. Number formats, scales and roundings (02, R26 to R43; 05 R103, R107).

Wide values travel as FP32 words; every rounding is made on an exact rational magnitude. -/
namespace Sys2Proof.Machine

/-- A decoded number: NaN, an infinity, or sign, magnitude num × 2^e. -/
inductive Flt where
  | nan
  | inf (neg : Bool)
  | fin (neg : Bool) (m : Nat) (e : Int)
  deriving DecidableEq, Repr

/-- A binary format: precision with the hidden bit, exponent of the least subnormal, word of +infinity. -/
structure FFmt where
  p : Nat
  qmin : Int
  infw : Nat
  deriving DecidableEq, Repr

def fp32 : FFmt := { p := 24, qmin := -149, infw := 0x7F800000 }
def bf16 : FFmt := { p := 8, qmin := -133, infw := 0x7F80 }
def e5m2 : FFmt := { p := 3, qmin := -16, infw := 0x7C }
def e4m3 : FFmt := { p := 4, qmin := -9, infw := 0x7F }

def pow2 (e : Int) : Nat × Nat := if e < 0 then (1, 2 ^ (-e).toNat) else (2 ^ e.toNat, 1)

/-- round_half_even of num / den. -/
def roundHalfEven (num den : Nat) : Nat :=
  let q := num / den
  let r := num % den
  if 2 * r < den then q else if den < 2 * r then q + 1 else if q % 2 = 0 then q else q + 1

/-- Ceiling of num / den. -/
def ceilNat (num den : Nat) : Nat := if num % den = 0 then num / den else num / den + 1

def roundHalfEvenI (num : Int) (den : Nat) : Int :=
  if num < 0 then -(roundHalfEven num.natAbs den : Int) else (roundHalfEven num.natAbs den : Int)

/-- floor(log2(num / den)) of a positive rational. -/
def log2Rat (num den : Nat) : Int :=
  let g : Int := (Nat.log2 num : Int) - (Nat.log2 den : Int)
  let (a, b) := pow2 g
  -- g or g - 1
  if num * b < den * a then g - 1 else g

/-- Exponent of the last place that format f gives a positive magnitude num / den. -/
def quantum (f : FFmt) (num den : Nat) : Int := max f.qmin (log2Rat num den - (f.p - 1 : Nat))

/-- Word of the magnitude num / den in format f, by a rounding of the quotient to an integer. The word may reach or
pass the word of infinity. -/
def roundWith (rnd : Nat → Nat → Nat) (f : FFmt) (num den : Nat) : Nat :=
  if num = 0 then 0 else
    let q := quantum f num den
    let (a, b) := pow2 q
    (q - f.qmin).toNat * 2 ^ (f.p - 1) + rnd (num * b) (den * a)

/-- Round to nearest, ties to even (02 R39); the result may be the word of infinity or above. -/
def roundNearest (f : FFmt) (num den : Nat) : Nat := roundWith roundHalfEven f num den

/-- Magnitude that a word of format f (without sign) holds, as m × 2^e. -/
def magOf (f : FFmt) (w : Nat) : Nat × Int :=
  let ex := w / 2 ^ (f.p - 1)
  let fr := w % 2 ^ (f.p - 1)
  if ex = 0 then (fr, f.qmin) else (fr + 2 ^ (f.p - 1), f.qmin + (ex : Int) - 1)

def f32NaN : BitVec 32 := 0x7FC00000

/-- FP32 word of sign and magnitude num / den (02 R39). -/
def mkF32 (neg : Bool) (num den : Nat) : BitVec 32 :=
  let w := min (roundNearest fp32 num den) fp32.infw
  BitVec.ofNat 32 (w + if neg then 2 ^ 31 else 0)

def f32Inf (neg : Bool) : BitVec 32 := if neg then 0xFF800000 else 0x7F800000
def f32Zero (neg : Bool) : BitVec 32 := if neg then 0x80000000 else 0

/-- FP32 decode (02 R39). -/
def decF32 (w : BitVec 32) : Flt :=
  let s := w.getLsbD 31
  let m := w.toNat % 2 ^ 31
  if m < 0x7F800000 then let (a, e) := magOf fp32 m; .fin s a e
  else if m = 0x7F800000 then .inf s else .nan

def isFiniteF (w : BitVec 32) : Bool := w.toNat % 2 ^ 31 < 0x7F800000
def isNanF (w : BitVec 32) : Bool := 0x7F800000 < w.toNat % 2 ^ 31
def isZeroF (w : BitVec 32) : Bool := w.toNat % 2 ^ 31 = 0

/-- |x| and −x as sign-bit operations. -/
def fabs (w : BitVec 32) : BitVec 32 := w &&& 0x7FFFFFFF
def fneg (w : BitVec 32) : BitVec 32 := w ^^^ 0x80000000

/-- Signed exact value m × 2^e. -/
structure Dyad where
  m : Int
  e : Int
  deriving DecidableEq, Repr

def Dyad.zero : Dyad := { m := 0, e := 0 }

/-- The value as a multiple of 2^e; where it is not a whole one, the multiple below. -/
def Dyad.scaleTo (x : Dyad) (e : Int) : Int := x.m * ((2 ^ (x.e - e).toNat : Nat) : Int) / ((2 ^ (e - x.e).toNat : Nat) : Int)

def Dyad.add (x y : Dyad) : Dyad :=
  let e := min x.e y.e
  { m := x.scaleTo e + y.scaleTo e, e := e }

def Dyad.mul (x y : Dyad) : Dyad := { m := x.m * y.m, e := x.e + y.e }

def Dyad.neg (x : Dyad) : Dyad := { x with m := -x.m }

/-- A finite FP32 word's exact value; 0 for any other. -/
def valF (w : BitVec 32) : Dyad :=
  match decF32 w with
  | .fin s m e => { m := if s then -(m : Int) else (m : Int), e := e }
  | _ => .zero

/-- The rational num / den of a magnitude m × 2^e. -/
def ratOf (m : Nat) (e : Int) : Nat × Nat := let (a, b) := pow2 e; (m * a, b)

/-- An exact value rounded to FP32; an exact zero takes the sign `zneg`. -/
def dyadF32 (zneg : Bool) (x : Dyad) : BitVec 32 :=
  if x.m = 0 then f32Zero zneg
  else let (a, b) := ratOf x.m.natAbs x.e; mkF32 (x.m < 0) a b

/-- Order of two finite values. -/
def Dyad.lt (x y : Dyad) : Bool := let e := min x.e y.e; x.scaleTo e < y.scaleTo e
def Dyad.le (x y : Dyad) : Bool := let e := min x.e y.e; x.scaleTo e ≤ y.scaleTo e

/-- a + b (02 R39). -/
def fadd (a b : BitVec 32) : BitVec 32 :=
  match decF32 a, decF32 b with
  | .nan, _ => f32NaN
  | _, .nan => f32NaN
  | .inf s, .inf t => if s = t then f32Inf s else f32NaN
  | .inf s, _ => f32Inf s
  | _, .inf t => f32Inf t
  | .fin s _ _, .fin t _ _ => dyadF32 (s && t) ((valF a).add (valF b))

def fsub (a b : BitVec 32) : BitVec 32 := if isNanF b then f32NaN else fadd a (fneg b)

/-- a × b (02 R39). -/
def fmul (a b : BitVec 32) : BitVec 32 :=
  match decF32 a, decF32 b with
  | .nan, _ => f32NaN
  | _, .nan => f32NaN
  | .inf s, .inf t => f32Inf (s != t)
  | .inf s, .fin t m _ => if m = 0 then f32NaN else f32Inf (s != t)
  | .fin s m _, .inf t => if m = 0 then f32NaN else f32Inf (s != t)
  | .fin s _ _, .fin t _ _ => dyadF32 (s != t) ((valF a).mul (valF b))

/-- a × b + c with one rounding (05 R103). -/
def ffma (a b c : BitVec 32) : BitVec 32 :=
  if isNanF a || isNanF b || isNanF c then f32NaN
  else if isFiniteF a && isFiniteF b then
    match decF32 c with
    | .inf t => f32Inf t
    | _ =>
      let p := (valF a).mul (valF b)
      let ps := a.getLsbD 31 != b.getLsbD 31
      dyadF32 (ps && c.getLsbD 31) (p.add (valF c))
  else fadd (fmul a b) c

/-- a / b, correctly rounded (06 R136). -/
def fdiv (a b : BitVec 32) : BitVec 32 :=
  match decF32 a, decF32 b with
  | .nan, _ => f32NaN
  | _, .nan => f32NaN
  | .inf _, .inf _ => f32NaN
  | .inf s, .fin t _ _ => f32Inf (s != t)
  | .fin s _ _, .inf t => f32Zero (s != t)
  | .fin s m e, .fin t n g =>
    if n = 0 then (if m = 0 then f32NaN else f32Inf (s != t))
    else if m = 0 then f32Zero (s != t)
    else
      let (x, y) := ratOf m (e - g)
      mkF32 (s != t) x (y * n)

/-- Integer square root with the half-way comparison: √(num / den) rounded to nearest. -/
def sqrtNearest (num den : Nat) : Nat :=
  -- greatest n with n² den ≤ num, by bisection on bits
  let k := (Nat.log2 (num / den + 1)) / 2 + 1
  let n := (List.range (k + 1)).foldl
    (fun acc i => let t := acc + 2 ^ (k - i); if t * t * den ≤ num then t else acc) 0
  let twice := 2 * n + 1
  if twice * twice * den < 4 * num then n + 1
  else if twice * twice * den = 4 * num then (if n % 2 = 0 then n else n + 1) else n

/-- √a, correctly rounded; √−0 is −0 and a negative gives NaN (05 Table 5.2). -/
def fsqrt (a : BitVec 32) : BitVec 32 :=
  match decF32 a with
  | .nan => f32NaN
  | .inf s => if s then f32NaN else f32Inf false
  | .fin s m e =>
    if m = 0 then f32Zero s else if s then f32NaN
    else
      let (num, den) := ratOf m e
      -- result exponent: half the operand's; never subnormal
      let l := log2Rat num den
      let q : Int := (l - (l % 2)) / 2 - 23
      let (x, y) := pow2 (2 * q)
      let n := sqrtNearest (num * y) (den * x)
      BitVec.ofNat 32 ((q + 149).toNat * 2 ^ 23 + n)

/-- Sum of signed numbers in order of value for comparison: the key of a finite or infinite FP32 word; +0 and −0 alike. -/
def fkey (w : BitVec 32) : Int :=
  let m : Nat := w.toNat % 2 ^ 31
  if w.getLsbD 31 then -(m : Int) else (m : Int)

def flt (a b : BitVec 32) : Bool := !isNanF a && !isNanF b && fkey a < fkey b
def fle (a b : BitVec 32) : Bool := !isNanF a && !isNanF b && fkey a ≤ fkey b

/-- VX.MAX: a NaN operand gives NaN; equal values return A (05 Table 5.1). -/
def fmax (a b : BitVec 32) : BitVec 32 :=
  if isNanF a || isNanF b then f32NaN else if fkey a < fkey b then b else a

/-- VX.MIN (05 Table 5.1). -/
def fmin (a b : BitVec 32) : BitVec 32 :=
  if isNanF a || isNanF b then f32NaN else if fkey b < fkey a then b else a

/-! ### Conversions (02 R37 to R39) -/

def toBf16 (w : BitVec 32) : BitVec 16 :=
  match decF32 w with
  | .nan => 0x7FC0
  | .inf s => if s then 0xFF80 else 0x7F80
  | .fin s m e =>
    let (a, b) := ratOf m e
    BitVec.ofNat 16 (min (roundNearest bf16 a b) bf16.infw + if s then 2 ^ 15 else 0)

def ofBf16 (w : BitVec 16) : BitVec 32 := (w.setWidth 32) <<< 16

def toE4m3 (w : BitVec 32) : BitVec 8 :=
  let sg := if w.getLsbD 31 then 0x80 else 0
  match decF32 w with
  | .fin _ m e => let (a, b) := ratOf m e; BitVec.ofNat 8 (min (roundNearest e4m3 a b) 0x7E + sg)
  | _ => BitVec.ofNat 8 (0x7F + sg)

def toE5m2 (w : BitVec 32) : BitVec 8 :=
  match decF32 w with
  | .nan => 0x7E
  | .inf s => if s then 0xFC else 0x7C
  | .fin s m e => let (a, b) := ratOf m e; BitVec.ofNat 8 (min (roundNearest e5m2 a b) 0x7B + if s then 0x80 else 0)

/-- The quiet NaN that carries an eight-bit NaN's sign on to a conversion, which alone can show it (02 R37). -/
def nanF (neg : Bool) : BitVec 32 := if neg then 0xFFC00000 else f32NaN

def ofE4m3 (w : BitVec 8) : BitVec 32 :=
  let m := w.toNat % 128
  if m = 0x7F then nanF (w.getLsbD 7) else let (a, e) := magOf e4m3 m; let (x, y) := ratOf a e; mkF32 (w.getLsbD 7) x y

def ofE5m2 (w : BitVec 8) : BitVec 32 :=
  let m := w.toNat % 128
  if 0x7C < m then nanF (w.getLsbD 7) else if m = 0x7C then f32Inf (w.getLsbD 7)
  else let (a, e) := magOf e5m2 m; let (x, y) := ratOf a e; mkF32 (w.getLsbD 7) x y

/-! ### Four-bit codes (02 R26 to R29) -/

/-- Twice the value of an N4F code; none for the NaN code (02 R26, Table 2.2). -/
def n4fTwice (c : Nat) : Option Int :=
  let m : Int := [0, 1, 2, 3, 4, 6, 8, 12].getD (c % 8) 0
  if c % 16 = 8 then none else some (if c % 16 < 8 then m else -m)

def n4iVal (c : Nat) : Int := signedOf 4 c

/-- Nearest N4F magnitude code of num / den, ties to the code with mantissa bit 0, saturating at 6 (02 R27). -/
def n4fMag (num den : Nat) : Nat :=
  -- compare 4t with the mid-points between neighbours: 1, 3, 5, 7, 10, 14, 20
  let t := 4 * num
  if t ≤ den then 0 else if t < 3 * den then 1 else if t ≤ 5 * den then 2 else if t < 7 * den then 3
  else if t ≤ 10 * den then 4 else if t < 14 * den then 5 else if t ≤ 20 * den then 6 else 7

/-- N4F code of the signed rational num / den (02 R27). -/
def toN4f (num : Int) (den : Nat) : Nat :=
  let m := n4fMag num.natAbs den
  if m = 0 then 0 else if num < 0 then m + 8 else m

def clampI (lo hi v : Int) : Int := if v < lo then lo else if hi < v then hi else v

/-- N4I value of the signed rational (02 R28). -/
def toN4iVal (num : Int) (den : Nat) : Int := clampI (-7) 7 (roundHalfEvenI num den)

/-! ### BS8 and CS32 (02 R31 to R34) -/

/-- 2^10 times the value of a BS8 code; 0xFF is a NaN block and is asked separately (02 R31). -/
def bs8Kilo (c : Nat) : Nat :=
  let ex := c / 16
  let m := c % 16
  if ex = 0 then m else (16 + m) * 2 ^ (ex - 1)

/-- Smallest BS8 code whose value is at least num / den (02 R34). -/
def bs8Ceil (num den : Nat) : Nat :=
  ((List.range 255).find? fun c => num * 1024 ≤ bs8Kilo c * den).getD 0xFE

/-- Head code reduced by 3k in EXP, or 0x00 below its range (02 R46). -/
def bs8Piece (head k : Nat) : Nat :=
  if k = 0 then head else if head = 0xFF then 0xFF else if head / 16 < 3 * k + 1 then 0 else head - 0x30 * k

/-- CS32: amax / (Qmax × 256) rounded up to FP32, at least 2^-126; 1.0 for amax 0 (02 R33). -/
def coarse (amax : Dyad) (qmax : Nat) : BitVec 32 :=
  if amax.m = 0 then 0x3F800000 else
    let (a, b) := ratOf amax.m.natAbs amax.e
    let w := roundWith ceilNat fp32 a (b * qmax * 256)
    BitVec.ofNat 32 (max w 0x00800000)

/-! ### Tree reductions (05 R107) -/

def treeLevel (op : BitVec 32 → BitVec 32 → BitVec 32) : List (BitVec 32) → List (BitVec 32)
  | a :: b :: rest => op a b :: treeLevel op rest
  | l => l

def treeFuel (op : BitVec 32 → BitVec 32 → BitVec 32) : Nat → List (BitVec 32) → List (BitVec 32)
  | 0, l => l
  | k + 1, l => if l.length ≤ 1 then l else treeFuel op k (treeLevel op l)

/-- The pairwise tree over position order; `e` is the value of an empty reduction (05 R107). -/
def tree (op : BitVec 32 → BitVec 32 → BitVec 32) (e : BitVec 32) (l : List (BitVec 32)) : BitVec 32 :=
  match l with
  | [] => e
  | _ => (treeFuel op (Nat.log2 l.length + 1) l).headD e

def treeSum (l : List (BitVec 32)) : BitVec 32 := tree fadd 0 l
def treeMax (l : List (BitVec 32)) : BitVec 32 := tree fmax (f32Inf true) l
def treeMin (l : List (BitVec 32)) : BitVec 32 := tree fmin (f32Inf false) l

/-- FP32 word of a natural number, correctly rounded. -/
def natF32 (n : Nat) : BitVec 32 := mkF32 false n 1

/-- A sum divided by a term count, correctly rounded; +0 for no term (05 R107). The count may exceed FP32's integers,
so the division is exact and rounds once. -/
def divCount (s : BitVec 32) (n : Nat) : BitVec 32 :=
  if n = 0 then 0 else
    match decF32 s with
    | .nan => f32NaN
    | .inf t => f32Inf t
    | .fin t m e => let (x, y) := ratOf m e; mkF32 t x (y * n)

def treeMean (l : List (BitVec 32)) : BitVec 32 := divCount (treeSum l) l.length

/-! ### Long registers (02 R41) -/

def l72Min : Int := -(2 ^ 71 : Nat)
def l72Max : Int := (2 ^ 71 : Nat) - 1

/-- L72 memory image, 16 bytes (02 Table 2.6). -/
def l72Image (v : Int) (nonfinite : Bool) : Bytes := leBytes 16 (twos 72 v + if nonfinite then 2 ^ 72 else 0)

def l72Value (bs : Bytes) : Int := signedOf 72 (leAt bs 0 9)

def l72Nonfinite (bs : Bytes) : Bool := leAt bs 9 1 % 2 = 1

end Sys2Proof.Machine
end

