-- ==== Sys2Proof/Machine/Operands.lean ====
section
/-! DEFINITION. Tensor descriptors, the walk, seals and poison, as every engine reads and writes them (09 R202 to R219).

An engine instruction runs as one transaction over `Run`: a trap (a fault that stops the context) leaves the state as
it was, since the faulting instruction writes nothing. -/
namespace Sys2Proof.Machine

/-- An engine instruction on its way. -/
structure Run where
  s : State
  d : Die
  c : Ctx
  addr : Nat
  /-- unit code (13, before Table 13.2) -/
  unit : Nat
  /-- what mismatched twice (12 R293): an output and the offset of its line, or every output -/
  hit : Option (Option Nat × Nat)
  /-- the part of the output being written that this poisons: offset and length -/
  bad : Option (Nat × Nat)
  /-- what the completion will find -/
  fl : InFlight
  /-- poison was read, or an output poisoned by a fault (12 R296) -/
  tainted : Bool
  /-- a memory-class fault was met (12 R299) -/
  kill : Bool
  /-- memory-origin poison has been reported for this instruction -/
  reported : Bool
  /-- what it writes to a stack is a delivery (08 R183) -/
  delivers : Bool
  /-- it asked a stack that takes no request of the context now (08 R177, R184, R185) -/
  blocked : Bool
  deriving DecidableEq, Repr

/-- The part of output k that a second mismatch poisons: a 256-byte line, or all of it. -/
def hitOf (hit : Option (Option Nat × Nat)) (k : Nat) : Option (Nat × Nat) :=
  match hit with
  | none => none
  | some (none, _) => some (0, 2 ^ 60)
  | some (some o, at_) => if o = k then some (at_, 256) else none

/-- An instruction of the die and context about to run, its primary output first. -/
def Run.start (s : State) (d : Die) (c : Ctx) (addr unit : Nat) (hit : Option (Option Nat × Nat)) (fl : InFlight) : Run :=
  { s := s, d := d, c := c, addr := addr, unit := unit, hit := hit, bad := hitOf hit 0, fl := fl, tainted := false, kill := false
    reported := false, delivers := false, blocked := false }

/-- A fault that stops the context instead of the instruction's effect. -/
structure Trap where
  info : FaultInfo
  cause : StopCause
  deriving DecidableEq, Repr

abbrev Exec := StateT Run (Except Trap)

def trap {α : Type} (f : FaultInfo) : Exec α := throw { info := f, cause := .program }

/-- Shape fault of a descriptor (03 R55, 09 R204). -/
def shapeFault {α : Type} (idx : Nat) : Exec α := trap { cls := 4, reason := 5, valueB := idx }

/-- Context fault at an address (01 R22, 08 R179). -/
def contextFault {α : Type} (a : Nat) : Exec α := trap { cls := 4, reason := 4, valueB := a }

def shapeIf (b : Bool) (idx : Nat) : Exec Unit := if b then pure () else shapeFault idx

def getS : Exec State := do return (← get).s

def modS (f : State → State) : Exec Unit := modify fun r => { r with s := f r.s }

def getCtx : Exec CtxSt := do
  let r ← get
  match r.s.ctx r.c with
  | some x => pure x
  | none => contextFault 0

def setNonfinite (b : Bool) : Exec Unit :=
  modify fun r => { r with fl := { r.fl with nonfinite := r.fl.nonfinite || b } }

def setTainted : Exec Unit := modify fun r => { r with tainted := true }

/-- A compute fault: recorded, counted, and the verdict is tainted; the instruction goes on (12 R296). -/
def raiseCompute (f : FaultInfo) : Exec Unit := do
  modify fun r => { r with s := (r.s.countFault r.d (some r.c.val) f).recordFault r.d (some r.c.val) r.addr f
                           fl := { r.fl with fault := true } }
  setTainted

/-- A memory-class fault: recorded; the context is killed when the instruction completes (12 R299). -/
def raiseMemory (f : FaultInfo) : Exec Unit := do
  modify fun r => { r with s := (r.s.countFault r.d (some r.c.val) f).recordFault r.d (some r.c.val) r.addr f
                           kill := true, fl := { r.fl with fault := true } }
  setTainted

/-- A poisoned byte was read; memory-origin poison is a memory-class fault, reported once for an instruction. -/
def metPoison (o : Origin) (a : Nat) : Exec Unit := do
  match o with
  | .compute => setTainted
  | .memory =>
    if (← get).reported then setTainted
    else
      raiseMemory { cls := 2, reason := 17, unit := (← get).unit, valueB := a }
      modify fun r => { r with reported := true }

/-! ### Descriptors -/

/-- A descriptor's fields (09 Table 9.2). -/
structure Desc where
  loc : Nat
  fmt : Nat
  sealed : Bool
  paired : Bool
  rel : Bool
  group : Bool
  plane : Nat
  spDie : Nat
  policy : Nat
  resSlot : Nat
  resSide : Nat
  resPiece : Nat
  entry : Nat
  baseA : Nat
  baseB : Nat
  sealA : Nat
  sealB : Nat
  e0 : Nat
  e1 : Nat
  e2 : Nat
  e3 : Nat
  p1 : Nat
  p2 : Nat
  p3 : Nat
  rsvd : Bool
  deriving DecidableEq, Repr

def descOf (w : BitVec 512) : Desc :=
  { loc := fld w 1 0, fmt := fld w 6 2, sealed := bit w 7, paired := bit w 8, rel := bit w 9, group := bit w 10
    plane := fld w 15 12, spDie := fld w 20 16, policy := fld w 22 21, resSlot := fld w 31 24, resSide := fld w 32 32
    resPiece := fld w 34 33, entry := fld w 51 42, baseA := fld w 111 64, baseB := fld w 159 112
    sealA := fld w 207 160, sealB := fld w 255 208, e0 := fld w 279 256, e1 := fld w 303 280, e2 := fld w 319 304
    e3 := fld w 335 320, p1 := fld w 375 336, p2 := fld w 415 376, p3 := fld w 455 416
    rsvd := bit w 11 || bit w 23 || fld w 41 35 ≠ 0 || fld w 63 52 ≠ 0 || fld w 511 456 ≠ 0 }

/-- Bits per element (09 Table 9.3). -/
def fmtBits (f : Nat) : Nat :=
  match f with
  | 0 | 4 | 5 => 32
  | 1 => 16
  | 2 | 3 | 6 => 8
  | 7 => 1
  | 8 | 9 | 10 | 13 => 4
  | 11 => 2
  | 12 => 3
  | _ => 8

/-- Element size in bytes, for alignment (09 R204). -/
def fmtAlign (f : Nat) : Nat := if fmtBits f = 32 then 4 else if fmtBits f = 16 then 2 else 1

def Desc.rowBytes (q : Desc) : Nat := ceilDiv (q.e0 * fmtBits q.fmt) 8

/-- Rows of the walk; none when any extent is 0 (09 R203). -/
def Desc.rows (q : Desc) : Nat := if q.e0 = 0 then 0 else q.e1 * q.e2 * q.e3

/-- Rows by the extents alone (05 R127, 09 R224). -/
def Desc.rowsN (q : Desc) : Nat := q.e1 * q.e2 * q.e3

def Desc.elems (q : Desc) : Nat := q.e0 * q.e1 * q.e2 * q.e3

def Desc.span1 (q : Desc) : Nat := (q.e1 - 1) * q.p1 + q.rowBytes
def Desc.span2 (q : Desc) : Nat := (q.e2 - 1) * q.p2 + q.span1

/-- The rules of 09 R204 that a descriptor alone can break. One that describes no byte (09 R203) has no rows to share one (log 120). -/
def Desc.ok (q : Desc) : Bool :=
  (q.loc = 1 || q.loc = 2) && q.fmt ≤ 13 && (if q.loc = 1 then q.spDie ≤ 19 || q.spDie = 31 else q.spDie = 0) &&
  q.plane ≤ 12 && (!q.rel || q.resPiece = 1 || q.resPiece = 2) && !q.rsvd &&
  (q.paired || q.baseB = 0) && (q.sealed || q.sealA = 0) && ((q.paired && q.sealed) || q.sealB = 0) &&
  q.baseA % fmtAlign q.fmt = 0 && q.baseB % fmtAlign q.fmt = 0 && q.p1 % fmtAlign q.fmt = 0 &&
  q.p2 % fmtAlign q.fmt = 0 && q.p3 % fmtAlign q.fmt = 0 &&
  (!(q.fmt = 8 || q.fmt = 9 || q.fmt = 10 || q.fmt = 13) || q.e0 % 2 = 0) &&
  (q.fmt ≠ 11 || q.e0 % 4 = 0) && (q.fmt ≠ 12 || q.e0 % 8 = 0) &&
  (q.elems = 0 || ((q.e1 ≤ 1 || q.rowBytes ≤ q.p1) && (q.e2 ≤ 1 || q.span1 ≤ q.p2) && (q.e3 ≤ 1 || q.span2 ≤ q.p3)))

/-- A descriptor resolved for one walk: base and seal area after area selection and reserve base. -/
structure Tensor where
  idx : Nat
  q : Desc
  die : Nat
  area : Nat
  base : Nat
  sealAt : Nat
  deriving DecidableEq, Repr

/-- A byte address of the tensor's location as a place; none outside every range. -/
def Tensor.place (t : Tensor) (a : Nat) : Option Place :=
  if t.q.loc = 1 then (if a < 2 ^ 26 then some (.sp (if t.q.spDie = 31 then t.die else t.q.spDie) a) else none)
  else deviceAddr t.die a

/-- Address of row r of the walk (09 R203). -/
def Tensor.rowAddr (t : Tensor) (r : Nat) : Nat :=
  t.base + (r % t.q.e1) * t.q.p1 + (r / t.q.e1 % t.q.e2) * t.q.p2 + (r / (t.q.e1 * t.q.e2)) * t.q.p3

/-- Seal blocks of a row (09 R212). -/
def Tensor.blocks (t : Tensor) : Nat := ceilDiv t.q.rowBytes 512

def Place.isHost : Place → Bool
  | .host _ => true
  | _ => false

/-- Which area of a paired descriptor an access takes (06 R144, 09 R207). -/
inductive AreaSel where
  | active
  | inactive
  | given (a : Nat)
  deriving DecidableEq, Repr

/-- What an instruction accepts of a descriptor. -/
structure Want where
  /-- SET_PLANE it must carry -/
  plane : Nat := 0
  /-- formats accepted; empty: any -/
  fmts : List Nat := []
  /-- 0 either, 1 must be sealed, 2 must not be -/
  sealing : Nat := 1
  /-- another die's scratchpad is accepted (09 R206) -/
  far : Bool := false
  /-- the host window is accepted (15 R368) -/
  host : Bool := false
  area : AreaSel := .active
  /-- a paired descriptor is refused (09 R207: an MV instruction that would write it) -/
  unpaired : Bool := false
  /-- seals kept at the seal area when they are not one for each 512-byte block (09 R217) -/
  seals : Option Nat := none

/-- All bytes of a run lie in the context's ranges, or in the window where it is accepted. -/
def Tensor.inside (t : Tensor) (x : CtxSt) (host : Bool) (a n : Nat) : Option Nat :=
  (List.range n).findSome? fun i =>
    match t.place (a + i) with
    | some p => if (p.isHost && host) || (!p.isHost && x.owns p) then none else some (a + i)
    | none => some (a + i)

/-- The chunk that a reserve-relative descriptor names (09 R208). -/
def CtxSt.chunkOf (x : CtxSt) (q : Desc) : Option Chunk :=
  x.chunks.find? fun k => k.slot = q.resSlot && k.side = q.resSide && k.piece = q.resPiece

/-- Resolves descriptor idx under the rules of 09 R204 to R208, R218 and the address check of 01 R22. Where several are broken,
the first in this order is the fault that is raised: DESIGN CHOICE, log 126. -/
def resolve (idx : Nat) (v : Want) : Exec Tensor := do
  shapeIf (idx < 4096) idx
  let x ← getCtx
  let r ← get
  let q := descOf (SMap.get 0 x.descs idx)
  shapeIf (q.ok && q.plane = v.plane && (v.fmts.isEmpty || v.fmts.contains q.fmt)) idx
  shapeIf (v.sealing = 0 || (v.sealing = 1 && q.sealed) || (v.sealing = 2 && !q.sealed)) idx
  shapeIf (v.far || q.loc = 2 || q.spDie = 31) idx
  shapeIf (!(q.paired && (v.unpaired || x.commitMode))) idx
  let entry := SMap.find x.entries (r.d.val * 1024 + q.entry)
  shapeIf (!q.paired || entry.isSome) idx
  let act := match entry with | some e => b2n e.area | none => 0
  let area := if q.paired then (match v.area with | .active => act | .inactive => 1 - act | .given a => a) else 0
  let off ← if !q.rel then pure 0 else
    match x.chunkOf q with
    | some k => pure (if q.loc = 1 then k.spBase else k.hbmBase)
    | none => contextFault (if area = 0 then q.baseA else q.baseB)
  let t : Tensor := { idx := idx, q := q, die := r.d.val, area := area
                      base := off + (if area = 0 then q.baseA else q.baseB)
                      sealAt := off + (if area = 0 then q.sealA else q.sealB) }
  shapeIf (!(q.sealed && q.loc = 2 && 0x800000000000 ≤ t.base)) idx
  (List.range q.rows).forM fun i =>
    match t.inside x v.host (t.rowAddr i) q.rowBytes with
    | none => pure ()
    | some a => contextFault a
  if q.sealed then
    match t.inside x false t.sealAt (4 * v.seals.getD (t.blocks * q.rows)) with
    | none => pure t
    | some a => contextFault a
  else pure t

/-- Runs an action over the descriptors that an instruction took when it issued (09 R202). -/
def withDescs {α : Type} (ds : SMap (BitVec 512)) (m : Exec α) : Exec α := do
  let now ← getCtx
  let r ← get
  modS fun s => s.updCtx r.c fun x => { x with descs := ds }
  let v ← m
  modS fun s => s.updCtx r.c fun x => { x with descs := now.descs }
  pure v

/-! ### Reading -/

/-- A byte as delivered: its value and whether it is poison. -/
abbrev PByte := Byte × Bool

/-- A run cut at the multiples of u: starts and lengths. -/
def cutAt (u a n : Nat) : List (Nat × Nat) :=
  if n = 0 then [] else
    (List.range ((a + n - 1) / u + 1 - a / u)).map fun i =>
      let lo := max a ((a / u + i) * u)
      (lo, min (a + n) ((a / u + i + 1) * u) - lo)

/-- The pieces of a run that lie in one codeword each. -/
def pieces (a n : Nat) : List (Nat × Nat) := cutAt 64 a n

/-- Bytes that one poison mark covers where a tensor lies: a scratchpad word or a codeword (08 R190, 09 R201). -/
def Tensor.markUnit (t : Tensor) : Nat := if t.q.loc = 1 then 32 else 64

def Tensor.byteAt (t : Tensor) (s : State) (a : Nat) : Byte :=
  match t.place a with
  | some p => s.byteAt p
  | none => 0

def Tensor.poisonAt (t : Tensor) (s : State) (a : Nat) : Option Origin :=
  match t.place a with
  | some p => s.poisonAt p
  | none => none

def Tensor.readBytes (t : Tensor) (s : State) (a n : Nat) : Bytes := (List.range n).map fun i => t.byteAt s (a + i)

/-- The worst origin among the poison marks of a run. -/
def Tensor.runPoison (t : Tensor) (s : State) (a n : Nat) : Option Origin :=
  (pieces a n).foldl (fun acc (lo, k) =>
    let o := match t.poisonAt s lo, t.poisonAt s (lo + k - 1) with
      | some .memory, _ => some Origin.memory
      | _, some .memory => some .memory
      | some o, _ => some o
      | _, o => o
    match acc, o with
    | some .memory, _ => acc
    | _, some .memory => o
    | some _, _ => acc
    | none, o => o) none

/-- The seal of block j over its bytes (09 R212). -/
def sealOf (j : Nat) (bs : Bytes) : BitVec 32 := crc32c (leBytes 4 j ++ bs)

/-- An engine's access to n bytes of one codeword is charged to its context's stall (08 R183). A delivery never waits; an
access of the engine's own waits while the controller takes no request of the context. -/
def chargeStack (d : Die) (o n : Nat) : Exec Unit :=
  modify fun r =>
    if r.delivers then { r with s := r.s.chargeDelivery d o n r.c.val }
    else { r with s := r.s.askUnits d o n r.c.val, blocked := r.blocked || !r.s.stackReady d r.c }

def countStackReads (t : Tensor) (a n : Nat) : Exec Unit :=
  (pieces a n).forM fun (lo, k) => do
    let r ← get
    match t.place lo with
    | some (.st d o) =>
      modify fun r => { r with fl := { r.fl with stackBytes := r.fl.stackBytes + k } }
      modS fun s => s.countReads (dieOf d) o 1 (some r.c.val)
      chargeStack (dieOf d) o 1
    | _ => pure ()

/-- What an action writes is a delivery. -/
def delivering (m : Exec Unit) : Exec Unit := do
  modify fun r => { r with delivers := true }
  m
  modify fun r => { r with delivers := false }

/-- Raises a seal fault (09 R214). -/
def raiseSeal (t : Tensor) (block stored computed : Nat) : Exec Unit := do
  let r ← get
  raiseMemory { cls := 2, reason := 12, unit := r.unit, inst := t.area, valueB := t.idx + 2 ^ 32 * block
                valueC := stored, valueD := computed }

/-- Reads block k of row r of a tensor, checking its seal (09 R214, R216). An unsealed run is delivered with the marks
of its words or codewords. -/
def readBlock (t : Tensor) (r k : Nat) : Exec (List PByte) := do
  let s ← getS
  let a := t.rowAddr r + 512 * k
  let n := min 512 (t.q.rowBytes - 512 * k)
  let bs := t.readBytes s a n
  let j := r * t.blocks + k
  countStackReads t a n
  if t.q.sealed then countStackReads t (t.sealAt + 4 * j) 4
  let sealBad : Option Origin := if t.q.sealed then t.runPoison s (t.sealAt + 4 * j) 4 else none
  match t.runPoison s a n, sealBad with
  | some o, _ =>
    metPoison o a
    if t.q.sealed then pure (bs.map fun b => (b, true))
    else pure ((List.range n).map fun i => (t.byteAt s (a + i), (t.poisonAt s (a + i)).isSome))
  | none, some o =>
    metPoison o (t.sealAt + 4 * j)
    pure (bs.map fun b => (b, true))
  | none, none =>
    if t.q.sealed then
      let stored := leNat (t.readBytes s (t.sealAt + 4 * j) 4)
      let want := (sealOf j bs).toNat
      if stored = want then pure (bs.map fun b => (b, false))
      else
        raiseSeal t j stored want
        pure (bs.map fun b => (b, true))
    else pure (bs.map fun b => (b, false))

/-- The extent bytes of row r. -/
def readRow (t : Tensor) (r : Nat) : Exec (List PByte) := do
  return ((← (List.range t.blocks).mapM (readBlock t r)).flatten)

/-- The extent bytes of every row, in walk order. -/
def readRows (t : Tensor) : Exec (List (List PByte)) := (List.range t.q.rows).mapM (readRow t)

def readFlat (t : Tensor) : Exec (List PByte) := do return (← readRows t).flatten

/-- Address of flattened extent byte k. -/
def Tensor.flatAddr (t : Tensor) (k : Nat) : Nat := t.rowAddr (k / t.q.rowBytes) + k % t.q.rowBytes

def Tensor.flatLen (t : Tensor) : Nat := t.q.rowBytes * t.q.rows

def Tensor.flatByte (t : Tensor) (s : State) (k : Nat) : Byte := t.byteAt s (t.flatAddr k)

/-- Reads the flattened extent bytes from `lo` to `hi`, and no other: of a sealed tensor every whole block that begins in
that run (09 R214), of an unsealed one the bytes themselves, with the marks of their words or codewords. -/
def readPart (t : Tensor) (lo hi : Nat) : Exec (List PByte) := do
  let hi := min hi t.flatLen
  if t.q.sealed then
    let js := (List.range (t.q.rows * t.blocks)).filter fun j =>
      let a := j / t.blocks * t.q.rowBytes + 512 * (j % t.blocks)
      lo ≤ a && a < hi
    return (← js.mapM fun j => readBlock t (j / t.blocks) (j % t.blocks)).flatten
  else
    let s ← getS
    let ks := (List.range (hi - lo)).map (lo + ·)
    ks.forM fun k => if k = lo || t.flatAddr k % 64 = 0 then countStackReads t (t.flatAddr k) 1 else pure ()
    let marks := ks.filterMap fun k => (t.poisonAt s (t.flatAddr k)).map fun o => (o, t.flatAddr k)
    match marks.find? (fun m => m.1 = .memory) <|> marks.head? with
    | some (o, a) => metPoison o a
    | none => pure ()
    return ks.map fun k => (t.flatByte s k, (t.poisonAt s (t.flatAddr k)).isSome)

/-! ### Writing -/

/-- Stores bytes at a place, inside one codeword or word. -/
def storeAt (p : Place) (bs : Bytes) (poison : Bool) : Exec Unit := do
  let r ← get
  modS fun s => s.write p bs poison
  modify fun r => { r with fl := { r.fl with poison := r.fl.poison || poison } }
  match p with
  | .st d o =>
    modify fun r => { r with fl := { r.fl with stackBytes := r.fl.stackBytes + bs.length } }
    modS fun s => s.countWrites (dieOf d) o bs.length (some r.c.val)
    chargeStack (dieOf d) o bs.length
  | _ => pure ()

/-- Stores a run of bytes as one block of clean or of poisoned data. -/
def storeRun (t : Tensor) (a : Nat) (bs : Bytes) (poison : Bool) : Exec Unit :=
  (pieces a bs.length).forM fun (lo, k) =>
    match t.place lo with
    | some p => storeAt p ((bs.drop (lo - a)).take k) poison
    | none => pure ()

def storeSeal (t : Tensor) (j : Nat) (bs : Bytes) : Exec Unit :=
  if t.q.sealed then storeRun t (t.sealAt + 4 * j) (leBytes 4 (sealOf j bs).toNat) false else pure ()

/-- Writes bytes of row r from byte `off` of the row. A whole block takes its writer's seal; a part of one is merged at
the memory, which checks the old seal and writes a fresh one (09 R215). Poison takes the whole sealed block (R216). -/
def writeSpan (t : Tensor) (r off : Nat) (bs : List PByte) : Exec Unit := do
  if bs.any (·.2) then setTainted
  (List.range t.blocks).forM fun k => do
    let lo := 512 * k
    let hi := min (512 * (k + 1)) t.q.rowBytes
    let from_ := max lo off
    let upto := min hi (off + bs.length)
    if upto ≤ from_ then pure () else
      let part := (bs.drop (from_ - off)).take (upto - from_)
      let a := t.rowAddr r + lo
      let j := r * t.blocks + k
      let bad := part.any (·.2)
      let data := part.map (·.1)
      if !t.q.sealed then
        (cutAt t.markUnit (t.rowAddr r + from_) data.length).forM fun (p, n) =>
          let sub := (part.drop (p - (t.rowAddr r + from_))).take n
          storeRun t p (sub.map (·.1)) (sub.any (·.2))
      else if from_ = lo && upto = hi then
        storeRun t a data bad
        storeSeal t j data
      else
        let s ← getS
        let old := t.readBytes s a (hi - lo)
        let merged := old.take (from_ - lo) ++ data ++ old.drop (upto - lo)
        let wasPoison := (t.runPoison s a (hi - lo)).isSome
        let stored := leNat (t.readBytes s (t.sealAt + 4 * j) 4)
        let broken := !wasPoison && stored ≠ (sealOf j old).toNat
        if broken then raiseSeal t j stored (sealOf j old).toNat
        if bad || broken then storeRun t a merged true
        else storeRun t (t.rowAddr r + from_) data false
        storeSeal t j merged

/-- Writes output k of the instruction, with what its second mismatch poisons (12 R293). -/
def onOutput (k : Nat) (m : Exec Unit) : Exec Unit := do
  let bad := (← get).bad
  modify fun r => { r with bad := hitOf r.hit k }
  m
  modify fun r => { r with bad := bad }

/-- Byte i of the output lies in the line that mismatched twice. -/
def inBadLine (bad : Option (Nat × Nat)) (i : Nat) : Bool :=
  match bad with
  | some (b, n) => b ≤ i && i < b + n
  | none => false

/-- Writes whole rows of the output at hand, the mismatched line as poison (12 R293). -/
def writeRows (t : Tensor) (rows : List (List PByte)) : Exec Unit := do
  let bad := (← get).bad
  rows.zipIdx.forM fun (bs, r) =>
    writeSpan t r 0 (bs.zipIdx.map fun (b, i) => (b.1, b.2 || inBadLine bad (r * t.q.rowBytes + i)))

/-- Writes a run of the flattened extent bytes of a tensor from offset `off`, the mismatched line not looked at. -/
def writeFlat (t : Tensor) (off : Nat) (bs : List PByte) : Exec Unit :=
  (List.range t.q.rows).forM fun r =>
    let lo := r * t.q.rowBytes
    let hi := lo + t.q.rowBytes
    let from_ := max lo off
    let upto := min hi (off + bs.length)
    if upto ≤ from_ then pure () else writeSpan t r (from_ - lo) ((bs.drop (from_ - off)).take (upto - from_))

/-- Writes a run of the flattened bytes of the output at hand, the mismatched line as poison (12 R293). -/
def writeFlatOut (t : Tensor) (off : Nat) (bs : List PByte) : Exec Unit := do
  let bad := (← get).bad
  writeFlat t off (bs.zipIdx.map fun (b, i) => (b.1, b.2 || inBadLine bad (off + i)))

/-! ### Elements -/

/-- Cuts a list into pieces of n, by fuel. -/
def chunkFuel {α : Type} (n : Nat) : Nat → List α → List (List α)
  | 0, _ => []
  | f + 1, l => if l.isEmpty then [] else l.take n :: chunkFuel n f (l.drop n)

def chunksOf {α : Type} (n : Nat) (l : List α) : List (List α) := chunkFuel n l.length l

/-- An element as its bits and poison mark. -/
abbrev PElem := Nat × Bool

/-- Element i of a row in a format of b bits (09 R203). -/
def elemOf (b : Nat) (row : List PByte) (i : Nat) : PElem :=
  let first := i * b / 8
  let last := (i * b + b - 1) / 8
  let bs := (row.drop first).take (last + 1 - first)
  ((leNat (bs.map (·.1)) >>> (i * b % 8)) % 2 ^ b, bs.any (·.2))

/-- The n elements of a row. -/
def elemsOf (b n : Nat) (row : List PByte) : List PElem :=
  if b = 8 then (row.take n).map fun x => (x.1.toNat, x.2)
  else if b % 8 = 0 then ((chunksOf (b / 8) row).take n).map fun bs => (leNat (bs.map (·.1)), bs.any (·.2))
  else (List.range n).map (elemOf b row)

/-- Bytes of a row of elements; the bits beyond the last one are 0. -/
def bytesOfElems (b : Nat) (es : List PElem) : List PByte :=
  if b % 8 = 0 then es.flatMap fun e => (leBytes (b / 8) e.1).map fun x => (x, e.2)
  else
    (chunksOf (if b = 3 then 8 else 8 / b) es).flatMap fun g =>
      (leBytes (ceilDiv (g.length * b) 8) (packNat (g.map fun e => (e.1, b)))).map fun x => (x, g.any (·.2))

/-- FP32 value of an element of a wide format. -/
def wideToF32 (fmt raw : Nat) : BitVec 32 :=
  match fmt with
  | 1 => ofBf16 (BitVec.ofNat 16 raw)
  | 2 => ofE4m3 (BitVec.ofNat 8 raw)
  | 3 => ofE5m2 (BitVec.ofNat 8 raw)
  | _ => BitVec.ofNat 32 raw

/-- Bits of an FP32 value in a wide format; a NaN becomes the one that the format's conversion gives (02 R37 to R39). -/
def f32ToWide (fmt : Nat) (v : BitVec 32) : Nat :=
  match fmt with
  | 1 => (toBf16 v).toNat
  | 2 => (toE4m3 v).toNat
  | 3 => (toE5m2 v).toNat
  | _ => if isNanF v then f32NaN.toNat else v.toNat

def wideFmts : List Nat := [0, 1, 2, 3]

/-- A value and its poison mark. -/
abbrev PVal := BitVec 32 × Bool

def readElems (t : Tensor) : Exec (List (List PElem)) := do
  return (← readRows t).map (elemsOf (fmtBits t.q.fmt) t.q.e0)

/-- The values of a wide tensor, row by row. -/
def readVals (t : Tensor) : Exec (List (List PVal)) := do
  return (← readElems t).map fun row => row.map fun e => (wideToF32 t.q.fmt e.1, e.2)

def writeElems (t : Tensor) (rows : List (List PElem)) : Exec Unit :=
  writeRows t (rows.map (bytesOfElems (fmtBits t.q.fmt)))

/-- Writes values in the tensor's wide format; a written infinity or NaN sets the non-finite flag. -/
def writeVals (t : Tensor) (rows : List (List PVal)) : Exec Unit := do
  setNonfinite (rows.any fun r => r.any fun v => !isFiniteF v.1 && !v.2)
  writeElems t (rows.map fun r => r.map fun v => (f32ToWide t.q.fmt v.1, v.2))

end Sys2Proof.Machine
end

