-- ==== Sys2Proof/Machine/OpSet.lean ====
section
/-! DEFINITION. Operand sets: panel headers, planes, pair tags and unit seals, read with every check of 03 Table 3.6 and
written as one production (03 R51 to R53, R70, R71; 09 R209, R217). -/
namespace Sys2Proof.Machine

/-! ### Panel headers (03 Table 3.2) -/

def hCs32 (h : BitVec 256) : BitVec 32 := BitVec.ofNat 32 (fld h 31 0)
def hCode (h : BitVec 256) : Nat := fld h 33 32
def hForm (h : BitVec 256) : Nat := fld h 35 34
def hBlock (h : BitVec 256) : Bool := bit h 36
def hOutliers (h : BitVec 256) : Bool := bit h 38
def hColsum (h : BitVec 256) : Bool := bit h 39
def hRotR (h : BitVec 256) : Nat := fld h 42 40
def hRotO (h : BitVec 256) : Nat := fld h 45 43
def hBusy (h : BitVec 256) : Bool := bit h 46
def hShift (h : BitVec 256) : Nat := fld h 51 47
def hSeedR (h : BitVec 256) : BitVec 32 := BitVec.ofNat 32 (fld h 95 64)
def hSeedO (h : BitVec 256) : BitVec 32 := BitVec.ofNat 32 (fld h 127 96)
def hBaseR (h : BitVec 256) : Nat := fld h 159 128
def hBaseO (h : BitVec 256) : Nat := fld h 191 160

/-- Fields of a panel header as they are written. -/
structure Header where
  cs32 : BitVec 32
  code : Nat
  form : Nat
  block : Bool
  nonfinite : Bool
  outliers : Bool
  colsum : Bool
  rotR : Nat
  rotO : Nat
  shift : Nat
  seedR : Nat
  seedO : Nat
  baseR : Nat
  baseO : Nat
  zeroBlocks : Nat
  overflow : Nat
  zpClamp : Nat
  deriving DecidableEq, Repr

/-- The final header, BUSY 0 (03 R53). -/
def Header.word (h : Header) : BitVec 256 :=
  pack 256 [(h.cs32.toNat, 32), (h.code, 2), (h.form, 2), (b2n h.block, 1), (b2n h.nonfinite, 1), (b2n h.outliers, 1),
    (b2n h.colsum, 1), (h.rotR, 3), (h.rotO, 3), (0, 1), (h.shift, 5), (0, 12), (h.seedR, 32), (h.seedO, 32),
    (h.baseR, 32), (h.baseO, 32), (min h.zeroBlocks 0xFFFFFF, 24), (min h.overflow 0xFFFFFF, 24), (min h.zpClamp 0xFFFF, 16)]

/-- Rotation size of a ROT_SIZE code (03 Table 3.4). -/
def rotSize (code : Nat) : Nat := if code = 0 then 1 else 8 * 2 ^ code

/-- Pieces of a form code. -/
def formPieces (form : Nat) : Nat := form + 1

/-- Panels of an output axis (03 R52). -/
def panelCount (shift o : Nat) : Nat := if shift = 0 then 1 else ceilDiv o (2 ^ shift)

def panelOf (shift o : Nat) : Nat := if shift = 0 then 0 else o / 2 ^ shift

/-! ### Shape of a set -/

/-- Axes of a set: 16×16 blocks or 1×16 blocks, reduction and output length. -/
structure SetShape where
  b16 : Bool
  red : Nat
  out : Nat
  deriving DecidableEq, Repr

/-- Element index in the code plane's walk (09 R209). -/
def SetShape.elem (g : SetShape) (o r : Nat) : Nat := if g.b16 then r * g.out + o else o * g.red + r

/-- Block index in walk order (03 R70). -/
def SetShape.block (g : SetShape) (o r : Nat) : Nat :=
  if g.b16 then (r / 16) * (g.out / 16) + o / 16 else o * (g.red / 16) + r / 16

def SetShape.blocks (g : SetShape) : Nat := if g.b16 then (g.red / 16) * (g.out / 16) else g.out * (g.red / 16)

/-- Runs of 256 reduction positions in a row, the last one shorter. -/
def SetShape.runsPerRow (g : SetShape) : Nat := ceilDiv g.red 256

/-- Seal units (09 Table 9.4). -/
def SetShape.units (g : SetShape) : Nat := if g.b16 then g.blocks else g.out * g.runsPerRow

def SetShape.unit (g : SetShape) (o r : Nat) : Nat := if g.b16 then g.block o r else o * g.runsPerRow + r / 256

/-- An output and a reduction position of unit u. -/
def SetShape.unitAt (g : SetShape) (u : Nat) : Nat × Nat :=
  if g.b16 then ((u % (g.out / 16)) * 16, (u / (g.out / 16)) * 16)
  else (u / g.runsPerRow, (u % g.runsPerRow) * 256)

/-- Blocks of unit u, by index. -/
def SetShape.unitBlocks (g : SetShape) (u : Nat) : List Nat :=
  if g.b16 then [u]
  else
    let (o, r) := g.unitAt u
    (List.range (min 16 ((g.red - r) / 16))).map fun i => g.block o r + i

/-- Block that holds byte k of plane p of the set, in the plane's flattened extent bytes. -/
def SetShape.blockAt (g : SetShape) (p k : Nat) : Nat :=
  if p = 1 || p = 3 || p = 5 then
    (if g.b16 then (k / (g.out / 2) / 16) * (g.out / 16) + (k % (g.out / 2)) / 8 else k / 8)
  else if p = 7 then (let u := k / 16; (u / g.runsPerRow) * (g.red / 16) + 16 * (u % g.runsPerRow))
  else if p = 8 then 2 * k
  else if 9 ≤ p then k / 16
  else k

/-- Byte spans of block b in plane p: start and length in the flattened extent bytes. A zero point lies in half a
byte. -/
def SetShape.spans (g : SetShape) (p b : Nat) : List (Nat × Nat) :=
  if p = 1 || p = 3 || p = 5 then
    (if g.b16 then
      let r0 := (b / (g.out / 16)) * 16
      let o0 := (b % (g.out / 16)) * 16
      (List.range 16).map fun i => (((r0 + i) * g.out + o0) / 2, 8)
    else [(8 * b, 8)])
  else if p = 8 then [(b / 2, 1)]
  else if 9 ≤ p then [(16 * b, 16)]
  else [(b, 1)]

/-- Bytes that plane p needs. -/
def SetShape.planeBytes (g : SetShape) (p npanels : Nat) : Nat :=
  if p = 0 then 32 * npanels
  else if p = 1 || p = 3 || p = 5 then g.red * g.out / 2
  else if p = 7 then 16 * g.out * g.runsPerRow
  else if p = 8 then ceilDiv g.blocks 2
  else if 9 ≤ p then 16 * g.blocks
  else g.blocks

/-! ### Flat access to planes -/

/-- The pair tag of the scratchpad word that holds flat byte k, moved on to block b (03 R70); none in a stack, where the
tag follows from the walk, and where the word's first byte lies outside the plane's row. -/
def Tensor.tagAt (t : Tensor) (s : State) (g : SetShape) (p k b : Nat) : Nat :=
  let a := t.flatAddr k
  match t.place a with
  | some (.sp d o) =>
    let back := o % 32
    if back ≤ k && t.flatAddr (k - back) + back = a then
      ((SMap.get 0 s.tags (spWordKey d o)).toNat + b + 256 * 2 ^ 40 - g.blockAt p (k - back)) % 256
    else b % 256
  | _ => b % 256

/-! ### Reading a set -/

/-- A pairing fault (03 R71). -/
structure Pairing where
  reason : Nat
  first : Nat
  second : Nat
  block : Nat
  valA : Nat
  valB : Nat
  deriving DecidableEq, Repr

/-- A set that an instruction has opened. -/
structure SetIn where
  base : Nat
  g : SetShape
  hdrs : List (BitVec 256)
  hdrPoison : Bool
  /-- planes by position; none where the set holds none -/
  planes : List (Option Tensor)
  /-- units delivered as poison -/
  badUnits : List Nat
  pairing : Option Pairing
  /-- pieces that the reader takes at most: those of its slot's form (03 R72) -/
  limit : Nat := 3
  deriving DecidableEq, Repr

def SetIn.hdr0 (v : SetIn) : BitVec 256 := v.hdrs.headD 0
def SetIn.hdrOf (v : SetIn) (o : Nat) : BitVec 256 := v.hdrs.getD (panelOf (hShift v.hdr0) o) 0
def SetIn.plane (v : SetIn) (p : Nat) : Option Tensor := v.planes.getD p none
/-- The header of the panel that holds unit u; a unit lies in one panel (03 R52). -/
def SetIn.hdrUnit (v : SetIn) (u : Nat) : BitVec 256 := v.hdrOf (v.g.unitAt u).1

/-- Pieces of unit u that are held, and those of them that are read. -/
def SetIn.heldIn (v : SetIn) (u : Nat) : Nat := formPieces (hForm (v.hdrUnit u))
def SetIn.readIn (v : SetIn) (u : Nat) : Nat := min v.limit (v.heldIn u)

/-- Half byte i of a plane. -/
def Tensor.nibble (t : Tensor) (s : State) (i : Nat) : Nat := ((t.flatByte s (i / 2)).toNat >>> (4 * (i % 2))) % 16

def SetIn.code (v : SetIn) (s : State) (piece o r : Nat) : Nat :=
  match v.plane (1 + 2 * piece) with
  | some t => t.nibble s (v.g.elem o r)
  | none => 0

def SetIn.scale (v : SetIn) (s : State) (piece o r : Nat) : Nat :=
  match v.plane (2 + 2 * piece) with
  | some t => (t.flatByte s (v.g.block o r)).toNat
  | none => 0

def SetIn.zeroPoint (v : SetIn) (s : State) (o r : Nat) : Nat :=
  match v.plane 8 with
  | some t => t.nibble s (v.g.block o r)
  | none => 0

def SetIn.colsum (v : SetIn) (s : State) (piece o r : Nat) : Int :=
  match v.plane (9 + piece) with
  | some t => signedOf 8 (t.flatByte s (16 * v.g.block o r + o % 16)).toNat
  | none => 0

def SetIn.outlier (v : SetIn) (s : State) (o r : Nat) : BitVec 128 :=
  match v.plane 7 with
  | some t => wordOf 128 ((List.range 16).map fun i => t.flatByte s (16 * v.g.unit o r + i))
  | none => 0

def SetIn.bad (v : SetIn) (o r : Nat) : Bool := v.badUnits.contains (v.g.unit o r)

/-- Planes that a header declares. -/
def heldPlanes (h : BitVec 256) : List Nat :=
  let k := formPieces (hForm h)
  (List.range k).flatMap (fun i => [1 + 2 * i, 2 + 2 * i]) ++ (if hOutliers h then [7] else []) ++
    (if hCode h = 2 then [8] else []) ++ (if hColsum h then (List.range k).map (9 + ·) else [])

/-- Plane p belongs to no piece from the n-th on. -/
def planeWithin (n p : Nat) : Bool := if p ≤ 6 then (p - 1) / 2 < n else if 9 ≤ p then p - 9 < n else true

/-- Byte spans of unit u in the order that its seal covers, planes of the pieces held (09 Table 9.4). The zero points
of a unit are handled apart. -/
def SetIn.unitSpans (v : SetIn) (u : Nat) : List (Nat × Nat × Nat) :=
  let bs := v.g.unitBlocks u
  (List.range (v.readIn u)).flatMap (fun k =>
    (bs.flatMap fun b => (v.g.spans (1 + 2 * k) b).map fun (e : Nat × Nat) => ((1 + 2 * k, e.1, e.2) : Nat × Nat × Nat)) ++
    (bs.map fun b => ((2 + 2 * k, b, 1) : Nat × Nat × Nat)) ++
    (if v.g.b16 && hColsum (v.hdrUnit u) then bs.map fun b => (9 + k, 16 * b, 16) else []))

def SetIn.spanBytes (v : SetIn) (s : State) (sp : Nat × Nat × Nat) : Bytes :=
  match v.plane sp.1 with
  | some t => (List.range sp.2.2).map fun i => t.flatByte s (sp.2.1 + i)
  | none => []

/-- Bytes under the seal of unit u. -/
def SetIn.unitBytes (v : SetIn) (s : State) (u : Nat) : Bytes :=
  let body := (v.unitSpans u).flatMap (v.spanBytes s)
  let zps := match v.plane 8 with
    | some t =>
      if v.g.b16 || hCode (v.hdrUnit u) ≠ 2 then [] else
        let n := (v.g.unitBlocks u).map fun b => t.nibble s b
        (chunksOf 2 n).map fun g => BitVec.ofNat 8 (g.getD 0 0 + 16 * g.getD 1 0)
    | none => []
  let outl := if v.g.b16 || !hOutliers (v.hdrUnit u) then [] else v.spanBytes s (7, 16 * u, 16)
  body ++ zps ++ outl

/-- Every byte span that unit u reads, zero points and outliers included. -/
def SetIn.unitReads (v : SetIn) (u : Nat) : List (Nat × Nat × Nat) :=
  v.unitSpans u ++
    (if hCode (v.hdrUnit u) = 2 then (v.g.unitBlocks u).map fun b => (8, b / 2, 1) else []) ++
    (if !v.g.b16 && hOutliers (v.hdrUnit u) then [(7, 16 * u, 16)] else [])

/-- First pair-tag mismatch of a block (03 Table 3.6, SCALE to COLSUM). -/
def SetIn.tagFault (v : SetIn) (s : State) (b : Nat) (runFirst : Bool) (run : Nat) : Option Pairing :=
  let tagsOf := fun (p : Nat) => match v.plane p with
    | some t => ((v.g.spans p b).map fun (e : Nat × Nat) => t.tagAt s v.g p e.1 b)
    | none => []
  let head := (tagsOf 2).headD (b % 256)
  let mk := fun (reason p q x : Nat) => some { reason := reason, first := v.base + p, second := v.base + q, block := b, valA := x, valB := head : Pairing }
  let check := fun (reason p : Nat) => match (tagsOf p).find? (· ≠ head) with
    | some x => mk reason p 2 x
    | none => none
  let outl := if runFirst then match v.plane 7 with
    | some t => let x := t.tagAt s v.g 7 (16 * run) b; if x ≠ head then mk 4 7 2 x else none
    | none => none
    else none
  (check 1 1) <|> (check 2 3) <|> (check 2 4) <|> (check 2 5) <|> (check 2 6) <|> (check 3 8) <|> outl <|>
    (check 5 9) <|> (check 5 10) <|> (check 5 11)

/-- Reads one unit: poison and seal, then tags. A unit with pieces that the slot's form lacks is delivered without its
seal's check, which would need their bytes (03 R72, 07 R167; DESIGN CHOICE, log 125). -/
def readUnit (v : SetIn) (u : Nat) : Exec SetIn := do
  let s ← getS
  let spans := v.unitReads u
  (match v.plane 1 with
    | some t => if t.q.sealed && v.heldIn u ≤ v.limit then countStackReads t (t.sealAt + 4 * u) 4 else pure ()
    | none => pure ())
  spans.forM fun (p, a, n) => match v.plane p with
    | some t => (List.range n).forM fun i => if i % 64 = 0 then countStackReads t (t.flatAddr (a + i)) 1 else pure ()
    | none => pure ()
  let marks := spans.flatMap fun (p, a, n) => match v.plane p with
    | some t => (List.range n).filterMap fun i => (t.poisonAt s (t.flatAddr (a + i))).map fun o => (o, t.flatAddr (a + i))
    | none => []
  let v := { v with pairing := v.pairing <|> (v.g.unitBlocks u).zipIdx.findSome? fun (b, i) => v.tagFault s b (i = 0) u }
  let sealMark := if v.limit < v.heldIn u then none else match v.plane 1 with
    | some t => if t.q.sealed then (t.runPoison s (t.sealAt + 4 * u) 4).map fun o => (o, t.sealAt + 4 * u) else none
    | none => none
  match marks.find? (fun m => m.1 = .memory) <|> marks.head? <|> sealMark, v.plane 1 with
  | some (o, a), _ =>
    metPoison o a
    pure { v with badUnits := u :: v.badUnits }
  | none, some t => if !t.q.sealed || v.limit < v.heldIn u then pure v else
    let stored := leNat (t.readBytes s (t.sealAt + 4 * u) 4)
    let want := (sealOf u (v.unitBytes s u)).toNat
    if stored = want then pure v
    else
      raiseSeal t u stored want
      pure { v with badUnits := u :: v.badUnits }
  | none, none => pure v

/-- First header breach (03 Table 3.6, PRODUCTION and HEADER). `role` is none where either block form serves. -/
def headerFault (base : Nat) (hs : List (BitVec 256)) (role : Option Bool) : Option Pairing :=
  let mk := fun (reason x : Nat) => some { reason := reason, first := base, second := base, block := 0, valA := x, valB := (hs.headD 0).toNat % 2 ^ 64 : Pairing }
  hs.findSome? fun h =>
    if hBusy h then mk 7 (h.toNat % 2 ^ 64)
    else if hForm h = 3 || hCode h = 3 || 6 ≤ hRotR h || 6 ≤ hRotO h || hShift h ≠ hShift (hs.headD 0) then mk 8 (h.toNat % 2 ^ 64)
    else match role with
      | some b => if hBlock h = b then none else mk 8 (h.toNat % 2 ^ 64)
      | none => none

/-- How a set is opened. -/
structure SetWant where
  role : Option Bool := none
  far : Bool := false
  host : Bool := false
  area : AreaSel := .active
  /-- unsealed sets are accepted too (09 R218, the move engine) -/
  loose : Bool := false
  /-- pieces of the slot's form, by the panel headers' form (03 R72) -/
  limit : Nat := 3

def codeFmt (code : Nat) : Nat := 8 + code

/-- Opens the set at `base`: its headers, its planes and the checks on headers; no unit is read yet. -/
def openSet (base : Nat) (v : SetWant) : Exec SetIn := do
  let want := fun (p : Nat) (fmts : List Nat) (sealing : Nat) =>
    ({ plane := p + 1, fmts := fmts, sealing := sealing, far := v.far, host := v.host, area := v.area } : Want)
  let must := if v.loose then 0 else 1
  let th ← resolve base (want 0 [6] must)
  shapeIf (32 ≤ th.flatLen) base
  let flat ← readPart th 0 32
  let first := wordOf 256 ((flat.take 32).map (·.1))
  if (flat.take 32).any (·.2) then
    return { base := base, g := { b16 := v.role.getD (hBlock first), red := 0, out := 0 }, hdrs := [first], hdrPoison := true
             planes := [some th], badUnits := [], pairing := none, limit := v.limit }
  let b16 := match v.role with | some b => b | none => hBlock first
  let shapeOf := fun (q : Desc) => if b16 then ({ b16 := true, red := q.e1, out := q.e0 } : SetShape)
    else { b16 := false, red := q.e0, out := q.e1 * q.e2 * q.e3 }
  let x ← getCtx
  let g0 := shapeOf (descOf (SMap.get 0 x.descs (base + 1)))
  let t1 ← resolve (base + 1) { (want 1 [8, 9, 10] must) with seals := some g0.units }
  let g := shapeOf t1.q
  shapeIf (g.red % 16 = 0 && (!b16 || (g.out % 16 = 0 && t1.q.e2 ≤ 1 && t1.q.e3 ≤ 1))) (base + 1)
  let np := panelCount (hShift first) g.out
  shapeIf (32 * np ≤ th.flatLen) base
  let hb := (flat ++ (← readPart th 32 (32 * np))).take (32 * np)
  let cut := chunksOf 32 hb
  let hdrs := cut.map fun l => wordOf 256 (l.map (·.1))
  let poison := hb.any (·.2)
  let pairing := headerFault base ((cut.filter fun l => !l.any (·.2)).map fun l => wordOf 256 (l.map (·.1))) v.role
  if pairing.isSome || poison then
    pure { base := base, g := g, hdrs := hdrs, hdrPoison := poison, planes := [some th, some t1], badUnits := [], pairing := pairing
           limit := v.limit }
  else
    shapeIf (t1.q.fmt = codeFmt (if hForm first = 0 then hCode first else 1)) (base + 1)
    let held := (hdrs.flatMap fun h => (heldPlanes h).filter (planeWithin v.limit)).eraseDups
    let rest ← (List.range 12).mapM fun p =>
      if p = 0 then pure (some th)
      else if p = 1 then pure (some t1)
      else if held.contains p then do
        let t ← resolve (base + p) (want p (if p = 3 || p = 5 then [9] else [6]) 2)
        shapeIf (g.planeBytes p np ≤ t.flatLen && (!(p = 3 || p = 5) || t.q.e0 = t1.q.e0)) (base + p)
        pure (some t)
      else pure none
    pure { base := base, g := g, hdrs := hdrs, hdrPoison := poison, planes := rest, badUnits := [], pairing := none, limit := v.limit }

/-- Reads every unit that holds some position of the given output and reduction ranges. -/
def readUnits (v : SetIn) (outs reds : Nat × Nat) : Exec SetIn :=
  let os := (List.range (outs.2 - outs.1)).map (outs.1 + ·)
  let rs := (List.range (reds.2 - reds.1)).map (reds.1 + ·)
  let us := if v.g.b16
    then ((rs.filter (· % 16 = 0)).flatMap fun r => (os.filter (· % 16 = 0)).map fun o => v.g.unit o r).eraseDups
    else (os.flatMap fun o => (rs.filter (fun r => r % 16 = 0)).map fun r => v.g.unit o r).eraseDups
  us.foldlM readUnit v

/-- Records a pairing fault (03 R71): the affected output is written as poison by the caller. -/
def raisePairing (p : Pairing) : Exec Unit :=
  raiseCompute { cls := 1, reason := 6, sub := p.reason, unit := 3, valueB := p.first + 2 ^ 32 * p.block, valueC := p.valA
                 valueD := p.valB, second := p.second }

/-! ### Element values -/

/-- Decoded code times 2: none for a NaN code (02 R26, R28, R29). -/
def codeTwice (code c : Nat) : Option Int :=
  match code with
  | 0 => n4fTwice c
  | 1 => some (2 * n4iVal c)
  | _ => some (2 * (c : Int))

/-- Exact value of an element in units of CS32, from its first `np` pieces and its outlier, as m × 2^-11; none is NaN
(02 R35, R46; 03 R66). -/
def SetIn.value (v : SetIn) (s : State) (np o r : Nat) : Option Dyad :=
  let h := v.hdrOf o
  let base := (List.range (min np (formPieces (hForm h)))).foldl (fun acc k =>
    match acc with
    | none => none
    | some (a : Dyad) =>
      let b := v.scale s k o r
      if b = 0xFF then none
      else if b = 0 then some a
      else match codeTwice (hCode h) (v.code s k o r) with
        | none => none
        | some c =>
          let c := if hCode h = 2 then c - 2 * (v.zeroPoint s o r : Int) else c
          some (a.add { m := c * (bs8Kilo b : Int), e := -11 })) (some Dyad.zero)
  if hOutliers h then
    let rec_ := v.outlier s o r
    let hit := (List.range 4).find? fun e => bit rec_ (96 + e) && fld rec_ (71 + 8 * e) (64 + 8 * e) = r % 256
    match hit, base with
    | some e, some a => some (a.add (valF (ofBf16 (BitVec.ofNat 16 (fld rec_ (15 + 16 * e) (16 * e))))))
    | _, b => b
  else base

/-! ### Writing a set -/

/-- What a production writes. -/
structure SetOut where
  g : SetShape
  form : Nat
  code : Nat
  shift : Nat
  outliers : Bool
  colsum : Bool
  /-- first covered output position and the one after the last -/
  outs : Nat × Nat
  reds : Nat × Nat
  /-- codes of a piece by walk index -/
  codes : List (Array Nat)
  /-- BS8 of a piece by block -/
  scales : List (Array Nat)
  zps : Array Nat
  /-- outlier records by run -/
  outl : Array (BitVec 128)
  /-- column sums of a piece by 16 × block + column -/
  sums : List (Array Int)
  headers : List (Nat × BitVec 256)
  /-- poisoned panels, and poisoned headers with them -/
  poison : List Nat
  /-- further units to write as poison -/
  badUnits : List Nat := []

/-- Planes a production needs. -/
def SetOut.planes (v : SetOut) : List Nat :=
  let k := formPieces v.form
  (List.range k).flatMap (fun i => [1 + 2 * i, 2 + 2 * i]) ++ (if v.outliers then [7] else []) ++
    (if v.code = 2 then [8] else []) ++ (if v.colsum then (List.range k).map (9 + ·) else [])

/-- Resolves the planes of a destination set and checks their extents (03 R55). The move engine takes unsealed sets and
the host window too, and never a paired descriptor (09 R207, R218). -/
def openDest (base : Nat) (v : SetOut) (area : AreaSel) (far : Bool) (move : Bool := false) : Exec (List (Option Tensor)) := do
  let np := panelCount v.shift v.g.out
  (List.range 12).mapM fun p =>
    if p = 0 || v.planes.contains p then do
      let fmts := if p = 1 then (if v.code = 3 then [8, 9, 10] else [codeFmt v.code]) else if p = 3 || p = 5 then [9] else [6]
      let t ← resolve (base + p) { plane := p + 1, fmts := fmts, sealing := if 2 ≤ p then 2 else if move then 0 else 1, area := area
                                   far := far, unpaired := move, host := move
                                   seals := if p = 1 then some v.g.units else none }
      shapeIf (v.g.planeBytes p np ≤ t.flatLen) (base + p)
      if p = 1 || p = 3 || p = 5 then
        shapeIf (if v.g.b16 then t.q.e0 = v.g.out && v.g.red ≤ t.q.e1 else t.q.e0 = v.g.red) (base + p)
      pure (some t)
    else pure none

/-- Output position of block b. -/
def SetShape.outOf (g : SetShape) (b : Nat) : Nat := if g.b16 then (b % (g.out / 16)) * 16 else b / (g.red / 16)

def SetShape.redOf (g : SetShape) (b : Nat) : Nat := if g.b16 then (b / (g.out / 16)) * 16 else (b % (g.red / 16)) * 16

def SetOut.covers (v : SetOut) (b : Nat) : Bool :=
  v.outs.1 ≤ v.g.outOf b && v.g.outOf b < v.outs.2 && v.reds.1 ≤ v.g.redOf b && v.g.redOf b < v.reds.2

/-- Byte k of plane p. -/
def SetOut.byteOf (v : SetOut) (p k : Nat) : Byte :=
  if p = 1 || p = 3 || p = 5 then
    let c := v.codes.getD (p / 2) #[]
    BitVec.ofNat 8 (c.getD (2 * k) 0 + 16 * c.getD (2 * k + 1) 0)
  else if p = 7 then BitVec.ofNat 8 ((v.outl.getD (k / 16) 0).toNat >>> (8 * (k % 16)))
  else if p = 8 then BitVec.ofNat 8 (v.zps.getD (2 * k) 0 + 16 * v.zps.getD (2 * k + 1) 0)
  else if 9 ≤ p then BitVec.ofInt 8 ((v.sums.getD (p - 9) #[]).getD k 0)
  else BitVec.ofNat 8 ((v.scales.getD (p / 2 - 1) #[]).getD k 0)

/-- Maximal runs of consecutive offsets. -/
def runsOf : List (Nat × PByte) → List (Nat × List PByte)
  | [] => []
  | (k, b) :: rest =>
    match runsOf rest with
    | (j, bs) :: more => if j = k + 1 then (k, b :: bs) :: more else (k, [b]) :: (j, bs) :: more
    | [] => [(k, [b])]

/-- Marks the scratchpad words of a written plane with the tag of the block that holds the word's first byte (03 R70). -/
def tagPlane (t : Tensor) (g : SetShape) (p : Nat) (ks : List Nat) : Exec Unit :=
  ks.forM fun k =>
    match t.place (t.flatAddr k) with
    | some (.sp d o) =>
      if o % 32 = 0 then modS fun s => { s with tags := SMap.put 0 s.tags (spWordKey d o) (BitVec.ofNat 8 (g.blockAt p k)) }
      else pure ()
    | _ => pure ()

/-- Writes bytes of a plane at flattened offsets, without seals of its own. -/
def writePlane (t : Tensor) (g : SetShape) (p : Nat) (bs : List (Nat × PByte)) : Exec Unit := do
  (runsOf bs).forM fun (k, run) => writeFlat { t with q := { t.q with sealed := false } } k run
  tagPlane t g p (bs.map (·.1))

/-- The written set as a reader will find it; every panel of a production declares the same planes. -/
def setInOf (base : Nat) (g : SetShape) (hdrs : List (BitVec 256)) (planes : List (Option Tensor)) : SetIn :=
  { base := base, g := g, hdrs := hdrs, hdrPoison := false, planes := planes, badUnits := [], pairing := none }

/-- Writes the unit seals of the given units from the bytes now stored. -/
def sealUnits (v : SetIn) (us : List Nat) : Exec Unit :=
  us.forM fun u => do
    let s ← getS
    match v.plane 1 with
    | some t => storeRun t (t.sealAt + 4 * u) (leBytes 4 (sealOf u (v.unitBytes s u)).toNat) false
    | none => pure ()

/-- Writes the headers of the given panels, neighbouring ones as one run (03 R53, 09 R215). -/
def writeHeaders (t : Tensor) (hs : List (Nat × BitVec 256)) (poison : List Nat) : Exec Unit :=
  (runsOf (hs.flatMap fun (p, h) => (leBytes 32 h.toNat).zipIdx.map fun (b, i) => (32 * p + i, (b, poison.contains p)))).forM
    fun (k, run) => writeFlat t k run

/-- Units with a byte in a line that mismatched twice: output 0 is the piece-0 code plane, output p plane p (12 R293). -/
def SetOut.hitUnits (v : SetOut) (hit : Option (Option Nat × Nat)) (np : Nat) : List Nat :=
  v.planes.flatMap fun p => match hitOf hit (if p = 1 then 0 else p) with
    | none => []
    | some (off, n) => ((List.range (min n (v.g.planeBytes p np - off))).map fun i =>
        let b := v.g.blockAt p (off + i)
        v.g.unit (v.g.outOf b) (v.g.redOf b)).eraseDups

/-- Writes a production: planes, unit seals, then the headers (03 R53). A unit with a poisoned byte is written whole as
poison (09 R216). -/
def writeSet (base : Nat) (v : SetOut) (planes : List (Option Tensor)) : Exec Unit := do
  let hit := (← get).hit
  let np := panelCount v.shift v.g.out
  let blocks := (List.range v.g.blocks).filter v.covers
  let units := (blocks.map fun b => v.g.unit (v.g.outOf b) (v.g.redOf b)).eraseDups
  let lineUnits := v.hitUnits hit np
  let badUnits := units.filter fun u => lineUnits.contains u || v.badUnits.contains u || v.poison.contains (panelOf v.shift (v.g.unitAt u).1)
  if !badUnits.isEmpty then setTainted
  let unitOfBlock := fun (b : Nat) => v.g.unit (v.g.outOf b) (v.g.redOf b)
  v.planes.forM fun p => match planes.getD p none with
    | none => pure ()
    | some t =>
      let bs := (List.range (v.g.planeBytes p np)).filterMap fun k =>
        let b := v.g.blockAt p k
        let b' := if p = 8 && !v.covers b then b + 1 else b
        if v.covers b' then some (k, (v.byteOf p k, badUnits.contains (unitOfBlock b'))) else none
      writePlane t v.g p bs
  sealUnits (setInOf base v.g (List.replicate np ((v.headers.map (·.2)).headD 0)) planes) units
  match planes.getD 0 none with
  | some t => writeHeaders t v.headers (v.poison ++ (v.headers.map (·.1)).filter fun p =>
      (List.range 32).any fun i => inBadLine (hitOf hit 12) (32 * p + i))
  | none => pure ()

end Sys2Proof.Machine
end

