-- ==== Sys2Proof/Machine/Quant.lean ====
section
/-! DEFINITION. Rotation, outliers and the coding of blocks: one production of a four-bit operand (02 R33 to R36, R46,
R47; 03 R54 to R69; 07 R159). -/
namespace Sys2Proof.Machine

/-! ### Rotation (03 R59 to R61) -/

/-- The element at absolute index a is negated (03 R59). -/
def signFlip (seed : BitVec 32) (a : Nat) : Bool :=
  (seed ^^^ BitVec.ofNat 32 (a / 32 * 0x9E3779B9)).getLsbD (a % 32)

/-- One butterfly stage over an aligned run (03 R60). -/
def stage {α : Type} (z : α) (add sub : α → α → α) (h : Nat) (v : Array α) : Array α :=
  ((List.range v.size).map fun p =>
    if p / h % 2 = 0 then add (v.getD p z) (v.getD (p + h) z) else sub (v.getD (p - h) z) (v.getD p z)).toArray

def butterflies {α : Type} (z : α) (add sub : α → α → α) (n : Nat) (v : Array α) : Array α :=
  (List.range (Nat.log2 n)).foldl (fun v k => stage z add sub (2 ^ k) v) v

def flipRun {α : Type} (neg : α → α) (seed : BitVec 32) (base : Nat) (v : List α) : List α :=
  v.zipIdx.map fun (x, i) => if signFlip seed (base + i) then neg x else x

/-- Forward rotation of one run in FP32. -/
def rotateRun (n : Nat) (seed : BitVec 32) (base : Nat) (v : List (BitVec 32)) : List (BitVec 32) :=
  (butterflies 0 fadd fsub n (flipRun fneg seed base v).toArray).toList

/-- The undo of one run over exact integers, without its division (03 R61). -/
def undoRun (n : Nat) (seed : BitVec 32) (base : Nat) (v : List Int) : List Int :=
  flipRun (fun x => -x) seed base (butterflies 0 (· + ·) (· - ·) n v.toArray).toList

/-- The same in FP32 (03 R75). -/
def inverseRun (n : Nat) (seed : BitVec 32) (base : Nat) (v : List (BitVec 32)) : List (BitVec 32) :=
  flipRun fneg seed base (butterflies 0 fadd fsub n v.toArray).toList

/-- Applies f to each aligned run of n in a row; f is given the run's start. -/
def alongRow {α : Type} (n : Nat) (f : Nat → List α → List α) (row : List α) : List α :=
  if n ≤ 1 then row else ((chunksOf n row).zipIdx.map fun (r, i) => f (i * n) r).flatten

def transposeL {α : Type} (z : α) (rows : List (List α)) : List (List α) :=
  let a := (rows.map List.toArray).toArray
  (List.range (rows.headD []).length).map fun j => (List.range rows.length).map fun i => (a.getD i #[]).getD j z

/-- Poison of any element of a run reaches the run. -/
def spreadRow (n : Nat) (row : List Bool) : List Bool := alongRow n (fun _ r => r.map fun _ => r.any id) row

/-! ### Exact quotients -/

/-- The rational y / (kilo × 2^-10 × cs) as a signed numerator over a positive denominator. -/
def quotient (y cs : BitVec 32) (kilo : Nat) : Int × Nat :=
  let a := valF y
  let b := valF cs
  let ex := a.e + 10 - b.e
  (a.m * ((2 ^ ex.toNat : Nat) : Int), kilo * b.m.natAbs * 2 ^ (-ex).toNat)

/-- Magnitude of a finite word. -/
def magGt (a b : BitVec 32) : Bool := b.toNat % 2 ^ 31 < a.toNat % 2 ^ 31

/-- Largest magnitude among finite words, as a positive word. -/
def amaxOf (l : List (BitVec 32)) : BitVec 32 :=
  l.foldl (fun m v => if isFiniteF v && magGt v m then fabs v else m) 0

/-! ### One block (02 R34 to R36, R46, R47; 03 R56) -/

/-- A coded block: head BS8, codes of each piece, zero point, clamped elements. -/
structure Coded where
  head : Nat
  codes : List (List Nat)
  zp : Nat
  clamps : Nat
  deriving DecidableEq, Repr

def qmaxOf (code : Nat) : Nat := if code = 0 then 6 else if code = 1 then 7 else 15

/-- The pieces of a quotient num / den (02 R47). -/
def splitPieces (np : Nat) (num : Int) (den : Nat) : List Int :=
  match np with
  | 0 => []
  | n + 1 =>
    let q := roundHalfEvenI num den
    q :: splitPieces n (8 * (num - q * den)) den

/-- One block's scale, codes and zero point. Of an N4I-U block the test `every code rounds to zero` is made on the rounded
quotients before Z is added: where they are all the same negative number, every stored U is 0 and the block keeps its BS8
(DESIGN CHOICE, log 126). -/
def codeBlock (code form : Nat) (vals : List (BitVec 32)) (cs : BitVec 32) : Coded :=
  let np := formPieces form
  let zeros := List.replicate np (vals.map fun _ => 0)
  let allFinite := vals.all isFiniteF
  if !allFinite && code ≠ 0 then { head := 0xFF, codes := zeros, zp := 0, clamps := 0 }
  else
    let am := amaxOf vals
    let (bn, bd) := quotient am cs (1024 * qmaxOf code)
    let head := let b := bs8Ceil bn.natAbs bd; if b = 0 && !allFinite then 1 else b
    if head = 0 then { head := 0, codes := zeros, zp := 0, clamps := 0 }
    else
      let ts := vals.map fun v => quotient v cs (bs8Kilo head)
      if code = 0 then
        let cs := (List.zip vals ts).map fun (v, t) => if isFiniteF v then toN4f t.1 t.2 else 8
        if cs.all (· = 0) then { head := 0, codes := zeros, zp := 0, clamps := 0 }
        else { head := head, codes := [cs], zp := 0, clamps := 0 }
      else if code = 2 then
        let qs := ts.map fun t => roundHalfEvenI t.1 t.2
        let lo := qs.foldl min (qs.headD 0)
        let hi := qs.foldl max (qs.headD 0)
        let z : Int := if hi - lo ≤ 15 then max 0 (-lo) else if -lo ≤ hi then 0 else 15
        if qs.all (· = 0) then { head := 0, codes := zeros, zp := 0, clamps := 0 }
        else
          { head := head, codes := [qs.map fun q => (clampI 0 15 (q + z)).toNat], zp := z.toNat
            clamps := qs.countP fun q => q + z < 0 || 15 < q + z }
      else
        let ps := ts.map fun t => match splitPieces np t.1 t.2 with
          | q :: rest => clampI (-7) 7 q :: rest
          | [] => []
        let piece := fun k => ps.map fun p => if bs8Piece head k = 0 then 0 else twos 4 (p.getD k 0)
        if ((List.range np).flatMap piece).all (· = 0) then { head := 0, codes := zeros, zp := 0, clamps := 0 }
        else { head := head, codes := (List.range np).map piece, zp := 0, clamps := 0 }

/-! ### Statistics of a block (07 R159) -/

/-- BS8 of piece k: a later piece whose codes are all 0 has 0x00 (02 R34, R46). -/
def Coded.scale (b : Coded) (k : Nat) : Nat :=
  if 0 < k && b.head ≠ 0xFF && (b.codes.getD k []).all (· = 0) then 0 else bs8Piece b.head k

/-- Exact value of the first P pieces of a coded element, in FP32 terms cs × …; none is NaN. -/
def codedValue (code : Nat) (b : Coded) (cs : BitVec 32) (p i : Nat) : Option Dyad :=
  (List.range p).foldl (fun acc k =>
    match acc with
    | none => none
    | some (a : Dyad) =>
      match codeTwice code ((b.codes.getD k []).getD i 0) with
      | none => none
      | some c =>
        let c := if code = 2 then c - 2 * (b.zp : Int) else c
        some (a.add (({ m := c * (bs8Kilo (bs8Piece b.head k) : Int), e := -11 } : Dyad).mul (valF cs)))) (some Dyad.zero)

/-- The block is coarse at P. Positions that hold an outlier hold +0 in both trees (log 12). -/
def coarseAt (code : Nat) (b : Coded) (cs : BitVec 32) (errShift p : Nat) (vals : List (BitVec 32 × Bool)) : Bool :=
  let sigma := treeSum (vals.map fun v => if v.2 then 0 else fmul v.1 v.1)
  let err := treeSum (vals.zipIdx.map fun (v, i) =>
    if v.2 then 0 else
      match codedValue code b cs p i with
      | none => f32NaN
      | some y => if isFiniteF v.1 then (let e := dyadF32 false ((valF v.1).add y.neg); fmul e e) else f32NaN)
  isFiniteF err && isFiniteF sigma && (valF sigma).lt { (valF err) with e := (valF err).e + errShift }

/-- Counts of a production, in the field order of 07 Table 7.2. -/
structure ProdStats where
  blocks : Nat
  zeroBlocks : Nat
  coarse1 : Nat
  coarse2 : Nat
  runs : Nat
  overflow : Nat
  elementsU : Nat
  zpClamp : Nat
  nonfinite : Bool
  outliers : Nat
  deriving DecidableEq, Repr

/-! ### A production -/

/-- What a production is to make. -/
structure Prod where
  g : SetShape
  form : Nat
  code : Nat
  outliers : Bool
  ratio : Nat
  colsum : Bool
  rotR : Nat
  rotO : Nat
  seedR : BitVec 32
  seedO : BitVec 32
  baseR : Nat
  baseO : Nat
  shift : Nat
  errShift : Nat
  /-- covered output positions -/
  outs : Nat × Nat
  /-- amax from a measure record (06 R141) in place of the panel's own -/
  amax : Option (BitVec 32)
  /-- a block with a non-finite value takes BS8 0xFF in N4F too (06 R142) -/
  nanBlocks : Bool := false
  deriving DecidableEq, Repr

/-- Rotates the covered rows: the reduction axis first, then the output axis. Rows are output positions. -/
def rotateGrid (p : Prod) (firstRow : Nat) (rows : List (List (BitVec 32))) : List (List (BitVec 32)) :=
  let br := rotSize p.rotR
  let bo := rotSize p.rotO
  let rows := rows.map (alongRow br fun i r => rotateRun br p.seedR (p.baseR + i) r)
  if bo ≤ 1 then rows
  else transposeL 0 ((transposeL 0 rows).map (alongRow bo fun i r => rotateRun bo p.seedO (p.baseO + firstRow + i) r))

/-- Selected candidates of one run, by position, and how many more there were (03 R64). -/
def candidates (ratio : Nat) (run : List (BitVec 32)) : List Nat × Nat :=
  let fin := run.countP isFiniteF
  if fin = 0 then ([], 0)
  else
    let mean := divCount (treeSum (run.map fun v => if isFiniteF v then fabs v else 0)) fin
    let limit := fmul (natF32 ratio) mean
    let cand := (run.zipIdx.filter fun (v, _) => isFiniteF v && flt limit (fabs v)).map fun (v, i) => (v.toNat % 2 ^ 31, i)
    let sorted := cand.mergeSort fun a b => b.1 < a.1 || (a.1 = b.1 && a.2 ≤ b.2)
    ((sorted.take 4).map (·.2), cand.length - 4)

/-- |y| against k × cs, exactly. -/
def ratioGt (y cs : BitVec 32) (k : Nat) : Bool :=
  let (n, d) := quotient y cs 1024
  k * d < n.natAbs

def ratioLt1 (y cs : BitVec 32) : Bool :=
  let (n, d) := quotient y cs 1024
  n.natAbs < d

/-- BF16 value of an outlier, y / cs (03 R66). -/
def outlierValue (y cs : BitVec 32) : Nat :=
  let (n, d) := quotient y cs 1024
  (roundNearest bf16 n.natAbs d) + (if n < 0 then 0x8000 else 0)

/-- The outlier record of a run (03 Table 3.7). -/
def outlierRecord (es : List (Nat × Nat)) : BitVec 128 :=
  let v := fun i => (es.getD i (0, 0)).2
  let q := fun i => (es.getD i (0, 0)).1
  pack 128 [(v 0, 16), (v 1, 16), (v 2, 16), (v 3, 16), (q 0, 8), (q 1, 8), (q 2, 8), (q 3, 8), (2 ^ es.length - 1, 4), (0, 28)]

/-- What one panel makes of itself. -/
structure PanelOut where
  panel : Nat
  header : Header
  /-- coded blocks by block index -/
  blocks : List (Nat × Coded)
  /-- outlier records by run index -/
  outl : List (Nat × BitVec 128)
  stats : ProdStats
  /-- some finite rotated magnitude exceeds the given amax (06 R142) -/
  exceeds : Bool

/-- Positions (o, r) of block b in walk order. -/
def blockPositions (g : SetShape) (b : Nat) : List (Nat × Nat) :=
  let o := g.outOf b
  let r := g.redOf b
  if g.b16 then (List.range 16).flatMap fun i => (List.range 16).map fun j => (o + j, r + i)
  else (List.range 16).map fun i => (o, r + i)

/-- Runs the steps of 03 R54 for one panel. `y` gives the rotated value at (o, r). -/
def panelProduction (p : Prod) (y : Nat → Nat → BitVec 32) (panel lo hi : Nat) : PanelOut :=
  let g := p.g
  let os := (List.range (hi - lo)).map (lo + ·)
  let rs := List.range g.red
  let runs := if p.outliers then os.flatMap fun o => (List.range g.runsPerRow).map fun k => (o, k) else []
  let picked := runs.map fun (o, k) =>
    let run := ((rs.drop (256 * k)).take 256).map (y o)
    let (sel, excess) := candidates p.ratio run
    ((o, k), sel.map (256 * k + ·), excess)
  let selected := picked.flatMap fun e => e.2.1.map fun r => (e.1.1, r)
  let excess := (picked.map (·.2.2)).foldl (· + ·) 0
  let rest := os.flatMap fun o => (rs.filter fun r => !selected.contains (o, r)).map (y o)
  let own := amaxOf rest
  let am := p.amax.getD own
  let cs1 := coarse (valF am) (qmaxOf p.code)
  let back := selected.filter fun e => ratioGt (y e.1 e.2) cs1 65536
  let cs := if back.isEmpty then cs1
    else coarse (valF (amaxOf (am :: back.map fun e => y e.1 e.2))) (qmaxOf p.code)
  let outs := selected.filter fun e => !back.contains e && !ratioLt1 (y e.1 e.2) cs
  let outl := picked.map fun (e, sel, _) =>
    (e.1 * g.runsPerRow + e.2,
     outlierRecord (((sel.filter fun r => outs.contains (e.1, r)).mergeSort (· ≤ ·)).map fun r => (r % 256, outlierValue (y e.1 r) cs)))
  let ids := ((os.flatMap fun o => (rs.filter (· % 16 = 0)).map fun r => g.block o r)).eraseDups
  let coded := ids.map fun b =>
    let vals := (blockPositions g b).map fun (o, r) => let isOut := outs.contains (o, r); ((if isOut then 0 else y o r), isOut)
    let made := codeBlock p.code p.form (vals.map (·.1)) cs
    (b, vals, if p.nanBlocks && !(vals.map (·.1)).all isFiniteF
      then { head := 0xFF, codes := made.codes.map fun l => l.map fun _ => 0, zp := 0, clamps := 0 } else made)
  let live := coded.filter fun e => e.2.2.head ≠ 0xFF
  let wide := live.filter fun e => e.2.2.head ≠ 0
  let nonfinite := os.any fun o => rs.any fun r => !isFiniteF (y o r)
  let zeroes := live.countP fun e => e.2.2.head = 0
  let clamps := (coded.map fun e => e.2.2.clamps).foldl (· + ·) 0
  let coarseN := fun n => wide.countP fun e => coarseAt p.code e.2.2 cs p.errShift n e.2.1
  { panel := panel
    header :=
      { cs32 := cs, code := p.code, form := p.form, block := g.b16, nonfinite := nonfinite, outliers := p.outliers
        colsum := p.colsum, rotR := p.rotR, rotO := p.rotO, shift := p.shift, seedR := p.seedR.toNat, seedO := p.seedO.toNat
        baseR := p.baseR, baseO := p.baseO, zeroBlocks := zeroes, overflow := excess + back.length, zpClamp := clamps }
    blocks := coded.map fun e => (e.1, e.2.2)
    outl := outl
    stats :=
      { blocks := live.length, zeroBlocks := min zeroes 0xFFFFFF, coarse1 := coarseN 1, coarse2 := if p.form = 0 then 0 else coarseN 2
        runs := runs.length, overflow := min (excess + back.length) 0xFFFFFF
        elementsU := if p.code = 2 then (hi - lo) * g.red else 0, zpClamp := min clamps 0xFFFF, nonfinite := nonfinite, outliers := outs.length }
    exceeds := magGt own am }

/-- Panels that the covered output positions make up. -/
def coveredPanels (p : Prod) : List (Nat × Nat × Nat) :=
  let len := if p.shift = 0 then p.g.out else 2 ^ p.shift
  ((List.range (panelCount p.shift p.g.out)).map fun k => (k, k * len, min ((k + 1) * len) p.g.out)).filter fun e =>
    p.outs.1 ≤ e.2.1 && e.2.2 ≤ p.outs.2

/-- Column sum of column n of a block, from its codes in walk order (03 R58). -/
def columnSum (codes : List Nat) (n : Nat) : Int :=
  ((List.range 16).map fun i => n4iVal (codes.getD (16 * i + n) 0)).foldl (· + ·) 0

/-- Sets array entries from a list. -/
def fillArray {α : Type} (z : α) (n : Nat) (es : List (Nat × α)) : Array α :=
  es.foldl (fun a e => a.setIfInBounds e.1 e.2) (Array.replicate n z)

/-- The planes of a production from its panels. `zps` are the zero points that stay where it does not write. -/
def assemble (p : Prod) (panels : List PanelOut) (oldZps : Nat → Nat) (poison : List Nat) : SetOut :=
  let g := p.g
  let blocks := panels.flatMap (·.blocks)
  let np := formPieces p.form
  { g := g, form := p.form, code := p.code, shift := p.shift, outliers := p.outliers, colsum := p.colsum
    outs := p.outs, reds := (0, g.red)
    codes := (List.range np).map fun k => fillArray 0 (g.red * g.out) (blocks.flatMap fun (b, c) =>
      (List.zip (blockPositions g b) (c.codes.getD k [])).map fun (e, x) => (g.elem e.1 e.2, x))
    scales := (List.range np).map fun k => fillArray 0 g.blocks (blocks.map fun (b, c) => (b, c.scale k))
    zps := if p.code = 2 then blocks.foldl (fun a e => a.setIfInBounds e.1 e.2.zp) ((List.range g.blocks).map oldZps).toArray else #[]
    outl := fillArray 0 (g.out * g.runsPerRow) (panels.flatMap (·.outl))
    sums := if p.colsum then (List.range np).map fun k => fillArray 0 (16 * g.blocks) (blocks.flatMap fun (b, c) =>
      (List.range 16).map fun n => (16 * b + n, columnSum (c.codes.getD k []) n)) else []
    headers := panels.map fun q => (q.panel, q.header.word)
    poison := poison }

/-! ### Handing the counts to the controller (07 R158) -/

def satW (w a b : Nat) : Nat := satAdd w a b

/-- Widths of the fields of a statistics record, in order (07 Table 7.2). -/
def statWidths : List Nat := [48, 48, 48, 48, 48, 48, 48, 48, 32, 32]

def ProdStats.fields (x : ProdStats) : List Nat :=
  [x.blocks, x.zeroBlocks, x.coarse1, x.coarse2, x.runs, x.overflow, x.elementsU, x.zpClamp, 1, b2n x.nonfinite]

def ProdStats.add (a b : ProdStats) : ProdStats :=
  { blocks := a.blocks + b.blocks, zeroBlocks := a.zeroBlocks + b.zeroBlocks, coarse1 := a.coarse1 + b.coarse1
    coarse2 := a.coarse2 + b.coarse2, runs := a.runs + b.runs, overflow := a.overflow + b.overflow
    elementsU := a.elementsU + b.elementsU, zpClamp := a.zpClamp + b.zpClamp, nonfinite := a.nonfinite || b.nonfinite
    outliers := a.outliers + b.outliers }

def ProdStats.zero : ProdStats :=
  { blocks := 0, zeroBlocks := 0, coarse1 := 0, coarse2 := 0, runs := 0, overflow := 0, elementsU := 0, zpClamp := 0
    nonfinite := false, outliers := 0 }

def zeroStat : List Nat := [0, 0, 0, 0, 0, 0, 0, 0, 0, 0]

/-- Sums two records field by field, saturating (07 R160). -/
def addStat (a b : List Nat) : List Nat :=
  (List.range 10).map fun i => satAdd (statWidths.getD i 48) (a.getD i 0) (b.getD i 0)

/-- Key of a slot's side in a die's statistics. -/
def statKey (c : Ctx) (slot side : Nat) : Nat := c.val * 512 + slot * 2 + side

def State.countProduction (s : State) (d : Die) (c : Ctx) (slot side : Nat) (x : ProdStats) : State :=
  s.updDie d fun y => { y with stats := SMap.put zeroStat y.stats (statKey c slot side)
                                 (addStat (SMap.get zeroStat y.stats (statKey c slot side)) x.fields) }

end Sys2Proof.Machine
end

