-- ==== Sys2Proof/Machine/Latch.lean ====
section
/-! DEFINITION. What a tally copies and when it is latched: counters, histograms, bandwidth instances (13 R324, R330, R331;
Tables 13.3, 13.6, 13.8). -/
namespace Sys2Proof.Machine

/-- BW_WINi as 32 bytes (13 Table 13.3). -/
def BwWin.image (b : BwWin) : Bytes :=
  leBytes 32 (packNat [(b.txLast.toNat, 32), (b.rxLast.toNat, 32), (b.txPeak.toNat, 32), (b.rxPeak.toNat, 32), (b.windows.toNat, 32),
    (b.shift.toNat, 5)])

/-- Bandwidth instances that a die has (13 R324): 0 its port where it is the lower-numbered owner, 1 its stack, 2 the edge
to its right, 3 the edge across on the upper die, 4 the host link on D0. -/
def hasBw (d : Die) (i : Fin 5) : Bool :=
  match i.val with
  | 0 => d.val % 10 % 2 = 1 && d.val % 10 < 9
  | 1 => true
  | 2 => d.val % 10 < 9
  | 3 => d.val < 10
  | _ => d.val = 0

/-- BW_WIN0 to BW_WIN4 of a die; an instance that it does not have reads 0 (13 R324). -/
def DieSt.bwImage (x : DieSt) (d : Die) : Bytes :=
  (List.finRange 5).flatMap fun i => if hasBw d i then x.bw[i].image else leBytes 32 0

/-- A histogram's 288-byte image (13 Table 13.6); `sel` fills bits [2239:2208] in a tally. -/
def Histogram.image (h : Histogram) (sel : Bool) : Bytes :=
  ((List.range 64).flatMap fun j => leBytes 4 (SMap.get 0 h.bins j).toNat) ++ leBytes 8 h.count.toNat ++ leBytes 8 h.sum.toNat ++
    leBytes 4 h.max.toNat ++ leBytes 4 (if sel then h.select.toNat else 0) ++ leBytes 8 0

/-- CNT_n as 16 bytes (13 Table 13.1). -/
def Counter.image (k : Counter) : Bytes := leBytes 8 k.select.toNat ++ leBytes 8 k.value.toNat

/-- Event whose aggregate lies at position i: 32 × e[11:8] + e[7:0] (13 Table 13.8). -/
def eventAt (i : Nat) : Nat := (i / 32) * 256 + i % 32

/-- AGGREGATE of a tally: 352 positions. -/
def DieSt.aggregateImage (x : DieSt) : Bytes :=
  (List.range 352).flatMap fun i => leBytes 8 (SMap.get 0 x.aggregate (eventAt i)).toNat

/-- Bytes 0 to 63 of a tally body; the clocks' counts are free values (log 7). -/
def tallyHead (trigger missed n : Nat) : Bytes :=
  leBytes 64 (packNat [(trigger, 8), (0, 8), (missed, 16), (0, 32), ((Config.cycle n).toNat, 64), ((Config.cycle (n + 1)).toNat, 64),
    ((Config.cycle (n + 2)).toNat, 64), ((Config.cycle (n + 3)).toNat, 64)])

/-- The tally record body (13 Table 13.8). -/
def DieSt.tallyBody (x : DieSt) (d : Die) (trigger missed n : Nat) : Bytes :=
  tallyHead trigger missed n ++ x.aggregateImage ++ x.counters.toList.flatMap Counter.image ++
    x.hists.toList.flatMap (fun h => h.image true) ++ x.bwImage d

/-- Latches a die's tally, or counts a missed one when both buffers are full (13 R331). Peaks and window counts start
again (13 Table 13.3). -/
def State.latchTally (s : State) (d : Die) (trigger : Nat) (step : Option Nat) : State :=
  let x := s.die d
  if 2 ≤ x.tallies.length then
    (s.updDie d fun x => { x with tallyMissed := satAdd 16 x.tallyMissed 1 }).count d 0xA03 0 none
  else
    let n := s.freeCtr
    let t : Tally := { trigger := trigger, missed := x.tallyMissed, step := step.getD 0, ctx := (s.ledger.tallyCtx).getD 0xFF
                       body := x.tallyBody d trigger x.tallyMissed n }
    let s := { s with freeCtr := n + 4 }
    s.updDie d fun x => { x with
      tallies := x.tallies ++ [t], tallyMissed := 0, lastTally := some s.now
      bw := x.bw.map fun b => { b with txPeak := 0, rxPeak := 0, windows := 0 } }

/-- The tally of a die at an MK of the tally context: not within TALLY_MIN_US of the die's previous one (13 R330). -/
def State.latchAtMk (s : State) (c : Ctx) (d : Die) (step : Nat) : State :=
  if s.ledger.tallyCtx ≠ some c.val || !s.dieInService d then s
  else match (s.die d).lastTally with
    | some t => if s.now < t + s.ledger.tallyMinUs then s else s.latchTally d 1 (some step)
    | none => s.latchTally d 1 (some step)

end Sys2Proof.Machine
end

