-- ==== Sys2Proof/Machine/Seq.lean ====
section
/-! DEFINITION. The die sequencer: issue, completion, sampling, and the SY, CF and MK instructions (01 R11 to R21,
R421; 13 R327 to R329). -/
namespace Sys2Proof.Machine

abbrev Out := Host.Outcome State Fault Refusal

/-! ### Rings with a 64-byte header (13 R329, 15 R380) -/

/-- A write to a ring: in a stack it is charged to the context's stall (13 R329). -/
def State.ringWrite (s : State) (p : Place) (bs : Bytes) (c : Option Nat) : State :=
  let s := s.write p bs false
  match p, c with
  | .st d o, some c => (s.countWrites (dieOf d) o bs.length (some c)).askUnits (dieOf d) o bs.length c
  | _, _ => s

/-- Writes a record into the next slot of a ring of the context `c`, or of the host; a full ring drops it. Answers the ring and
whether the record was kept. -/
def State.ringPush (s : State) (r : Ring) (place : Nat → Option Place) (slotBytes : Nat) (rec_ : Bytes) (c : Option Nat) :
    Ring × Bool × State :=
  match place r.address with
  | none => (r, false, s)
  | some h =>
    let readIndex := leNat (s.read (h.plus 4) 4)
    if (r.writeIndex.toNat + 2 ^ 32 - readIndex) % 2 ^ 32 = 2 ^ r.sizeLog then
      let r := { r with dropped := BitVec.ofNat 32 (satAdd 32 r.dropped.toNat 1) }
      (r, false, s.ringWrite (h.plus 8) (leBytes 4 r.dropped.toNat) c)
    else
      let off := 64 + slotBytes * (r.writeIndex.toNat % 2 ^ r.sizeLog)
      let s := match place (r.address + off) with
        | some p => s.ringWrite p (padTo slotBytes rec_) c
        | none => s
      let r := { r with writeIndex := r.writeIndex + 1 }
      (r, true, s.ringWrite h (leBytes 4 r.writeIndex.toNat) c)

/-- The same for a ring in host memory: nothing is kept while the host link is down (log 10). -/
def State.hostRingPush (s : State) (r : Ring) (slotBytes : Nat) (rec_ : Bytes) : Ring × Bool × State :=
  if s.host.link.isNone then ({ r with dropped := BitVec.ofNat 32 (satAdd 32 r.dropped.toNat 1) }, false, s)
  else s.ringPush r (fun a => some (.host a)) slotBytes rec_ none

/-! ### Sampling (13 R327, R328) -/

def engineClock (cls : Nat) : Nat :=
  match cls with
  | 1 | 2 => 0
  | 3 => 1
  | 4 | 5 => 2
  | 6 => 3
  | _ => 4

/-- The sample record of a completed instruction (13 Table 13.7); cycle counts are free values (log 7). -/
def sampleRecord (d : Die) (c : Ctx) (fl : InFlight) (step seq n : Nat) : Bytes :=
  leBytes 64 (packNat [(fl.cls, 4), (fl.op, 8), (c, 3), (d, 5), (fl.instance_, 4), (0, 8), (fl.addr, 32), (step, 64),
    (seq, 32), ((Config.cycle n).toNat, 64), ((Config.stamp n).toNat, 32), ((Config.stamp (n + 1)).toNat, 32),
    ((Config.stamp (n + 2)).toNat, 32), ((Config.stamp (n + 3)).toNat, 32), (engineClock fl.cls, 3), (b2n fl.fault, 1),
    (b2n fl.poison, 1), (b2n fl.nonfinite, 1), ((Config.stamp (n + 4)).toNat % 2, 1), (0, 25),
    (fl.stackBytes, 64), ((Config.stamp (n + 5)).toNat, 32), (0, 32)])

def State.writeSample (s : State) (d : Die) (c : Ctx) (fl : InFlight) : State :=
  match s.ctx c with
  | none => s
  | some x =>
    let n := s.freeCtr
    let seq := (s.die d).recordSeq.toNat
    let s := { s with freeCtr := s.freeCtr + 6 }
    let s := s.updDie d fun y => { y with recordSeq := y.recordSeq + 1 }
    match x.sampleRing with
    | none => s.count d 0xA02 0 (some c.val)
    | some r =>
      let (r, kept, s) := s.ringPush r (deviceAddr d) 64 (sampleRecord d c fl x.stepNow seq n) (some c.val)
      let s := s.updCtx c fun x => { x with sampleRing := some r }
      if kept then s else s.count d 0xA02 0 (some c.val)

/-! ### Completion (01 R14) -/

/-- What completion does: SIG_EN adds 1, and a tagged instruction writes its sample record. -/
def State.complete (s : State) (d : Die) (c : Ctx) (fl : InFlight) : State :=
  let s := if fl.sigEn then s.semAdd d c fl.sigSem 1 else s
  let s := if fl.cls = 6 then s.count d 0x801 fl.op (some c.val) else s
  let s := s.measure d 5 fl.cls (some c.val) fl.born
  let s := if (fl.cls = 6 && fl.op = 11) || (fl.cls = 4 && fl.op = 3) then s.measure d 6 0 (some c.val) fl.born else s
  let s := if fl.cls = 6 then s.measure d 7 fl.op (some c.val) fl.born else s
  if fl.tagged then s.writeSample d c fl else s

/-- A completed record's turn: nothing of it is outstanding, and no earlier record waits in the same queue of the same
engine (01 R12). -/
def InFlight.ready (fl : InFlight) (earlier : List InFlight) : Bool :=
  !fl.moveWait && !fl.paired && fl.tiles = 0 && !fl.collWait && !fl.verdictWait &&
    earlier.all fun e => !(e.cls = fl.cls && e.instance_ = fl.instance_)

/-- The product of the requantising pair whose SH.QUANT is `q` (04 R90). -/
def InFlight.pairOf (e q : InFlight) : Bool := e.paired && e.num + 1 = q.num

/-- INSTRUCTION_COMPLETE: the index-th instruction in flight of the stream completes. -/
def execInstructionComplete (d : Die) (c : Ctx) (index : Nat) (s : State) : Out :=
  match s.stream d c with
  | none => .next s
  | some t =>
    match t.inflight[index]? with
    | none => .next s
    | some fl =>
      if fl.ready (t.inflight.take index) then
        let s := s.updStream d c fun t => { t with inflight := (t.inflight.eraseIdx index).filter fun e => !e.pairOf fl }
        -- the product of a requantising pair completes with its SH.QUANT (04 R90)
        .next (((t.inflight.filter (·.pairOf fl)).foldl (fun st e => st.complete d c e) s).complete d c fl)
      else .next s

/-! ### Issue (01 R12, R13, R16) -/

/-- The header of a word is one the class and operation of the row have, with no reserved bit and its semaphores inside
the allocation: WAIT_SEM where WAIT_EN is 1, SIG_SEM where SIG_EN is 1 (log 123). -/
def headerOk (x : CtxSt) (w : IWord) (cls op : Nat) : Bool :=
  fld w 3 0 = cls && fld w 11 4 = op && fld w 15 14 = 0 && (!bit w 12 || fld w 23 16 < x.semCount) &&
    (!bit w 13 || fld w 31 24 < x.semCount)

/-- How an attempt to issue ends. -/
inductive Issue where
  /-- not issued: the stream cannot, or waits, or has faulted -/
  | stays (s : State)
  /-- issued: the state after issue and the instruction's address -/
  | go (s : State) (addr : Nat)

/-- Gap to the next tagged instruction: P/2 to 3P/2 (13 R327). -/
def sampleGap (period n : Nat) : Nat := period / 2 + Config.sampleDraw n % (period + 1)

/-- The invalid-instruction fault (01 R13). -/
def State.invalid (s : State) (d : Die) (c : Ctx) (addr : Nat) : State :=
  s.stopFault d c addr { cls := 4, reason := 1 }

def Hold.blocks : Hold → Bool
  | .mk | .verdict _ | .slot => true
  | _ => false

/-- The stream issues the word: the program counter moves on, the instruction is counted, its tag is drawn. -/
def State.issued (s : State) (d : Die) (c : Ctx) (cls : Nat) : State :=
  let s := s.updStream d c fun t =>
    { t with pc := t.pc + 1, issued := t.issued + 1, hold := none, single := false, pair := none, nextSample := t.nextSample - 1 }
  s.count d 0x001 cls (some c.val)

/-- Draws the gap anew after a tagged instruction. -/
def State.drawGap (s : State) (d : Die) (c : Ctx) : State :=
  match s.ctx c with
  | some x =>
    if x.samplePeriod ≠ 0 && (x.stream d).nextSample = 0 then
      let (n, s) := s.draw
      (s.updStream d c fun t => { t with nextSample := sampleGap x.samplePeriod n, tagged := true }).count d 0xA01 0 (some c.val)
    else s.updStream d c fun t => { t with tagged := false }
  | none => s

/-- The word that instruction memory holds for a stream at an index of its context's range; 0 beyond the range (01 R22). -/
def State.wordAt (s : State) (d : Die) (x : CtxSt) (pc : Nat) : IWord :=
  if pc < x.progCount then SMap.get 0 s.program (d.val * 8192 + x.progBase + pc) else 0

/-- The stream is held by something that blocks its issue. -/
def Stream.blocked (t : Stream) : Bool := match t.hold with | some h => h.blocks | none => false

/-- A wait that is over is measured (13 Table 13.5). -/
def State.afterHold (s : State) (d : Die) (c : Ctx) (t : Stream) : State :=
  match t.hold with
  | some (.header _ _) | some (.wait _ _) => s.measure d 4 0 (some c.val) t.heldSince
  | _ => s

/-- A header's wait that is over while its SY.WAIT still holds is measured. -/
def State.afterHeader (s : State) (d : Die) (c : Ctx) : State :=
  match s.stream d c with
  | some t => (match t.hold with | some (.header _ _) => s.afterHold d c t | _ => s)
  | none => s

/-- A wait holds the stream; sent again, it has begun when it did (13 Table 13.5). -/
def Stream.holdBy (t : Stream) (h : Hold) (n : Nat) : Stream :=
  { t with hold := some h, heldSince := if t.hold = some h then t.heldSince else n }

/-- The operations that each class defines (01 R13, Table 1.6): MM, SH, VX, UP, MV, CL, SY, MK, CF. -/
def definedOp (cls op : Nat) : Bool :=
  match cls with
  | 1 => 1 ≤ op && op ≤ 4
  | 2 => 1 ≤ op && op ≤ 3
  | 3 => (0x01 ≤ op && op ≤ 0x09) || (0x10 ≤ op && op ≤ 0x14) || op = 0x18 || (0x20 ≤ op && op ≤ 0x26) || (0x30 ≤ op && op ≤ 0x33)
  | 4 => 1 ≤ op && op ≤ 3
  | 5 => 1 ≤ op && op ≤ 8
  | 6 => 1 ≤ op && op ≤ 11
  | 7 => 1 ≤ op && op ≤ 5
  | 8 => op = 0
  | 9 => op ≤ 3
  | _ => false

/-- The word is of another row: its class and operation are defined, and are not this row's. -/
def otherRow (w : IWord) (cls op : Nat) : Bool :=
  definedOp (fld w 3 0) (fld w 11 4) && !(fld w 3 0 = cls && fld w 11 4 = op)

/-- One attempt of a stream to issue a word of class `cls` and operation `op`; `ok` says what else the word must be. The
command names the word that is next in the stream; with another one, or one of another row, nothing happens (log 11). A word
whose class or operation is undefined is every row's, and is invalid (01 R13). -/
def State.tryIssue (s : State) (d : Die) (c : Ctx) (w : IWord) (cls op : Nat) (ok : CtxSt → Stream → Bool) : Issue :=
  match s.ctx c with
  | none => .stays s
  | some x =>
    let t := x.stream d
    if !t.launched || t.halted || s.wordAt d x t.pc ≠ w || otherRow w cls op then .stays s
    else if Stream.blocked t then .stays s
    else if !t.single && (s.die d).tapSide.breaks.any (fun b => b.2.1 = c.val && b.2.2 = t.pc) then
      .stays (s.updStream d c fun t => { t with halted := true })
    else if !(headerOk x w cls op && (t.pair.isNone || (cls = 2 && op = 1)) && ok x t) then
      .stays (s.invalid d c t.pc)
    else if bit w 12 && !satisfies (s.sem d c (fld w 23 16)) (BitVec.ofNat 32 (fld w 63 32)) then
      .stays (s.updStream d c fun t => t.holdBy (.header (fld w 23 16) (BitVec.ofNat 32 (fld w 63 32))) s.freeCtr)
    else .go (((s.afterHold d c t).issued d c cls).drawGap d c) t.pc

/-- The record of an issued word in flight. -/
def inFlightOf (s : State) (d : Die) (c : Ctx) (w : IWord) (addr inst : Nat) : InFlight :=
  let t := (s.stream d c).getD Stream.reset
  { num := t.issued, cls := fld w 3 0, op := fld w 11 4, addr := addr, sigEn := bit w 13, sigSem := fld w 31 24
    moveWait := false, paired := false, tiles := 0, collWait := false, verdictWait := false, instance_ := inst, fault := false
    poison := false, nonfinite := false, tagged := t.tagged, stackBytes := 0, born := s.freeCtr, badLine := none }

/-- An instruction that the sequencer completes as it issues it. -/
def State.sequencerDone (s : State) (d : Die) (c : Ctx) (w : IWord) (addr : Nat) : State :=
  s.complete d c (inFlightOf s d c w addr 0)

/-! ### Engines -/

/-- Closes an engine instruction: flags reach the verdict, `place` puts the record in flight, and a memory-class fault
kills the context (06 R148, 12 R296, R299). `was`: its non-finite flag was set and counted before (13 R321). -/
def Run.close (r : Run) (was : Bool) (place : List InFlight → List InFlight) : State :=
  let s := if r.tainted then r.s.orVerdict r.c vTainted else r.s
  let s := if r.fl.nonfinite then s.orVerdict r.c vNonfinite else s
  let s := if r.fl.nonfinite && !was then s.count r.d 0x005 r.fl.cls (some r.c.val) else s
  let s := s.updStream r.d r.c fun t => { t with inflight := place t.inflight }
  if r.kill then s.faultStop r.c .memory else s

/-- The record of an instruction goes in flight last. -/
def Run.finish (r : Run) : State := r.close false (· ++ [r.fl])

/-- A mismatch of a duplicated unit's compare that the retry clears (12 R293): n mismatches in succession. -/
def State.compareRetry (s : State) (d : Die) (unit n : Nat) : State :=
  if n ≠ 1 then s
  else (s.updDie d fun y => { y with compareRetries := BitVec.ofNat 32 (satAdd 32 y.compareRetries.toNat 1) }).count d 0x901 unit none

/-- Captures a residue mismatch of the vector engine: header, instruction word, the failing line of each source operand,
and both results, which are free values (12 R304, Table 12.4; logs 7, 40). -/
def captureVector (w : IWord) (line : Nat) : Exec Unit := do
  let r ← get
  let y ← getCtx
  let s := r.s
  let n := s.freeCtr
  let lines := [fld w 75 64, fld w 87 76, fld w 99 88].flatMap fun idx =>
    match (resolve idx { sealing := 0, far := true, host := true }).run r with
    | .ok (t, _) => t.readBytes s (t.base + line / 256 * 256) 256
    | .error _ => []
  let results := (List.range 512).map fun i => Config.randomByte (n + 1 + i)
  let hdr := leBytes 256 (packNat [(2, 8), (r.d, 5), (0, 19), (r.addr, 32), (y.stepNow, 64), (0, 64), (0, 16), (0, 208),
    (s.numericsRev.toNat, 8), (0, 24), ((Config.cycle n).toNat, 64), ((s.die r.d).recordSeq.toNat, 32)])
  modS fun s => ({ s with freeCtr := n + 513 }).takeCapture r.d
    { kind := 2, bytes := hdr ++ leBytes 32 w.toNat ++ lines ++ results, tileCount := 0, exported := false, order := 0 }

/-- The vector engine's lanes carry residues, and a mismatch poisons at once; every other unit, and the vector engine's own
Repeatable generator, is duplicated and retries (12 Table 12.1, R293). -/
def residueChecked (unit : Nat) (x : Phys) : Bool := unit = 4 && !x.generator

/-- What mismatched for good: the line of one output by the unit's own check; every output where the sequencer's two copies
of the issued word disagreed twice (12 R293, R296; log 128). -/
def physHit (x : Phys) (unit : Nat) : Option (Option Nat × Nat) :=
  if 2 ≤ x.issue then some (none, 0)
  else if (if residueChecked unit x then 1 else 2) ≤ x.mismatch then some (some x.output, x.line)
  else none

/-- What the physical world does to an instruction's reads and to the compares that a retry clears. -/
def State.meetPhys (s : State) (d : Die) (unit : Nat) (x : Phys) : State :=
  let s := (s.applyPhys x).compareRetry d 8 x.issue
  if residueChecked unit x then s else s.compareRetry d unit x.mismatch

/-- An engine instruction that issued: what the physical world does to its word, its reads and its results, its body, its
end. An uncorrectable error in state of its own context kills that context, one in state that all contexts share is a device
fault, and the instruction does not run (12 R300, R301; log 59). -/
def State.runEngine (s : State) (d : Die) (c : Ctx) (w : IWord) (addr unit inst : Nat) (x : Phys) (body : Exec Unit) : State :=
  if x.shared then s.deviceFaultNow d { cls := 3, reason := 17, unit := 8 }
  else if x.own then s.kill d c addr { cls := 2, reason := 17, unit := 8, valueB := addr }
  else
    let s := s.meetPhys d unit x
    let whole : Exec Unit := do
      body
      if 2 ≤ x.issue then raiseCompute { cls := 1, reason := 9, unit := 8, valueB := 0 }
      else if (physHit x unit).isSome then
        if residueChecked unit x then captureVector w x.line
        raiseCompute { cls := 1, reason := if residueChecked unit x then 10 else 9, unit := unit, inst := inst, valueB := x.line }
    match whole.run (Run.start s d c addr unit (physHit x unit) (inFlightOf s d c w addr inst)) with
    | .error t => s.stopFault d c addr t.info t.cause
    | .ok (_, r) => r.finish

/-- The instruction asks a stack that takes no request of its context now (08 R177, R184, R185): it does not run yet, and is
sent again (log 11). -/
def State.holdsBack (s : State) (d : Die) (c : Ctx) (w : IWord) (addr unit inst : Nat) (body : Exec Unit) : Bool :=
  !s.stacksReady c && (match body.run (Run.start s d c addr unit none (inFlightOf s d c w addr inst)) with
    | .ok (_, r) => r.blocked
    | .error _ => false)

/-- An engine row: issue, then run. -/
def engine (d : Die) (c : Ctx) (w : IWord) (cls op unit inst : Nat) (x : Phys) (ok : CtxSt → Stream → Bool)
    (body : Exec Unit) (s : State) : Out :=
  match s.tryIssue d c w cls op ok with
  | .stays s => .next s
  | .go t addr => .next (if t.holdsBack d c w addr unit inst body then s else t.runEngine d c w addr unit inst x body)

/-- A sequencer row: issue, then the effect at once. -/
def sequencer (d : Die) (c : Ctx) (w : IWord) (cls op : Nat) (ok : CtxSt → Stream → Bool) (effect : State → State)
    (s : State) : Out :=
  match s.tryIssue d c w cls op ok with
  | .stays s => .next s
  | .go s addr => .next ((effect s).sequencerDone d c w addr)

/-! ### SY (01 Tables 1.7, 1.8) -/

/-- Reserved bits of an SY body, and COND 0b11 (01 R13). -/
def syBody (w : IWord) : Bool := fld w 111 106 = 0 && fld w 255 136 = 0 && fld w 105 104 ≠ 3

def sySem (w : IWord) : Nat := fld w 71 64
def syVal (w : IWord) : BitVec 32 := BitVec.ofNat 32 (fld w 103 72)

def syOk (w : IWord) (x : CtxSt) (_ : Stream) : Bool := syBody w && sySem w < x.semCount

/-- SY.WAIT holds the stream until SEM satisfies VALUE. A held wait is sent again (log 11). -/
def execSyWait (d : Die) (c : Ctx) (w : IWord) (s : State) : Out :=
  match s.tryIssue d c w 7 1 (syOk w) with
  | .stays s => .next s
  | .go t addr =>
    if satisfies (t.sem d c (sySem w)) (syVal w) then .next (t.sequencerDone d c w addr)
    else .next ((s.afterHeader d c).updStream d c fun t => t.holdBy (.wait (sySem w) (syVal w)) s.freeCtr)

/-- SY.SIGNAL adds VALUE to SEM. -/
def execSySignal (d : Die) (c : Ctx) (w : IWord) (s : State) : Out :=
  sequencer d c w 7 2 (syOk w) (fun s => s.semAdd d c (sySem w) (syVal w)) s

/-- SY.SET writes VALUE to SEM. -/
def execSySet (d : Die) (c : Ctx) (w : IWord) (s : State) : Out :=
  sequencer d c w 7 3 (syOk w) (fun s => s.semSet d c (sySem w) (syVal w)) s

/-- SY.FENCE holds the stream until every earlier instruction of the stream on this die has completed. -/
def execSyFence (d : Die) (c : Ctx) (w : IWord) (s : State) : Out :=
  match s.tryIssue d c w 7 4 (fun _ _ => syBody w && sySem w = 0 && syVal w = 0) with
  | .stays s => .next s
  | .go t addr =>
    if ((t.stream d c).getD Stream.reset).inflight.isEmpty then .next (t.sequencerDone d c w addr)
    else .next (s.updStream d c fun t => { t with hold := some .fence })

def jumpTarget (w : IWord) (pc : Nat) : Int := (pc : Int) + sfld w 135 112

/-- Length of the context's loaded program on a die. -/
def CtxSt.loaded (x : CtxSt) (d : Die) : Nat := SMap.get 0 x.progLen d

/-- Does the jump transfer? -/
def jumpTaken (w : IWord) (sat : Bool) : Bool :=
  match fld w 105 104 with
  | 0 => sat
  | 1 => !sat
  | _ => true

/-- SY.JUMP transfers issue as COND directs; a jump that is taken to outside the loaded program faults (01 R13), one that is
not taken does not (log 123). The semaphore is looked at when the jump issues, after its header's wait. -/
def execSyJump (d : Die) (c : Ctx) (w : IWord) (s : State) : Out :=
  match s.tryIssue d c w 7 5 (fun x t =>
      let sat := satisfies (SMap.get 0 s.sems (semKey d x.semBase (sySem w))) (syVal w)
      syBody w && sySem w < x.semCount &&
        (!jumpTaken w sat || (bit w 12 && !satisfies (s.sem d c (fld w 23 16)) (BitVec.ofNat 32 (fld w 63 32))) ||
          (0 ≤ jumpTarget w t.pc && jumpTarget w t.pc < x.loaded d)))
    with
  | .stays s => .next s
  | .go t addr =>
    let t' := if jumpTaken w (satisfies (t.sem d c (sySem w)) (syVal w))
      then t.updStream d c fun u => { u with pc := (jumpTarget w addr).toNat } else t
    .next (t'.sequencerDone d c w addr)

/-! ### CF (01 R21, Table 1.11) -/

/-- CF.SEED latches SEED for the lanes that GENSET selects. -/
def execCfSeed (d : Die) (c : Ctx) (w : IWord) (s : State) : Out :=
  sequencer d c w 9 1 (fun _ _ => fld w 129 128 ≠ 0 && fld w 255 130 = 0)
    (fun s => s.updStream d c fun t =>
      { t with seedVector := if bit w 128 then BitVec.ofNat 64 (fld w 127 64) else t.seedVector
               seedUpdate := if bit w 129 then BitVec.ofNat 64 (fld w 127 64) else t.seedUpdate }) s

/-- CF.ACCDEF sets the default accumulation mode and promotion interval. -/
def execCfAccdef (d : Die) (c : Ctx) (w : IWord) (s : State) : Out :=
  sequencer d c w 9 2 (fun _ _ => fld w 79 72 ≠ 0 && fld w 71 65 = 0 && fld w 255 80 = 0)
    (fun s => s.updStream d c fun t => { t with accMode := bit w 64, promoInterval := fld w 79 72 }) s

/-- CF.TIMEOUT sets the wait timeout; 0 restores 10 s. -/
def execCfTimeout (d : Die) (c : Ctx) (w : IWord) (s : State) : Out :=
  sequencer d c w 9 3 (fun _ _ => fld w 255 96 = 0)
    (fun s => s.updStream d c fun t => { t with timeoutUs := if fld w 95 64 = 0 then 10000000 else fld w 95 64 }) s

/-- CF.NOP has no effect. -/
def execCfNop (d : Die) (c : Ctx) (w : IWord) (s : State) : Out :=
  sequencer d c w 9 0 (fun _ _ => fld w 255 64 = 0) (fun s => s) s

/-! ### MK (01 R18 to R20, R421) -/

/-- A stream that reaches MK while it holds an accumulation (04 R94). -/
def DieSt.holdsAcc (x : DieSt) (c : Ctx) : Option Accum :=
  x.accs.find? fun a => a.ctx = c.val && (a.phase = .held || a.phase = .receipt)

def mkOk (w : IWord) (x : CtxSt) (_ : Stream) : Bool :=
  fld w 143 129 = 0 && fld w 255 168 = 0 && (bit w 128 == decide (fld w 159 144 ≠ 0)) && fld w 167 160 = x.stepGroup

/-- MK fences the stream, then holds it until the group reduction (01 R20); a die latches its tally at its own fence (13 R330). -/
def execMkStep (d : Die) (c : Ctx) (w : IWord) (s : State) : Out :=
  match s.tryIssue d c w 8 0 (mkOk w) with
  | .stays s => .next s
  | .go t addr =>
    if !((t.stream d c).getD Stream.reset).inflight.isEmpty then
      .next (s.updStream d c fun t => { t with hold := some .fence })
    else
      match (t.die d).holdsAcc c with
      | some a => .next (t.stopFault d c addr { cls := 4, reason := 8, sub := 2, unit := 0, inst := a.logical })
      | none =>
        .next ((t.latchAtMk c d (((t.ctx c).map (·.stepNow)).getD 0)).updStream d c fun u =>
          { u with hold := some .mk, fenced := true, mkStep := fld w 127 64, quietEn := bit w 128, quietUs := fld w 159 144
                   inflight := [inFlightOf t d c w addr 0] })

/-- Is the stream held in one of the ways of 01 R17, by what has not come yet? -/
def State.timesOut (s : State) (d : Die) (c : Ctx) (t : Stream) : Bool :=
  match t.hold with
  | some (.header k v) | some (.wait k v) => !satisfies (s.sem d c k) v
  | some .mk => (s.ctx c).all (·.mkTail.isNone)
  | some (.verdict _) | some .slot | some .receipt => true
  | _ => false

/-- Address of the instruction that a stream is held at: MK, UP.VERDICT and a CL instruction without a slot have issued. -/
def Stream.heldAt (t : Stream) : Nat :=
  match t.hold with
  | some .mk | some (.verdict _) | some .slot => t.pc - 1
  | _ => t.pc

/-- SYNC_TIMEOUT: the stream has been held for longer than its wait timeout; a debug halt suspends it (16 R404). -/
def execSyncTimeout (d : Die) (c : Ctx) (s : State) : Out :=
  match s.stream d c with
  | some t => if t.launched && s.timesOut d c t && !t.halted then .next ((s.stopFault d c t.heldAt { cls := 4, reason := 2 }).endBackoffs c) else .next s
  | none => .next s

end Sys2Proof.Machine
end

