-- ==== Sys2Proof/Machine/Shaper.lean ====
section
/-! DEFINITION. The operand shaper: SH.QUANT, SH.DEQUANT, SH.ROTATE (03 R51 to R75; 04 R90). -/
namespace Sys2Proof.Machine

/-! ### Body fields (03 Table 3.8) -/

def shSrc (w : IWord) : Nat := fld w 75 64
def shDst (w : IWord) : Nat := fld w 87 76
def shSlot (w : IWord) : Nat := fld w 95 88
def shOperand (w : IWord) : Bool := bit w 96
def shCode (w : IWord) : Nat := fld w 98 97
def shBlock (w : IWord) : Bool := bit w 99
def shAxis (w : IWord) : Bool := bit w 100
def shOutliers (w : IWord) : Bool := bit w 101
def shColsum (w : IWord) : Bool := bit w 102
def shInverse (w : IWord) : Bool := bit w 103
def shRotR (w : IWord) : Nat := fld w 106 104
def shRotO (w : IWord) : Nat := fld w 109 107
def shShift (w : IWord) : Nat := fld w 114 110
def shRatio (w : IWord) : Nat := fld w 127 120
def shSeedR (w : IWord) : BitVec 32 := BitVec.ofNat 32 (fld w 159 128)
def shSeedO (w : IWord) : BitVec 32 := BitVec.ofNat 32 (fld w 191 160)
def shBaseR (w : IWord) : Nat := fld w 223 192
def shBaseO (w : IWord) : Nat := fld w 255 224

/-! ### Slots (01 Table 1.12) -/

def CtxSt.slot (x : CtxSt) (k : Nat) : BitVec 32 := SMap.get 0 x.slots k
def slotFormS (v : BitVec 32) : Nat := fld v 1 0
def slotFormW (v : BitVec 32) : Nat := fld v 3 2
def slotFull (v : BitVec 32) : Bool := bit v 4

/-- The default fall-back policy record (07 R175, Table 7.3). -/
def defaultPolicy : Bytes :=
  leBytes 64 (packNat [(0, 1), (0, 1), (1, 1), (0, 13), (100, 16), (0, 32), (0, 32), (1311, 16), (328, 16), (655, 16), (164, 16),
    (3, 8), (5, 4), (0, 4), (1000, 16), (4096, 32)]) ++
    (List.replicate 256 (leBytes 16 (2 ^ 12))).flatten

/-- The policy in force; the default record where none was set (07 R175). -/
def CtxSt.policyNow (x : CtxSt) : Bytes := x.policy.getD defaultPolicy

/-- Bits [hi:lo] of the policy header (07 Table 7.3). -/
def polHdr (p : Bytes) (hi lo : Nat) : Nat := fld (wordOf 512 (p.take 64)) hi lo

/-- Slot s's entry (07 Table 7.4). -/
def polSlot (p : Bytes) (k : Nat) : BitVec 128 := wordOf 128 (slice p (64 + 16 * k) 16)

/-- ERR_SHIFT of the policy in force (07 Table 7.3). -/
def CtxSt.errShift (x : CtxSt) : Nat := polHdr x.policyNow 171 168

/-- Counts n occurrences of an event of the running instruction. -/
def countE (ev qual n : Nat) : Exec Unit := do
  let r ← get
  if n = 0 then pure () else modS fun s => s.count r.d ev qual (some r.c.val) n

/-! ### The words of the shaper (03 R57, R74, Table 3.8) -/

def quantForm (x : CtxSt) (w : IWord) : Nat :=
  if shOperand w then slotFormW (x.slot (shSlot w)) else slotFormS (x.slot (shSlot w))

def quantOk (x : CtxSt) (w : IWord) : Bool :=
  shCode w ≠ 3 && (quantForm x w = 0 || shCode w = 1) && (!shOperand w || shBlock w) &&
    (!shOutliers w || !shBlock w) && (!shColsum w || (shBlock w && shCode w = 1)) && !shInverse w &&
    shRotR w ≤ 5 && shRotO w ≤ 5 && (shBlock w || shRotO w = 0) && (shShift w = 0 || (4 ≤ shShift w && shShift w ≤ 24)) &&
    fld w 119 115 = 0 && (if shOutliers w then 2 ≤ shRatio w && shRatio w ≤ 64 else shRatio w = 0) &&
    (shCode w ≠ 2 || (shRotR w = 0 && shRotO w = 0 && !shOutliers w))

def dequantOk (w : IWord) : Bool :=
  shCode w ≤ 1 && fld w 96 88 = 0 && fld w 99 99 = 0 && fld w 255 101 = 0

def rotateOk (w : IWord) : Bool :=
  shCode w ≤ 1 && fld w 96 88 = 0 && fld w 99 99 = 0 && fld w 102 101 = 0 && shRotR w ≤ 5 && shRotO w ≤ 5 &&
    fld w 127 110 = 0

/-! ### Two-dimensional view of a wide tensor (03 R55) -/

/-- Reduction and output length of a wide tensor. -/
def axisLengths (q : Desc) (axis : Bool) : Nat × Nat :=
  if axis then (q.e1, q.e0) else (q.e0, q.e1 * q.e2 * q.e3)

def flatAxis (q : Desc) (axis : Bool) : Bool := !axis || (q.e2 ≤ 1 && q.e3 ≤ 1)

/-- Rows of the walk as rows of output positions, and back. -/
def byOutput {α : Type} (z : α) (axis : Bool) (rows : List (List α)) : List (List α) :=
  if axis then transposeL z rows else rows

/-- Both axes' poison: a run along the reduction axis, then one along the output axis. -/
def spreadGrid (br bo : Nat) (rows : List (List Bool)) : List (List Bool) :=
  let rows := rows.map (spreadRow br)
  if bo ≤ 1 then rows else transposeL false ((transposeL false rows).map (spreadRow bo))

/-! ### SH.QUANT -/

/-- The production that a QUANT word asks of a source. -/
def quantProd (x : CtxSt) (w : IWord) (red out : Nat) (outs : Nat × Nat) : Prod :=
  { g := { b16 := shBlock w, red := red, out := out }, form := quantForm x w, code := shCode w, outliers := shOutliers w
    ratio := shRatio w, colsum := shColsum w, rotR := shRotR w, rotO := shRotO w, seedR := shSeedR w, seedO := shSeedO w
    baseR := shBaseR w, baseO := shBaseO w, shift := shShift w, errShift := x.errShift, outs := outs, amax := none }

/-- The checks of 03 R55 on a production's axes. -/
def Prod.axesOk (p : Prod) : Bool :=
  p.g.red % 16 = 0 && p.g.out % 16 = 0 && p.g.red % rotSize p.rotR = 0 && p.g.out % rotSize p.rotO = 0 &&
    (p.shift = 0 || (2 ^ p.shift % 16 = 0 && 2 ^ p.shift % rotSize p.rotO = 0))

/-- Writes the panels that a production makes of rotated values, and hands over their counts. `rows` are the covered
output rows before rotation, from output position `outs.1` on. -/
def produce (p : Prod) (base slot side : Nat) (area : AreaSel) (rows : List (List PVal)) : Exec (List PanelOut) := do
  let planes ← openDest base (assemble p [] (fun _ => 0) []) area false
  let first := p.outs.1
  let grid := ((rotateGrid p first (rows.map fun r => r.map fun v => if v.2 then 0 else v.1)).map List.toArray).toArray
  let y := fun (o r : Nat) => (grid.getD (o - first) #[]).getD r (0 : BitVec 32)
  let panels := (coveredPanels p).map fun e => panelProduction p y e.1 e.2.1 e.2.2
  let poison := (coveredPanels p).filterMap fun e =>
    if ((rows.drop (e.2.1 - first)).take (e.2.2 - e.2.1)).any (fun r => r.any (·.2)) then some e.1 else none
  let s ← getS
  let oldZp := fun (b : Nat) => match planes.getD 8 none with
    | some t => t.nibble s b
    | none => 0
  writeSet base (assemble p panels oldZp poison) planes
  setNonfinite (panels.any (·.stats.nonfinite))
  let total := panels.foldl (fun a e => a.add e.stats) ProdStats.zero
  let r ← get
  modS fun s => s.countProduction r.d r.c slot side total
  countE 0x202 0 total.outliers
  countE 0x203 0 total.overflow
  pure panels

/-- The rows that the SH.QUANT of a requantising pair covers (04 R90). -/
def pairRows (mm w : IWord) : Option (Nat × Nat) :=
  if shAxis w then none else some (fld mm 163 144, fld mm 163 144 + fld mm 173 164)

/-- SH.QUANT's passes. With AXIS 1 the limit on EXT2 and EXT3 is asked of the source; the destination is a set, whose planes
are checked for size only (03 R55 speaks of `the destination descriptor`; DESIGN CHOICE, log 126). -/
def quantBody (w : IWord) (mm : Option IWord) : Exec Unit := do
  let x ← getCtx
  let src ← resolve (shSrc w) { fmts := wideFmts }
  let (red, out) := axisLengths src.q (shAxis w)
  shapeIf (flatAxis src.q (shAxis w)) (shSrc w)
  let outs := ((mm.bind fun m => pairRows m w)).getD (0, out)
  let p := quantProd x w red out outs
  shapeIf p.axesOk (shSrc w)
  let rows ← (if shAxis w then do pure (byOutput ((0 : BitVec 32), false) true (← readVals src))
    else (List.range (outs.2 - outs.1)).mapM fun i => do
      let row ← readRow src (outs.1 + i)
      pure ((elemsOf (fmtBits src.q.fmt) src.q.e0 row).map fun e => (wideToF32 src.q.fmt e.1, e.2)))
  let _ ← produce p (shDst w) (shSlot w) (b2n (shOperand w)) .active rows
  countE 0x201 0 ((outs.2 - outs.1) * red)

/-- What a requantising pair asks of its SH.QUANT (04 R90). -/
def pairOk (x : CtxSt) (mm w : IWord) : Bool :=
  let q := descOf (SMap.get 0 x.descs (shSrc w))
  let off := fld mm 163 144
  let n := fld mm 173 164
  let len := 2 ^ shShift w
  let (_, out) := axisLengths q (shAxis w)
  shSrc w = fld mm 99 88 && fld mm 239 220 = 0 && 16 * fld mm 255 240 = q.e0 &&
    (if shAxis w then off = 0 && n = q.e1
     else if shShift w = 0 then off = 0 && n = out
     else off % len = 0 && ((off + n) % len = 0 || off + n = out) && off + n ≤ out)

/-- Where the SH.QUANT of a pair faulted, its product does not complete either: the pair is one (04 R90). -/
def State.dropHalfPair (s : State) (d : Die) (c : Ctx) : State :=
  s.updStream d c fun u => { u with inflight := u.inflight.filter fun e => !e.paired || u.inflight.any fun q => e.pairOf q }

/-- SH.QUANT. As the second word of a requantising pair it waits for the last tile of the first (04 R90). -/
def execShQuant (d : Die) (c : Ctx) (w : IWord) (x : Phys) (s : State) : Out :=
  let mm := (s.stream d c).bind (·.pair)
  match s.tryIssue d c w 2 1 (fun y _ => quantOk y w && (match mm with | some m => pairOk y m w | none => true)) with
  | .stays s => .next s
  | .go t addr =>
    match mm with
    | none => .next (t.runEngine d c w addr 3 0 x (quantBody w none))
    | some m =>
      let left := ((s.stream d c).map fun u => (u.inflight.getLast?.map (·.tiles)).getD 0).getD 0
      if 1 < left then .next (s.updStream d c fun u => { u with hold := some .bank })
      else
        let t := t.updStream d c fun u => { u with inflight := u.inflight.dropLast ++ (u.inflight.getLast?.map fun f => { f with tiles := 0, paired := true }).toList }
        .next ((t.runEngine d c w addr 3 0 x (quantBody w (some m))).dropHalfPair d c)

/-! ### SH.DEQUANT -/

/-- Rounds an exact value once to FP32 or BF16 bits (02 R39). -/
def dyadWide (fmt : Nat) (v : Dyad) : Nat :=
  if fmt = 1 then
    if v.m = 0 then 0 else
      let (a, b) := ratOf v.m.natAbs v.e
      min (roundNearest bf16 a b) bf16.infw + (if v.m < 0 then 0x8000 else 0)
  else (dyadF32 false v).toNat

def nanBits (fmt : Nat) : Nat := if fmt = 1 then 0x7FC0 else 0x7FC00000

def wideFinite (fmt raw : Nat) : Bool := isFiniteF (wideToF32 fmt raw)

/-- Undoes a rotation over a grid of exact integers, the output axis and the reduction axis in either order, since both
are linear over the integers (03 R61). `lo` is the output position of the first row. -/
def undoGrid (h : BitVec 256) (lo : Nat) (rows : List (List Int)) : List (List Int) :=
  let br := rotSize (hRotR h)
  let bo := rotSize (hRotO h)
  let rows := if bo ≤ 1 then rows else transposeL 0 ((transposeL 0 rows).map (alongRow bo fun i r => undoRun bo (hSeedO h) (hBaseO h + lo + i) r))
  rows.map (alongRow br fun i r => undoRun br (hSeedR h) (hBaseR h + i) r)

/-- Element values of the set in its unrotated basis, as bits of a wide format with flags: not finite, poison. `lo` is
the panel's first output position. -/
def dequantPanel (v : SetIn) (s : State) (fmt lo hi : Nat) : List (List (Nat × Bool × Bool)) :=
  let h := v.hdrOf lo
  let os := (List.range (hi - lo)).map (lo + ·)
  let rs := List.range v.g.red
  let vals := os.map fun o => rs.map fun r => v.value s 3 o r
  let e := (vals.flatten.filterMap id).foldl (fun (m : Int) d => min m d.e) (-11)
  let ints := vals.map fun row => row.map fun x => match x with | some y => y.scaleTo e | none => 0
  let out := undoGrid h lo ints
  let br := rotSize (hRotR h)
  let bo := rotSize (hRotO h)
  let nans := spreadGrid br bo (vals.map fun row => row.map (·.isNone))
  let bad := spreadGrid br bo (os.map fun o => rs.map fun r => v.bad o r)
  let cs := valF (hCs32 h)
  let k : Int := Nat.log2 (br * bo)
  (List.zip out (List.zip nans bad)).map fun (row, nrow, brow) => (List.zip row (List.zip nrow brow)).map fun (x, n, b) =>
    (if n then nanBits fmt else dyadWide fmt { m := x * cs.m, e := e + cs.e - k }, n, b)

/-- Rotation sizes that do not divide their axes or their panels (03 R55). -/
def SetIn.rotationFits (v : SetIn) : Bool :=
  v.hdrs.all fun h => v.g.red % rotSize (hRotR h) = 0 && v.g.out % rotSize (hRotO h) = 0 &&
    (hShift h = 0 || (2 ^ hShift h % 16 = 0 && 2 ^ hShift h % rotSize (hRotO h) = 0))

/-- Output runs of the panels of an opened set. -/
def SetIn.panels (v : SetIn) : List (Nat × Nat) :=
  let sh := hShift v.hdr0
  (List.range (panelCount sh v.g.out)).map fun p =>
    if sh = 0 then (0, v.g.out) else (p * 2 ^ sh, min ((p + 1) * 2 ^ sh) v.g.out)

def dequantBody (w : IWord) : Exec Unit := do
  let v ← openSet (shSrc w) {}
  let dst ← resolve (shDst w) { fmts := [shCode w] }
  let (red, out) := axisLengths dst.q (shAxis w)
  shapeIf (flatAxis dst.q (shAxis w) && (v.hdrPoison || (red = v.g.red && out = v.g.out && out % 16 = 0))) (shDst w)
  let v ← if v.pairing.isSome || v.hdrPoison then pure v else do
    shapeIf v.rotationFits (shSrc w)
    readUnits v (0, v.g.out) (0, v.g.red)
  let fmt := shCode w
  let rows ← (if v.pairing.isSome || v.hdrPoison then do
      match v.pairing with
      | some p => raisePairing p
      | none => pure ()
      pure (List.replicate out (List.replicate red ((0, false, true) : Nat × Bool × Bool)))
    else do
      let s ← getS
      match v.pairing with
      | some p =>
        raisePairing p
        pure (List.replicate out (List.replicate red ((0, false, true) : Nat × Bool × Bool)))
      | none => pure (v.panels.flatMap fun e => dequantPanel v s fmt e.1 e.2))
  setNonfinite (rows.any fun r => r.any fun e => !e.2.2 && !wideFinite fmt e.1)
  writeElems dst ((byOutput ((0, false) : PElem) (shAxis w) (rows.map fun r => r.map fun e => (e.1, e.2.2))))

/-- SH.DEQUANT writes the element values of a shaped operand (03 R75). -/
def execShDequant (d : Die) (c : Ctx) (w : IWord) (x : Phys) (s : State) : Out :=
  engine d c w 2 2 3 0 x (fun _ _ => dequantOk w) (dequantBody w) s

/-! ### SH.ROTATE -/

/-- Rows are output positions. Forward: reduction axis, then output axis. Inverse: the reverse, then the exact division
by the product of the sizes (03 R75). -/
def rotateValues (w : IWord) (rows : List (List (BitVec 32))) : List (List (BitVec 32)) :=
  let br := rotSize (shRotR w)
  let bo := rotSize (shRotO w)
  if shInverse w then
    let rows := if bo ≤ 1 then rows else transposeL 0 ((transposeL 0 rows).map (alongRow bo fun i r => inverseRun bo (shSeedO w) (shBaseO w + i) r))
    let rows := rows.map (alongRow br fun i r => inverseRun br (shSeedR w) (shBaseR w + i) r)
    if br * bo = 1 then rows else rows.map fun r => r.map fun v => divCount v (br * bo)
  else
    let rows := rows.map (alongRow br fun i r => rotateRun br (shSeedR w) (shBaseR w + i) r)
    if bo ≤ 1 then rows else transposeL 0 ((transposeL 0 rows).map (alongRow bo fun i r => rotateRun bo (shSeedO w) (shBaseO w + i) r))

def rotateBody (w : IWord) : Exec Unit := do
  let src ← resolve (shSrc w) { fmts := wideFmts }
  let dst ← resolve (shDst w) { fmts := [shCode w] }
  let (red, out) := axisLengths src.q (shAxis w)
  let br := rotSize (shRotR w)
  let bo := rotSize (shRotO w)
  shapeIf (flatAxis src.q (shAxis w)) (shSrc w)
  shapeIf (flatAxis dst.q (shAxis w) && axisLengths dst.q (shAxis w) = (red, out)) (shDst w)
  shapeIf (red % 16 = 0 && out % 16 = 0 && red % br = 0 && out % bo = 0) (shSrc w)
  let elems ← readElems src
  let bad := (byOutput false (shAxis w) (elems.map fun r => r.map (·.2)))
  let bad := byOutput false (shAxis w) (spreadGrid br bo bad)
  setNonfinite (elems.any fun r => r.any fun e => !e.2 && !wideFinite src.q.fmt e.1)
  let raw ← (if br = 1 && bo = 1 && src.q.fmt = shCode w then pure (elems.map fun r => r.map (·.1))
    else do
      let vals := byOutput (0 : BitVec 32) (shAxis w) (elems.map fun r => r.map fun e => if e.2 then 0 else wideToF32 src.q.fmt e.1)
      pure ((byOutput (0 : BitVec 32) (shAxis w) (rotateValues w vals)).map fun r => r.map (f32ToWide (shCode w))))
  let outRows := (List.zip raw bad).map fun (r, b) => List.zip r b
  setNonfinite (outRows.any fun r => r.any fun e => !e.2 && !wideFinite (shCode w) e.1)
  writeElems dst outRows

/-- SH.ROTATE rotates a wide tensor or undoes a rotation (03 R75). -/
def execShRotate (d : Die) (c : Ctx) (w : IWord) (x : Phys) (s : State) : Out :=
  engine d c w 2 3 3 0 x (fun _ _ => rotateOk w) (rotateBody w) s

end Sys2Proof.Machine
end

