-- ==== Sys2Proof/Machine/Arrays.lean ====
section
/-! DEFINITION. The matrix arrays: MM.PRODUCT, the check of a tile and its drain or spill, MM.DRAIN, MM.SPILL,
MM.DISCARD (04 R77 to R100; 12 R304). -/
namespace Sys2Proof.Machine

/-! ### Body fields (04 Table 4.6) -/

def mmA (w : IWord) : Nat := fld w 75 64
def mmW (w : IWord) : Nat := fld w 87 76
def mmOut (w : IWord) : Nat := fld w 99 88
def mmSpillIdx (w : IWord) : Nat := fld w 111 100
def mmSlot (w : IWord) : Nat := fld w 119 112
def mmArray (w : IWord) : Nat := fld w 122 120
def mmTranspose (w : IWord) : Bool := bit w 123
def mmAcc (w : IWord) : Nat := fld w 125 124
def mmPromo (w : IWord) : Nat := fld w 133 126
def mmStart (w : IWord) : Nat := fld w 135 134
def mmEnd (w : IWord) : Nat := fld w 137 136
def mmOutFmt (w : IWord) : Nat := fld w 139 138
def mmBank (w : IWord) : Nat := fld w 141 140
def mmRowOff (w : IWord) : Nat := fld w 163 144
def mmRows (w : IWord) : Nat := fld w 173 164
def mmRedOff (w : IWord) : Nat := 16 * fld w 195 176
def mmRed (w : IWord) : Nat := fld w 219 196
def mmColOff (w : IWord) : Nat := fld w 239 220
def mmCols (w : IWord) : Nat := 16 * fld w 255 240

/-- OP of a word. -/
def opOf (w : IWord) : Nat := fld w 11 4

/-- How an accumulation ends under a word: 0 drain, 1 hold, 2 spill. -/
def endOf (w : IWord) : Nat := if opOf w = 1 then mmEnd w else if opOf w = 3 then 2 else 0

/-- Format of OUT (04 Table 4.6). -/
def mmOutCode (w : IWord) : Nat := if mmOutFmt w = 1 then 1 else 0

/-- What the words of the arrays must be (04 R90, R94, R100). -/
def rowsOk (w : IWord) : Bool := 1 ≤ mmRows w && mmRows w ≤ (if mmBank w = 2 then 512 else 256)

def productOk (w : IWord) : Bool :=
  mmArray w ≤ 5 && mmAcc w ≠ 3 && (mmPromo w = 0 || mmAcc w = 2) && mmStart w ≠ 3 && mmEnd w ≠ 3 && mmOutFmt w ≠ 3 &&
    fld w 143 142 = 0 && fld w 175 174 = 0 && rowsOk w && 16 ≤ mmRed w && mmRed w % 16 = 0 && mmColOff w % 16 = 0 &&
    16 ≤ mmCols w && ((mmStart w = 0 && mmEnd w = 0) || mmCols w ≤ 256) &&
    (mmBank w ≠ 3 || (mmStart w = 0 && mmEnd w = 0)) && (mmSpillIdx w = 0 || mmStart w = 2 || mmEnd w = 2) &&
    (mmOutFmt w ≠ 2 || (mmEnd w = 0 && mmStart w ≠ 2 && mmColOff w = 0))

/-- A requantising product covers every column of OUT (04 R90). -/
def requantOk (x : CtxSt) (w : IWord) : Bool :=
  mmOutFmt w ≠ 2 || mmCols w = (descOf (SMap.get 0 x.descs (mmOut w))).e0

def mmUnused (w : IWord) : Bool :=
  mmSlot w = 0 && mmAcc w = 0 && mmPromo w = 0 && mmStart w = 0 && mmEnd w = 0 && fld w 143 142 = 0 &&
    fld w 175 174 = 0 && fld w 219 176 = 0

def drainOk (w : IWord) : Bool :=
  mmUnused w && mmSpillIdx w = 0 && mmArray w ≤ 5 && mmOutFmt w ≤ 1 && mmBank w ≠ 3 && rowsOk w &&
    mmColOff w % 16 = 0 && 16 ≤ mmCols w && mmCols w ≤ 256

def spillOk (w : IWord) : Bool :=
  mmUnused w && fld w 99 64 = 0 && mmOutFmt w = 0 && mmRowOff w = 0 && mmArray w ≤ 5 && mmBank w ≠ 3 && rowsOk w &&
    mmColOff w % 16 = 0 && 16 ≤ mmCols w && mmCols w ≤ 256

def discardOk (w : IWord) : Bool :=
  mmUnused w && fld w 111 64 = 0 && mmOutFmt w = 0 && !mmTranspose w && mmRowOff w = 0 && mmRows w = 0 &&
    fld w 255 220 = 0 && mmArray w ≤ 5 && mmBank w ≠ 3

/-! ### Accumulations of a die (04 R94, R98) -/

/-- BANK fields that share a half; 3 takes both. -/
def bankMeets (a b : Nat) : Bool := a = b || 2 ≤ a || 2 ≤ b

/-- The stream's own accumulation on a logical array that meets the bank half. -/
def DieSt.ownAcc (x : DieSt) (c logical bank : Nat) (p : AccPhase → Bool) : Option Accum :=
  x.accs.find? fun a => a.ctx = c && a.logical = logical && bankMeets a.bank bank && p a.phase

def Accum.same (a b : Accum) : Bool := a.ctx = b.ctx && a.logical = b.logical && a.bank = b.bank && a.phase = b.phase

/-- Replaces or drops an accumulation. -/
def DieSt.putAcc (x : DieSt) (old : Accum) (new : Option Accum) : DieSt :=
  let y := { x with accs := x.accs.flatMap fun a => if a = old then new.toList else [a] }
  match new with
  | some a => y.storeBank a
  | none => y

/-- An instruction that must wait for the half: an open receipt on the physical array or the stream's own (11 R283). -/
def DieSt.receiptOn (x : DieSt) (c logical : Nat) (phys : Option Nat) (bank : Nat) : Bool :=
  x.accs.any fun a => a.phase = .receipt && bankMeets a.bank bank && (a.phys = phys || (a.ctx = c && a.logical = logical))

/-- The stream's earlier accumulation on the half is still to be checked. -/
def DieSt.checkingOn (x : DieSt) (c logical bank : Nat) : Bool :=
  (x.ownAcc c logical bank (· = .checking)).isSome

/-- A tile of any stream whose word holds it is still to be checked on the half of the physical array: what is held there
is known, and can be saved, after that check (04 R98). -/
def DieSt.holdSoon (x : DieSt) (phys : Option Nat) (bank : Nat) : Bool :=
  x.accs.any fun a => a.phase = .checking && a.phys.isSome && a.phys = phys && bankMeets a.bank bank && endOf a.ender = 1

def accFault {α : Type} (sub logical : Nat) : Exec α :=
  trap { cls := 4, reason := 8, sub := sub, unit := 0, inst := logical }

/-- The physical array for a logical one, at issue (01 R25). -/
def physNow (logical : Nat) : Exec Nat := do
  let r ← get
  match (r.s.die r.d).physOf logical with
  | some p => pure p
  | none => accFault 7 logical

/-- Saves what other streams hold on a half of a physical array (04 R98). -/
def evict (phys bank : Nat) : Exec Unit := do
  let r ← get
  modS fun s => s.saveAccs r.d fun a => a.phys = some phys && bankMeets a.bank bank && !(a.ctx = r.c.val)

/-- The stream's own accumulations of another logical array on the half are saved too: they are not what the
instruction continues (04 R98). -/
def evictOwn (phys bank logical : Nat) : Exec Unit := do
  let r ← get
  modS fun s => s.saveAccs r.d fun a => a.phys = some phys && bankMeets a.bank bank && a.ctx = r.c.val && a.logical ≠ logical

/-- Reads a saved accumulation back: poison in its image, or an image that is no longer what was saved and so fails its
seal, poisons the registers (04 R98, 12 R300; log 127). -/
def restoreAcc (a : Accum) : Exec Accum := do
  match a.saved with
  | none => pure a
  | some (at_, n) =>
    let r ← get
    let s := r.s
    let marks := (s.readPoison (.st r.d at_) a.imageLen).filterMap id
    let same := decide (s.read (.st r.d at_) a.imageLen = (List.range a.imageLen).map fun i => Config.saveByte (n + i))
    modS fun s => s.countReads r.d at_ a.imageLen none
    let a := { a with saved := none }
    let bad := { a with poison := a.poison.map fun _ => true }
    match marks.find? (· = .memory) <|> marks.head? with
    | some o => do
      metPoison o at_
      pure bad
    | none =>
      if same then pure a
      else
        raiseMemory { cls := 2, reason := 12, unit := 0, inst := a.logical, valueB := at_ }
        pure bad

/-- Takes the held accumulation that an instruction continues or ends, restored into its physical array (04 R94, R98).
MM.DISCARD of the whole bank takes the first accumulation of the stream that meets it, and leaves another on the other
half as it is (DESIGN CHOICE, log 126). -/
def takeHeld (w : IWord) (phys : Nat) (shape : Bool) : Exec Accum := do
  let r ← get
  match (r.s.die r.d).ownAcc r.c (mmArray w) (mmBank w) (· = .held) with
  | none => accFault 3 (mmArray w)
  | some a =>
    if shape && !(a.bank = mmBank w && a.rows = mmRows w && a.cols = mmCols w && a.transpose = mmTranspose w &&
        (a.partials || a.colOff = mmColOff w)) then accFault 4 (mmArray w)
    else
      modS fun s => s.updDie r.d fun x => x.putAcc a none
      if a.phys = some phys then pure a
      else
        modS fun s => s.count r.d 0x105 phys (some r.c.val)
        let a ← restoreAcc a
        let a := { a with phys := some phys, elsewhere := a.elsewhere || decide (phys ≠ a.origin) }
        modS fun s => s.updDie r.d (·.storeBank a)
        pure a

def Tensor.bound (t : Tensor) (w : BitVec 512) : Bound := { idx := t.idx, word := w, area := t.area, base := t.base, sealAt := t.sealAt }

def Bound.tensor (b : Bound) (die : Nat) : Tensor :=
  { idx := b.idx, q := descOf b.word, die := die, area := b.area, base := b.base, sealAt := b.sealAt }

/-- Resolves a descriptor and keeps it as the instruction took it. -/
def bindDesc (idx : Nat) (v : Want) : Exec Bound := do
  let x ← getCtx
  return (← resolve idx v).bound (SMap.get 0 x.descs idx)

/-- OUT of a draining instruction, wide enough for what it writes (04 R89, R100). -/
def bindOut (w : IWord) : Exec Bound := do
  let b ← bindDesc (mmOut w) { fmts := [mmOutCode w] }
  let q := descOf b.word
  shapeIf (mmColOff w + mmCols w ≤ q.e0 && mmRowOff w + mmRows w ≤ q.rows) (mmOut w)
  pure b

/-- SPILL of an instruction, in scratchpad (04 R96). -/
def bindSpill (w : IWord) : Exec Bound := do
  let b ← bindDesc (mmSpillIdx w) { fmts := [6] }
  shapeIf ((descOf b.word).loc = 1) (mmSpillIdx w)
  pure b

/-- Bytes of a spill image (04 R96). -/
def imageBytes (rows cols : Nat) : Nat := 64 + 17 * rows * cols

/-! ### Pass lists (04 R83) -/

def passList (ps pw : Nat) (full : Bool) : List (Nat × Nat) :=
  (List.range pw).flatMap fun j => (List.range ps).filterMap fun i =>
    if full || i + j ≤ max ps pw - 1 then some (i, j) else none

/-! ### One tile (04 R79 to R86) -/

/-- Rounding of an integer to 24 significant bits, ties to even: an FP32 value in grid units (04 R82). -/
def f32Int (v : Int) : Int :=
  let m := v.natAbs
  let k := Nat.log2 m - 23
  let q := roundHalfEven m (2 ^ k) * 2 ^ k
  if v < 0 then -(q : Int) else (q : Int)

/-- The stationary element at reduction position k and output position n (04 R78). -/
def stationary (tr : Bool) (k n : Nat) : Nat × Nat := if tr then (k, n) else (n, k)

/-- What the contributions of one row and output position add up to. -/
structure Sums where
  /-- block contributions in sequence order -/
  blocks : List Int
  side : Int
  sideCount : Nat
  nan : Bool

/-- One block contribution, and whether it sets the non-finite flag, from the two BS8 codes, the twice-scaled codes of the block
and the zero point's term. A NaN code counts in a block that is not 0x00 itself, whatever the other block is (04 R79, R80). -/
def blockTerm (sa sw : Nat) (xs ys : List (Option Int)) (zp : Int) : Int × Bool :=
  if sa = 0xFF || sw = 0xFF then (0, true)
  else
    let nan := (sa ≠ 0 && xs.any (·.isNone)) || (sw ≠ 0 && ys.any (·.isNone))
    if sa = 0 || sw = 0 then (0, nan)
    else
      let base := ((List.zip xs ys).map fun e => e.1.getD 0 * e.2.getD 0).foldl (· + ·) 0
      ((bs8Kilo sa : Int) * (bs8Kilo sw : Int) * (base - zp), nan)

/-- Contributions of row m and output position n (04 R79, R80, R84). -/
def contributions (s : State) (a w : SetIn) (tr : Bool) (passes : List (Nat × Nat)) (red0 red m n : Nat) : Sums :=
  let ha := a.hdrOf m
  let hw := w.hdrOf (if tr then 0 else n)
  let unsigned := hCode ha = 2
  let chunks := (List.range (ceilDiv red 256)).map fun i => (red0 + 256 * i, min (red0 + 256 * (i + 1)) (red0 + red))
  let one := fun (i j k0 : Nat) =>
    if i < formPieces (hForm ha) && j < formPieces (hForm hw) then
      let (wo, wr) := stationary tr k0 n
      let xs := (List.range 16).map fun t => codeTwice (hCode ha) (a.code s i m (k0 + t))
      let ys := (List.range 16).map fun t => let (wo, wr) := stationary tr (k0 + t) n; codeTwice (hCode hw) (w.code s j wo wr)
      blockTerm (a.scale s i m k0) (w.scale s j wo wr) xs ys
        (if unsigned then 4 * (a.zeroPoint s m k0 : Int) * w.colsum s j wo wr else 0)
    else (0, false)
  let blocks := chunks.flatMap fun e => passes.flatMap fun p =>
    (List.range ((e.2 - e.1) / 16)).map fun b => one p.1 p.2 (e.1 + 16 * b)
  let sideOf := fun (j r : Nat) (v : BitVec 32) =>
    if j < formPieces (hForm hw) then
      let (wo, wr) := stationary tr r n
      let sw := w.scale s j wo wr
      if sw = 0xFF then ((0 : Int), true)
      else if sw = 0 then (0, false)
      else match codeTwice (hCode hw) (w.code s j wo wr) with
        | none => (0, true)
        | some y => (((valF v).mul { m := y * (bs8Kilo sw : Int), e := 11 }).scaleTo 0, false)
    else (0, false)
  let outliers := if hOutliers ha then
      (List.range a.g.runsPerRow).flatMap fun k =>
        let rec_ := a.outlier s m (256 * k)
        (List.range 4).filterMap fun e =>
          let r := 256 * k + fld rec_ (71 + 8 * e) (64 + 8 * e)
          if bit rec_ (96 + e) && red0 ≤ r && r < red0 + red then some (r, ofBf16 (BitVec.ofNat 16 (fld rec_ (15 + 16 * e) (16 * e)))) else none
    else []
  let sides := outliers.flatMap fun o => (passes.filter (·.1 = 0)).map fun p => sideOf p.2 o.1 o.2
  { blocks := blocks.map (·.1), side := (sides.map (·.1)).foldl (· + ·) 0, sideCount := sides.length
    nan := blocks.any (·.2) || sides.any (·.2) }

/-- The expected value of row m and the group of 16 output positions from n0 on, formed from the row sums of the stationary
blocks and not from the cells' products (04 R86). -/
def groupSum (s : State) (a w : SetIn) (tr : Bool) (passes : List (Nat × Nat)) (red0 red m n0 : Nat) : Int :=
  let ha := a.hdrOf m
  let hw := w.hdrOf (if tr then 0 else n0)
  let rowSum := fun (j k : Nat) => ((List.range 16).map fun i =>
    let (wo, wr) := stationary tr k (n0 + i)
    (codeTwice (hCode hw) (w.code s j wo wr)).getD 0).foldl (· + ·) 0
  let one := fun (i j k0 : Nat) =>
    let (wo, wr) := stationary tr k0 n0
    let sa := a.scale s i m k0
    let sw := w.scale s j wo wr
    if i < formPieces (hForm ha) && j < formPieces (hForm hw) && sa ≠ 0xFF && sw ≠ 0xFF then
      let sum := ((List.range 16).map fun t => (codeTwice (hCode ha) (a.code s i m (k0 + t))).getD 0 * rowSum j (k0 + t)).foldl (· + ·) 0
      let zp := if hCode ha = 2 then 4 * (a.zeroPoint s m k0 : Int) * ((List.range 16).map fun i =>
          let (wo, wr) := stationary tr k0 (n0 + i)
          w.colsum s j wo wr).foldl (· + ·) 0 else 0
      (bs8Kilo sa : Int) * (bs8Kilo sw : Int) * (sum - zp)
    else 0
  let sides := if hOutliers ha then
      (List.range a.g.runsPerRow).flatMap fun k =>
        let rec_ := a.outlier s m (256 * k)
        (List.range 4).flatMap fun e =>
          let r := 256 * k + fld rec_ (71 + 8 * e) (64 + 8 * e)
          if bit rec_ (96 + e) && red0 ≤ r && r < red0 + red then
            (passes.filter (·.1 = 0)).map fun p =>
              let (wo, wr) := stationary tr r n0
              let sw := w.scale s p.2 wo wr
              if p.2 < formPieces (hForm hw) && sw ≠ 0xFF then
                ((valF (ofBf16 (BitVec.ofNat 16 (fld rec_ (15 + 16 * e) (16 * e))))).mul { m := rowSum p.2 r * (bs8Kilo sw : Int), e := 11 }).scaleTo 0
              else 0
          else []
    else []
  (passes.flatMap fun p => (List.range (red / 16)).map fun b => one p.1 p.2 (red0 + 16 * b)).foldl (· + ·) 0 + sides.foldl (· + ·) 0

/-- The narrow adder: what is promoted into the register, and how often (04 R82). -/
def narrow (interval : Nat) (cs : List Int) : Int × Nat :=
  let r := cs.foldl (fun (st : Int × Int × Nat × Nat) c =>
    let sum := f32Int (st.2.1 + f32Int c)
    if st.2.2.1 + 1 = interval then (st.1 + sum, 0, 0, st.2.2.2 + 1) else (st.1, sum, st.2.2.1 + 1, st.2.2.2)) (0, 0, 0, 0)
  (r.1 + r.2.1, r.2.2.2 + 1)

def sumI (l : List Int) : Int := l.foldl (· + ·) 0

/-- Groups of 16 consecutive entries of each row of a tile. -/
def groupsOf {α : Type} (l : List α) : List (List α) := chunksOf 16 l

def addLists (a b : List Int) : List Int := (List.zip a b).map fun e => e.1 + e.2

def orLists (a b : List Bool) : List Bool := (List.zip a b).map fun e => e.1 || e.2

/-- Adds one instruction's contributions to an accumulation: the cells' own, and the checksum side's `groups`. -/
def Accum.accumulate (a : Accum) (sums : List Sums) (groups : List Int) (poison : List Bool) : Accum :=
  let block := sums.map fun x => sumI x.blocks
  let into := if a.exact then block else sums.map fun x => (narrow a.promo x.blocks).1
  let side := sums.map (·.side)
  let adds := addLists into side
  { a with
    regs := addLists a.regs adds
    nonfinite := orLists a.nonfinite (sums.map (·.nan))
    poison := orLists a.poison poison
    expected := addLists a.expected groups
    blockSums := addLists a.blockSums ((groupsOf (addLists block side)).map sumI)
    promoted := addLists a.promoted ((groupsOf adds).map sumI) }

/-- A cleared accumulation (04 Table 4.3). -/
def Accum.clear (c : Ctx) (phys logical bank rows cols : Nat) (tr : Bool) (colOff : Nat) : Accum :=
  let n := rows * cols
  { ctx := c, phys := some phys, origin := phys, logical := logical, bank := bank, rows := rows, cols := cols
    transpose := tr, colOff := colOff, exact := true, promo := 16, regs := List.replicate n 0
    nonfinite := List.replicate n false, poison := List.replicate n false, expected := List.replicate (n / 16) 0
    blockSums := List.replicate (n / 16) 0, promoted := List.replicate (n / 16) 0, count := 0, carry := none
    outT := none, spillT := none, aHdrs := [], wHdrs := [], phase := .held, ender := 0, endAddr := 0, tile := 0
    earlier := false, elsewhere := false, partials := false, rowOff := 0, saved := none, descs := [] }

/-! ### MM.PRODUCT -/

/-- The rotation fields that two headers must share, as the record names them: the first of size, seed and base in which
they differ (03 R63, R71; DESIGN CHOICE for three fields that exceed a 64-bit value, log 126). -/
def rotationDiffers (a w : Nat × BitVec 32 × Nat) : Option (Nat × Nat) :=
  if a.1 ≠ w.1 then some (a.1, w.1)
  else if w.1 = 0 then none
  else if a.2.1 ≠ w.2.1 then some (a.2.1.toNat, w.2.1.toNat)
  else if a.2.2 ≠ w.2.2 then some (a.2.2, w.2.2)
  else none

/-- A ZEROPOINT, ROTATION or HEADER breach between two sets. N4I-U serves only as the streamed operand (03 R57, R63;
04 R92). -/
def pairBreach (a w : SetIn) (tr : Bool) : Option Pairing :=
  let mk := fun (reason x y : Nat) => some ({ reason := reason, first := a.base, second := w.base, block := 0, valA := x, valB := y } : Pairing)
  if tr && 1 < panelCount (hShift w.hdr0) w.g.out then mk 8 (a.hdr0.toNat % 2 ^ 64) (w.hdr0.toNat % 2 ^ 64)
  else
    a.hdrs.findSome? fun ha => w.hdrs.findSome? fun hw =>
      if hCode hw = 2 || (hCode ha = 2 && (hForm ha ≠ 0 || hRotR ha ≠ 0 || hOutliers ha || tr || hCode hw ≠ 1 || !hColsum hw)) then
        mk 3 (ha.toNat % 2 ^ 64) (hw.toNat % 2 ^ 64)
      else
        match rotationDiffers (hRotR ha, hSeedR ha, hBaseR ha)
          (if tr then (hRotO hw, hSeedO hw, hBaseO hw) else (hRotR hw, hSeedR hw, hBaseR hw)) with
        | some (x, y) => mk 6 x y
        | none => none

/-- Reduction and output length of the stationary operand in an orientation. -/
def SetIn.axes (w : SetIn) (tr : Bool) : Nat × Nat := if tr then (w.g.out, w.g.red) else (w.g.red, w.g.out)

/-- Rotation sizes of the reduction and the output axis, from headers. -/
def redSize (wh : BitVec 256) (tr : Bool) : Nat := rotSize (if tr then hRotO wh else hRotR wh)
def outSize (wh : BitVec 256) (tr : Bool) : Nat := rotSize (if tr then hRotR wh else hRotO wh)

/-- Ranges of a product against its operands (04 R100). -/
def productFits (w : IWord) (a b : SetIn) : Bool :=
  let (wr, wo) := b.axes (mmTranspose w)
  let br := redSize b.hdr0 (mmTranspose w)
  let bo := outSize b.hdr0 (mmTranspose w)
  mmRowOff w + mmRows w ≤ a.g.out && mmRedOff w + mmRed w ≤ a.g.red && mmRedOff w + mmRed w ≤ wr &&
    mmColOff w + mmCols w ≤ wo && mmRedOff w % br = 0 && mmRed w % br = 0 && mmColOff w % bo = 0 &&
    (mmCols w % 256) % bo = 0

/-- Tiles of a product: index, first column, width (04 R84). -/
def tilesOf (w : IWord) : List (Nat × Nat × Nat) :=
  (List.range (ceilDiv (mmCols w) 256)).map fun t => (t, mmColOff w + 256 * t, min 256 (mmCols w - 256 * t))

/-- Contributions that the instruction adds to the count of 04 R95. The runs of 256 positions are counted from RED_OFF on,
also where that is no multiple of 256 (DESIGN CHOICE, log 126). -/
def countOf (passes : List (Nat × Nat)) (red : Nat) (outliers : Bool) : Nat :=
  passes.length * (red / 16) + (if outliers then 4 * ceilDiv red 256 * passes.countP (·.1 = 0) else 0)

/-- Binds and checks the carry of a CARRY instruction; true when its header is poison (04 R97). -/
def bindCarry (w : IWord) (b : Bound) : Exec Bool := do
  let r ← get
  let t := b.tensor r.d
  if t.q.rowBytes * t.q.rows < imageBytes (mmRows w) (mmCols w) then accFault 5 (mmArray w)
  else
    let need := ceilDiv 64 t.q.rowBytes
    let bs ← (if need = 1 then readBlock t 0 0 else do pure (← (List.range need).mapM (readRow t)).flatten)
    let h := wordOf 512 ((bs.take 64).map (·.1))
    if (bs.take 64).any (·.2) then pure true
    else if fld h 9 0 = mmRows w && fld h 24 16 = mmCols w && bit h 25 = mmTranspose w then pure false
    else accFault 5 (mmArray w)

/-- The accumulation a tile starts from (04 Table 4.3, R94, R98). Under BANK 0b11 a tile looks at the half that it uses: a
product of one tile meets no HELD fault over an accumulation on the upper half (DESIGN CHOICE, log 126). -/
def startTile (w : IWord) (phys bank col cols : Nat) (carry : Option (Bound × Bool)) : Exec Accum := do
  let r ← get
  if mmStart w = 1 then
    let a ← takeHeld w phys true
    evict phys bank
    evictOwn phys bank (mmArray w)
    pure { a with earlier := true }
  else
    match (r.s.die r.d).ownAcc r.c (mmArray w) bank (fun p => p = .held) with
    | some _ => accFault 2 (mmArray w)
    | none =>
      evict phys bank
      evictOwn phys bank (mmArray w)
      let a := Accum.clear r.c phys (mmArray w) bank (mmRows w) cols (mmTranspose w) col
      match carry with
      | some (b, bad) => pure { a with carry := some b, poison := a.poison.map fun _ => bad }
      | none => pure a

/-- Codes of piece j of the stationary operand over one chunk of the reduction range and the tile's output positions, by
rank and file: rank r is an R-side position, file f an O-side one (04 R77, R78). -/
def stationaryCells (s : State) (b : SetIn) (tr : Bool) (j lo hi col cols : Nat) : SMap (BitVec 4) :=
  let (r0, nr, f0, nf) := if tr then (col, cols, lo, hi - lo) else (lo, hi - lo, col, cols)
  (List.range nr).flatMap fun r => (List.range nf).filterMap fun f =>
    let c := b.code s j (f0 + f) (r0 + r)
    if c = 0 then none else some (r * 256 + f, BitVec.ofNat 4 c)

/-- A stationary tile loads into the shadow and swaps with the live codes (04 R77). -/
def ArraySt.swapIn (x : ArraySt) (t : SMap (BitVec 4)) : ArraySt := { x with live := t, shadow := x.live }

/-- What a product's loads leave in the cells: the tiles of R84's order, of which the last two remain. -/
def State.loadCells (s : State) (d : Die) (phys : Nat) (b : SetIn) (tr : Bool) (passes : List (Nat × Nat)) (red0 red col cols : Nat) : State :=
  let js := (passes.map (·.2)).eraseDups
  let loads := (List.range (ceilDiv red 256)).flatMap fun i => js.map fun j => (j, red0 + 256 * i, min (red0 + 256 * (i + 1)) (red0 + red))
  (loads.drop (loads.length - 2)).foldl (fun st e => st.updDie d fun x =>
    { x with arrays := x.arrays.set (arrOf phys) (x.arrays[arrOf phys].swapIn (stationaryCells s b tr e.1 e.2.1 e.2.2 col cols)) }) s

/-- Reads the stationary units of a tile. -/
def readTileUnits (v : SetIn) (w : IWord) (col cols : Nat) : Exec SetIn :=
  let red := (mmRedOff w, mmRedOff w + mmRed w)
  if mmTranspose w then readUnits v red (col, col + cols) else readUnits v (col, col + cols) red

/-- One tile of a product: its accumulation, counts and contributions. `whole` says that the sets cannot be paired. -/
def productTile (w : IWord) (phys : Nat) (passes : List (Nat × Nat)) (a b : SetIn) (whole : Bool) (exact : Bool) (interval : Nat)
    (badRow : Option Nat) (out spill : Option Bound) (carry : Option (Bound × Bool)) (t col cols : Nat) : Exec Unit := do
  let bank := if mmBank w = 3 then t % 2 else mmBank w
  let acc ← startTile w phys bank col cols carry
  let n := countOf passes (mmRed w) (a.hdrs.any hOutliers)
  if 1048576 < acc.count + n then accFault 1 (mmArray w)
  else
    let b ← if whole then pure b else readTileUnits { b with pairing := none } w col cols
    match b.pairing with
    | some p => if whole then pure () else raisePairing p
    | none => pure ()
    let all := whole || b.pairing.isSome
    let s ← getS
    let rows := (List.range (mmRows w)).map (mmRowOff w + ·)
    let ns := (List.range cols).map (col + ·)
    let tr := mmTranspose w
    let blocks := (List.range (mmRed w / 16)).map fun i => mmRedOff w + 16 * i
    let cells := rows.flatMap fun m => ns.map fun o => (m, o)
    let sums := cells.map fun e =>
      if all then ({ blocks := [], side := 0, sideCount := 0, nan := false } : Sums)
      else contributions s a b tr passes (mmRedOff w) (mmRed w) e.1 e.2
    let groups := rows.flatMap fun m => (List.range (cols / 16)).map fun g =>
      if all then 0 else groupSum s a b tr passes (mmRedOff w) (mmRed w) m (col + 16 * g)
    let badA := rows.map fun m => !all && blocks.any fun k => a.bad m k
    let badW := ns.map fun o => !all && blocks.any fun k => let (wo, wr) := stationary tr k o; b.bad wo wr
    let hit := (← get).hit.isSome
    let poison := (List.zip rows badA).flatMap fun e => badW.map fun q => all || hit || e.2 || q || badRow = some e.1
    if poison.any id then setTainted
    let acc := { acc with count := acc.count + n, exact := acc.exact && exact, promo := if exact then acc.promo else interval
                          aHdrs := a.hdrs, wHdrs := b.hdrs }
    let acc := { ({ acc with exact := exact } : Accum).accumulate sums groups poison with exact := acc.exact }
    let r ← get
    let acc := { acc with phase := .checking, ender := w, endAddr := r.addr, tile := t, outT := out, spillT := spill
                          colOff := col, rowOff := mmRowOff w, descs := (← getCtx).descs }
    modS fun s => (if all then s else s.loadCells r.d phys b tr passes (mmRedOff w) (mmRed w) col cols).updDie r.d (·.addAcc acc)
    countE 0x101 phys (rows.length * ceilDiv (mmRed w) 256 * passes.length)
    countE 0x107 phys ((sums.map (·.sideCount)).foldl (· + ·) 0)
    if exact then pure () else countE 0x108 phys ((sums.map fun x => (narrow interval x.blocks).2).foldl (· + ·) 0)

/-- Opens the operands, pairs them, and runs the tiles (04 R79 to R100). -/
def productBody (w : IWord) (x : Phys) : Exec Unit := do
  let y ← getCtx
  let r0 ← get
  let phys ← physNow (mmArray w)
  modify fun r => { r with fl := { r.fl with instance_ := phys } }
  let slot := y.slot (mmSlot w)
  let passes := passList (formPieces (slotFormS slot)) (formPieces (slotFormW slot)) (slotFull slot)
  let out ← if mmEnd w = 0 then do pure (some (← bindOut w)) else pure none
  let spill ← if mmStart w = 2 || mmEnd w = 2 then do pure (some (← bindSpill w)) else pure none
  let a ← openSet (mmA w) { role := some false, limit := formPieces (slotFormS slot) }
  let b ← openSet (mmW w) { role := some true, limit := formPieces (slotFormW slot) }
  let poisoned := a.hdrPoison || b.hdrPoison
  let breach := if poisoned then (a.pairing <|> b.pairing) else a.pairing <|> b.pairing <|> pairBreach a b (mmTranspose w)
  shapeIf (poisoned || breach.isSome || productFits w a b) (mmA w)
  let a ← if poisoned || breach.isSome then pure a
    else readUnits a (mmRowOff w, mmRowOff w + mmRows w) (mmRedOff w, mmRedOff w + mmRed w)
  let breach := breach <|> a.pairing
  match breach with
  | some p => raisePairing p
  | none => pure ()
  let st := (r0.s.stream r0.d r0.c).getD Stream.reset
  let exact := if mmAcc w = 0 then !st.accMode else mmAcc w = 1
  let interval := if mmAcc w = 2 && mmPromo w ≠ 0 then mmPromo w else st.promoInterval
  let carry ← match spill, decide (mmStart w = 2) with
    | some q, true => do pure (some (q, ← bindCarry w q))
    | _, _ => pure none
  let badRow := if 2 ≤ x.mismatch then some (mmRowOff w + x.line % mmRows w) else none
  (tilesOf w).forM fun e => productTile w phys passes a b (poisoned || breach.isSome) exact interval
    (if e.1 = 0 then badRow else none) out (if mmEnd w = 2 then spill else none) carry e.1 e.2.1 e.2.2
  countE 0x106 (mmSlot w) (b2n (!poisoned && hForm a.hdr0 ≠ slotFormS slot) + b2n (!poisoned && hForm b.hdr0 ≠ slotFormW slot))
  if 2 ≤ x.mismatch then
    raiseCompute { cls := 1, reason := 9, unit := 1, inst := phys, valueB := x.line }
  let more := if mmOutFmt w = 2 then 1 else 0
  modify fun r => { r with fl := { r.fl with tiles := (tilesOf w).length + more } }

/-- A requantising product's SH.QUANT must follow at once (04 R90). -/
def State.openPair (s : State) (d : Die) (c : Ctx) (w : IWord) : State :=
  match s.stream d c with
  | some t => if t.launched && mmOutFmt w = 2 then s.updStream d c fun t => { t with pair := some w } else s
  | none => s

/-- What MM.PRODUCT asks beyond its header. A requantising product issues with the SH.QUANT that follows it, so whatever
that word breaks is found now (04 R90). -/
def productMayRun (s : State) (d : Die) (w : IWord) (y : CtxSt) (t : Stream) : Bool :=
  productOk w && requantOk y w &&
    (mmOutFmt w ≠ 2 ||
      (let q := s.wordAt d y (t.pc + 1)
       headerOk y q 2 1 && quantOk y q && pairOk y w q))

/-- MM.PRODUCT. Where the half is open for receipt, or what it continues is still to be checked, it waits. -/
def execMmProduct (d : Die) (c : Ctx) (w : IWord) (x : Phys) (s : State) : Out :=
  match s.tryIssue d c w 1 1 (productMayRun s d w) with
  | .stays s => .next s
  | .go t addr =>
    let y := s.die d
    if y.receiptOn c (mmArray w) (y.physOf (mmArray w)) (mmBank w) then
      .next (s.updStream d c fun u => { u with hold := some .receipt })
    else if y.holdSoon (y.physOf (mmArray w)) (mmBank w) || (y.checkingOn c (mmArray w) (mmBank w) && (mmStart w = 1 ||
        ((y.ownAcc c (mmArray w) (mmBank w) (· = .checking)).map fun a => decide (endOf a.ender = 1)).getD false)) then
      .next (s.updStream d c fun u => { u with hold := some .bank })
    else .next ((t.runEngine d c w addr 1 (mmArray w) { x with mismatch := if x.mismatch = 1 then 1 else 0 } (productBody w x)).openPair d c w)

/-! ### The check (04 R87) -/

/-- First failing row and group with the expected and the observed sum of the comparison that fails. -/
def Accum.failing (a : Accum) : Option (Nat × Nat × Int × Int) :=
  let regs := (groupsOf a.regs).map sumI
  (List.range regs.length).findSome? fun i =>
    let differ := fun (x y : Int) => if x ≠ y then some (i / (a.cols / 16), i % (a.cols / 16), x, y) else none
    if a.exact then differ (a.expected.getD i 0) (regs.getD i 0)
    else differ (a.expected.getD i 0) (a.blockSums.getD i 0) <|> differ (a.promoted.getD i 0) (regs.getD i 0)

def Accum.poisonAll (a : Accum) : Accum := { a with poison := a.poison.map fun _ => true }

/-- Adds the carry to the registers; the first group that differs from its entry (04 R97). -/
def addCarry (a : Accum) : Exec (Accum × Option (Nat × Nat × Int × Int)) := do
  match a.carry with
  | none => pure (a, none)
  | some b =>
    let r ← get
    let t := b.tensor r.d
    let flat ← readFlat t
    let n := a.rows * a.cols
    shapeIf (imageBytes a.rows a.cols ≤ flat.length) b.idx
    let entries := (chunksOf 16 ((flat.drop 64).take (17 * n)))
    let regs := entries.take n
    let groups := entries.drop n
    let vals := regs.map fun e => l72Value (e.map (·.1))
    let nf := regs.map fun e => l72Nonfinite (e.map (·.1))
    let po := regs.map fun e => e.any (·.2)
    let sums := (groupsOf vals).map sumI
    let poG := (groupsOf po).map fun g => g.any id
    let fail := (List.range sums.length).find? fun i =>
      let g := groups.getD i []
      !(poG.getD i false || g.any (·.2)) && twos 72 (sums.getD i 0) ≠ leAt (g.map (·.1)) 0 9 % 2 ^ 72
    let a := { a with regs := addLists a.regs vals, nonfinite := orLists a.nonfinite nf, poison := orLists a.poison po }
    pure (a, fail.map fun i => (i / (a.cols / 16), i % (a.cols / 16), l72Value ((groups.getD i []).map (·.1)), sums.getD i 0))

/-- Runs an action for what it answers and leaves no trace; none where it traps. -/
def peek {α : Type} (m : Exec α) : Exec (Option α) := fun r =>
  match m r with
  | .ok (v, _) => .ok (some v, r)
  | .error _ => .ok (none, r)

/-- Nibbles packed two to a byte. -/
def packNibbles (l : List Nat) : Bytes := (chunksOf 2 l).map fun g => BitVec.ofNat 8 (g.getD 0 0 + 16 * g.getD 1 0)

/-- The operands of a capture, from the sets of the ending product (12 R304). -/
def captureOperands (s : State) (w : IWord) (a b : SetIn) (row col : Nat) (lo red : Nat) : Bytes :=
  let tr := mmTranspose w
  let ks := (List.range red).map (lo + ·)
  let bs := ks.filter (· % 16 = 0)
  let ha := a.hdrOf row
  let stream := (List.range (formPieces (hForm ha))).flatMap fun i =>
    packNibbles (ks.map fun k => a.code s i row k) ++ bs.map fun k => BitVec.ofNat 8 (a.scale s i row k)
  let hw := b.hdrOf (if tr then 0 else col)
  let pos := if tr then (List.range 16).flatMap fun r => ks.map fun o => (o, col + r)
    else ks.flatMap fun r => (List.range 16).map fun o => (col + o, r)
  let stat := (List.range (formPieces (hForm hw))).flatMap fun j =>
    packNibbles (pos.map fun e => b.code s j e.1 e.2) ++
      (bs.map fun k => let (o, r) := stationary tr k col; BitVec.ofNat 8 (b.scale s j o r)) ++
      (if hColsum hw then bs.flatMap fun k => let (o, r) := stationary tr k col
        (List.range 16).map fun i => BitVec.ofInt 8 (b.colsum s j (o / 16 * 16 + i) r) else [])
  let outl := if hOutliers ha then (ks.filter (· % 256 = 0)).flatMap fun k => leBytes 16 (a.outlier s row k).toNat else []
  let zps := if hCode ha = 2 then packNibbles (bs.map fun k => a.zeroPoint s row k) else []
  stream ++ stat ++ outl ++ zps

/-- The capture of a failing tile (12 R304, Table 12.4). -/
def captureBytes (acc : Accum) (d : Die) (phys : Nat) (rev : BitVec 8) (step n seq : Nat) (passes red : Nat) (fs fw : Nat) (outliers : Bool)
    (fail : Nat × Nat × Int × Int) (operands : Bytes) : Bytes :=
  let (row, group, e, o) := fail
  leBytes 256 (packNat [(1, 8), (d, 5), (phys, 3), (b2n acc.transpose, 1), (b2n (!acc.exact), 1), (b2n acc.earlier, 1),
    (b2n outliers, 1), (passes, 4), (fs, 2), (fw, 2), (0, 4), (acc.endAddr, 32), (step, 64), (0, 64), (red, 16),
    (if acc.exact then 0 else acc.promo, 8), (0, 8), (bankBase acc.bank + row, 10), (group, 4), (0, 18), (twos 72 e, 72), (0, 8), (twos 72 o, 72),
    (0, 8), (rev.toNat, 8), (0, 24), ((Config.cycle n).toNat, 64), (seq, 32)]) ++ operands ++
    ((List.range 16).flatMap fun i =>
      let k := row * acc.cols + 16 * group + i
      l72Image (acc.regs.getD k 0) (acc.nonfinite.getD k false))

/-- Captures the failing tile's operands. -/
def capture (acc : Accum) (phys : Nat) (fail : Nat × Nat × Int × Int) : Exec Unit := do
  let w := acc.ender
  let y ← getCtx
  let product := opOf w = 1
  let red := if product then min 8192 (mmRed w) / 256 * 256 else 0
  let lo := mmRedOff w + mmRed w - red
  let slot := y.slot (mmSlot w)
  let sets ← peek (withDescs acc.descs do
    let a ← openSet (mmA w) { role := some false }
    let b ← openSet (mmW w) { role := some true }
    pure (a, b))
  let s ← getS
  let r ← get
  let sets := if product then sets else none
  let operands := match sets with
    | some (a, b) => captureOperands s w a b (mmRowOff w + fail.1) (acc.colOff + 16 * fail.2.1) lo red
    | none => []
  let outliers := match sets with | some (a, _) => a.hdrs.any hOutliers | none => false
  let passes := if product then (passList (formPieces (slotFormS slot)) (formPieces (slotFormW slot)) (slotFull slot)).length else 1
  let tc := ((s.die r.d).arrays.toList.map (·.tileCount)).getD phys 0
  let bytes := captureBytes acc r.d phys s.numericsRev y.stepNow s.freeCtr (s.die r.d).recordSeq.toNat passes red
    (slotFormS slot) (slotFormW slot) outliers fail operands
  let bytes := bytes.take 16 ++ leBytes 8 tc ++ bytes.drop 24
  modS fun s => ({ s with freeCtr := s.freeCtr + 1 }).takeCapture r.d { kind := 1, bytes := bytes, tileCount := tc, exported := false, order := 0 }

/-- Counts a tile, checks it and its carry, and raises a checksum fault (04 R87; 12 R304, R306). `dup` is what the compare of
the narrow adders found. -/
def checkTile (a : Accum) (dup : Option (Nat × Nat × Int × Int) := none) : Exec Accum := do
  let r ← get
  let phys := a.phys.getD 0
  modS fun s => s.updDie r.d fun x => { x with arrays := Vector.ofFn fun i => if i.val = phys then { x.arrays[i] with tileCount := x.arrays[i].tileCount + 1 } else x.arrays[i] }
  countE 0x102 phys 1
  let own := a.failing <|> dup
  let (a, carry) ← if endOf a.ender = 1 then pure (a, none) else addCarry a
  match own <|> carry with
  | none => pure a
  | some f =>
    raiseCompute { cls := 1, reason := 7, unit := 0, inst := phys
                   valueB := f.1 + 2 ^ 10 * f.2.1 + 2 ^ 16 * a.rowOff + 2 ^ 40 * a.colOff
                   valueC := twos 72 f.2.2.1 % 2 ^ 64, valueD := twos 72 f.2.2.2 % 2 ^ 64 }
    if own.isSome && !a.partials && !a.elsewhere then
      capture a phys f
      modS fun s => s.noteMismatch r.d (arrOf phys)
    modS fun s => s.updDie r.d (·.storeBank a.poisonAll)
    pure a.poisonAll

/-! ### Drain and spill (04 R89, R96, R97) -/

/-- An MM.DRAIN ends a receipt over its scale set (11 R282). -/
def Accum.byScaleSet (a : Accum) : Bool := a.partials && opOf a.ender = 2

/-- Outputs of one row of a checked tile: bits and poison (04 R89). The MM.DRAIN that ends a receipt takes the scale set's one
header, which is unrotated (11 R282). A register with both its poison bit and its non-finite flag drains as poison, and the
instruction's non-finite flag is not set for it (DESIGN CHOICE, log 126). -/
def drainRow (a : Accum) (fmt row : Nat) (ca : BitVec 32) : List (Nat × Bool) :=
  let wh := a.wHdrs.headD 0
  let regs := (a.regs.drop (row * a.cols)).take a.cols
  let nf := (a.nonfinite.drop (row * a.cols)).take a.cols
  let po := (a.poison.drop (row * a.cols)).take a.cols
  let bo := if a.byScaleSet then 1 else outSize wh a.transpose
  let br := if a.byScaleSet then 1 else redSize wh a.transpose
  let (sd, base) := if a.transpose then (hSeedR wh, hBaseR wh) else (hSeedO wh, hBaseO wh)
  let regs := alongRow bo (fun i r => undoRun bo sd (base + a.colOff + i) r) regs
  let nf := spreadRow bo nf
  let po := spreadRow bo po
  let k : Int := 22 + Nat.log2 (br * bo)
  (List.range a.cols).map fun n =>
    let hw := if a.transpose || a.byScaleSet then wh else a.wHdrs.getD (panelOf (hShift wh) (a.colOff + n)) 0
    let cs := (valF ca).mul (valF (hCs32 hw))
    if po.getD n false then (0, true)
    else if nf.getD n false then (nanBits fmt, false)
    else (dyadWide fmt { m := regs.getD n 0 * cs.m, e := cs.e - k }, false)

/-- Writes the rows of a checked tile to OUT. -/
def drainTile (a : Accum) (t : Tensor) : Exec Unit := do
  let bad := (← get).bad
  let fmt := t.q.fmt
  let b := fmtBits fmt / 8
  (List.range a.rows).forM fun i => do
    let m := mmRowOff a.ender + i
    let ah := if a.byScaleSet then a.aHdrs.headD 0 else a.aHdrs.getD (panelOf (hShift (a.aHdrs.headD 0)) m) 0
    let cells := drainRow a fmt i (hCs32 ah)
    setNonfinite (cells.any fun e => !e.2 && !wideFinite fmt e.1)
    let bytes := bytesOfElems (8 * b) cells
    writeSpan t m (b * a.colOff) (bytes.zipIdx.map fun (e, k) => (e.1, e.2 || inBadLine bad (m * t.q.rowBytes + b * a.colOff + k)))

/-- The spill image of a checked tile (04 R96). -/
def spillImage (a : Accum) (step : Nat) : List PByte :=
  let h := leBytes 64 (packNat [(a.rows, 10), (0, 6), (a.cols, 9), (b2n a.transpose, 1), (b2n a.carry.isSome, 1), (0, 37), (step, 64)])
  let entry := fun (v : Int) (nf po : Bool) => (l72Image v nf).map fun (x : Byte) => ((x, po) : PByte)
  let regs := (List.zip a.regs (List.zip a.nonfinite a.poison)).map fun e => entry e.1 e.2.1 e.2.2
  let groups := (List.zip (groupsOf a.regs) (List.zip (groupsOf a.nonfinite) (groupsOf a.poison))).map fun e =>
    entry (sumI e.1) (e.2.1.any id) (e.2.2.any id)
  (h.map fun x => (x, false)) ++ regs.flatten ++ groups.flatten

/-- Ends a checked tile as its word says. -/
def endTile (a : Accum) : Exec Unit := do
  let r ← get
  if endOf a.ender = 1 then
    let here := ((r.s.die r.d).present.contains (a.phys.getD 7))
    modS fun s => (s.updDie r.d (·.addAcc { a with phase := .held })).saveAccs r.d fun k => !here && k.phys = a.phys
  else if endOf a.ender = 2 then
    match a.spillT with
    | none => pure ()
    | some b =>
      if (match a.carry with | some k => decide (k.idx ≠ b.idx) | none => false) then accFault 5 a.logical
      else if a.regs.any fun v => v < l72Min || l72Max < v then accFault 6 a.logical
      else
        let y ← getCtx
        let t := b.tensor r.d
        let img := spillImage a y.stepNow
        shapeIf (img.length ≤ t.q.rowBytes * t.q.rows) b.idx
        writeFlatOut t 0 img
  else
    match a.outT with
    | none => pure ()
    | some b => drainTile a (b.tensor r.d)

/-! ### TILE_CHECK_COMPLETE -/

/-- An error in the array, and what the compare of the narrow adders says of it. An error of a cell or of an adder reaches the
register as well; a narrow adder works in promotion mode only (04 R82, R87). -/
def addUpset (a : Accum) (u : Option (UpsetAt × Nat × Nat × Int)) : Accum × Option (Nat × Nat × Int × Int) :=
  match u with
  | none => (a, none)
  | some (at_, row, col, delta) =>
    let k := row % a.rows * a.cols + col % a.cols
    let bump := fun (l : List Int) (j : Nat) => l.zipIdx.map fun (v, i) => if i = j then v + delta else v
    let b := { a with regs := bump a.regs k }
    match at_ with
    | .register => (b, none)
    | .cell => ({ b with blockSums := bump a.blockSums (k / 16), promoted := bump a.promoted (k / 16) }, none)
    | .adder =>
      if a.exact then (a, none)
      else ({ b with promoted := bump a.promoted (k / 16) },
        some (row % a.rows, col % a.cols / 16, a.promoted.getD (k / 16) 0, a.promoted.getD (k / 16) 0 + delta))

/-- A body that completes a part of an instruction in flight: its flags join that instruction's record, of which one tile
less is then to come. -/
def State.runTile (s : State) (d : Die) (c : Ctx) (cls addr : Nat) (hit : Option (Option Nat × Nat)) (unit : Nat) (body : Exec Unit) : State :=
  let t := (s.stream d c).getD Stream.reset
  let mine := fun (f : InFlight) => f.cls = cls && f.addr = addr && f.tiles ≠ 0
  let none_ := inFlightOf s d c 0 addr 0
  let fl := (t.inflight.find? fun f => mine f).getD none_
  let less := fun (s : State) (g : InFlight → InFlight) => s.updStream d c fun u =>
    match u.inflight.findIdx? fun f => mine f with
    | some i => { u with inflight := u.inflight.modify i fun f => { (g f) with tiles := f.tiles - 1 } }
    | none => u
  match body.run (Run.start s d c addr unit hit fl) with
  | .error e => (less s id).stopFault d c addr e.info e.cause
  | .ok (_, r) =>
    let s := if r.tainted then r.s.orVerdict c vTainted else r.s
    let s := if r.fl.nonfinite then
        (if fl.nonfinite then s.orVerdict c vNonfinite else (s.orVerdict c vNonfinite).count d 0x005 cls (some c.val)) else s
    let s := less s fun f => { r.fl with tiles := f.tiles }
    if r.kill then s.faultStop c .memory else s

/-- The check of the oldest tile that waits on a physical array completes; the tile drains, spills or is held. -/
def execTileCheckComplete (d : Die) (a : Arr) (upset : Option (UpsetAt × Nat × Nat × Int)) (x : Phys) (s : State) : Out :=
  match (s.die d).accs.find? fun k => k.phase = .checking && k.phys = some a.val with
  | none => .next s
  | some k =>
    let c := ctxOf k.ctx
    let (hit, dup) := addUpset k upset
    let s := s.updDie d fun y => ({ y with accs := y.accs.erase k }).storeBank hit
    let s := (s.applyPhys x).compareRetry d 2 x.mismatch
    .next (s.runTile d c 1 k.endAddr (physHit x 2) 2 (do
      let k ← checkTile hit dup
      if k.poison.any id then setTainted
      if (physHit x 2).isSome then raiseCompute { cls := 1, reason := 9, unit := 2, inst := a, valueB := x.line }
      endTile k))

/-! ### MM.DRAIN, MM.SPILL, MM.DISCARD -/

/-- Waits or runs an instruction that names a held accumulation. -/
def heldEngine (d : Die) (c : Ctx) (w : IWord) (op : Nat) (x : Phys) (ok : CtxSt → Stream → Bool) (body : Exec Unit) (s : State) : Out :=
  match s.tryIssue d c w 1 op ok with
  | .stays s => .next s
  | .go t addr =>
    let y := s.die d
    if y.receiptOn c (mmArray w) (y.physOf (mmArray w)) (mmBank w) then .next (s.updStream d c fun u => { u with hold := some .receipt })
    else if y.checkingOn c (mmArray w) (mmBank w) || y.holdSoon (y.physOf (mmArray w)) (mmBank w) then
      .next (s.updStream d c fun u => { u with hold := some .bank })
    else .next (t.runEngine d c w addr 2 ((y.physOf (mmArray w)).getD (mmArray w)) x body)

/-- MM.DRAIN checks and drains a held accumulation; A_SET and W_SET supply scales and rotation (04 Table 4.7, R80). -/
def drainBody (w : IWord) : Exec Unit := do
  let phys ← physNow (mmArray w)
  let out ← bindOut w
  let k ← takeHeld w phys true
  evict phys (mmBank w)
  evictOwn phys (mmBank w) (mmArray w)
  let a ← openSet (mmA w) (if k.partials then {} else { role := some false })
  let b ← openSet (mmW w) (if k.partials then {} else { role := some true })
  let breach := a.pairing <|> b.pairing
  let (_, wo) := b.axes k.transpose
  shapeIf (k.partials || a.hdrPoison || b.hdrPoison || breach.isSome ||
    (mmRowOff w + mmRows w ≤ a.g.out && mmColOff w + mmCols w ≤ wo && mmColOff w % outSize b.hdr0 k.transpose = 0 &&
      mmCols w % outSize b.hdr0 k.transpose = 0)) (mmA w)
  match breach with
  | some p => raisePairing p
  | none => pure ()
  let r ← get
  let k := { k with ender := w, endAddr := r.addr, outT := some out, aHdrs := a.hdrs, wHdrs := b.hdrs
                    colOff := mmColOff w, rowOff := mmRowOff w, earlier := true }
  let k := if a.hdrPoison || b.hdrPoison || breach.isSome then k.poisonAll else k
  let k ← checkTile k
  if k.poison.any id then setTainted
  endTile k

def execMmDrain (d : Die) (c : Ctx) (w : IWord) (x : Phys) (s : State) : Out :=
  heldEngine d c w 2 x (fun _ _ => drainOk w) (drainBody w) s

/-- MM.SPILL checks a held accumulation and writes it as a spill image. -/
def spillBody (w : IWord) : Exec Unit := do
  let phys ← physNow (mmArray w)
  let sp ← bindSpill w
  let k ← takeHeld w phys true
  evict phys (mmBank w)
  evictOwn phys (mmBank w) (mmArray w)
  let r ← get
  let k ← checkTile { k with ender := w, endAddr := r.addr, spillT := some sp, earlier := true }
  if k.poison.any id then setTainted
  endTile k

def execMmSpill (d : Die) (c : Ctx) (w : IWord) (x : Phys) (s : State) : Out :=
  heldEngine d c w 3 x (fun _ _ => spillOk w) (spillBody w) s

/-- MM.DISCARD releases a held accumulation without a check. -/
def discardBody (w : IWord) : Exec Unit := do
  let phys ← physNow (mmArray w)
  let _ ← takeHeld w phys false

def execMmDiscard (d : Die) (c : Ctx) (w : IWord) (x : Phys) (s : State) : Out :=
  heldEngine d c w 4 x (fun _ _ => discardOk w) (discardBody w) s

end Sys2Proof.Machine
end

