-- ==== Sys2Proof/Machine/Flags.lean ====
section
/-! DEFINITION. The flags of a step: verdict words, the clean test, written-map values, the outcome of MK (06 Tables 6.2,
6.6, 6.7). -/
namespace Sys2Proof.Machine

/-- A verdict is clean when bits [3:0] are 0 (06 R148). -/
def clean (v : BitVec 64) : Bool := fld v 3 0 = 0

/-- The defined bits of a verdict word. -/
def verdictBits (v : BitVec 64) : BitVec 64 := v &&& 0xF

/-- Values of a written map, as 13 Table 13.2 numbers them. -/
def mapNone : Nat := 0
def mapWritten : Nat := 1
def mapPartial : Nat := 2
def mapSkipped : Nat := 3

/-- OUTCOME of the step record (06 Table 6.8). -/
inductive MkOutcome where
  | committed
  | skipped
  | partial_
  | stopped
  deriving DecidableEq, Repr

def MkOutcome.code : MkOutcome → Nat
  | .committed => 0
  | .skipped => 1
  | .partial_ => 2
  | .stopped => 3

/-- The outcome of an MK by its verdict and the commit mode, and the run of uncommitted steps before it (06 Table 6.7,
R150). `inPlace` is COMMIT_MODE. -/
def mkOutcome (v : BitVec 64) (inPlace : Bool) (skipLimit skipRun : Nat) : MkOutcome :=
  if clean v then .committed
  else if bit v 2 then .stopped
  else if skipLimit ≠ 0 && skipLimit ≤ skipRun + 1 then .stopped
  else if inPlace then .partial_ else .skipped

/-- KIND of a commit entry: 0 OPTIMISER, 1 WORKING_COPY (06 Table 6.2). -/
def Entry.kind (e : Entry) : Nat := fld e.word 1 0
def Entry.slices (e : Entry) : Nat := fld e.word 35 16
def Entry.rowsK (e : Entry) : Nat := fld e.word 95 64
def Entry.colsN (e : Entry) : Nat := fld e.word 127 96
def Entry.sliceRows (e : Entry) : Nat := fld e.word 159 128
def Entry.firstRow (e : Entry) : Nat := fld e.word 191 160
def Entry.axisR (e : Entry) : Nat := fld e.word 223 192
def Entry.axisO (e : Entry) : Nat := fld e.word 255 224

/-- First tensor row of a slice and the row after its last; none where the slice is invalid (06 R131). -/
def Entry.slice (e : Entry) (k : Nat) : Option (Nat × Nat) :=
  let lo := e.firstRow + k * e.sliceRows
  if k < e.slices && lo < e.rowsK then some (lo, min (lo + e.sliceRows) e.rowsK) else none

/-- Value of slice k in the written map of the current step. -/
def Entry.mark (e : Entry) (k : Nat) : Nat := SMap.get 0 e.written k

/-- Slices with value v. -/
def Entry.marked (e : Entry) (v : Nat) : Nat := e.written.countP fun p => p.2 = v

/-- Complete, or untouched (06 R145). -/
def Entry.isComplete (e : Entry) : Bool :=
  if e.kind = 0 then e.slices ≤ e.marked mapWritten && 0 < e.slices else e.codeBytes = e.rowsK * e.colsN / 2 && e.codeBytes ≠ 0

def Entry.untouched (e : Entry) : Bool := if e.kind = 0 then e.written.isEmpty else e.codeBytes = 0

def entryKey (die e : Nat) : Nat := die * 1024 + e

def CtxSt.entry (x : CtxSt) (d : Die) (e : Nat) : Option Entry := SMap.find x.entries (entryKey d e)

def State.updEntry (s : State) (d : Die) (c : Ctx) (e : Nat) (f : Entry → Entry) : State :=
  s.updCtx c fun x => match x.entry d e with
    | some y => { x with entries := SMap.insert x.entries (entryKey d e) (f y) }
    | none => x

/-- Marks a slice in its written map, and counts it (06 R132, 13 Table 13.2). -/
def State.markSlice (s : State) (d : Die) (c : Ctx) (e k v : Nat) : State :=
  (s.updEntry d c e fun y => { y with written := SMap.put 0 y.written k v }).count d 0x403 v (some c.val)

end Sys2Proof.Machine
end

