-- ==== Sys2Proof/Machine/Fallback.lean ====
section
/-! DEFINITION. The fall-back controller: levels, streaks, the memory reserve and its decisions at MK (07 R156 to R176). -/
namespace Sys2Proof.Machine

/-! ### Policy fields (07 Tables 7.3, 7.4) -/

def polEn (p : Bytes) : Bool := polHdr p 0 0 = 1
def polHalt (p : Bytes) : Bool := polHdr p 1 1 = 1
def polDemoteEn (p : Bytes) : Bool := polHdr p 2 2 = 1
def polStreakLimit (p : Bytes) : Nat := polHdr p 31 16
def polSpUnits (p : Bytes) : Nat := polHdr p 63 32
def polHbmPages (p : Bytes) : Nat := polHdr p 95 64
def polPromoteCoarse (p : Bytes) : Nat := polHdr p 111 96
def polDemoteCoarse (p : Bytes) : Nat := polHdr p 127 112
def polPromoteOverflow (p : Bytes) : Nat := polHdr p 143 128
def polDemoteOverflow (p : Bytes) : Nat := polHdr p 159 144
def polPromoteSteps (p : Bytes) : Nat := polHdr p 167 160
def polDemoteSteps (p : Bytes) : Nat := polHdr p 191 176
def polMinBlocks (p : Bytes) : Nat := polHdr p 223 192
def polSpBase (p : Bytes) : Nat := polHdr p 255 224
def polHbmBase (p : Bytes) : Nat := polHdr p 303 256

def slotPriority (e : BitVec 128) : Nat := fld e 7 0
def slotRole (e : BitVec 128) : Nat := fld e 9 8
def slotEnable (e : BitVec 128) : Bool := bit e 10
def slotFullEn (e : BitVec 128) : Bool := bit e 11
def slotMaxForm (e : BitVec 128) : Nat := fld e 13 12
def slotInit (e : BitVec 128) : Nat := fld e 16 14

/-- Cost of a chunk of a side and piece: scratchpad units and HBM pages (07 R166). -/
def slotCost (e : BitVec 128) (side piece : Nat) : Nat × Nat :=
  match side, piece with
  | 0, 1 => (fld e 47 32, 0)
  | 0, _ => (fld e 63 48, 0)
  | _, 1 => (fld e 79 64, fld e 111 96)
  | _, _ => (fld e 95 80, fld e 127 112)

/-! ### Levels and forms (07 R156, Table 7.1) -/

/-- TRIO, level S, level W. -/
abbrev Levels := Bool × Bool × Bool

/-- Levels that INIT_FORM names. -/
def initLevels (f : Nat) : Levels :=
  match f with
  | 0 => (false, false, false)
  | 1 => (false, true, false)
  | 2 => (false, false, true)
  | 3 => (false, true, true)
  | _ => (true, true, true)

def piecesAt (l : Levels) (side : Nat) : Nat := if l.1 then 3 else if (if side = 0 then l.2.1 else l.2.2) then 2 else 1

/-- A slot word with the form of the levels (01 Table 1.12, 07 Table 7.1). -/
def slotWith (v : BitVec 32) (l : Levels) (fullEn : Bool) : BitVec 32 :=
  let f := fun side => piecesAt l side - 1
  let full := (l.1 || (l.2.1 && l.2.2)) && fullEn
  setFld (setFld (setFld v 1 0 (f 0)) 3 2 (f 1)) 4 4 (b2n full)

/-- Levels of the form that a slot word holds. -/
def levelsOf (v : BitVec 32) : Levels := (slotFormS v = 2 && slotFormW v = 2, slotFormS v ≠ 0, slotFormW v ≠ 0)

/-- The form of `a` exceeds no part of MAX_FORM. -/
def withinMax (l : Levels) (mx : Nat) : Bool := if l.1 then 2 ≤ mx else if l.2.1 || l.2.2 then 1 ≤ mx else true

/-- The form of `l` falls below INIT_FORM. -/
def belowInit (l init : Levels) : Bool := (init.1 && !l.1) || (init.2.1 && !l.2.1) || (init.2.2 && !l.2.2)

def ctlZero : SlotCtl :=
  { levelS := false, levelW := false, trio := false, overS := 0, overW := 0, underS := 0, underW := 0, silent := 0, reported := false }

def ctlLevels (k : SlotCtl) : Levels := (k.trio, k.levelS, k.levelW)

/-- A form change clears both streaks of both sides (07 R162). -/
def ctlWith (k : SlotCtl) (l : Levels) : SlotCtl :=
  { k with trio := l.1, levelS := l.2.1, levelW := l.2.2, overS := 0, overW := 0, underS := 0, underW := 0 }

def CtxSt.slotCtl (x : CtxSt) (k : Nat) : SlotCtl := SMap.get ctlZero x.ctl k

/-- Side and piece pairs beyond the head that a form holds, in the order in which their chunks are allocated. -/
def chunkPairs (l : Levels) : List (Nat × Nat) :=
  [(0, 1), (0, 2), (1, 1), (1, 2)].filter fun e => e.2 < piecesAt l e.1

/-! ### The memory reserve (07 R165 to R167) -/

/-- Lowest offset of a free run of n units among `total`; `busy` holds taken (start, length) runs and single units. -/
def firstFit (total n : Nat) (busy : List (Nat × Nat)) : Option Nat :=
  if n = 0 then some 0 else
    -- a run starts at 0 or right after a taken one
    let starts := 0 :: busy.map fun e => e.1 + e.2
    (starts.filter fun o => o + n ≤ total && busy.all fun e => e.2 = 0 || o + n ≤ e.1 || e.1 + e.2 ≤ o).min?

def spBusy (p : Bytes) (ks : List Chunk) : List (Nat × Nat) := ks.map fun k => ((k.spBase - polSpBase p) / 4096, k.spLen)
def hbmBusy (p : Bytes) (ks : List Chunk) (gone : List Nat) : List (Nat × Nat) :=
  (ks.map fun k => ((k.hbmBase - polHbmBase p) / 65536, k.hbmLen)) ++ gone.map fun g => (g, 1)

/-- Allocates one chunk in both pools. `gone` is the reduced pool retirement map. -/
def placeChunk (p : Bytes) (gone : List Nat) (slot : Nat) (e : BitVec 128) (ks : List Chunk) (pair : Nat × Nat) : Option (List Chunk) :=
  let (cs, ch) := slotCost e pair.1 pair.2
  match firstFit (polSpUnits p) cs (spBusy p ks), firstFit (polHbmPages p) ch (hbmBusy p ks gone) with
  | some a, some b =>
    some (ks ++ [{ slot := slot, side := pair.1, piece := pair.2, spBase := polSpBase p + 4096 * a, spLen := cs
                   hbmBase := polHbmBase p + 65536 * b, hbmLen := ch }])
  | _, _ => none

/-- Allocates the chunks that `new` holds and `old` lacks; none when one does not fit (07 R166). -/
def placeChunks (p : Bytes) (gone : List Nat) (slot : Nat) (e : BitVec 128) (old new : Levels) (ks : List Chunk) : Option (List Chunk) :=
  ((chunkPairs new).filter fun q => !(chunkPairs old).contains q).foldl
    (fun acc q => acc.bind fun l => placeChunk p gone slot e l q) (some ks)

/-- Frees the chunks of a slot that `new` lacks. -/
def freeChunks (slot : Nat) (new : Levels) (ks : List Chunk) : List Chunk :=
  ks.filter fun k => k.slot ≠ slot || (chunkPairs new).contains (k.side, k.piece)

/-- Free parts of both pools (07 Table 7.5). -/
def freeSp (p : Bytes) (ks : List Chunk) : Nat := polSpUnits p - (ks.map (·.spLen)).foldl (· + ·) 0

def freeHbm (p : Bytes) (ks : List Chunk) (gone : List Nat) : Nat :=
  let busy := hbmBusy p ks []
  let lost := gone.filter fun g => g < polHbmPages p && busy.all fun e => g < e.1 || e.1 + e.2 ≤ g
  polHbmPages p - ((ks.map (·.hbmLen)).foldl (· + ·) 0 + lost.eraseDups.length)

/-- Every enabled slot's INIT_FORM at launch, its chunks in ascending slot number, beside the chunks `kept` of slots that are
not enabled; none when they do not fit (07 R174). -/
def launchForms (p : Bytes) (gone : List Nat) (kept : List Chunk) : Option (SMap SlotCtl × List Chunk) :=
  (List.range 256).foldl (fun acc k => acc.bind fun (m, ks) =>
    let e := polSlot p k
    if !slotEnable e then some (m, ks)
    else
      let l := initLevels (slotInit e)
      (placeChunks p gone k e (false, false, false) l ks).map fun ks => (SMap.put ctlZero m k (ctlWith ctlZero l), ks))
    (some ([], kept))

/-! ### Reduced statistics (07 Table 7.2) -/

/-- Field i of the record of a slot's side. -/
def statField (bs : Bytes) (slot side i : Nat) : Nat :=
  let w := wordOf 512 (slice bs (128 * slot + 64 * side) 64)
  let off := ((statWidths.take i).foldl (· + ·) 0)
  fld w (off + statWidths.getD i 1 - 1) off

/-- The record of a slot's side, field by field. -/
def statRecord (bs : Bytes) (slot side : Nat) : List Nat := (List.range 10).map (statField bs slot side)

/-- A record as 64 bytes. -/
def statBytes (l : List Nat) : Bytes := leBytes 64 (packNat (List.zip l statWidths))

/-- The combined records of the device's dies, 32 KiB (07 R160). -/
def State.combineStats (s : State) (c : Ctx) : Bytes :=
  (List.range 256).flatMap fun k => (List.range 2).flatMap fun side =>
    statBytes (s.dies.toList.foldl (fun acc x => addStat acc (SMap.get zeroStat x.stats (statKey c k side))) zeroStat)

/-! ### Streaks (07 R161, R162, R173) -/

def sideOver (p bs : Bytes) (slot side pieces : Nat) : Bool :=
  let f := statField bs slot side
  pieces ≤ 2 && (polPromoteCoarse p * f 0 < f (1 + pieces) * 65536 || (0 < f 4 && polPromoteOverflow p * f 4 < f 5 * 65536))

def sideUnder (p bs : Bytes) (slot side pieces : Nat) : Bool :=
  let f := statField bs slot side
  2 ≤ pieces && f pieces * 65536 < polDemoteCoarse p * f 0 && (f 4 = 0 || f 5 * 65536 < polDemoteOverflow p * f 4)

def validSample (p bs : Bytes) (slot side : Nat) : Bool := polMinBlocks p ≤ statField bs slot side 0

/-- New over and under streaks of a side. -/
def streaks (p bs : Bytes) (slot side pieces past under : Nat) : Nat × Nat :=
  if !validSample p bs slot side then (past, under)
  else if sideOver p bs slot side pieces then (satAdd 16 past 1, 0)
  else if sideUnder p bs slot side pieces then (0, satAdd 16 under 1)
  else (0, 0)

def ctlStreak (k : SlotCtl) (p bs : Bytes) (slot : Nat) : SlotCtl :=
  let (os, us) := streaks p bs slot 0 (piecesAt (ctlLevels k) 0) k.overS k.underS
  let (ow, uw) := streaks p bs slot 1 (piecesAt (ctlLevels k) 1) k.overW k.underW
  { k with overS := os, underS := us, overW := ow, underW := uw }

/-- The silent streak, and the record that its change asks for: KIND and STREAK (07 R173, R176). -/
def ctlSilence (k : SlotCtl) (p bs : Bytes) (slot : Nat) : SlotCtl × Option (Nat × Nat) :=
  let b := statField bs slot 0 0 + statField bs slot 1 0
  let z := statField bs slot 0 1 + statField bs slot 1 1
  if b < polMinBlocks p then (k, none)
  else if b * 99 < z * 100 then
    let n := satAdd 16 k.silent 1
    if polStreakLimit p ≤ n && !k.reported then ({ k with silent := n, reported := true }, some (4, polStreakLimit p))
    else ({ k with silent := n }, none)
  else ({ k with silent := 0, reported := false }, if k.reported then some (5, k.silent) else none)

/-! ### Promotions and demotions due (07 R163) -/

/-- Levels that a side's promotion would set; none when it is not due. -/
def promotionOf (p : Bytes) (e : BitVec 128) (k : SlotCtl) (side : Nat) : Option Levels :=
  let past := if side = 0 then k.overS else k.overW
  let level := if side = 0 then k.levelS else k.levelW
  let target : Option Levels :=
    if k.trio then none
    else if !level then some (false, k.levelS || side = 0, k.levelW || side = 1)
    else some (true, true, true)
  match target with
  | some l => if polPromoteSteps p ≤ past && withinMax l (slotMaxForm e) then some l else none
  | none => none

/-- Levels after the demotions that are due. -/
def demotionOf (p : Bytes) (e : BitVec 128) (k : SlotCtl) : Levels :=
  let init := initLevels (slotInit e)
  let dueS := polDemoteSteps p ≤ k.underS
  let dueW := polDemoteSteps p ≤ k.underW
  if !polDemoteEn p then (ctlLevels k)
  else if k.trio then (if dueS && dueW && !belowInit (false, true, true) init then (false, true, true) else (ctlLevels k))
  else
    let s' := if k.levelS && dueS && !belowInit (false, false, k.levelW) init then false else k.levelS
    let w' := if k.levelW && dueW && !belowInit (false, s', false) init then false else k.levelW
    (false, s', w')

/-! ### The decision at MK (07 R168 to R170) -/

/-- The controller's working copy of a context while it decides. -/
structure Deciding where
  ctl : SMap SlotCtl
  chunks : List Chunk
  changed : List Nat
  granted : List Nat
  demoted : List Nat
  held : List Nat
  stop : Bool
  deriving DecidableEq, Repr

def Deciding.get (q : Deciding) (k : Nat) : SlotCtl := SMap.get ctlZero q.ctl k

def Deciding.set (q : Deciding) (k : Nat) (l : Levels) (ks : List Chunk) : Deciding :=
  { q with ctl := SMap.put ctlZero q.ctl k (ctlWith (q.get k) l), chunks := ks, changed := k :: q.changed }

/-- One promotion in its turn. -/
def Deciding.promote (q : Deciding) (p : Bytes) (gone : List Nat) (k side : Nat) (target : Levels) : Deciding :=
  let now := (ctlLevels (q.get k))
  let reached := now.1 || (!target.1 && (if side = 0 then now.2.1 else now.2.2))
  if reached then q
  else
    let new : Levels := if target.1 then (true, true, true) else (false, now.2.1 || side = 0, now.2.2 || side = 1)
    match (if q.stop then none else placeChunks p gone k (polSlot p k) now new q.chunks) with
    | some ks => let q := q.set k new ks; { q with granted := k :: q.granted }
    | none => { q with held := k :: q.held, stop := true }

/-- Slots with ENABLE 1. -/
def enabledSlots (p : Bytes) : List Nat := (List.range 256).filter fun k => slotEnable (polSlot p k)

/-- Demotions first, in ascending slot number; then promotions by priority, slot and side. -/
def decide_ (p : Bytes) (gone : List Nat) (ctl : SMap SlotCtl) (chunks : List Chunk) : Deciding :=
  let q : Deciding := { ctl := ctl, chunks := chunks, changed := [], granted := [], demoted := [], held := [], stop := false }
  let due := fun (k : Nat) => (List.range 2).filterMap fun side => (promotionOf p (polSlot p k) (SMap.get ctlZero ctl k) side).map fun l => (k, side, l)
  let q := (enabledSlots p).foldl (fun (q : Deciding) k =>
    if !(due k).isEmpty then q
    else
      let new := demotionOf p (polSlot p k) (q.get k)
      if new = (ctlLevels (q.get k)) then q
      else let q := q.set k new (freeChunks k new q.chunks); { q with demoted := k :: q.demoted }) q
  let order := ((enabledSlots p).flatMap due).mergeSort fun a b =>
    let pa := slotPriority (polSlot p a.1)
    let pb := slotPriority (polSlot p b.1)
    pb < pa || (pa = pb && (a.1 < b.1 || (a.1 = b.1 && a.2.1 ≤ b.2.1)))
  order.foldl (fun (q : Deciding) e => q.promote p gone e.1 e.2.1 e.2.2) q

/-- SLOTS of an event record. -/
def slotBits (ks : List Nat) : Nat := ks.eraseDups.foldl (fun a k => a + 2 ^ k) 0

/-- Writes one fall-back event record (07 R176, Table 7.5). -/
def State.fallbackRecord (s : State) (c : Ctx) (step kind streak sp hbm slots : Nat) : State :=
  s.logDevice 0x04 1 (some c.val) true (leBytes 64 (packNat [(step, 64), (c.val, 8), (kind, 4), (0, 4), (streak, 16),
    (min sp (2 ^ 32 - 1), 32), (min hbm (2 ^ 32 - 1), 32), (slots, 256), ((s.die 0).recordSeq.toNat, 32), ((Config.cycle s.freeCtr).toNat, 64)]))

/-- Puts a policy record in force: priorities are copied, a slot newly enabled takes its levels from the form it holds, and
an enabled slot's FULL follows FULL_EN (07 R174, Tables 7.1, 7.4). -/
def CtxSt.install (x : CtxSt) (p : Bytes) : CtxSt :=
  let old := x.policyNow
  { x with
    policy := some p, policyNext := none
    reducedMap := if polHbmBase p = polHbmBase old then x.reducedMap else []
    retirementMap := if polHbmBase p = polHbmBase old then x.retirementMap else []
    slots := (List.range 256).foldl (fun m k =>
      let v := setFld (SMap.get 0 m k) 15 8 (slotPriority (polSlot p k))
      SMap.put 0 m k (if polEn p && slotEnable (polSlot p k) then slotWith v (levelsOf v) (slotFullEn (polSlot p k)) else v)) x.slots
    ctl := (List.range 256).foldl (fun m k =>
      if slotEnable (polSlot p k) && !slotEnable (polSlot old k) then
        SMap.put ctlZero m k (ctlWith (SMap.get ctlZero m k) (levelsOf (x.slot k))) else m) x.ctl }

/-- Slot writes that waited for the MK: the form and FULL (01 R23). -/
def CtxSt.takeSlotWrites (x : CtxSt) : CtxSt :=
  { x with slots := x.slotWrites.foldl (fun m e => SMap.put 0 m e.1 (setFld (SMap.get 0 m e.1) 4 0 (fld e.2 4 0))) x.slots
           slotWrites := [] }

/-- What the controller does at an MK: `bs` are the reduced records, `gone` the reduced pool retirement map. -/
def State.fallbackAtMk (s : State) (c : Ctx) (step : Nat) (isClean : Bool) (bs : Bytes) (gone : List Nat) : State :=
  match s.ctx c with
  | none => s
  | some x =>
    let x := x.takeSlotWrites
    let base := polHbmBase x.policyNow
    let x := match x.policyNext with | some p => x.install p | none => x
    let p := x.policyNow
    let gone := if polHbmBase p = base then gone else []
    let x := { x with reduced := bs, reducedStep := step }
    let s := s.setCtx c (some x)
    if !isClean then s.updCtx c fun x => { x with reducedCtl := x.ctl }
    else
      let gone := (x.reducedMap ++ gone).eraseDups
      -- streaks of every slot
      let marked := (List.range 256).foldl (fun (acc : SMap SlotCtl × List (Nat × Nat × Nat)) k =>
        let e := polSlot p k
        let q := SMap.get ctlZero acc.1 k
        let (q, r) := if slotRole e = 2 then ctlSilence q p bs k else (q, none)
        let q := if slotEnable e then ctlStreak q p bs k else q
        (SMap.put ctlZero acc.1 k q, match r with | some (kind, n) => acc.2 ++ [(kind, k, n)] | none => acc.2)) (x.ctl, [])
      let q := if polEn p then decide_ p gone marked.1 x.chunks
        else { ctl := marked.1, chunks := x.chunks, changed := [], granted := [], demoted := [], held := [], stop := false }
      let slots := q.changed.eraseDups.foldl (fun m k =>
        SMap.put 0 m k (slotWith (SMap.get 0 m k) (ctlLevels (q.get k)) (slotFullEn (polSlot p k)))) x.slots
      let cancelled := x.halt && q.held.isEmpty
      let s := s.updCtx c fun x => { x with
        slots := slots, ctl := q.ctl, chunks := q.chunks, reducedMap := gone, reducedCtl := q.ctl
        halt := !q.held.isEmpty && (polHalt p || x.halt) }
      let sp := freeSp p q.chunks
      let hbm := freeHbm p q.chunks gone
      let one := fun (s : State) (kind : Nat) (ks : List Nat) => if ks.isEmpty then s else s.fallbackRecord c step kind 0 sp hbm (slotBits ks)
      let s := one s 1 q.granted
      let s := one s 2 q.demoted
      let s := one s 3 q.held
      let s := marked.2.foldl (fun st e => st.fallbackRecord c step e.1 e.2.2 sp hbm (2 ^ e.2.1)) s
      if cancelled then s.fallbackRecord c step 6 0 sp hbm 0 else s

/-- A HALT that was armed at the MK before takes effect: not every due promotion is granted at this one (07 R170). -/
def haltsNow (armed isClean held : Bool) : Bool := armed && (!isClean || held)

end Sys2Proof.Machine
end

