-- ==== Sys2Proof/Machine/Sha.lean ====
section
/-! DEFINITION. SHA-512, and the check of an RSA-4096 signature of RSASSA-PKCS1-v1_5 with public exponent 65,537
(16 R390). -/
namespace Sys2Proof.Machine

/-! ### SHA-512 -/

/-- n words of 64 bits packed into a number, the first word most significant. -/
def unpack64 (n v : Nat) : List (BitVec 64) := (List.range n).map fun i => BitVec.ofNat 64 (v >>> (64 * (n - 1 - i)))

/-- Round constants 0 to 7. -/
def roundWords0 : Nat :=
  0x428a2f98d728ae227137449123ef65cdb5c0fbcfec4d3b2fe9b5dba58189dbbc3956c25bf348b53859f111f1b605d019923f82a4af194f9bab1c5ed5da6d8118
/-- Round constants 8 to 15. -/
def roundWords1 : Nat :=
  0xd807aa98a303024212835b0145706fbe243185be4ee4b28c550c7dc3d5ffb4e272be5d74f27b896f80deb1fe3b1696b19bdc06a725c71235c19bf174cf692694
/-- Round constants 16 to 23. -/
def roundWords2 : Nat :=
  0xe49b69c19ef14ad2efbe4786384f25e30fc19dc68b8cd5b5240ca1cc77ac9c652de92c6f592b02754a7484aa6ea6e4835cb0a9dcbd41fbd476f988da831153b5
/-- Round constants 24 to 31. -/
def roundWords3 : Nat :=
  0x983e5152ee66dfaba831c66d2db43210b00327c898fb213fbf597fc7beef0ee4c6e00bf33da88fc2d5a79147930aa72506ca6351e003826f142929670a0e6e70
/-- Round constants 32 to 39. -/
def roundWords4 : Nat :=
  0x27b70a8546d22ffc2e1b21385c26c9264d2c6dfc5ac42aed53380d139d95b3df650a73548baf63de766a0abb3c77b2a881c2c92e47edaee692722c851482353b
/-- Round constants 40 to 47. -/
def roundWords5 : Nat :=
  0xa2bfe8a14cf10364a81a664bbc423001c24b8b70d0f89791c76c51a30654be30d192e819d6ef5218d69906245565a910f40e35855771202a106aa07032bbd1b8
/-- Round constants 48 to 55. -/
def roundWords6 : Nat :=
  0x19a4c116b8d2d0c81e376c085141ab532748774cdf8eeb9934b0bcb5e19b48a8391c0cb3c5c95a634ed8aa4ae3418acb5b9cca4f7763e373682e6ff3d6b2b8a3
/-- Round constants 56 to 63. -/
def roundWords7 : Nat :=
  0x748f82ee5defb2fc78a5636f43172f6084c87814a1f0ab728cc702081a6439ec90befffa23631e28a4506cebde82bde9bef9a3f7b2c67915c67178f2e372532b
/-- Round constants 64 to 71. -/
def roundWords8 : Nat :=
  0xca273eceea26619cd186b8c721c0c207eada7dd6cde0eb1ef57d4f7fee6ed17806f067aa72176fba0a637dc5a2c898a6113f9804bef90dae1b710b35131c471b
/-- Round constants 72 to 79. -/
def roundWords9 : Nat :=
  0x28db77f523047d8432caab7b40c724933c9ebe0a15c9bebc431d67c49c100d4c4cc5d4becb3e42b6597f299cfc657e2a5fcb6fab3ad6faec6c44198c4a475817

def shaConstants : List (BitVec 64) :=
  [roundWords0, roundWords1, roundWords2, roundWords3, roundWords4, roundWords5, roundWords6, roundWords7, roundWords8,
    roundWords9].flatMap (unpack64 8)

/-- The initial hash value. -/
def shaInit : List (BitVec 64) :=
  unpack64 8
    0x6a09e667f3bcc908bb67ae8584caa73b3c6ef372fe94f82ba54ff53a5f1d36f1510e527fade682d19b05688c2b3e6c1f1f83d9abfb41bd6b5be0cd19137e2179

/-- Exclusive or of a word's rotations to the right. -/
def rotations (rs : List Nat) (x : BitVec 64) : BitVec 64 := rs.foldl (fun y r => y ^^^ x.rotateRight r) 0

/-- Bit by bit, `y` where the mask has 1 and `z` where it has 0. -/
def bitChoose (mask y z : BitVec 64) : BitVec 64 := z ^^^ (mask &&& (y ^^^ z))

/-- Bit by bit, what two of three words or more hold. -/
def bitMajority (x y z : BitVec 64) : BitVec 64 := bitChoose (x ^^^ y) z x

/-- One round on the eight working variables; `kw` is the sum of its constant and its schedule word. -/
def shaRound (h : List (BitVec 64)) (kw : BitVec 64) : List (BitVec 64) :=
  let v := fun (i : Nat) => h.getD i 0
  let t := kw + v 7 + bitChoose (v 4) (v 5) (v 6) + rotations [14, 18, 41] (v 4)
  let top := t + rotations [28, 34, 39] (v 0) + bitMajority (v 0) (v 1) (v 2)
  top :: (h.take 7).set 3 (v 3 + t)

/-- The schedule's next word from the last sixteen, oldest first. -/
def shaNext (w : List (BitVec 64)) : BitVec 64 :=
  let v := fun (i : Nat) => w.getD i 0
  v 0 + (rotations [1, 8] (v 1) ^^^ (v 1 >>> 7)) + v 9 + (rotations [19, 61] (v 14) ^^^ (v 14 >>> 6))

/-- The rounds of the given constants. -/
def shaRounds : List (BitVec 64) → List (BitVec 64) → List (BitVec 64) → List (BitVec 64)
  | [], _, h => h
  | k :: ks, w, h => shaRounds ks (w.drop 1 ++ [shaNext w]) (shaRound h (k + w.headD 0))

/-- Compresses one 128-byte block. -/
def shaBlock (h : List (BitVec 64)) (block : Bytes) : List (BitVec 64) :=
  let w := (List.range 16).map fun i => BitVec.ofNat 64 (beNat ((block.drop (8 * i)).take 8))
  List.zipWith (· + ·) h (shaRounds shaConstants w h)

/-- The message with its padding. -/
def shaPad (m : Bytes) : Bytes :=
  m ++ [0x80] ++ List.replicate ((128 - (m.length + 17) % 128) % 128) 0 ++ beBytes 16 (8 * m.length)

def shaBlocks : Nat → Bytes → List (BitVec 64) → List (BitVec 64)
  | 0, _, h => h
  | n + 1, m, h => shaBlocks n (m.drop 128) (shaBlock h (m.take 128))

/-- The SHA-512 digest, 64 bytes. -/
def sha512 (m : Bytes) : Bytes :=
  let p := shaPad m
  (shaBlocks (p.length / 128) p shaInit).flatMap fun w => beBytes 8 w.toNat

/-- The first n bytes of a digest as a number, the first byte lowest (00 R9). -/
def digestNat (n : Nat) (m : Bytes) : Nat := leNat ((sha512 m).take n)

/-! ### Signatures -/

def squareTimes (n : Nat) : Nat → Nat → Nat
  | 0, x => x
  | k + 1, x => squareTimes n k (x * x % n)

/-- The encoded message that a signature must open to: 512 bytes, most significant first. -/
def encodedMessage (m : Bytes) : Bytes :=
  let info : Bytes := [0x30, 0x51, 0x30, 0x0d, 0x06, 0x09, 0x60, 0x86, 0x48, 0x01, 0x65, 0x03, 0x04, 0x02, 0x03, 0x05, 0x00, 0x04, 0x40]
  let t := info ++ sha512 m
  [0x00, 0x01] ++ List.replicate (509 - t.length) 0xFF ++ [0x00] ++ t

/-- The signature over m verifies under the modulus; both are octet strings, first octet most significant (16 R390). -/
def verifies (modulus signature m : Bytes) : Bool :=
  let n := beNat modulus
  let s := beNat signature
  s < n && squareTimes n 16 s * s % n = beNat (encodedMessage m)

end Sys2Proof.Machine
end

