-- ==== Sys2Proof/Machine/Tally.lean ====
section
/-! DEFINITION. Tally dumps, bandwidth windows and the daily count record (13 R324, R330, R331; Table 13.13). -/
namespace Sys2Proof.Machine

/-- TALLY_PERIOD: a die that has taken no tally for TALLY_PERIOD_US latches one. -/
def execTallyPeriod (d : Die) (s : State) : Out :=
  let since := match (s.die d).lastTally with | some t => s.now - t | none => s.now
  if s.dieInService d && s.ledger.tallyPeriodUs ≤ since then .next (s.latchTally d 2 (s.stepOf none)) else .next s

/-- A datagram with its header (13 Table 13.15): takes the next DGRAM_SEQ. -/
def State.makeDatagram (s : State) (prio : Nat) (dest : Option (BitVec 128)) (kind index segs slot : Nat) (payload : Bytes) : Datagram × State :=
  let n := s.ledger.dgramSeq
  let hdr := leBytes 32 (packNat [(0x5752, 16), (1, 4), (kind, 2), (0, 2), (index, 8), (segs, 8), (slot, 4), (0, 4), (payload.length, 16),
    (s.fuses.deviceId.toNat, 64), (n, 64), (s.bootSt.bootCount.toNat, 32)])
  ({ seq := n, priority := prio, dest := dest, bytes := hdr ++ payload }, { s with ledger := { s.ledger with dgramSeq := n + 1 } })

/-- Queues a datagram of D19 (13 R342): a full queue drops the newest tally datagrams, then rolling ones. -/
def State.queueDatagram (s : State) (g : Datagram) : State :=
  let used := (s.ledger.send.map (·.bytes.length)).foldl (· + ·) 0
  if used + g.bytes.length ≤ 4194304 then { s with ledger := { s.ledger with send := s.ledger.send ++ [g] } }
  else
    let pick := fun (p : Nat) => (s.ledger.send.zipIdx.filter (fun e => e.1.priority = p)).getLast?.map (·.2)
    let s := s.count 19 0xA06 0 none
    if g.priority = 3 then s
    else match pick 3, (if g.priority = 2 then none else pick 2) with
      | some i, _ => { s with ledger := { s.ledger with send := s.ledger.send.eraseIdx i ++ [g] } }
      | none, some i => { s with ledger := { s.ledger with send := s.ledger.send.eraseIdx i ++ [g] } }
      | none, none => s

/-- Some collector is configured (13 R340). -/
def State.pushes (s : State) : Bool := s.flash.collectors.toList.any (·.enable)

/-- Datagram forms of a run of bytes: kind, index, segments, slot, payload. A record goes whole or in segments of 1,408
bytes, a capture always in segments (13 R341). -/
def datagramForms (capture : Option Nat) (r : Bytes) : List (Nat × Nat × Nat × Nat × Bytes) :=
  if capture.isNone && r.length ≤ 1408 then [(0, 1, 0, 0, r)]
  else
    let n := ceilDiv r.length 1408
    (List.range n).map fun i => (if capture.isSome then 2 else 1, i, n, capture.getD 0, (r.drop (1408 * i)).take 1408)

/-- A record pushed to the collectors (13 R340, R341). -/
def State.sendRecord (s : State) (prio : Nat) (r : Bytes) : State :=
  (datagramForms none r).foldl (fun st f =>
    let (g, st) := st.makeDatagram prio none f.1 f.2.1 f.2.2.1 f.2.2.2.1 f.2.2.2.2
    st.queueDatagram g) s

/-- TALLY_DUMP: a full tally buffer becomes a TALLY record, for the host's ring and the network, and is freed. -/
def execTallyDump (d : Die) (s : State) : Out :=
  match (s.die d).tallies with
  | [] => .next s
  | t :: rest =>
    let s := s.updDie d fun x => { x with tallies := rest }
    let (r, s) := s.makeRec d 0x10 2 false (if t.ctx = 0xFF then none else some t.step) (if t.ctx = 0xFF then none else some t.ctx) t.body
    let s := match s.ledger.tallyRing with
      | some ring =>
        let (ring, _, s) := s.hostRingPush ring 6144 r
        { s with ledger := { s.ledger with tallyRing := some ring } }
      | none => s
    let s := s.count d 0x904 13 none
    .next (if s.pushes then s.sendRecord 3 r else s)

/-- The window's units: counted at a port and at a stack; of a die edge and of the host link, whose traffic no command of the
model moves byte by byte, the command's own (log 131). -/
def BwWin.units (b : BwWin) (i : Fin 5) (tx rx : BitVec 32) : BitVec 32 × BitVec 32 :=
  if i.val < 2 then (BitVec.ofNat 32 b.txNow, BitVec.ofNat 32 b.rxNow) else (tx, rx)

/-- BW_WINDOW_END: a window of a bandwidth instance completes with its units, and the next one begins. -/
def execBwWindowEnd (d : Die) (i : Fin 5) (tx rx : BitVec 32) (s : State) : Out :=
  if hasBw d i then
    .next (s.updDie d fun x =>
      let b := x.bw[i]
      let (tx, rx) := b.units i tx rx
      let b' : BwWin := { b with txLast := tx, rxLast := rx, txPeak := BitVec.ofNat 32 (Nat.max b.txPeak.toNat tx.toNat)
                                 rxPeak := BitVec.ofNat 32 (Nat.max b.rxPeak.toNat rx.toNat)
                                 windows := BitVec.ofNat 32 (satAdd 32 b.windows.toNat 1), txNow := 0, rxNow := 0 }
      { x with bw := x.bw.set i b' })
  else .next s

/-- LIFETIME_RECORD: a die's daily record of its aggregate counters (13 Table 13.13, TYPE 0x0E). -/
def execLifetimeRecord (d : Die) (s : State) : Out :=
  let n := s.freeCtr
  let s := { s with freeCtr := n + 4 }
  .next (s.log d 0x0E 0 none false (tallyHead 0 0 n ++ (s.die d).aggregateImage))

end Sys2Proof.Machine
end

