-- ==== Sys2Proof/Machine/Approx.lean ====
section
/-! DEFINITION. The functions that 05 Table 5.2 and 06 R136 bound and do not fix: each exact value to 512 fraction bits, and a
free value that the bound holds (log 6). -/
namespace Sys2Proof.Machine

/-! ### Fixed point with 512 fraction bits -/

def fxOne : Int := 2 ^ 512
def fxMul (a b : Int) : Int := a * b / fxOne
def fxDiv (a b : Int) : Int := a * fxOne / b
def fxRat (num den : Nat) : Int := (num : Int) * fxOne / (den : Int)

/-- An FP32 value, which has no bit below 2^-149; 0 for an infinity or a NaN. -/
def fxOf (a : BitVec 32) : Int := (valF a).scaleTo (-512)

/-- √v of a value that is not negative. -/
def fxSqrt (v : Int) : Int :=
  let n := v.toNat * 2 ^ 512
  let k := Nat.log2 (n + 1) / 2 + 1
  (((List.range (k + 1)).foldl (fun acc i => let t := acc + 2 ^ (k - i); if t * t ≤ n then t else acc) 0 : Nat) : Int)

/-- Sum of n terms, each made from the one before. -/
def fxSeries (next : Nat → Int → Int) (n : Nat) (first : Int) : Int :=
  ((List.range n).foldl (fun (acc : Int × Int) i => (acc.1 + acc.2, next i acc.2)) (0, first)).1

/-- Σ z^(2i+1) / (2i+1), for |z| ≤ 1/3: the inverse hyperbolic tangent. -/
def fxAtanh (z : Int) : Int :=
  let z2 := fxMul z z
  ((List.range 200).foldl (fun (acc : Int × Int) i => (acc.1 + acc.2 / (2 * i + 1 : Nat), fxMul acc.2 z2)) (0, z)).1

/-- Σ (−1)^i z^(2i+1) / (2i+1), for |z| ≤ 1/5: the inverse tangent. -/
def fxAtan (z : Int) : Int :=
  let z2 := fxMul z z
  ((List.range 200).foldl (fun (acc : Int × Int) i =>
    (if i % 2 = 0 then acc.1 + acc.2 / (2 * i + 1 : Nat) else acc.1 - acc.2 / (2 * i + 1 : Nat), fxMul acc.2 z2)) (0, z)).1

def fxLn2 : Int := 2 * fxAtanh (fxRat 1 3)
def fxPi : Int := 16 * fxAtan (fxRat 1 5) - 4 * fxAtan (fxRat 1 239)

/-- e^v; 0 from −240 down, where it lies below 2^-340, and e^240 from there up. -/
def fxExp (v : Int) : Int :=
  if v ≤ -240 * fxOne then 0
  else
    let v := min v (240 * fxOne)
    let k := v / fxLn2
    let r := v - k * fxLn2
    let e := fxSeries (fun i t => fxMul t r / (i + 1 : Nat)) 120 fxOne
    if k < 0 then e / ((2 ^ (-k).toNat : Nat) : Int) else e * ((2 ^ k.toNat : Nat) : Int)

/-- ln v of a positive value. -/
def fxLog (v : Int) : Int :=
  let k : Int := (Nat.log2 v.toNat : Int) - 512
  let m := if k < 0 then v * ((2 ^ (-k).toNat : Nat) : Int) else v / ((2 ^ k.toNat : Nat) : Int)
  k * fxLn2 + 2 * fxAtanh (fxDiv (m - fxOne) (m + fxOne))

/-- 1/(1 + e^−v). -/
def fxSigmoid (v : Int) : Int :=
  let q := fxExp (if v < 0 then v else -v)
  if v < 0 then fxDiv q (fxOne + q) else fxDiv fxOne (fxOne + q)

/-- tanh v. -/
def fxTanh (v : Int) : Int :=
  let q := fxExp (if v < 0 then 2 * v else -2 * v)
  let t := fxDiv (fxOne - q) (fxOne + q)
  if v < 0 then -t else t

/-- Φ(v): one half and the density times Σ v^(2i+1) / (2i+1)!!; 0 or 1 beyond 20, to 2^-288. -/
def fxPhi (v : Int) : Int :=
  if v ≤ -20 * fxOne then 0
  else if 20 * fxOne ≤ v then fxOne
  else
    let v2 := fxMul v v
    let density := fxDiv (fxExp (-(v2 / 2))) (fxSqrt (2 * fxPi))
    fxOne / 2 + fxMul density (fxSeries (fun i t => fxMul t v2 / (2 * i + 3 : Nat)) 1400 v)

/-- b^n for 0 ≤ b ≤ 1, by squaring; the bits of n from the lowest. -/
def fxPow : Nat → Int → Nat → Int
  | 0, _, _ => fxOne
  | f + 1, b, n =>
    if n = 0 then fxOne
    else
      let rest := fxPow f (fxMul b b) (n / 2)
      if n % 2 = 1 then fxMul b rest else rest

/-! ### Values within a bound -/

/-- The FP32 value nearest to a fixed-point one. -/
def fxRound (v : Int) : BitVec 32 := dyadF32 false { m := v, e := -512 }

/-- One unit in the last place that FP32 gives a magnitude. -/
def fxUlp (v : Int) : Int :=
  let q : Int := max (-149) ((Nat.log2 v.natAbs : Int) - 512 - 23)
  ((2 ^ (512 + q).toNat : Nat) : Int)

/-- The finite value lies within k units of the last place of v, or within 2^-140 where that is a bound too. The fixed point's own
error, less than 2^-200, is allowed on top. -/
def withinUlps (k : Nat) (abs140 : Bool) (v : Int) (a : BitVec 32) : Bool :=
  let dist : Int := ((fxOf a - v).natAbs : Nat)
  isFiniteF a && decide (dist ≤ max (k * fxUlp v) (if abs140 then 2 ^ 372 else 0) + 2 ^ 312)

/-- A free value inside its bound: the configuration's where it lies there, else the nearest one. -/
def bounded (k : Nat) (abs140 : Bool) (v : Int) (free : BitVec 32) : BitVec 32 := if withinUlps k abs140 v free then free else fxRound v

/-- A function that 05 Table 5.2 bounds, of an operand for which no special result is stated. At an infinity tanh and sigmoid
keep to the bound of their limits, and what GELU and SiLU give is open (log 6). -/
def approxFunc (rev : BitVec 8) (func : Nat) (a : BitVec 32) : BitVec 32 :=
  let v := if isFiniteF a then fxOf a else if a.getLsbD 31 then -240 * fxOne else 240 * fxOne
  let free := Config.vxFunc rev func a
  match func with
  | 0 => bounded 1 false (fxExp v) free
  | 1 => bounded 1 false (fxLog v) free
  | 3 => bounded 1 false (fxSqrt (fxDiv fxOne v)) free
  | 5 => bounded 2 false (fxTanh v) free
  | 6 => bounded 2 false (fxSigmoid v) free
  | 7 => if isFiniteF a then bounded 2 true (fxMul v (fxPhi v)) free else free
  | 8 => if isFiniteF a then bounded 2 true (fxMul v (fxSigmoid v)) free else free
  | _ => free

/-- b^n of 06 R136 within 1 ulp, for BETA1 and BETA2, which lie in [0, 1). -/
def approxPow (rev : BitVec 8) (b : BitVec 32) (n : Nat) : BitVec 32 := bounded 1 false (fxPow 65 (fxOf b) n) (Config.powN rev b n)

end Sys2Proof.Machine
end

