-- ==== Sys2Proof/Machine/Vector.lean ====
section
/-! DEFINITION. The vector engine: elementwise operations, row and column reductions, masks, top-k, generators, table and
key-value products (05 R102 to R127, R424). -/
namespace Sys2Proof.Machine

/-! ### Body fields (05 Table 5.6) -/

def vxA (w : IWord) : Nat := fld w 75 64
def vxB (w : IWord) : Nat := fld w 87 76
def vxC (w : IWord) : Nat := fld w 99 88
def vxDst (w : IWord) : Nat := fld w 111 100
def vxAux (w : IWord) : Nat := fld w 123 112
def vxFn (w : IWord) : Nat := fld w 127 124
def vxAxis (w : IWord) : Bool := bit w 128
def vxFree (w : IWord) : Bool := bit w 129
def vxAuxEn (w : IWord) : Bool := bit w 130
def vxSalt (w : IWord) : Nat := fld w 139 132
def vxCount (w : IWord) : Nat := fld w 148 140
def vxWindow (w : IWord) : Nat := fld w 159 152
def vxKeep (w : IWord) : Nat := fld w 175 160
def vxImm (w : IWord) : BitVec 32 := BitVec.ofNat 32 (fld w 207 176)
def vxRowBase (w : IWord) : Nat := fld w 231 208
def vxColBase (w : IWord) : Nat := fld w 255 232

/-- A field of the VX body that an operation may use. -/
inductive VxField where
  | a | b | c | dst | aux | func | axis | rng | auxEn | salt | count | window | keep | imm | rowBase | colBase
  deriving DecidableEq, Repr

def VxField.span : VxField → Nat × Nat
  | .a => (75, 64)
  | .b => (87, 76)
  | .c => (99, 88)
  | .dst => (111, 100)
  | .aux => (123, 112)
  | .func => (127, 124)
  | .axis => (128, 128)
  | .rng => (129, 129)
  | .auxEn => (130, 130)
  | .salt => (139, 132)
  | .count => (148, 140)
  | .window => (159, 152)
  | .keep => (175, 160)
  | .imm => (207, 176)
  | .rowBase => (231, 208)
  | .colBase => (255, 232)

def vxFields : List VxField :=
  [.a, .b, .c, .dst, .aux, .func, .axis, .rng, .auxEn, .salt, .count, .window, .keep, .imm, .rowBase, .colBase]

/-- Every field the operation does not use is 0, and so is every reserved bit (05 R127). -/
def vxOnly (w : IWord) (used : List VxField) : Bool :=
  fld w 131 131 = 0 && fld w 151 149 = 0 &&
    vxFields.all fun f => used.contains f || fld w f.span.1 f.span.2 = 0

/-! ### Results before their rounding (05 R103) -/

/-- A result before it is rounded: NaN, an infinity, or an exact value and the sign that an exact zero takes. -/
inductive Res where
  | nan
  | inf (neg : Bool)
  | val (zneg : Bool) (x : Dyad)
  deriving DecidableEq, Repr

def Res.ofWord (w : BitVec 32) : Res :=
  match decF32 w with
  | .nan => .nan
  | .inf s => .inf s
  | .fin s _ _ => .val s (valF w)

def resAdd (a b : BitVec 32) : Res :=
  match decF32 a, decF32 b with
  | .nan, _ => .nan
  | _, .nan => .nan
  | .inf s, .inf t => if s = t then .inf s else .nan
  | .inf s, _ => .inf s
  | _, .inf t => .inf t
  | .fin s _ _, .fin t _ _ => .val (s && t) ((valF a).add (valF b))

def resSub (a b : BitVec 32) : Res := if isNanF b then .nan else resAdd a (fneg b)

def resMul (a b : BitVec 32) : Res :=
  match decF32 a, decF32 b with
  | .nan, _ => .nan
  | _, .nan => .nan
  | .inf s, .inf t => .inf (s != t)
  | .inf s, .fin t m _ => if m = 0 then .nan else .inf (s != t)
  | .fin s m _, .inf t => if m = 0 then .nan else .inf (s != t)
  | .fin s _ _, .fin t _ _ => .val (s != t) ((valF a).mul (valF b))

def resFma (a b c : BitVec 32) : Res :=
  match resMul a b, Res.ofWord c with
  | .nan, _ => .nan
  | _, .nan => .nan
  | .inf s, .inf t => if s = t then .inf s else .nan
  | .inf s, _ => .inf s
  | _, .inf t => .inf t
  | .val s x, .val t y => .val (s && t) (x.add y)

/-- Bits in FP32 or BF16 after one rounding. -/
def Res.bits (fmt : Nat) : Res → Nat
  | .nan => nanBits fmt
  | .inf s => if fmt = 1 then (if s then 0xFF80 else 0x7F80) else (f32Inf s).toNat
  | .val z x => if x.m = 0 then (if z then (if fmt = 1 then 0x8000 else 0x80000000) else 0) else dyadWide fmt x

/-! ### Opening operands -/

/-- A standalone tensor in scratchpad in one of the formats (05 R102). A descriptor that is both outside the context's ranges
and outside scratchpad raises the context fault, which `resolve` meets first: DESIGN CHOICE, log 126. -/
def vxOpen (idx : Nat) (fmts : List Nat) : Exec Tensor := do
  let t ← resolve idx { fmts := fmts }
  shapeIf (t.q.loc = 1) idx
  pure t

/-- Rows and row length agree, of empty tensors too (05 R127). -/
def Tensor.sized (t : Tensor) (rows n : Nat) : Bool := t.q.rowsN = rows && t.q.e0 = n

/-- Elements of a wide tensor; a non-finite one that is not poison sets the flag (05 R105). Poisoned data have no value to
look at, so bits inside them set no flag: DESIGN CHOICE, log 126. -/
def vxRead (t : Tensor) : Exec (List (List PElem)) := do
  let es ← readElems t
  if wideFmts.contains t.q.fmt then
    setNonfinite (es.any fun r => r.any fun e => !e.2 && !wideFinite t.q.fmt e.1)
  pure es

def vxVals (t : Tensor) : Exec (List (List PVal)) := do
  return (← vxRead t).map fun r => r.map fun e => (wideToF32 t.q.fmt e.1, e.2)

/-- B or C of an elementwise operation: a tensor of A's shape, or a vector for every row (05 Table 5.1). -/
def vxBroadcast (idx rows n : Nat) : Exec (Tensor × List (List PVal)) := do
  let t ← vxOpen idx wideFmts
  shapeIf (t.sized rows n || t.sized 1 n) idx
  let v ← vxVals t
  pure (t, if t.sized rows n then v else List.replicate rows (v.headD []))

/-- A further operand of exactly these rows and length. -/
def vxSame (idx rows n : Nat) (fmts : List Nat) : Exec Tensor := do
  let t ← vxOpen idx fmts
  shapeIf (t.sized rows n) idx
  pure t

/-- Counts output elements (13 event 0x301). -/
def vxCountOut (w : IWord) (n : Nat) : Exec Unit := countE 0x301 (fld w 11 4) n

/-- Writes bits in the tensor's own format. -/
def vxWriteBits (w : IWord) (t : Tensor) (rows : List (List PElem)) : Exec Unit := do
  if wideFmts.contains t.q.fmt then
    setNonfinite (rows.any fun r => r.any fun e => !e.2 && !wideFinite t.q.fmt e.1)
  writeElems t rows
  vxCountOut w t.q.elems

/-- Writes FP32 values, converted to the tensor's format. -/
def vxWriteVals (w : IWord) (t : Tensor) (rows : List (List PVal)) : Exec Unit :=
  vxWriteBits w t (rows.map fun r => r.map fun v => (f32ToWide t.q.fmt v.1, v.2))

/-- The auxiliary output, output 1. -/
def vxWriteAux (w : IWord) (t : Tensor) (rows : List (List PElem)) : Exec Unit := onOutput 1 (vxWriteBits w t rows)

def anyPoison (l : List (BitVec 32 × Bool)) : Bool := l.any (·.2)

def vxEngine (d : Die) (c : Ctx) (w : IWord) (x : Phys) (op : Nat) (ok : Bool) (body : Exec Unit) (s : State) : Out :=
  engine d c w 3 op 4 0 x (fun _ _ => ok) body s

/-! ### Elementwise operations (05 Table 5.1, R103) -/

def zip3 {α β γ : Type} (a : List α) (b : List β) (c : List γ) : List (α × β × γ) := List.zip a (List.zip b c)

/-- One operand. `all16` picks the BF16 lanes. -/
def unary (w : IWord) (f : BitVec 32 → Res) : Exec Unit := do
  let a ← vxOpen (vxA w) wideFmts
  let dst ← vxSame (vxDst w) a.q.rowsN a.q.e0 wideFmts
  let xs ← vxVals a
  let all16 := a.q.fmt = 1 && dst.q.fmt = 1
  let bits := fun (r : Res) => if all16 then r.bits 1 else f32ToWide dst.q.fmt (BitVec.ofNat 32 (r.bits 0))
  vxWriteBits w dst (xs.map fun row => row.map fun x => (bits (f x.1), x.2))

def binary (w : IWord) (f : BitVec 32 → BitVec 32 → Res) : Exec Unit := do
  let a ← vxOpen (vxA w) wideFmts
  let dst ← vxSame (vxDst w) a.q.rowsN a.q.e0 wideFmts
  let xs ← vxVals a
  let (b, ys) ← vxBroadcast (vxB w) a.q.rowsN a.q.e0
  let all16 := a.q.fmt = 1 && b.q.fmt = 1 && dst.q.fmt = 1
  let bits := fun (r : Res) => if all16 then r.bits 1 else f32ToWide dst.q.fmt (BitVec.ofNat 32 (r.bits 0))
  vxWriteBits w dst ((List.zip xs ys).map fun (r, q) => (List.zip r q).map fun (x, y) => (bits (f x.1 y.1), x.2 || y.2))

def ternary (w : IWord) (f : BitVec 32 → BitVec 32 → BitVec 32 → Res) : Exec Unit := do
  let a ← vxOpen (vxA w) wideFmts
  let dst ← vxSame (vxDst w) a.q.rowsN a.q.e0 wideFmts
  let xs ← vxVals a
  let (b, ys) ← vxBroadcast (vxB w) a.q.rowsN a.q.e0
  let (c, zs) ← vxBroadcast (vxC w) a.q.rowsN a.q.e0
  let all16 := a.q.fmt = 1 && b.q.fmt = 1 && c.q.fmt = 1 && dst.q.fmt = 1
  let bits := fun (r : Res) => if all16 then r.bits 1 else f32ToWide dst.q.fmt (BitVec.ofNat 32 (r.bits 0))
  vxWriteBits w dst ((zip3 xs ys zs).map fun (p, q, r) => (zip3 p q r).map fun (x, y, z) => (bits (f x.1 y.1 z.1), x.2 || y.2 || z.2))

def execVxAdd (d : Die) (c : Ctx) (w : IWord) (x : Phys) (s : State) : Out :=
  vxEngine d c w x 0x01 (vxOnly w [.a, .b, .dst]) (binary w resAdd) s

def execVxSub (d : Die) (c : Ctx) (w : IWord) (x : Phys) (s : State) : Out :=
  vxEngine d c w x 0x02 (vxOnly w [.a, .b, .dst]) (binary w resSub) s

def execVxMul (d : Die) (c : Ctx) (w : IWord) (x : Phys) (s : State) : Out :=
  vxEngine d c w x 0x03 (vxOnly w [.a, .b, .dst]) (binary w resMul) s

def execVxFma (d : Die) (c : Ctx) (w : IWord) (x : Phys) (s : State) : Out :=
  vxEngine d c w x 0x04 (vxOnly w [.a, .b, .c, .dst]) (ternary w resFma) s

def execVxMax (d : Die) (c : Ctx) (w : IWord) (x : Phys) (s : State) : Out :=
  vxEngine d c w x 0x05 (vxOnly w [.a, .b, .dst]) (binary w fun a b => .ofWord (fmax a b)) s

def execVxMin (d : Die) (c : Ctx) (w : IWord) (x : Phys) (s : State) : Out :=
  vxEngine d c w x 0x06 (vxOnly w [.a, .b, .dst]) (binary w fun a b => .ofWord (fmin a b)) s

def execVxScale (d : Die) (c : Ctx) (w : IWord) (x : Phys) (s : State) : Out :=
  vxEngine d c w x 0x07 (vxOnly w [.a, .dst, .imm]) (unary w fun a => resMul a (vxImm w)) s

/-- VX.CONVERT: each value in DST's format (02 R37 to R39). -/
def convertBody (w : IWord) : Exec Unit := do
  let a ← vxOpen (vxA w) wideFmts
  let dst ← vxSame (vxDst w) a.q.rowsN a.q.e0 wideFmts
  vxWriteVals w dst (← vxVals a)

def execVxConvert (d : Die) (c : Ctx) (w : IWord) (x : Phys) (s : State) : Out :=
  vxEngine d c w x 0x08 (vxOnly w [.a, .dst]) (convertBody w) s

/-- The least argument whose exponential lies beyond the largest finite FP32 value. -/
def expOverflow : Nat := 0x42B17218

/-- A function of 05 Table 5.2, with its special results; where the spec states only an error bound, the value is free
within it (log 6). -/
def vxFunc (rev : BitVec 8) (func : Nat) (a : BitVec 32) : BitVec 32 :=
  let neg := a.getLsbD 31
  let inf := !isFiniteF a
  match func with
  | 0 => if isNanF a then f32NaN else if inf then (if neg then 0 else f32Inf false)
         else if !neg && expOverflow ≤ a.toNat then f32Inf false else approxFunc rev 0 a
  | 1 => if isNanF a then f32NaN else if isZeroF a then f32Inf true else if neg then f32NaN
         else if inf then f32Inf false else approxFunc rev 1 a
  | 2 => fdiv 0x3F800000 a
  | 3 => if isNanF a then f32NaN else if isZeroF a then f32Inf neg else if neg then f32NaN
         else if inf then 0 else approxFunc rev 3 a
  | 4 => fsqrt a
  | 9 => if isNanF a then f32NaN else fabs a
  | 10 => if isNanF a then f32NaN else fneg a
  | 11 => fmul a a
  | f => if isNanF a then f32NaN else approxFunc rev f a

/-- VX.FUNC runs on the FP32 lanes whatever the formats (05 R103). -/
def funcBody (w : IWord) : Exec Unit := do
  let rev := (← getS).numericsRev
  let a ← vxOpen (vxA w) wideFmts
  let dst ← vxSame (vxDst w) a.q.rowsN a.q.e0 wideFmts
  let xs ← vxVals a
  vxWriteVals w dst (xs.map fun r => r.map fun v => (vxFunc rev (vxFn w) v.1, v.2))

def execVxFunc (d : Die) (c : Ctx) (w : IWord) (x : Phys) (s : State) : Out :=
  vxEngine d c w x 0x09 (vxOnly w [.a, .dst, .func] && vxFn w ≤ 0xB) (funcBody w) s

/-! ### Reductions (05 R107, R108) -/

def reduceBy (kind : Nat) (l : List (BitVec 32)) : BitVec 32 :=
  match kind with
  | 0 => treeSum l
  | 1 => treeMax l
  | 2 => treeMin l
  | 3 => treeSum (l.map fun v => fmul v v)
  | _ => treeMean l

/-- Row lengths that a row operation accepts (05 R108). -/
def rowLengthOk (n : Nat) : Bool := 1 ≤ n && n ≤ 65536

/-- VX.REDUCE. DST has the results' shape, which the spec does not spell out (DESIGN CHOICE, log 126): of a row reduction A's
rows of one element, of a column reduction EXT2 × EXT3 rows of EXT0. A column without terms gives R107's empty value. -/
def reduceBody (w : IWord) : Exec Unit := do
  let a ← vxOpen (vxA w) wideFmts
  if vxAxis w then
    let dst ← vxSame (vxDst w) (a.q.e2 * a.q.e3) a.q.e0 wideFmts
    let xs ← vxVals a
    let columns : List (List (List PVal)) :=
      if a.q.e1 = 0 then List.replicate (a.q.e2 * a.q.e3) (List.replicate a.q.e0 [])
      else (chunksOf a.q.e1 xs).map (transposeL ((0 : BitVec 32), false))
    vxWriteVals w dst (columns.map fun g => g.map fun col => (reduceBy (vxFn w) (col.map (·.1)), anyPoison col))
  else
    shapeIf (rowLengthOk a.q.e0) (vxA w)
    let dst ← vxSame (vxDst w) a.q.rowsN 1 wideFmts
    let xs ← vxVals a
    vxWriteVals w dst (xs.map fun r => [(reduceBy (vxFn w) (r.map (·.1)), anyPoison r)])

def execVxReduce (d : Die) (c : Ctx) (w : IWord) (x : Phys) (s : State) : Out :=
  vxEngine d c w x 0x10 (vxOnly w [.a, .dst, .func, .axis] && vxFn w ≤ 4) (reduceBody w) s

/-! ### Softmax (05 R109, R110) -/

/-- One row; `keep` holds the elements that are not excluded. -/
def softmaxRow (rev : BitVec 8) (imm : BitVec 32) (xs : List (BitVec 32)) (keep : List Bool) : List (BitVec 32) :=
  let es := List.zip xs keep
  if keep.all (!·) then xs.map fun _ => 0
  else if es.any fun e => e.2 && !isFiniteF e.1 then xs.map fun _ => f32NaN
  else
    let zs := es.map fun e => (fmul e.1 imm, e.2)
    let m := treeMax (zs.map fun z => if z.2 then z.1 else f32Inf true)
    let ex := zs.map fun z => if z.2 then vxFunc rev 0 (fsub z.1 m) else 0
    let sum := treeSum ex
    (List.zip ex keep).map fun e => if e.2 then fdiv e.1 sum else 0

def softmaxBody (w : IWord) : Exec Unit := do
  let rev := (← getS).numericsRev
  let a ← vxOpen (vxA w) wideFmts
  shapeIf (rowLengthOk a.q.e0) (vxA w)
  let dst ← vxSame (vxDst w) a.q.rowsN a.q.e0 wideFmts
  let xs ← vxVals a
  let mask ← (if vxAuxEn w then do
      let b ← vxSame (vxB w) a.q.rowsN a.q.e0 [7]
      readElems b
    else pure (xs.map fun r => r.map fun _ => ((1 : Nat), false)))
  vxWriteVals w dst ((List.zip xs mask).map fun (r, m) =>
    let bad := anyPoison r || m.any (·.2)
    (softmaxRow rev (vxImm w) (r.map (·.1)) (m.map fun e => e.1 = 1)).map fun v => (v, bad))

def execVxSoftmax (d : Die) (c : Ctx) (w : IWord) (x : Phys) (s : State) : Out :=
  vxEngine d c w x 0x11 (vxOnly w ([.a, .dst, .imm, .auxEn] ++ if vxAuxEn w then [.b] else []) &&
    isFiniteF (vxImm w) && !isZeroF (vxImm w)) (softmaxBody w) s

def softmaxBwdBody (w : IWord) : Exec Unit := do
  let a ← vxOpen (vxA w) wideFmts
  shapeIf (rowLengthOk a.q.e0) (vxA w)
  let b ← vxSame (vxB w) a.q.rowsN a.q.e0 wideFmts
  let dst ← vxSame (vxDst w) a.q.rowsN a.q.e0 wideFmts
  let dys ← vxVals a
  let ys ← vxVals b
  vxWriteVals w dst ((List.zip dys ys).map fun (p, q) =>
    let r := treeSum ((List.zip p q).map fun (u, v) => fmul u.1 v.1)
    let bad := anyPoison p || anyPoison q
    (List.zip p q).map fun (u, v) => (fmul v.1 (fsub u.1 r), bad))

def execVxSoftmaxBwd (d : Die) (c : Ctx) (w : IWord) (x : Phys) (s : State) : Out :=
  vxEngine d c w x 0x12 (vxOnly w [.a, .b, .dst]) (softmaxBwdBody w) s

/-! ### Normalisation (05 R111, R112) -/

/-- Mean, rstd and normalised values of a row. -/
def normRow (rev : BitVec 8) (layer : Bool) (eps : BitVec 32) (xs : List (BitVec 32)) : BitVec 32 × BitVec 32 × List (BitVec 32) :=
  let mu := if layer then treeMean xs else 0
  let ds := if layer then xs.map fun x => fsub x mu else xs
  let v := treeMean (ds.map fun x => fmul x x)
  let rstd := vxFunc rev 3 (fadd v eps)
  (mu, rstd, ds.map fun x => fmul x rstd)

def normBody (w : IWord) : Exec Unit := do
  let rev := (← getS).numericsRev
  let layer := vxFn w = 1
  let a ← vxOpen (vxA w) wideFmts
  shapeIf (rowLengthOk a.q.e0) (vxA w)
  let dst ← vxSame (vxDst w) a.q.rowsN a.q.e0 wideFmts
  let aux ← vxSame (vxAux w) a.q.rowsN 2 [0]
  let xs ← vxVals a
  let (_, gs) ← vxBroadcast (vxB w) a.q.rowsN a.q.e0
  let bs : List (List PVal) ← (if layer then do pure (← vxBroadcast (vxC w) a.q.rowsN a.q.e0).2
    else pure (xs.map fun r => r.map fun _ => ((0 : BitVec 32), false)))
  let rows := (zip3 xs gs bs).map fun ((x, g, b) : List PVal × List PVal × List PVal) =>
    let bad := anyPoison x || anyPoison g || anyPoison b
    let (mu, rstd, hs) := normRow rev layer (vxImm w) (x.map fun (e : PVal) => e.1)
    let ys := (zip3 hs g b).map fun ((h, g, b) : BitVec 32 × PVal × PVal) => if layer then ffma h g.1 b.1 else fmul h g.1
    (ys.map fun y => (y, bad), [(mu.toNat, bad), (rstd.toNat, bad)])
  vxWriteVals w dst (rows.map (·.1))
  vxWriteAux w aux (rows.map (·.2))

def execVxNorm (d : Die) (c : Ctx) (w : IWord) (x : Phys) (s : State) : Out :=
  vxEngine d c w x 0x13 (vxOnly w ([.a, .b, .dst, .aux, .func, .imm] ++ if vxFn w = 1 then [.c] else []) && vxFn w ≤ 1 &&
    isFiniteF (vxImm w) && (!(vxImm w).getLsbD 31 || isZeroF (vxImm w))) (normBody w) s

def normBwdBody (w : IWord) : Exec Unit := do
  let layer := vxFn w = 1
  let a ← vxOpen (vxA w) wideFmts
  shapeIf (rowLengthOk a.q.e0) (vxA w)
  let b ← vxSame (vxB w) a.q.rowsN a.q.e0 wideFmts
  let st ← vxSame (vxC w) a.q.rowsN 2 [0]
  let dst ← vxSame (vxDst w) a.q.rowsN a.q.e0 wideFmts
  let aux : Option Tensor ← (if vxAuxEn w then do pure (some (← vxSame (vxAux w) a.q.rowsN a.q.e0 wideFmts)) else pure none)
  let dys ← vxVals a
  let xs ← vxVals b
  let stats ← vxVals st
  let (_, gs) ← vxBroadcast (vxC w + 1) a.q.rowsN a.q.e0
  let rows := (List.zip (List.zip dys xs) (List.zip stats gs)).map fun (((dy, x), (st, g)) : (List PVal × List PVal) × (List PVal × List PVal)) =>
    let bad := anyPoison dy || anyPoison x || anyPoison st || anyPoison g
    let mu := (st.getD 0 (0, false)).1
    let rstd := (st.getD 1 (0, false)).1
    let hs := x.map fun (v : PVal) => fmul (fsub v.1 mu) rstd
    let g' := (List.zip dy g).map fun ((u, v) : PVal × PVal) => fmul u.1 v.1
    let m := treeMean ((List.zip g' hs).map fun (u, h) => fmul u h)
    let n := if layer then treeMean g' else 0
    (((List.zip g' hs).map fun (u, h) => (fmul rstd (fsub (fsub u n) (fmul h m)), bad)),
     ((List.zip dy hs).map fun ((u, h) : PVal × BitVec 32) => (fmul u.1 h, bad)))
  vxWriteVals w dst (rows.map (·.1))
  match aux with
  | some t => vxWriteAux w t (rows.map fun r => r.2.map fun (v : PVal) => (f32ToWide t.q.fmt v.1, v.2))
  | none => pure ()

def execVxNormBwd (d : Die) (c : Ctx) (w : IWord) (x : Phys) (s : State) : Out :=
  vxEngine d c w x 0x14 (vxOnly w ([.a, .b, .c, .dst, .func, .auxEn] ++ if vxAuxEn w then [.aux] else []) && vxFn w ≤ 1)
    (normBwdBody w) s

/-! ### Top-k (05 R117) -/

/-- Does the first of two (value, position) entries come before the second? -/
def topBefore (a b : BitVec 32 × Nat) : Bool :=
  match isNanF a.1, isNanF b.1 with
  | true, true => a.2 ≤ b.2
  | true, false => false
  | false, true => true
  | false, false => if fkey a.1 = fkey b.1 then a.2 ≤ b.2 else fkey b.1 < fkey a.1

def topkBody (w : IWord) : Exec Unit := do
  let a ← vxOpen (vxA w) wideFmts
  let k := vxCount w
  shapeIf (rowLengthOk a.q.e0 && k ≤ a.q.e0) (vxA w)
  let dst ← vxSame (vxDst w) a.q.rowsN k [a.q.fmt]
  let aux ← vxSame (vxAux w) a.q.rowsN k [4]
  let es ← vxRead a
  let rows := es.map fun r =>
    let bad := r.any (·.2)
    let order := ((r.zipIdx.map fun (e, i) => (wideToF32 a.q.fmt e.1, i)).mergeSort topBefore).take k
    (order.map fun e => ((r.getD e.2 (0, false)).1, bad), order.map fun e => (e.2, bad))
  vxWriteBits w dst (rows.map (·.1))
  vxWriteAux w aux (rows.map (·.2))

def execVxTopk (d : Die) (c : Ctx) (w : IWord) (x : Phys) (s : State) : Out :=
  vxEngine d c w x 0x18 (vxOnly w [.a, .dst, .aux, .count] && 1 ≤ vxCount w && vxCount w ≤ 256) (topkBody w) s

/-! ### Mask planes (05 R113 to R116) -/

/-- Positive: greater than zero, NaN excluded. -/
def positive (v : BitVec 32) : Bool := !isNanF v && !isZeroF v && !v.getLsbD 31

def reluBody (w : IWord) : Exec Unit := do
  let a ← vxOpen (vxA w) wideFmts
  let dst ← vxSame (vxDst w) a.q.rowsN a.q.e0 wideFmts
  let aux ← vxSame (vxAux w) a.q.rowsN a.q.e0 [7]
  let xs ← vxVals a
  vxWriteVals w dst (xs.map fun r => r.map fun v => (if isNanF v.1 then f32NaN else if positive v.1 then v.1 else 0, v.2))
  vxWriteAux w aux (xs.map fun r => r.map fun v => (b2n (positive v.1), v.2))

def execVxRelu (d : Die) (c : Ctx) (w : IWord) (x : Phys) (s : State) : Out :=
  vxEngine d c w x 0x20 (vxOnly w [.a, .dst, .aux]) (reluBody w) s

/-- The winner of a window, by position. -/
def winner (l : List (BitVec 32)) : Nat :=
  match l.findIdx? isNanF with
  | some i => i
  | none => (l.zipIdx.foldl (fun (best : Option (BitVec 32 × Nat)) e => match best with
      | none => some e
      | some b => if fkey b.1 < fkey e.1 then some e else some b) none).elim 0 (·.2)

def maxpoolBody (w : IWord) : Exec Unit := do
  let a ← vxOpen (vxA w) wideFmts
  let k := vxWindow w
  shapeIf (a.q.e0 % k = 0) (vxA w)
  let dst ← vxSame (vxDst w) a.q.rowsN (a.q.e0 / k) wideFmts
  let aux ← vxSame (vxAux w) a.q.rowsN a.q.e0 [7]
  let xs ← vxVals a
  let rows := xs.map fun r => (chunksOf k r).map fun g => (g, winner (g.map (·.1)), anyPoison g)
  vxWriteVals w dst (rows.map fun r => r.map fun (g, i, bad) =>
    let v := (g.getD i (0, false)).1
    (if isNanF v then f32NaN else v, bad))
  vxWriteAux w aux (rows.map fun r => r.flatMap fun (g, i, bad) => (List.range g.length).map fun j => (b2n (decide (j = i)), bad))

def execVxMaxpool (d : Die) (c : Ctx) (w : IWord) (x : Phys) (s : State) : Out :=
  vxEngine d c w x 0x22 (vxOnly w [.a, .dst, .aux, .window] && 2 ≤ vxWindow w && vxWindow w ≤ 64) (maxpoolBody w) s

def maskmulBody (w : IWord) : Exec Unit := do
  let a ← vxOpen (vxA w) wideFmts
  let b ← vxSame (vxB w) a.q.rowsN a.q.e0 [7]
  let dst ← vxSame (vxDst w) a.q.rowsN a.q.e0 wideFmts
  let xs ← vxVals a
  let ms ← readElems b
  vxWriteVals w dst ((List.zip xs ms).map fun (r, m) => (List.zip r m).map fun (v, k) =>
    (if k.1 = 1 then fmul v.1 (vxImm w) else 0, v.2 || k.2))

def execVxMaskmul (d : Die) (c : Ctx) (w : IWord) (x : Phys) (s : State) : Out :=
  vxEngine d c w x 0x23 (vxOnly w [.a, .b, .dst, .imm]) (maskmulBody w) s

def unpoolBody (w : IWord) : Exec Unit := do
  let a ← vxOpen (vxA w) wideFmts
  let k := vxWindow w
  let b ← vxSame (vxB w) a.q.rowsN (a.q.e0 * k) [7]
  let dst ← vxSame (vxDst w) a.q.rowsN (a.q.e0 * k) wideFmts
  let xs ← vxVals a
  let ms ← readElems b
  vxWriteVals w dst ((List.zip xs ms).map fun (r, m) => m.zipIdx.map fun (e, i) =>
    let v := r.getD (i / k) (0, false)
    (if e.1 = 1 then v.1 else 0, v.2 || e.2))

def execVxUnpool (d : Die) (c : Ctx) (w : IWord) (x : Phys) (s : State) : Out :=
  vxEngine d c w x 0x24 (vxOnly w [.a, .b, .dst, .window] && 2 ≤ vxWindow w && vxWindow w ≤ 64) (unpoolBody w) s

/-- The causal rule (05 R116). -/
def causal (w : IWord) (r c : Nat) : Bool :=
  (c : Int) ≤ (r : Int) + (vxRowBase w : Int) - (vxColBase w : Int) + (vxImm w).toInt

def maskgenBody (w : IWord) : Exec Unit := do
  let dst ← vxOpen (vxDst w) [7]
  if vxFn w = 0 then
    let a ← vxSame (vxA w) dst.q.rowsN dst.q.e0 wideFmts
    let xs ← vxVals a
    vxWriteBits w dst (xs.map fun r => r.map fun v => (b2n (flt (vxImm w) v.1), v.2))
  else
    vxWriteBits w dst ((List.range dst.q.rows).map fun r => (List.range dst.q.e0).map fun c => (b2n (causal w r c), false))

def execVxMaskgen (d : Die) (c : Ctx) (w : IWord) (x : Phys) (s : State) : Out :=
  vxEngine d c w x 0x25 (vxOnly w ([.dst, .func, .imm, .rowBase, .colBase] ++ if vxFn w = 0 then [.a] else []) && vxFn w ≤ 1)
    (maskgenBody w) s

/-! ### Random generators (05 R118 to R121, R424) -/

/-- One round of the generator over (x, key). -/
def rngRound (st : BitVec 64 × BitVec 64) : BitVec 64 × BitVec 64 :=
  let x := st.1 + st.2
  let x := x ^^^ (x >>> 32)
  let x := x * 0xD6E8FEB86659FD93#64
  let x := x ^^^ (x >>> 29)
  let x := x * 0x8CB92BA72F3D8DD7#64
  (x, st.2.rotateLeft 17 + 0x6A09E667F3BCC909#64)

/-- The word of Repeatable mode: seed, generator step, salt, absolute row and column (05 R118). -/
def rngWord (seed : BitVec 64) (gstep salt row col : Nat) : BitVec 32 :=
  let key := seed ^^^ (BitVec.ofNat 64 gstep * 0x9E3779B97F4A7C15#64) ^^^ BitVec.ofNat 64 (salt * 2 ^ 56)
  let x := BitVec.ofNat 64 (row * 2 ^ 24 + col)
  let r := rngRound (rngRound (rngRound (rngRound (x, key))))
  (r.1 >>> 32).setWidth 32

/-- Words of rows × n elements for the vector lanes; Free-mode words are free values (log 7). -/
def vxWords (w : IWord) (rows n : Nat) : Exec (List (List (BitVec 32))) := do
  let r ← get
  if vxFree w then
    let k := r.s.freeCtr
    modS fun s => { s with freeCtr := k + rows * n }
    modS fun s => s.updCtx r.c fun x => { x with freeBroken := true }
    pure ((List.range rows).map fun i => (List.range n).map fun j => Config.freeWord (k + i * n + j))
  else
    let x ← getCtx
    let seed := (x.stream r.d).seedVector
    pure ((List.range rows).map fun i => (List.range n).map fun j =>
      rngWord seed x.stepNow (vxSalt w) (vxRowBase w + i) (vxColBase w + j))

def randomBody (w : IWord) : Exec Unit := do
  let dst ← vxOpen (vxDst w) [if vxFn w = 0 then 0 else 4]
  let ws ← vxWords w dst.q.rows dst.q.e0
  vxWriteBits w dst (ws.map fun r => r.map fun v =>
    (if vxFn w = 0 then (mkF32 false (v.toNat / 256) (2 ^ 24)).toNat else v.toNat, false))

def execVxRandom (d : Die) (c : Ctx) (w : IWord) (x : Phys) (s : State) : Out :=
  vxEngine d c w x 0x26 (vxOnly w [.dst, .func, .rng, .salt, .rowBase, .colBase] && vxFn w ≤ 1) (randomBody w) s

def dropoutBody (w : IWord) : Exec Unit := do
  let a ← vxOpen (vxA w) wideFmts
  let dst ← vxSame (vxDst w) a.q.rowsN a.q.e0 wideFmts
  let aux ← vxSame (vxAux w) a.q.rowsN a.q.e0 [7]
  let xs ← vxVals a
  let ws ← vxWords w a.q.rows a.q.e0
  let k := mkF32 false 65536 (vxKeep w)
  let rows := (List.zip xs ws).map fun ((r, q) : List PVal × List (BitVec 32)) => (List.zip r q).map fun ((v, x) : PVal × BitVec 32) => (v, decide (x.toNat / 65536 < vxKeep w))
  vxWriteVals w dst (rows.map fun r => r.map fun ((v, keep) : PVal × Bool) => (if keep then fmul v.1 k else 0, v.2))
  vxWriteAux w aux (rows.map fun r => r.map fun ((v, keep) : PVal × Bool) => (b2n keep, v.2))

def execVxDropout (d : Die) (c : Ctx) (w : IWord) (x : Phys) (s : State) : Out :=
  vxEngine d c w x 0x21 (vxOnly w [.a, .dst, .aux, .rng, .salt, .keep, .rowBase, .colBase] && 1 ≤ vxKeep w) (dropoutBody w) s

/-! ### Table products (05 R122; 02 R49, R50) -/

/-- Sums of groups, added in ascending order from the first (05 R122). -/
def groupTotal (l : List (BitVec 32)) : BitVec 32 :=
  match l with
  | [] => 0
  | g :: gs => gs.foldl fadd g

def tableBody (w : IWord) : Exec Unit := do
  let a ← vxOpen (vxA w) [1, 2]
  let b ← vxOpen (vxB w) [11, 12, 13]
  let cb ← vxOpen (vxC w) [1]
  let m := a.q.rows
  let k := a.q.e0
  let n := b.q.rowsN
  let g := if b.q.group then 128 else 64
  let size := 2 ^ fmtBits b.q.fmt
  shapeIf (1 ≤ m && m ≤ 16 && k % g = 0) (vxA w)
  shapeIf (b.q.e0 = k) (vxB w)
  shapeIf (cb.q.elems = n * (k / g) * size) (vxC w)
  let dst ← vxSame (vxDst w) m n wideFmts
  let xs ← vxVals a
  let codes ← readElems b
  let books := (chunksOf size (← vxVals cb).flatten).toArray
  let outs := codes.zipIdx.map fun (row, o) =>
    let entries := (chunksOf g row).zipIdx.map fun (grp, j) =>
      let book := (books.getD (o * (k / g) + j) [])
      (grp.map fun (e : PElem) => (book.getD e.1 (0, false)).1, anyPoison book || grp.any (·.2))
    (entries.map (·.1), entries.any (·.2))
  vxWriteVals w dst (xs.map fun x =>
    let bad := anyPoison x
    let gs := chunksOf g (x.map (·.1))
    outs.map fun (es, p) =>
      (groupTotal ((List.zip gs es).map fun (u, v) => treeSum ((List.zip u v).map fun (p, q) => fmul p q)), bad || p))
  countE 0x303 0 (m * n * k)

def execVxTable (d : Die) (c : Ctx) (w : IWord) (x : Phys) (s : State) : Out :=
  vxEngine d c w x 0x30 (vxOnly w [.a, .b, .c, .dst]) (tableBody w) s

/-! ### Key-value pages (05 R123 to R125) -/

def headDims : List Nat := [64, 128, 256]

/-- Bytes of a page (05 Table 5.5). -/
def pageBytes (e4 : Bool) (dim : Nat) : Nat := if e4 then 256 * dim else 256 * dim / 2 + 256 * dim / 16 + 1024

/-- Byte ranges of token t of a page: codes, scales, coarse scale. -/
def tokenSpans (e4 : Bool) (dim t : Nat) : List (Nat × Nat) :=
  if e4 then [(t * dim, dim)]
  else [(t * dim / 2, dim / 2), (256 * dim / 2 + t * dim / 16, dim / 16), (256 * 9 * dim / 16 + 4 * t, 4)]

/-- One token's bytes in each of its spans. -/
def encodeToken (e4 : Bool) (vals : List (BitVec 32)) : List Bytes :=
  if e4 then [vals.map toE4m3]
  else
    let cs := coarse (valF (amaxOf vals)) 7
    let bl := (chunksOf 16 vals).map fun v => codeBlock 1 0 v cs
    [packHalves (bl.flatMap fun b => b.codes.headD []), bl.map fun b => BitVec.ofNat 8 b.head, leBytes 4 cs.toNat]
where
  packHalves (l : List Nat) : Bytes := (chunksOf 2 l).map fun g => BitVec.ofNat 8 (g.getD 0 0 + 16 * g.getD 1 0)

def kvappendBody (w : IWord) : Exec Unit := do
  let e4 := vxFn w = 1
  let a ← vxOpen (vxA w) [0, 1]
  let dim := a.q.e0
  shapeIf (headDims.contains dim && vxCount w + a.q.rows ≤ 256) (vxA w)
  let dst ← vxOpen (vxDst w) [6]
  shapeIf (pageBytes e4 dim ≤ dst.flatLen) (vxDst w)
  let xs ← vxVals a
  xs.zipIdx.forM fun (row, r) =>
    let bad := anyPoison row
    (List.zip (tokenSpans e4 dim (vxCount w + r)) (encodeToken e4 (row.map (·.1)))).forM fun (span, bs) =>
      writeFlatOut dst span.1 (bs.map fun b => (b, bad))
  vxCountOut w (a.q.rows * dim)

def execVxKvappend (d : Die) (c : Ctx) (w : IWord) (x : Phys) (s : State) : Out :=
  vxEngine d c w x 0x31 (vxOnly w [.a, .dst, .func, .count] && vxFn w ≤ 1 && vxCount w ≤ 255) (kvappendBody w) s

/-- Reads the seal blocks that hold some wanted byte of the flattened extent; others read 0 and are left alone. -/
def readWanted (t : Tensor) (spans : List (Nat × Nat)) : Exec (Array PByte) := do
  let rows ← (List.range t.q.rows).mapM fun r => (List.range t.blocks).mapM fun k => do
    let lo := r * t.q.rowBytes + 512 * k
    let n := min 512 (t.q.rowBytes - 512 * k)
    if spans.any fun e => e.1 < lo + n && lo < e.1 + e.2 then readBlock t r k
    else pure (List.replicate n ((0 : Byte), false))
  pure (rows.flatten.flatten).toArray

/-- A token as read: codes' values or E4M3 values, block scales in units of 2^-10 (none for a NaN block), coarse scale,
poison. -/
structure Token where
  vals : List (BitVec 32)
  scales : List (Option Nat)
  cs : BitVec 32
  bad : Bool

def decodeToken (e4 : Bool) (dim : Nat) (page : Array PByte) (base t : Nat) : Token :=
  let spans := (tokenSpans e4 dim t).map fun e => (List.range e.2).map fun i => page.getD (base + e.1 + i) ((0 : Byte), false)
  let bad := spans.any fun s => s.any (·.2)
  if e4 then { vals := (spans.headD []).map fun b => ofE4m3 b.1, scales := [], cs := 0x3F800000, bad := bad }
  else
    let codes := (spans.getD 0 []).flatMap fun b => [b.1.toNat % 16, b.1.toNat / 16]
    let scales := (spans.getD 1 []).map fun b => if b.1 = 0xFF then none else some (bs8Kilo b.1.toNat)
    { vals := (codes.zipIdx.map fun (c, i) =>
        if scales.getD (i / 16) (some 0) = some 0 then 0 else dyadF32 false { m := n4iVal c, e := 0 })
      scales := scales, cs := BitVec.ofNat 32 (leNat ((spans.getD 2 []).map (·.1))), bad := bad }

def kiloF32 (k : Nat) : BitVec 32 := mkF32 false k 1024

/-- Score of a query against a token (05 R125). -/
def scoreToken (e4 : Bool) (q : List (BitVec 32)) (k : Token) (imm : BitVec 32) : BitVec 32 :=
  let prods := (List.zip q k.vals).map fun (a, b) => fmul a b
  if e4 then fmul (treeSum prods) imm
  else
    let blocks := (List.zip (chunksOf 16 prods) k.scales).map fun (l, sc) => match sc with
      | some v => fmul (treeSum l) (kiloF32 v)
      | none => f32NaN
    fmul (fmul (treeSum blocks) k.cs) imm

/-- The value v̂ of element i of a token. -/
def Token.value (e4 : Bool) (k : Token) (i : Nat) : BitVec 32 :=
  if e4 then k.vals.getD i 0
  else match k.scales.getD (i / 16) (some 0) with
    | none => f32NaN
    | some v => fmul (fmul (k.vals.getD i 0) (kiloF32 v)) k.cs

/-- Opens a page sequence and reads its valid tokens. -/
def readTokens (idx : Nat) (e4 : Bool) (dim count : Nat) : Exec (List Token) := do
  let b ← vxOpen idx [6]
  let size := pageBytes e4 dim
  shapeIf (b.flatLen % size = 0 && size ≤ b.flatLen) idx
  let total := 256 * (b.flatLen / size - 1) + count
  let spans := (List.range total).flatMap fun t => (tokenSpans e4 dim (t % 256)).map fun e => (t / 256 * size + e.1, e.2)
  let page ← readWanted b spans
  let ks := (List.range total).map fun t => decodeToken e4 dim page (t / 256 * size) (t % 256)
  setNonfinite (ks.any fun k => !k.bad && (k.vals.any (fun v => !isFiniteF v) || k.scales.contains none || !isFiniteF k.cs))
  pure ks

def kvscoreBody (w : IWord) : Exec Unit := do
  let e4 := vxFn w = 1
  let a ← vxOpen (vxA w) wideFmts
  shapeIf (headDims.contains a.q.e0) (vxA w)
  let ks ← readTokens (vxB w) e4 a.q.e0 (vxCount w)
  let dst ← vxSame (vxDst w) a.q.rowsN ks.length [0]
  let qs ← vxVals a
  vxWriteVals w dst (qs.map fun q => ks.map fun k => (scoreToken e4 (q.map (·.1)) k (vxImm w), anyPoison q || k.bad))
  countE 0x303 0 (a.q.rows * ks.length * a.q.e0)

def execVxKvscore (d : Die) (c : Ctx) (w : IWord) (x : Phys) (s : State) : Out :=
  vxEngine d c w x 0x32 (vxOnly w [.a, .b, .dst, .func, .count, .imm] && vxFn w ≤ 1 && 1 ≤ vxCount w && vxCount w ≤ 256)
    (kvscoreBody w) s

def kvmixBody (w : IWord) : Exec Unit := do
  let e4 := vxFn w = 1
  let a ← vxOpen (vxA w) wideFmts
  let dst ← vxOpen (vxDst w) wideFmts
  let dim := dst.q.e0
  shapeIf (headDims.contains dim && dst.q.rows = a.q.rows) (vxDst w)
  let ks ← readTokens (vxB w) e4 dim (vxCount w)
  shapeIf (a.q.e0 = ks.length) (vxA w)
  let ps ← vxVals a
  let poison := ks.any (·.bad)
  vxWriteVals w dst (ps.map fun p => (List.range dim).map fun i =>
    (treeSum ((List.zip p ks).map fun (x, k) => fmul x.1 (k.value e4 i)), anyPoison p || poison))
  countE 0x303 0 (a.q.rows * ks.length * dim)

def execVxKvmix (d : Die) (c : Ctx) (w : IWord) (x : Phys) (s : State) : Out :=
  vxEngine d c w x 0x33 (vxOnly w [.a, .b, .dst, .func, .count] && vxFn w ≤ 1 && 1 ≤ vxCount w && vxCount w ≤ 256)
    (kvmixBody w) s

end Sys2Proof.Machine
end

