-- ==== Sys2Proof/Machine/Update.lean ====
section
/-! DEFINITION. The update engine: UP.STEP, UP.WCOPY, UP.VERDICT and the round verdict (06 R129 to R155). -/
namespace Sys2Proof.Machine

/-! ### Body fields (06 Table 6.10) -/

def upEntry (w : IWord) : Nat := fld w 73 64
def upSlice (w : IWord) : Nat := fld w 93 74
def upA (w : IWord) : Nat := fld w 105 94
def upB (w : IWord) : Nat := fld w 117 106
def upC (w : IWord) : Nat := fld w 129 118
def upD (w : IWord) : Nat := fld w 141 130
def upFunc (w : IWord) : Nat := fld w 145 142
def upCompact (w : IWord) : Bool := bit w 146
def upMomFmt (w : IWord) : Nat := fld w 148 147
def upFree (w : IWord) : Bool := bit w 149
def upGrad (w : IWord) : Bool := bit w 150
def upColsum (w : IWord) : Bool := bit w 151
def upSkip (w : IWord) : Bool := bit w 152
def upSalt (w : IWord) : Nat := fld w 161 154
def upRound (w : IWord) : Nat := fld w 169 162
def upRotR (w : IWord) : Nat := fld w 172 170
def upRotO (w : IWord) : Nat := fld w 175 173
def upSlot (w : IWord) : Nat := fld w 183 176
def upSeedR (w : IWord) : BitVec 32 := BitVec.ofNat 32 (fld w 223 192)
def upSeedO (w : IWord) : BitVec 32 := BitVec.ofNat 32 (fld w 255 224)

/-- Moments that a kernel keeps. -/
def momentsOf (func : Nat) : Nat := if func = 0 then 2 else if func = 1 then 1 else 0

/-- The words that 06 R154 admits. -/
def upStepOk (x : CtxSt) (w : IWord) : Bool :=
  upFunc w ≤ 2 && upMomFmt w ≠ 3 && (upFunc w ≠ 2 || upMomFmt w = 0) && !upColsum w && !upSkip w && !bit w 153 &&
    (x.commitMode || upRound w = 0) && upRotR w ≤ 5 && upRotO w ≤ 5 && upSlot w = 0 && fld w 191 184 = 0

def upWcopyOk (x : CtxSt) (w : IWord) : Bool :=
  upFunc w ≤ 1 && upD w = 0 && upMomFmt w = 0 && !upFree w && !upGrad w && !upSkip w && !bit w 153 && upSalt w = 0 &&
    upRound w = 0 && upRotR w ≤ 5 && upRotO w ≤ 5 && fld w 191 184 = 0 && (!upColsum w || upFunc w = 1) &&
    (upFunc w = 1 || slotFormW (x.slot (upSlot w)) = 0)

def upVerdictOk (w : IWord) : Bool := fld w 151 64 = 0 && !bit w 153 && fld w 161 154 = 0 && fld w 255 170 = 0

/-! ### Commit faults (06 R152, R153) -/

/-- A commit fault that names entry and slice (log 14). -/
def commitInfo (reason entry slice : Nat) : FaultInfo :=
  { cls := 4, reason := 14, sub := reason, unit := 5, valueB := entry, valueC := slice }

def commitFault {α : Type} (reason : Nat) (w : IWord) : Exec α := trap (commitInfo reason (upEntry w) (upSlice w))

/-- The entry and rows of the slice that a word names. -/
def upTarget (w : IWord) : Exec (Entry × Nat × Nat) := do
  let x ← getCtx
  let r ← get
  match x.entry r.d (upEntry w) with
  | none => commitFault 5 w
  | some e =>
    match (if e.kind = 0 then e.slice (upSlice w) else none) with
    | none => commitFault 5 w
    | some (lo, hi) => pure (e, lo, hi)

/-! ### Stochastic rounding (06 R138) -/

/-- Floor, or one more when the word's upper 24 bits lie below the discarded fraction. -/
def floorOrUp (word : BitVec 32) (num den : Nat) : Nat :=
  num / den + (if fld word 31 8 * den < (num % den) * 2 ^ 24 then 1 else 0)

/-- Rounds a finite magnitude num / den into format f, at most its word `top` of the largest finite value. -/
def stochMag (f : FFmt) (top : Nat) (word : BitVec 32) (num den : Nat) : Nat :=
  min (roundWith (floorOrUp word) f num den) top

def stochBf16 (word x : BitVec 32) : Nat :=
  match decF32 x with
  | .nan => 0x7FC0
  | .inf s => if s then 0xFF80 else 0x7F80
  | .fin s m e => let (a, b) := ratOf m e; stochMag bf16 0x7F7F word a b + (if s then 0x8000 else 0)

/-- Divides exactly by the scale 2^k and rounds (06 R134). -/
def stochE4m3 (word x : BitVec 32) (k : Int) : Nat :=
  let sg := if x.getLsbD 31 then 0x80 else 0
  match decF32 x with
  | .fin _ m e => let (a, b) := ratOf m (e - k); stochMag e4m3 0x7E word a b + sg
  | _ => 0x7F + sg

/-- Exponent of the smallest power of two at least num / den, not below -126; 0 for 0 (06 R134). -/
def momentExp (top : Dyad) : Int :=
  if top.m = 0 then 0
  else
    let (a, b) := ratOf top.m.natAbs top.e
    let den := b * 448
    let k := log2Rat a den
    let (x, y) := pow2 k
    max (-126) (if a * y = x * den then k else k + 1)

/-- FP32 word of 2^k, k from -126 to 127. -/
def pow2Word (k : Int) : BitVec 32 := BitVec.ofNat 32 ((k + 127).toNat * 2 ^ 23)

/-! ### The kernels (06 R135, R136) -/

/-- The optimiser record (06 Table 6.4). -/
structure Hyper where
  lr : BitVec 32
  beta1 : BitVec 32
  omb1 : BitVec 32
  beta2 : BitVec 32
  omb2 : BitVec 32
  eps : BitVec 32
  wd : BitVec 32
  gscale : BitVec 32
  clip : BitVec 32
  bias : Bool
  /-- fl(1 - b1), fl(1 - b2) -/
  c1 : BitVec 32
  c2 : BitVec 32
  deriving DecidableEq, Repr

def hyperOf (w : BitVec 512) : Hyper :=
  let f := fun k => BitVec.ofNat 32 (fld w (32 * k + 31) (32 * k))
  { lr := f 0, beta1 := f 1, omb1 := f 2, beta2 := f 3, omb2 := f 4, eps := f 5, wd := f 6, gscale := f 7, clip := f 8
    bias := bit w 288, c1 := 0, c2 := 0 }

def f32One : BitVec 32 := 0x3F800000

/-- Every field finite and in its range, and no reserved bit (06 R135). -/
def Hyper.ok (h : Hyper) (w : BitVec 512) : Bool :=
  [h.lr, h.beta1, h.omb1, h.beta2, h.omb2, h.eps, h.wd, h.gscale, h.clip].all isFiniteF && fld w 511 289 = 0 &&
    fle 0 h.lr && fle 0 h.beta1 && flt h.beta1 f32One && flt 0 h.omb1 && fle h.omb1 f32One &&
    fle 0 h.beta2 && flt h.beta2 f32One && flt 0 h.omb2 && fle h.omb2 f32One && flt 0 h.eps && fle 0 h.wd &&
    flt 0 h.gscale && fle 0 h.clip

/-- What one parameter's update gives. -/
structure UpRes where
  g : BitVec 32
  p : BitVec 32
  m : BitVec 32
  v : BitVec 32
  deriving DecidableEq, Repr

/-- The procedure of 06 R136. -/
def upKernel (func : Nat) (h : Hyper) (grad p m v : BitVec 32) : UpRes :=
  let g0 := fmul grad h.gscale
  let g := if flt 0 h.clip then fmin (fmax g0 (fneg h.clip)) h.clip else g0
  let m1 := ffma h.beta1 m (fmul h.omb1 g)
  let v1 := ffma h.beta2 v (fmul h.omb2 (fmul g g))
  let u := if func = 0 then
      let mh := if h.bias then fdiv m1 h.c1 else m1
      let vh := if h.bias then fdiv v1 h.c2 else v1
      fdiv mh (fadd (fsqrt vh) h.eps)
    else if func = 1 then m1 else g
  { g := g, p := ffma (fneg h.lr) (fadd u (fmul h.wd p)) p, m := if func ≤ 1 then m1 else 0, v := if func = 0 then v1 else 0 }

/-! ### Planes -/

/-- A persistent plane: in the local view of the die's own stack, and with two areas in paired commit (06 R130, R144;
log 16). -/
def upPlane (idx fmt rows n : Nat) (area : AreaSel) : Exec Tensor := do
  let t ← resolve idx { fmts := [fmt], area := area }
  let x ← getCtx
  shapeIf (t.q.loc = 2 && (t.q.paired || x.commitMode) && t.q.rows = rows && t.q.e0 = n &&
    (List.range t.q.rows).all fun r => t.rowAddr r + t.q.rowBytes ≤ 2 ^ 36) idx
  pure t

/-- Formats of the moments' value planes. -/
def momentFmt (mf : Nat) : Nat := if mf = 0 then 0 else if mf = 1 then 1 else 2

/-- Scale groups of a row (06 R133). -/
def scaleGroups (n : Nat) : Nat := ceilDiv n 128

/-- Values of a master. -/
def masterRows (compact : Bool) (hi lo : List (List PElem)) : List (List PVal) :=
  if compact then hi.map fun r => r.map fun e => (ofBf16 (BitVec.ofNat 16 e.1), e.2)
  else (List.zip hi lo).map fun (a, b) => (List.zip a b).map fun (x, y) => (BitVec.ofNat 32 (x.1 * 2 ^ 16 + y.1), x.2 || y.2)

/-- Values of a moment: first (k = 0) or second (06 R133). -/
def momentRows (mf k : Nat) (codes scales : List (List PElem)) : List (List PVal) :=
  if mf = 2 then
    (List.zip codes scales).map fun (r, g) => r.zipIdx.map fun (e, j) =>
      let sc := g.getD (j / 128) (0, false)
      let x := fmul (ofE4m3 (BitVec.ofNat 8 e.1)) (BitVec.ofNat 32 sc.1)
      (if k = 0 then x else fmul x x, e.2 || sc.2)
  else codes.map fun r => r.map fun e => (wideToF32 (momentFmt mf) e.1, e.2)

/-- Scale exponents and stored values of one row of E4M3 scaled moments (06 R134). -/
def scaledRow (vals : List (BitVec 32)) : List Int :=
  (chunksOf 128 vals).map fun g => momentExp (valF (amaxOf g))

/-- The words of the update lanes for k = 0 master, 1 first moment, 2 second moment (06 R139). -/
def upWords (w : IWord) (rowBase colBase rows n k : Nat) : Exec (List (List (BitVec 32))) := do
  let r ← get
  if upFree w then
    let z := r.s.freeCtr
    modS fun s => { s with freeCtr := z + rows * n }
    modS fun s => s.updCtx r.c fun x => { x with freeBroken := true }
    pure ((List.range rows).map fun i => (List.range n).map fun j => Config.freeWord (z + i * n + j))
  else
    let x ← getCtx
    let sd := (x.stream r.d).seedUpdate
    pure ((List.range rows).map fun i => (List.range n).map fun j =>
      rngWord sd x.stepNow ((upSalt w + k) % 256) (rowBase + i) (colBase + j))

/-- Zips two grids. -/
def gridZip {α β γ : Type} (f : α → β → γ) (a : List (List α)) (b : List (List β)) : List (List γ) :=
  (List.zip a b).map fun (x, y) => (List.zip x y).map fun (u, v) => f u v

/-- Sides of a rotation tile: an unrotated side is tiled in 16s, the block size (log 17). -/
def tileSide (code : Nat) : Nat := max 16 (rotSize code)

/-- Rotation tile of a parameter, in row-major order of tiles. -/
def tileAt (w : IWord) (n i j : Nat) : Nat := (i / tileSide (upRotR w)) * ceilDiv n (tileSide (upRotO w)) + j / tileSide (upRotO w)

/-- Writes a plane as output k of the update: 0 the master's high plane, 1 its low plane, 2 + 2m moment m, 3 + 2m its scales,
6 the measure record. -/
def upWrite (t : Tensor) (k : Nat) (new : List (List PElem)) : Exec Unit := onOutput k (writeElems t new)

/-- Chooses element (i, j) of the new grid where it is to be written, of the old one elsewhere. -/
def pickGrid (keep : Nat → Nat → Bool) (new old : List (List PElem)) : List (List PElem) :=
  (List.zip new old).zipIdx.map fun ((a, b), i) => (List.zip a b).zipIdx.map fun ((x, y), j) => if keep i j then x else y

/-- Element (i, j) of a slice of n columns has a byte in a line, of any of the update's planes, that mismatched twice. `mf` is
the moments' format. -/
def badElem (hit : Option (Option Nat × Nat)) (mf n i j : Nat) : Bool :=
  let size := if mf = 0 then 4 else if mf = 1 then 2 else 1
  [0, 1].any (fun k => inBadLine (hitOf hit k) ((i * n + j) * 2)) ||
    [2, 4].any (fun k => inBadLine (hitOf hit k) ((i * n + j) * size)) ||
    [3, 5].any (fun k => inBadLine (hitOf hit k) ((i * ceilDiv n 128 + j / 128) * 4))

/-- The 16-byte measure record (06 R140). -/
def measureBytes (amax : BitVec 32) (nonfinite : Bool) (gradSs : BitVec 32) : Bytes :=
  leBytes 16 (packNat [(amax.toNat, 32), (b2n nonfinite, 1), (0, 31), (gradSs.toNat, 32), (0, 32)])

/-- Opens a record of n bytes. -/
def upRecord (idx n : Nat) (spOnly : Bool) : Exec Tensor := do
  let t ← resolve idx { fmts := [6] }
  shapeIf ((!spOnly || t.q.loc = 1) && n ≤ t.flatLen) idx
  pure t

/-- The rotation that the rotation fields of a UP word give. -/
def upProd (w : IWord) (e : Entry) (lo hi form : Nat) : Prod :=
  { g := { b16 := true, red := hi - lo, out := e.colsN }, form := form, code := upFunc w, outliers := false, ratio := 0
    colsum := upColsum w, rotR := upRotR w, rotO := upRotO w, seedR := upSeedR w, seedO := upSeedO w
    baseR := e.axisR + lo, baseO := e.axisO, shift := 0, errShift := 5, outs := (0, e.colsN), amax := none, nanBlocks := true }

/-! ### UP.STEP -/

/-- Bias correction terms (06 R136): b^(n + 1) within 1 ulp, a fixed algorithm of the numerics revision (log 6). -/
def Hyper.withBias (h : Hyper) (rev : BitVec 8) (n : Nat) : Hyper :=
  { h with c1 := fsub f32One (approxPow rev h.beta1 n), c2 := fsub f32One (approxPow rev h.beta2 n) }

/-- The slice is to be skipped: its round, or an earlier one of the step, was not clean (06 R147). -/
def CtxSt.skips (x : CtxSt) (w : IWord) : Bool :=
  x.commitMode && (x.inPlaceStopped || !clean (SMap.get 0 x.roundVerdicts (upRound w)))

/-- One slice's update, once its rounds allow it. -/
def upUpdate (w : IWord) (e : Entry) (lo hi : Nat) : Exec Unit := do
  let x ← getCtx
  let r0 ← get
  let rows := hi - lo
  let n := e.colsN
  let func := upFunc w
  let mf := upMomFmt w
  let nm := momentsOf func
  let th ← upRecord (upD w) 64 true
  let tm ← upRecord (upD w + 1) 16 false
  let hb ← readFlat th
  let hw := wordOf 512 ((hb.take 64).map (·.1))
  let hpois := (hb.take 64).any (·.2)
  let h := hyperOf hw
  if !hpois && !h.ok hw then commitFault 4 w
  let h := h.withBias r0.s.numericsRev (x.commitCount.toNat + 1)
  shapeIf (rows % 16 = 0 && rows % rotSize (upRotR w) = 0 && n % rotSize (upRotO w) = 0) (upB w)
  let planes := fun (area : AreaSel) => do
    let hiP ← upPlane (upB w) 1 rows n area
    let loP ← (if upCompact w then pure none else do pure (some (← upPlane (upB w + 1) 1 rows n area)) : Exec (Option Tensor))
    let mom ← (List.range nm).mapM fun k => upPlane (upC w + k) (momentFmt mf) rows n area
    let sc ← (if mf = 2 then (List.range nm).mapM fun k => upPlane (upC w + 2 + k) 0 rows (scaleGroups n) area else pure [] : Exec (List Tensor))
    pure (hiP, loP, mom, sc)
  let (hiP, loP, mom, sc) ← planes .active
  let (hiQ, loQ, momQ, scQ) ← planes .inactive
  let grads ← (if upGrad w then do
      let t ← resolve (upA w) { fmts := [0] }
      shapeIf (t.q.loc = 1 && t.q.rows = rows && t.q.e0 = n) (upA w)
      readVals t
    else pure (List.replicate rows (List.replicate n ((0, false) : PVal))) : Exec (List (List PVal)))
  let hiE ← readElems hiP
  let loE ← (match loP with | some t => readElems t | none => pure [] : Exec (List (List PElem)))
  let momE ← mom.mapM readElems
  let scE ← sc.mapM readElems
  let master := masterRows (upCompact w) hiE loE
  let zeros : List (List PVal) := List.replicate rows (List.replicate n (0, false))
  let moment := fun (k : Nat) => if k < nm then momentRows mf k (momE.getD k []) (scE.getD k []) else zeros
  let ins := gridZip (fun (a : PVal × PVal) (b : PVal × PVal) => (a, b)) (gridZip (fun a b => (a, b)) grads master) (gridZip (fun a b => (a, b)) (moment 0) (moment 1))
  let outs := ins.map fun r => r.map fun q =>
    (upKernel func h q.1.1.1 q.1.2.1 q.2.1.1 q.2.2.1, hpois || q.1.1.2 || q.1.2.2 || q.2.1.2 || q.2.2.2)
  let badIn := (ins.map fun r => r.map fun q =>
    !(isFiniteF q.1.1.1 && isFiniteF q.1.2.1 && isFiniteF q.2.1.1 && isFiniteF q.2.2.1))
  let badOut := outs.map fun r => r.map fun q => !(isFiniteF q.1.p && isFiniteF q.1.m && isFiniteF q.1.v)
  setNonfinite ((gridZip (fun (a : Bool × Bool) (q : UpRes × Bool) => (a.1 || a.2) && !q.2) (gridZip (fun a b => (a, b)) badIn badOut) outs).any fun r => r.any id)
  if hpois then setTainted
  let rowBase := e.axisR + lo
  let stochastic := upCompact w || (mf ≠ 0 && nm ≠ 0)
  let words := fun (k : Nat) => if stochastic then upWords w rowBase e.axisO rows n k else pure (List.replicate rows (List.replicate n 0))
  let w0 ← words 0
  let w1 ← words 1
  let w2 ← words 2
  let newHi : List (List PElem) := gridZip (fun (q : UpRes × Bool) z =>
    (if upCompact w then stochBf16 z q.1.p else q.1.p.toNat / 2 ^ 16, q.2)) outs w0
  let newLo : List (List PElem) := outs.map fun r => r.map fun q => (q.1.p.toNat % 2 ^ 16, q.2)
  let stored := fun (k : Nat) => outs.map fun r => r.map fun q =>
    if k = 0 then q.1.m else if mf = 2 then fsqrt q.1.v else q.1.v
  let exps := fun (k : Nat) => (stored k).map scaledRow
  let newMom := fun (k : Nat) (ws : List (List (BitVec 32))) =>
    (List.zip (List.zip (stored k) (exps k)) (List.zip ws outs)).map fun ((vs, es), (zs, qs)) =>
      (List.zip vs (List.zip zs qs)).zipIdx.map fun ((v, z, q), j) =>
        (((if mf = 0 then v.toNat else if mf = 1 then stochBf16 z v else stochE4m3 z v (es.getD (j / 128) 0)), q.2) : PElem)
  let newSc := fun (k : Nat) => (List.zip (exps k) outs).map fun (es, qs) => es.zipIdx.map fun (z, g) =>
    (((pow2Word z).toNat, ((qs.drop (128 * g)).take 128).any (·.2)) : PElem)
  -- in place, a non-finite result or a second mismatch ends the slice at its tile (06 R147, 12 R294)
  let stopAt : Option Nat := if !x.commitMode then none else
    ((List.range rows).flatMap fun i => (List.range n).filterMap fun j =>
      if ((badOut.getD i []).getD j false && !((outs.getD i []).getD j (upKernel 2 h 0 0 0 0, false)).2) || badElem r0.hit mf n i j
      then some (tileAt w n i j) else none).min?
  let keep := fun (i j : Nat) => match stopAt with
    | some z => tileAt w n i j < z
    | none => true
  let keepGroup := fun (i g : Nat) => (List.range (min 128 (n - 128 * g))).all fun k => keep i (128 * g + k)
  if stopAt.isSome then modify fun r => { r with hit := none }
  upWrite hiQ 0 (pickGrid keep newHi hiE)
  match loQ with
  | some t => upWrite t 1 (pickGrid keep newLo loE)
  | none => pure ()
  (List.range nm).forM fun k => do
    match momQ[k]? with
    | some t => upWrite t (2 + 2 * k) (pickGrid (fun i j => if mf = 2 then keepGroup i (j / 128) else keep i j) (newMom k (if k = 0 then w1 else w2)) (momE.getD k []))
    | none => pure ()
    match scQ[k]? with
    | some t => upWrite t (3 + 2 * k) (pickGrid keepGroup (newSc k) (scE.getD k []))
    | none => pure ()
  if stopAt.isSome then
    modS fun s => s.markSlice r0.d r0.c (upEntry w) (upSlice w) mapPartial
  else
    -- the measure record (06 R140)
    let fresh := gridZip (fun (q : UpRes × Bool) (z : PElem) => if upCompact w then ofBf16 (BitVec.ofNat 16 z.1) else q.1.p) outs newHi
    let p := upProd w e lo hi 0
    let grid := rotateGrid p 0 (transposeL 0 fresh)
    let poison := outs.any fun r => r.any (·.2)
    let rec_ := measureBytes (amaxOf grid.flatten) (fresh.any fun r => r.any fun v => !isFiniteF v)
      (treeSum ((outs.flatten).map fun q => fmul q.1.g q.1.g))
    onOutput 6 (writeFlatOut tm 0 (rec_.map fun b => (b, poison)))
    modS fun s => s.markSlice r0.d r0.c (upEntry w) (upSlice w) mapWritten
  countE 0x401 0 (((List.range rows).map fun i => (List.range n).countP (keep i)).foldl (· + ·) 0)

def upStepBody (w : IWord) : Exec Unit := do
  let x ← getCtx
  let r ← get
  let (e, lo, hi) ← upTarget w
  if e.mark (upSlice w) ≠ mapNone then commitFault 1 w
  if x.commitMode && (x.stream r.d).rounds ≤ upRound w then commitFault 3 w
  if x.skips w then modS fun s => s.markSlice r.d r.c (upEntry w) (upSlice w) mapSkipped
  else upUpdate w e lo hi

/-- UP.STEP updates one slice and writes its measure record. -/
def execUpStep (d : Die) (c : Ctx) (w : IWord) (x : Phys) (s : State) : Out :=
  engine d c w 4 1 5 0 x (fun y _ => upStepOk y w) (upStepBody w) s

/-! ### UP.WCOPY -/

/-- Units of a set of 16×16 blocks that poisoned values reach through the rotation. -/
def reachedUnits (g : SetShape) (br bo : Nat) (bad : List (List Bool)) : List Nat :=
  let m := ((spreadGrid br bo bad).map List.toArray).toArray
  (List.range g.blocks).filter fun b => (blockPositions g b).any fun e => (m.getD e.1 #[]).getD e.2 false

/-- Some rotated value left the finite numbers though the masters that it comes from are all finite: it exceeds every AMAX
(06 R142). `wild` marks the masters that are not finite. -/
def outgrown (g : SetShape) (br bo : Nat) (wild : List (List Bool)) (y : Nat → Nat → BitVec 32) : Bool :=
  let m := ((spreadGrid br bo wild).map List.toArray).toArray
  (List.range g.out).any fun o => (List.range g.red).any fun i => !isFiniteF (y o i) && !(m.getD o #[]).getD i false

/-- A set's planes have exactly the shape's rows (06 R131). -/
def exactRows (base p : Nat) (g : SetShape) (q : Desc) : Exec Unit := do
  shapeIf (p = 0 || q.rowBytes * q.rows = g.planeBytes p 1) (base + p)
  if p = 1 || p = 3 || p = 5 then shapeIf (q.e0 = g.out && q.rows = g.red) (base + p)

def upWcopyBody (w : IWord) : Exec Unit := do
  let x ← getCtx
  let r ← get
  let (e, lo, hi) ← upTarget w
  let rows := hi - lo
  let n := e.colsN
  let form := slotFormW (x.slot (upSlot w))
  shapeIf (rows % 16 = 0 && rows % rotSize (upRotR w) = 0 && n % rotSize (upRotO w) = 0) (upB w)
  let area : AreaSel := if e.mark (upSlice w) = mapWritten then .inactive else .active
  let hiP ← upPlane (upA w) 1 rows n area
  let loP ← (if upCompact w then pure none else do pure (some (← upPlane (upA w + 1) 1 rows n area)) : Exec (Option Tensor))
  let tr ← upRecord (upC w) 16 false
  let dq := descOf (SMap.get 0 x.descs (upB w + 1))
  shapeIf (dq.paired || x.commitMode) (upB w + 1)
  let hiE ← readElems hiP
  let loE ← (match loP with | some t => readElems t | none => pure [] : Exec (List (List PElem)))
  let rb ← readFlat tr
  let rw := wordOf 128 ((rb.take 16).map (·.1))
  let rpois := (rb.take 16).any (·.2)
  let am0 := BitVec.ofNat 32 (fld rw 31 0)
  -- an AMAX that is no finite number gives a scale that no rule states, a function of its bits (log 9)
  let am := if isFiniteF am0 then fabs am0 else BitVec.ofNat 32 ((Config.unstated 141 am0.toNat).toNat % 0x7F800000)
  let master := masterRows (upCompact w) hiE loE
  let p : Prod := { upProd w e lo hi form with amax := some am, errShift := x.errShift }
  let byOut := transposeL ((0, false) : PVal) master
  let planes ← openDest (upB w) (assemble p [] (fun _ => 0) []) .inactive false
  planes.zipIdx.forM fun e => match e.1 with
    | some t => exactRows (upB w) e.2 p.g t.q
    | none => pure ()
  let grid := ((rotateGrid p 0 (byOut.map fun r => r.map fun v => if v.2 then 0 else v.1)).map List.toArray).toArray
  let y := fun (o i : Nat) => (grid.getD o #[]).getD i (0 : BitVec 32)
  let q := panelProduction p y 0 0 n
  setNonfinite (bit rw 32 || q.stats.nonfinite)
  let exceeds := q.exceeds || outgrown p.g (rotSize (upRotR w)) (rotSize (upRotO w)) (byOut.map fun r => r.map fun v => !v.2 && !isFiniteF v.1) y
  if exceeds && !rpois then raiseCompute { cls := 1, reason := 11, unit := 5, valueB := upEntry w, valueC := upSlice w }
  let whole := exceeds || rpois
  let header : Header := { q.header with nonfinite := bit rw 32, baseR := e.axisR, baseO := e.axisO, zeroBlocks := 0, overflow := 0, zpClamp := 0 }
  let bad := if whole then List.range p.g.blocks
    else reachedUnits p.g (rotSize (upRotR w)) (rotSize (upRotO w)) (byOut.map fun r => r.map (·.2))
  let out := assemble p [{ q with header := header }] (fun _ => 0) (if rpois then [0] else [])
  writeSet (upB w) { out with badUnits := bad } planes
  modS fun s => s.countProduction r.d r.c (upSlot w) 1 { q.stats with nonfinite := bit rw 32 }
  if dq.paired then
    modS fun s => s.updEntry r.d r.c dq.entry fun y => if y.kind = 1 then { y with codeBytes := y.codeBytes + rows * n / 2 } else y
  countE 0x402 0 (rows * n)

/-- UP.WCOPY writes one slice of the working copy. -/
def execUpWcopy (d : Die) (c : Ctx) (w : IWord) (x : Phys) (s : State) : Out :=
  engine d c w 4 2 5 0 x (fun y _ => upWcopyOk y w) (upWcopyBody w) s

/-! ### Round verdicts (06 R146) -/

/-- Launched streams of a context, with their dies. -/
def CtxSt.launchedDies (x : CtxSt) : List Die := (List.finRange 20).filter fun d => (x.stream d).launched

def Stream.atVerdict (t : Stream) : Bool := match t.hold with | some (.verdict _) => true | _ => false

/-- The contribution is made when the last stream reaches its UP.VERDICT. -/
def State.roundContribute (s : State) (c : Ctx) : State :=
  s.updCtx c fun x =>
    if x.roundSent.isNone && x.launchedDies.all (fun d => (x.stream d).atVerdict) then { x with roundSent := some x.verdict } else x

/-- UP.VERDICT fences, contributes, and holds its stream until the round verdict arrives (log 18). -/
def execUpVerdict (d : Die) (c : Ctx) (w : IWord) (s : State) : Out :=
  match s.tryIssue d c w 4 3 (fun _ _ => upVerdictOk w) with
  | .stays s => .next s
  | .go t addr =>
    if !((t.stream d c).getD Stream.reset).inflight.isEmpty then
      .next (s.updStream d c fun t => { t with hold := some .fence })
    else
      let t := if upSkip w then t.orVerdict c vSkip else t
      let fl := { inFlightOf t d c w addr 0 with verdictWait := true }
      .next ((t.updStream d c fun u => { u with hold := some (.verdict (upRound w)), inflight := [fl] }).roundContribute c)

/-- The stream's round number, where it waits for a round verdict. -/
def Stream.roundHeld (t : Stream) : Option Nat := match t.hold with | some (.verdict r) => some r | _ => none

/-- A stream's UP.VERDICT completes. -/
def State.verdictDone (s : State) (c : Ctx) (d : Die) : State :=
  match s.stream d c with
  | none => s
  | some t =>
    let fl := t.inflight
    let s := s.updStream d c fun t => { t with hold := none, inflight := [], rounds := t.rounds + 1 }
    fl.foldl (fun st f => st.complete d c f) s

/-- ROUND_VERDICT_RECEIVED: the reduced verdict of the round that the context's streams wait for. -/
def execRoundVerdictReceived (c : Ctx) (round : Nat) (verdict : BitVec 64) (roundsAgree : Bool) (s : State) : Out :=
  match s.ctx c with
  | none => .next s
  | some x =>
    match x.roundSent with
    | none => .next s
    | some own =>
      let v := verdictBits (verdict ||| own)
      let dies := x.launchedDies
      let s := s.updCtx c fun x => { x with roundSent := none, verdict := x.verdict ||| v }
      let fits := roundsAgree && dies.all fun d => (x.stream d).roundHeld = some round && (x.stream d).rounds = round
      if !fits then
        let d := dies.headD 0
        let f : FaultInfo := { cls := 4, reason := 14, sub := 3, unit := 5, valueB := 0, valueC := round }
        .next (s.stopFault d c ((x.stream d).pc - 1) f)
      else
        let s := s.updCtx c fun x => { x with
          roundVerdicts := SMap.insert x.roundVerdicts round v
          inPlaceStopped := x.inPlaceStopped || !clean v }
        .next (dies.foldl (fun st d => st.verdictDone c d) s)

end Sys2Proof.Machine
end

