-- ==== Sys2Proof/Machine/Commit.lean ====
section
/-! DEFINITION. The step marker's end: contribution at the fence, the commit by the verdict, the step record, and the
buddy checkpoint's generations (01 R18 to R20; 06 R144 to R151; 14 R349 to R352). -/
namespace Sys2Proof.Machine

/-! ### The fence -/

def Stream.atMk (t : Stream) : Bool := match t.hold with | some .mk => t.launched && t.fenced | _ => false

/-- Address of the MK that a stream is held by. -/
def CtxSt.mkAddr (x : CtxSt) (d : Die) : Nat := (x.stream d).pc - 1

/-- Pages of the context's pool that some die has retired, as offsets in the pool (07 R160, R167). -/
def State.poolRetired (s : State) (x : CtxSt) : List Nat :=
  let p := x.policyNow
  let first := polHbmBase p / 65536
  ((s.dies.toList.flatMap (·.retired)).filter fun g => first ≤ g && g < first + polHbmPages p).map (· - first)

/-- Keys of the entries that are neither complete nor untouched (06 R145). -/
def CtxSt.partialEntries (x : CtxSt) : List Nat :=
  if x.commitMode then [] else (x.entries.filter fun e => !e.2.isComplete && !e.2.untouched).map (·.1)

/-- Judges every entry at the fence; the code bytes of working copies start again at 0. -/
def CtxSt.judgeEntries (x : CtxSt) : CtxSt :=
  { x with entries := x.entries.map fun e => (e.1, { e.2 with complete := e.2.isComplete, codeBytes := if e.2.kind = 1 then 0 else e.2.codeBytes }) }

/-- MK_FENCE_PASSED: a halted D0 controller holds up MK (16 R404). The last launched stream of the context has passed its MK fence. -/
def execMkFencePassed (c : Ctx) (s : State) : Out :=
  match s.ctx c with
  | none => .next s
  | some x =>
    let dies := x.launchedDies
    if (s.die 0).tapSide.haltedController || x.mkSent.isSome || x.mkTail.isSome || dies.isEmpty || !dies.all (fun d => (x.stream d).atMk) then .next s
    else
      -- a die without a stream of the context has no fence of its own (13 R330; log 131)
      let s := (List.finRange 20).foldl (fun st d => if dies.contains d then st else st.latchAtMk c d x.stepNow) s
      let s := x.partialEntries.foldl (fun st k =>
        st.stopFault (dieOf (k / 1024)) c (x.mkAddr (dieOf (k / 1024))) (commitInfo 2 (k % 1024) 0)) s
      let stats := s.combineStats c
      let gone := s.poolRetired x
      let bad := dies.any fun d => (x.stream d).mkStep ≠ x.stepNow
      .next (s.updCtx c fun x => { x.judgeEntries with
        mkSent := some (x.stepNow, verdictBits x.verdict), mkStats := stats, mkBad := bad
        retirementMap := (x.retirementMap ++ gone).eraseDups
        mkQuiet := (dies.filterMap fun d => if (x.stream d).quietEn then some (x.stream d).quietUs else none).max? })

/-! ### The checkpoint image (14 R350) -/

/-- A descriptor of the context as one die walks it, in one area. -/
def CtxSt.tensorOf (x : CtxSt) (die idx area : Nat) : Tensor :=
  let q := descOf (SMap.get 0 x.descs idx)
  let off := if q.rel then (match x.chunkOf q with | some k => if q.loc = 1 then k.spBase else k.hbmBase | none => 0) else 0
  { idx := idx, q := q, die := die, area := area, base := off + (if area = 0 then q.baseA else q.baseB)
    sealAt := off + (if area = 0 then q.sealA else q.sealB) }

/-- Bytes of seals that a descriptor keeps: those of its blocks, or of its 16×16 units. -/
def Tensor.sealBytes (t : Tensor) : Nat :=
  if !t.q.sealed then 0 else if t.q.plane = 2 then 4 * (t.q.e0 / 16 * (t.q.e1 / 16)) else 4 * (t.blocks * t.q.rows)

/-- Planes of the entries that a die owns: the descriptors in a stack that name one of its entries (log 19). -/
def CtxSt.imagePlanes (x : CtxSt) : List (Nat × Nat × Nat) :=
  (List.range 20).flatMap fun d => x.descs.filterMap fun e =>
    let q := descOf e.2
    match SMap.find x.entries (entryKey d q.entry) with
    | some y => if q.loc = 2 && (q.paired || x.commitMode) && q.ok then some (d, e.1, b2n (y.area && q.paired)) else none
    | none => none

/-- The image of the context as it stands. -/
def State.takeImage (s : State) (x : CtxSt) (generation step : Nat) : Image :=
  { generation := generation, step := step, commitCount := x.commitCount.toNat, skipRun := x.skipRun
    fwRev := s.fwRev, numericsRev := s.numericsRev, ctl := x.ctl, chunks := x.chunks, slots := x.slots
    body := x.imagePlanes.map fun (d, i, area) =>
      let t := x.tensorOf d i area
      (d, i, (List.range t.q.rows).flatMap (fun r => t.readBytes s (t.rowAddr r) t.q.rowBytes) ++ t.readBytes s t.sealAt t.sealBytes) }

/-- Stores a run of bytes where a tensor's addresses lead. -/
def Tensor.putRun (t : Tensor) (s : State) (a : Nat) (bs : Bytes) : State :=
  (pieces a bs.length).foldl (fun st e => match t.place e.1 with
    | some p => st.write p ((bs.drop (e.1 - a)).take e.2) false
    | none => st) s

/-- Writes one plane of an image into the active area (14 R356). -/
def State.putPlane (s : State) (x : CtxSt) (e : Nat × Nat × Bytes) : State :=
  let q := descOf (SMap.get 0 x.descs e.2.1)
  let area := match SMap.find x.entries (entryKey e.1 q.entry) with | some y => b2n (y.area && q.paired) | none => 0
  let t := x.tensorOf e.1 e.2.1 area
  let s := (List.range t.q.rows).foldl (fun st r => t.putRun st (t.rowAddr r) ((e.2.2.drop (r * t.q.rowBytes)).take t.q.rowBytes)) s
  t.putRun s t.sealAt (e.2.2.drop t.flatLen)

/-! ### Generations (14 R349, R351, R352) -/

def Generation.done (g : Generation) : Bool := g.own && g.buddy

/-- The newest generation's copies are still being written. -/
def CtxSt.copying (x : CtxSt) : Bool := match x.generations with | g :: _ => !g.done | [] => false

/-- BUDDY_INTERVAL of the policy in force. -/
def buddyInterval (p : BitVec 256) : Nat := fld p 31 16

/-- At a committed MK: takes a generation, or posts that it was skipped. Answers whether one was taken. -/
def State.takeGeneration (s : State) (c : Ctx) (step : Nat) : Bool × State :=
  match s.ctx c with
  | none => (false, s)
  | some x =>
    match x.resilience with
    | none => (false, s)
    | some p =>
      if !(x.afterResume || x.commitLast + buddyInterval p ≤ x.commitCount.toNat) then (false, s)
      else if x.genLast ≠ 0 && x.restorable < x.genLast then
        (false, s.hostEvent 0x82 (some c.val) (eventBody 0 0 13 0 (x.genLast + 1) x.restorable 0 0))
      else
        let g : Generation := { image := s.takeImage x (x.genLast + 1) step, own := false, buddy := false }
        (true, s.updCtx c fun x => { x with genLast := x.genLast + 1, commitLast := x.commitCount.toNat, afterResume := false
                                            generations := (g :: x.generations).take 2 })

/-! ### The step record and the end of MK -/

/-- Leading rounds whose verdict was clean. -/
def leadingClean (m : SMap (BitVec 64)) : Nat := (m.takeWhile fun e => clean e.2).length

/-- The step record (06 Table 6.8). -/
def State.stepRecord (s : State) (c : Ctx) (x : CtxSt) (step : Nat) (v : BitVec 64) (o : MkOutcome) : Bytes :=
  let total := fun k => (x.entries.map fun e => e.2.marked k).foldl (· + ·) 0
  leBytes 64 (packNat [(step, 64), (v.toNat, 64), (b2n x.commitMode, 1), (o.code, 2), (0, 13), (x.roundVerdicts.length, 16),
    (leadingClean x.roundVerdicts, 16), (x.skipRun, 16), (x.commitCount.toNat, 64), (total mapWritten, 32), (total mapPartial, 32),
    (total mapSkipped, 32), (c.val, 8), (s.numericsRev.toNat, 8), (0, 16), ((Config.cycle s.freeCtr).toNat, 64),
    ((s.die 0).recordSeq.toNat, 32)])

/-- Writes the step record into the ring and the ledger (06 R151, 15 R380). -/
def State.writeStepRecord (s : State) (c : Ctx) (r : Bytes) : State :=
  let s := s.logDevice 0x03 1 (some c.val) false r
  match (s.ctx c).bind (·.stepRing) with
  | none => s
  | some ring =>
    let (ring, kept, s) := s.hostRingPush ring 64 r
    let s := s.updCtx c fun x => { x with stepRing := some ring }
    if kept then s else s.hostEvent 0x84 (some c.val) (eventBody 0 0 13 0 (leAt r 0 8) 0 0 0)

/-- Releases a stream from its MK: the instruction completes and the next step begins. -/
def State.mkDone (s : State) (c : Ctx) (d : Die) : State :=
  match s.stream d c with
  | none => s
  | some t =>
    if !t.atMk then s
    else
      let s := s.updStream d c fun t => { t with hold := none, fenced := false, rounds := 0, quietEn := false, inflight := [] }
      let s := (s.count d 0x003 0 (some c.val)).measure d 9 0 (some c.val) ((t.inflight.head?.map (·.born)).getD 0)
      t.inflight.foldl (fun st f => st.complete d c f) s

/-- Ends the step: maps, verdict and statistics are cleared, MK completes on every stream, the quiet window opens. -/
def State.endStep (s : State) (c : Ctx) (step : Nat) : State :=
  let dies := match s.ctx c with | some x => x.launchedDies | none => []
  let s := s.updCtx c fun x => { x with
    lastStep := some step, verdict := 0, mkSent := none, mkTail := none, mkStats := [], mkBad := false, roundVerdicts := []
    roundSent := none, inPlaceStopped := false
    quietUntil := (match x.mkQuiet with | some n => some (max (s.now + n) (x.quietUntil.getD 0)) | none => x.quietUntil)
    mkQuiet := none
    entries := x.entries.map fun e => (e.1, { e.2 with written := [], lastMap := e.2.written, lastStep := step, complete := false }) }
  let s := s.updDies fun _ x => { x with stats := SMap.eraseRange x.stats (c.val * 512) (c.val * 512 + 512) }
  (dies.foldl (fun st d => st.mkDone c d) s).sparesAtMk

/-- Low 64 bits of the SHA-512 digest of the policy record that the MK's decision uses: one that waits for this MK, or else
the one in force (07 R160, R174; log 124). -/
def CtxSt.policyDigest (x : CtxSt) : BitVec 64 := BitVec.ofNat 64 (digestNat 8 (x.policyNext.getD x.policyNow))

/-- Two sets of statistics records combined, field by field (07 R160); the empty one adds nothing. -/
def addStats (a b : Bytes) : Bytes :=
  if a.isEmpty then b else if b.isEmpty then a
  else (List.range 256).flatMap fun k => (List.range 2).flatMap fun side =>
    statBytes (addStat (statRecord a k side) (statRecord b k side))

/-- MK_REDUCTION_RECEIVED: what the other members of the group contributed, reduced: their verdict, statistics, policy
digests and retired pages; the device's own contribution joins it. Where the duplicated fall-back controller disagrees with itself
twice, no slot is written (12 R292, R293; log 130). -/
def execMkReductionReceived (c : Ctx) (step : Nat) (verdict : BitVec 64) (stats : Bytes) (check : FallbackCheck) (stepsAgree : Bool)
    (restorable : Nat) (retirementMap : List Nat) (s : State) : Out :=
  match s.ctx c with
  | none => .next s
  | some x =>
    match x.mkSent, x.mkTail with
    | some (n, own), none =>
      let bad := check.digests.any (· ≠ x.policyDigest) || !stepsAgree || x.mkBad || step ≠ n
      let v := verdictBits (verdict ||| own ||| (if bad then vFault else 0))
      if (s.die 0).tapSide.haltedController || (clean v && !x.commitMode && x.copying) then .next s
      else
        let d := x.launchedDies.headD 0
        let order : FaultInfo := { cls := 4, reason := 3, valueC := n, valueD := step }
        let s := if bad then (s.countFault d (some c.val) order).recordFault d (some c.val) (x.mkAddr d) order else s
        let armed := x.halt
        let s := s.compareRetry d 9 check.disagreed
        let s := if 2 ≤ check.disagreed then s.computeFault d c (x.mkAddr d) { cls := 1, reason := 9, unit := 9 } else s
        let s := if bad || 2 ≤ check.disagreed then s else s.fallbackAtMk c n (clean v) (addStats x.mkStats stats) (x.retirementMap ++ retirementMap)
        let o := mkOutcome v x.commitMode x.skipLimit x.skipRun
        let s := s.updCtx c fun y => { y with
          resilience := y.resilienceNext <|> y.resilience, resilienceNext := none, restorable := restorable
          restores := if y.resumeGen < restorable then 0 else y.restores
          commitCount := if o = .committed then y.commitCount + 1 else y.commitCount
          skipRun := if o = .committed then 0 else min (y.skipRun + 1) 65535
          entries := if o = .committed && !y.commitMode
            then y.entries.map fun e => (e.1, if e.2.complete then { e.2 with area := !e.2.area } else e.2) else y.entries }
        let (taken, s) := if o = .committed then s.takeGeneration c n else (false, s)
        let y := (s.ctx c).getD x
        let r := s.stepRecord c y n v o
        let halts := haltsNow armed (clean v) (y.halt && armed)
        let cause : Option StopCause :=
          if o = .stopped then some (if bad then .program else if bit v 2 then .none else .skipLimit)
          else if o = .partial_ && !x.inPlaceAction then some .partial_
          else if halts then some .halted
          else none
        if taken && x.commitMode then .next (s.updCtx c fun z => { z with mkTail := some r, mkStop := halts, mkSent := none })
        else
          let s := (s.writeStepRecord c r).endStep c n
          match cause with
          | some k => .next ((s.stopStreams c k).updCtx c fun z => { z with halt := false })
          | none => .next s
    | _, _ => .next s

end Sys2Proof.Machine
end

