-- ==== Sys2Proof/Machine/Move.lean ====
section
/-! DEFINITION. The move engine: copies, fills, seals, gather and scatter, windows, and the host-memory window (09 R220 to
R229; 15 R364, R368). -/
namespace Sys2Proof.Machine

/-! ### Body fields (09 Table 9.6) -/

def mvSrc (w : IWord) : Nat := fld w 75 64
def mvDst (w : IWord) : Nat := fld w 87 76
def mvIdx (w : IWord) : Nat := fld w 99 88
def mvQueue (w : IWord) : Nat := fld w 103 100
def mvConvert (w : IWord) : Bool := bit w 104
def mvKh (w : IWord) : Nat := fld w 111 108 + 1
def mvKw (w : IWord) : Nat := fld w 115 112 + 1
def mvSh (w : IWord) : Nat := fld w 118 116 + 1
def mvSw (w : IWord) : Nat := fld w 121 119 + 1
def mvDh (w : IWord) : Nat := fld w 124 122 + 1
def mvDw (w : IWord) : Nat := fld w 127 125 + 1
def mvPh (w : IWord) : Nat := fld w 131 128
def mvPw (w : IWord) : Nat := fld w 135 132
def mvImm (w : IWord) : Nat := fld w 167 136

/-- Fields that an operation uses beyond QUEUE. -/
structure MvUse where
  src : Bool := false
  dst : Bool := false
  idx : Bool := false
  convert : Bool := false
  window : Bool := false
  imm : Bool := false

/-- Every other field is 0 (09 R229). -/
def mvOk (w : IWord) (u : MvUse) : Bool :=
  (u.src || mvSrc w = 0) && (u.dst || mvDst w = 0) && (u.idx || mvIdx w = 0) && (u.convert || !mvConvert w) && fld w 107 105 = 0 &&
    (u.window || fld w 135 108 = 0) && (u.imm || mvImm w = 0) && fld w 255 168 = 0

def mvRead (idx : Nat) (fmts : List Nat) : Exec Tensor :=
  resolve idx { fmts := fmts, sealing := 0, far := true, host := true }

def mvWrite (idx : Nat) (fmts : List Nat) : Exec Tensor :=
  resolve idx { fmts := fmts, sealing := 0, far := true, host := true, unpaired := true }

/-- Counts bytes written by the queue (13 Table 13.2, 0x605). -/
def mvCount (w : IWord) (n : Nat) : Exec Unit := countE 0x605 (mvQueue w) n

/-- A value of a wide format that is no finite number. -/
def rawNonfinite (fmt : Nat) (e : PElem) : Bool := wideFmts.contains fmt && !e.2 && !wideFinite fmt e.1

/-- Writes one row of the primary output, the mismatched line as poison (12 R293). -/
def writeRow (t : Tensor) (r : Nat) (bs : List PByte) : Exec Unit := do
  let bad := (← get).bad
  writeSpan t r 0 (bs.zipIdx.map fun (b, i) => (b.1, b.2 || inBadLine bad (r * t.q.rowBytes + i)))

/-! ### MV.COPY, MV.FILL, MV.SEAL -/

def sameExtents (a b : Desc) : Bool := a.e0 = b.e0 && a.e1 = b.e1 && a.e2 = b.e2 && a.e3 = b.e3

def copyBody (w : IWord) : Exec Unit := do
  let a ← mvRead (mvSrc w) []
  let b ← mvWrite (mvDst w) []
  shapeIf (sameExtents a.q b.q && (a.q.fmt = b.q.fmt || (mvConvert w && wideFmts.contains a.q.fmt && wideFmts.contains b.q.fmt)))
    (mvDst w)
  let es ← readElems a
  setNonfinite (es.any fun r => r.any (rawNonfinite a.q.fmt))
  if a.q.fmt = b.q.fmt then writeElems b es
  else
    let out := es.map fun r => r.map fun e => (f32ToWide b.q.fmt (wideToF32 a.q.fmt e.1), e.2)
    setNonfinite (out.any fun r => r.any (rawNonfinite b.q.fmt))
    writeElems b out
  mvCount w b.flatLen

def fillBody (w : IWord) : Exec Unit := do
  let b ← mvWrite (mvDst w) []
  writeElems b (List.replicate b.q.rows (List.replicate b.q.e0 (mvImm w % 2 ^ fmtBits b.q.fmt, false)))
  mvCount w b.flatLen

/-- Fresh seals over the extent as it stands. A block with poison in it stays poison, and its seal is not checked (09 R216). -/
def sealBody (w : IWord) : Exec Unit := do
  let b ← mvWrite (mvDst w) []
  shapeIf b.q.sealed (mvDst w)
  (List.range b.q.rows).forM fun r => (List.range b.blocks).forM fun k => do
    let s ← getS
    let a := b.rowAddr r + 512 * k
    let n := min 512 (b.q.rowBytes - 512 * k)
    let j := r * b.blocks + k
    let bs := b.readBytes s a n
    countStackReads b a n
    match b.runPoison s a n with
    | some o => metPoison o a
    | none => pure ()
    storeSeal b j bs
  mvCount w (4 * b.blocks * b.q.rows)

/-! ### MV.SETCOPY -/

/-- Headers of one set that disagree (09 R222). -/
def headersDisagree (base : Nat) (hs : List (BitVec 256)) : Option Pairing :=
  let h0 := hs.headD 0
  (hs.find? fun h => !(hCode h = hCode h0 && hForm h = hForm h0 && hBlock h = hBlock h0 && hOutliers h = hOutliers h0 && hColsum h = hColsum h0)).map
    fun h => { reason := 8, first := base, second := base, block := 0, valA := h.toNat % 2 ^ 64, valB := h0.toNat % 2 ^ 64 }

/-- The production that a header declares, without contents. -/
def declared (g : SetShape) (h : BitVec 256) : SetOut :=
  { g := g, form := hForm h % 3, code := if hForm h % 3 = 0 then hCode h else 1, shift := hShift h, outliers := hOutliers h, colsum := hColsum h
    outs := (0, g.out), reds := (0, g.red), codes := [], scales := [], zps := #[], outl := #[], sums := [], headers := [], poison := [] }

/-- Writes the given planes of a set whole as poison. -/
def poisonPlanes (g : SetShape) (np : Nat) (ps : List Nat) (planes : List (Option Tensor)) : Exec Unit :=
  ps.forM fun k => match planes.getD k none with
    | some t => writePlane t g k ((List.range (g.planeBytes k np)).map fun i => (i, (0, true)))
    | none => pure ()

/-- A set whose first header is poison: its form and its panels are unknown, so the planes that every set has are written
whole as poison (DESIGN CHOICE, log 126). -/
def poisonSet (base : Nat) : Exec Unit :=
  [(0, [6]), (1, [8, 9, 10]), (2, [6])].forM fun e => do
    let t ← resolve (base + e.1) { plane := e.1 + 1, fmts := e.2, sealing := if e.1 = 2 then 2 else 0, far := true, host := true, unpaired := true }
    writeFlat t 0 (List.replicate t.flatLen (0, true))

/-- MV.SETCOPY. A header whose FORM or CODE is invalid declares no planes; the piece-0 planes are then the ones written as
poison (log 126). -/
def setcopyBody (w : IWord) : Exec Unit := do
  let v ← openSet (mvSrc w) { far := true, host := true, loose := true }
  let h := v.hdr0
  if v.hdrs.length = 1 && v.hdrPoison then poisonSet (mvDst w)
  else
    let v := { v with pairing := v.pairing <|> (if v.hdrPoison then none else headersDisagree v.base v.hdrs) }
    let v ← if v.pairing.isSome || v.hdrPoison then pure v else readUnits v (0, v.g.out) (0, v.g.red)
    let out := declared v.g h
    let planes ← openDest (mvDst w) out .active true true
    let np := panelCount (hShift h) v.g.out
    match v.pairing with
    | some p => raisePairing p
    | none => pure ()
    if v.pairing.isSome || v.hdrPoison then
      poisonPlanes v.g np out.planes planes
      match planes.getD 0 none with
      | some t => writeFlat t 0 (List.replicate (32 * np) (0, true))
      | none => pure ()
    else
      let s ← getS
      let hit := out.hitUnits (← get).hit np
      let unitOf := fun (b : Nat) => v.g.unit (v.g.outOf b) (v.g.redOf b)
      let bad := (v.badUnits ++ hit).eraseDups
      if !bad.isEmpty then setTainted
      out.planes.forM fun k => match planes.getD k none, v.plane k with
        | some t, some f =>
          writePlane t v.g k ((List.range (v.g.planeBytes k np)).map fun i => (i, (f.flatByte s i, bad.contains (unitOf (v.g.blockAt k i)))))
        | _, _ => pure ()
      -- the unit seals go unchanged; a set that has none gets fresh ones where its copy is sealed
      match planes.getD 1 none, v.plane 1 with
      | some t, some f =>
        if !t.q.sealed then pure ()
        else if f.q.sealed then
          (List.range v.g.units).forM fun u => storeRun t (t.sealAt + 4 * u) (f.readBytes s (f.sealAt + 4 * u) 4) false
        else sealUnits (setInOf (mvDst w) v.g v.hdrs planes) (List.range v.g.units)
      | _, _ => pure ()
      match planes.getD 0 none with
      | some t => onOutput 12 (writeFlatOut t 0 (((v.hdrs.flatMap fun x => leBytes 32 x.toNat)).map fun b => (b, false)))
      | none => pure ()
    mvCount w ((out.planes.map fun k => v.g.planeBytes k np).foldl (· + ·) (32 * np))

/-! ### Gather and scatter (09 R224 to R227) -/

/-- What an index becomes among n rows. -/
inductive Sel where
  | row (i : Nat)
  | zero
  /-- index fault -/
  | fault
  | poison
  deriving DecidableEq, Repr

/-- Table 9.5. -/
def selectRow (policy n : Nat) (i : Int) : Sel :=
  if 0 ≤ i && i < (n : Int) then .row i.toNat
  else match policy with
    | 0 => .fault
    | 1 => if n = 0 then .zero else .row (i % (n : Int)).toNat
    | 2 => if n = 0 then .zero else .row (if i < 0 then 0 else n - 1)
    | _ => .zero

/-- The index tensor: its positions resolved among n rows. -/
def readIndex (idx n : Nat) : Exec (List (Sel × Int)) := do
  let t ← mvRead idx [4, 5]
  shapeIf (t.q.e1 * t.q.e2 * t.q.e3 = 1) idx
  let es ← readElems t
  return (es.headD []).map fun e =>
    let i : Int := if t.q.fmt = 5 then signedOf 32 e.1 else (e.1 : Int)
    (if e.2 then .poison else selectRow t.q.policy n i, i)

/-- An index fault's record (09 R224). -/
def raiseIndex (pos : Nat) (i : Int) : Exec Unit :=
  raiseCompute { cls := 1, reason := 13, unit := 6, valueB := pos, valueC := twos 64 i }

/-- Index positions of one 64-position window that a coalesced read serves (09 R225). -/
def reuse (sels : List (Sel × Int)) : Nat :=
  ((chunksOf 64 sels).map fun win =>
    let rows := win.filterMap fun e => match e.1 with | .row i => some i | _ => none
    rows.length - rows.eraseDups.length).foldl (· + ·) 0

/-- A row's extent bytes with the bits beyond EXT0 as 0 (09 R203). -/
def Desc.trim (q : Desc) (row : List PByte) : List PByte :=
  row.zipIdx.map fun (b, i) => if 8 * (i + 1) ≤ q.e0 * fmtBits q.fmt then b
    else (BitVec.ofNat 8 (b.1.toNat % 2 ^ (q.e0 * fmtBits q.fmt - 8 * i)), b.2)

def gatherBody (w : IWord) : Exec Unit := do
  let a ← mvRead (mvSrc w) []
  let b ← mvWrite (mvDst w) []
  shapeIf (b.q.fmt = a.q.fmt && b.q.e0 = a.q.e0 && b.q.e2 = 1 && b.q.e3 = 1) (mvDst w)
  let sels ← readIndex (mvIdx w) a.q.rowsN
  shapeIf (b.q.e1 = sels.length) (mvDst w)
  let zeros : List PByte := List.replicate b.q.rowBytes (0, false)
  -- a window of 64 positions reads each distinct row once (09 R225)
  (chunksOf 64 sels.zipIdx).forM fun win => do
    let wanted := (win.filterMap fun e => match e.1.1 with | .row k => some k | _ => none).eraseDups
    let rows ← wanted.mapM (readRow a)
    setNonfinite (rows.any fun row => (elemsOf (fmtBits a.q.fmt) a.q.e0 row).any (rawNonfinite a.q.fmt))
    win.forM fun ((sel, i), r) => match sel with
      | .row k => writeRow b r (b.q.trim (rows.getD (wanted.idxOf k) zeros))
      | .zero => writeRow b r zeros
      | .fault => do
        raiseIndex r i
        writeRow b r (zeros.map fun x => (x.1, true))
      | .poison => writeRow b r (zeros.map fun x => (x.1, true))
  countE 0x607 0 (reuse sels)
  mvCount w b.flatLen

def scatterBody (w : IWord) : Exec Unit := do
  let a ← mvRead (mvSrc w) []
  let b ← mvWrite (mvDst w) []
  shapeIf (a.q.fmt = b.q.fmt && a.q.e0 = b.q.e0 && a.q.e2 = 1 && a.q.e3 = 1) (mvSrc w)
  let sels ← readIndex (mvIdx w) b.q.rowsN
  shapeIf (a.q.e1 = sels.length) (mvSrc w)
  sels.zipIdx.forM fun ((sel, i), r) => do
    match sel with
    | .row k => do
      let row ← readRow a r
      -- the highest position that selects a row is written
      if (sels.drop (r + 1)).any (fun e => e.1 = .row k) then pure ()
      else
        setNonfinite ((elemsOf (fmtBits a.q.fmt) a.q.e0 row).any (rawNonfinite a.q.fmt))
        writeRow b k (b.q.trim row)
        mvCount w b.q.rowBytes
    | .zero => pure ()
    | .fault => raiseIndex r i
    | .poison => setTainted

/-- The exact sum of values, rounded once to a wide format, with the rules for infinities and NaN (09 R227). -/
def exactSum (fmt : Nat) (vs : List (BitVec 32)) : Nat :=
  let pos := vs.any fun v => v = 0x7F800000
  let neg := vs.any fun v => v = 0xFF800000
  if vs.any isNanF || (pos && neg) then nanBits fmt
  else if pos then f32ToWide fmt (f32Inf false)
  else if neg then f32ToWide fmt (f32Inf true)
  else dyadWide fmt (vs.foldl (fun a v => a.add (valF v)) Dyad.zero)

def scatterAddBody (w : IWord) : Exec Unit := do
  let a ← mvRead (mvSrc w) wideFmts
  let b ← mvWrite (mvDst w) [0, 1]
  shapeIf (a.q.e0 = b.q.e0 && a.q.e2 = 1 && a.q.e3 = 1) (mvSrc w)
  let sels ← readIndex (mvIdx w) b.q.rowsN
  shapeIf (a.q.e1 = sels.length) (mvSrc w)
  sels.zipIdx.forM fun ((sel, i), r) => match sel with
    | .fault => raiseIndex r i
    | .poison => setTainted
    | _ => pure ()
  let targets := (sels.filterMap fun e => match e.1 with | .row k => some k | _ => none).eraseDups
  targets.forM fun k => do
    let prior ← readRow b k
    let from_ := sels.zipIdx.filterMap fun (e, r) => if e.1 = .row k then some r else none
    let rows ← from_.mapM (readRow a)
    let vals : List (List PVal) := ((elemsOf (fmtBits b.q.fmt) b.q.e0 prior).map fun e => (wideToF32 b.q.fmt e.1, e.2)) ::
      rows.map fun row => (elemsOf (fmtBits a.q.fmt) a.q.e0 row).map fun e => (wideToF32 a.q.fmt e.1, e.2)
    let out := (transposeL ((0, false) : PVal) vals).map fun col => (exactSum b.q.fmt (col.map (·.1)), col.any (·.2))
    setNonfinite ((vals.any fun r => r.any fun v => !v.2 && !isFiniteF v.1) || out.any (rawNonfinite b.q.fmt))
    writeRow b k (bytesOfElems (fmtBits b.q.fmt) out)
    mvCount w b.q.rowBytes

/-! ### MV.WINDOW (09 R228) -/

/-- Output length of one axis, floor((n + 2 pad − dil (k − 1) − 1) / stride) + 1 (09 R228); none where it is below 0. -/
def windowLen (n pad dil k stride : Nat) : Option Nat :=
  if dil * (k - 1) + 1 ≤ n + 2 * pad + stride then some ((n + 2 * pad + stride - dil * (k - 1) - 1) / stride) else none

def windowBody (w : IWord) : Exec Unit := do
  let a ← mvRead (mvSrc w) wideFmts
  let b ← mvWrite (mvDst w) wideFmts
  let cN := a.q.e0
  let wd := a.q.e1
  let ht := a.q.e2
  match windowLen ht (mvPh w) (mvDh w) (mvKh w) (mvSh w), windowLen wd (mvPw w) (mvDw w) (mvKw w) (mvSw w) with
  | some oh, some ow =>
    shapeIf (a.q.fmt = b.q.fmt && b.q.e2 = 1 && b.q.e3 = 1 && b.q.e0 = mvKh w * mvKw w * cN && b.q.e1 = a.q.e3 * oh * ow) (mvDst w)
    let src := ((← readElems a).map List.toArray).toArray
    let zero : List PElem := List.replicate cN (0, false)
    let rows := (List.range a.q.e3).flatMap fun n => (List.range oh).flatMap fun y => (List.range ow).map fun x =>
      (List.range (mvKh w)).flatMap fun kh => (List.range (mvKw w)).flatMap fun kw =>
        let py := y * mvSh w + kh * mvDh w
        let px := x * mvSw w + kw * mvDw w
        if mvPh w ≤ py && py - mvPh w < ht && mvPw w ≤ px && px - mvPw w < wd
        then (src.getD ((n * ht + (py - mvPh w)) * wd + (px - mvPw w)) #[]).toList else zero
    setNonfinite (rows.any fun r => r.any (rawNonfinite a.q.fmt))
    writeElems b rows
    mvCount w b.flatLen
  | _, _ => shapeFault (mvDst w)

/-! ### The host-memory window (15 R364, R368) -/

/-- A descriptor of the context that names host memory. -/
def CtxSt.inHost (x : CtxSt) (idx : Nat) : Bool :=
  let q := descOf (SMap.get 0 x.descs idx)
  q.loc = 2 && 0x800000000000 ≤ q.baseA

/-- The body of an MV word. -/
def mvBody (w : IWord) : Exec Unit :=
  match fld w 11 4 with
  | 1 => copyBody w
  | 2 => setcopyBody w
  | 3 => gatherBody w
  | 4 => scatterBody w
  | 5 => scatterAddBody w
  | 6 => windowBody w
  | 7 => fillBody w
  | _ => sealBody w

/-- Positions of the set at `base` that its first header, as it stands, declares. -/
def setPositions (base : Nat) : Exec (List Nat) := do
  let t ← resolve base { plane := 1, fmts := [6], sealing := 0, far := true, host := true }
  let s ← getS
  return 0 :: heldPlanes (wordOf 256 ((List.range 32).map (t.flatByte s)))

/-- Descriptors that an MV operation reads, and those that it writes. -/
def mvIndices (w : IWord) : Exec (List Nat × List Nat) := do
  match fld w 11 4 with
  | 1 | 6 => return ([mvSrc w], [mvDst w])
  | 3 | 4 => return ([mvSrc w, mvIdx w], [mvDst w])
  | 5 => return ([mvSrc w, mvIdx w, mvDst w], [mvDst w])
  | 2 =>
    let ps ← setPositions (mvSrc w)
    return (ps.map (mvSrc w + ·), ps.map (mvDst w + ·))
  | _ => return ([], [mvDst w])

/-- The same, of a word of the context; where its set cannot be walked, the set's first descriptor alone. -/
def State.moveIndices (s : State) (d : Die) (c : Ctx) (w : IWord) : List Nat × List Nat :=
  match (mvIndices w).run (Run.start s d c 0 6 none (inFlightOf s d c w 0 0)) with
  | .ok (e, _) => e
  | .error _ => ([mvSrc w], [mvDst w])

def State.readsHost (s : State) (d : Die) (c : Ctx) (w : IWord) : Bool :=
  match s.ctx c with
  | some x => (s.moveIndices d c w).1.any x.inHost
  | none => false

def State.touchesHost (s : State) (d : Die) (c : Ctx) (w : IWord) : Bool :=
  match s.ctx c with
  | some x => (s.moveIndices d c w).1.any x.inHost || (s.moveIndices d c w).2.any x.inHost
  | none => false

/-- Runs of host memory that descriptors name: host address and length, in the order of the requests. -/
def CtxSt.hostRuns (x : CtxSt) (idxs : List Nat) : List (Nat × Nat) :=
  idxs.flatMap fun i =>
    if x.inHost i then
      let q := descOf (SMap.get 0 x.descs i)
      let t : Tensor := { idx := i, q := q, die := 0, area := 0, base := q.baseA, sealAt := 0 }
      (List.range q.rows).map fun r => (t.rowAddr r - 0x800000000000, q.rowBytes)
    else []

/-- A move that is not to run yet waits in its queue: its descriptors resolve, and are kept as they are now (09 R202, R220).
`asked` says that its requests go out to the host. -/
def mvWait (w : IWord) (asked : Bool) : Exec Unit := do
  let (rs, ws) ← mvIndices w
  let isSet := fld w 11 4 = 2
  if !isSet then
    rs.forM fun i => do let _ ← mvRead i []
    ws.forM fun i => do let _ ← mvWrite i []
  let x ← getCtx
  let r ← get
  let m : MoveWait := { ctx := r.c.val, num := r.fl.num, queue := mvQueue w, word := w, descs := x.descs, asked := asked }
  modS fun s => s.updDie r.d fun y => { y with moves := y.moves ++ [m] }
  modify fun r => { r with fl := { r.fl with moveWait := true, badLine := r.bad } }

/-- A host request that is refused, or made while the host link is down. -/
def hostRefused (w : IWord) : Exec Unit := do
  let r ← get
  if r.s.readsHost r.d r.c w then mvBody w
  else
    let x ← getCtx
    raiseMemory { cls := 2, reason := 17, unit := 6, valueB := (descOf (SMap.get 0 x.descs (mvDst w))).baseA }
    setTainted

/-- Marks the runs that the operation reads from the host as poison, or stores the data that the host returned. -/
def State.hostPoisonRuns (s : State) (runs : List (Nat × Nat)) : State :=
  runs.foldl (fun st e => (pieces e.1 e.2).foldl (fun st p => st.mark (.host p.1) .memory) st) s

/-- Stores what the host returned for the runs, and answers what of it is left. -/
def State.hostStore (s : State) (runs : List (Nat × Nat)) (data : Bytes) : State × Bytes :=
  runs.foldl (fun (acc : State × Bytes) e =>
    let s := acc.1.putBytes (.host e.1) (slice acc.2 0 e.2)
    ((pieces e.1 e.2).foldl (fun st p => st.unmark (.host p.1)) s, acc.2.drop e.2)) (s, data)

/-- What an MV word does where it need not wait; while the host link is down an access to the window completes as poison. -/
def mvNow (w : IWord) : Exec Unit := do
  let r ← get
  if r.s.host.link.isNone && r.s.touchesHost r.d r.c w then
    let x ← getCtx
    modS fun s => s.hostPoisonRuns (x.hostRuns (s.moveIndices r.d r.c w).1)
    hostRefused w
  else mvBody w

/-- An MV row. It waits for the earlier moves of its queue (09 R220); an access to the window goes out to the host and waits
for its answer. -/
def mvEngine (d : Die) (c : Ctx) (w : IWord) (op : Nat) (x : Phys) (ok : Bool) (s : State) : Out :=
  match s.tryIssue d c w 5 op (fun _ _ => ok) with
  | .stays s => .next s
  | .go t addr =>
    if (t.die d).moves.any (·.queue = mvQueue w) then .next (t.runEngine d c w addr 6 (mvQueue w) x (mvWait w false))
    else if t.host.link.isSome && t.touchesHost d c w then .next (t.runEngine d c w addr 6 (mvQueue w) x (mvWait w true))
    else .next (if t.holdsBack d c w addr 6 (mvQueue w) (mvNow w) then s else t.runEngine d c w addr 6 (mvQueue w) x (mvNow w))

def execMvCopy (d : Die) (c : Ctx) (w : IWord) (x : Phys) (s : State) : Out :=
  mvEngine d c w 1 x (mvOk w { src := true, dst := true, convert := true }) s

def execMvSetcopy (d : Die) (c : Ctx) (w : IWord) (x : Phys) (s : State) : Out :=
  mvEngine d c w 2 x (mvOk w { src := true, dst := true }) s

def execMvGather (d : Die) (c : Ctx) (w : IWord) (x : Phys) (s : State) : Out :=
  mvEngine d c w 3 x (mvOk w { src := true, dst := true, idx := true }) s

def execMvScatter (d : Die) (c : Ctx) (w : IWord) (x : Phys) (s : State) : Out :=
  mvEngine d c w 4 x (mvOk w { src := true, dst := true, idx := true }) s

def execMvScatterAdd (d : Die) (c : Ctx) (w : IWord) (x : Phys) (s : State) : Out :=
  mvEngine d c w 5 x (mvOk w { src := true, dst := true, idx := true }) s

def execMvWindow (d : Die) (c : Ctx) (w : IWord) (x : Phys) (s : State) : Out :=
  mvEngine d c w 6 x (mvOk w { src := true, dst := true, window := true }) s

def execMvFill (d : Die) (c : Ctx) (w : IWord) (x : Phys) (s : State) : Out :=
  mvEngine d c w 7 x (mvOk w { dst := true, imm := true }) s

def execMvSeal (d : Die) (c : Ctx) (w : IWord) (x : Phys) (s : State) : Out :=
  mvEngine d c w 8 x (mvOk w { dst := true }) s

/-! ### Moves that waited -/

/-- A move that waited runs, with the descriptors that it issued with, and leaves its queue. -/
def State.runMove (s : State) (d : Die) (m : MoveWait) (body : Exec Unit) : State :=
  let c := ctxOf m.ctx
  let s := s.updDie d fun x => { x with moves := x.moves.erase m }
  match s.stream d c with
  | none => s
  | some t =>
    match t.inflight.findIdx? (fun e => e.num = m.num && e.moveWait) with
    | none => s
    | some i =>
      match t.inflight[i]? with
      | none => s
      | some fl =>
        let fl := { fl with moveWait := false }
        match (withDescs m.descs body).run { Run.start s d c fl.addr 6 none fl with bad := fl.badLine } with
        | .error t =>
          (s.updStream d c fun u => { u with inflight := u.inflight.set i fl }).stopFault d c fl.addr t.info t.cause
        | .ok (_, r) => r.close fl.nonfinite fun l => l.set i r.fl

/-- The context as the move that waits sees it. -/
def State.asIssued (s : State) (m : MoveWait) : State := s.updCtx (ctxOf m.ctx) fun x => { x with descs := m.descs }

/-- The head of a queue whose turn has come runs, or asks the host, by fuel: a queue executes in order (09 R220). -/
def State.advanceQueue (d : Die) (q : Nat) : Nat → State → State
  | 0, s => s
  | n + 1, s =>
    match (s.die d).moves.find? (·.queue = q) with
    | none => s
    | some m =>
      if m.asked then s
      else if s.host.link.isSome && (s.asIssued m).touchesHost d (ctxOf m.ctx) m.word then
        s.updDie d fun x => { x with moves := x.moves.map fun k => if k = m then { k with asked := true } else k }
      else State.advanceQueue d q n (s.runMove d m (mvNow m.word))

/-- Drops what a context that is no more left in the queues of a die. -/
def State.dropMoves (s : State) (d : Die) (c : Ctx) : State :=
  let s := s.updDie d fun x => { x with moves := x.moves.filter (·.ctx ≠ c.val) }
  (List.range 16).foldl (fun st q => State.advanceQueue d q ((st.die d).moves.length) st) s

/-- What a host's reply puts into the window, and what the move then does. A set's planes are known from its header, which
comes first. -/
def State.takeReply (s : State) (d : Die) (m : MoveWait) (reply : HostReply) : State × Exec Unit :=
  let c := ctxOf m.ctx
  let runs := fun (s : State) => match (s.asIssued m).ctx c with
    | some x => x.hostRuns ((s.asIssued m).moveIndices d c m.word).1
    | none => []
  match reply with
  | .completed data =>
    let first := (runs s).take 1
    let (s, _) := s.hostStore first data
    ((s.hostStore (runs s) data).1, mvBody m.word)
  | .refused => (s.hostPoisonRuns (runs s), hostRefused m.word)
  | .poisoned _ => (s.hostPoisonRuns (runs s), if (s.asIssued m).readsHost d c m.word then mvBody m.word else hostRefused m.word)

/-- The index-th instruction in flight of a stream gets its answer from the host. -/
def State.hostAnswer (s : State) (d : Die) (c : Ctx) (index : Nat) (reply : HostReply) : State :=
  match (s.stream d c).bind (·.inflight[index]?) with
  | none => s
  | some fl =>
    match (s.die d).moves.find? fun m => m.ctx = c.val && m.num = fl.num && m.asked with
    | none => s
    | some m =>
      let (s, body) := s.takeReply d m reply
      let s := s.runMove d m body
      State.advanceQueue d m.queue (s.die d).moves.length s

/-- HOST_WINDOW_COMPLETION: the host completes, refuses or poisons a request. -/
def execHostWindowCompletion (d : Die) (c : Ctx) (index : Nat) (reply : HostReply) (s : State) : Out :=
  if s.host.link.isNone then .next s else .next (s.hostAnswer d c index reply)

end Sys2Proof.Machine
end

