-- ==== Sys2Proof/Machine/LongRuns.lean ====
section
/-! DEFINITION. Keeping a run alive: copies of a generation, stop classes, restores (14 R347 to R356). -/
namespace Sys2Proof.Machine

/-! ### Launching streams (01 Table 1.11; 14 R356; 15 R381) -/

/-- A stream as a launch leaves it, at instruction `entry`. -/
def launched (entry : Nat) : Stream := { Stream.reset with launched := true, entry := entry, pc := entry }

/-- Draws the first sampling gap of a launched stream (13 R327). -/
def State.firstGap (s : State) (c : Ctx) (d : Die) : State :=
  match s.ctx c with
  | none => s
  | some x =>
    if x.samplePeriod = 0 then s
    else
      let (n, s) := s.draw
      s.updStream d c fun t => { t with nextSample := sampleGap x.samplePeriod n }

/-- What a context forgets as its streams start: the running step's flags, rounds, maps and contributions, and
accumulations left behind by stopped streams (log 20). -/
def CtxSt.freshStep (x : CtxSt) : CtxSt :=
  { x with
    lastStep := none, stopped := none, jobClass := 0, restart := 0, verdict := 0, mkSent := none, mkStats := [], mkBad := false
    mkQuiet := none, mkTail := none, mkStop := false, roundVerdicts := [], roundSent := none, inPlaceStopped := false, halt := false, quietUntil := none
    entries := x.entries.map fun e => (e.1, { e.2 with written := [], codeBytes := 0, complete := false }) }

/-- Starts the streams of the dies in `mask`, each at its entry. What the context's moves of an earlier run still wait for
goes with that run (log 20). -/
def State.startStreams (s : State) (c : Ctx) (mask : BitVec 20) (entryOf : Stream → Nat) : State :=
  let s := s.updCtx c fun x => x.updStreams fun d t => if mask.getLsbD d then launched (entryOf t) else t
  let s := s.updDies fun d y =>
    if mask.getLsbD d then { y with accs := y.accs.filter (·.ctx ≠ c.val), stats := SMap.eraseRange y.stats (c.val * 512) (c.val * 512 + 512) } else y
  (List.finRange 20).foldl (fun st (d : Die) => if mask.getLsbD d then (st.dropMoves d c).firstGap c d else st) s

/-! ### Copies of a generation (14 R348, R351, R352) -/

/-- Marks one copy of a generation written. -/
def markCopy (own : Bool) (generation : Nat) (gs : List Generation) : List Generation :=
  gs.map fun g => if g.image.generation = generation then (if own then { g with own := true } else { g with buddy := true }) else g

/-- GENERATION_COPY_DONE: the own copy is written, or the buddy has acknowledged the remote one and says whether it
names this member back. -/
def execGenerationCopyDone (c : Ctx) (generation : Nat) (own : Bool) (namesBack : Bool) (s : State) : Out :=
  match s.ctx c with
  | none => .next s
  | some x =>
    if !x.generations.any (fun g => g.image.generation = generation) then .next s
    else if !own && !namesBack && !x.buddyChecked then
      .next (s.stopFault 0 c 0 { (commitInfo 5 0 0) with unit := 13 })
    else
      let s := s.updCtx c fun x => { x with generations := markCopy own generation x.generations, buddyChecked := x.buddyChecked || !own }
      match s.ctx c with
      | none => .next s
      | some y =>
        match y.mkTail with
        | some r =>
          if y.copying then .next s
          else
            let s := (s.writeStepRecord c r).endStep c (leAt r 0 8)
            if y.mkStop then .next ((s.stopStreams c .halted).updCtx c fun z => { z with halt := false, mkStop := false }) else .next s
        | none => .next s

/-! ### Stop classes (14 R354, R355) -/

/-- The policy action of a job stop class: 0 HOLD, 1 RESTORE, 2 CASTLE. -/
def actionOf (p : Option (BitVec 256)) (cls : Nat) : Nat :=
  match p with
  | none => 0
  | some w =>
    match cls with
    | 2 => fld w 41 40
    | 3 => fld w 43 42
    | 4 => fld w 45 44
    | 5 | 6 | 7 => fld w 47 46
    | _ => 0

def restoreLimit (p : Option (BitVec 256)) : Nat := match p with | some w => fld w 39 32 | none => 0

/-- The STOP_CLASS event (15 Table 15.6). -/
def State.postStopClass (s : State) (c : Ctx) (job own : Nat) (missing : List Nat) : State :=
  s.hostEvent 0x81 (some c.val) (eventBody 0 0 13 0 job own missing.length 0 ++ (missing.take 192).flatMap (leBytes 2))

/-- STOP_CLASS_DETERMINED: the express maximum of the members' stop classes, or the members that did not contribute. -/
def execStopClassDetermined (c : Ctx) (maxClass : Nat) (missing : List Nat) (s : State) : Out :=
  match s.ctx c with
  | none => .next s
  | some x =>
    match x.stopped with
    | none => .next s
    | some k =>
      let job := if missing.isEmpty then max (min maxClass 9) k.code else 7
      let act := actionOf x.resilience job
      let act := if act = 1 && restoreLimit x.resilience < x.restores + 1 then 0 else act
      let s := s.updCtx c fun x => { x with jobClass := job, restart := act }
      .next (s.postStopClass c job k.code missing)

/-! ### Restores (14 R353, R356) -/

/-- The restore writes a generation's image and relaunches every stream at its launch address. -/
def State.restoreImage (s : State) (c : Ctx) (x : CtxSt) (g : Image) : State :=
  let s := g.body.foldl (fun st e => st.putPlane x e) s
  let s := s.updCtx c fun x => { x.freshStep with
    ctl := g.ctl, chunks := g.chunks, slots := g.slots, commitCount := BitVec.ofNat 64 g.commitCount, skipRun := g.skipRun
    genLast := g.generation, commitLast := g.commitCount, startStep := g.step + 1, afterResume := true
    restores := x.restores + 1, resumeGen := g.generation
    generations := x.generations.filter fun h => h.image.generation ≤ g.generation }
  s.startStreams c x.launchMask (·.entry)

/-- RESTORE of a generation: from the own copy where it reads clean, else from the buddy's; with neither, and with an
image of another firmware or numerics revision, nothing is restored and the class is UNRECOVERABLE. -/
def execRestore (c : Ctx) (generation : Nat) (ownOk : Bool) (buddyImage : Option Image) (s : State) : Out :=
  match s.ctx c with
  | none => .next s
  | some x =>
    if x.running || (x.stopped.isSome && x.restart = 0) then .next s
    else
      let own := if ownOk then (x.generations.find? fun g => g.own && g.image.generation = generation).map (·.image) else none
      let g := own <|> (buddyImage.bind fun g => if g.generation = generation then some g else none)
      match (g.bind fun g => if g.fwRev = s.fwRev && g.numericsRev = s.numericsRev then some g else none) with
      | some g => .next (s.restoreImage c x g)
      | none =>
        let s := s.updCtx c fun x => { x with stopped := some .unrecoverable, jobClass := 8, restart := 0 }
        .next (s.postStopClass c 8 8 [])

end Sys2Proof.Machine
end

