-- ==== Sys2Proof/Machine/Pkg.lean ====
section
/-! DEFINITION. Signed packages and gambits: their checks, the gambit key list, and what an accepted one changes in flash
(16 R390 to R397; 12 R310, R311). -/
namespace Sys2Proof.Machine

/-! ### Packages (16 Tables 16.5, 16.6) -/

def pkgType (p : Bytes) : Nat := leAt p 4 1
def pkgSigner (p : Bytes) : Nat := leAt p 5 1
def pkgBodyLen (p : Bytes) : Nat := leAt p 8 4
def pkgSec (p : Bytes) : Nat := leAt p 12 4
def pkgDevice (p : Bytes) : Nat := leAt p 16 8
def pkgNonce (p : Bytes) : Nat := leAt p 24 8
def pkgFwRev (p : Bytes) : Nat := leAt p 32 2
def pkgNumerics (p : Bytes) : Nat := leAt p 34 1
def pkgBody (p : Bytes) : Bytes := (p.drop 64).take (pkgBodyLen p)
def pkgModulus (p : Bytes) : Bytes := (p.drop (64 + pkgBodyLen p)).take 512
def pkgSignature (p : Bytes) : Bytes := (p.drop (576 + pkgBodyLen p)).take 512

def zeroBytes (bs : Bytes) : Bool := bs.all (· = 0)

/-- Reserved bits of the header, and header fields that the type does not use, are 0; so is the reserved space of the body
(16 R391; log 45). -/
def pkgReserved (p : Bytes) : Bool :=
  let b := pkgBody p
  leAt p 7 1 = 0 && zeroBytes ((p.drop 35).take 29) &&
    (pkgType p = 1 || (pkgSec p = 0 && pkgFwRev p = 0 && pkgNumerics p = 0)) && (pkgType p ≠ 1 || pkgSec p ≤ 64) &&
    (pkgType p = 4 || pkgNonce p = 0) &&
    (match pkgType p with
      | 2 => (List.range 20).all fun d => zeroBytes ((b.drop (8192 * d + 4800)).take 3392)
      | 3 => zeroBytes ((b.drop 6).take 58)
      | 4 => zeroBytes (b.drop 3)
      | _ => true)

/-- DEVICE_ID under 16 Table 16.6. -/
def State.pkgDeviceOk (s : State) (p : Bytes) : Bool :=
  let any : Bool := pkgType p = 1 || (pkgType p = 3 && pkgSigner p = 0x10)
  pkgDevice p = s.fuses.deviceId.toNat || (any && pkgDevice p = 0)

/-- A digest as a fuse holds it. -/
def fuseDigest (m : Bytes) : BitVec 512 := BitVec.ofNat 512 (digestNat 64 m)

/-- The owner key: entry 0 of the gambit key list (16 R394). -/
def Flash.key (f : Flash) (k : Nat) : Option Bytes :=
  if f.keyValid.getLsbD k then SMap.find f.keys k else none

/-- SIGNER and the modulus under 16 Table 16.6. -/
def State.pkgSignerOk (s : State) (p : Bytes) : Bool :=
  let m := pkgModulus p
  (match pkgType p with
    | 1 => pkgSigner p = 1
    | 2 => pkgSigner p = 2 || pkgSigner p = 0x10
    | 3 => pkgSigner p = 0x10 || pkgSigner p = 3
    | 4 => pkgSigner p = 0x10 || pkgSigner p = 3
    | _ => false) &&
  (match pkgSigner p with
    | 1 => decide (fuseDigest m = s.fuses.fwKeyHash)
    | 2 => decide (fuseDigest m = s.fuses.calKeyHash)
    | 3 => decide (fuseDigest m = s.fuses.serviceKeyHash)
    | _ => decide (s.flash.key 0 = some m))

/-- The checks particular to the type (16 R393, R395, R403, Table 16.7). -/
def State.pkgTypeOk (s : State) (p : Bytes) : Bool :=
  let b := pkgBody p
  match pkgType p with
  | 1 => s.fuses.secVersion ≤ pkgSec p
  | 2 => b.length = 167936
  | 3 =>
    let valid := BitVec.ofNat 16 (leAt b 4 2)
    b.length = 8256 && decide (s.flash.keyGeneration.toNat < leAt b 0 4) && bit valid 0 &&
      (onesOf valid).all fun k =>
        let m := (b.drop (64 + 512 * k)).take 512
        leAt m 511 1 % 2 = 1 && 128 ≤ leAt m 0 1
  | 4 => b.length = 16 && decide (s.bootSt.nonce = some (BitVec.ofNat 64 (pkgNonce p)))
  | _ => false

/-- A package passes every check of 16 R391; `types` are the types that the command accepts. -/
def State.pkgOk (s : State) (types : List Nat) (p : Bytes) : Bool :=
  leAt p 0 4 = 0x4B505952 && types.contains (pkgType p) && p.length = 1088 + pkgBodyLen p && pkgReserved p &&
    (leAt p 6 1 = 0xB0 || leAt p 6 1 = 0xFF) && s.pkgDeviceOk p && s.pkgSignerOk p &&
    verifies (pkgModulus p) (pkgSignature p) (p.take (576 + pkgBodyLen p)) && s.pkgTypeOk p

/-- A SECURITY record (13 Table 13.13, TYPE 0x0D). -/
def State.security (s : State) (action a : Nat) (data : Bytes) : State :=
  s.logDevice 0x0D 0 none false (eventBody action 0 13 0 a 0 0 (digestNat 32 data))

/-- A refused package (16 R391). -/
def State.refusePkg (s : State) (p : Bytes) : State := s.security 2 (pkgFwRev p) p

/-- Installs a FIRMWARE package in the slot that does not run (16 R392). -/
def State.installFirmware (s : State) (p : Bytes) : State :=
  let f := s.flash
  let f := if s.bootSt.runningB then { f with slotA := some p, preferB := false } else { f with slotB := some p, preferB := true }
  ({ s with flash := f }).security 1 (pkgFwRev p) p

/-- Replaces the calibration set; it takes effect at the next boot (16 R396). -/
def State.installCalibration (s : State) (p : Bytes) : State :=
  ({ s with flash := { s.flash with calibration := some p, staging := none } }).security 3 0 p

/-- Replaces the gambit key list (16 R394, R395). -/
def State.installKeys (s : State) (p : Bytes) : State :=
  let b := pkgBody p
  let valid := BitVec.ofNat 16 (leAt b 4 2)
  let keys : SMap Bytes := (onesOf valid).map fun k => (k, (b.drop (64 + 512 * k)).take 512)
  ({ s with flash := { s.flash with keyGeneration := BitVec.ofNat 32 (leAt b 0 4), keyValid := valid, keys := keys } }).security 6
    (leAt b 0 4) p

/-! ### Gambits (12 Tables 12.5, 12.6) -/

def gambitIdOf (g : Bytes) : Nat := leAt g 8 8
def gambitVectorsOf (g : Bytes) : Nat := leAt g 16 2

/-- A GAMBIT record (13 Table 13.13, TYPE 0x0A). -/
def State.gambitRecord (s : State) (action reason inst id vector : Nat) (bytes : Bytes) : State :=
  s.logDevice 0x0A (if action = 5 then 1 else 0) none false (eventBody action reason 0 inst id vector 0 (digestNat 32 bytes))

/-- The signature of a gambit, with the key that KEY_INDEX names. -/
def State.gambitSigned (s : State) (g : Bytes) : Bool :=
  match s.flash.key (leAt g 18 1) with
  | some m => 1024 ≤ g.length && verifies m (g.drop (g.length - 512)) (g.take (g.length - 512))
  | none => false

/-- Streamed rows of the array vector at an offset, and its length (12 Table 12.6). -/
def vectorRows (g : Bytes) (at_ : Nat) : Nat := leAt g at_ 2 / 4 % 256 + 1
def vectorLen (g : Bytes) (at_ : Nat) : Nat := 33056 + 432 * vectorRows g at_

/-- Where vector i of a gambit begins, all of whose vectors are array vectors. -/
def vectorAt (g : Bytes) : Nat → Nat
  | 0 => 512
  | i + 1 => let at_ := vectorAt g i; at_ + vectorLen g at_

/-- The gambit's vectors are array vectors: with the other kind present, nothing says which record is which (log 43). -/
def arrayVectorsOnly (g : Bytes) : Bool := leAt g 7 1 % 4 = 1

/-- Reserved bits of the header and of the array vectors' control are 0, and the header's fields hold values of 12 Table 12.5
(log 46). -/
def gambitReserved (g : Bytes) : Bool :=
  leAt g 0 4 = 0x4E474D42 && leAt g 4 1 = 1 && leAt g 7 1 < 4 && zeroBytes ((g.drop 24).take 488) && gambitVectorsOf g ≤ 4096 &&
    leAt g 19 1 ≤ 168 &&
    (!arrayVectorsOnly g || (List.range (gambitVectorsOf g)).all fun i => leAt g (vectorAt g i) 32 / 2 ^ 14 = 0)

/-- Why a gambit is refused, as REASON; 0: it is not (12 R310). -/
def State.gambitRefusal (s : State) (g : Bytes) : Nat :=
  if !s.gambitSigned g then 1
  else if !(leAt g 5 1 = 0xB0 || leAt g 5 1 = 0xFF) then 2
  else if s.numericsRev.toNat < leAt g 6 1 then 3
  else if leAt g 20 4 ≠ g.length || 16777216 < g.length then 4
  else if !gambitReserved g then 5
  else 0

/-- What installing a gambit did. -/
inductive GambitDone where
  | refused (reason : Nat)
  /-- no room: 256 installed gambits, or 64 MiB (12 R311) -/
  | full
  | done
  deriving DecidableEq, Repr

/-- Installs, replaces or removes a gambit. -/
def State.installGambit (s : State) (g : Bytes) : GambitDone × State :=
  let why := s.gambitRefusal g
  let id := gambitIdOf g
  let others := s.flash.gambits.filter fun e => e.id.toNat ≠ id
  let had : Bool := decide (others.length < s.flash.gambits.length)
  if why ≠ 0 then (.refused why, s.gambitRecord 4 why 0 id 0 g)
  else if gambitVectorsOf g = 0 then
    let t : State := { s with flash := { s.flash with gambits := others } }
    (.done, if had then t.gambitRecord 3 0 0 id 0 g else s)
  else
    let bytes := ((others.map (·.bytes.length)).foldl (· + ·) 0) + g.length
    if 256 ≤ others.length || 67108864 < bytes then (.full, s)
    else
      let e : Gambit := { id := BitVec.ofNat 64 id, bytes := g }
      let t : State := { s with flash := { s.flash with gambits := others ++ [e] } }
      (.done, t.gambitRecord (if had then 2 else 1) 0 0 id 0 g)

end Sys2Proof.Machine
end

