-- ==== Sys2Proof/Machine/Gambit.lean ====
section
/-! DEFINITION. What an array makes of a gambit's array vector: the tile, the streamed rows, and the expected registers and
group sums (12 R312, Table 12.6). -/
namespace Sys2Proof.Machine

/-- Nibble i of a packed run of codes (02 R30). -/
def nibbleAt (v : Bytes) (at_ i : Nat) : Nat := (v.getD (at_ + i / 2) 0).toNat >>> (4 * (i % 2)) % 16

/-- Fields of a vector's control bytes. -/
def vectorTransposed (v : Bytes) : Bool := leAt v 0 1 % 2 = 1
def vectorCode (v : Bytes) : Nat := if leAt v 0 1 / 2 % 2 = 1 then 0 else 1
def vectorWindow (v : Bytes) : Nat := leAt v 0 2 / 2 ^ 10 % 16

/-- Register of streamed row m and output position n: its value, and its non-finite flag (04 R78 to R80). -/
def vectorRegister (v : Bytes) (m n : Nat) : Int × Bool :=
  let row := 33056 + 144 * m
  let tile := fun (k : Nat) => let (o, r) := stationary (vectorTransposed v) k n; nibbleAt v 32 (256 * r + o)
  let terms := (List.range 16).map fun b =>
    let (o, r) := stationary (vectorTransposed v) (16 * b) n
    let ks := (List.range 16).map (16 * b + ·)
    blockTerm (leAt v (row + 128 + b) 1) (leAt v (32800 + r / 16 * 16 + o / 16) 1)
      (ks.map fun k => codeTwice (vectorCode v) (nibbleAt v row k)) (ks.map fun k => codeTwice (vectorCode v) (tile k)) 0
  (sumI (terms.map (·.1)), terms.any (·.2))

/-- The accumulation that the vector leaves in a cleared lower half. -/
def vectorRun (v : Bytes) (phys : Nat) : Accum :=
  let rows := leAt v 0 2 / 4 % 256 + 1
  let regs := (List.range rows).flatMap fun m => (List.range 256).map fun n => vectorRegister v m n
  let sums := (groupsOf (regs.map (·.1))).map sumI
  { Accum.clear 0 phys phys 0 rows 256 (vectorTransposed v) 0 with
    regs := regs.map (·.1), nonfinite := regs.map (·.2), expected := sums, blockSums := sums, promoted := sums }

/-- The registers of group WINDOW and every group sum are the vector's expected ones. -/
def vectorHolds (v : Bytes) (a : Accum) : Bool :=
  let base := 33056 + 144 * a.rows
  (List.range a.rows).all fun m =>
    let want := fun (i : Nat) => l72Value ((v.drop (base + 288 * m + 9 * i)).take 9)
    (List.range 16).all fun i =>
      a.regs.getD (256 * m + 16 * vectorWindow v + i) 0 = want i && a.expected.getD (16 * m + i) 0 = want (16 + i)

/-- The tile's codes, by rank and file. -/
def vectorCells (v : Bytes) : SMap (BitVec 4) :=
  (List.range 65536).filterMap fun k => let c := nibbleAt v 32 k; if c = 0 then none else some (k, BitVec.ofNat 4 c)

/-- The array loads the tile and streams the rows, and the bank and the checksum file keep what they leave. -/
def State.runVector (s : State) (d : Die) (a : Arr) (v : Bytes) : State :=
  s.updDie d fun x =>
    ({ x with arrays := x.arrays.set a (x.arrays[a].swapIn (vectorCells v)) }).storeBank (vectorRun v a)

end Sys2Proof.Machine
end

