-- ==== Sys2Proof/Machine/Packet.lean ====
section
/-! DEFINITION. Packets: their fields, their checks, and the torus that they cross (10 R239 to R249). -/
namespace Sys2Proof

open Machine

/-! ### Fields (10 Tables 10.3, 10.4) -/

def Pkt.ty (p : Pkt) : Nat := fld p.hdr 3 0
def Pkt.vc (p : Pkt) : Nat := fld p.hdr 6 4
def Pkt.ordered (p : Pkt) : Bool := bit p.hdr 7
def Pkt.last (p : Pkt) : Bool := bit p.hdr 8
def Pkt.mcast (p : Pkt) : Bool := bit p.hdr 9
def Pkt.escape (p : Pkt) : Bool := bit p.hdr 10
def Pkt.inSp (p : Pkt) : Bool := bit p.hdr 11
def Pkt.mspace (p : Pkt) : Bool := bit p.hdr 12
def Pkt.dst (p : Pkt) : Nat := fld p.hdr 29 16
def Pkt.src (p : Pkt) : Nat := fld p.hdr 45 32
def Pkt.dstDie (p : Pkt) : Nat := fld p.hdr 52 48
def Pkt.srcDie (p : Pkt) : Nat := fld p.hdr 57 53
def Pkt.ctx (p : Pkt) : Nat := fld p.hdr 60 58
def Pkt.plen (p : Pkt) : Nat := fld p.hdr 69 64
def Pkt.hops (p : Pkt) : Nat := fld p.hdr 79 72
def Pkt.seq (p : Pkt) : Nat := fld p.hdr 95 80
def Pkt.msgId (p : Pkt) : Nat := fld p.hdr 111 96
def Pkt.msgLen (p : Pkt) : Nat := fld p.hdr 135 112
def Pkt.notifySem (p : Pkt) : Nat := fld p.hdr 143 136
def Pkt.notifyVal (p : Pkt) : Nat := fld p.hdr 159 144
def Pkt.addr (p : Pkt) : Nat := fld p.hdr 207 160
def Pkt.aux (p : Pkt) : Nat := fld p.hdr 215 208
def Pkt.pcrc (p : Pkt) : Nat := fld p.desc 31 0
def Pkt.verdict (p : Pkt) : BitVec 64 := BitVec.ofNat 64 (fld p.desc 95 32)
def Pkt.poisonMap (p : Pkt) : BitVec 32 := BitVec.ofNat 32 (fld p.desc 127 96)
def Pkt.firstTag (p : Pkt) : Nat := fld p.desc 135 128
def Pkt.tagValid (p : Pkt) : Bool := bit p.desc 136
def Pkt.isSealed (p : Pkt) : Bool := bit p.desc 137
def Pkt.pad (p : Pkt) : Nat := fld p.desc 143 138
def Pkt.firstSeal (p : Pkt) : Nat := fld p.desc 175 144
def Pkt.sealAddr (p : Pkt) : Nat := fld p.desc 223 176
/-- The collective tag (11 Table 11.2). -/
def Pkt.cGroup (p : Pkt) : Nat := p.addr % 256
def Pkt.cSeq (p : Pkt) : Nat := p.addr / 2 ^ 8 % 4096
def Pkt.cOffset (p : Pkt) : Nat := p.addr / 2 ^ 20 % 2 ^ 24
def Pkt.cPhase (p : Pkt) : Nat := p.addr / 2 ^ 44 % 16

/-- Flits of a packet. -/
def Pkt.flits (p : Pkt) : Nat := 1 + p.plen

/-- Bytes that a data packet carries beside its padding (10 R240). -/
def Pkt.bytes (p : Pkt) : Nat := p.plen * 64 - p.pad

/-- Sequence space: 0 unordered, 1 ordered, 2 multicast, 3 express (10 R257). -/
def Pkt.seqSpace (p : Pkt) : Nat := if p.ty = 6 then 3 else if p.mspace then 2 else if p.ordered then 1 else 0

/-- HCRC over header bytes 0 to 29 with VC, ESCAPE and HOPS as 0, then the descriptor (10 R239). -/
def Pkt.headCheck (p : Pkt) : BitVec 16 :=
  let h := setFld (setFld (setFld p.hdr 6 4 0) 10 10 0) 79 72 0
  crc16 (leBytes 30 (h.toNat % 2 ^ 240) ++ leBytes 32 p.desc.toNat)

def Pkt.headOk (p : Pkt) : Bool := p.hdr.toNat / 2 ^ 240 = p.headCheck.toNat

/-- The packet with its HCRC. -/
def Pkt.checked (p : Pkt) : Pkt := { p with hdr := setFld p.hdr 255 240 p.headCheck.toNat }

/-- PCRC over the payload flits as sent (10 Table 10.4). -/
def Pkt.payloadOk (p : Pkt) : Bool := p.plen = 0 || (crc32c p.payload).toNat = p.pcrc

/-- The adaptive and the escape VC of a type; express and management have one each (10 Table 10.5). -/
def vcsOf (ty : Nat) : Option (Nat × Nat) :=
  match ty with
  | 1 | 2 | 3 => some (0, 1)
  | 4 | 7 | 8 | 9 => some (2, 3)
  | 5 => some (4, 5)
  | 6 => some (6, 6)
  | 10 => some (7, 7)
  | _ => none

/-- Payload flits that a type may have. -/
def plenRange (ty : Nat) : Nat × Nat :=
  match ty with
  | 1 | 4 | 5 => (1, 32)
  | 6 => (1, 1)
  | 10 => (0, 32)
  | _ => (0, 0)

/-- Reserved bits of a header and of a type's payload descriptor. -/
def Pkt.reservedClear (p : Pkt) : Bool :=
  fld p.hdr 15 13 = 0 && fld p.hdr 31 30 = 0 && fld p.hdr 47 46 = 0 && fld p.hdr 63 61 = 0 && fld p.hdr 71 70 = 0 &&
    fld p.hdr 239 216 = 0 && (!p.mcast || fld p.hdr 29 24 = 0) &&
    (match p.ty with
    | 7 => fld p.desc 255 64 = 0
    | 3 => fld p.desc 255 54 = 0
    | 2 | 8 | 9 => p.desc = 0
    | 10 => fld p.desc 255 224 = 0 && (p.plen ≠ 0 || p.desc = 0)
    | _ => fld p.desc 255 224 = 0)

/-- What a router asks of a packet beside its HCRC (10 R241). -/
def Pkt.valid (p : Pkt) : Bool :=
  (match vcsOf p.ty with
  | some (a, b) => p.vc = a || p.vc = b
  | none => false) &&
    (plenRange p.ty).1 ≤ p.plen && p.plen ≤ (plenRange p.ty).2 && p.payload.length = 64 * p.plen && p.reservedClear

namespace Machine

/-! ### Building packets -/

/-- The header fields of a packet to be. -/
structure Head where
  ty : Nat
  ordered : Bool := false
  last : Bool := true
  mcast : Bool := false
  space : Bool := false
  mspace : Bool := false
  dst : Nat
  src : Nat
  dstDie : Nat
  srcDie : Nat
  ctx : Nat
  plen : Nat := 0
  seq : Nat := 0
  msgId : Nat := 0
  msgLen : Nat := 0
  sem : Nat := 0
  val : Nat := 0
  addr : Nat := 0
  aux : Nat := 0

def Head.word (h : Head) : BitVec 256 :=
  pack 256 [(h.ty, 4), (((vcsOf h.ty).map (·.1)).getD 0, 3), (b2n h.ordered, 1), (b2n h.last, 1), (b2n h.mcast, 1), (0, 1),
    (b2n h.space, 1), (b2n h.mspace, 1), (0, 3), (h.dst, 14), (0, 2), (h.src, 14), (0, 2), (h.dstDie, 5), (h.srcDie, 5),
    (h.ctx, 3), (0, 3), (h.plen, 6), (0, 2), (0, 8), (h.seq, 16), (h.msgId, 16), (h.msgLen, 24), (h.sem, 8), (h.val, 16),
    (h.addr, 48), (h.aux, 8), (0, 24), (0, 16)]

/-- A header-only packet. -/
def Head.bare (h : Head) (desc : BitVec 256) : Pkt := ({ hdr := h.word, desc := desc, payload := [] } : Pkt).checked

/-- Fills a run with zero bytes up to whole flits. -/
def toFlits (bs : Bytes) : Bytes := padTo (ceilDiv bs.length 64 * 64) bs

/-- A data packet of the given bytes with their poison marks; `last` allows padding (10 R240). -/
def Head.data (h : Head) (bs : Bytes) (poison : List Bool) (verdict : BitVec 64) (tag : Option Nat) : Pkt :=
  let pay := toFlits bs
  let n := pay.length / 64
  let map := (List.range n).foldl (fun m f => if ((poison.drop (64 * f)).take 64).any id then m + 2 ^ f else m) 0
  ({ hdr := ({ h with plen := n } : Head).word
     desc := pack 256 [((crc32c pay).toNat, 32), (verdict.toNat, 64), (map, 32), (tag.getD 0, 8), (b2n tag.isSome, 1), (0, 1),
       (pay.length - bs.length, 6)]
     payload := pay } : Pkt).checked

/-! ### The torus (10 R245, R247, R248) -/

def State.fabDims (s : State) : List Nat :=
  [s.fabric.dxM1.toNat + 1, s.fabric.dyM1.toNat + 1, s.fabric.dzM1.toNat + 1, s.fabric.dwM1.toNat + 1]

def State.here (s : State) : List Nat := [s.fabric.px.toNat, s.fabric.py.toNat, s.fabric.pz.toNat, s.fabric.pw.toNat]

def State.node (s : State) : Nat := s.fabric.logical.toNat

/-- Coordinates of a node number. -/
def coordsOf : List Nat → Nat → List Nat
  | [], _ => []
  | d :: ds, n => n % d :: coordsOf ds (n / d)

/-- Node number of coordinates. -/
def numberOf : List Nat → List Nat → Nat
  | d :: ds, x :: xs => x + d * numberOf ds xs
  | _, _ => 0

/-- A remap entry (10 R246). -/
def State.remapOf (s : State) (n : Nat) : BitVec 16 := SMap.get 0 s.fabric.remap n

def remapValid (e : BitVec 16) : Bool := bit e 15
def remapHome (e : BitVec 16) : Bool := bit e 14
def remapPlace (e : BitVec 16) : List Nat := [fld e 3 0, fld e 7 4, fld e 10 8, fld e 13 11]

/-- Hops in the positive direction from x to y round a ring. -/
def ringUp (d x y : Nat) : Nat := (y + d - x % d) % d

/-- Directions of fewer hops in one dimension: positive, negative, or both (10 R247). -/
def productive (d x y : Nat) : List Bool :=
  let up := ringUp d x y
  if up = 0 then [] else (if up ≤ d - up then [true] else []) ++ (if d - up ≤ up then [false] else [])

/-- Port of a dimension and direction (10 Table 10.1). -/
def portOf (dim : Nat) (pos : Bool) : Nat := 2 * dim + (if pos then 0 else 1)

/-- The four links of a port. -/
def linksOfPort (p : Nat) : List Link := (List.range 4).map fun k => linkOf (4 * p + k)

def State.upLinks (s : State) (p : Nat) : List Link := (linksOfPort p).filter fun l => (s.link l).state = 2

/-- The die on whose counters a link counts: the lower of its port's two (10 Table 10.1). -/
def linkDie (l : Link) : Die := dieOf ([1, 3, 5, 7, 11, 13, 15, 17].getD (l.val / 4) 1)

/-- The device next to this one through a port is known to be out of service. -/
def State.neighbourLost (s : State) (dim : Nat) (pos : Bool) : Bool :=
  let d := s.fabDims.getD dim 1
  let x := s.here.getD dim 0
  let there := s.here.set dim (if pos then (x + 1) % d else (x + d - 1) % d)
  s.fabric.unreachable.any fun n => remapPlace (s.remapOf n) = there

/-- The next hop in the dimension crosses nothing that is out of service. -/
def State.portOpen (s : State) (dim : Nat) (pos : Bool) : Bool :=
  !(s.upLinks (portOf dim pos)).isEmpty && !s.neighbourLost dim pos

/-- Flits of an input buffer, per VC (10 Table 10.6). -/
def bufferFlits (vc : Nat) : Nat :=
  match vc with
  | 0 | 2 | 4 => 768
  | 6 => 16
  | _ => 72

/-- Credits towards a link's far end on a VC (10 R236, R242). -/
def LinkSt.credits (x : LinkSt) (vc : Nat) : Nat :=
  let sent := (x.sent.toList.getD vc 0).toNat
  let freed := (x.peerFreed.toList.getD vc 0).toNat
  bufferFlits vc - (sent + 4096 - freed) % 4096

/-! ### Groups (11 R269) -/

def gHandle (g : BitVec 256) : Nat := fld g 7 0
def gCtx (g : BitVec 256) : Nat := fld g 10 8
def gExpress (g : BitVec 256) : Bool := bit g 11
def gDies (g : BitVec 256) : List Nat := (List.range 20).filter fun d => bit g (64 + d)
def gTimeout (g : BitVec 256) : Nat := if fld g 127 96 = 0 then 1000000 else fld g 127 96

/-- Mask of a dimension, within the dimension's size. -/
def gCoords (dims : List Nat) (g : BitVec 256) (dim : Nat) : List Nat :=
  let lo := [16, 32, 48, 56].getD dim 16
  (List.range (dims.getD dim 1)).filter fun i => bit g (lo + i)

/-- Member devices by logical number, ascending. -/
def gNodes (dims : List Nat) (g : BitVec 256) : List Nat :=
  (gCoords dims g 3).flatMap fun w => (gCoords dims g 2).flatMap fun z => (gCoords dims g 1).flatMap fun y =>
    (gCoords dims g 0).map fun x => numberOf dims [x, y, z, w]

def gSize (dims : List Nat) (g : BitVec 256) : Nat := (gNodes dims g).length * (gDies g).length

/-- Rank of a member; none for a die that is no member. -/
def gRank (dims : List Nat) (g : BitVec 256) (node die : Nat) : Option Nat :=
  match (gNodes dims g).findIdx? (· = node), (gDies g).findIdx? (· = die) with
  | some i, some j => some (i * (gDies g).length + j)
  | _, _ => none

/-- The member of a rank. -/
def gMember (dims : List Nat) (g : BitVec 256) (r : Nat) : Nat × Nat :=
  let n := (gDies g).length
  ((gNodes dims g).getD (r / n) 0, (gDies g).getD (r % n) 0)

def State.group (s : State) (h : Nat) : Option (BitVec 256) := SMap.find s.fabric.groups h

/-- The multicast entry's members, by this device's dimensions (10 R263). -/
def mcMember (e : BitVec 49) (co : List Nat) : Bool :=
  bit e 48 && bit e (co.getD 0 0) && bit e (16 + co.getD 1 0) && bit e (32 + co.getD 2 0) && bit e (40 + co.getD 3 0)

def mcMask (e : BitVec 49) (dim i : Nat) : Bool := bit e ([0, 16, 32, 40].getD dim 0 + i)

end Machine
end Sys2Proof
end

