-- ==== Sys2Proof/Machine/Net.lean ====
section
/-! DEFINITION. Sources and routers: the windows of the sequence spaces, the spray and the escape route, the multicast
tree, discards and NAKs (10 R239 to R250, R257, R260, R264, R266). -/
namespace Sys2Proof.Machine

/-! ### Answers -/

/-- A packet enters this device's router: to its inbox when it names this device, else to its buffers. -/
def State.offer (s : State) (p : Pkt) : State :=
  if !p.mcast && p.dst = s.node then { s with fabric := { s.fabric with inbox := s.fabric.inbox ++ [p] } }
  else { s with fabric := { s.fabric with waiting := s.fabric.waiting ++ [{ pkt := p, from_ := none, since := s.now }] } }

/-- A header-only answer of class B to the sender of p, with its SEQ, space bits and MSG_ID. -/
def State.answer (s : State) (ty : Nat) (p : Pkt) (die seq aux : Nat) (desc : BitVec 256) : Pkt :=
  ({ ty := ty, ordered := p.ordered, mspace := p.mspace, dst := p.src, src := s.node, dstDie := p.srcDie, srcDie := die
     ctx := p.ctx, seq := seq, msgId := p.msgId, aux := aux } : Head).bare desc

/-- Sends a NAK for p with a reason of Table 10.7; consuming class B, express and management packets creates none (R241). -/
def State.nak (s : State) (die : Die) (p : Pkt) (reason : Nat) : State :=
  if 1 ≤ p.ty && p.ty ≤ 5 then (s.count die 0x708 reason (some p.ctx)).offer (s.answer 8 p die p.seq reason 0) else s

/-- Where a router counts what it does with a packet: the die of the link it came by, or its source. -/
def routerDie (from_ : Option Nat) (p : Pkt) : Die :=
  match from_ with
  | some l => linkDie (linkOf l)
  | none => dieOf p.srcDie

/-- Frees a packet's flits in the input buffer that it occupied (10 R236). -/
def State.freeBuffer (s : State) (from_ : Option Nat) (p : Pkt) : State :=
  match from_ with
  | some l => s.updLink (linkOf l) fun x =>
      { x with freed := Vector.ofFn fun v => if v.val = p.vc then x.freed[v] + BitVec.ofNat 12 p.flits else x.freed[v] }
  | none => s

/-- A router discards a packet; `cause` is the qualifier of 0x707. -/
def State.discard (s : State) (from_ : Option Nat) (p : Pkt) (cause : Nat) : State :=
  (s.freeBuffer from_ p).count (routerDie from_ p) 0x707 cause none

/-! ### Routes (10 R247, R248) -/

/-- Flits of the two maximum-size packets that the bubble rule asks for. -/
def bubbleFlits (vc : Nat) : Nat := if vc = 6 then 4 else 66

/-- The link that a hop would take: more free credits first, then the lowest port and link. -/
def State.bestLink (s : State) (vc need : Nat) (ls : List Link) : Option Link :=
  ls.foldl (fun acc l =>
    let c := (s.link l).credits vc
    if c < need then acc
    else match acc with
      | none => some l
      | some b => if (s.link b).credits vc < c then some l else acc) none

/-- One hop: the link, the VC on it, and whether it is an escape hop. -/
structure Hop where
  link : Link
  vc : Nat
  esc : Bool
  deriving DecidableEq, Repr

/-- A link's replay buffer has room for the codewords that the packet fills or begins (10 R237). -/
def State.hasRoom (s : State) (p : Pkt) (l : Link) : Bool :=
  (s.link l).replay.length + ceilDiv ((s.link l).open_.length + p.flits) 10 ≤ 256

/-- Productive ports towards a place, each dimension's positive one first. -/
def State.productivePorts (s : State) (there : List Nat) : List Nat :=
  (List.range 4).flatMap fun k =>
    (productive (s.fabDims.getD k 1) (s.here.getD k 0) (there.getD k 0)).map (portOf k)

/-- The spray (R247). -/
def State.adaptiveHop (s : State) (p : Pkt) (there : List Nat) : Option Hop :=
  match vcsOf p.ty with
  | some (a, e) =>
    if a = e || p.escape then none
    else
      let ls := ((s.productivePorts there).flatMap fun q => s.upLinks q).filter (s.hasRoom p)
      (s.bestLink a p.flits ls).map fun l => { link := l, vc := a, esc := false }
  | none => none

/-- A packet that may still be sprayed has a link UP on a productive port, and waits for its credits (R247). -/
def State.sprayable (s : State) (p : Pkt) (there : List Nat) : Bool :=
  (match vcsOf p.ty with
  | some (a, e) => a ≠ e && !p.escape
  | none => false) && (s.productivePorts there).any fun q => !(s.upLinks q).isEmpty

/-- Dimension and direction in which a packet arrived: it entered by the port on the other side. -/
def movingIn (from_ : Option Nat) : Option (Nat × Bool) := from_.map fun l => (l / 8, l / 4 % 2 = 1)

/-- How the escape route goes on. -/
inductive Escape where
  | hop (h : Hop)
  | wait
  /-- both directions of the ring are blocked -/
  | blocked
  deriving DecidableEq, Repr

/-- Direction of the escape route in dimension k: the way the packet goes already, else the shorter one, positive on a tie;
the other way round where that one is out of service. A packet that already goes the longer way does not turn again. -/
def State.escapeDir (s : State) (k x y : Nat) (moving : Option Bool) : Option Bool :=
  let d := s.fabDims.getD k 1
  let short := decide (ringUp d x y ≤ d - ringUp d x y)
  match moving with
  | some m => if s.portOpen k m then some m else if m = short && s.portOpen k (!m) then some (!m) else none
  | none => if s.portOpen k short then some short else if s.portOpen k (!short) then some (!short) else none

/-- The escape route (R248): dimension order and the bubble rule. -/
def State.escapeHop (s : State) (from_ : Option Nat) (p : Pkt) (there : List Nat) : Escape :=
  match vcsOf p.ty with
  | none => .blocked
  | some (a, e) =>
    match (List.range 4).find? fun k => s.here.getD k 0 ≠ there.getD k 0 with
    | none => .wait
    | some k =>
      let inRing := if p.escape || a = e then (match movingIn from_ with | some (j, m) => if j = k then some m else none | none => none) else none
      match s.escapeDir k (s.here.getD k 0) (there.getD k 0) inRing with
      | none => .blocked
      | some dir =>
        let need := if inRing.isSome then p.flits else max p.flits (bubbleFlits e)
        match s.bestLink e need ((s.upLinks (portOf k dir)).filter (s.hasRoom p)) with
        | some l => .hop { link := l, vc := e, esc := a ≠ e }
        | none => .wait

/-! ### The multicast tree (10 R264) -/

/-- Coordinates of a dimension that the multicast entry names. -/
def mcCoords (dims : List Nat) (e : BitVec 49) (k : Nat) : List Nat := (List.range (dims.getD k 1)).filter (mcMask e k)

/-- Hops round a ring from x to y in a direction. -/
def ringWay (d : Nat) (pos : Bool) (x y : Nat) : Nat := if pos then ringUp d x y else ringUp d y x

/-- The shorter way round a ring from x to y, positive on a tie (10 R248). -/
def ringShort (d x y : Nat) : Bool := decide (ringUp d x y ≤ d - ringUp d x y)

/-- Hops that a copy has taken away from its start before it turned, where it moves in a direction and has taken h hops in the
dimension; 0: it never turned (log 81). -/
def turnedAfter (d start x h : Nat) (pos : Bool) : Nat :=
  let along := ringWay d pos start x
  if along ≤ h then (h - along) / 2 else (h + d - along) / 2

/-- Some named coordinate lies ahead of a copy that moves in a direction after h hops in the dimension: on its own side of the
ring, or, where it has turned, beyond the place at which it turned (10 R264). -/
def mcAhead (d start x h : Nat) (pos : Bool) (targets : List Nat) : Bool :=
  let back := turnedAfter d start x h pos
  targets.any fun t =>
    if t = start then false
    else if back = 0 then ringShort d start t = pos && ringWay d pos start x < ringWay d pos start t
    else ringShort d start t != pos && back < ringWay d (!pos) start t && h + ringWay d (!pos) start t < d + 2 * back

/-- A direction that a copy needs: itself while its port is open, else for a copy that has not turned the other one. Empty:
both are blocked. -/
def State.mcWay (s : State) (k : Nat) (pos turned : Bool) : List Bool :=
  if s.portOpen k pos then [pos] else if !turned && s.portOpen k (!pos) then [!pos] else []

/-- Dimensions and directions of the copies that this router forwards. A packet that arrived in dimension k goes on in it,
and from a named position turns into the later ones. `none`: a copy that is needed finds its ring blocked both ways. -/
def State.mcOutputs (s : State) (e : BitVec 49) (from_ : Option Nat) (p : Pkt) : Option (List (Nat × Bool)) :=
  let dims := s.fabDims
  let co := remapPlace (s.remapOf p.src)
  let came := movingIn from_
  let k0 := match came with | some (k, _) => k | none => 0
  let named := fun k => (mcCoords dims e k).contains (s.here.getD k 0)
  let before := ((List.range k0).map fun j =>
    ringWay (dims.getD j 1) (ringShort (dims.getD j 1) (co.getD j 0) (s.here.getD j 0)) (co.getD j 0) (s.here.getD j 0)).foldl (· + ·) 0
  let needed := (List.range 4).flatMap fun k =>
    if k < k0 || !((List.range 4).all fun j => j < k0 || k ≤ j || named j) then []
    else
      let dirs := match came with | some (j, m) => if j = k then [m] else [true, false] | none => [true, false]
      let h := if came.any (·.1 = k) then p.hops - before else 0
      (dirs.filter fun m => mcAhead (dims.getD k 1) (co.getD k 0) (s.here.getD k 0) h m (mcCoords dims e k)).map fun m =>
        (k, m, decide (turnedAfter (dims.getD k 1) (co.getD k 0) (s.here.getD k 0) h m ≠ 0))
  (needed.mapM fun (k, m, turned) => ((s.mcWay k m turned).head?).map fun w => (k, w)).map List.eraseDups

/-- The hops of every copy; `none` while some copy has no credits. A copy that goes on the way it came stays in its ring. -/
def State.mcHops (s : State) (from_ : Option Nat) (p : Pkt) (outs : List (Nat × Bool)) : Option (List Hop) :=
  outs.mapM fun (k, m) =>
    let same := movingIn from_ = some (k, m)
    let need := if same then p.flits else max p.flits (bubbleFlits 5)
    (s.bestLink 5 need ((s.upLinks (portOf k m)).filter (s.hasRoom p))).map fun l => { link := l, vc := 5, esc := true }

/-! ### Sending on a link (10 R234 to R237, R242) -/

/-- A control flit of a link with its running totals (10 Table 10.2). -/
def LinkSt.controlFlit (x : LinkSt) (kind : Nat) (replaySeq abortVc : Nat) (hello : Nat) : BitVec 512 :=
  pack 512 ([(kind, 4), (x.rxSeq, 10), (b2n x.rxAny, 1), (0, 1)] ++ (x.freed.toList.map fun f => (f.toNat, 12)) ++
    [(replaySeq, 10), (abortVc, 3), (0, 3), (hello, 33)])

/-- HELLO bits [160:128] of this end of a link (10 Tables 10.2, 10.8). -/
def State.helloBits (s : State) (l : Link) : Nat :=
  packNat [(s.node, 14), (s.fabric.px.toNat, 4), (s.fabric.py.toNat, 4), (s.fabric.pz.toNat, 3), (s.fabric.pw.toNat, 3),
    (l.val / 4, 3), (l.val % 4, 2)]

/-- The flits of a packet. -/
def flitWords (p : Pkt) : List (BitVec 512) :=
  (p.desc ++ p.hdr) :: (List.range p.plen).map fun i => wordOf 512 (slice p.payload (64 * i) 64)

/-- The sequenced codeword that ten slots make. -/
def codewordOf (seq : Nat) (slots : List OutSlot) : ReplayCw :=
  { seq := seq, slotMap := BitVec.ofNat 10 ((slots.zipIdx.map fun (e, i) => b2n e.control * 2 ^ i).foldl (· + ·) 0)
    slots := slots.map (·.flit), pkts := (slots.filterMap (·.pkt)).eraseDups }

/-- Fills slots, in order; every ten of them are a codeword, which goes out and is kept for replay (R234, R235, R237). -/
def LinkSt.fill (x : LinkSt) (slots : List OutSlot) : LinkSt :=
  let all := x.open_ ++ slots
  let k := all.length / 10
  { x with
    open_ := all.drop (10 * k), txSeq := (x.txSeq + k) % 1023
    replay := x.replay ++ (List.range k).map fun i => codewordOf ((x.txSeq + i) % 1023) ((all.drop (10 * i)).take 10) }

/-- Slots go out on a link. -/
def State.emit (s : State) (l : Link) (slots : List OutSlot) : State :=
  let k := ((s.link l).open_.length + slots.length) / 10
  let s := s.updLink l fun x => x.fill slots
  if k = 0 then s else s.count (linkDie l) 0x701 l none (10 * k)

/-- Sends a packet over one hop: VC, ESCAPE and HOPS are rewritten, credits spent, and its flits take the next slots. -/
def State.sendHop (s : State) (p : Pkt) (h : Hop) : State :=
  let p := { p with hdr := setFld (setFld (setFld p.hdr 6 4 h.vc) 10 10 (b2n (p.escape || h.esc))) 79 72 (p.hops + 1) }
  let s := s.updLink h.link fun x => { x with
    sent := Vector.ofFn fun v => if v.val = h.vc then x.sent[v] + BitVec.ofNat 12 p.flits else x.sent[v]
    rr := if h.vc < 6 then h.vc else x.rr }
  (s.addUnits (linkDie h.link) 0 p.flits 0).emit h.link ((flitWords p).map fun f => { control := false, flit := f, pkt := some p })

/-! ### Advancing (10 R242, R243, R249) -/

/-- What a router can do with a waiting packet now. -/
inductive Move where
  | send (hops : List Hop)
  | wait
  | noRoute
  deriving DecidableEq, Repr

def State.moveOf (s : State) (w : Waiting) : Move :=
  if w.pkt.mcast then
    match s.mcOutputs (SMap.get 0 s.fabric.multicast (w.pkt.dst % 256)) w.from_ w.pkt with
    | none => .noRoute
    | some outs => match s.mcHops w.from_ w.pkt outs with
      | some hs => .send hs
      | none => .wait
  else
    let e := s.remapOf w.pkt.dst
    if !remapValid e then .noRoute
    else match s.adaptiveHop w.pkt (remapPlace e) with
      | some h => .send [h]
      | none => match s.escapeHop w.from_ w.pkt (remapPlace e) with
        | .hop h => .send [h]
        | .wait => .wait
        | .blocked => if s.sprayable w.pkt (remapPlace e) then .wait else .noRoute

/-- Rank of a hop's VC at its link: VC6 first, then VC7, then VC0 to VC5 in turn after the one served last (R243). -/
def State.turnOf (s : State) (h : Hop) : Nat :=
  if h.vc = 6 then 0 else if h.vc = 7 then 1 else 2 + (h.vc + 5 - (s.link h.link).rr) % 6

/-- A packet whose turn comes before is ready for a link that the move takes. -/
def State.outranked (s : State) (hs : List Hop) : Bool :=
  s.fabric.waiting.any fun v => match s.moveOf v with
    | .send gs => gs.any fun g => hs.any fun h => g.link = h.link && s.turnOf g < s.turnOf h
    | _ => false

/-- Notes at its source where a data packet first left by (13 Table 13.5, source 2). -/
def State.noteSent (s : State) (w : Waiting) (hs : List Hop) : State :=
  match w.from_, hs.head? with
  | none, some h => s.updDie (dieOf w.pkt.srcDie) fun x => { x with unacked := x.unacked.map fun (k : SrcPkt) =>
      if k.sent && k.firstSent.isNone && w.pkt.ty ≤ 5 && k.seq = w.pkt.seq && k.space = w.pkt.seqSpace && k.dstNode = w.pkt.dst &&
        k.pkt.msgId = w.pkt.msgId then { k with firstSent := some (h.link.val / 4, s.freeCtr) } else k }
  | _, _ => s

/-- The waiting packet at an index goes on, if it can. -/
def State.advanceAt (s : State) (i : Nat) : State :=
  match s.fabric.waiting[i]? with
  | none => s
  | some w =>
    let without := { s with fabric := { s.fabric with waiting := s.fabric.waiting.eraseIdx i } }
    if !w.pkt.mcast && w.pkt.dst = s.node then (without.freeBuffer w.from_ w.pkt).offer w.pkt
    else match s.moveOf w with
      | .wait => s
      | .noRoute => (without.discard w.from_ w.pkt 5).nak (routerDie w.from_ w.pkt) w.pkt 5
      | .send hs => if s.outranked hs then s else hs.foldl (fun st h => st.sendHop w.pkt h) ((without.noteSent w hs).freeBuffer w.from_ w.pkt)

/-- A packet takes its place in the router and goes on at once if it can. -/
def State.buffer (s : State) (from_ : Option Nat) (p : Pkt) : State :=
  let t : State := { s with fabric := { s.fabric with waiting := s.fabric.waiting ++ [{ pkt := p, from_ := from_, since := s.now }] } }
  t.advanceAt s.fabric.waiting.length

/-- This device is a member of a multicast packet's group, and the packet's die is not its own sender. -/
def State.mcDelivers (s : State) (p : Pkt) : Bool :=
  mcMember (SMap.get 0 s.fabric.multicast (p.dst % 256)) (coordsOf s.fabDims s.node) && !(p.src = s.node && p.srcDie = p.dstDie)

/-- A packet is ready to go out by a link. -/
def State.goingBy (s : State) (l : Link) : Bool :=
  s.fabric.waiting.any fun w => match s.moveOf w with
    | .send hs => hs.any (·.link = l)
    | _ => false

/-- Slots that no packet is ready for are filled with IDLE (R235); while one is ready, the codeword waits for it (R236). -/
def State.closeLinks (s : State) : State :=
  (List.finRange 32).foldl (fun st l =>
    let x := st.link l
    if x.open_.isEmpty || st.goingBy l then st
    else st.emit l (List.replicate (10 - x.open_.length) { control := true, flit := x.controlFlit 0 0 0 0, pkt := none })) s

/-- A packet reaches this device's router (10 R239, R241, R245 to R250, R263, R264). -/
def State.enter (s : State) (from_ : Option Nat) (p : Pkt) : State :=
  let d := routerDie from_ p
  if !p.headOk then s.discard from_ p 1
  else if !p.valid || (p.mcast && p.ty ≠ 5) then s.discard from_ p 2
  else if 64 ≤ p.hops then (s.discard from_ p 3).nak d p 0xA
  else if p.mcast then
    let s := if s.mcDelivers p then { s with fabric := { s.fabric with inbox := s.fabric.inbox ++ [p] } } else s
    if s.mcOutputs (SMap.get 0 s.fabric.multicast (p.dst % 256)) from_ p = some [] then s.freeBuffer from_ p else s.buffer from_ p
  else if p.dst = s.node then (s.freeBuffer from_ p).offer p
  else
    let e := s.remapOf p.dst
    if !remapValid e then (s.discard from_ p 5).nak d p 5
    else if remapPlace e = s.here then (s.discard from_ p 4).nak d p 6
    else s.buffer from_ p

/-- A packet reaches the router, and nothing follows it. -/
def State.route (s : State) (from_ : Option Nat) (p : Pkt) : State := (s.enter from_ p).closeLinks

/-- ROUTER_PACKET_ARRIVAL. -/
def execRouterPacketArrival (from_ : Option Link) (p : Pkt) (s : State) : Host.Outcome State Fault Refusal :=
  .next (s.route (from_.map (·.val)) p)

/-- PACKET_ADVANCE: the packet at this index is considered, and goes where it is its VC's turn; among packets of one VC the
sender of the command chooses (log 32). -/
def execPacketAdvance (index : Nat) (s : State) : Host.Outcome State Fault Refusal := .next ((s.advanceAt index).closeLinks)

/-- PACKET_STALE_TIMEOUT: a packet has waited at this router for more than 1 ms (R249). -/
def execPacketStaleTimeout (index : Nat) (s : State) : Host.Outcome State Fault Refusal :=
  match s.fabric.waiting[index]? with
  | none => .next s
  | some w =>
    let t : State := { s with fabric := { s.fabric with waiting := s.fabric.waiting.eraseIdx index } }
    .next (((t.discard w.from_ w.pkt 3).nak (routerDie w.from_ w.pkt) w.pkt 0xA).closeLinks)

/-! ### Sources (10 R257, R259; 11 R277) -/

/-- Numbering: each space per destination node, and one run for what a source die multicasts or sends by the express path,
whose packets several nodes see (R257; log 33). -/
def seqKeyOf (p : Pkt) : Nat := if 2 ≤ p.seqSpace then p.seqSpace else (p.dst + 1) * 4 + p.seqSpace

/-- The source may inject: no packet that is unacknowledged lies 256 or more numbers back in the space toward the destination,
so that at most 256 are (log 33); and for a collective at most 4 chunks toward a receiver. -/
def DieSt.mayInject (x : DieSt) (k : SrcPkt) : Bool :=
  let out := x.unacked.filter (·.sent)
  let ids := ((out.filter fun e => e.ctx = k.ctx && e.instr = k.instr && e.dstNode = k.dstNode && e.pkt.dstDie = k.pkt.dstDie).map
    (·.pkt.msgId)).eraseDups
  let key := seqKeyOf k.pkt
  (out.all fun e => seqKeyOf e.pkt ≠ key || (SMap.get 0 x.nextSeq key + 65536 - e.seq) % 65536 < 256) &&
    (k.pkt.ty ≠ 5 || ids.contains k.pkt.msgId || ids.length < 4)

/-- The packet as it is sent: its SEQ, and for a collective the sender's running verdict. -/
def State.stampPkt (s : State) (k : SrcPkt) (seq : Nat) : Pkt :=
  let v := match s.ctx (ctxOf k.ctx) with
    | some x => x.verdict.toNat
    | none => 0
  let p := k.pkt
  ({ p with hdr := setFld p.hdr 95 80 seq, desc := if p.ty = 5 || p.ty = 6 then setFld p.desc 95 32 v else p.desc } : Pkt).checked

/-- The unicast copy of a multicast packet for one member, in the multicast space (R264, R265). -/
def unicastCopy (p : Pkt) (node : Nat) : Pkt :=
  ({ p with hdr := setFld (setFld (setFld p.hdr 29 16 node) 9 9 0) 10 10 0 } : Pkt).checked

/-- The tree's first hop toward a member leaves through a port that is out of service (log 81). -/
def State.firstHopShut (s : State) (m : Nat) : Bool :=
  let there := remapPlace (s.remapOf m)
  match (List.range 4).find? fun k => s.here.getD k 0 ≠ there.getD k 0 with
  | some k => !s.portOpen k (ringShort (s.fabDims.getD k 1) (s.here.getD k 0) (there.getD k 0))
  | none => false

/-- Members of a multicast that the source sends unicast copies to: their remap entry has HOME 0 (R264), or their copy would
have to turn at the source. -/
def State.awayFrom (s : State) (members : List Nat) : List Nat :=
  members.filter fun m => m ≠ s.node && (!remapHome (s.remapOf m) || s.firstHopShut m)

/-- A die's own gradient partial, which does not use the fabric (11 R279, R422). -/
def State.isLocal (s : State) (d : Die) (k : SrcPkt) : Bool :=
  k.pkt.ty = 5 && k.pkt.cPhase = 3 && !k.pkt.mcast && k.dstNode = s.node && k.pkt.dstDie = d.val

/-- Injects the packet at an index of the die's list if it may. -/
def State.injectAt (s : State) (d : Die) (i : Nat) : State :=
  match (s.die d).unacked[i]? with
  | none => s
  | some k =>
    if k.sent || s.isLocal d k || !(s.die d).mayInject k then s
    else
      let key := seqKeyOf k.pkt
      let seq := SMap.get 0 (s.die d).nextSeq key
      let p := s.stampPkt k seq
      let s := s.updDie d fun x => { x with
        nextSeq := SMap.put 0 x.nextSeq key ((seq + 1) % 65536)
        unacked := x.unacked.set i { k with seq := seq, pkt := p, sent := true } }
      let s := s.enter none p
      if p.mcast then (s.awayFrom k.members).foldl (fun st m => st.enter none (unicastCopy p m)) s else s

/-- Injects whatever the windows allow, oldest first. -/
def State.pump (s : State) (d : Die) : State :=
  ((List.range (s.die d).unacked.length).foldl (fun st i => st.injectAt d i) s).closeLinks

/-- Queues packets of one instruction. -/
def State.queueSend (s : State) (d : Die) (ks : List SrcPkt) : State :=
  s.updDie d fun x => { x with unacked := x.unacked ++ ks }

/-- A new MSG_ID of a source die. -/
def State.newMsg (s : State) (d : Die) : Nat × State :=
  ((s.die d).nextMsg, s.updDie d fun x => { x with nextMsg := (x.nextMsg + 1) % 65536 })

def srcOf (p : Pkt) (ctx instr : Nat) (members : List Nat) : SrcPkt :=
  { dstNode := p.dst, space := p.seqSpace, seq := 0, pkt := p, ctx := ctx, instr := instr, counted := 0, backoff := 0
    waitReason := 0, members := members, sent := false, firstSent := none }

end Sys2Proof.Machine
end

