-- ==== Sys2Proof/Machine/Links.lean ====
section
/-! DEFINITION. The link layer: codewords, control flits, replay, leaving and entering service (10 R232 to R238, R266,
R267). -/
namespace Sys2Proof.Machine

/-- VALUE_A and VALUE_B of a link's record. -/
def State.linkRecord (s : State) (l : Link) (action reason : Nat) : State :=
  let x := s.link l
  s.log (linkDie l) 0x07 (if action = 3 || action = 4 then 0 else 1) none true
    (eventBody action reason 12 l ((x.hello.map (·.toNat)).getD 0) (min 3 (x.exits.filter fun t => s.now < t + 60000000).length) 0 0)

/-- A port is in service while one of its links is UP; a change is a change of the geometry table (R232, 01 R24). -/
def State.judgePort (s : State) (port : Nat) : State :=
  let up := !(s.upLinks port).isEmpty
  if s.portMask.getLsbD port = up then s
  else ({ s with portMask := setBit s.portMask port up }).geometryChange 0xFF

/-- The fabric fault on every context that runs here, with the address of one instruction (R260, R267). -/
def State.fabricFault (s : State) (d : Die) (who : Option (Nat × Nat)) (sub node : Nat) : State :=
  (List.finRange 8).foldl (fun st c => match st.ctx c with
    | some x =>
      let mine := match who with | some (k, _) => decide (k = c.val) | none => false
      if x.running || mine then
        st.stopFault d c (if mine then (who.elim 0 (·.2)) else 0) { cls := 4, reason := 15, sub := sub, unit := 12, valueB := node } .isolated
      else st
    | none => st) s

/-- A device none of whose ports is in service is isolated (R267). -/
def State.judgeIsolation (s : State) (l : Link) : State :=
  if s.links.toList.any (·.state = 2) then s else s.fabricFault (linkDie l) none 0 s.node

/-- A packet as it was before the hop that it did not take. -/
def unsent (p : Pkt) : Pkt := { p with hdr := setFld p.hdr 79 72 (p.hops - 1) }

/-- The link leaves service (R238, R266). -/
def State.leaveService (s : State) (l : Link) (reason : Nat) : State :=
  let x := s.link l
  let exits := x.exits.filter (fun t => s.now < t + 60000000) ++ [s.now]
  let next : Nat := if 3 ≤ exits.length then 3 else 1
  let lost := (x.replay.flatMap (·.pkts)).eraseDups
  let begun := (x.open_.filterMap (·.pkt)).eraseDups
  -- packets none of whose flits has gone out are routed again, but for a multicast copy, whose branch nothing names (log 94)
  let again := begun.filter fun p => !lost.contains p && !p.mcast
  let refused := lost ++ begun.filter fun p => !lost.contains p && p.mcast
  let cut := begun.filter lost.contains
  let s := s.updLink l fun x => { x with
    state := BitVec.ofNat 2 next, exits := exits, replay := [], open_ := [], partialIn := [], waitingReplay := false, trained := false
    control := if reason = 3 then [] else cut.map fun p => x.controlFlit 3 0 p.vc 0
    resent := [], sameReplays := (0, 0), replayTimes := [] }
  let s := (s.count (linkDie l) 0x706 l none).linkRecord l next reason
  let s := s.updLink l fun x => { x with hello := none }
  let s := { s with fabric := { s.fabric with waiting := s.fabric.waiting.map fun (w : Waiting) => if w.from_ = some l.val then { w with from_ := none } else w } }
  let s := refused.foldl (fun st p => st.nak (linkDie l) p 4) s
  let s := again.foldl (fun st p => st.enter none (unsent p)) (s.judgePort (l.val / 4))
  s.closeLinks.judgeIsolation l

/-- The link enters service: its running totals start anew. -/
def State.comeUp (s : State) (l : Link) : State :=
  let s := s.updLink l fun x => { x with
    state := 2, replays := 0, freed := Vector.replicate 8 0, peerFreed := Vector.replicate 8 0, sent := Vector.replicate 8 0
    rxSeq := 0, rxAny := false, waitingReplay := false, txSeq := 0, replay := [], open_ := [], sameReplays := (0, 0), replayTimes := []
    fresh := false, partialIn := [] }
  (s.linkRecord l 2 0).judgePort (l.val / 4)

/-! ### Control flits (10 Table 10.2) -/

def flitKind (f : BitVec 512) : Nat := fld f 3 0
def flitReserved (f : BitVec 512) : Bool := bit f 15 || fld f 127 125 ≠ 0 || fld f 511 161 ≠ 0

/-- ACK_SEQ covers a codeword. -/
def coveredBy (ack seq : Nat) : Bool := (ack + 1023 - seq) % 1023 < 512

/-- CREDITS and ACK_SEQ, which every kind carries (R236, R237). -/
def LinkSt.takeTotals (x : LinkSt) (f : BitVec 512) : LinkSt :=
  { x with
    peerFreed := Vector.ofFn fun v => BitVec.ofNat 12 (fld f (27 + 12 * v.val) (16 + 12 * v.val))
    replay := if bit f 14 then x.replay.filter fun e => !coveredBy (fld f 13 4) e.seq else x.replay }

/-- The outputs of one event begin empty. -/
def State.quietLink (s : State) (l : Link) : State := s.updLink l fun x => { x with control := [], resent := [] }

/-- REPLAY: everything from REPLAY_SEQ on is sent again (R237, R238). -/
def State.replayFrom (s : State) (l : Link) (seq : Nat) : State :=
  let x := s.link l
  match x.replay.findIdx? (·.seq = seq) with
  | none => s
  | some i =>
    let again := (x.replay.drop i).map (·.seq)
    let same := if x.sameReplays.1 = seq then x.sameReplays.2 + 1 else 1
    let times := x.replayTimes.filter (fun t => s.now < t + 1000) ++ [s.now]
    let s := s.updLink l fun x => { x with
      replays := BitVec.ofNat 16 (satAdd 16 x.replays.toNat 1), resent := again, sameReplays := (seq, same), replayTimes := times }
    let s := (s.count (linkDie l) 0x705 l none).count (linkDie l) 0x701 l none (10 * again.length)
    if 8 ≤ same then s.leaveService l 1
    else if 1024 < times.length then s.leaveService l 2
    else s

/-- ABORT: the part of a packet that has come is dropped and its credits go back (R266). -/
def LinkSt.abort (x : LinkSt) (vc : Nat) : LinkSt :=
  match x.partialIn with
  | [] => x
  | h :: _ =>
    if fld h 6 4 = vc then
      { x with partialIn := [], freed := Vector.ofFn fun v => if v.val = vc then x.freed[v] + BitVec.ofNat 12 x.partialIn.length else x.freed[v] }
    else x

/-- A HELLO reports the opposite direction and the same link number (R233). -/
def helloFits (l : Link) (h : BitVec 33) : Bool := fld h 30 28 = (l.val / 4) ^^^ 1 && fld h 32 31 = l.val % 4

/-- The peer's HELLO, and what its check leads to (R233, R238). -/
def State.meetHello (s : State) (l : Link) (h : BitVec 33) : State :=
  let s := s.updLink l fun x => { x with hello := some h }
  let x := s.link l
  if helloFits l h then (if x.state = 1 && x.trained then s.comeUp l else s)
  else if x.state = 2 then s.leaveService l 4
  else if x.state = 1 then (s.updLink l fun x => { x with state := 0, trained := false }).linkRecord l 4 4
  else s

/-- A control flit is received: a kind or a bit that is reserved carries nothing. -/
def State.controlFlit (s : State) (l : Link) (f : BitVec 512) : State :=
  if 4 < flitKind f || flitReserved f then s
  else
    let s := s.updLink l fun x => x.takeTotals f
    match flitKind f with
    | 2 => s.replayFrom l (fld f 121 112)
    | 3 => s.updLink l fun x => x.abort (fld f 124 122)
    | 4 => s.meetHello l (BitVec.ofNat 33 (fld f 160 128))
    | _ => s

/-- The CW_SEQ that comes next. -/
def LinkSt.expected (x : LinkSt) : Nat := if x.rxAny then (x.rxSeq + 1) % 1023 else 0

/-- A row of a control flit: the kind must be the row's, and the link's lanes must run. -/
def controlRow (l : Link) (f : BitVec 512) (kind : Nat) (s : State) : Host.Outcome State Fault Refusal :=
  if flitKind f ≠ kind || (s.link l).state = 0 || (s.link l).state = 3 then .next s
  else .next (((s.quietLink l).count (linkDie l) 0x702 l none).controlFlit l f)

def execIdleFlit (l : Link) (f : BitVec 512) (s : State) : Host.Outcome State Fault Refusal := controlRow l f 0 s
def execCreditFlit (l : Link) (f : BitVec 512) (s : State) : Host.Outcome State Fault Refusal := controlRow l f 1 s
def execReplayFlit (l : Link) (f : BitVec 512) (s : State) : Host.Outcome State Fault Refusal := controlRow l f 2 s
def execAbortFlit (l : Link) (f : BitVec 512) (s : State) : Host.Outcome State Fault Refusal := controlRow l f 3 s
def execHelloFlit (l : Link) (f : BitVec 512) (s : State) : Host.Outcome State Fault Refusal := controlRow l f 4 s

/-- The control flit that is due: CREDIT, or REPLAY again while the missing codeword has not come (R236, R237; log 129). -/
def LinkSt.dueFlit (x : LinkSt) : BitVec 512 := if x.waitingReplay then x.controlFlit 2 x.expected 0 0 else x.controlFlit 1 0 0 0

/-- CONTROL_FLIT_INTERVAL: 160 slots have passed, and a control flit with the running totals goes out, in a slot of the codeword
that is being filled if there is one (R236). -/
def execControlFlitInterval (l : Link) (s : State) : Host.Outcome State Fault Refusal :=
  let x := s.link l
  if x.state ≠ 2 then .next s
  else if x.open_.isEmpty then
    .next ((s.updLink l fun x => { x with control := [x.dueFlit], resent := [] }).count (linkDie l) 0x701 l none)
  else .next ((s.quietLink l).emit l [{ control := true, flit := x.dueFlit, pkt := none }])

/-! ### Codewords (10 R234, R237) -/

/-- The packet that flits hold. -/
def pktOf (flits : List (BitVec 512)) : Pkt :=
  let h := flits.headD 0
  { hdr := BitVec.ofNat 256 (fld h 255 0), desc := BitVec.ofNat 256 (fld h 511 256)
    payload := (flits.drop 1).flatMap fun f => leBytes 64 f.toNat }

/-- A packet slot: the flit joins the packet that is coming; a whole packet goes to the router. -/
def State.packetFlit (s : State) (l : Link) (f : BitVec 512) : State :=
  let part := (s.link l).partialIn ++ [f]
  let s := s.addUnits (linkDie l) 0 0 1
  if part.length < 1 + fld (part.headD 0) 69 64 then s.updLink l fun x => { x with partialIn := part }
  else (s.updLink l fun x => { x with partialIn := [] }).enter (some l.val) (pktOf part)

/-- The receiver asks for the codeword that it misses. -/
def State.askReplay (s : State) (l : Link) (seq : Nat) : State :=
  (s.updLink l fun x => { x with waitingReplay := true, control := [x.controlFlit 2 seq 0 0] }).count (linkDie l) 0x701 l none

/-- The slots of an accepted codeword, in order. A link that leaves service in one of them takes no more. -/
def State.takeSlots (s : State) (l : Link) (r : LinkCw) : State :=
  (((r.slots.take 10).zipIdx).foldl (fun st (f, i) =>
    if (st.link l).state = 0 || (st.link l).state = 3 then st
    else if bit r.control i then st.controlFlit l f
    else if (st.link l).state = 2 && fld r.control 19 10 ≠ 1023 then st.packetFlit l f
    else st) s).closeLinks

/-- LINK_CODEWORD_RECEIVED. An uncorrectable codeword asks for the replay, and asks again while it waits for one (R237; log
129). -/
def execLinkCodewordReceived (l : Link) (r : LinkCw) (s : State) : Host.Outcome State Fault Refusal :=
  let x := s.link l
  if x.state = 0 || x.state = 3 then .next s
  else
    let d := linkDie l
    let s := s.quietLink l
    if !r.good then
      let s := s.updLink l fun x => { x with uncorrected := BitVec.ofNat 32 (satAdd 32 x.uncorrected.toNat 1) }
      let s := s.count d 0x704 l none
      .next (if x.state ≠ 2 then s else s.askReplay l x.expected)
    else
      let s := s.updLink l fun x => { x with correctedSymbols := x.correctedSymbols + BitVec.ofNat 32 r.corrected }
      let s := (if r.corrected = 0 then s else s.count d 0x703 l none r.corrected).count d 0x702 l none 10
      let seq := fld r.control 19 10
      if seq = 1023 then .next (s.takeSlots l r)
      else if seq = x.expected then
        .next ((s.updLink l fun x => { x with rxSeq := seq, rxAny := true, waitingReplay := false }).takeSlots l r)
      else if x.waitingReplay || (x.expected + 1023 - seq) % 1023 ≤ 512 || x.state ≠ 2 then .next s
      else .next (s.askReplay l x.expected)

/-! ### Service -/

/-- LANE_LOCK_LOST: a lane loses lock or deskew. -/
def execLaneLockLost (l : Link) (_lane : Fin 8) (s : State) : Host.Outcome State Fault Refusal :=
  if (s.link l).state = 2 then .next (s.leaveService l 3)
  else if (s.link l).state = 1 then .next (s.updLink l fun x => { x with trained := false })
  else .next s

/-- The lanes are trained, and the HELLO goes out (R233). -/
def State.sayHello (s : State) (l : Link) : State :=
  (s.updLink l fun x => { x with trained := true, control := [x.controlFlit 4 0 0 (s.helloBits l)], resent := [] }).count (linkDie l)
    0x701 l none

/-- LINK_RETRAIN_DONE: the lanes are trained and the HELLO goes out, or the training has failed (R233, R238). Without
FAB_REFCLK no lane locks (17 R419). -/
def execLinkRetrainDone (l : Link) (ok : Bool) (s : State) : Host.Outcome State Fault Refusal :=
  let x := s.link l
  if x.state ≠ 1 || (ok && !s.power.fabRefclk) then .next s
  else if ok then
    let s := s.sayHello l
    .next (if x.hello.any (helloFits l) then s.comeUp l else s)
  else if x.fresh then .next ((s.updLink l fun x => { x with state := 0, trained := false }).linkRecord l 0 5)
  else .next ((s.updLink l fun x => { x with state := 3, trained := false }).linkRecord l 3 5)

end Sys2Proof.Machine
end

