-- ==== Sys2Proof/Machine/Memory.lean ====
section
/-! DEFINITION. The memory controllers: requests, deliveries, stalls, scrub, retraining, repair and retirement (08), and
the host's accesses through CXL.mem (15 R365 to R367). -/
namespace Sys2Proof.Machine

/-- Bus units of the windows (08, Stalls). -/
def windowUnits : Nat := 65536

/-- Records a background granule of a unit (12 R313). -/
def State.granule (s : State) (d : Die) (unit : Nat) : State := s.count d 0x904 unit none

/-- A read of one codeword as it stands, with what it delivers. -/
def State.deliverCw (s : State) (d : Die) (off : Nat) (errs : List (Nat × BitVec 8)) (c : Option Nat) : (Bytes × Option Origin) × State :=
  let base := off / 64 * 64
  let (r, s) := s.readCodeword d base errs c (s.cwSeen d base)
  ((r.data, r.poison), s)

def errsOf (errs : List (Nat × List (Nat × BitVec 8))) (cw : Nat) : List (Nat × BitVec 8) :=
  (errs.find? (fun e => e.1 = cw)).elim [] (·.2)

/-- A request's form: from a 64-byte boundary, 64 bytes to 8 KiB, inside one 8 KiB of a local view, and for the striped view
inside one granule, which is what its local view keeps together (08 R177, R181). -/
def requestOk (address len : Nat) : Bool :=
  address % 64 = 0 && 64 ≤ len && len ≤ 8192 &&
    (if 0x100000000000 ≤ address then address % 2048 + len ≤ 2048 else address % 8192 + len ≤ 8192)

/-- MEMORY_REQUEST (08 R177 to R179, R183 to R185, R191): writes take effect as they are accepted, reads find their codewords
as they are accepted and wait for their return. At 256 requests in flight the controller accepts neither. A request that it
does not accept stays with its issuer (log 11). -/
def execMemoryRequest (d : Die) (address len : Nat) (op : MemOp) (who : Charge) (s : State) : Host.Outcome State Fault Refusal :=
  let ctx : Option Ctx := match who with
    | .stall c => some c
    | .service => none
  let fault := fun (_ : Unit) => match ctx with
    | some c => if (s.ctx c).isSome then s.stopFault d c 0 { cls := 4, reason := 4, unit := 10, valueB := address } else s
    | none => s
  match deviceAddr d address with
  | none => .next (fault ())
  | some (.st die off) =>
    let owned := match ctx with
      | some c => (match s.ctx c with
        | some x => x.ownsRun (fun i => some (.st die (off + i))) len
        | none => false)
      | none => true
    if !requestOk address len then .next s
    else if !owned then .next (fault ())
    else
      let t := dieOf die
      let ready := match ctx with
        | some c => s.stackReady t c
        | none => (s.die t).requests.length < 256
      let asked := match ctx with
        | some c => s.askUnits t off len c
        | none => s
      if !ready then .next s
      else match op with
        | .read =>
          let q : MemReq := { offset := off, len := len, who := who, seen := (codewordsIn off len).map (s.cwSeen t), born := s.freeCtr }
          .next (asked.updDie t fun x => { x with requests := x.requests ++ [q] })
        | .write data poison =>
          if data.length ≠ len then .next s
          else .next ((asked.countWrites t off len (ctx.map (·.val))).write (.st die off) data poison)
  | some _ => .next s

/-- MEMORY_READ_RETURN (08 R188, Table 8.9): the oldest read's codewords come back and are delivered. Memory-origin poison
kills the context that reads it, poison of an engine taints its step (12 R296, R299). -/
def execMemoryReadReturn (d : Die) (errs : List (Nat × List (Nat × BitVec 8))) (s : State) : Host.Outcome State Fault Refusal :=
  match (s.die d).requests with
  | [] => .next s
  | q :: rest =>
    let s := s.updDie d fun x => { x with requests := rest }
    let c : Option Ctx := match q.who with
      | .stall c => some c
      | .service => none
    let first := q.offset / 64
    let step := fun (acc : (Bytes × List (Option Origin)) × State) (e : CwSeen × Nat) =>
      let (r, s) := acc.2.readCodeword d ((first + e.2) * 64) (errsOf errs (first + e.2)) (c.map (·.val)) e.1
      ((acc.1.1 ++ r.data, acc.1.2 ++ [r.poison]), s)
    let ((bytes, marks), s) := q.seen.zipIdx.foldl step (([], []), s)
    let s := s.measure d 1 (pcNum q.offset) (c.map (·.val)) q.born
    let s := s.updDie d fun x => { x with delivered := some { offset := q.offset, data := slice bytes (q.offset % 64) q.len, poison := marks.map (·.isSome) } }
    match c with
    | none => .next s
    | some c =>
      if (s.ctx c).isNone then .next s
      else match marks.findIdx? (· = some Origin.memory) with
        | some i => .next (s.kill d c 0 { cls := 2, reason := 17, unit := 10, inst := pcNum ((first + i) * 64), valueB := stKey 0 ((first + i) * 64) })
        | none => .next (if marks.any (·.isSome) then s.orVerdict c vTainted else s)

/-! ### Repair and retirement -/

/-- Spare rows used in a bank of a pseudo-channel and SID; the low 8 bits of a page number are SID and bank. -/
def DieSt.sparesUsed (x : DieSt) (pc page : Nat) : Nat := SMap.get 0 x.spareUsed (pc * 256 + page % 256)

/-- Corrections counted so far say nothing of the row that takes this row's place. -/
def PcSt.forgetRow (q : PcSt) (row : Nat) : PcSt :=
  { q with log := q.log.map fun e => if e.row = row then { e with outside := false } else e }

/-- What a row repair does. -/
def runRowRepair (d : Die) (pc : Pc) (bank sid : Fin 16) (row : Fin 4096) (errs : List (Nat × List (Nat × BitVec 8))) (s : State) :
    Host.Outcome State Fault Refusal :=
  let page := row.val * 256 + sid.val * 16 + bank.val
  let id := rowId pc page
  let x := s.die d
  if !x.failedRows.contains id || x.repairedRows.contains id || x.retired.contains page || 2 ≤ x.sparesUsed pc page
      || 32768 ≤ x.retired.length then .next s
  else
    let base := page * 65536 + pc.val * 1024
    let s := (List.range 16).foldl (fun st i => (st.deliverCw d (base + 64 * i) (errsOf errs (base / 64 + i)) none).2) s
    let s := s.updDie d fun x => { (x.updPc pc (·.forgetRow id)) with
      failedRows := x.failedRows.filter (· ≠ id), repairedRows := x.repairedRows ++ [id], softRows := x.softRows ++ [id]
      spareUsed := SMap.put 0 x.spareUsed (pc.val * 256 + page % 256) (x.sparesUsed pc page + 1) }
    let s := (s.granule d 10).count d 0x509 pc none
    .next ((s.event d 0x06 0 none (eventBody 1 0 10 pc base 0 (s.die d).spareRowsFree 0)).judgeCapacity d)

/-- ROW_REPAIR (08 R196): a failed row, at its first failure, moves to a spare row of its bank. -/
def execRowRepair (d : Die) (pc : Pc) (bank sid : Fin 16) (row : Fin 4096) (errs : List (Nat × List (Nat × BitVec 8))) (s : State) :
    Host.Outcome State Fault Refusal :=
  background s (runRowRepair d pc bank sid row errs s)

/-- Retires a page: poison, table, record, geometry, verdict (08 R197). `pc` is the pseudo-channel of the failed row. -/
def State.retirePage (s : State) (d : Die) (page pc : Nat) : State :=
  let k := d.val * 2 ^ 30 + page * 1024
  let s := { s with stackPoison := SMap.eraseRange s.stackPoison k (k + 1024) }
  let s := s.updDie d fun x => { x with
    requests := x.requests.map fun q => { q with seen := q.seen.zipIdx.map fun e =>
      { e.1 with overtaken := e.1.overtaken || pageOf ((q.offset / 64 + e.2) * 64) = page } }
    retired := x.retired ++ [page], failedRows := x.failedRows.filter (fun r => r % 2 ^ 20 ≠ page)
    stackPages := x.stackPages - 1, retiredPages := x.retiredPages + 1 }
  let s := (s.granule d 10).count d 0x50A 0 none
  let s := s.event d 0x06 0 none (eventBody 3 0 10 pc (page * 65536) 0 (s.die d).spareRowsFree 0)
  (s.geometryChange d).judgeCapacity d

/-- What a page retirement does. -/
def runPageRetirement (d : Die) (page : Fin 1048576) (s : State) : Host.Outcome State Fault Refusal :=
  let x := s.die d
  if x.retired.contains page.val || 32768 ≤ x.retired.length then .next s
  else
    match x.failedRows.find? (fun r => r % 2 ^ 20 = page.val && (x.repairedRows.contains r || 2 ≤ x.sparesUsed (r / 2 ^ 20) page.val)) with
    | some r => .next (s.retirePage d page.val (r / 2 ^ 20))
    | none => .next s

/-- PAGE_RETIREMENT (08 R196, R197): a page with a failed row that was repaired before or finds no spare row is retired,
while the table has room. -/
def execPageRetirement (d : Die) (page : Fin 1048576) (s : State) : Host.Outcome State Fault Refusal :=
  background s (runPageRetirement d page s)

/-! ### Scrub and retraining -/

/-- The next codeword from k on that lies in no retired page (08 R192); a pass ends at the last codeword. -/
def DieSt.scrubFrom (x : DieSt) : Nat → Nat → Option Nat
  | 0, _ => none
  | n + 1, k =>
    let k := if 2 ^ 30 ≤ k then 0 else k
    if x.retired.contains (k / 1024) then x.scrubFrom n ((k / 1024 + 1) * 1024) else some k

/-- What a scrub granule does. -/
def runScrubGranule (d : Die) (errs : List (Nat × List (Nat × BitVec 8))) (s : State) : Host.Outcome State Fault Refusal :=
  match (s.die d).scrubFrom ((s.die d).retired.length + 2) (s.die d).scrubNext with
  | none => .next s
  | some k =>
    let s := (List.range 16).foldl (fun st i => (st.deliverCw d ((k + i) * 64) (errsOf errs (k + i)) none).2) s
    .next ((s.updDie d fun x => { x with scrubNext := (k + 16) % 2 ^ 30 }).granule d 10)

/-- SCRUB_GRANULE (08 R192, 12 Table 12.7): 16 codewords, as a demand read. -/
def execScrubGranule (d : Die) (errs : List (Nat × List (Nat × BitVec 8))) (s : State) : Host.Outcome State Fault Refusal :=
  background s (runScrubGranule d errs s)

/-- What R193 asks of a retraining's start; the command itself says that the 30 minutes are over. -/
def State.retrainDue (s : State) (d : Die) (p : Pc) (cause : RetrainCause) : Bool :=
  let q := (s.die d).pcs[p]
  match cause with
  | .interval => true
  | .temperature => 8 ≤ ((s.die d).stackTempC - q.trainedC).natAbs
  | .correctionRate => 64 < (q.log.filter fun e => q.reads < e.read + 1048576).length

/-- RETRAIN_START (08 R193): one pseudo-channel of a stack at a time. -/
def execRetrainStart (d : Die) (pc : Pc) (cause : RetrainCause) (s : State) : Host.Outcome State Fault Refusal :=
  if (s.die d).pcs.toList.any (·.retraining) || !s.retrainDue d pc cause then .next s
  else .next ((s.updDie d fun x => x.updPc pc fun q => { q with retraining := true }).granule d 10)

/-- n bytes of die d's record of the calibration set in force, from byte o (16 Table 16.7). -/
def State.calAt (s : State) (d o n : Nat) : Nat := leAt s.bootSt.calInForce (64 + 8192 * d + o) n

/-- An eye, width in 1/256 UI and height in 2 mV units, is below a limit of the same form (13 Table 13.14). -/
def eyeLow (eye limit : Nat) : Bool := eye % 256 < limit % 256 || eye / 256 < limit / 256

/-- Where a die's calibration record holds the nominal voltage of an island, 0 aclk, 1 vclk, 2 mclk, 3 fclk, 4 cclk; its
floor and ceiling follow (16 Table 16.7; log 39). -/
def islandAt (i : Nat) : Nat := 6 * i

/-- A margin record (13 Table 13.14, R339): source 2 measures on the mclk island and source 3 on the fclk island, which
run at their nominal voltages (17 R417). -/
def State.marginRecord (s : State) (d : Die) (source inst : Nat) (temp : Int) (low : Bool) (entries : List Nat) : State :=
  let supply := if source = 1 then (s.die d).vddMv else s.calAt d (islandAt source) 2
  s.log d 0x0C (if source = 1 || low then 0 else 1) none false
    (leBytes 80 (packNat ([(source, 4), (0, 4), (inst, 8), (twos 8 temp, 8), (b2n low, 1), (0, 7), (supply, 16), (0, 16)]
      ++ entries.map fun e => (e, 16))))

/-- An erasure whose pin kept its margin three times in a row is withdrawn (08 R189). `second` names its place. -/
def State.keepErasure (s : State) (d : Die) (p : Pc) (second low : Bool) : State :=
  let q := (s.die d).pcs[p]
  let pin := if second then q.eraseB else q.eraseA
  if pin = 0x3F then s
  else
    let run := if low then 0 else (if second then q.okRunB else q.okRunA) + 1
    if run < 3 then s.updDie d fun x => x.updPc p fun q => if second then { q with okRunB := run } else { q with okRunA := run }
    else
      let s := s.updDie d fun x => x.updPc p fun q => if second then { q with eraseB := 0x3F, okRunB := 0 } else { q with eraseA := 0x3F, okRunA := 0 }
      (s.event d 0x06 0 none (eventBody 5 0 10 p 0 pin.toNat (s.die d).spareRowsFree 0)).judgeCapacity d

/-- What the end of a retraining does. -/
def runRetrainDone (d : Die) (pc : Pc) (eyes : List (BitVec 16)) (s : State) : Host.Outcome State Fault Refusal :=
  if !(s.die d).pcs[pc].retraining then .next s
  else
    let eye := fun p => ((eyes.map (·.toNat))[p]?).getD 0
    let low := fun p => eyeLow (eye p) (s.calAt d (128 + 2 * (36 * pc.val + p)) 2)
    let lows := (List.range 36).filter low
    let s := s.updDie d fun x => x.updPc pc fun q => { q with retraining := false, trainedC := x.stackTempC }
    let s := s.count d 0x508 pc none
    let s := s.marginRecord d 2 pc (s.die d).stackTempC (!lows.isEmpty) ((List.range 36).map eye)
    let q := (s.die d).pcs[pc]
    let s := s.keepErasure d pc false (lows.contains q.eraseA.toNat)
    let s := s.keepErasure d pc true (lows.contains q.eraseB.toNat)
    .next (lows.foldl (fun st p => st.erasePin d pc p) s)

/-- RETRAIN_DONE (08 R189, R193, R194; 13 R339): the eyes of the 36 pins. -/
def execRetrainDone (d : Die) (pc : Pc) (eyes : List (BitVec 16)) (s : State) : Host.Outcome State Fault Refusal :=
  background s (runRetrainDone d pc eyes s)

/-! ### Stalls -/

/-- A claim in one window: the units a stall can still take, and its weight. -/
structure Claim where
  need : Nat
  weight : Nat
  got : Nat
  deriving DecidableEq, Repr

/-- Weighted round-robin over the units that no floor claims (08 R184): as many whole rounds as every claimant can take,
then one round in order. Each pass satisfies a claimant or ends the units, so `fuel` passes are enough. -/
def shareUnits : Nat → Nat → List Claim → List Claim
  | 0, _, cs => cs
  | n + 1, units, cs =>
    let act := cs.filter fun c => 0 < c.need && 0 < c.weight
    let total := (act.map (·.weight)).foldl (· + ·) 0
    if units = 0 || total = 0 then cs
    else
      let rounds := act.foldl (fun m c => min m (c.need / c.weight)) (units / total)
      if 0 < rounds then
        shareUnits n (units - rounds * total) (cs.map fun c =>
          if 0 < c.need && 0 < c.weight then { c with need := c.need - rounds * c.weight, got := c.got + rounds * c.weight } else c)
      else
        let one := fun (acc : Nat × List Claim) (c : Claim) =>
          let g := if c.weight = 0 then 0 else min acc.1 (min c.need c.weight)
          (acc.1 - g, acc.2 ++ [{ c with need := c.need - g, got := c.got + g }])
        let (left, cs) := cs.foldl one (units, [])
        shareUnits n left cs

/-- A stall's ceiling in units; none: no ceiling. -/
def StallSt.ceiling (k : StallSt) : Option Nat := if k.ceil = 0 then none else some (k.ceil.toNat * 256)

/-- What a stall may still take in a window: its requests and its debt, below its ceiling after what was delivered. -/
def StallSt.wants (k : StallSt) (demand : Nat) : Nat :=
  if !k.enable then 0
  else
    let w := k.debt.toNat + k.asked + demand
    match k.ceiling with
    | some c => min w (c - k.charged)
    | none => w

/-- A stall with the fields of STALL_CFGn [19:0]. -/
def StallSt.configure (k : StallSt) (v : BitVec 20) : StallSt :=
  { k with floor := BitVec.ofNat 8 (fld v 7 0), ceil := BitVec.ofNat 8 (fld v 15 8), weight := BitVec.ofNat 4 (fld v 19 16), next := none }

/-- What STALL_SET wrote takes effect as a window begins (15 Table 15.9). -/
def StallSt.renew (k : StallSt) : StallSt := match k.next with | some v => k.configure v | none => k

/-- A window's end for one stall (08 R184, R185): grants repay debt first; deliveries above the ceiling become debt, at most
four windows' ceiling of it; every fourth window the floor is judged. The result is the stall, the units dropped, and
whether a run of four missed its floor. -/
def StallSt.window (k : StallSt) (demand granted : Nat) : StallSt × Nat × Bool :=
  let own := k.asked + demand
  let past := match k.ceiling with
    | some c => k.charged - c
    | none => 0
  let debt := k.debt.toNat - granted + past
  let cap := match k.ceiling with
    | some c => 4 * c
    | none => 0
  let drop := debt - cap
  let owed := if k.enable then min (k.debt.toNat + own) (k.floor.toNat * 256) else 0
  let windows := k.runWindows + 1
  let sumG := k.runGranted + granted
  let sumO := k.runOwed + owed
  let done := decide (4 ≤ windows)
  let miss := done && decide (sumG < sumO)
  ({ k with
    unitsLast := BitVec.ofNat 17 (min (granted + k.charged) 131071), debt := BitVec.ofNat 18 (min debt cap), charged := 0
    asked := own - (granted - k.debt.toNat)
    ceilOverrun := BitVec.ofNat 32 (satAdd 32 k.ceilOverrun.toNat drop)
    floorMiss := BitVec.ofNat 32 (satAdd 32 k.floorMiss.toNat (b2n miss))
    runWindows := if done then 0 else windows, runGranted := if done then 0 else sumG, runOwed := if done then 0 else sumO },
    drop, miss)

/-- Grants of a window: floors first in order, with what the running four windows still owe of them, then the rest by weight
(08 R184, R185). -/
def windowGrants (units : Nat) (ks : List (StallSt × Nat)) : List Nat :=
  let floors := fun (acc : Nat × List Claim) (e : StallSt × Nat) =>
    let w := e.1.wants e.2
    let f := min acc.1 (min w (e.1.floor.toNat * 256 + (e.1.runOwed - e.1.runGranted)))
    (acc.1 - f, acc.2 ++ [{ need := w - f, weight := e.1.weight.toNat, got := f }])
  let (left, cs) := ks.foldl floors (units, [])
  (shareUnits 40 left cs).map (·.got)

/-- STALL_WINDOW (08 R183 to R185): a window of 65,536 units ends. The codewords of the contexts' own accesses asked for the
units that each stall holds; `demand` is what their activations, precharges and turnarounds occupied beside them. The service class took up to 1,024 units, a free number (log 7). -/
def execStallWindow (d : Die) (demand : List Nat) (s : State) : Host.Outcome State Fault Refusal :=
  let (n, s) := s.draw
  let service := (Config.stamp n).toNat % 1025
  let ks := (s.die d).stalls.toList
  let delivered := (ks.map (·.charged)).foldl (· + ·) 0
  let pairs := List.zip ks ((List.range 8).map fun i => demand.getD i 0)
  let grants := windowGrants (windowUnits - service - delivered) pairs
  let ends := (List.zip pairs grants).map fun ((k, dem), g) => k.window dem g
  let s := s.updDie d fun x => { x with stalls := Vector.ofFn fun i => (((ends[i.val]?).map (·.1)).getD x.stalls[i]).renew }
  let s := s.count d 0x50B 8 none service
  .next ((List.range 8).foldl (fun st i =>
    let used := grants.getD i 0 + ((ks[i]?).map (·.charged)).getD 0
    let (drop, miss) := ((ends[i]?).map (·.2)).getD (0, false)
    let st := st.count d 0x50B i none used
    let st := if miss then st.count d 0x50C i none else st
    if 0 < drop then st.count d 0x50D i none drop else st) s)

/-! ### The host through CXL.mem -/

/-- Device address of a device physical address (15 R365). -/
def dpaAddress (dpa : Nat) : Option Nat :=
  let half := 20 * 2 ^ 36
  if dpa < half then some (0x100000000000 + dpa)
  else if dpa < 2 * half then some (2 ^ 36 + (dpa - half))
  else none

/-- The context whose stack ranges hold a local byte. -/
def State.stackOwner (s : State) (die off : Nat) : Option Ctx :=
  (List.finRange 8).find? fun c => match s.ctx c with
    | some x => x.ownsStack die off
    | none => false

/-- One codeword's share of a host access from DPA p, n bytes: the bytes read and whether poison is indicated. The bytes
that come with the poison of an unowned address are free (log 7). -/
def State.hostPiece (s : State) (p n : Nat) (op : Option (Bytes × Bool)) (errs : List (Nat × BitVec 8)) : (Bytes × Bool) × State :=
  match (dpaAddress p).bind (deviceAddr 0) with
  | some (.st die off) =>
    let d := dieOf die
    match s.stackOwner die off, op with
    | none, none =>
      (((List.range n).map (fun i => Config.randomByte (s.freeCtr + i)), true),
        { s with freeCtr := s.freeCtr + n, host := { s.host with poisonReads := BitVec.ofNat 32 (satAdd 32 s.host.poisonReads.toNat 1) } })
    | none, some _ => (([], false), { s with host := { s.host with discards := BitVec.ofNat 32 (satAdd 32 s.host.discards.toNat 1) } })
    | some c, none =>
      let ((data, mark), s) := (s.askUnits d off n c).deliverCw d off errs (some c)
      ((slice data (off % 64) n, mark.isSome), s)
    | some c, some (bytes, poison) =>
      (([], false), ((s.askUnits d off n c).countWrites d off n (some c)).write (.st die off) bytes poison)
  | _ => (([], false), s)

/-- The codeword pieces of n bytes from p: start and length. -/
def cwPieces (p n : Nat) : List (Nat × Nat) :=
  if n = 0 then [] else
    (List.range ((p + n - 1) / 64 + 1 - p / 64)).map fun i =>
      let lo := max p ((p / 64 + i) * 64)
      let hi := min (p + n) ((p / 64 + i + 1) * 64)
      (lo, hi - lo)

/-- HOST_MEM_ACCESS (15 R365 to R367): served codeword by codeword while the host link is up. `errs` names codewords by
their DPA divided by 64. What a read answers stands in the host side's lastRead. -/
def execHostMemAccess (dpa : Nat) (op : HostOp) (errs : List (Nat × List (Nat × BitVec 8))) (s : State) : Host.Outcome State Fault Refusal :=
  let n := match op with
    | .read n => n
    | .write b _ => b.length
  if s.host.link.isNone || 8192 < n || 2 * (20 * 2 ^ 36) < dpa + n then .next s
  else
    let one := fun (acc : (Bytes × Bool) × State) (e : Nat × Nat) =>
      let what := match op with
        | .read _ => none
        | .write b poison => some (slice b (e.1 - dpa) e.2, poison)
      let (r, s) := acc.2.hostPiece e.1 e.2 what (errsOf errs (e.1 / 64))
      ((acc.1.1 ++ r.1, acc.1.2 || r.2), s)
    let ((bytes, mark), s) := (cwPieces dpa n).foldl one (([], false), s)
    match op with
    | .read _ => .next { s with host := { s.host with lastRead := (bytes, mark) } }
    | .write _ _ => .next s

end Sys2Proof.Machine
end

