-- ==== Sys2Proof/Machine/Integrity.lean ====
section
/-! DEFINITION. The integrity unit: device faults of the die controllers, captures, the spare, checker self-tests, gambits,
whole-unit work in quiet time and by borrowing, margins (12 R301, R304 to R318; 13 R338, R339; 17 R417, R418). -/
namespace Sys2Proof.Machine

/-! ### Device faults of a die controller -/

/-- The rails are up and the device is out of reset (17 Table 17.2). -/
def State.up (s : State) : Bool := s.power.state = .run || s.power.state = .drain

/-- LOCKSTEP_MISMATCH: a device fault (12 R301). Halting a die controller stops both cores together, so none arises then
(16 R404). -/
def execLockstepMismatch (d : Die) (s : State) : Out :=
  if (s.die d).tapSide.haltedController then .next s
  else .next (s.deviceFaultNow d { cls := 3, reason := 18, unit := 13, inst := d })

/-- WATCHDOG_EXPIRY: a firmware stop, classed as a device stop (14 R346). The watchdog of a halted controller is suspended
(16 R404). No REASON of 13 Table 13.13 names it (log 41). -/
def execWatchdogExpiry (d : Die) (s : State) : Out :=
  if (s.die d).tapSide.haltedController then .next s
  else .next (s.deviceFaultNow d { cls := 3, reason := 0, unit := 13, inst := d })

/-! ### Captures (12 R305) -/

/-- A CAPTURE record (13 Table 13.13, TYPE 0x09). -/
def State.captureRecord (s : State) (action slot : Nat) (k : Capture) : State :=
  s.logDevice 0x09 0 none false (eventBody action 0 0 slot k.kind k.tileCount 0 (digestNat 32 k.bytes))

/-- A free capture slot; else the oldest exported one. -/
def Flash.slotFor (f : Flash) : Option Nat :=
  match (List.range 16).find? fun i => (SMap.find f.captures i).isNone with
  | some i => some i
  | none =>
    (f.captures.filter fun e => e.2.exported).foldl (fun (acc : Option (Nat × Nat)) e =>
      match acc with
      | none => some (e.1, e.2.order)
      | some a => if e.2.order < a.2 then some (e.1, e.2.order) else some a) none |>.map (·.1)

/-- What the write of a capture does. -/
def runCaptureWrite (d : Die) (s : State) : Out :=
  match (s.die d).capture, s.flash.slotFor with
  | some k, some i =>
    let s := match SMap.find s.flash.captures i with
      | some old => s.captureRecord 2 i old
      | none => s
    let k := { k with exported := false, order := s.flash.captureOrder }
    let s := { s with flash := { s.flash with captures := SMap.insert s.flash.captures i k, captureOrder := s.flash.captureOrder + 1 } }
    let s := s.updDie d fun x => { x with capture := none }
    .next ((s.captureRecord 1 i k).granule d 13)
  | _, _ => .next s

/-- CAPTURE_WRITE: the buffer goes to a slot and is freed; with every slot unexported it stays. -/
def execCaptureWrite (d : Die) (s : State) : Out :=
  background s (runCaptureWrite d s)

/-! ### The spare (12 R308) -/

/-- What the end of a spare's test does. -/
def runSpareTest (d : Die) (pass : Bool) (s : State) : Out :=
  if !(s.die d).spareTesting then .next s
  else if pass then
    let s := (s.updDie d fun x => { x with spareTesting := false, sparePending := true }).arrayEvent d 2 0 6
    .next (if s.quiet then s.enterSpare d else s)
  else
    let s := s.updDie d fun x => { x with spareTesting := false, spareUsed_ := true, spareFailed := true }
    .next ((s.arrayEvent d 3 0 6).judgeIntegrity d)

/-- SPARE_TEST: the spare that was powered up has run its self-test and the installed gambits. -/
def execSpareTest (d : Die) (pass : Bool) (s : State) : Out :=
  background s (runSpareTest d pass s)

/-- SPARE_ENTER_SERVICE: a tested spare enters in quiet time; its deadline MK lets it in as that MK completes. -/
def execSpareEnterService (d : Die) (s : State) : Out :=
  if (s.die d).sparePending && s.quiet then .next (s.enterSpare d) else .next s

/-! ### Checker self-tests (12 R309) and gambits (12 R310 to R312) -/

/-- The array may run a granule: in service, and holding no accumulation (12 Table 12.7). -/
def DieSt.arrayFree (x : DieSt) (a : Nat) : Bool := x.arrayMask.getLsbD a && !(x.accs.any fun k => k.phys = some a)

/-- What a checker's self-test does. -/
def runCheckerSelftest (d : Die) (unit : Fin 14) (a : Arr) (pass : Bool) (s : State) : Out :=
  let onArray : Bool := decide (unit.val ≤ 2)
  if onArray && !(s.die d).arrayFree a then .next s
  else
    let s := (s.count d 0x906 unit none).granule d unit
    .next (if pass then s else if onArray then s.retireArray d a 3 else s.failChecker d)

/-- CHECKER_SELFTEST: a checker that fails on an array (its file, its side path, its drain) retires the array, on any
other unit it makes the die SERVICE_NOW (log 42). -/
def execCheckerSelftest (d : Die) (unit : Fin 14) (a : Arr) (pass : Bool) (s : State) : Out :=
  background s (runCheckerSelftest d unit a pass s)

/-- UNITS of a gambit's header: bit 0 array vectors, bit 1 vector-engine vectors. -/
def gambitUnits (g : Gambit) : BitVec 8 := BitVec.ofNat 8 (leAt g.bytes 7 1 % 4)

/-- Mismatching runs of a vector on an array: those that the hardware spoils, or both where the expected values are not what the
tile and the rows give (12 R312; log 43). -/
def gambitMisses (g : Bytes) (vector spoiled : Nat) (a : Nat) : Nat :=
  if !arrayVectorsOnly g then spoiled
  else
    let v := g.drop (vectorAt g vector)
    if vectorHolds v (vectorRun v a) then spoiled else 2

/-- What a gambit's vector does. -/
def runGambitRun (d : Die) (a : Arr) (vectorEngine : Bool) (gambit vector spoiled : Nat) (s : State) : Out :=
  match s.flash.gambits[gambit]? with
  | none => .next s
  | some g =>
    if gambitVectorsOf g.bytes ≤ vector || !(bit (gambitUnits g) (if vectorEngine then 1 else 0)) ||
        (!vectorEngine && !(s.die d).arrayFree a) then .next s
    else
      let mismatches := if vectorEngine then spoiled else gambitMisses g.bytes vector spoiled a
      let s := if vectorEngine || !arrayVectorsOnly g.bytes then s else s.runVector d a (g.bytes.drop (vectorAt g.bytes vector))
      let inst := if vectorEngine then 0x10 else a.val
      let s := (s.count d 0x908 inst none (if mismatches = 0 then 1 else 2)).granule d (if vectorEngine then 4 else 0)
      let action := if mismatches = 0 then 5 else if mismatches = 1 then 6 else 7
      let s := s.gambitRecord action 0 inst (gambitIdOf g.bytes) vector g.bytes
      .next (if mismatches = 0 then s
        else if vectorEngine then (if mismatches = 1 then s else s.failChecker d)
        else if mismatches = 1 then s.noteMismatch d a
        else s.retireArray d a 2)

/-- GAMBIT_RUN: one vector of an installed gambit on an array or on the vector engine. `spoiled`: of the first and the second run,
how many the unit gets wrong; the second takes place where the first mismatches (12 R312; log 43). -/
def execGambitRun (d : Die) (a : Arr) (vectorEngine : Bool) (gambit vector spoiled : Nat) (s : State) : Out :=
  background s (runGambitRun d a vectorEngine gambit vector spoiled s)

/-! ### Whole-unit work (12 R315 to R317) -/

/-- Row of 12 Table 12.8. -/
def workRow : UnitWork → Nat
  | .selftest => 1
  | .margin => 2
  | .gambits => 3
  | .spareTest => 4

/-- An array that is taken: it finishes what was issued to it, and what it holds is saved (12 R316, 04 R98). -/
def State.takeArray (s : State) (d : Die) (a : Nat) : State :=
  let s := (s.updDie d fun x => { x with arrayAbsent := setBit x.arrayAbsent a true }).geometryChange d
  s.saveAccs d fun k => k.phys = some a

/-- An array comes back. -/
def State.giveArray (s : State) (d : Die) (a : Nat) : State :=
  (s.updDie d fun x => { x with arrayAbsent := setBit x.arrayAbsent a false }).geometryChange d

/-- QUIET_WORK_START: whole-unit work takes arrays of a die in quiet time when it can finish within the period. A die keeps one
present array, since only retirement takes its last (01 R25; log 44). -/
def execQuietWorkStart (d : Die) (arrays : BitVec 7) (work : UnitWork) (lengthUs : Nat) (s : State) : Out :=
  let x := s.die d
  let want := onesOf arrays
  let inTime := match s.quietEnd with | some t => decide (s.now + lengthUs ≤ t) | none => true
  let ok := s.quiet && inTime && work ≠ .spareTest && !want.isEmpty && want.all x.present.contains && decide (want.length < x.activeArrays)
  if ok then
    let s := want.foldl (fun st a => st.takeArray d a) s
    .next (s.updDie d fun x => { x with quietWork := x.quietWork ++ want.map fun a => (a, work) })
  else .next s

/-- The mismatches that an array's work found, none of a margin sweep (13 R338), and the self-test's end. -/
def State.workResult (s : State) (d : Die) (a : Arr) (work : UnitWork) (mismatches : Nat) : State :=
  let s := if work = .selftest then (List.range mismatches).foldl (fun st _ => st.noteMismatch d a) s else s
  if work = .selftest then (s.updDie d fun x => { x with overdue := false }).judgeIntegrity d else s

/-- QUIET_WORK_DONE: the work on these arrays, which what was issued to them has left, finishes; `mismatches` gives arrays and
their mismatches. -/
def execQuietWorkDone (d : Die) (arrays : BitVec 7) (mismatches : List (Nat × Nat)) (s : State) : Out :=
  let done := (s.die d).quietWork.filter fun e => arrays.getLsbD e.1 && !((s.die d).accs.any fun k => k.phys = some e.1)
  .next (done.foldl (fun st e =>
    let n := ((mismatches.filter fun m => m.1 = e.1).map (·.2)).foldl (· + ·) 0
    let st := st.workResult d (arrOf e.1) e.2 n
    if (st.die d).quietWork.contains e then
      (st.updDie d fun x => { x with quietWork := x.quietWork.erase e }).giveArray d e.1
    else st) s)

/-- QUIET_WINDOW_END: the window of a context is over. -/
def execQuietWindowEnd (c : Ctx) (s : State) : Out := .next (s.updCtx c fun x => { x with quietUntil := none })

/-- ARRAY_BORROW: work past its deadline takes one array, outside quiet time. What was issued to it, an open receipt included,
finishes before the work begins and ends (ARRAY_RETURN). -/
def execArrayBorrow (d : Die) (a : Arr) (work : UnitWork) (s : State) : Out :=
  let x := s.die d
  let ok := bit s.ledger.integrityPolicy 59 && !s.quiet && work ≠ .spareTest && x.borrowing.isNone &&
    x.present.contains a.val && decide (1 < x.activeArrays)
  if ok then
    let s := (s.count d 0x907 a none).updDie d fun x => { x with borrowing := some (a.val, work) }
    .next ((s.takeArray d a).arrayEvent d 5 0 a)
  else .next s

/-- ARRAY_RETURN: the borrowed array's work is done and it returns, unless its mismatches retired it. -/
def execArrayReturn (d : Die) (a : Arr) (mismatches : Nat) (s : State) : Out :=
  match (s.die d).borrowing with
  | none => .next s
  | some (b, work) =>
    if b ≠ a.val || ((s.die d).accs.any fun k => k.phys = some b) then .next s
    else
      let s := s.workResult d a work mismatches
      if (s.die d).borrowing.isNone then .next s
      else .next (((s.updDie d fun x => { x with borrowing := none }).giveArray d b).arrayEvent d 6 0 b)

/-- SELFTEST_OVERDUE: work is past its deadline, because it may not borrow or could not; a self-test past twice its interval makes
the die SERVICE_SOON. -/
def execSelftestOverdue (d : Die) (a : Arr) (work : UnitWork) (pastTwice : Bool) (s : State) : Out :=
  if work = .spareTest then .next s
  else
    let s := s.arrayEvent d 7 (workRow work) a
    .next (if pastTwice && decide (work = .selftest) then (s.updDie d fun x => { x with overdue := true }).judgeIntegrity d else s)

/-! ### Margins (13 R338, R339; 17 R417, R418) -/

/-- M: the smallest margin above 1,400 MHz over the in-service arrays that have been swept. -/
def DieSt.smallestMargin (x : DieSt) : Option Int :=
  ((onesOf x.arrayMask).filterMap fun a => ((x.arrays[a]?).bind (·.sweep)).map fun (m : Nat) => ((m : Int) - 1400)).min?

/-- A sweep runs on the die. -/
def DieSt.sweeping (x : DieSt) (but : Nat) : Bool :=
  (x.quietWork.any fun e => e.2 = .margin && e.1 ≠ but) ||
    (match x.borrowing with | some (a, w) => w = .margin && a ≠ but | none => false)

/-- A capping episode begins when a clock first falls below nominal; while it lasts it keeps the peak 100 µs power and the
lowest effective limit (17 R414). -/
def State.cappingEpisode (s : State) : State :=
  let p := s.power
  if s.dies.toList.any (fun x => x.powerMhz < 1400 || x.marginMhz < 1400) || p.episode.isSome then
    { s with power := { p with episode := some (match p.episode with
      | some (w, l) => (max w p.inputW, min l p.effectiveW)
      | none => (p.inputW, p.effectiveW)) } }
  else s

/-- Adjusts VDD_A and the margin cap after a sweep. A step that would leave the calibration's range stops at its end. -/
def State.adaptVoltage (s : State) (d : Die) (a : Nat) : State :=
  let x := s.die d
  match x.smallestMargin with
  | none => s
  | some m =>
    let floor := s.calAt d (islandAt 0 + 2) 2
    let ceiling := s.calAt d (islandAt 0 + 4) 2
    let v := x.vddMv
    let v' := if x.sweeping a then v
      else if m > 140 then (if floor + 5 ≤ v then v - 5 else min v floor)
      else if m < 70 then (if v + 10 ≤ ceiling then v + 10 else max v ceiling)
      else v
    let capped := m < 70 && (x.capMargin || ceiling ≤ v)
    let mhz := if capped then ((1330 + m) / 14 * 14).toNat else 1400
    (s.updDie d fun x => { x with vddMv := v', capMargin := capped, marginMhz := mhz }).cappingEpisode

/-- What the end of a margin sweep does. -/
def runMarginSweepDone (d : Die) (a : Arr) (topMhz : Nat) (tempC : Nat) (s : State) : Out :=
  let x := s.die d
  if !(x.quietWork.contains (a.val, UnitWork.margin) || x.borrowing = some (a.val, UnitWork.margin)) then .next s
  else
    let factory := s.calAt d (64 + 2 * a.val) 2
    let low : Bool := decide (2 * ((topMhz : Int) - 1400) < (factory : Int))
    let s := s.updDie d fun x =>
      let y : ArraySt := { x.arrays[a] with sweep := some topMhz }
      { x with arrays := x.arrays.set a y }
    .next ((s.marginRecord d 1 a tempC low [topMhz, factory, 1400]).adaptVoltage d a)

/-- MARGIN_SWEEP_DONE: the sweep that runs on a taken array ends. -/
def execMarginSweepDone (d : Die) (a : Arr) (topMhz : Nat) (tempC : Nat) (s : State) : Out :=
  background s (runMarginSweepDone d a topMhz tempC s)

/-- What a link's eye scan does. -/
def runLinkEyeScan (l : Link) (eyes : List (BitVec 16)) (tempC : Nat) (s : State) : Out :=
  if (s.link l).state ≠ 2 then .next s
  else
    let d := linkDie l
    let es := (List.range 8).map fun i => (eyes.getD i 0).toNat
    let low := es.zipIdx.any fun e => eyeLow e.1 (s.calAt d (4736 + 2 * (8 * (l.val % 4) + e.2)) 2)
    .next ((s.marginRecord d 3 l tempC low es).granule d 12)

/-- LINK_EYE_SCAN: the eyes of a link's eight lanes, taken on live traffic. -/
def execLinkEyeScan (l : Link) (eyes : List (BitVec 16)) (tempC : Nat) (s : State) : Out :=
  background s (runLinkEyeScan l eyes tempC s)

end Sys2Proof.Machine
end

