-- ==== Sys2Proof/Machine/Ledger.lean ====
section
/-! DEFINITION. The Wearis ledger: writing records into flash with their chains, checkpoints, delivery to the management
network, and the requests that it answers (13 R332 to R344; 12 R305, R311). -/
namespace Sys2Proof.Machine

/-! ### Tiers and chains -/

/-- Capacity of the lifetime tier: 760 MiB (13 R332). -/
def lifetimeCapacity : Nat := 796917760
/-- Capacity of the rolling tier: 256 MiB. -/
def rollingCapacity : Nat := 268435456
def eraseBlock : Nat := 262144

def bytesOf (l : List Bytes) : Nat := (l.map (·.length)).foldl (· + ·) 0

/-- LSEQ of the last record of a tier; 0 when it holds none. -/
def lastLseq (l : List Bytes) : Nat := match l.getLast? with | some r => leAt r 32 8 | none => 0

/-- Bytes 0 to 23 of the digest of a tier's last record (13 R334). -/
def lastDigest (l : List Bytes) : Bytes := match l.getLast? with | some r => (sha512 r).take 24 | none => List.replicate 24 0

/-- LIFE_FILL: the lifetime tier used, in 65,536ths (13 Table 13.11). -/
def Flash.lifeFill (f : Flash) : Nat := min 65535 (bytesOf f.lifetime * 65536 / lifetimeCapacity)

/-- The record as flash takes it: TIER, LSEQ and LINK of its tier's chain (13 Table 13.9, R333). -/
def chained (tier : Nat) (l : List Bytes) (r : Bytes) : Bytes :=
  let b1 := leAt r 1 1
  r.take 1 ++ [BitVec.ofNat 8 (b1 % 16 + 16 * tier + b1 / 64 * 64)] ++ (r.drop 2).take 30 ++ leBytes 8 (lastLseq l + 1) ++ lastDigest l ++ r.drop 64

/-- A checkpoint's body as it is written: the rolling chain's head, the drops since the previous checkpoint, and the
signature over header and the body's first 64 bytes (13 R335, Table 13.10). -/
def signCheckpoint (rolling : List Bytes) (dropped : Nat) (r : Bytes) : Bytes :=
  let head := r.take 64 ++ leBytes 8 (lastLseq rolling) ++ lastDigest rolling ++ leBytes 4 dropped ++ (r.drop 100).take 28
  head ++ Config.identitySign head

/-- The ledger verdict and its flags follow the tiers (13 R336, R337). -/
def State.judgeLedger (s : State) : State :=
  let fill := s.flash.lifeFill
  let near : Bool := decide (95 * lifetimeCapacity ≤ 100 * bytesOf s.flash.lifetime)
  let l : LedgerSt := { s.ledger with nearFull := s.ledger.nearFull || near }
  let v : Nat := if l.chainBroken || l.lifetimeFull then 2 else if l.nearFull then 1 else 0
  if v = l.verdict then { s with ledger := l }
  else
    ({ s with ledger := { l with verdict := v } }).logDevice 0x0B 0 none true
      (eventBody 3 0 13 0 l.verdict v (if l.chainBroken then 1 else fill) 0)

/-- What is left of the rolling tier when a block is erased: the circle less the block that is being written. -/
def dropOldest : Nat → Nat → List Bytes → List Bytes
  | 0, _, l => l
  | n + 1, room, l => if bytesOf l ≤ room then l else dropOldest n room (l.drop 1)

/-- Writes a record at the end of the rolling tier. -/
def Flash.roll (f : Flash) (r : Bytes) : Flash :=
  let pos := f.rollBytes + r.length
  let l := f.rolling ++ [r]
  { f with rolling := dropOldest l.length (rollingCapacity - eraseBlock + pos % eraseBlock) l, rollBytes := pos
           rollEraseMax := BitVec.ofNat 32 (pos / rollingCapacity) }

/-- Rolling bytes written in the last 3,600 s (13 R337). -/
def State.rolledLately (s : State) : Nat :=
  ((s.ledger.rollWrites.filter fun w => s.now < w.1 + 3600000000).map (·.2)).foldl (· + ·) 0

/-- Pushes a ledgered record to the collectors (13 R340, R342). -/
def State.push (s : State) (tier : Nat) (r : Bytes) : State := if s.pushes then s.sendRecord (if tier = 0 then 0 else 2) r else s

/-- Writes one record of the queue into flash, or drops a rolling record beyond 64 KiB/s (13 R333, R337). -/
def State.writeRecord (s : State) (r : Rec) : State :=
  let fits : Bool := decide (bytesOf s.flash.lifetime + r.bytes.length ≤ lifetimeCapacity)
  if r.tier = 0 && fits && !s.ledger.lifetimeFull then
    let b := chained 0 s.flash.lifetime r.bytes
    let checkpoint := leAt b 0 1 = 2
    let b := if checkpoint then signCheckpoint s.flash.rolling s.ledger.rollDropped b else b
    let l := if checkpoint then { s.ledger with rollDropped := 0 } else s.ledger
    (({ s with flash := { s.flash with lifetime := s.flash.lifetime ++ [b] }, ledger := l }).push 0 b).judgeLedger
  else if r.tier = 1 && 65536 * 3600 < s.rolledLately + r.bytes.length then
    ({ s with ledger := { s.ledger with rollDropped := s.ledger.rollDropped + 1
                                        rollDroppedBoot := BitVec.ofNat 32 (satAdd 32 s.ledger.rollDroppedBoot.toNat 1) } }).count 0 0xA04 0 none
  else
    let b := chained 1 s.flash.rolling r.bytes
    let checkpoint := leAt b 0 1 = 2
    let b := if checkpoint then signCheckpoint s.flash.rolling s.ledger.rollDropped b else b
    let l := { s.ledger with
      lifetimeFull := s.ledger.lifetimeFull || decide (r.tier = 0), rollDropped := if checkpoint then 0 else s.ledger.rollDropped
      rollWrites := (s.ledger.rollWrites.filter fun w => s.now < w.1 + 3600000000) ++ [(s.now, r.bytes.length)] }
    (({ s with flash := s.flash.roll b, ledger := l }).push 1 b).judgeLedger

/-- LEDGER_FLASH_WRITE: the oldest record of the queue. -/
def execLedgerFlashWrite (s : State) : Out :=
  match s.ledger.queue with
  | [] => .next s
  | r :: rest => .next ((({ s with ledger := { s.ledger with queue := rest } }).writeRecord r).granule 0 13)

/-- Writes n records of the queue, as the paths that wait for flash do. -/
def State.flush : Nat → State → State
  | 0, s => s
  | n + 1, s =>
    match s.ledger.queue with
    | [] => s
    | r :: rest => (({ s with ledger := { s.ledger with queue := rest } }).writeRecord r).flush n

/-- Every record that waits, and what their writing adds. -/
def State.flushAll (s : State) : State := s.flush (2 * s.ledger.queue.length + 2)

/-! ### Checkpoints (13 R335) -/

/-- Makes a checkpoint record: TRIGGER 1 interval, 2 boot, 3 request, 4 power-down. -/
def State.checkpoint (s : State) (trigger : Nat) : State :=
  let body := leBytes 64 (packNat [(0, 288), (s.fwRev.toNat, 16), (s.numericsRev.toNat, 8), (trigger, 4)])
  let s : State := { s with ledger := { s.ledger with lastCheckpoint := s.now } }
  s.logDevice 0x02 0 none false (body ++ List.replicate 512 0)

/-- LEDGER_CHECKPOINT: CHECKPOINT_INTERVAL has passed. -/
def execLedgerCheckpoint (s : State) : Out := .next (s.checkpoint 1)

/-! ### The management network (13 R340 to R344) -/

/-- D19 answers: rails up, the boot past stage 0x07, D19 in service (16 R387, R388). -/
def State.managed (s : State) : Bool := s.up && s.bootSt.stage = 0xFF && s.dieInService 19

/-- Keeps the last 4 MiB of datagrams. -/
def trimHistory : Nat → List Datagram → List Datagram
  | 0, l => l
  | n + 1, l => if (l.map (·.bytes.length)).foldl (· + ·) 0 ≤ 4194304 then l else trimHistory n (l.drop 1)

/-- DATAGRAM_SEND: the next datagram in the order of 13 R342 leaves for the collectors. -/
def execDatagramSend (s : State) : Out :=
  if !s.managed || !s.pushes then .next s
  else
    let l := s.ledger
    match [0, 1, 2, 3].findSome? fun p => l.send.find? fun g => g.priority = p with
    | none => .next s
    | some g =>
      let h := if l.history.any (·.seq = g.seq) then l.history else l.history ++ [g]
      .next { s with ledger := { l with send := l.send.erase g, history := trimHistory h.length h } }

/-- The request is one that this device answers (13 R343, R344, Table 13.16). -/
def State.answers (s : State) (who : Requester) (q : BitVec 256) (code : Nat) : Bool :=
  s.managed && fld q 15 0 = 0x5751 && fld q 19 16 = 1 && fld q 23 20 = code && fld q 127 64 = s.fuses.deviceId.toNat &&
    (3 < code || (1 ≤ fld q 63 32 && fld q 63 32 ≤ 4096)) &&
    (match who with
      | .udp a => s.flash.collectors.toList.any fun k => k.enable && k.address = a
      | .mctp => true)

/-- A response: queued for the collector that asked, or returned over MCTP. -/
def State.reply (s : State) (who : Requester) (g : Datagram) : State :=
  match who with
  | .udp a => s.queueDatagram { g with priority := 1, dest := some a }
  | .mctp => { s with ledger := { s.ledger with mctpResponses := s.ledger.mctpResponses ++ [g.bytes] } }

def State.replyBytes (s : State) (who : Requester) (capture : Option Nat) (r : Bytes) : State :=
  (datagramForms capture r).foldl (fun st f =>
    let (g, st) := st.makeDatagram 1 none f.1 f.2.1 f.2.2.1 f.2.2.2.1 f.2.2.2.2
    st.reply who g) s

/-- The records of a tier with LSEQ from FIRST, at most COUNT of them. -/
def held (l : List Bytes) (first count : Nat) : List Bytes :=
  l.filter fun r => first ≤ leAt r 32 8 && leAt r 32 8 < first + count

def State.replyRecords (s : State) (who : Requester) (q : BitVec 256) (l : List Bytes) : State :=
  (held l (fld q 191 128) (fld q 63 32)).foldl (fun st r => st.replyBytes who none r) s

def execLifetimeRecordsRequest (who : Requester) (q : BitVec 256) (s : State) : Out :=
  .next (if s.answers who q 1 then s.replyRecords who q s.flash.lifetime else s)

def execRollingRecordsRequest (who : Requester) (q : BitVec 256) (s : State) : Out :=
  .next (if s.answers who q 2 then s.replyRecords who q s.flash.rolling else s)

def execHistoryDatagramsRequest (who : Requester) (q : BitVec 256) (s : State) : Out :=
  if s.answers who q 3 then
    .next ((s.ledger.history.filter fun g => fld q 191 128 ≤ g.seq && g.seq < fld q 191 128 + fld q 63 32).foldl (fun st g => st.reply who g) s)
  else .next s

def execCaptureSlotRequest (who : Requester) (q : BitVec 256) (s : State) : Out :=
  if s.answers who q 4 then
    match SMap.find s.flash.captures (fld q 27 24) with
    | some k => .next (s.replyBytes who (some (fld q 27 24)) k.bytes)
    | none => .next s
  else .next s

/-- Marks a capture slot exported when the digest prefix matches (12 R305); none where nothing matches. -/
def State.exportCapture (s : State) (slot digest : Nat) : Option State :=
  match SMap.find s.flash.captures slot with
  | some k =>
    if digestNat 8 k.bytes = digest then
      let t : State := { s with flash := { s.flash with captures := SMap.insert s.flash.captures slot { k with exported := true } } }
      some (t.captureRecord 3 slot k)
    else none
  | none => none

def execCaptureExportedRequest (who : Requester) (q : BitVec 256) (s : State) : Out :=
  if s.answers who q 5 then .next ((s.exportCapture (fld q 27 24) (fld q 255 192)).getD s) else .next s

def execCheckpointNowRequest (who : Requester) (q : BitVec 256) (s : State) : Out :=
  .next (if s.answers who q 6 then s.checkpoint 3 else s)

/-- MCTP_GAMBIT_INSTALL: a gambit through MCTP on the management port (12 R311). -/
def execMctpGambitInstall (package : Bytes) (s : State) : Out :=
  .next (if s.managed then (s.installGambit package).2 else s)

end Sys2Proof.Machine
end

