-- ==== Sys2Proof/Machine/Regs.lean ====
section
/-! DEFINITION. Registers as they read: the geometry table, the register blocks of a die, mailbox and BAR registers (01 Tables
1.13, 1.14; 08 Tables 8.6, 8.7, 8.11, 8.12; 10 Tables 10.8, 10.9; 12 Table 12.9; 13 Tables 13.1 to 13.6, 13.11; 15 Tables
15.3 to 15.5; 17 Table 17.10). -/
namespace Sys2Proof.Machine

/-! ### The geometry table -/

def State.geometryHeader (s : State) : Bytes :=
  leBytes 32 (packNat [(0xB0, 8), (s.numericsRev.toNat, 8), (s.fwRev.toNat, 16), (s.dieMask.toNat, 20), (s.portMask.toNat, 8), (0, 4),
    (s.tableGen.toNat, 32), (8, 8), (256, 16), (0, 8), (256, 16), (4096, 16), (8192, 16)])

def DieSt.geometryRecord (x : DieSt) : Bytes :=
  leBytes 16 (packNat [(x.arrayMask.toNat, 7), (0, 1), (x.arrayAbsent.toNat, 7), (0, 1), (x.activeArrays, 4), (0, 12), (65536, 32),
    (x.stackPages.toNat, 32), (x.retiredPages.toNat, 32)])

/-- The 352 bytes of the table (01 Tables 1.13, 1.14). -/
def State.geometryTable (s : State) : Bytes := s.geometryHeader ++ s.dies.toList.flatMap DieSt.geometryRecord

/-! ### Register blocks: their segments as (offset, bytes); other offsets read 0 -/

/-- A byte of a block. -/
def segByte (segs : List (Nat × Bytes)) (a : Nat) : Byte :=
  match segs.find? fun g => g.1 ≤ a && a < g.1 + g.2.length with
  | some g => g.2.getD (a - g.1) 0
  | none => 0

def segRead (segs : List (Nat × Bytes)) (a n : Nat) : Bytes := (List.range n).map fun i => segByte segs (a + i)

def State.integStatus (s : State) (d : Die) : Bytes :=
  let x := s.die d
  leBytes 16 (packNat [(x.integVerdict.toNat, 2), (b2n x.spareUsed_, 1), (b2n x.sparePending, 1), (b2n x.checkerFailed, 1),
    (x.retiredArrays.toNat, 7), (0, 4), (x.captureLost.toNat, 16), (x.compareRetries.toNat, 32), (min 8192 (s.poisonListed d), 14)])

def StallSt.cfgImage (k : StallSt) : Bytes :=
  leBytes 4 (packNat [(k.floor.toNat, 8), (k.ceil.toNat, 8), (k.weight.toNat, 4), (b2n k.enable, 1)])

def StallSt.statImage (k : StallSt) : Bytes :=
  leBytes 32 (packNat [(k.unitsLast.toNat, 17), (0, 15), (k.debt.toNat, 18), (0, 14), (k.readCw.toNat, 64), (k.writeCw.toNat, 64),
    (k.floorMiss.toNat, 32), (k.ceilOverrun.toNat, 32)])

/-- CE_WINDOW: corrected codewords in the last 1,048,576 reads. -/
def PcSt.ceWindow (q : PcSt) : Nat := min 65535 (q.log.filter fun e => q.reads < e.read + 1048576).length

def PcSt.image (q : PcSt) : Bytes :=
  leBytes 8 (packNat [(q.eraseA.toNat, 6), (0, 2), (q.eraseB.toNat, 6), (0, 2), (b2n q.retraining, 1), (0, 15), (q.ceWindow, 16),
    (q.ueTotal.toNat, 16)])

def DieSt.stackStatus (x : DieSt) : Bytes :=
  leBytes 8 (packNat [(x.capacityVerdict.toNat, 2), (b2n (!x.softRows.isEmpty), 1), (0, 13), (x.spareRowsFree, 16),
    (x.retiredPages.toNat, 16), (x.erasedPinCount, 16)])

def FabricSt.nodeImage (f : FabricSt) : Bytes :=
  leBytes 16 (packNat [(f.logical.toNat, 14), (0, 2), (f.px.toNat, 4), (f.py.toNat, 4), (f.pz.toNat, 3), (f.pw.toNat, 3), (0, 2),
    (f.dxM1.toNat, 4), (f.dyM1.toNat, 4), (f.dzM1.toNat, 3), (f.dwM1.toNat, 3), (0, 2), (f.remapGen.toNat, 16), (f.e2eUs.toNat, 24)])

/-- LINK_STATUSn; an UP link is in the spray set (log 47). -/
def State.linkImage (s : State) (l : Link) : Bytes :=
  let x := s.link l
  let exits := (x.exits.filter fun t => s.now < t + 60000000).length
  leBytes 16 (packNat [(x.state.toNat, 2), (b2n (x.state = 2), 1), (0, 1), (min exits 3, 2), (0, 10), (x.replays.toNat, 16),
    (x.uncorrected.toNat, 32), (x.correctedSymbols.toNat, 32)])

/-- The links of the port that a die shares (10 Table 10.1). -/
def dieLinks (d : Die) : List Link := (List.finRange 32).filter fun l => d = linkDie l || d.val = (linkDie l).val + 1

/-- LEDGER_STATUS (13 Table 13.11). -/
def State.ledgerStatus (s : State) : Bytes :=
  let f := s.flash
  leBytes 32 (packNat [(lastLseq f.lifetime, 64), (lastLseq f.rolling, 64), (f.lifeFill, 16), (0, 16), (f.rollEraseMax.toNat, 32),
    (s.ledger.rollDroppedBoot.toNat, 32), (b2n s.ledger.nearFull, 1), (b2n s.ledger.lifetimeFull, 1), (b2n s.ledger.chainBroken, 1),
    (f.badBlocks.toNat, 13)])

/-- A die's aclk: the lowest of the limits that act on it (17 R413, R415, R418). -/
def DieSt.aclk (x : DieSt) : Nat := min (min x.powerMhz x.thermalMhz) x.marginMhz

/-- A die's vclk, which the margin cap does not lower. -/
def DieSt.vclk (x : DieSt) : Nat := min x.powerMhz x.thermalMhz

/-- POWER_STATUS (17 Table 17.10). -/
def State.powerStatus (s : State) (d : Die) : Bytes :=
  let x := s.die d
  let own := d.val = 0
  leBytes 16 (packNat [(b2n (x.aclk < 1400 || x.vclk < 1400), 1), (b2n x.capPower, 1), (b2n x.capTemp, 1), (b2n x.capMargin, 1),
    (s.power.limitCode.toNat, 2), (0, 10), (s.power.effectiveW, 16), (x.aclk, 16), (x.vclk, 16), (x.vddMv, 16), (twos 8 x.dieTempC, 8),
    (twos 8 x.stackTempC, 8), (if own then min 65535 s.power.inputW else 0, 16), (if own then s.power.inputMv / 10 else 0, 16)])

/-- The register blocks of a die: 0 integrity, 1 memory controller, 2 router, 3 counter unit (15 Table 15.9). -/
def State.block (s : State) (d : Die) (b : Nat) : List (Nat × Bytes) :=
  let x := s.die d
  match b with
  | 0 => [(0, s.integStatus d)]
  | 1 =>
    (x.stalls.toList.zipIdx.map fun k => (0x0100 + 0x10 * k.2, k.1.cfgImage)) ++
      (x.stalls.toList.zipIdx.map fun k => (0x0200 + 0x20 * k.2, k.1.statImage)) ++ [(0x0400, x.stackStatus), (0x0800, x.pcs.toList.flatMap PcSt.image)]
  | 2 => (0, s.fabric.nodeImage) :: (dieLinks d).map fun l => (0x0100 + 0x10 * l.val, s.linkImage l)
  | 3 =>
    [(0, x.counters.toList.flatMap Counter.image), (0x0400, x.hists.toList.flatMap fun h => leBytes 4 h.select.toNat),
      (0x0800, x.bwImage d), (0x2100, s.powerStatus d)] ++
      (x.hists.toList.zipIdx.map fun h => (0x1000 + 0x200 * h.2, h.1.image false)) ++ (if d.val = 0 then [(0x2000, s.ledgerStatus)] else [])
  | _ => []

/-! ### What the host reads through the BARs -/

/-- READY: Suphor accepts commands (15 Table 15.4). -/
def State.ready (s : State) : Bool := s.up && s.bootSt.stage = 0xFF

/-- DEVICE_STATE (15 Table 15.4). -/
def State.deviceState (s : State) : BitVec 64 :=
  pack 64 [(b2n s.ready, 1), (b2n s.bootSt.deviceFault, 1), (0, 6), (s.bootSt.stage.toNat, 8), (s.fwRev.toNat, 16), (s.tableGen.toNat, 32)]

/-- A word of mailbox m's block (15 Table 15.5). -/
def State.mailboxWord (s : State) (m : Mbx) (offset : Nat) : BitVec 64 :=
  let x := s.mbx m
  let live := decide (0 < m.val) && (s.ctx (ctxOf (m.val + 7))).isSome
  match offset with
  | 0x000 => pack 64 [(m.val, 4), (b2n (decide (m.val = 0)), 1), (m.val - 1, 3), (b2n live, 1)]
  | 0x008 => x.cmdBase
  | 0x010 => pack 64 [(x.cmdSize.toNat, 4), (0, 4), (b2n x.cmdEnable, 1)]
  | 0x020 => pack 64 [(x.cmdHead.toNat, 32)]
  | 0x028 => x.cplBase
  | 0x030 => pack 64 [(x.cplSize.toNat, 4), (0, 4), (b2n x.cplEnable, 1), (0, 7), (x.cplVector.toNat, 6)]
  | 0x038 => pack 64 [(x.cplHead.toNat, 32)]
  | 0x040 => pack 64 [(x.cplTail.toNat, 32)]
  | 0x048 => x.evtBase
  | 0x050 => pack 64 [(x.evtSize.toNat, 4), (0, 4), (b2n x.evtEnable, 1), (b2n x.evtIrqEn, 1), (0, 6), (x.evtVector.toNat, 6)]
  | 0x058 => pack 64 [(x.evtHead.toNat, 32)]
  | 0x060 => pack 64 [(x.evtTail.toNat, 32)]
  | 0x068 => pack 64 [(b2n x.fetchErr, 1), (b2n x.tailErr, 1), (b2n x.linkRecovered, 1), (0, 13), (x.evtDropped.toNat, 32)]
  | 0x070 => if m.val = 0 then pack 64 [(s.host.poisonReads.toNat, 32), (s.host.discards.toNat, 32)] else 0
  | _ => 0

end Sys2Proof.Machine
end

