-- ==== Sys2Proof/Machine/Boot.lean ====
section
/-! DEFINITION. Reset and boot: what a reset leaves, and the boot stages of 16 Table 16.3 (16 R385 to R389, R393, R396; 13
R335, R336; 17 R417). -/
namespace Sys2Proof.Machine

/-! ### Reset (16 R386) -/

/-- An array's life-long counts, which outlive a reset (12 R306; log 48). -/
def DieSt.afterReset (x : DieSt) : DieSt := { DieSt.reset with arrays := x.arrays }

/-- Power registers after a reset: pins and measurements stay, the capping loop starts anew. -/
def PowerSt.afterReset (p : PowerSt) : PowerSt :=
  { p with readyN := false, faultN := false, shutdownAck := false, effectiveW := 3400, belowCount := 0, skipAlternate := false
           episode := none, rideThrough := none, coolantHigh := false }

/-- What a reset leaves: everything but flash, fuses, the pins and what lies outside the device. `cause` is the ACTION of the
next BOOT record (13 Table 13.13); a reset in the state of a device fault is cause 3. It writes no checkpoint, so that record's
REASON bit 0 is 0. -/
def State.restart (s : State) (cause : Nat) : State :=
  { State.reset with
    pending := s.pending, freeCtr := s.freeCtr, now := s.now, hostMem := s.hostMem, hostPoison := s.hostPoison
    dies := s.dies.map DieSt.afterReset, flash := s.flash, fuses := s.fuses, power := s.power.afterReset
    bootSt := { BootSt.reset with
      bootCount := s.bootSt.bootCount, cause := if s.bootSt.deviceFault then 3 else cause } }

/-- The device resets. The records that wait reach flash first, since no lifetime record is dropped (13 R333). -/
def State.deviceReset (s : State) (cause : Nat) : State := s.flushAll.restart cause

/-! ### Reading the lifetime tier at boot (16 R389) -/

def recType (r : Bytes) : Nat := leAt r 0 1
def recDie (r : Bytes) : Nat := leAt r 4 1 % 32
def recAction (r : Bytes) : Nat := leAt r 64 1
def recInst (r : Bytes) : Nat := leAt r 68 2
def recA (r : Bytes) : Nat := leAt r 72 8
def recB (r : Bytes) : Nat := leAt r 80 8

/-- Reapplies one memory or array record to its die. -/
def DieSt.recall (x : DieSt) (d : Nat) (fused : List (Nat × Nat)) (r : Bytes) : DieSt :=
  if recDie r ≠ d then x
  else if recType r = 0x06 then
    let pc := pcOf (recInst r)
    let page := recA r / 65536
    match recAction r with
    | 1 =>
      let id := rowId pc page
      if x.repairedRows.contains id then x
      else { x with
        repairedRows := x.repairedRows ++ [id], softRows := if fused.contains (d, id) then x.softRows else x.softRows ++ [id]
        spareUsed := SMap.put 0 x.spareUsed (pc.val * 256 + page % 256) (x.sparesUsed pc page + 1) }
    | 3 =>
      if x.retired.contains page then x
      else { x with retired := x.retired ++ [page], stackPages := x.stackPages - 1, retiredPages := x.retiredPages + 1 }
    | 4 =>
      let pin := BitVec.ofNat 6 (recB r)
      x.updPc pc fun q =>
        if q.eraseA = pin || q.eraseB = pin then q else if q.eraseA = 0x3F then { q with eraseA := pin } else { q with eraseB := pin }
    | 5 =>
      let pin := BitVec.ofNat 6 (recB r)
      x.updPc pc fun q => if q.eraseA = pin then { q with eraseA := 0x3F } else if q.eraseB = pin then { q with eraseB := 0x3F } else q
    | 6 => x.updPc pc fun q => { q with third := true }
    | _ => x
  else if recType r = 0x08 then
    let a := recInst r
    match recAction r with
    | 1 => { x with arrayMask := setBit x.arrayMask a false, retiredArrays := setBit x.retiredArrays a true
                    spareTesting := x.spareTesting || (a ≠ 6 && !x.spareUsed_ && !x.sparePending) }
    | 2 => { x with sparePending := true, spareTesting := false }
    | 3 => { x with spareUsed_ := true, spareFailed := true, spareTesting := false, sparePending := false }
    | 4 => { x with arrayMask := setBit x.arrayMask 6 (!x.retiredArrays.getLsbD 6), spareUsed_ := true, sparePending := false, spareTesting := false }
    | _ => x
  else x

/-- Supply of a die's latest array sweep in the lifetime tier (17 R417). -/
def sweepSupply (d : Nat) (l : List Bytes) : Option Nat :=
  ((l.filter fun r => recType r = 0x0C && leAt r 64 1 % 16 = 1 && recDie r = d).getLast?).map fun r => leAt r 68 2

/-! ### The chains (13 R336) -/

/-- Consecutive records of a tier carry consecutive LSEQs and the digests of the record before. -/
def chainOk : List Bytes → Bool
  | a :: b :: rest => leAt b 32 8 = leAt a 32 8 + 1 && (b.drop 40).take 24 = (sha512 a).take 24 && chainOk (b :: rest)
  | _ => true

/-- The records from the last checkpoint to the head. -/
def fromCheckpoint (l : List Bytes) : List Bytes :=
  match (l.zipIdx.filter fun e => recType e.1 = 2).getLast? with
  | some e => l.drop e.2
  | none => l

/-- The rolling records from the one that the last checkpoint names. -/
def rollingFrom (lifetime rolling : List Bytes) : List Bytes :=
  match (lifetime.filter fun r => recType r = 2).getLast? with
  | some c => rolling.filter fun r => leAt c 64 8 ≤ leAt r 32 8
  | none => rolling

/-- The rolling chain holds, from the record whose digest the last checkpoint fixes. -/
def rollingOk (lifetime rolling : List Bytes) : Bool :=
  let l := rollingFrom lifetime rolling
  chainOk l && (match (lifetime.filter fun r => recType r = 2).getLast?, l.head? with
    | some c, some r => leAt c 64 8 = 0 || leAt r 32 8 ≠ leAt c 64 8 || (c.drop 72).take 24 = (sha512 r).take 24
    | some c, none => leAt c 64 8 = 0
    | none, _ => true)

/-! ### Boot (16 R387) -/

/-- The slot that boots: the preferred one if it is bootable, else the other (16 R393); and whether it is slot B. -/
def State.bootSlot (s : State) : Option (Bytes × Bool) :=
  let good := fun (p : Option Bytes) => p.bind fun b => if s.pkgOk [1] b then some b else none
  let f := s.flash
  let (a, b) := if f.preferB then (f.slotB, f.slotA) else (f.slotA, f.slotB)
  match good a with
  | some p => some (p, f.preferB)
  | none => (good b).map fun p => (p, !f.preferB)

/-- The boot stops at a stage. -/
def State.bootStops (s : State) (stage : BitVec 8) : State :=
  { s with bootSt := { s.bootSt with stage := stage }, power := { s.power with faultN := s.power.faultN || stage = 0xE0 || stage = 0xE2 } }

/-- Stage 0x04: an interrupted replacement of the calibration set is completed, and the set in force is taken (16 R396). -/
def State.calibrate (s : State) : State :=
  let s := match s.flash.staging with
    | some p => if s.pkgOk [2] p then s.installCalibration p else s
    | none => s
  match s.flash.calibration with
  | some p => if s.pkgOk [2] p then { s with bootSt := { s.bootSt with calInForce := p } } else s
  | none => s

/-- Stages 0x04 and 0x05 of one die: what flash remembers of it, its supply, its stack. -/
def State.bootDie (s : State) (d : Die) : State :=
  let s := s.updDie d fun x => s.flash.lifetime.foldl (fun y r => y.recall d s.fuses.repairs r) x
  s.updDie d fun x => { x with vddMv := (sweepSupply d s.flash.lifetime).getD (s.calAt d (islandAt 0) 2) }

/-- Soft repairs are fused; one whose fuse write fails stays soft (16 R387). -/
def State.fuseRepairs (s : State) (d : Die) (ok : Bool) : State :=
  if !ok then s
  else
    let soft := (s.die d).softRows
    let s : State := { s with fuses := { s.fuses with repairs := s.fuses.repairs ++ soft.map fun r => (d.val, r) } }
    let s := s.updDie d fun x => { x with softRows := [] }
    soft.foldl (fun st r => st.event d 0x06 0 none
      (eventBody 2 0 10 (r / 2 ^ 20) (r % 2 ^ 20 * 65536 + r / 2 ^ 20 * 1024) 0 (st.die d).spareRowsFree 0)) s

/-- A die other than D0 that failed its boot leaves the device (16 R388). -/
def State.dropDie (s : State) (d : Die) (lockstep : Bool) : State :=
  let s := s.updDie d fun x => { x with arrayMask := 0, stackPages := 0 }
  let s : State := { s with dieMask := setBit s.dieMask d false }
  (s.recordFault d none 0 { cls := 3, reason := if lockstep then 18 else 17, unit := 13, inst := d }).geometryChange d

/-- Stage 0x07: the chains are checked, the BOOT record and a checkpoint are written (13 R335, R336). -/
def State.bootLedger (s : State) : State :=
  let f := s.flash
  let life := chainOk (fromCheckpoint f.lifetime) && !f.chainLifetimeBroken
  let roll := rollingOk f.lifetime f.rolling && !f.chainRollingBroken
  let reason := b2n s.bootSt.cleanShutdown + 2 * b2n life + 4 * b2n roll
  let s := s.logDevice 0x01 0 none false
    (eventBody s.bootSt.cause reason 13 0 (s.fwRev.toNat + 2 ^ 16 * s.numericsRev.toNat + 2 ^ 24 * 0xB0) (lastLseq f.lifetime) (lastLseq f.rolling) 0)
  let s : State := { s with
    ledger := { s.ledger with chainBroken := !life || !roll, lifetimeFull := decide (lifetimeCapacity < bytesOf f.lifetime + 4096) }
    bootSt := { s.bootSt with cleanShutdown := false } }
  (s.judgeLedger.checkpoint 2).flushAll

/-- Stage 0x08: every link trains; those whose lanes train within two seconds exchange HELLOs, and come up where the check
passes; the others go on training (10 R233, R238). -/
def State.bootLinks (s : State) (hellos : List (Option (BitVec 33))) : State :=
  let s := (List.finRange 32).foldl (fun st (l : Link) =>
    let served := st.dieInService (linkDie l) || st.dieInService (dieOf ((linkDie l).val + 1))
    let st := (st.updLink l fun x => { x with state := 1 }).linkRecord l 1 0
    match hellos.getD l.val none with
    | some h => if served && st.power.fabRefclk then (st.sayHello l).meetHello l h else st
    | none => st) s
  (List.range 8).foldl (fun st p => st.judgePort p) s

/-- The host link is up at its width, or its failure is reported (15 R363). -/
def State.bootHost (s : State) (w : Option HostWidth) : State :=
  match w with
  | some w => { s with host := { s.host with link := some w }, power := { s.power with hostRefclk := true } }
  | none => s.logDevice 0x07 1 none true (eventBody 0 5 12 0xFF 0 0 0 0)

/-- The fuses take the running firmware's security version, and READY rises (16 R387, R392). -/
def State.bootReady (s : State) : State :=
  { s with
    fuses := { s.fuses with secVersion := max s.fuses.secVersion s.bootSt.runningSec }
    bootSt := { s.bootSt with stage := 0xFF }, power := { s.power with readyN := true } }

/-- BOOT: every stage, from 0x00 to where the boot ends. With SHUTDOWN_REQ_N asserted it stops where it is (17 R411). -/
def execBoot (env : BootEnv) (s : State) : Out :=
  if s.power.state ≠ .run || s.bootSt.stage ≠ 0 then .next s
  else if s.power.shutdownReq then .next { s with power := { s.power with shutdownAck := true } }
  else
    let die := fun (d : Nat) => env.dies.getD d { lockstepOk := true, stackOk := true, arraysOk := true }
    let fails := fun (d : Nat) => !((die d).lockstepOk && (die d).stackOk && (die d).arraysOk)
    if fails 0 then .next (s.bootStops 0x01)
    else
      match s.bootSlot with
      | none => .next (s.bootStops 0xE0)
      | some (fw, isB) =>
        let passed := if isB = s.flash.preferB then none else some ((if isB then s.flash.slotA else s.flash.slotB).getD [])
        let s : State := { s with
          fwRev := BitVec.ofNat 16 (pkgFwRev fw), numericsRev := BitVec.ofNat 8 (pkgNumerics fw)
          bootSt := { s.bootSt with bootCount := s.bootSt.bootCount + 1, runningB := isB, runningSec := pkgSec fw, runningPkg := fw } }
        let s := s.calibrate
        if s.bootSt.calInForce.isEmpty then .next (s.bootStops 0xE2)
        else
          let s := match passed with | some p => s.security 2 (pkgFwRev p) p | none => s
          let s := (List.finRange 20).foldl (fun st d => (st.bootDie d).fuseRepairs d env.fuseWriteOk) s
          let s := (List.finRange 20).foldl (fun st d => if fails d.val then st.dropDie d (!(die d.val).lockstepOk) else st) s
          let s := (List.finRange 20).foldl (fun st d => (if st.dieInService d then st.judgeIntegrity d else st).judgeCapacity d) s
          let s := ((s.bootLedger).bootLinks env.hellos).bootHost env.hostLink
          .next (s.bootReady.raise 18)

end Sys2Proof.Machine
end

