-- ==== Sys2Proof/Machine/Mailbox.lean ====
section
/-! DEFINITION. The mailboxes: rings, doorbells, fetching, starting and completing commands, the register writes of the host,
and the host link (15 R362 to R376). -/
namespace Sys2Proof.Machine

/-! ### Command records (15 Table 15.7) -/

abbrev CmdWord := BitVec 512

def cmdOp (w : CmdWord) : Nat := fld w 7 0
def cmdIrq (w : CmdWord) : Bool := bit w 8
def cmdCtx (w : CmdWord) : Nat := fld w 18 16
def cmdTag (w : CmdWord) : Nat := fld w 63 32
def cmdAddr (w : CmdWord) : Nat := fld w 127 64
def cmdLen (w : CmdWord) : Nat := fld w 159 128
/-- ARG0 to ARG3. -/
def cmdArg (w : CmdWord) (i : Nat) : Nat := fld w (255 + 64 * i) (192 + 64 * i)

def cmdReserved (w : CmdWord) : Bool := fld w 15 9 = 0 && fld w 31 19 = 0 && fld w 191 160 = 0 && fld w 511 448 = 0

/-- Completion status (15 Table 15.10). -/
inductive Status where
  | ok | invalidOpcode | reservedBit | invalidArg | notPermitted | noContext | busy | noResource | range | policy | signature
  | dataFault | deviceFault | inUse | aborted | timeout | notFound | notRunning
  deriving DecidableEq, Repr

def Status.code : Status → Nat
  | .ok => 0x00
  | .invalidOpcode => 0x01
  | .reservedBit => 0x02
  | .invalidArg => 0x03
  | .notPermitted => 0x04
  | .noContext => 0x05
  | .busy => 0x06
  | .noResource => 0x07
  | .range => 0x08
  | .policy => 0x09
  | .signature => 0x0A
  | .dataFault => 0x0B
  | .deviceFault => 0x0C
  | .inUse => 0x0D
  | .aborted => 0x0E
  | .timeout => 0x0F
  | .notFound => 0x10
  | .notRunning => 0x11

/-- What a command answers. -/
structure Reply where
  status : Status := .ok
  detail : Nat := 0
  r0 : Nat := 0
  r1 : Nat := 0
  deriving DecidableEq, Repr

def Reply.done : Reply := {}
def Reply.results (a b : Nat) : Reply := { r0 := a, r1 := b }
def Reply.no (x : Status) : Reply := { status := x }
/-- INVALID_ARG: 0 to 3 name an argument, 4 DATA_LEN. -/
def Reply.badArg (i : Nat) : Reply := { status := .invalidArg, detail := i }
/-- POLICY with the code of 15 Table 15.14. -/
def Reply.policyNo (i : Nat) : Reply := { status := .policy, detail := i }

/-! ### Completions (15 Table 15.8, R374) -/

/-- The record but for its PHASE. -/
def cplRecord (w : CmdWord) (r : Reply) : BitVec 256 :=
  pack 256 [(0, 8), (r.status.code, 8), (cmdOp w, 8), (r.detail, 8), (cmdTag w, 32), (r.r0, 64), (r.r1, 64)]

def ringSlots (n : BitVec 4) : Nat := 2 ^ n.toNat

/-- Writes a completion into an enabled ring, with its PHASE, and raises the vector where the command asked for it. -/
def State.putCompletion (s : State) (m : Mbx) (rec_ : BitVec 256) (irq : Bool) : State :=
  let x := s.mbx m
  if !x.cplEnable then s
  else
    let n := ringSlots x.cplSize
    let phase := 1 - x.cplTail.toNat / n % 2
    let s := s.write (.host (x.cplBase.toNat / 4096 * 4096 + 32 * (x.cplTail.toNat % n))) (leBytes 32 (rec_.toNat + phase)) false
    let s := s.updMbx m fun x => { x with cplTail := x.cplTail + 1 }
    if irq then s.raise x.cplVector.toNat else s

/-- Writes a completion, or holds it while the host link is down (15 R364). -/
def State.complete_ (s : State) (m : Mbx) (w : CmdWord) (r : Reply) : State :=
  if s.host.link.isSome then s.putCompletion m (cplRecord w r) (cmdIrq w)
  else s.updMbx m fun x => { x with heldCpl := x.heldCpl ++ [(cplRecord w r, cmdIrq w)] }

/-! ### Starting commands (15 R371, R373, R376) -/

/-- Opcodes of 15 Table 15.9, and whether a context mailbox may issue them. -/
def opcodeContext (op : Nat) : Option Bool :=
  if [0x01, 0x20, 0x21, 0x30, 0x31, 0x32, 0x33, 0x34, 0x35, 0x36, 0x37, 0x38, 0x39, 0x3A, 0x3B, 0x3C, 0x3D, 0x3E].contains op then some true
  else if [0x02, 0x03, 0x10, 0x11, 0x12, 0x50, 0x51, 0x60, 0x61, 0x62, 0x63, 0x64, 0x65, 0x66, 0x67, 0x68, 0x70, 0x71].contains op then some false
  else none

/-- The mailbox may issue the command: kinds of a policy, and tally rings, are the administration mailbox's. -/
def cmdPermitted (m : Mbx) (w : CmdWord) : Bool :=
  m.val = 0 ||
    (cmdCtx w = 0 && (opcodeContext (cmdOp w)).getD false &&
      !((cmdOp w = 0x3B || cmdOp w = 0x3C) && 4 ≤ cmdArg w 0 && cmdArg w 0 ≤ 8) && !(cmdOp w = 0x3E && cmdArg w 0 = 3))

/-- The context a command acts on. -/
def cmdTarget (m : Mbx) (w : CmdWord) : Ctx := if m.val = 0 then ctxOf (cmdCtx w) else ctxOf (m.val + 7)

/-- A command that no row carries out: its selecting argument has no meaning. -/
def cmdUnkind (w : CmdWord) : Option Nat :=
  if cmdOp w = 0x3B && !(1 ≤ cmdArg w 0 && cmdArg w 0 ≤ 8) then some 0
  else if cmdOp w = 0x50 && 2 < cmdArg w 1 then some 1
  else none

/-- A context mailbox has no context left: it does not exist, or its CTX_DESTROY has started (15 R373). -/
def State.contextGone (s : State) (m : Mbx) : Bool :=
  decide (0 < m.val) && ((s.ctx (ctxOf (m.val + 7))).isNone ||
    (match (s.mbx 0).started with
      | some w => cmdOp w = 0x11 && cmdTarget 0 w = ctxOf (m.val + 7)
      | none => false))

/-- What a command meets before it runs. -/
def State.atStart (s : State) (m : Mbx) (w : CmdWord) : Option Reply :=
  if (opcodeContext (cmdOp w)).isNone then some (.no .invalidOpcode)
  else if !cmdPermitted m w then some (.no .notPermitted)
  else if !cmdReserved w then some (.no .reservedBit)
  else if s.bootSt.deviceFault && !([0x01, 0x02, 0x03, 0x60, 0x61, 0x62, 0x63].contains (cmdOp w)) then some (.no .deviceFault)
  else if s.contextGone m then some (.no .noContext)
  else (cmdUnkind w).map Reply.badArg

/-- Suphor runs: READY, and D0's controller not halted (15 R369, 16 R404). -/
def State.suphorRuns (s : State) : Bool := s.ready && !(s.die 0).tapSide.haltedController

/-- Completions that a mailbox holds at most while the host link is down (15 R364). -/
def heldLimit : Nat := 64

/-- A command may start: the completion ring has a free slot, and so has what is held while the link is down; in a drain only GET_STATUS (15 R373, 17 R410). -/
def State.mayStart (s : State) (m : Mbx) (w : CmdWord) : Bool :=
  let x := s.mbx m
  s.suphorRuns && x.cplEnable && decide ((x.cplTail - x.cplHead).toNat + x.heldCpl.length < ringSlots x.cplSize) &&
    decide (x.heldCpl.length < heldLimit) && (s.power.state ≠ .drain || cmdOp w = 0x02)

/-- When CTX_DESTROY starts, what is queued on the context's mailbox will be aborted (15 R373). -/
def State.markAborts (s : State) (m : Mbx) (w : CmdWord) : State :=
  if cmdOp w = 0x11 && (s.ctx (cmdTarget m w)).isSome then
    s.updMbx (mbxOf ((cmdTarget m w).val + 1)) fun x => { x with aborts := x.fetched.length + (x.cmdTail - x.cmdHead).toNat }
  else s

/-- Starts what can start, up to n commands. -/
def State.startNext (m : Mbx) : Nat → State → State
  | 0, s => s
  | n + 1, s =>
    let x := s.mbx m
    match x.started, x.fetched with
    | none, w :: rest =>
      if !s.mayStart m w then s
      else
        let s := s.updMbx m fun x => { x with fetched := rest, aborts := x.aborts - 1 }
        if 0 < x.aborts then (s.complete_ m w (.no .aborted)).startNext m n
        else
          match s.atStart m w with
          | some r => (s.complete_ m w r).startNext m n
          | none => (s.updMbx m fun x => { x with started := some w }).markAborts m w
    | _, _ => s

def State.startMore (s : State) (m : Mbx) : State := s.startNext m ((s.mbx m).fetched.length + 1)

/-- The running command completes, and the next starts. -/
def State.finishCommand (s : State) (m : Mbx) (w : CmdWord) (r : Reply) : State :=
  ((s.updMbx m fun x => { x with started := none }).complete_ m w r).startMore m

/-- A command row: mailbox m runs the command that it has started, when that is this row's. -/
def suphor (m : Mbx) (op : Nat) (also : CmdWord → Bool) (body : CmdWord → State → Reply × State) (s : State) : Out :=
  match (s.mbx m).started with
  | none => .next s
  | some w =>
    if cmdOp w = op && also w && s.suphorRuns then
      let (r, s) := body w s
      .next (s.finishCommand m w r)
    else .next s

/-- The data buffer is the size that the command states, at most 16 MiB, and aligned (15 Table 15.7). -/
def cmdBuffer (w : CmdWord) (n : Nat) : Bool := cmdLen w = n && n ≤ 16777216 && cmdAddr w % 64 = 0

/-- A command that reads its data buffer. -/
def dataIn (w : CmdWord) (n : Nat) (data : Option Bytes) (s : State) (k : Bytes → Reply × State) : Reply × State :=
  if !cmdBuffer w n then (.badArg 4, s)
  else match data with
    | none => (.no .dataFault, s)
    | some bs => k (padTo n bs)

/-- A command that writes its data buffer. -/
def dataOut (w : CmdWord) (ok : Bool) (bs : Bytes) (r : Reply) (s : State) : Reply × State :=
  if !cmdBuffer w bs.length then (.badArg 4, s)
  else if !ok then (.no .dataFault, s)
  else (r, s.write (.host (cmdAddr w)) bs false)

/-- A command on a context. -/
def withCtx (m : Mbx) (w : CmdWord) (s : State) (k : Ctx → CtxSt → Reply × State) : Reply × State :=
  let c := cmdTarget m w
  match s.ctx c with
  | none => (.no .noContext, s)
  | some x => k c x

/-! ### What the host writes (15 Table 15.5, R369, R372) -/

/-- CMD_DOORBELL: CMD_TAIL is written. -/
def execCmdDoorbell (m : Mbx) (tail : BitVec 32) (s : State) : Out :=
  if !s.ready then .next s
  else if ringSlots (s.mbx m).cmdSize < (tail - (s.mbx m).cmdHead).toNat then .next (s.updMbx m fun x => { x with tailErr := true })
  else .next (s.updMbx m fun x => { x with cmdTail := tail })

/-- COMMAND_FETCH: the next record is fetched, or its fetch fails; what can start starts. -/
def execCommandFetch (m : Mbx) (record : Option (BitVec 512)) (s : State) : Out :=
  let x := s.mbx m
  if !s.suphorRuns || !x.cmdEnable || x.fetchErr || x.cmdHead = x.cmdTail || s.host.link.isNone then .next s
  else match record with
    | none => .next (s.updMbx m fun x => { x with fetchErr := true })
    | some w => .next ((s.updMbx m fun x => { x with cmdHead := x.cmdHead + 1, fetched := x.fetched ++ [w] }).startMore m)

/-- A SIZE field takes 4 to 12; another value, and any while the ring is enabled, is ignored (log 49). -/
def newSize (old : BitVec 4) (enabled : Bool) (v : BitVec 64) : BitVec 4 :=
  if enabled || fld v 3 0 < 4 || 12 < fld v 3 0 then old else BitVec.ofNat 4 (fld v 3 0)

/-- RING_ENABLE_WRITE: the control word of a ring, at 0x010, 0x030 or 0x050. Counts return to 0 as ENABLE rises. -/
def execRingEnableWrite (m : Mbx) (ring : RingSel) (v : BitVec 64) (s : State) : Out :=
  let x := s.mbx m
  let s := match ring with
    | .cmd => s.updMbx m fun y => { y with
        cmdSize := newSize x.cmdSize x.cmdEnable v, cmdEnable := bit v 8
        cmdTail := if bit v 8 && !x.cmdEnable then 0 else x.cmdTail, cmdHead := if bit v 8 && !x.cmdEnable then 0 else x.cmdHead
        fetched := if bit v 8 && !x.cmdEnable then [] else x.fetched, aborts := if bit v 8 && !x.cmdEnable then 0 else x.aborts }
    | .cpl => s.updMbx m fun y => { y with
        cplSize := newSize x.cplSize x.cplEnable v, cplEnable := bit v 8, cplVector := BitVec.ofNat 6 (fld v 21 16)
        cplHead := if bit v 8 && !x.cplEnable then 0 else x.cplHead, cplTail := if bit v 8 && !x.cplEnable then 0 else x.cplTail }
    | .evt => s.updMbx m fun y => { y with
        evtSize := newSize x.evtSize x.evtEnable v, evtEnable := bit v 8, evtIrqEn := bit v 9, evtVector := BitVec.ofNat 6 (fld v 21 16)
        evtHead := if bit v 8 && !x.evtEnable then 0 else x.evtHead, evtTail := if bit v 8 && !x.evtEnable then 0 else x.evtTail }
  .next (s.startMore m)

/-- CPL_HEAD_WRITE: slots are freed and waiting commands start. -/
def execCplHeadWrite (m : Mbx) (v : BitVec 32) (s : State) : Out := .next ((s.updMbx m fun x => { x with cplHead := v }).startMore m)

/-- EVT_HEAD_WRITE. -/
def execEvtHeadWrite (m : Mbx) (v : BitVec 32) (s : State) : Out := .next (s.updMbx m fun x => { x with evtHead := v })

/-- MAILBOX_ERR_CLEAR: a write to 0x068, whose bits 0 to 2 clear by writing 1. -/
def execMailboxErrClear (m : Mbx) (v : BitVec 64) (s : State) : Out :=
  .next (s.updMbx m fun x => { x with
    fetchErr := x.fetchErr && !bit v 0, tailErr := x.tailErr && !bit v 1, linkRecovered := x.linkRecovered && !bit v 2 })

/-- REGISTER_WRITE: a 64-bit write to a register without behaviour of its own: a ring's BASE, a word of the MSI-X table, a CXL
component register. Reserved and read-only fields ignore what is written (00 R10). -/
def execRegisterWrite (bar offset : Nat) (v : BitVec 64) (s : State) : Out :=
  let page : BitVec 64 := BitVec.ofNat 64 (v.toNat / 4096 * 4096)
  if bar = 0 && offset < 0x9000 then
    let m := mbxOf (offset / 4096)
    match offset % 4096 with
    | 0x008 => .next (s.updMbx m fun x => if x.cmdEnable then x else { x with cmdBase := page })
    | 0x028 => .next (s.updMbx m fun x => if x.cplEnable then x else { x with cplBase := page })
    | 0x048 => .next (s.updMbx m fun x => if x.evtEnable then x else { x with evtBase := page })
    | _ => .next s
  else if bar = 2 && offset < 0x400 then .next { s with host := { s.host with msix := SMap.put 0 s.host.msix (offset / 8) v } }
  else if bar = 3 && offset < 0x10000 then .next { s with host := { s.host with component := SMap.put 0 s.host.component (offset / 8) v } }
  else .next s

/-! ### The host link (15 R363, R364; 16 R385) -/

/-- Requests to the host-memory window that have no answer yet: die, context, position among the stream's instructions. -/
def State.hostWaits (s : State) : List (Die × Ctx × Nat) :=
  (List.finRange 20).flatMap fun d => (List.finRange 8).flatMap fun c =>
    match s.stream d c with
    | some t => (t.inflight.zipIdx.filter fun e => (s.die d).moves.any fun m => m.ctx = c.val && m.num = e.1.num && m.asked).reverse.map fun e => (d, c, e.2)
    | none => []

/-- The host link is lost: requests in the window complete as poison (15 R364). -/
def State.dropHostLink (s : State) : State :=
  let s : State := { s with host := { s.host with link := none } }
  s.hostWaits.foldl (fun st e => st.hostAnswer e.1 e.2.1 e.2.2 .refused) s

/-- Held completions and events are written in order, and LINK_RECOVERED is set. -/
def State.raiseHostLink (s : State) (w : HostWidth) : State :=
  let s : State := { s with host := { s.host with link := some w }, power := { s.power with hostRefclk := true } }
  (List.finRange 9).foldl (fun st (m : Mbx) =>
    let x := st.mbx m
    let st := st.updMbx m fun x => { x with heldCpl := [], heldEvt := [], linkRecovered := true }
    let st := x.heldCpl.foldl (fun t e => t.putCompletion m e.1 e.2) st
    let st := x.heldEvt.foldl (fun t r => t.postEvent m r) st
    st.startMore m) s

/-- HOST_LINK_DOWN. -/
def execHostLinkDown (s : State) : Out := if s.host.link.isSome then .next s.dropHostLink else .next s

/-- The host port answers: rails up, D0 in reset no longer. A link that comes up shows that HOST_REFCLK is there (log 55). -/
def State.hostPortUp (s : State) : Bool := s.up

/-- HOST_LINK_UP: the link returns at a width. -/
def execHostLinkUp (width : HostWidth) (s : State) : Out :=
  if s.host.link.isNone && s.hostPortUp then .next (s.raiseHostLink width) else .next s

/-- HOST_LINK_RETRAIN: neither width had trained; the retraining of each second succeeds, or its failure is reported. -/
def execHostLinkRetrain (result : Option HostWidth) (s : State) : Out :=
  if s.host.link.isSome || !s.hostPortUp then .next s
  else match result with
    | some w => .next (s.raiseHostLink w)
    | none => .next (s.logDevice 0x07 1 none true (eventBody 0 5 12 0xFF 0 0 0 0))

/-- HOST_PORT_RESET: hot reset, PERST_N or function-level reset: the host-port logic and the mailbox registers return to
their reset values; a command that runs goes on (16 R385; log 50). -/
def execHostPortReset (s : State) : Out :=
  let s := s.dropHostLink
  .next { s with
    host := { s.host with msix := [], raised := [], component := [], poisonReads := 0, discards := 0 }
    mailboxes := Vector.ofFn fun m => { MbxSt.reset m.val with started := s.mailboxes[m].started } }

end Sys2Proof.Machine
end

