-- ==== Sys2Proof/Machine/Suphor.lean ====
section
/-! DEFINITION. Suphor commands on the device, contexts, memory, tables, launches and groups: opcodes 0x01 to 0x3A (15 Tables
15.9, 15.11, 15.14, R376 to R382). -/
namespace Sys2Proof.Machine

/-! ### The device -/

/-- GET_GEOMETRY: the geometry table as one snapshot. -/
def execGetGeometry (m : Mbx) (ok : Bool) (s : State) : Out :=
  suphor m 0x01 (fun _ => true) (fun w s => dataOut w ok s.geometryTable (.results s.tableGen.toNat 0) s) s

def getStatusReply (ok : Bool) (w : CmdWord) (s : State) : Reply × State :=
  if 20 ≤ cmdArg w 0 then (.badArg 0, s)
  else if 3 < cmdArg w 1 then (.badArg 1, s)
  else if cmdArg w 2 % 8 ≠ 0 || 65536 ≤ cmdArg w 2 then (.badArg 2, s)
  else if cmdArg w 3 < 8 || 4096 < cmdArg w 3 then (.badArg 3, s)
  else dataOut w ok (segRead (s.block (dieOf (cmdArg w 0)) (cmdArg w 1)) (cmdArg w 2) (cmdArg w 3)) .done s

/-- GET_STATUS: registers of a die. -/
def execGetStatus (m : Mbx) (ok : Bool) (s : State) : Out := suphor m 0x02 (fun _ => true) (getStatusReply ok) s

/-- RESET: the completion is written, then the device resets. -/
def execReset (m : Mbx) (s : State) : Out :=
  match (s.mbx m).started with
  | none => .next s
  | some w =>
    if cmdOp w ≠ 0x03 || !s.suphorRuns then .next s
    else if cmdArg w 0 ≠ 0 then .next (s.finishCommand m w (.badArg 0))
    else .next ((s.finishCommand m w .done).deviceReset 2)

/-! ### Pages, scratchpad and ranges (15 R377, R378) -/

/-- Contexts that exist. -/
def State.liveCtxs (s : State) : List CtxSt := s.ctxs.toList.filterMap id

/-- Runs of local pages of a die that a context holds: its save area and its ranges. -/
def CtxSt.pageRuns (x : CtxSt) (d : Nat) : List (Nat × Nat) :=
  (x.saveBases.getD d 0, 208) :: (x.ranges.filterMap fun r =>
    if r.kind = 0 && r.die = d then some (r.base / 65536, r.len / 65536)
    else if r.kind = 1 then some (r.base / 1310720, r.len / 1310720) else none)

/-- Runs of a die's pages that no allocation may take: those of every context, and retired pages. -/
def State.takenPages (s : State) (d : Nat) : List (Nat × Nat) :=
  (s.liveCtxs.flatMap fun x => x.pageRuns d) ++ (s.die (dieOf d)).retired.map fun g => (g, 1)

/-- Runs of a die's scratchpad, in 4 KiB units. -/
def State.takenUnits (s : State) (d : Nat) : List (Nat × Nat) :=
  s.liveCtxs.flatMap fun x => x.ranges.filterMap fun r =>
    if r.kind = 2 && r.die = d then some (r.base / 4096, r.len / 4096) else none

/-- Pages of a stack, and 4 KiB units of the 60 MiB of scratchpad that contexts share (11 R274). -/
def pagesPerStack : Nat := 1048576
def scratchUnits : Nat := 15360

/-- Pages of a die that count against a context's quota. -/
def CtxSt.pagesOn (x : CtxSt) (d : Nat) : Nat := ((x.pageRuns d).map (·.2)).foldl (· + ·) 0

def CtxSt.scratchOn (x : CtxSt) (d : Nat) : Nat :=
  ((x.ranges.filter fun r => r.kind = 2 && r.die = d).map (·.len)).foldl (· + ·) 0

/-- Dies whose stack is in service. -/
def State.liveDies (s : State) : List Nat := (List.range 20).filter fun d => s.dieMask.getLsbD d

/-! ### Creating and destroying contexts -/

def creStall (w : BitVec 512) : BitVec 20 := BitVec.ofNat 20 (fld w 19 0)
def creSlots (w : BitVec 512) : Nat := fld w 24 20
def creSems (w : BitVec 512) : Nat := fld w 40 32
def creProg (w : BitVec 512) : Nat := fld w 61 48
def crePages (w : BitVec 512) : Nat := fld w 95 64
def creScratch (w : BitVec 512) : Nat := fld w 127 96
def creMask (w : BitVec 512) : BitVec 20 := BitVec.ofNat 20 (fld w 211 192)
/-- COMMIT_MODE, IN_PLACE_ACTION, SKIP_LIMIT of the commit policy record (06 Table 6.5). -/
def creMode (w : BitVec 512) : Bool := bit w 128
def creAction (w : BitVec 512) : Bool := bit w 129
def creSkip (w : BitVec 512) : Nat := fld w 159 144

def creReserved (w : BitVec 512) : Bool :=
  fld w 31 25 = 0 && fld w 47 41 = 0 && fld w 63 62 = 0 && fld w 143 130 = 0 && fld w 191 160 = 0 && fld w 511 212 = 0

/-- Sum of FLOOR over the enabled stalls but for context c's (08 R186). -/
def State.floors (s : State) (c : Ctx) : Nat :=
  ((List.finRange 8).map fun k => if k = c then 0 else match s.ctx k with | some x => fld x.stall 7 0 | none => 0).foldl (· + ·) 0

/-- 08 R186, as the code of 15 Table 15.14; 0: the stall is accepted. -/
def State.stallPolicy (s : State) (c : Ctx) (v : BitVec 20) : Nat :=
  if 232 < s.floors c + fld v 7 0 then 1 else if fld v 15 8 ≠ 0 && fld v 15 8 < fld v 7 0 then 2 else 0

/-- A context as its creation record makes it. -/
def CtxSt.fresh (w : BitVec 512) (sem prog : Nat) (save : List Nat) : CtxSt :=
  { stall := creStall w, clSlots := creSlots w, semBase := sem, semCount := creSems w, progBase := prog, progCount := creProg w
    hbmPages := crePages w, scratchKib := creScratch w, commitMode := creMode w, inPlaceAction := creAction w
    skipLimit := creSkip w, dieMask := creMask w, saveBases := save
    ranges := [], descs := [], progLen := [], slots := [], slotWrites := [], entries := []
    streams := Vector.replicate 20 Stream.reset, launchMask := 0, stepGroup := 0, startStep := 0, lastStep := none
    stopped := none, jobClass := 0
    verdict := 0, mkSent := none, mkStats := [], mkBad := false, mkQuiet := none, mkTail := none, mkStop := false, commitCount := 0, skipRun := 0
    roundVerdicts := [], roundSent := none, inPlaceStopped := false
    policy := none, policyNext := none, ctl := [], chunks := [], reduced := [], reducedCtl := [], reducedStep := 0
    retirementMap := [], reducedMap := [], halt := false
    resilience := none, resilienceNext := none, genLast := 0, commitLast := 0, generations := [], restorable := 0
    afterResume := false, restores := 0, resumeGen := 0, restart := 0, buddyChecked := false
    samplePeriod := 0, stepRing := none, sampleRing := none, quietUntil := none, freeBroken := false }

/-- A run common to every die, of semaphores or of instruction memory. -/
def State.commonRun (s : State) (total n : Nat) (of_ : CtxSt → Nat × Nat) : Option Nat := firstFit total n (s.liveCtxs.map of_)

/-- Save areas on every die in service; none when some die has no room. -/
def State.saveAreas (s : State) : Option (List Nat) :=
  (List.range 20).foldr (fun d acc => acc.bind fun l =>
    if !s.dieMask.getLsbD d then some (0 :: l) else (firstFit pagesPerStack 208 (s.takenPages d)).map fun p => p :: l) (some [])

/-- Quotas and slots of all contexts with the new one (15 R377, 11 R273). -/
def State.quotasFit (s : State) (w : BitVec 512) : Bool :=
  let l := s.liveCtxs
  let sum := fun (f : CtxSt → Nat) => (l.map f).foldl (· + ·) 0
  208 ≤ crePages w && sum (·.clSlots) + creSlots w ≤ 16 && sum (·.scratchKib) + creScratch w ≤ 61440 &&
    s.liveDies.all fun d => sum (·.hbmPages) + crePages w ≤ (s.die (dieOf d)).stackPages.toNat

def ctxCreateReply (m : Mbx) (data : Option Bytes) (w : CmdWord) (s : State) : Reply × State :=
  let c := cmdTarget m w
  dataIn w 64 data s fun bs =>
    let r := wordOf 512 bs
    if !creReserved r then (.no .reservedBit, s)
    else if (s.ctx c).isSome then (.no .inUse, s)
    else if creSlots r = 0 || 16 < creSlots r || creSems r = 0 || 256 < creSems r || creProg r = 0 || 8192 < creProg r ||
        creScratch r < 4 || 61440 < creScratch r || creScratch r % 4 ≠ 0 then (.badArg 4, s)
    else if s.stallPolicy c (creStall r) ≠ 0 then (.policyNo (s.stallPolicy c (creStall r)), s)
    else if creAction r && !creMode r then (.policyNo 3, s)
    else
      match s.commonRun 256 (creSems r) (fun x => (x.semBase, x.semCount)),
          s.commonRun 8192 (creProg r) (fun x => (x.progBase, x.progCount)), s.saveAreas, s.quotasFit r with
      | some sem, some prog, some save, true =>
        let s := s.setCtx c (some (CtxSt.fresh r sem prog save))
        let s := s.updDies fun _ x => { x with stalls := x.stalls.set c (let k := x.stalls[c].configure (creStall r); { k with enable := true }) }
        (.results (sem + 65536 * prog) 0, s)
      | _, _, _, _ => (.no .noResource, s)

/-- CTX_CREATE. -/
def execCtxCreate (m : Mbx) (data : Option Bytes) (s : State) : Out := suphor m 0x10 (fun _ => true) (ctxCreateReply m data) s

/-- Everything of a context goes: its groups, its accumulations, its program, its stall, the context itself. -/
def State.freeCtx (s : State) (c : Ctx) (x : CtxSt) : State :=
  let mine := (s.fabric.groups.filter fun e => fld e.2 10 8 = c.val).map (·.1)
  let s := s.updDies fun d y => { y with
    accs := y.accs.filter (·.ctx ≠ c.val), stats := SMap.eraseRange y.stats (c.val * 512) (c.val * 512 + 512)
    ops := y.ops.filter (·.ctx ≠ c.val), parked := y.parked.filter (·.ctx ≠ c.val)
    groupSeq := y.groupSeq.filter fun e => !mine.contains e.1
    stalls := y.stalls.set c (let k := y.stalls[c].configure 0x10000; { k with enable := false }) }
  let s : State := { s with
    fabric := { s.fabric with groups := s.fabric.groups.filter (fun e => !mine.contains e.1)
                              multicast := s.fabric.multicast.filter (fun e => !mine.contains e.1) }
    program := (List.range 20).foldl (fun p d => SMap.eraseRange p (d * 8192 + x.progBase) (d * 8192 + x.progBase + x.progCount)) s.program }
  ((List.finRange 20).foldl (fun st d => st.dropMoves d c) s).setCtx c none

/-- CTX_DESTROY: it waits for the command that runs on the context's mailbox (15 R373). -/
def execCtxDestroy (m : Mbx) (s : State) : Out :=
  match (s.mbx m).started with
  | none => .next s
  | some w =>
    let c := cmdTarget m w
    if cmdOp w ≠ 0x11 || !s.suphorRuns || (s.mbx (mbxOf (c.val + 1))).started.isSome then .next s
    else
      match s.ctx c with
      | none => .next (s.finishCommand m w (.no .noContext))
      | some x =>
        let s := if x.running then s.faultStop c .halted else s
        .next ((s.freeCtx c x).finishCommand m w .done)

def stallSetReply (m : Mbx) (w : CmdWord) (s : State) : Reply × State :=
  withCtx m w s fun c _ =>
    let v := BitVec.ofNat 20 (cmdArg w 0)
    if 2 ^ 20 ≤ cmdArg w 0 then (.badArg 0, s)
    else if s.stallPolicy c v ≠ 0 then (.policyNo (s.stallPolicy c v), s)
    else (.done, (s.updCtx c fun x => { x with stall := v }).updDies fun _ x =>
      { x with stalls := x.stalls.set c (let k := x.stalls[c]; { k with next := some v }) })

/-- STALL_SET: applies from the next window on every controller. -/
def execStallSet (m : Mbx) (s : State) : Out := suphor m 0x12 (fun _ => true) (stallSetReply m) s

/-! ### Memory -/

/-- Zero codewords over a local run of a die's stack. -/
def State.zeroStack (s : State) (d lo n : Nat) : State :=
  { s with stack := SMap.eraseRange s.stack (stKey d lo) (stKey d (lo + n))
           stackPoison := SMap.eraseRange s.stackPoison (cwKey d lo) (d * 2 ^ 30 + (lo + n) / 64) }

/-- Zero words over a run of a die's scratchpad. -/
def State.zeroScratch (s : State) (d lo n : Nat) : State :=
  { s with scratch := SMap.eraseRange s.scratch (spKey d lo) (spKey d (lo + n))
           scratchPoison := SMap.eraseRange s.scratchPoison (spWordKey d lo) (d * 2 ^ 21 + (lo + n) / 32)
           tags := SMap.eraseRange s.tags (spWordKey d lo) (d * 2 ^ 21 + (lo + n) / 32) }

/-- Bytes of one allocation unit of a kind. -/
def allocUnit (kind : Nat) : Nat := if kind = 0 then 65536 else if kind = 1 then 1310720 else 4096

/-- Dies whose stack a range of a kind uses. -/
def allocDies (kind die : Nat) : List Nat := if kind = 1 then List.range 20 else [die]

/-- Lowest free run of n units for a kind; none: no room, or the quota is exceeded. -/
def State.allocAt (s : State) (x : CtxSt) (kind die n : Nat) : Option Nat :=
  if kind = 2 then
    if x.scratchKib * 1024 < x.scratchOn die + n * 4096 then none else firstFit scratchUnits n (s.takenUnits die)
  else
    let dies := allocDies kind die
    if dies.any fun d => !s.dieMask.getLsbD d || x.hbmPages < x.pagesOn d + n then none
    else firstFit pagesPerStack n (dies.flatMap s.takenPages)

/-- Lowest range index that is free. -/
def CtxSt.freeIndex (x : CtxSt) : Option Nat := (List.range 16).find? fun i => x.ranges.all fun r => r.index ≠ i

def memAllocReply (m : Mbx) (w : CmdWord) (s : State) : Reply × State :=
  withCtx m w s fun c x =>
    let kind := cmdArg w 0
    let die := if kind = 1 then 0 else cmdArg w 1
    let n := cmdArg w 2
    if 2 < kind then (.badArg 0, s)
    else if 20 ≤ die then (.badArg 1, s)
    else if n = 0 || n % allocUnit kind ≠ 0 then (.badArg 2, s)
    else
      match x.freeIndex, s.allocAt x kind die (n / allocUnit kind) with
      | some i, some u =>
        let base := u * allocUnit kind
        let s := s.updCtx c fun x => { x with ranges := x.ranges ++ [{ index := i, kind := kind, die := die, base := base, len := n }] }
        match kind with
        | 0 => (.results ((die + 1) * 2 ^ 36 + base) i, s.zeroStack die base n)
        | 1 => (.results (0x100000000000 + base) i, (List.range 20).foldl (fun st d => st.zeroStack d (base / 20) (n / 20)) s)
        | _ => (.results base i, s.zeroScratch die base n)
      | _, _ => (.no .noResource, s)

/-- MEM_ALLOC: one range, zeroed. -/
def execMemAlloc (m : Mbx) (s : State) : Out := suphor m 0x20 (fun _ => true) (memAllocReply m) s

/-- Local runs of a range on a die: of its stack, or (kind 2) of its scratchpad. -/
def Range.local_ (r : Range) (d : Nat) : Option (Nat × Nat) :=
  if r.kind = 1 then some (r.base / 20, r.len / 20) else if r.die = d then some (r.base, r.len) else none

def overlaps (a b : Nat × Nat) : Bool := a.1 < b.1 + b.2 && b.1 < a.1 + a.2

/-- [a, e) lies in the union of the runs. -/
def covered (ivs : List (Nat × Nat)) : Nat → Nat → Nat → Bool
  | 0, a, e => e ≤ a
  | n + 1, a, e =>
    if e ≤ a then true
    else match ivs.find? fun i => i.1 ≤ a && a < i.1 + i.2 with
      | some i => covered ivs n (i.1 + i.2) e
      | none => false

/-- A local run of a die's stack, or scratchpad, lies in the context's ranges. -/
def CtxSt.coversLocal (x : CtxSt) (scratch : Bool) (d lo n : Nat) : Bool :=
  covered ((x.ranges.filter fun r => (r.kind = 2) = scratch).filterMap fun r => r.local_ d) 17 lo (lo + n)

/-- A run of device addresses lies in the context's ranges, as die d sees them. -/
def CtxSt.coversAddr (x : CtxSt) (d a n : Nat) : Bool :=
  if a < 0x015000000000 then
    let (e, lo) := if a < 2 ^ 36 then (d, a) else (a / 2 ^ 36 - 1, a % 2 ^ 36)
    lo + n ≤ 2 ^ 36 && x.coversLocal false e lo n
  else
    let off := a - 0x100000000000
    0x100000000000 ≤ a && a + n ≤ 0x114000000000 &&
      (covered ((x.ranges.filter (·.kind = 1)).map fun r => (r.base, r.len)) 17 off (off + n) ||
        (List.range 20).all fun e => x.coversLocal false e (off / 40960 * 2048) (ceilDiv (off + n) 40960 * 2048 - off / 40960 * 2048))

/-- The fall-back record that counts as set: while streams run the one in force, else the one that a launch will use. -/
def CtxSt.policySet (x : CtxSt) : Option Bytes := if x.running then x.policy <|> x.policyNext else x.policyNext <|> x.policy

def CtxSt.resilienceSet (x : CtxSt) : Option (BitVec 256) :=
  if x.running then x.resilience <|> x.resilienceNext else x.resilienceNext <|> x.resilience

def resBuddy (r : BitVec 256) : Nat := fld r 13 0
def resBase (r : BitVec 256) : Nat := fld r 111 64
def resPages (r : BitVec 256) : Nat := fld r 159 128

/-- Dies of the context's DIE_MASK. -/
def CtxSt.dieList (x : CtxSt) : List Nat := onesOf x.dieMask

/-- Local runs that registered state holds on a die: reserves and checkpoint areas, of the stack or the scratchpad. -/
def CtxSt.heldRuns (x : CtxSt) (scratch : Bool) : List (Nat × Nat) :=
  let pols := x.policy.toList ++ x.policyNext.toList
  let ress := x.resilience.toList ++ x.resilienceNext.toList
  if scratch then pols.map fun p => (polSpBase p, polSpUnits p * 4096)
  else pols.map (fun p => (polHbmBase p, polHbmPages p * 65536)) ++ ress.map fun r => (resBase r, 4 * resPages r * 65536)

/-- Addresses of a run of n bytes that lie in a range, looked at as die d sees them. -/
def Range.meets (r : Range) (d a n : Nat) : Bool :=
  if a < 0x015000000000 then
    let (e, lo) := if a < 2 ^ 36 then (d, a) else (a / 2 ^ 36 - 1, a % 2 ^ 36)
    r.kind ≠ 2 && (match r.local_ e with | some i => overlaps i (lo, n) | none => false)
  else
    let off := a - 0x100000000000
    if r.kind = 1 then overlaps (r.base, r.len) (off, n)
    else r.kind = 0 && overlaps (r.base, r.len) (off / 40960 * 2048, ceilDiv (off + n) 40960 * 2048 - off / 40960 * 2048)

/-- Reserve, checkpoint area or sample ring lie in the range (15 R378). -/
def CtxSt.dependsOn (x : CtxSt) (r : Range) : Bool :=
  (x.dieList.any fun d => match r.local_ d with
    | some i => (x.heldRuns (r.kind = 2)).any fun h => 0 < h.2 && overlaps i h
    | none => false) ||
  (match x.sampleRing with
    | some g => x.dieList.any fun d => r.meets d g.address (64 + 64 * 2 ^ g.sizeLog)
    | none => false)

def memFreeReply (m : Mbx) (w : CmdWord) (s : State) : Reply × State :=
  withCtx m w s fun c x =>
    match x.ranges.find? fun r => r.index = cmdArg w 0 with
    | none => (.badArg 0, s)
    | some r =>
      if x.running then (.no .busy, s)
      else if x.dependsOn r then (.no .inUse, s)
      else (.done, s.updCtx c fun x => { x with ranges := x.ranges.filter fun q => q.index ≠ r.index })

/-- MEM_FREE. -/
def execMemFree (m : Mbx) (s : State) : Out := suphor m 0x21 (fun _ => true) (memFreeReply m) s

/-! ### Descriptors and programs -/

/-- ARG0 and ARG1 of DESC_WRITE and DESC_READ. -/
def descArgs (w : CmdWord) : Option Nat := if 4096 < cmdArg w 0 then some 0 else if 4096 < cmdArg w 0 + cmdArg w 1 then some 1 else none

def descWriteReply (m : Mbx) (data : Option Bytes) (w : CmdWord) (s : State) : Reply × State :=
  withCtx m w s fun c _ =>
    match descArgs w with
    | some i => (.badArg i, s)
    | none => dataIn w (64 * cmdArg w 1) data s fun bs =>
      (.done, s.updCtx c fun x => { x with
        descs := (List.range (cmdArg w 1)).foldl (fun t i => SMap.put 0 t (cmdArg w 0 + i) (wordOf 512 (slice bs (64 * i) 64))) x.descs })

/-- DESC_WRITE: later instructions take the new descriptors (09 R202). -/
def execDescWrite (m : Mbx) (data : Option Bytes) (s : State) : Out := suphor m 0x30 (fun _ => true) (descWriteReply m data) s

def descReadReply (m : Mbx) (ok : Bool) (w : CmdWord) (s : State) : Reply × State :=
  withCtx m w s fun _ x =>
    match descArgs w with
    | some i => (.badArg i, s)
    | none => dataOut w ok ((List.range (cmdArg w 1)).flatMap fun i => leBytes 64 (SMap.get 0 x.descs (cmdArg w 0 + i)).toNat) .done s

/-- DESC_READ. -/
def execDescRead (m : Mbx) (ok : Bool) (s : State) : Out := suphor m 0x31 (fun _ => true) (descReadReply m ok) s

/-- Writes n instructions at offset `off` of the context's range on one die. -/
def State.loadProgram (s : State) (c : Ctx) (x : CtxSt) (d off : Nat) (words : List (BitVec 256)) : State :=
  let s : State := { s with
    program := (words.zipIdx).foldl (fun p e => SMap.put 0 p (d * 8192 + x.progBase + off + e.2) e.1) s.program }
  s.updCtx c fun x => { x with progLen := SMap.put 0 x.progLen d (max (SMap.get 0 x.progLen d) (off + words.length)) }

def progLoadReply (m : Mbx) (data : Option Bytes) (w : CmdWord) (s : State) : Reply × State :=
  withCtx m w s fun c x =>
    let mask := cmdArg w 0
    if 2 ^ 20 ≤ mask then (.badArg 0, s)
    else if x.running then (.no .busy, s)
    else if x.progCount < cmdArg w 1 + cmdArg w 2 then (.no .noResource, s)
    else dataIn w (32 * cmdArg w 2) data s fun bs =>
      let words := (List.range (cmdArg w 2)).map fun i => wordOf 256 (slice bs (32 * i) 32)
      (.done, (onesOf (BitVec.ofNat 20 mask)).foldl (fun st d => st.loadProgram c x d (cmdArg w 1) words) s)

/-- PROG_LOAD. -/
def execProgLoad (m : Mbx) (data : Option Bytes) (s : State) : Out := suphor m 0x32 (fun _ => true) (progLoadReply m data) s

/-! ### Launching and stopping (15 R381; 01 R19; 07 R174) -/

/-- The first condition of 15 Table 15.14 that a LAUNCH breaks; 0: none. -/
def State.launchPolicy (s : State) (c : Ctx) (x : CtxSt) (mask : BitVec 20) (entry handle : Nat) : Nat :=
  if mask &&& ~~~x.dieMask ≠ 0 then 1
  else if (onesOf mask).any fun d => x.loaded (dieOf d) ≤ entry then 2
  else match s.group handle with
    | none => 3
    | some g => if fld g 10 8 ≠ c.val then 3 else if !bit g 11 then 4 else 0

/-- The fall-back state of a launch: INIT_FORM of every enabled slot, its chunks, and the slots' forms; none when the
chunks do not fit. A context without a record keeps what it holds (07 R174, R175). -/
def CtxSt.launchFallback (x : CtxSt) : Option CtxSt :=
  match x.policyNext <|> x.policy with
  | none => some x
  | some p =>
    let y := x.install p
    (launchForms p y.reducedMap (y.chunks.filter fun k => !slotEnable (polSlot p k.slot))).map fun (ctl, chunks) =>
      let on := (List.range 256).filter fun k => slotEnable (polSlot p k)
      let calm := fun (k : Nat) => ctlWith { SMap.get ctlZero y.ctl k with silent := 0, reported := false } (ctlLevels (SMap.get ctlZero y.ctl k))
      { y with
        ctl := (List.range 256).foldl (fun t k => SMap.put ctlZero t k (if on.contains k then SMap.get ctlZero ctl k else calm k)) []
        chunks := chunks
        slots := on.foldl (fun t k => SMap.put 0 t k (slotWith (SMap.get 0 t k) (initLevels (slotInit (polSlot p k))) (slotFullEn (polSlot p k)))) y.slots }

/-- What a launch sets (a slot write that still waits for an MK goes on waiting, but not for a slot whose form the launch's
policy sets: log 123): the step and its group, semaphores and CF state, generation counts, and the streams. -/
def State.launchCtx (s : State) (c : Ctx) (x : CtxSt) (mask : BitVec 20) (entry step handle : Nat) : State :=
  let s : State := { s with
    sems := (List.range 20).foldl (fun t d => SMap.eraseRange t (d * 256 + x.semBase) (d * 256 + x.semBase + x.semCount)) s.sems }
  let s := s.setCtx c (some { x.freshStep with
    slotWrites := x.slotWrites.filter fun e => !slotEnable (polSlot x.policyNow e.1)
    launchMask := mask, stepGroup := handle, startStep := step, genLast := 0, commitLast := 0, generations := [], restorable := 0
    restores := 0, resumeGen := 0, afterResume := false, buddyChecked := false })
  let s := s.updDies fun _ y => { y with
    accs := y.accs.filter (·.ctx ≠ c.val), stats := SMap.eraseRange y.stats (c.val * 512) (c.val * 512 + 512) }
  s.startStreams c mask fun _ => entry

def launchReply (m : Mbx) (w : CmdWord) (s : State) : Reply × State :=
  withCtx m w s fun c x =>
    let mask := BitVec.ofNat 20 (cmdArg w 0)
    if x.running then (.no .busy, s)
    else if cmdArg w 0 = 0 || 2 ^ 20 ≤ cmdArg w 0 then (.badArg 0, s)
    else if s.launchPolicy c x mask (cmdArg w 1) (cmdArg w 3) ≠ 0 then (.policyNo (s.launchPolicy c x mask (cmdArg w 1) (cmdArg w 3)), s)
    else match x.launchFallback with
      | none => (.policyNo 5, s)
      | some y => (.done, s.launchCtx c y mask (cmdArg w 1) (cmdArg w 2) (cmdArg w 3))

/-- LAUNCH. -/
def execLaunch (m : Mbx) (s : State) : Out := suphor m 0x33 (fun _ => true) (launchReply m) s

/-- STEP of the last completed MK; before any, the one before the starting step. -/
def CtxSt.lastMk (x : CtxSt) : Nat := match x.lastStep with | some n => n | none => (x.startStep + 2 ^ 64 - 1) % 2 ^ 64

def stopReply (m : Mbx) (w : CmdWord) (s : State) : Reply × State :=
  withCtx m w s fun c x => if !x.running then (.no .notRunning, s) else (.results x.lastMk 0, s.faultStop c .halted)

/-- STOP: the streams stop and FAULT is contributed (06 R149). -/
def execStop (m : Mbx) (s : State) : Out := suphor m 0x34 (fun _ => true) (stopReply m) s

/-! ### Format slots -/

/-- Forms that the arrays accept, as ARG1 [4:0] (04 Table 4.1). -/
def slotFormOk (v : Nat) : Bool := [0x00, 0x01, 0x04, 0x05, 0x15, 0x0A, 0x1A].contains v

def slotWriteReply (m : Mbx) (w : CmdWord) (s : State) : Reply × State :=
  withCtx m w s fun c x =>
    let k := cmdArg w 0
    let v := cmdArg w 1
    if 255 < k then (.badArg 0, s)
    else if !slotFormOk v then (.badArg 1, s)
    else if (match x.policySet with | some p => slotEnable (polSlot p k) | none => false) then (.policyNo 1, s)
    else
      let old := SMap.get 0 x.slots k
      let new := setFld old 4 0 v
      if x.running then (.done, s.updCtx c fun x => { x with slotWrites := SMap.insert x.slotWrites k new })
      else (.done, s.updCtx c fun x => { x with slots := SMap.put 0 x.slots k new, slotWrites := x.slotWrites.filter (·.1 ≠ k) })

/-- SLOT_WRITE: while streams run it takes effect at the next MK (01 R23). -/
def execSlotWrite (m : Mbx) (s : State) : Out := suphor m 0x35 (fun _ => true) (slotWriteReply m) s

/-- SLOT_READ: the 256 slots. -/
def execSlotRead (m : Mbx) (ok : Bool) (s : State) : Out :=
  suphor m 0x36 (fun _ => true) (fun w s => withCtx m w s fun _ x =>
    dataOut w ok ((List.range 256).flatMap fun k => leBytes 4 (x.slot k).toNat) .done s) s

/-! ### Commit entries (06 Table 6.2, R131) -/

def entryReserved (e : BitVec 256) : Bool := fld e 15 3 = 0 && fld e 63 36 = 0

/-- The record's values are ones that 06 Table 6.2 allows. -/
def entryFields (e : BitVec 256) : Bool :=
  let kind := fld e 1 0
  let multiple := fun (n : Nat) => n ≠ 0 && n % 16 = 0
  multiple (fld e 95 64) && multiple (fld e 127 96) &&
    (if kind = 0 then fld e 35 16 ≠ 0 && multiple (fld e 159 128)
     else kind = 1 && fld e 35 16 = 0 && fld e 159 128 = 0 && fld e 191 160 = 0)

/-- Slices that other entries hold on a die. -/
def State.slicesOn (s : State) (die : Nat) (but : Ctx × Nat) : Nat :=
  ((List.finRange 8).map fun c => match s.ctx c with
    | some x => ((x.entries.filter fun e => e.1 / 1024 = die && !((c, e.1) = but)).map fun e => e.2.slices).foldl (· + ·) 0
    | none => 0).foldl (· + ·) 0

def entryRegisterReply (m : Mbx) (data : Option Bytes) (w : CmdWord) (s : State) : Reply × State :=
  withCtx m w s fun c x =>
    let n := cmdArg w 0
    let die := cmdArg w 1
    if 1023 < n then (.badArg 0, s)
    else if 20 ≤ die then (.badArg 1, s)
    else if x.running then (.no .busy, s)
    else dataIn w 32 data s fun bs =>
      let e := wordOf 256 bs
      if !entryReserved e then (.no .reservedBit, s)
      else if !entryFields e then (.badArg 4, s)
      else if 1048576 < s.slicesOn die (c, die * 1024 + n) + fld e 35 16 then (.no .noResource, s)
      else
        let entry : Entry := { word := setBit e 2 false, area := false, written := [], lastMap := [], lastStep := 0, codeBytes := 0, complete := false }
        (.done, s.updCtx c fun x => { x with entries := SMap.insert x.entries (die * 1024 + n) entry })

/-- ENTRY_REGISTER. -/
def execEntryRegister (m : Mbx) (data : Option Bytes) (s : State) : Out := suphor m 0x37 (fun _ => true) (entryRegisterReply m data) s

/-- The entry with its active area, then its map at two bits a slice. -/
def Entry.image (e : Entry) : Bytes :=
  leBytes 32 (setBit e.word 2 e.area).toNat ++
    leBytes ((2 * e.slices + 7) / 8) ((e.lastMap.map fun p => p.2 % 4 * 4 ^ p.1).foldl (· + ·) 0)

def entryReadReply (m : Mbx) (ok : Bool) (w : CmdWord) (s : State) : Reply × State :=
  withCtx m w s fun _ x =>
    if 1023 < cmdArg w 0 then (.badArg 0, s)
    else if 20 ≤ cmdArg w 1 then (.badArg 1, s)
    else match SMap.find x.entries (cmdArg w 1 * 1024 + cmdArg w 0) with
      | none => (.badArg 0, s)
      | some e => dataOut w ok e.image (.results e.lastStep 0) s

/-- ENTRY_READ. -/
def execEntryRead (m : Mbx) (ok : Bool) (s : State) : Out := suphor m 0x38 (fun _ => true) (entryReadReply m ok) s

/-! ### Groups (11 Table 11.1, R269; 10 R263) -/

def groupReserved (g : BitVec 256) : Bool := fld g 15 12 = 0 && fld g 95 84 = 0 && fld g 255 128 = 0

/-- Coordinates of a mask are one run of a ring of d. -/
def oneRun (d : Nat) (l : List Nat) : Bool := (l.filter fun i => !l.contains ((i + d - 1) % d)).length ≤ 1

/-- No mask is empty, and an express group's masks are runs. -/
def State.groupOk (s : State) (c : Ctx) (g : BitVec 256) : Bool :=
  let dims := s.fabDims
  let t := fld g 127 96
  fld g 10 8 = c.val && fld g 83 64 ≠ 0 && (t = 0 || (1000 ≤ t && t ≤ 60000000)) &&
    (List.range 4).all fun k => !(gCoords dims g k).isEmpty && (!bit g 11 || oneRun (dims.getD k 1) (gCoords dims g k))

def groupRegisterReply (m : Mbx) (data : Option Bytes) (w : CmdWord) (s : State) : Reply × State :=
  withCtx m w s fun c _ => dataIn w 32 data s fun bs =>
    let g := wordOf 256 bs
    let h := fld g 7 0
    if !groupReserved g then (.no .reservedBit, s)
    else if !s.groupOk c g then (.badArg 4, s)
    else if (s.group h).isSome then (.no .inUse, s)
    else
      let s : State := { s with fabric := { s.fabric with
        groups := SMap.insert s.fabric.groups h g, multicast := SMap.put 0 s.fabric.multicast h (BitVec.ofNat 49 (fld g 63 16 + 2 ^ 48)) } }
      (.done, s.updDies fun _ x => { x with groupSeq := SMap.erase x.groupSeq h })

/-- GROUP_REGISTER. -/
def execGroupRegister (m : Mbx) (data : Option Bytes) (s : State) : Out := suphor m 0x39 (fun _ => true) (groupRegisterReply m data) s

def groupReleaseReply (m : Mbx) (w : CmdWord) (s : State) : Reply × State :=
  withCtx m w s fun c x =>
    let h := cmdArg w 0
    match s.group h with
    | none => (.no .notFound, s)
    | some g =>
      if fld g 10 8 ≠ c.val then (.no .notFound, s)
      else if (x.running && x.stepGroup = h) || s.dies.toList.any (fun y => y.ops.any fun o => o.open_ && o.group = h) then (.no .busy, s)
      else (.done, { s with fabric := { s.fabric with groups := SMap.erase s.fabric.groups h, multicast := SMap.erase s.fabric.multicast h } })

/-- GROUP_RELEASE. -/
def execGroupRelease (m : Mbx) (s : State) : Out := suphor m 0x3A (fun _ => true) (groupReleaseReply m) s

end Sys2Proof.Machine
end

