-- ==== Sys2Proof/Machine/Policies.lean ====
section
/-! DEFINITION. Suphor commands on policies, rings, counters, the ledger, packages and links: opcodes 0x3B to 0x70 (15 Tables
15.9, 15.12, 15.14, R379, R380). -/
namespace Sys2Proof.Machine

/-! ### The fall-back policy (07 R164, R165, R174) -/

def fallbackReserved (p : Bytes) : Bool :=
  polHdr p 15 3 = 0 && polHdr p 175 172 = 0 && polHdr p 511 304 = 0 && (List.range 256).all fun k => fld (polSlot p k) 31 17 = 0

/-- Every encoding is valid and every value lies in its stated range (07 Tables 7.3, 7.4). -/
def fallbackValues (p : Bytes) : Bool :=
  1 ≤ polStreakLimit p && 1 ≤ polPromoteSteps p && 2 ≤ polHdr p 171 168 && polHdr p 171 168 ≤ 12 && 1 ≤ polDemoteSteps p &&
    1 ≤ polMinBlocks p && polSpBase p % 4096 = 0 && polHbmBase p % 65536 = 0 && polHbmBase p < 2 ^ 36 &&
    (List.range 256).all fun k =>
      let e := polSlot p k
      slotRole e ≠ 3 && slotMaxForm e ≠ 3 && slotInit e ≤ 4

/-- A pool that holds chunks keeps its base, and does not shrink below them. -/
def CtxSt.poolsKept (x : CtxSt) (p : Bytes) : Bool :=
  let old := x.policyNow
  (x.chunks.all fun k => k.spLen = 0 ||
    (polSpBase p = polSpBase old && k.spBase + 4096 * k.spLen ≤ polSpBase old + 4096 * polSpUnits p)) &&
  (x.chunks.all fun k => k.hbmLen = 0 ||
    (polHbmBase p = polHbmBase old && k.hbmBase + 65536 * k.hbmLen ≤ polHbmBase old + 65536 * polHbmPages p))

/-- The first condition of 15 Table 15.14 that a fall-back record breaks; 0: none. -/
def CtxSt.fallbackPolicy (x : CtxSt) (p : Bytes) : Nat :=
  if !fallbackValues p then 1
  else if !((List.range 256).all fun k => withinMax (initLevels (slotInit (polSlot p k))) (slotMaxForm (polSlot p k))) then 2
  else if (launchForms p (if polHbmBase p = polHbmBase x.policyNow then x.reducedMap else []) []).isNone then 3
  else if !x.poolsKept p then 4
  else if !(x.chunks.all fun k => slotCost (polSlot p k.slot) k.side k.piece = (k.spLen, k.hbmLen)) then 5
  else if polPromoteCoarse p < 2 * polDemoteCoarse p then 6
  else if polPromoteOverflow p < 2 * polDemoteOverflow p then 7
  else if polDemoteSteps p < polPromoteSteps p then 8
  else if !(x.dieList.all fun d => x.coversLocal true d (polSpBase p) (polSpUnits p * 4096) &&
      x.coversLocal false d (polHbmBase p) (polHbmPages p * 65536)) then 9
  else 0

def policyFallbackReply (m : Mbx) (data : Option Bytes) (w : CmdWord) (s : State) : Reply × State :=
  withCtx m w s fun c x => dataIn w 4160 data s fun bs =>
    if !fallbackReserved bs then (.no .reservedBit, s)
    else if x.fallbackPolicy bs ≠ 0 then (.policyNo (x.fallbackPolicy bs), s)
    else (.done, s.updCtx c fun x => { x with policyNext := some bs })

def ofKind (k : Nat) (w : CmdWord) : Bool := cmdArg w 0 = k

/-- POLICY_SET kind 1: the record takes effect at launch, or at the next MK while streams run. -/
def execPolicySetFallback (m : Mbx) (data : Option Bytes) (s : State) : Out := suphor m 0x3B (ofKind 1) (policyFallbackReply m data) s

/-! ### The resilience policy (14 Table 14.2, R347, Table 14.4) -/

def resilienceReserved (r : BitVec 256) : Bool :=
  fld r 15 14 = 0 && fld r 63 48 = 0 && fld r 127 112 = 0 && fld r 255 160 = 0

/-- Bytes of the context's image on a die: header, fall-back state, and its planes (14 R350; log 19). -/
def CtxSt.imageSize (x : CtxSt) (d : Nat) : Nat :=
  8320 + ((x.imagePlanes.filter fun e => e.1 = d).map fun e =>
    let t := x.tensorOf e.1 e.2.1 e.2.2
    t.flatLen + t.sealBytes).foldl (· + ·) 0

/-- The first condition of 15 Table 15.14 that a resilience record breaks; 0: none. -/
def State.resiliencePolicy (s : State) (x : CtxSt) (r : BitVec 256) : Nat :=
  if fld r 31 16 = 0 || fld r 39 32 = 0 || resBase r % 65536 ≠ 0 || 2 ^ 36 ≤ resBase r then 1
  else if resBuddy r = s.fabric.logical.toNat then 2
  else if !(x.dieList.all fun d => x.coversLocal false d (resBase r) (4 * resPages r * 65536)) then 3
  else if x.dieList.any fun d => resPages r * 65536 < x.imageSize d then 4
  else if 1 < fld r 41 40 || 1 < fld r 43 42 || 1 < fld r 45 44 || fld r 47 46 = 1 || fld r 47 46 = 3 then 5
  else 0

def policyResilienceReply (m : Mbx) (data : Option Bytes) (w : CmdWord) (s : State) : Reply × State :=
  withCtx m w s fun c x => dataIn w 32 data s fun bs =>
    let r := wordOf 256 bs
    if !resilienceReserved r then (.no .reservedBit, s)
    else if s.resiliencePolicy x r ≠ 0 then (.policyNo (s.resiliencePolicy x r), s)
    else (.done, s.updCtx c fun x => { x with resilienceNext := some r })

/-- POLICY_SET kind 2: at the next MK. -/
def execPolicySetResilience (m : Mbx) (data : Option Bytes) (s : State) : Out := suphor m 0x3B (ofKind 2) (policyResilienceReply m data) s

/-! ### Policies that are values (15 Table 15.12) -/

def inRange (v lo hi : Nat) : Bool := lo ≤ v && v ≤ hi

def policySampleReply (m : Mbx) (w : CmdWord) (s : State) : Reply × State :=
  withCtx m w s fun c x =>
    let p := cmdArg w 1
    if !(p = 0 || inRange p 1024 (2 ^ 24)) then (.policyNo 1, s)
    else
      let s := s.updCtx c fun x => { x with samplePeriod := p }
      (.done, x.launchedDies.foldl (fun st d => st.firstGap c d) s)

/-- POLICY_SET kind 3: the context's SAMPLE_PERIOD, at once. -/
def execPolicySetSamplePeriod (m : Mbx) (s : State) : Out := suphor m 0x3B (ofKind 3) (policySampleReply m) s

/-- The integrity record's values lie in the ranges of 12 Table 12.10. -/
def integrityValues (r : BitVec 128) : Bool :=
  inRange (fld r 7 0) 1 168 && inRange (fld r 15 8) (fld r 7 0) 255 && inRange (fld r 23 16) 1 168 && inRange (fld r 31 24) (fld r 23 16) 255 &&
    inRange (fld r 39 32) 1 90 && inRange (fld r 47 40) (fld r 39 32) 180 && inRange (fld r 58 48) 1 1440

def policyIntegrityReply (data : Option Bytes) (w : CmdWord) (s : State) : Reply × State :=
  dataIn w 16 data s fun bs =>
    let r := wordOf 128 bs
    if fld r 127 60 ≠ 0 then (.no .reservedBit, s)
    else if !integrityValues r then (.policyNo 1, s)
    else (.done, { s with ledger := { s.ledger with integrityPolicy := r } })

/-- POLICY_SET kind 4: the integrity policy, at once. -/
def execPolicySetIntegrity (m : Mbx) (data : Option Bytes) (s : State) : Out := suphor m 0x3B (ofKind 4) (policyIntegrityReply data) s

/-- POLICY_SET kind 5: SCRUB_PERIOD. -/
def execPolicySetScrubPeriod (m : Mbx) (s : State) : Out :=
  suphor m 0x3B (ofKind 5) (fun w s =>
    if !inRange (cmdArg w 1) 1 168 then (.policyNo 1, s) else (.done, { s with ledger := { s.ledger with scrubHours := cmdArg w 1 } })) s

/-- POLICY_SET kind 6: E2E_TIMEOUT. -/
def execPolicySetE2eTimeout (m : Mbx) (s : State) : Out :=
  suphor m 0x3B (ofKind 6) (fun w s =>
    if !inRange (cmdArg w 1) 10 10000 then (.policyNo 1, s)
    else (.done, { s with fabric := { s.fabric with e2eUs := BitVec.ofNat 24 (cmdArg w 1) } })) s

/-- POLICY_SET kind 7: CHECKPOINT_INTERVAL. -/
def execPolicySetCheckpointInterval (m : Mbx) (s : State) : Out :=
  suphor m 0x3B (ofKind 7) (fun w s =>
    if !inRange (cmdArg w 1) 10 1440 then (.policyNo 1, s) else (.done, { s with ledger := { s.ledger with checkpointMin := cmdArg w 1 } })) s

/-- POLICY_SET kind 8: the tally context and its times. -/
def execPolicySetTally (m : Mbx) (s : State) : Out :=
  suphor m 0x3B (ofKind 8) (fun w s =>
    if 7 < cmdArg w 1 || !inRange (cmdArg w 2) 1000 10000000 || !inRange (cmdArg w 3) 100000 60000000 then (.policyNo 1, s)
    else (.done, { s with ledger := { s.ledger with tallyCtx := some (cmdArg w 1), tallyMinUs := cmdArg w 2, tallyPeriodUs := cmdArg w 3 } })) s

/-- POLICY_READ: the record, or the values. -/
def policyReadReply (m : Mbx) (ok : Bool) (w : CmdWord) (s : State) : Reply × State :=
  let l := s.ledger
  match cmdArg w 0 with
  | 1 => withCtx m w s fun _ x => dataOut w ok (x.policySet.getD defaultPolicy) .done s
  | 2 => withCtx m w s fun _ x => match x.resilienceSet with
    | some r => dataOut w ok (leBytes 32 r.toNat) .done s
    | none => (.no .notFound, s)
  | 3 => withCtx m w s fun _ x => (.results x.samplePeriod 0, s)
  | 4 => dataOut w ok (leBytes 16 l.integrityPolicy.toNat) .done s
  | 5 => (.results l.scrubHours 0, s)
  | 6 => (.results s.fabric.e2eUs.toNat 0, s)
  | 7 => (.results l.checkpointMin 0, s)
  | 8 => (.results (l.tallyCtx.getD 0xFF) (l.tallyMinUs + 2 ^ 32 * l.tallyPeriodUs), s)
  | _ => (.badArg 0, s)

def execPolicyRead (m : Mbx) (ok : Bool) (s : State) : Out := suphor m 0x3C (fun _ => true) (policyReadReply m ok) s

/-! ### The fall-back statistics (15 R379) -/

def slotCtlImage (k : SlotCtl) : Bytes :=
  leBytes 16 (packNat [(k.overS, 16), (k.overW, 16), (k.underS, 16), (k.underW, 16), (k.silent, 16), (b2n k.levelS, 1), (b2n k.levelW, 1),
    (b2n k.trio, 1)])

/-- FALLBACK_READ. -/
def execFallbackRead (m : Mbx) (ok : Bool) (s : State) : Out :=
  suphor m 0x3D (fun _ => true) (fun w s => withCtx m w s fun _ x =>
    dataOut w ok (padTo 32768 x.reduced ++ (List.range 256).flatMap fun k => slotCtlImage (SMap.get ctlZero x.reducedCtl k)) (.results x.reducedStep 0) s) s

/-! ### Rings (15 R380) -/

def newRing (w : CmdWord) : Option Ring :=
  if cmdArg w 1 = 0 then none else some { address := cmdArg w 1, sizeLog := cmdArg w 2, writeIndex := 0, dropped := 0 }

/-- An address of host memory that a ring may have. -/
def hostRingAddr (a : Nat) : Bool := a % 64 = 0 && a < 2 ^ 47

def ringRegisterReply (m : Mbx) (w : CmdWord) (s : State) : Reply × State :=
  let a := cmdArg w 1
  let n := cmdArg w 2
  let off : Bool := decide (a = 0)
  match cmdArg w 0 with
  | 1 => withCtx m w s fun c _ =>
    if !off && !hostRingAddr a then (.badArg 1, s)
    else if !off && !inRange n 6 16 then (.badArg 2, s)
    else
      let s := if off then s else s.write (.host a) (List.replicate 64 0) false
      (.done, s.updCtx c fun x => { x with stepRing := newRing w })
  | 2 => withCtx m w s fun c x =>
    if !off && a % 64 ≠ 0 then (.badArg 1, s)
    else if !off && !inRange n 6 16 then (.badArg 2, s)
    else if !off && !(x.dieList.all fun d => x.coversAddr d a (64 + 64 * 2 ^ n)) then (.no .range, s)
    else
      let s := if off then s else x.dieList.foldl (fun st d => match deviceAddr d a with
        | some p => st.write p (List.replicate 64 0) false
        | none => st) s
      (.done, s.updCtx c fun x => { x with sampleRing := newRing w })
  | 3 =>
    if !off && !hostRingAddr a then (.badArg 1, s)
    else if !off && !inRange n 4 12 then (.badArg 2, s)
    else
      let s := if off then s else s.write (.host a) (List.replicate 64 0) false
      (.done, { s with ledger := { s.ledger with tallyRing := newRing w } })
  | _ => (.badArg 0, s)

/-- RING_REGISTER: replaces the ring of its kind; the new ring's indices start at 0. -/
def execRingRegister (m : Mbx) (s : State) : Out := suphor m 0x3E (fun _ => true) (ringRegisterReply m) s

/-! ### Counters, histograms and windows (13 R323 to R326) -/

/-- What an event's qualifier may be; none: the event has none (13 Table 13.2). The outer none: no such event. -/
def eventQualifier (e : Nat) : Option (Option (List (Nat × Nat))) :=
  let no : Option (Option (List (Nat × Nat))) := some none
  let upTo := fun (n : Nat) => (some (some [(0, n)]) : Option (Option (List (Nat × Nat))))
  let of_ := fun (l : List (Nat × Nat)) => (some (some l) : Option (Option (List (Nat × Nat))))
  match e with
  | 0x000 => no
  | 0x001 | 0x005 => of_ [(1, 9)]
  | 0x002 | 0x003 | 0x004 => no
  | 0x101 | 0x102 | 0x103 | 0x104 | 0x105 | 0x107 | 0x108 => upTo 6
  | 0x106 => upTo 255
  | 0x201 | 0x202 | 0x203 | 0x205 => no
  | 0x204 => of_ [(1, 8)]
  | 0x301 => of_ [(0x01, 0x09), (0x10, 0x14), (0x18, 0x18), (0x20, 0x26), (0x30, 0x33)]
  | 0x302 | 0x303 | 0x401 | 0x402 | 0x404 => no
  | 0x403 => of_ [(1, 3)]
  | 0x405 => of_ [(1, 5)]
  | 0x501 | 0x502 | 0x503 | 0x505 | 0x506 | 0x507 | 0x508 | 0x509 => upTo 63
  | 0x504 => upTo 2303
  | 0x50A => no
  | 0x50B => upTo 8
  | 0x50C | 0x50D => upTo 7
  | 0x601 | 0x602 => upTo 31
  | 0x603 => upTo 17
  | 0x604 => upTo 13
  | 0x605 => upTo 15
  | 0x606 | 0x607 => no
  | 0x701 | 0x702 | 0x703 | 0x704 | 0x705 | 0x706 | 0x70B => upTo 31
  | 0x707 => of_ [(1, 5)]
  | 0x708 | 0x709 => of_ [(1, 10)]
  | 0x70A => upTo 10
  | 0x70C => no
  | 0x801 => of_ [(1, 11)]
  | 0x802 | 0x803 | 0x804 | 0x806 => no
  | 0x805 => of_ [(1, 5)]
  | 0x901 | 0x904 | 0x905 | 0x906 => upTo 13
  | 0x902 => of_ [(1, 2)]
  | 0x903 => no
  | 0x907 | 0x908 => upTo 6
  | 0xA01 | 0xA02 | 0xA03 | 0xA04 | 0xA05 | 0xA06 => no
  | _ => none

/-- Qualifier of a latency source (13 Table 13.5). -/
def sourceQualifier (k : Nat) : Option (Option (List (Nat × Nat))) :=
  match k with
  | 0 | 3 | 4 | 6 | 9 => some none
  | 1 => some (some [(0, 63)])
  | 2 => some (some [(0, 7)])
  | 5 => some (some [(1, 9)])
  | 7 => some (some [(1, 11)])
  | 8 => some (some [(0, 13)])
  | 10 => some (some [(0, 17)])
  | _ => none

/-- The first three cases of 13 R323 for a select word; 0: none. -/
def selectPolicy (q : Option (Option (List (Nat × Nat)))) (qual : Nat) (all : Bool) : Nat :=
  match q with
  | none => 1
  | some (some l) => if !l.any fun r => inRange qual r.1 r.2 then 2 else 0
  | some none => if qual ≠ 0 || all then 3 else 0

/-- Dies of ARG0. -/
def cmdDies (w : CmdWord) : List Die := (List.finRange 20).filter fun d => (cmdArg w 0).testBit d.val

def maskTooWide (w : CmdWord) : Bool := 2 ^ 20 ≤ cmdArg w 0

/-- The command applies a change to every die of ARG0. -/
def onDies (w : CmdWord) (s : State) (f : Die → DieSt → DieSt) : Reply × State :=
  (.done, s.updDies fun d x => if (cmdDies w).contains d then f d x else x)

def counterReply (w : CmdWord) (s : State) : Reply × State :=
  let v := cmdArg w 3
  let word := BitVec.ofNat 64 v
  let why := selectPolicy (eventQualifier (fld word 11 0)) (fld word 23 12) (bit word 24)
  if maskTooWide w then (.badArg 0, s)
  else if 31 < cmdArg w 2 then (.badArg 2, s)
  else if fld word 63 29 ≠ 0 then (.no .reservedBit, s)
  else if why ≠ 0 then (.policyNo why, s)
  else onDies w s fun _ x => { x with counters := x.counters.setIfInBounds (cmdArg w 2) { select := word, value := 0 } }

def measureKind (k : Nat) (w : CmdWord) : Bool := cmdArg w 1 = k

/-- MEASURE_SET kind 0: the select fields of CNT_n; VALUE is cleared. -/
def execMeasureSetCounter (m : Mbx) (s : State) : Out := suphor m 0x50 (measureKind 0) counterReply s

def histogramReply (w : CmdWord) (s : State) : Reply × State :=
  let word := BitVec.ofNat 64 (cmdArg w 3)
  let why := selectPolicy (sourceQualifier (fld word 3 0)) (fld word 15 4) (bit word 16)
  if maskTooWide w then (.badArg 0, s)
  else if 7 < cmdArg w 2 then (.badArg 2, s)
  else if fld word 63 21 ≠ 0 then (.no .reservedBit, s)
  else if why ≠ 0 then (.policyNo why, s)
  else onDies w s.draw.2 fun _ x => { x with hists := x.hists.setIfInBounds (cmdArg w 2) (Histogram.fresh (BitVec.ofNat 32 word.toNat) s.freeCtr) }

/-- MEASURE_SET kind 1: HIST_SELn; histogram n is cleared. -/
def execMeasureSetHistogram (m : Mbx) (s : State) : Out := suphor m 0x50 (measureKind 1) histogramReply s

def windowReply (w : CmdWord) (s : State) : Reply × State :=
  if maskTooWide w then (.badArg 0, s)
  else if 4 < cmdArg w 2 then (.badArg 2, s)
  else if !inRange (cmdArg w 3) 16 26 then (.badArg 3, s)
  else onDies w s fun d x =>
    if hasBw d ⟨cmdArg w 2 % 5, Nat.mod_lt _ (by decide)⟩ then
      { x with bw := x.bw.setIfInBounds (cmdArg w 2) { BwWin.reset with shift := BitVec.ofNat 5 (cmdArg w 3) } } else x

/-- MEASURE_SET kind 2: WINDOW_SHIFT of BW_WINn; the instance is cleared. -/
def execMeasureSetWindow (m : Mbx) (s : State) : Out := suphor m 0x50 (measureKind 2) windowReply s

/-- TALLY_REQUEST. -/
def execTallyRequest (m : Mbx) (s : State) : Out :=
  suphor m 0x51 (fun _ => true) (fun w s =>
    if maskTooWide w then (.badArg 0, s)
    else (.done, (cmdDies w).foldl (fun st d => if st.dieInService d then st.latchTally d 3 (st.stepOf none) else st) s)) s

/-! ### The ledger and captures (13 R333, R335; 12 R305) -/

/-- The leading records that fit a buffer of n bytes. -/
def fitting : Nat → List Bytes → List Bytes
  | _, [] => []
  | n, r :: l => if r.length ≤ n then r :: fitting (n - r.length) l else []

def ledgerReadReply (ok : Bool) (w : CmdWord) (s : State) : Reply × State :=
  let l := if cmdArg w 0 = 0 then s.flash.lifetime else s.flash.rolling
  if 1 < cmdArg w 0 then (.badArg 0, s)
  else if !inRange (cmdArg w 2) 1 4096 then (.badArg 2, s)
  else if !cmdBuffer w (cmdLen w) then (.badArg 4, s)
  else if !ok then (.no .dataFault, s)
  else
    let rs := fitting (cmdLen w) (held l (cmdArg w 1) (cmdArg w 2))
    let after := match rs.getLast? with | some r => leAt r 32 8 + 1 | none => cmdArg w 1
    (.results rs.length after, s.write (.host (cmdAddr w)) rs.flatten false)

/-- LEDGER_READ: the held records, back to back, as far as the buffer takes them. -/
def execLedgerRead (m : Mbx) (ok : Bool) (s : State) : Out := suphor m 0x60 (fun _ => true) (ledgerReadReply ok) s

/-- CAPTURE_READ. -/
def execCaptureRead (m : Mbx) (ok : Bool) (s : State) : Out :=
  suphor m 0x61 (fun _ => true) (fun w s => match SMap.find s.flash.captures (cmdArg w 0) with
    | none => (.no .notFound, s)
    | some k => dataOut w ok (padTo 262144 k.bytes) (.results (digestNat 8 k.bytes) 0) s) s

/-- CAPTURE_EXPORTED. -/
def execCaptureExported (m : Mbx) (s : State) : Out :=
  suphor m 0x62 (fun _ => true) (fun w s => match s.exportCapture (cmdArg w 0) (cmdArg w 1) with
    | some s => (.done, s)
    | none => (.no .notFound, s)) s

/-- LSEQ of the latest checkpoint, in the tier that checkpoints go to. -/
def State.checkpointLseq (s : State) : Nat :=
  lastLseq ((if s.ledger.lifetimeFull then s.flash.rolling else s.flash.lifetime).filter fun r => recType r = 2)

/-- CHECKPOINT_NOW: a checkpoint is written. -/
def execCheckpointNow (m : Mbx) (s : State) : Out :=
  suphor m 0x63 (fun _ => true) (fun _ s =>
    let s := (s.checkpoint 3).flushAll
    (.results s.checkpointLseq 0, s)) s

/-- A collector is configured (13 R340). -/
def State.setCollector (s : State) (k : Nat) (port : Nat) (enable : Bool) (address : Bytes) : State :=
  { s with flash := { s.flash with
      collectors := s.flash.collectors.setIfInBounds k { enable := enable, address := wordOf 128 address, port := BitVec.ofNat 16 port } } }

def collectorReply (data : Option Bytes) (w : CmdWord) (s : State) : Reply × State :=
  if 1 < cmdArg w 0 then (.badArg 0, s)
  else if 2 ^ 17 ≤ cmdArg w 1 then (.badArg 1, s)
  else dataIn w 16 data s fun bs => (.done, s.setCollector (cmdArg w 0) (cmdArg w 1 % 65536) ((cmdArg w 1).testBit 16) bs)

/-- COLLECTOR_SET. -/
def execCollectorSet (m : Mbx) (data : Option Bytes) (s : State) : Out := suphor m 0x64 (fun _ => true) (collectorReply data) s

/-! ### Gambits, calibration, firmware (12 R310, R311; 16 R391 to R396) -/

/-- A gambit's answer (12 R310; log 46). -/
def gambitReply (d : GambitDone) (id : Nat) : Reply :=
  match d with
  | .done => .results id 0
  | .full => .no .noResource
  | .refused 1 => .no .signature
  | .refused 5 => .no .reservedBit
  | .refused _ => .badArg 4

/-- GAMBIT_INSTALL. -/
def execGambitInstall (m : Mbx) (data : Option Bytes) (s : State) : Out :=
  suphor m 0x65 (fun _ => true) (fun w s => dataIn w (cmdLen w) data s fun g =>
    let (d, s) := s.installGambit g
    (gambitReply d (gambitIdOf g), s)) s

/-- CAL_READ: the calibration package in force, whole (16 R396). -/
def execCalRead (m : Mbx) (ok : Bool) (s : State) : Out :=
  suphor m 0x66 (fun _ => true) (fun w s => dataOut w ok (s.bootSt.calInForce) .done s) s

/-- CAL_WRITE. -/
def execCalWrite (m : Mbx) (data : Option Bytes) (s : State) : Out :=
  suphor m 0x67 (fun _ => true) (fun w s => dataIn w (cmdLen w) data s fun p =>
    if s.pkgOk [2] p then (.done, s.installCalibration p) else (.no .signature, s.refusePkg p)) s

/-- FW_INSTALL: a FIRMWARE or a KEY_LIST package. -/
def execFwInstall (m : Mbx) (data : Option Bytes) (s : State) : Out :=
  suphor m 0x68 (fun _ => true) (fun w s => dataIn w (cmdLen w) data s fun p =>
    if !s.pkgOk [1, 3] p then (.no .signature, s.refusePkg p)
    else if pkgType p = 1 then (.results (pkgFwRev p) 0, s.installFirmware p)
    else (.results (leAt (pkgBody p) 0 4) 0, s.installKeys p)) s

/-! ### Links (10 R238) -/

/-- LINK_RESET: the link leaves FAILED and trains again. -/
def execLinkReset (m : Mbx) (s : State) : Out :=
  suphor m 0x70 (fun _ => true) (fun w s =>
    if 31 < cmdArg w 0 then (.badArg 0, s)
    else
      let l := linkOf (cmdArg w 0)
      if (s.link l).state = 3 then (.done, (s.updLink l fun x => { x with state := 1 }).linkRecord l 1 6) else (.done, s)) s

end Sys2Proof.Machine
end

