-- ==== Sys2Proof/Machine/Attest.lean ====
section
/-! DEFINITION. Attestation and platform monitoring: the SPDM responder and the PLDM sensors and command (15 R383, R384; 16
R398, R399, Table 16.8). Message formats are those of SPDM 1.3, which the spec names and does not repeat (log 52). -/
namespace Sys2Proof.Machine

/-! ### Measurements (16 Table 16.8) -/

/-- Body of the gambit key list as flash holds it (16 R394). -/
def Flash.keyBody (f : Flash) : Bytes :=
  leBytes 4 f.keyGeneration.toNat ++ leBytes 2 f.keyValid.toNat ++ List.replicate 58 0 ++
    (List.range 16).flatMap fun k => padTo 512 ((f.key k).getD [])

/-- SHA-512 over the digests of the installed gambits, in ascending GAMBIT_ID. -/
def Flash.gambitDigest (f : Flash) : Bytes :=
  let byId := f.gambits.foldl (fun (t : SMap Bytes) g => SMap.insert t g.id.toNat g.bytes) []
  sha512 (byId.flatMap fun e => sha512 e.2)

/-- Content of measurement block i; raw or a digest. -/
def State.measurement (s : State) (i : Nat) : Option (Bool × Bytes) :=
  let b := s.bootSt
  match i with
  | 1 => some (false, leBytes 64 s.fuses.romDigest.toNat)
  | 2 => some (false, sha512 (b.runningPkg.take (64 + pkgBodyLen b.runningPkg)))
  | 3 => some (true, leBytes 8 (packNat [(s.fwRev.toNat, 16), (s.numericsRev.toNat, 8), (0xB0, 8), (s.fuses.secVersion, 8), (b.runningSec, 8)]))
  | 4 => some (false, sha512 b.calInForce)
  | 5 => some (false, sha512 s.flash.keyBody)
  | 6 => some (true, leBytes 1 (packNat [(b2n b.unlockedSinceBoot, 1), (b2n b.unlocked, 1), (b2n b.writeUsed, 1), (0, 1), (b.scopesGranted.toNat, 3)]))
  | 7 => some (false, s.flash.gambitDigest)
  | _ => none

/-- A measurement block of SPDM; the type within the DMTF's is a free value (log 52). -/
def State.measurementBlock (s : State) (i : Nat) : Bytes :=
  match s.measurement i with
  | none => []
  | some (raw, v) =>
    let ty := (Config.unstated 399 i).toNat % 128 + 128 * b2n raw
    leBytes 1 i ++ leBytes 1 1 ++ leBytes 2 (v.length + 3) ++ leBytes 1 ty ++ leBytes 2 v.length ++ v

/-! ### Messages -/

def reqCode (q : Bytes) : Nat := leAt q 1 1
def reqP1 (q : Bytes) : Nat := leAt q 2 1
def reqP2 (q : Bytes) : Nat := leAt q 3 1

/-- A message's header: version 1.3, code, two parameters. -/
def spdmHead (code p1 p2 : Nat) : Bytes := [0x13, BitVec.ofNat 8 code, BitVec.ofNat 8 p1, BitVec.ofNat 8 p2]

/-- ERROR with a code and its data byte. -/
def spdmError (code data : Nat) : Bytes := spdmHead 0x7F code data

/-- The responder of a transport answers: on I3C from stage 0x07 onward while D19 serves, on DOE while the host link is up. -/
def State.spdmAnswers (s : State) (via : SpdmPath) : Bool :=
  match via with
  | .mctp => s.managed
  | .doe => s.up && s.bootSt.stage = 0xFF && s.host.link.isSome

def State.spdm (s : State) (via : SpdmPath) : SpdmSt := match via with | .doe => s.host.spdmDoe | .mctp => s.host.spdmMctp

def State.setSpdm (s : State) (via : SpdmPath) (x : SpdmSt) : State :=
  match via with
  | .doe => { s with host := { s.host with spdmDoe := x } }
  | .mctp => { s with host := { s.host with spdmMctp := x } }

/-- Thirty-two random bytes. -/
def State.randomNonce (s : State) : Bytes × State :=
  ((List.range 32).map fun i => Config.randomByte (s.freeCtr + i), { s with freeCtr := s.freeCtr + 32 })

/-- The chain of slot 0 in the form that SPDM carries: length, the root's digest, the certificates (16 R399). -/
def spdmChain : Bytes :=
  let c := Config.certificateChain
  leBytes 4 (68 + c.length) ++ sha512 (c.take Config.rootLength) ++ c

/-- What a signature covers: the combined prefix of SPDM 1.3 for a context string, then the digest of the messages. -/
def spdmSigned (context : Bytes) (messages : Bytes) : Bytes :=
  let version : Bytes := [0x64, 0x6D, 0x74, 0x66, 0x2D, 0x73, 0x70, 0x64, 0x6D, 0x2D, 0x76, 0x31, 0x2E, 0x33, 0x2E, 0x2A]
  let prefix_ := version ++ version ++ version ++ version
  prefix_ ++ List.replicate (36 - context.length) 0 ++ context ++ sha512 messages

/-- The text "responder-challenge_auth signing". -/
def challengeContext : Bytes :=
  [0x72, 0x65, 0x73, 0x70, 0x6F, 0x6E, 0x64, 0x65, 0x72, 0x2D, 0x63, 0x68, 0x61, 0x6C, 0x6C, 0x65, 0x6E, 0x67, 0x65, 0x5F, 0x61, 0x75,
   0x74, 0x68, 0x20, 0x73, 0x69, 0x67, 0x6E, 0x69, 0x6E, 0x67]

/-- The text "responder-measurements signing". -/
def measurementContext : Bytes :=
  [0x72, 0x65, 0x73, 0x70, 0x6F, 0x6E, 0x64, 0x65, 0x72, 0x2D, 0x6D, 0x65, 0x61, 0x73, 0x75, 0x72, 0x65, 0x6D, 0x65, 0x6E, 0x74, 0x73,
   0x20, 0x73, 0x69, 0x67, 0x6E, 0x69, 0x6E, 0x67]

/-- A request's row: the responder answers a request of this code. -/
def spdmRow (via : SpdmPath) (code : Nat) (req : Bytes) (s : State) (answer : SpdmSt → State → SpdmSt × State) : Out :=
  if !s.spdmAnswers via || reqCode req ≠ code then .next s
  else
    let (x, s) := answer (s.spdm via) s
    .next (s.setSpdm via x)

/-- A request that follows NEGOTIATE_ALGORITHMS. -/
def afterNegotiation (via : SpdmPath) (code : Nat) (req : Bytes) (s : State) (answer : SpdmSt → State → SpdmSt × State) : Out :=
  spdmRow via code req s fun x s =>
    if x.negotiated then answer x s else ({ x with response := spdmError 0x04 0 }, s)

/-! ### Requests (15 R383) -/

/-- GET_VERSION: version 1.3. A new exchange begins. -/
def execSpdmGetVersion (via : SpdmPath) (req : Bytes) (s : State) : Out :=
  spdmRow via 0x84 req s fun _ s =>
    let r : Bytes := [0x10, 0x04, 0, 0, 0, 1, 0x00, 0x13]
    ({ SpdmSt.reset with response := r, vca := req ++ r }, s)

/-- GET_CAPABILITIES: certificates, challenges, signed and fresh measurements. -/
def execSpdmGetCapabilities (via : SpdmPath) (req : Bytes) (s : State) : Out :=
  spdmRow via 0xE1 req s fun x s =>
    if x.vca.isEmpty then ({ x with response := spdmError 0x04 0 }, s)
    else
      let free := fun (i n : Nat) => leBytes n (Config.unstated 383 i).toNat
      let r := spdmHead 0x61 0 0 ++ [0] ++ free 0 1 ++ [0, 0] ++ leBytes 4 0x36 ++ free 1 4 ++ free 2 4
      ({ x with response := r, vca := x.vca ++ req ++ r }, s)

/-- NEGOTIATE_ALGORITHMS: RSASSA-4096 and SHA-512, where the request offers them. -/
def execSpdmNegotiateAlgorithms (via : SpdmPath) (req : Bytes) (s : State) : Out :=
  spdmRow via 0xE3 req s fun x s =>
    let asym := (leAt req 8 4).testBit 5
    let hash := (leAt req 12 4).testBit 2
    if x.vca.isEmpty then ({ x with response := spdmError 0x04 0 }, s)
    else if !asym || !hash then ({ x with response := spdmError 0x01 0 }, s)
    else
      let r := spdmHead 0x63 0 0 ++ leBytes 2 36 ++ [1, 0] ++ leBytes 4 8 ++ leBytes 4 0x20 ++ leBytes 4 4 ++ List.replicate 16 0
      ({ x with response := r, negotiated := true, vca := x.vca ++ req ++ r }, s)

/-- GET_DIGESTS: of the chain of slot 0. -/
def execSpdmGetDigests (via : SpdmPath) (req : Bytes) (s : State) : Out :=
  afterNegotiation via 0x81 req s fun x s =>
    let r := spdmHead 0x01 1 1 ++ sha512 spdmChain
    ({ x with response := r, certs := x.certs ++ req ++ r }, s)

/-- GET_CERTIFICATE: a portion of the chain of slot 0. -/
def execSpdmGetCertificate (via : SpdmPath) (req : Bytes) (s : State) : Out :=
  afterNegotiation via 0x82 req s fun x s =>
    let o := leAt req 4 2
    let rest := spdmChain.drop o
    if reqP1 req % 16 ≠ 0 || spdmChain.length ≤ o then ({ x with response := spdmError 0x01 0 }, s)
    else
      let part := rest.take (leAt req 6 2)
      let r := spdmHead 0x02 0 0 ++ leBytes 2 part.length ++ leBytes 2 (rest.length - part.length) ++ part
      ({ x with response := r, certs := x.certs ++ req ++ r }, s)

/-- The measurement record of every block. -/
def State.allMeasurements (s : State) : Bytes := (List.range 7).flatMap fun i => s.measurementBlock (i + 1)

/-- CHALLENGE: the response is signed with the identity key (16 R398). -/
def execSpdmChallenge (via : SpdmPath) (req : Bytes) (s : State) : Out :=
  afterNegotiation via 0x83 req s fun x s =>
    if reqP1 req ≠ 0 then ({ x with response := spdmError 0x01 0 }, s)
    else
      let (nonce, s) := s.randomNonce
      let summary := if reqP2 req = 0 then [] else if reqP2 req = 1 then sha512 [] else sha512 s.allMeasurements
      let r := spdmHead 0x03 0 1 ++ sha512 spdmChain ++ nonce ++ summary ++ leBytes 2 0 ++ slice req 36 8
      let signature := Config.identitySign (spdmSigned challengeContext (x.vca ++ x.certs ++ req ++ r))
      ({ x with response := r ++ signature, certs := [] }, s)

/-- GET_MEASUREMENTS: the number of blocks, one block, or all; signed where the request asks for it. -/
def execSpdmGetMeasurements (via : SpdmPath) (req : Bytes) (s : State) : Out :=
  afterNegotiation via 0xE0 req s fun x s =>
    let op := reqP2 req
    let signed := (reqP1 req).testBit 0
    if !(op ≤ 7 || op = 0xFF) then ({ x with response := spdmError 0x01 0 }, s)
    else
      let blocks := if op = 0 then [] else if op = 0xFF then s.allMeasurements else s.measurementBlock op
      let count := if op = 0 then 0 else if op = 0xFF then 7 else 1
      let (nonce, s) := s.randomNonce
      let context := if signed then slice req 37 8 else slice req 4 8
      let r := spdmHead 0x60 (if op = 0 then 7 else 0) 0 ++ leBytes 1 count ++ leBytes 3 blocks.length ++ blocks ++ nonce ++ leBytes 2 0 ++ context
      let log := x.measured ++ req ++ r
      if signed then
        ({ x with response := r ++ Config.identitySign (spdmSigned measurementContext (x.vca ++ log)), measured := [] }, s)
      else ({ x with response := r, measured := log }, s)

/-- SPDM_UNSUPPORTED_REQUEST: KEY_EXCHANGE, PSK_EXCHANGE, session requests and every request not offered. -/
def execSpdmUnsupportedRequest (via : SpdmPath) (req : Bytes) (s : State) : Out :=
  if [0x81, 0x82, 0x83, 0x84, 0xE0, 0xE1, 0xE3].contains (reqCode req) then .next s
  else spdmRow via (reqCode req) req s fun x s => ({ x with response := spdmError 0x07 (reqCode req) }, s)

/-! ### PLDM (15 R384, Table 15.13; 13 R340) -/

/-- The worst of a verdict among the dies in service. -/
def State.worst (s : State) (f : DieSt → Nat) : Nat := (s.liveDies.map fun d => f (s.die (dieOf d))).foldl max 0

/-- The worst capacity verdict of the twenty stacks (08 R198). -/
def State.worstStack (s : State) : Nat := ((List.finRange 20).map fun d => (s.die d).capacityVerdict.toNat).foldl max 0

/-- Sensors in the order of 15 Table 15.13: 0 to 2 the input, 3 to 22 dies, 23 to 42 stacks, 43 and 44 coolant, 45 to 47
verdicts, 48 the host link, 49 the device (log 53). -/
def State.sensor (s : State) (k : Nat) : Option Int :=
  let p := s.power
  if k = 0 then some p.inputMv
  else if k = 1 then some (p.inputW * 1000000 / p.inputMv)
  else if k = 2 then some p.inputW
  else if k < 23 then some (s.die (dieOf (k - 3))).dieTempC
  else if k < 43 then some (s.die (dieOf (k - 23))).stackTempC
  else match k with
    | 43 => some (p.inletMilliC / 1000)
    | 44 => some (p.outletMilliC / 1000)
    | 45 => some s.worstStack
    | 46 => some (s.worst (·.integVerdict.toNat))
    | 47 => some s.ledger.verdict
    | 48 => some (match s.host.link with | none => 0 | some .x8 => 1 | some .x16 => 2)
    | 49 => some (if s.bootSt.deviceFault then 2 else if s.ready then 1 else 0)
    | _ => none

def State.pldmAnswer (s : State) (r : Bytes) : State := { s with host := { s.host with pldm := r } }

/-- PLDM_SENSOR_READ. -/
def execPldmSensorRead (sensor : Nat) (s : State) : Out :=
  if !s.managed then .next s
  else match s.sensor sensor with
    | some v => .next (s.pldmAnswer (0 :: leBytes 4 (twos 32 v)))
    | none => .next (s.pldmAnswer [0x80])

/-- PLDM_COLLECTOR_SET: PLDM type 63, with COLLECTOR_SET's arguments and address. -/
def execPldmCollectorSet (collector portEnable : BitVec 64) (address : Bytes) (s : State) : Out :=
  if !s.managed then .next s
  else if 1 < collector.toNat || 2 ^ 17 ≤ portEnable.toNat || address.length ≠ 16 then .next (s.pldmAnswer [0x02])
  else .next ((s.setCollector collector.toNat (portEnable.toNat % 65536) (bit portEnable 16) address).pldmAnswer [0])

end Sys2Proof.Machine
end

