-- ==== Sys2Proof/Machine/Collective.lean ====
section
/-! DEFINITION. The collective unit: slots, parking, order faults, the data operations, reductions, gradient partials,
working copies (11 R269 to R290, R422). -/
namespace Sys2Proof.Machine

/-! ### Body fields (11 Table 11.8) -/

def clGroup (w : IWord) : Nat := fld w 71 64
def clSrc (w : IWord) : Nat := fld w 83 72
def clDst (w : IWord) : Nat := fld w 95 84
def clAux (w : IWord) : Nat := fld w 107 96
def clFunc (w : IWord) : Nat := fld w 111 108
def clWire (w : IWord) : Nat := fld w 113 112
def clChunk (w : IWord) : Nat := 2 ^ (13 + fld w 116 114)
def clArea (w : IWord) : Nat := fld w 117 117
def clArray (w : IWord) : Nat := fld w 120 118
def clBank (w : IWord) : Nat := fld w 122 121
def clPeer (w : IWord) : Nat := fld w 143 128
def clEntry (w : IWord) : Nat := fld w 153 144
def clSlice (w : IWord) : Nat := fld w 173 154
def clTileRow (w : IWord) : Nat := fld w 199 176
def clTileCol (w : IWord) : Nat := fld w 223 200
def clRows (w : IWord) : Nat := fld w 232 224
def clCols (w : IWord) : Nat := fld w 241 233

/-- Fields that an operation uses, by their low and high bits. -/
def clUses (op : Nat) : List (Nat × Nat) :=
  let src := (72, 83)
  let dst := (84, 95)
  let chunk := (114, 116)
  let peer := (128, 143)
  let slice := [(144, 153), (154, 173)]
  let tile := [(176, 199), (200, 223), (224, 232), (233, 241)]
  match op with
  | 1 => [src, dst, chunk, peer]
  | 2 => [src, dst, (96, 107), chunk]
  | 3 | 8 => [src, dst, chunk]
  | 4 => [src, chunk, peer] ++ slice ++ tile
  | 5 => [(96, 107), (118, 120), (121, 122)] ++ slice ++ tile
  | 6 | 7 => [src, dst, (108, 111), (112, 113), chunk]
  | 9 => [src, dst, chunk, (117, 117), peer]
  | 10 => [src, dst, chunk, (117, 117), peer] ++ slice
  | 11 => [src, dst, (108, 111)]
  | _ => []

/-- Every field of Table 11.8 beside GROUP. -/
def clFields : List (Nat × Nat) :=
  [(72, 83), (84, 95), (96, 107), (108, 111), (112, 113), (114, 116), (117, 117), (118, 120), (121, 122), (128, 143),
    (144, 153), (154, 173), (176, 199), (200, 223), (224, 232), (233, 241)]

/-- A tile's fields are in range (11 Table 11.8). -/
def tileOk (w : IWord) : Bool :=
  16 ≤ clRows w && clRows w ≤ 256 && clRows w % 16 = 0 && 16 ≤ clCols w && clCols w ≤ 256 && clCols w % 16 = 0 &&
    clTileRow w % 16 = 0 && clTileCol w % 16 = 0

/-- What a CL word must be on a die (11 R290). -/
def State.clOk (s : State) (d : Die) (c : Ctx) (w : IWord) (op : Nat) : Bool :=
  match s.group (clGroup w) with
  | none => false
  | some g =>
    let n := gSize s.fabDims g
    (clFields.all fun f => (clUses op).contains f || fld w f.2 f.1 = 0) && fld w 127 123 = 0 && fld w 175 174 = 0 &&
      fld w 255 242 = 0 && gCtx g = c.val && (gDies g).contains d.val && (gRank s.fabDims g s.node d).isSome &&
      ((op ≠ 6 && op ≠ 7) || (clFunc w ≤ 4 && clWire w ≤ 2 && (clWire w = 0 || clFunc w = 0))) &&
      (op ≠ 11 || (clFunc w ≤ 5 && gExpress g)) && ((op ≠ 4 && op ≠ 5) || tileOk w) &&
      (op ≠ 5 || (clBank w ≤ 1 && clArray w ≤ 5)) && ((op ≠ 4 && op ≠ 9 && op ≠ 10) || clPeer w < n)

/-! ### The operation hash (11 R271) -/

/-- Hash of an operation over its masked word, the format and the byte count. -/
def opHash (w : IWord) (op fmt bytes : Nat) : BitVec 32 :=
  let keep := fun (v : Nat) (hi lo : Nat) => setFld (BitVec.ofNat 256 v) hi lo (fld w hi lo)
  let m := [(11, 4), (111, 108), (113, 112), (116, 114), (232, 224), (241, 233)].foldl (fun (v : Nat) f => (keep v f.1 f.2).toNat) 0
  let m := if op = 9 || op = 10 then m else (keep m 143 128).toNat
  crc32c (leBytes 32 m ++ [BitVec.ofNat 8 fmt] ++ leBytes 8 bytes)

/-! ### Operations of a die -/

/-- Open operations of a context. -/
def DieSt.openOps (x : DieSt) (c : Ctx) : List CollOp := x.ops.filter fun o => o.ctx = c.val && o.open_

def CollOp.same (a b : CollOp) : Bool := a.ctx = b.ctx && a.instr = b.instr

def State.updOp (s : State) (d : Die) (o : CollOp) (f : CollOp → CollOp) : State :=
  s.updDie d fun x => { x with ops := x.ops.map fun e => if e.same o then f e else e }

/-- The operation as it stands now. -/
def State.opNow (s : State) (d : Die) (o : CollOp) : Option CollOp := (s.die d).ops.find? (·.same o)

/-- The collective order fault (11 R276). VALUE_B: local sequence number, packet's OP_SEQ; VALUE_C: local and received hash;
VALUE_D: sending node and die; INSTANCE: group handle (log 34). -/
def State.orderFault (s : State) (d : Die) (c : Ctx) (addr reason handle : Nat) (seqs hashes sender : Nat × Nat) : State :=
  s.stopFault d c addr { cls := 4, reason := 16, sub := reason, unit := 7, inst := handle
                         valueB := seqs.1 + seqs.2 * 2 ^ 32, valueC := hashes.1 + hashes.2 * 2 ^ 8
                         valueD := sender.1 + sender.2 * 2 ^ 16 + d.val * 2 ^ 24 }

/-- An order fault that a packet raises on an operation, or on none. -/
def State.orderFaultBy (s : State) (d : Die) (c : Ctx) (o : Option CollOp) (reason : Nat) (p : Pkt) : State :=
  s.orderFault d c (o.elim 0 (·.addr)) reason p.cGroup (o.elim (SMap.get 0 (s.die d).groupSeq p.cGroup) (·.seq), p.cSeq)
    (o.elim 0 (·.hash.toNat % 256), p.aux) (p.src, p.srcDie)

/-- Runs work of the unit for an instruction in flight. -/
def State.inCl (s : State) (d : Die) (o : CollOp) (body : Exec Unit) : State :=
  let c := ctxOf o.ctx
  match s.stream d c with
  | none => s
  | some t =>
    match t.inflight.findIdx? (fun e => e.num = o.instr && e.cls = 6) with
    | none => s
    | some i =>
      match t.inflight[i]? with
      | none => s
      | some fl =>
        match body.run { Run.start s d c o.addr 7 none fl with bad := fl.badLine } with
        | .error t => s.stopFault d c o.addr t.info t.cause
        | .ok (_, r) => r.close fl.nonfinite fun l => l.set i r.fl

/-- Completes the operations whose every contribution is in and whose every packet is acknowledged (11 R278). -/
def State.settleOp (s : State) (d : Die) (o : CollOp) : State :=
  let sent := (s.die d).unacked.all fun k => !(k.ctx = o.ctx && k.instr = o.instr)
  if o.open_ && o.result && sent && o.expect.all fun e => o.done.contains (e.phase, e.rank) then
    let s := s.updDie d fun x => { x with
      ops := x.ops.filter fun e => !e.same o
      accs := if o.op = 5 then x.accs.map fun (a : Accum) => if a.ctx = o.ctx && a.phase = .receipt && a.logical = clArray o.word && a.bank = clBank o.word then { a with phase := .held } else a else x.accs }
    let here := (s.die d).present
    let s := s.saveAccs d fun a => !here.contains (a.phys.getD 7)
    s.updStream d (ctxOf o.ctx) fun t => { t with
      inflight := t.inflight.map fun (e : InFlight) => if e.num = o.instr && e.cls = 6 then { e with collWait := false } else e }
  else s

def State.settle (s : State) (d : Die) : State := (s.die d).ops.foldl (fun st o => (st.opNow d o).elim st (st.settleOp d)) s

/-! ### Sending (11 R272, R277) -/

/-- What the packets of an operation carry. -/
structure Sender where
  group : Nat
  seq : Nat
  hash : Nat
  ctx : Nat
  instr : Nat

/-- A message's packets: offset, length, the chunk's length, and whether the packet is the chunk's last. -/
def cutMessage (chunk len : Nat) : List (Nat × Nat × Nat × Bool) :=
  (List.range (ceilDiv len chunk)).flatMap fun c =>
    let base := c * chunk
    let m := min chunk (len - base)
    (List.range (ceilDiv m 2048)).map fun k => (base + 2048 * k, min 2048 (m - 2048 * k), m, decide (m ≤ 2048 * (k + 1)))

/-- Where a message goes. -/
inductive Toward where
  | one (node die : Nat)
  /-- a die of every member device, which each acknowledge -/
  | all (die : Nat) (members : List Nat)

/-- The header of a COLL packet. -/
def Sender.head (q : Sender) (s : State) (d : Die) (t : Toward) (phase off msg len : Nat) (last : Bool) : Head :=
  { ty := 5, last := last
    mcast := match t with
      | .one _ _ => false
      | .all _ _ => true
    mspace := match t with
      | .one _ _ => false
      | .all _ _ => true
    dst := match t with
      | .one n _ => n
      | .all _ _ => q.group
    dstDie := match t with
      | .one _ e => e
      | .all e _ => e
    src := s.node, srcDie := d, ctx := q.ctx, msgId := msg, msgLen := len
    addr := q.group + (q.seq % 4096) * 2 ^ 8 + (off % 2 ^ 24) * 2 ^ 20 + phase * 2 ^ 44, aux := q.hash }

/-- Queues a contribution, chunk by chunk, as packets of at most 2,048 bytes. `tag` is the pair tag of the block that holds a
byte of the message. -/
def State.sendBytes (s : State) (d : Die) (q : Sender) (t : Toward) (phase chunk : Nat) (bs : List PByte) (tag : Nat → Option Nat) : State :=
  ((cutMessage chunk bs.length).foldl (fun (acc : State × Nat) (e : Nat × Nat × Nat × Bool) =>
    let (off, n, m, last) := e
    let (msg, s) := if off % chunk = 0 then acc.1.newMsg d else (acc.2, acc.1)
    let part := (bs.drop off).take n
    let p := (q.head s d t phase off msg m last).data (part.map (·.1)) (part.map (·.2)) 0 (tag off)
    let members := match t with
      | .one _ _ => []
      | .all _ ms => ms
    (s.queueSend d [srcOf p q.ctx q.instr members], msg)) (s, 0)).1

/-- Members of a multicast to a die: every member device, but not this one when the die is the sender. -/
def State.castTo (s : State) (g : BitVec 256) (d : Die) (die : Nat) : Toward :=
  .all die ((gNodes s.fabDims g).filter fun n => !(n = s.node && die = d.val))

/-! ### Reductions (11 R280, R289) -/

/-- Maximum or minimum, or bitwise OR, or the exact sum, of one element over all ranks. -/
def reduceElem (func fmt dfmt : Nat) (es : List PElem) : PElem :=
  let vals := es.map (·.1)
  let v := match func with
    | 0 => exactSum dfmt (vals.map (wideToF32 fmt))
    | 1 => if fmt = 4 then vals.foldl max 0
      else match vals.map (wideToF32 fmt) with
        | [] => 0
        | a :: rest => f32ToWide dfmt (rest.foldl fmax a)
    | 2 => match vals with
      | [] => 0
      | a :: rest => if fmt = 4 then rest.foldl min a else f32ToWide dfmt ((rest.map (wideToF32 fmt)).foldl fmin (wideToF32 fmt a))
    | _ => vals.foldl (· ||| ·) 0
  (v, es.any (·.2))

/-- MEASURE: records of 06 R140. -/
def reduceRecord (rs : List (List PByte)) : List PByte :=
  let ws := rs.map fun r => wordOf 128 (r.map (·.1))
  let am := match ws.map fun w => BitVec.ofNat 32 (fld w 31 0) with
    | [] => 0
    | a :: rest => rest.foldl fmax a
  let ss := exactSum 0 (ws.map fun w => BitVec.ofNat 32 (fld w 95 64))
  let bad := rs.any fun r => r.any (·.2)
  (measureBytes am (ws.any fun w => bit w 32) (BitVec.ofNat 32 ss)).map fun b => (b, bad)

/-- The reduced block of all contributions, in rank order. -/
def reduceBlock (func wfmt dfmt : Nat) (parts : List (List PByte)) : List PByte :=
  if func = 4 then
    ((transposeL ([] : List PByte) (parts.map (chunksOf 16)))).flatMap reduceRecord
  else
    let n := (parts.headD []).length / (fmtBits wfmt / 8)
    let cols := transposeL ((0, false) : PElem) (parts.map (elemsOf (fmtBits wfmt) n))
    bytesOfElems (fmtBits dfmt) (cols.map (reduceElem func wfmt dfmt))

/-- A result of a reduction that is no finite number. -/
def blockNonfinite (func dfmt : Nat) (bs : List PByte) : Bool :=
  func ≤ 2 && wideFmts.contains dfmt && (elemsOf (fmtBits dfmt) (bs.length / (fmtBits dfmt / 8)) bs).any fun e => !e.2 && !wideFinite dfmt e.1

/-! ### Bytes of contributions -/

/-- Inserts by a key, and sorts by it. -/
def insertBy {α : Type} (key : α → Nat) (a : α) : List α → List α
  | [] => [a]
  | b :: rest => if key a ≤ key b then a :: b :: rest else b :: insertBy key a rest

def sortBy {α : Type} (key : α → Nat) (l : List α) : List α := l.foldr (insertBy key) []

/-- Bytes `lo` to `hi` of a contribution, once all of them have arrived. -/
def CollOp.arrived (o : CollOp) (phase rank lo hi : Nat) : Option (List PByte) :=
  let ps := o.pieces.filter fun e => e.phase = phase && e.rank = rank && e.off < hi && lo < e.off + e.bytes.length
  let bs := (sortBy (·.off) ps).flatMap fun e => ((List.zip e.bytes e.poison).take (hi - e.off)).drop (lo - e.off)
  if bs.length = hi - lo then some bs else none

/-- The format that contributions travel in. -/
def wireFmt (w : IWord) (fmt : Nat) : Nat := match clWire w with | 1 => 1 | 2 => 3 | _ => fmt

def CollOp.dstFmt (o : CollOp) : Nat := match o.dst with | some b => (descOf b.word).fmt | none => 6
def CollOp.dstBytes (o : CollOp) : Nat := match o.dst with | some b => (descOf b.word).rowBytes * (descOf b.word).rows | none => 0

/-- Bytes from offset `off` of the primary output, the mismatched line of the compare as poison (12 R293). -/
def lineMarked (off : Nat) (bs : List PByte) : Exec (List PByte) := do
  let bad := (← get).bad
  pure (if bad.isSome then bs.zipIdx.map fun (b, i) => (b.1, b.2 || inBadLine bad (off + i)) else bs)

/-- Writes a run into DST, as a delivery (08 R183; 11 R291). -/
def CollOp.place (o : CollOp) (d : Die) (off : Nat) (bs : List PByte) : Exec Unit := do
  match o.dst with
  | some b => delivering (writeFlat (b.tensor d) off (← lineMarked off bs))
  | none => pure ()

/-- Seal blocks of rows of `row` bytes that meet n bytes from flattened offset a, from their first to past their last byte. -/
def sealSpans (row a n : Nat) : List (Nat × Nat) :=
  if row = 0 || n = 0 then []
  else (List.range ((a + n - 1) / row + 1 - a / row)).flatMap fun i =>
    let base := (a / row + i) * row
    (List.range (ceilDiv row 512)).filterMap fun k =>
      let lo := base + 512 * k
      let hi := min (lo + 512) (base + row)
      if lo < a + n && a < hi then some (lo, hi) else none

/-- Neighbouring runs as one. -/
def joinSpans (l : List (Nat × Nat)) : List (Nat × Nat) :=
  l.foldr (fun e acc => match acc with
    | (lo, hi) :: rest => if e.2 = lo then (e.1, hi) :: rest else e :: acc
    | [] => [e]) []

/-- Places what has arrived of a contribution that begins at `base` of DST: every seal block that its bytes from `off` on
complete (11 R277). -/
def CollOp.placeRun (o : CollOp) (d : Die) (phase rank base off n : Nat) : Exec Unit :=
  let row := match o.dst with
    | some b => (descOf b.word).rowBytes
    | none => 0
  (joinSpans ((sealSpans row (base + off) n).filter fun e => (o.arrived phase rank (e.1 - base) (e.2 - base)).isSome)).forM fun e =>
    match o.arrived phase rank (e.1 - base) (e.2 - base) with
    | some bs => o.place d e.1 bs
    | none => pure ()

/-! ### Working copies (11 R284) -/

/-- Planes that the set at a base is given descriptors for: codes, scales and column sums of each piece. -/
def CtxSt.givenPlanes (x : CtxSt) (base : Nat) : List Nat :=
  (List.range 3).flatMap fun k => [1 + 2 * k, 2 + 2 * k, 9 + k].filter fun p =>
    let q := descOf (SMap.get 0 x.descs (base + p))
    q.loc ≠ 0 && q.plane = p + 1

/-- Bytes of a unit of 16 × 16 in the message: codes, scale and column sums of each plane given, then its seal. -/
def castUnitBytes (planes : List Nat) : Nat :=
  (planes.map fun p => if p % 2 = 1 && p < 9 then 128 else if 9 ≤ p then 16 else 1).foldl (· + ·) 0 + 4

/-- Spans of a unit in one plane. -/
def castSpans (g : SetShape) (p u : Nat) : List (Nat × Nat) := g.spans p u

/-- The message of a slice: its units in walk order, each with its seal, then the final header. -/
def castMessage (v : SetIn) (planes : List Nat) : Exec (List PByte) := do
  let s ← getS
  let unit := fun (u : Nat) =>
    let bad := v.hdrPoison || v.pairing.isSome || v.badUnits.contains u
    let body := planes.flatMap fun p => (castSpans v.g p u).flatMap fun (k, n) => (List.range n).map fun i =>
      match v.plane p with
      | some t => t.flatByte s (k + i)
      | none => (0 : Byte)
    let mark := match v.plane 1 with
      | some t => t.readBytes s (t.sealAt + 4 * u) 4
      | none => leBytes 4 0
    (body ++ mark).map fun b => (b, bad)
  return (List.range v.g.units).flatMap unit ++ (leBytes 32 v.hdr0.toNat).map fun b => (b, v.hdrPoison || v.pairing.isSome)

/-- Planes of the set at DST that the message fills, and one of them as a tensor. -/
def CollOp.castGiven (o : CollOp) : List Nat := (List.range 12).filter fun p => 1 ≤ p && (o.planes.getD p none).isSome
def CollOp.castPlane (o : CollOp) (d : Die) (p : Nat) : Option Tensor := (o.planes.getD p none).map fun (b : Bound) => b.tensor d

/-- Unit u of a slice arrives: its part of every plane, its seal, and its code bytes in the entry's count (06 R144, R145). -/
def CollOp.placeUnit (o : CollOp) (d : Die) (g : SetShape) (entry : Option Nat) (u : Nat) (bs : List PByte) : Exec Unit := do
  let _ ← o.castGiven.foldlM (fun (rest : List PByte) (p : Nat) => do
    let (run, rest) := (castSpans g p u).foldl (fun (acc : List (Nat × PByte) × List PByte) (e : Nat × Nat) =>
      (acc.1 ++ ((acc.2.take e.2).zipIdx.map fun (b, i) => (e.1 + i, b)), acc.2.drop e.2)) ([], rest)
    match o.castPlane d p with
    | some t => writePlane t g p run
    | none => pure ()
    pure rest) bs
  let mark := bs.drop (bs.length - 4)
  match o.castPlane d 1 with
  | some t => storeRun t (t.sealAt + 4 * u) (mark.map (·.1)) (mark.any (·.2))
  | none => pure ()
  match entry with
  | some e => modS fun s => s.updEntry d (ctxOf o.ctx) e fun y => if y.kind = 1 then { y with codeBytes := y.codeBytes + 128 } else y
  | none => pure ()

/-- Places the units of a slice, and its header, that the bytes from `off` on complete. -/
def CollOp.placeCast (o : CollOp) (d : Die) (g : SetShape) (rank off n : Nat) : Exec Unit := do
  let per := castUnitBytes o.castGiven
  let entry := match o.planes.getD 1 none with
    | some b => if (descOf b.word).paired then some (descOf b.word).entry else none
    | none => none
  (List.range g.units).forM fun u =>
    if per * u < off + n && off < per * (u + 1) then
      match o.arrived 0 rank (per * u) (per * (u + 1)) with
      | some bs => do o.placeUnit d g entry u (← lineMarked (per * u) bs)
      | none => pure ()
    else pure ()
  let end_ := per * g.units
  match o.castPlane d 0, o.arrived 0 rank end_ (end_ + 32) with
  | some t, some hdr => if end_ < off + n then do writeFlat t 0 (← lineMarked end_ hdr) else pure ()
  | _, _ => pure ()

/-- Rows and columns of the slice that a word names. -/
def CtxSt.sliceShape (x : CtxSt) (d : Die) (w : IWord) : Option SetShape :=
  match x.entry d (clEntry w) with
  | some e => match e.slice (clSlice w) with
    | some (lo, hi) => some { b16 := true, red := hi - lo, out := e.colsN }
    | none => none
  | none => none

/-! ### A contribution that is whole -/

/-- Block length of a reduction's result. -/
def CollOp.blockBytes (o : CollOp) (n : Nat) : Nat := if o.op = 6 then o.dstBytes / n else o.dstBytes

/-- Place of a reduction's element: from its offset in a contribution as it travels to its offset in the result. -/
def CollOp.resultAt (o : CollOp) (off : Nat) : Nat :=
  off / (fmtBits (wireFmt o.word o.dstFmt) / 8) * (fmtBits o.dstFmt / 8)

/-- This die's rank in the operation's group. -/
def State.rankHere (s : State) (d : Die) (g : BitVec 256) : Nat := (gRank s.fabDims g s.node d).getD 0

/-- The owner combines one chunk of all contributions; the result is kept, for DST and for the other members (11 R277, R280). -/
def CollOp.reduceChunk (o : CollOp) (d : Die) (g : BitVec 256) (lo hi : Nat) : Exec Unit := do
  let s ← getS
  let me := s.rankHere d g
  let wf := wireFmt o.word o.dstFmt
  match (List.range (gSize s.fabDims g)).mapM fun r => o.arrived 1 r lo hi with
  | none => pure ()
  | some parts =>
    let res := reduceBlock (clFunc o.word) wf o.dstFmt parts
    setNonfinite (blockNonfinite (clFunc o.word) o.dstFmt res)
    let at_ := o.resultAt lo
    let p : Piece := { phase := 2, rank := me, off := at_, bytes := res.map (·.1), poison := res.map (·.2) }
    modS fun s => s.updOp d o fun e => { e with pieces := e.pieces ++ [p] }
    match (← getS).opNow d o with
    | some o => o.placeRun d 2 me (if o.op = 6 then me * o.blockBytes (gSize s.fabDims g) else 0) at_ res.length
    | none => pure ()

/-- What bytes `off` to `off + n` of a contribution do when they have come (11 R277 to R280, R284). -/
def CollOp.effect (o : CollOp) (d : Die) (g : BitVec 256) (e : Expect) (off n : Nat) : Exec Unit := do
  let s ← getS
  let size := gSize s.fabDims g
  match o.op with
  | 3 | 8 => o.placeRun d e.phase e.rank (e.rank * (o.dstBytes / size)) off n
  | 6 | 7 =>
    if e.phase = 2 then o.placeRun d 2 e.rank (e.rank * o.blockBytes size) off n
    else (List.range (ceilDiv e.len e.chunk)).forM fun k =>
      let lo := k * e.chunk
      let hi := min e.len (lo + e.chunk)
      if lo < off + n && off < hi then o.reduceChunk d g lo hi else pure ()
  | 10 =>
    match (← getCtx).sliceShape d o.word with
    | some shape => delivering (o.placeCast d shape e.rank off n)
    | none => pure ()
  | _ => o.placeRun d e.phase e.rank 0 off n

/-- Every chunk of a reduction is combined: it has its result, and for CL.REDUCE multicasts it (11 R280). -/
def State.finishReduce (s : State) (d : Die) (o : CollOp) (g : BitVec 256) : State :=
  let me := s.rankHere d g
  let s := s.updOp d o fun e => { e with result := true, done := e.done ++ (if o.op = 6 then [(2, me)] else []) }
  if o.op = 6 then
    let res := (o.arrived 2 me 0 (o.blockBytes (gSize s.fabDims g))).getD []
    let q : Sender := { group := o.group, seq := o.seq, hash := o.hash.toNat % 256, ctx := o.ctx, instr := o.instr }
    (gDies g).foldl (fun st die => match st.castTo g d die with
      | .all e ms => if ms.isEmpty then st else st.sendBytes d q (.all e ms) 2 (clChunk o.word) res (fun _ => none)
      | .one _ _ => st) s
  else s

/-- Bytes of a contribution have come: they take their effect, and a contribution that is whole is complete. -/
def State.landed (s : State) (d : Die) (o : CollOp) (g : BitVec 256) (e : Expect) (off n : Nat) : State :=
  match s.opNow d o with
  | none => s
  | some o =>
    let s := s.inCl d o (o.effect d g e off n)
    if o.done.contains (e.phase, e.rank) || (o.arrived e.phase e.rank 0 e.len).isNone then s
    else
      let s := s.updOp d o fun q => { q with done := q.done ++ [(e.phase, e.rank)] }
      match s.opNow d o with
      | some q =>
        if (q.op = 6 || q.op = 7) && !q.result && (List.range (gSize s.fabDims g)).all fun r => q.done.contains (1, r) then
          s.finishReduce d q g
        else s
      | none => s

/-- Adds bytes to a contribution. -/
def State.addPiece (s : State) (d : Die) (o : CollOp) (g : BitVec 256) (e : Expect) (off : Nat) (bs : List PByte) : State :=
  (s.updOp d o fun o => { o with pieces := o.pieces ++ [{ phase := e.phase, rank := e.rank, off := off, bytes := bs.map (·.1), poison := bs.map (·.2) }] }).landed
    d o g e off bs.length

/-! ### Wide accumulators (11 R277) -/

/-- Chunks of SUM reductions that occupy wide accumulators: some other rank's bytes have come, and the result is not formed. -/
def State.openSums (s : State) (d : Die) : List (Nat × Nat × Nat) :=
  ((s.die d).ops.filter fun o => o.open_ && (o.op = 6 || o.op = 7) && clFunc o.word = 0).flatMap fun o =>
    match s.group o.group, o.expect.find? (·.phase = 1) with
    | some g, some e =>
      let me := s.rankHere d g
      (((o.pieces.filter fun q => q.phase = 1 && q.rank ≠ me).map fun q => q.off / e.chunk).eraseDups.filter fun k =>
        !(o.pieces.any fun q => q.phase = 2 && q.rank = me && q.off = o.resultAt (k * e.chunk))).map fun k => (o.ctx, o.instr, k)
    | _, _ => []

/-- A packet brings a third SUM chunk while two occupy the 8,192 accumulators. -/
def State.sumsFull (s : State) (d : Die) (o : CollOp) (p : Pkt) : Bool :=
  (o.op = 6 || o.op = 7) && clFunc o.word = 0 && p.cPhase = 1 &&
    (match o.expect.find? (·.phase = 1) with
    | some e =>
      let open_ := s.openSums d
      2 ≤ open_.length && !open_.contains (o.ctx, o.instr, p.cOffset / e.chunk)
    | none => false)

/-! ### Receiving (11 R273 to R276) -/

/-- A packet's bytes with their poison marks, flit by flit. -/
def markedBytes (p : Pkt) : List PByte := (p.payload.take p.bytes).zipIdx.map fun (b, i) => (b, bit p.poisonMap (i / 64))

/-- The whole offset of a packet, of which it carries 24 bits: the first such place that is not yet filled (log 35). -/
def CollOp.wholeOffset (o : CollOp) (e : Expect) (off : Nat) : Nat :=
  let filled := fun (a : Nat) => o.pieces.any fun q => q.phase = e.phase && q.rank = e.rank && q.off = a
  (((List.range (e.len / 2 ^ 24 + 1)).map fun k => off + k * 2 ^ 24).find? fun a => !filled a).getD off

/-- A COLL packet reaches the operation that it belongs to. -/
def State.applyColl (s : State) (d : Die) (o : CollOp) (g : BitVec 256) (p : Pkt) : State :=
  let c := ctxOf o.ctx
  let s := s.orVerdict c (p.verdict &&& 0xF)
  if p.aux ≠ o.hash.toNat % 256 then s.orderFaultBy d c (some o) 2 p
  else
    match gRank s.fabDims g p.src p.srcDie with
    | none => s.orderFaultBy d c (some o) 4 p
    | some r =>
      match o.expect.find? fun e => e.phase = p.cPhase && e.rank = r with
      | none => s.orderFaultBy d c (some o) 4 p
      | some e =>
        let off := o.wholeOffset e p.cOffset
        let bs := markedBytes p
        let start := off / e.chunk * e.chunk
        if o.done.contains (e.phase, e.rank) then s.orderFaultBy d c (some o) 4 p
        else if e.len ≤ off || p.msgLen ≠ min e.chunk (e.len - start) || start + p.msgLen < off + bs.length then s.orderFaultBy d c (some o) 5 p
        else if o.pieces.any fun q => q.phase = e.phase && q.rank = e.rank && q.off < off + bs.length && off < q.off + q.bytes.length then
          s.orderFaultBy d c (some o) 4 p
        else s.addPiece d o g e off bs

/-- Bytes of the early-arrival area that a context, or every context, occupies (R274). -/
def DieSt.parkedBytes (x : DieSt) (p : Parked → Bool) : Nat :=
  ((x.parked.filter fun q => p q && !q.taken).map (·.pkt.bytes)).foldl (· + ·) 0

/-- The context's share and the area have room for the packet. -/
def State.parkRoom (s : State) (d : Die) (c : Ctx) (p : Pkt) : Bool :=
  match s.ctx c with
  | some x => (s.die d).parkedBytes (·.ctx = c.val) + p.bytes ≤ 262144 * x.clSlots && (s.die d).parkedBytes (fun _ => true) + p.bytes ≤ 4194304
  | none => false

def State.park (s : State) (d : Die) (c : Ctx) (p : Pkt) : State :=
  (s.updDie d fun x => { x with parked := x.parked ++ [{ ctx := c.val, pkt := p, taken := false }] }).count d 0x802 0 (some c.val) p.bytes

/-! ### Gradient partials (11 R281 to R283, R422) -/

/-- The partial prefix's low half: bits [255:128] of the body. -/
def prefixOf (w : IWord) : Nat := fld w 255 128

/-- Prefix fields that name a tile: everything beside PEER. -/
def sameTile (a b : Nat) : Bool := a / 2 ^ 16 = b / 2 ^ 16

/-- The word whose tile fields a prefix holds. -/
def prefixWord (n : Nat) : IWord := BitVec.ofNat 256 (n * 2 ^ 128)

/-- Length of a row's unit and of the whole message, from the tile and the panel header. -/
def partialUnit (cols : Nat) (h : BitVec 256) : Nat := (hForm h + 1) * 9 * (cols / 16) + (if hOutliers h then 16 else 0)
def partialLen (w : IWord) (h : BitVec 256) : Nat := 64 + clRows w * (partialUnit (clCols w) h + 4)

/-- An open receipt matches a prefix. -/
def CollOp.matches (o : CollOp) (c group pfx : Nat) : Bool :=
  o.op = 5 && o.open_ && o.ctx = c && o.group = group && sameTile (prefixOf o.word) pfx

/-- Packets of one partial: the parked ones with its sender and number. -/
def DieSt.partialOf (x : DieSt) (p : Pkt) : List Pkt :=
  (x.parked.map (·.pkt)).filter fun q => q.ty = 5 && q.cPhase = 3 && q.src = p.src && q.srcDie = p.srcDie && q.cGroup = p.cGroup && q.cSeq = p.cSeq && q.ctx = p.ctx

/-- Prefix and header of a partial, when its first packet is there. -/
def headOfPartial (ps : List Pkt) : Option (Nat × BitVec 256 × Bool) :=
  (ps.find? (·.cOffset = 0)).map fun q => (leAt q.payload 0 16, wordOf 256 (slice q.payload 32 32), bit q.poisonMap 0)

/-- A chunk length that some CHUNK_SHIFT gives at this place. -/
def chunkFits (total off len : Nat) : Bool :=
  (List.range 8).any fun k => let c := 2 ^ (13 + k); decide (off < total) && decide (len = min c (total - off / c * c))

/-- What piece k adds to element j of a partial's row, in units of CS32, and whether it sets the flag: a block of 0xFF and an N4F
NaN code add nothing and set it (04 R80). -/
def partialPiece (h : BitVec 256) (cols : Nat) (unit : Array (Byte × Bool)) (j k : Nat) : Dyad × Bool :=
  let nb := cols / 16
  let at_ := fun (i : Nat) => (unit.getD i (0, false)).1.toNat
  let o := k * 9 * nb
  let b := at_ (o + 8 * nb + j / 16)
  if b = 0xFF then (Dyad.zero, true)
  else if b = 0 then (Dyad.zero, false)
  else match codeTwice (hCode h) ((at_ (o + j / 2) >>> (4 * (j % 2))) % 16) with
    | none => (Dyad.zero, true)
    | some c => ({ m := c * (bs8Kilo b : Int), e := -11 }, false)

/-- The outlier at element j of a row, if there is one (03 R66). -/
def partialOutlier (h : BitVec 256) (cols : Nat) (unit : Array (Byte × Bool)) (j : Nat) : Option (BitVec 32) :=
  if hOutliers h then
    let rec_ := wordOf 128 ((List.range 16).map fun i => (unit.getD ((hForm h + 1) * 9 * (cols / 16) + i) (0, false)).1)
    ((List.range 4).find? fun e => bit rec_ (96 + e) && fld rec_ (71 + 8 * e) (64 + 8 * e) = j).map fun e =>
      ofBf16 (BitVec.ofNat 16 (fld rec_ (15 + 16 * e) (16 * e)))
  else none

/-- Exact value of element j of a partial's row, in units of CS32, and whether it sets the non-finite flag. -/
def partialValue (h : BitVec 256) (cols : Nat) (unit : Array (Byte × Bool)) (j : Nat) : Dyad × Bool :=
  let base := (List.range (hForm h + 1)).foldl (fun (acc : Dyad × Bool) k =>
    let e := partialPiece h cols unit j k
    (acc.1.add e.1, acc.2 || e.2)) (Dyad.zero, false)
  match partialOutlier h cols unit j with
  | some v => (base.1.add (valF v), base.2)
  | none => base

/-- A value rounded half to even to a grid of 2^u, and whether it was not on it. -/
def toGrid (x : Dyad) (u : Int) : Int × Bool :=
  if u ≤ x.e then (x.scaleTo u, false)
  else let den := 2 ^ (u - x.e).toNat; (roundHalfEvenI x.m den, x.m % (den : Int) ≠ 0)

/-- One element that a partial adds: grid units, NaN, poison, rounded. -/
structure PartElem where
  t : Int
  nan : Bool
  poison : Bool
  rounded : Bool

/-- The units of a partial, each with its row number and its seal. -/
def partialRows (w : IWord) (h : BitVec 256) (bs : List PByte) : List (Nat × List PByte) :=
  List.zip (List.range (clRows w)) (chunksOf (partialUnit (clCols w) h + 4) (bs.drop 64))

/-- Seal that a unit brings, and the seal of its bytes. -/
def unitSeals (i : Nat) (row : List PByte) : Nat × Nat :=
  let n := row.length - 4
  (leNat ((row.drop n).map (·.1)), (sealOf i ((row.take n).map (·.1))).toNat)

/-- Units whose seal does not hold, with the two seals; a unit that holds poison is not checked (09 R214, R216). -/
def sealBreaks (w : IWord) (h : BitVec 256) (whole : Bool) (bs : List PByte) : List (Nat × Nat × Nat) :=
  (partialRows w h bs).filterMap fun (i, row) =>
    let (stored, want) := unitSeals i row
    if whole || row.any (·.2) || stored = want then none else some (i, stored, want)

/-- The elements of a partial against a grid unit 2^u. A unit with poison in it, or one of `badRows`, is poison. -/
def partialElems (w : IWord) (h : BitVec 256) (whole : Bool) (u : Int) (badRows : List Nat) (bs : List PByte) : List PartElem :=
  (partialRows w h bs).flatMap fun (i, row) =>
    let unit := (row.take (row.length - 4)).toArray
    let bad := whole || badRows.contains i || row.any (·.2)
    (List.range (clCols w)).map fun j =>
      if bad then { t := 0, nan := false, poison := true, rounded := false }
      else
        let (v, nan) := partialValue h (clCols w) unit j
        let (t, r) := toGrid (v.mul (valF (hCs32 h))) u
        if 2 ^ 57 ≤ t.natAbs then { t := 0, nan := true, poison := false, rounded := r } else { t := t, nan := nan, poison := false, rounded := r }

/-- Rows of a partial whose block tags do not follow the packets' first tags (R281). -/
def tagRows (w : IWord) (h : BitVec 256) (ps : List Pkt) : List Nat :=
  let per := partialUnit (clCols w) h + 4
  ps.flatMap fun p =>
    let first := (p.cOffset - 64) / per
    if p.tagValid && p.firstTag ≠ first * (clCols w / 16) % 256 then
      (List.range (clRows w)).filter fun i => first ≤ i && 64 + per * i < p.cOffset + p.bytes
    else []

/-- Adds a whole partial into the held half. -/
def Accum.addPartial (a : Accum) (es : List PartElem) : Accum :=
  let ts := es.map (·.t)
  let sums := (groupsOf ts).map sumI
  { a with
    regs := addLists a.regs ts, nonfinite := orLists a.nonfinite (es.map (·.nan)), poison := orLists a.poison (es.map (·.poison))
    expected := addLists a.expected sums, blockSums := addLists a.blockSums sums, promoted := addLists a.promoted sums, count := a.count + 1 }

/-- Exponent of the grid unit from a scale set's CS32 = 2^s: 2s − 22. -/
def gridExp (cs : BitVec 32) : Int := 2 * ((fld cs 30 23 : Int) - 127) - 22

/-- A scale set's header serves: unrotated and CS32 a power of two (R282). -/
def scaleHeaderOk (h : BitVec 256) : Bool :=
  hRotR h = 0 && hRotO h = 0 && !hBusy h && fld (hCs32 h) 22 0 = 0 && !bit (hCs32 h) 31 && fld (hCs32 h) 30 23 ≠ 0 && fld (hCs32 h) 30 23 ≠ 255

/-- A whole partial enters its receipt. -/
def State.takePartial (s : State) (d : Die) (o : CollOp) (rank : Nat) (h : BitVec 256) (whole : Bool) (ps : List Pkt) : State :=
  let bs := (sortBy (·.cOffset) ps).flatMap markedBytes
  let s := ps.foldl (fun st p => st.orVerdict (ctxOf o.ctx) (p.verdict &&& 0xF)) s
  let s := s.updDie d fun x => { x with parked := x.parked.filter fun q => !ps.contains q.pkt }
  let s := s.updOp d o fun e => { e with done := e.done ++ [(3, rank)] }
  match (s.die d).accs.find? fun a => a.ctx = o.ctx && a.phase = .receipt && a.logical = clArray o.word && a.bank = clBank o.word with
  | none => s
  | some a =>
    let bad := tagRows o.word h ps
    let broken := sealBreaks o.word h whole bs
    let es := partialElems o.word h whole (gridExp (hCs32 (a.aHdrs.headD 0))) (bad ++ broken.map (·.1)) bs
    let s := s.updDie d fun x => x.putAcc a (some (a.addPartial es))
    let s := if es.any (·.rounded) then s.count d 0x804 0 (some o.ctx) else s
    let s := if bad.isEmpty then s else s.inCl d o (raisePairing { reason := 1, first := clAux o.word, second := clAux o.word, block := bad.headD 0 * (clCols o.word / 16), valA := 0, valB := 0 })
    let s := if broken.isEmpty then s else s.inCl d o (broken.forM fun (i, stored, want) =>
      raiseMemory { cls := 2, reason := 12, unit := 7, valueB := clAux o.word + 2 ^ 32 * i, valueC := stored, valueD := want })
    if es.any (·.poison) then s.inCl d o setTainted else s

/-- One rank's partials against an open receipt: faults, or the partial enters when it is whole (R422). -/
def State.fillRank (s : State) (d : Die) (o : CollOp) (g : BitVec 256) (rank : Nat) : State :=
  match s.opNow d o with
  | none => s
  | some o =>
    let (node, die) := gMember s.fabDims g rank
    let mine := ((s.die d).parked.map (·.pkt)).filter fun q => q.ty = 5 && q.cPhase = 3 && q.src = node && q.srcDie = die && q.cGroup = o.group && q.ctx = o.ctx
    let firsts := mine.filter fun q => q.cOffset = 0 && sameTile (prefixOf o.word) (leAt q.payload 0 16)
    match firsts with
    | [] => s
    | p :: more =>
      let ps := mine.filter (·.cSeq = p.cSeq)
      match headOfPartial ps with
      | none => s
      | some (_, h, whole) =>
        let total := partialLen o.word h
        let s := s.updDie d fun x => { x with parked := x.parked.map fun q => if ps.contains q.pkt then { q with taken := true } else q }
        if o.done.contains (3, rank) || !more.isEmpty then s.orderFaultBy d (ctxOf o.ctx) (some o) 4 p
        else match ps.find? fun q => !chunkFits total q.cOffset q.msgLen with
          | some q => s.orderFaultBy d (ctxOf o.ctx) (some o) 5 q
          | none => if (ps.map (·.bytes)).foldl (· + ·) 0 = total then s.takePartial d o rank h whole ps else s

/-- Every open receipt takes what has come for it. -/
def State.fillReceipts (s : State) (d : Die) : State :=
  ((s.die d).ops.filter fun o => o.op = 5 && o.open_).foldl (fun st o =>
    match st.group o.group with
    | some g => (List.range (gSize st.fabDims g)).foldl (fun st r => st.fillRank d o g r) st
    | none => st) s

/-- The first arrival of a partial: the owner's own commit entries, and the written map (06 R152; 11 R283, R290). -/
def State.partialFault (s : State) (d : Die) (c : Ctx) (w : IWord) : Option FaultInfo :=
  match s.ctx c with
  | none => none
  | some x =>
    match x.entry d (clEntry w) with
    | none => some { (commitInfo 5 (clEntry w) (clSlice w)) with unit := 7 }
    | some e =>
      match e.slice (clSlice w) with
      | none => some { (commitInfo 5 (clEntry w) (clSlice w)) with unit := 7 }
      | some (lo, hi) =>
        if e.kind ≠ 0 then some { (commitInfo 5 (clEntry w) (clSlice w)) with unit := 7 }
        else if hi - lo < clTileRow w + clRows w || e.colsN < clTileCol w + clCols w then some { cls := 4, reason := 5, unit := 7, valueB := clEntry w }
        else if e.mark (clSlice w) ≠ mapNone then some { (commitInfo 1 (clEntry w) (clSlice w)) with unit := 7 }
        else none

/-- How the unit answers a packet. -/
inductive CollAnswer where
  | taken (s : State)
  /-- NAK with a reason of Table 10.7 -/
  | refused (reason : Nat) (s : State)

/-- A packet with PHASE PARTIAL. -/
def State.partialArrives (s : State) (d : Die) (c : Ctx) (g : BitVec 256) (p : Pkt) : CollAnswer :=
  let pfx := if p.cOffset = 0 then some (leAt p.payload 0 16) else (headOfPartial ((s.die d).partialOf p)).map (·.1)
  let receipt := pfx.bind fun n => (s.die d).ops.find? fun o => o.matches c p.cGroup n
  if (gRank s.fabDims g p.src p.srcDie).isNone then .taken (s.orderFaultBy d c receipt 4 p)
  else if receipt.isNone && !s.parkRoom d c p then .refused 2 (s.count d 0x803 0 (some c.val))
  else
    let fault := if p.cOffset = 0 then s.partialFault d c (prefixWord (leAt p.payload 0 16)) else none
    match fault with
    | some f => .taken (s.stopFault d c 0 f)
    | none =>
      let s := if receipt.isSome then s.updDie d fun x => { x with parked := x.parked ++ [{ ctx := c.val, pkt := p, taken := true }] } else s.park d c p
      .taken ((s.fillReceipts d).settle d)

/-- A parked payload whose operation is open and has room for it (R274, R277). -/
def State.readyParked (s : State) (d : Die) : Option (Parked × CollOp × BitVec 256) :=
  (s.die d).parked.findSome? fun q =>
    if q.pkt.ty ≠ 5 || q.pkt.cPhase = 3 then none
    else match (s.die d).ops.find? (fun o => o.open_ && o.op ≠ 5 && o.ctx = q.ctx && o.group = q.pkt.cGroup && o.seq % 4096 = q.pkt.cSeq), s.group q.pkt.cGroup with
      | some o, some g => if s.sumsFull d o q.pkt then none else some (q, o, g)
      | _, _ => none

/-- Delivers parked payloads as if they had just arrived, by fuel. -/
def State.readmit (d : Die) : Nat → State → State
  | 0, s => s
  | n + 1, s => match s.readyParked d with
    | none => s
    | some (q, o, g) => State.readmit d n ((s.updDie d fun x => { x with parked := x.parked.erase q }).applyColl d o g q.pkt)

/-- Delivers every parked payload that has its place now. -/
def State.unpark (s : State) (d : Die) : State := State.readmit d (s.die d).parked.length s

/-- Parks a packet, or refuses it (R274). -/
def State.parkOrRefuse (s : State) (d : Die) (c : Ctx) (p : Pkt) : CollAnswer :=
  if s.parkRoom d c p then .taken (s.park d c p) else .refused 2 (s.count d 0x803 0 (some c.val))

/-- The unit answers a COLL packet (11 R270, R274, R275, R277). -/
def State.offerColl (s : State) (d : Die) (p : Pkt) : CollAnswer :=
  let c := ctxOf p.ctx
  match s.ctx c, s.group p.cGroup with
  | some x, some g =>
    if gCtx g ≠ c.val || !(gDies g).contains d.val then .refused 8 s
    else if x.stopped.isSome then .refused 2 (s.count d 0x803 0 (some c.val))
    else if p.cPhase = 3 then s.partialArrives d c g p
    else
      match (s.die d).ops.find? fun o => o.open_ && o.op ≠ 5 && o.ctx = c.val && o.group = p.cGroup && o.seq % 4096 = p.cSeq with
      | some o =>
        if s.sumsFull d o p then s.parkOrRefuse d c p else .taken ((((s.applyColl d o g p).unpark d).pump d).settle d)
      | none =>
        let ahead := (p.cSeq + 4096 - SMap.get 0 (s.die d).groupSeq p.cGroup % 4096) % 4096
        if 2048 ≤ ahead then .taken (s.count d 0x70C 0 (some c.val))
        else if 255 ≤ ahead then .taken (s.orderFaultBy d c none 3 p)
        else s.parkOrRefuse d c p
  | _, _ => .refused 8 s

/-- A die's own partials go from their sender to their receipt without the fabric; one that finds no room waits (R279, R422). -/
def State.localPartials (s : State) (d : Die) : State :=
  ((s.die d).unacked.filter (s.isLocal d)).foldl (fun st k => match st.offerColl d k.pkt with
    | .taken t => t.updDie d fun x => { x with unacked := x.unacked.erase k }
    | .refused _ _ => st) s

end Sys2Proof.Machine
end

