-- ==== Sys2Proof/Machine/ClOps.lean ====
section
/-! DEFINITION. The CL instructions and the express path (11 R279 to R287; Tables 11.4, 11.6). -/
namespace Sys2Proof.Machine

/-! ### Opening an operation (11 R271, R273) -/

/-- Number of an issuing instruction on its stream. -/
def runNum : Exec Nat := do return (← get).fl.num

/-- Opens a slot: the operation takes the next number of its group, but for CL.GRADRECV. -/
def openColl (w : IWord) (op : Nat) (hash : BitVec 32) (dst : Option Bound) (planes : List (Option Bound)) (expect : List Expect)
    (pieces : List Piece) (result : Bool) : Exec CollOp := do
  let r ← get
  let seq := SMap.get 0 (r.s.die r.d).groupSeq (clGroup w)
  let o : CollOp := { ctx := r.c, group := clGroup w, op := op, seq := seq, word := w, addr := r.addr, instr := r.fl.num, hash := hash
                      open_ := true, expect := expect, pieces := pieces, done := [], dst := dst, planes := planes, result := result
                      express := [], outputs := [] }
  modS fun s => s.updDie r.d fun x => { x with
    ops := x.ops ++ [o], groupSeq := if op = 5 then x.groupSeq else SMap.put 0 x.groupSeq (clGroup w) (seq + 1) }
  modify fun r => { r with fl := { r.fl with collWait := true } }
  pure o

def CollOp.sender (o : CollOp) : Sender := { group := o.group, seq := o.seq, hash := o.hash.toNat % 256, ctx := o.ctx, instr := o.instr }

/-- An own contribution, which nothing sends. -/
def ownPiece (phase rank : Nat) (bs : List PByte) : Piece := { phase := phase, rank := rank, off := 0, bytes := bs.map (·.1), poison := bs.map (·.2) }

/-- Sends a contribution to a rank other than the own one. -/
def sendRank (o : CollOp) (g : BitVec 256) (me rank phase chunk : Nat) (bs : List PByte) (tag : Nat → Option Nat) : Exec Unit := do
  let r ← get
  if rank = me && phase ≠ 3 then pure ()
  else
    let (node, die) := gMember r.s.fabDims g rank
    modS fun s => s.sendBytes r.d o.sender (.one node die) phase chunk bs tag

/-- Multicasts once for each die of the group that some member device has to receive on. -/
def castAll (o : CollOp) (g : BitVec 256) (phase chunk : Nat) (bs : List PByte) (tag : Nat → Option Nat) : Exec Unit := do
  let r ← get
  (gDies g).forM fun die => match r.s.castTo g r.d die with
    | .all e ms => if ms.isEmpty then pure () else modS fun s => s.sendBytes r.d o.sender (.all e ms) phase chunk bs tag
    | .one _ _ => pure ()

/-! ### The data operations (11 R279) -/

/-- Bytes of a source, the mismatched line of the compare as poison (12 R293; log 122). Infinities and NaNs of E5M2 set the
flag (02 R38). -/
def readSource (t : Tensor) : Exec (List PByte) := do
  let bs ← readFlat t
  setNonfinite (t.q.fmt = 3 && bs.any fun b => !b.2 && !wideFinite 3 b.1.toNat)
  lineMarked 0 bs

/-- A die that only receives keeps the mismatched line for its writes (log 122). -/
def holdLine : Exec Unit := modify fun r => { r with fl := { r.fl with badLine := r.bad } }

/-- Block j of n of a source. -/
def blockOf (n j : Nat) (bs : List PByte) : List PByte := (bs.drop (j * (bs.length / n))).take (bs.length / n)

/-- The table of CL.PERMUTE: its entries, and whether some of them are poison. -/
def readTable (w : IWord) (n : Nat) : Exec (List Nat × Bool) := do
  let t ← resolve (clAux w) { fmts := [4], far := true }
  shapeIf (t.q.elems = n) (clAux w)
  let es := (← readElems t).flatten
  let vs := es.map (·.1)
  shapeIf ((List.range n).all fun i => vs.contains i) (clAux w)
  pure (vs, es.any (·.2))

/-- Formats of a reduction kind (11 Table 11.5). -/
def kindFmts (func : Nat) : List Nat :=
  match func with
  | 0 => [0, 1]
  | 1 | 2 => [0, 1, 4]
  | 3 => [4]
  | _ => [6]

/-- Contributions are converted once into the wire format as they leave the die (11 R289). -/
def toWire (fmt wf : Nat) (bs : List PByte) : List PByte :=
  if fmt = wf then bs
  else bytesOfElems (fmtBits wf) ((elemsOf (fmtBits fmt) (bs.length / (fmtBits fmt / 8)) bs).map fun e => (f32ToWide wf (wideToF32 fmt e.1), e.2))

/-- Source, destination and shape of a data operation. -/
structure DataIn where
  dst : Bound
  bytes : List PByte
  fmt : Nat

/-- Opens SRC and DST of a data operation and reads SRC (log 36). -/
def openData (w : IWord) (op n : Nat) : Exec DataIn := do
  let a ← resolve (clSrc w) { far := true }
  let dst ← bindDesc (clDst w) { far := true }
  let q := descOf dst.word
  shapeIf (a.q.fmt = q.fmt) (clDst w)
  match op with
  | 1 | 2 | 3 | 6 => shapeIf (sameExtents a.q q) (clDst w)
  | 7 => shapeIf (a.q.e0 = q.e0 && a.q.rows = n * q.rows) (clDst w)
  | _ => shapeIf (a.q.e0 = q.e0 && q.rows = n * a.q.rows) (clDst w)
  if op = 3 || op = 6 then shapeIf (a.q.rows % n = 0) (clSrc w)
  if op = 6 || op = 7 then
    shapeIf ((kindFmts (clFunc w)).contains q.fmt && (clFunc w ≠ 4 || q.e0 % 16 = 0)) (clDst w)
  pure { dst := dst, bytes := ← readSource a, fmt := a.q.fmt }

/-- CL.SHIFT, CL.PERMUTE, CL.ALLTOALL, CL.REDUCE, CL.REDUCE_SCATTER, CL.GATHER. -/
def clDataBody (w : IWord) (op : Nat) (g : BitVec 256) : Exec Unit := do
  let r ← get
  let dims := r.s.fabDims
  let n := gSize dims g
  let me := (gRank dims g r.s.node r.d).getD 0
  let x ← openData w op n
  let hash := opHash w op x.fmt x.bytes.length
  let len := x.bytes.length
  match op with
  | 1 =>
    let off := sfld w 143 128
    let dest := ((me : Int) + off) % (n : Int)
    let src := ((me : Int) - off) % (n : Int)
    let o ← openColl w op hash x.dst [] [{ phase := 0, rank := src.toNat, len := len, chunk := clChunk w }]
      (if dest.toNat = me then [ownPiece 0 me x.bytes] else []) true
    sendRank o g me dest.toNat 0 (clChunk w) x.bytes (fun _ => none)
  | 2 =>
    let (t, bad) ← readTable w n
    let bs := x.bytes.map fun b => (b.1, b.2 || bad)
    let dest := t.getD me 0
    let o ← openColl w op hash x.dst [] [{ phase := 0, rank := (t.findIdx? (· = me)).getD 0, len := len, chunk := clChunk w }]
      (if dest = me then [ownPiece 0 me bs] else []) true
    sendRank o g me dest 0 (clChunk w) bs (fun _ => none)
  | 3 =>
    let o ← openColl w op hash x.dst [] ((List.range n).map fun j => { phase := 0, rank := j, len := len / n, chunk := clChunk w })
      [ownPiece 0 me (blockOf n me x.bytes)] true
    (List.range n).forM fun j => sendRank o g me j 0 (clChunk w) (blockOf n j x.bytes) (fun _ => none)
  | 8 =>
    let o ← openColl w op hash x.dst [] ((List.range n).map fun j => { phase := 0, rank := j, len := len, chunk := clChunk w })
      [ownPiece 0 me x.bytes] true
    castAll o g 0 (clChunk w) x.bytes (fun _ => none)
  | _ =>
    let wf := wireFmt w x.fmt
    let blocks := (List.range n).map fun j => toWire x.fmt wf (blockOf n j x.bytes)
    let chunk := if clFunc w = 0 then min (clChunk w) (4096 * (fmtBits wf / 8)) else clChunk w
    let own := blocks.getD me []
    let contrib := (List.range n).map fun j => ({ phase := 1, rank := j, len := own.length, chunk := chunk } : Expect)
    let results := if op = 6 then (List.range n).map fun j => ({ phase := 2, rank := j, len := len / n, chunk := clChunk w } : Expect) else []
    let o ← openColl w op hash x.dst [] (contrib ++ results) [ownPiece 1 me own] false
    (List.range n).forM fun j => sendRank o g me j 1 chunk (blocks.getD j []) (fun _ => none)

/-- CL.BCAST: the root multicasts SRC and copies it to its own DST. -/
def clBcastBody (w : IWord) (g : BitVec 256) : Exec Unit := do
  let r ← get
  let me := (gRank r.s.fabDims g r.s.node r.d).getD 0
  let dst ← bindDesc (clDst w) { far := true }
  let q := descOf dst.word
  let len := q.rowBytes * q.rows
  let hash := opHash w 9 q.fmt len
  let expect : List Expect := [{ phase := 0, rank := clPeer w, len := len, chunk := clChunk w }]
  if me = clPeer w then
    let a ← resolve (clSrc w) { far := true, area := .given (clArea w) }
    shapeIf (a.q.fmt = q.fmt && a.q.e0 = q.e0 && a.q.rows = q.rows) (clDst w)
    let bs ← readSource a
    let o ← openColl w 9 hash dst [] expect [ownPiece 0 me bs] true
    castAll o g 0 (clChunk w) bs (fun _ => none)
  else
    holdLine
    let _ ← openColl w 9 hash dst [] expect [] true

/-! ### Gradient partials (11 R281, R282) -/

/-- Conditions of R281 on a set beside those that opening it checks. -/
def partialOk (v : SetIn) (w : IWord) : Bool :=
  panelCount (hShift v.hdr0) v.g.out = 1 && v.g.red = clCols w && v.g.out = clRows w && hCode v.hdr0 ≤ 1 && hRotR v.hdr0 = 0 &&
    !hColsum v.hdr0

/-- CL.GRADSEND: prefix, header and units of one partial to the owner. -/
def clGradsendBody (w : IWord) (g : BitVec 256) : Exec Unit := do
  let r ← get
  let me := (gRank r.s.fabDims g r.s.node r.d).getD 0
  let v ← openSet (clSrc w) { role := some false, far := true }
  let breach : Option Pairing := if v.hdrPoison then none else v.pairing <|>
    (if partialOk v w then none
    else some { reason := 8, first := clSrc w, second := clSrc w, block := 0, valA := v.hdr0.toNat % 2 ^ 64, valB := 0 })
  let sound := breach.isNone && !v.hdrPoison
  let v ← if sound then readUnits v (0, v.g.out) (0, v.g.red) else pure v
  let breach := breach <|> (if v.hdrPoison then none else v.pairing)
  match breach with
  | some p => raisePairing p
  | none => pure ()
  if v.hdrPoison then setTainted
  let s ← getS
  let whole := breach.isSome || v.hdrPoison
  let h := v.hdr0
  let per := partialUnit (clCols w) h
  let unit := fun (i : Nat) =>
    let bytes := if sound then padTo per (v.unitBytes s i) else List.replicate per (0 : Byte)
    let mark := match v.plane 1 with
      | some t => if sound then t.readBytes s (t.sealAt + 4 * i) 4 else leBytes 4 0
      | none => leBytes 4 0
    (bytes ++ mark).map fun b => (b, whole || v.badUnits.contains i || inBadLine r.bad (i * per))
  let msg := (leBytes 32 (prefixOf w)).map (fun b => (b, false)) ++ (leBytes 32 h.toNat).map (fun b => (b, whole)) ++
    (List.range (clRows w)).flatMap unit
  let o ← openColl w 4 0 none [] [] [] true
  sendRank o g me (clPeer w) 3 (clChunk w) msg (fun off => some ((if off < 64 then 0 else (off - 64) / (per + 4) * (clCols w / 16)) % 256))

/-- CL.GRADRECV opens its bank half for the partials of every rank. -/
def clGradrecvBody (w : IWord) (g : BitVec 256) : Exec Unit := do
  let r ← get
  let n := gSize r.s.fabDims g
  match r.s.partialFault r.d r.c (BitVec.ofNat 256 (prefixOf w * 2 ^ 128)) with
  | some f => if f.sub = 1 then pure () else trap f
  | none => pure ()
  shapeIf (n ≤ 16384) (clAux w)
  let phys ← physNow (clArray w)
  if ((r.s.die r.d).ownAcc r.c (clArray w) (clBank w) (fun p => p = .held)).isSome then accFault 2 (clArray w)
  let v ← openSet (clAux w) { far := true }
  let good := scaleHeaderOk v.hdr0 && v.pairing.isNone && panelCount (hShift v.hdr0) v.g.out = 1
  if v.hdrPoison then setTainted
  else if !good then
    raisePairing { reason := 8, first := clAux w, second := clAux w, block := 0, valA := v.hdr0.toNat % 2 ^ 64, valB := 0 }
  evict phys (clBank w)
  evictOwn phys (clBank w) (clArray w)
  let a := Accum.clear r.c phys (clArray w) (clBank w) (clRows w) (clCols w) false 0
  let a := { a with phase := .receipt, partials := true, aHdrs := [v.hdr0], poison := a.poison.zipIdx.map fun e => v.hdrPoison || !good || inBadLine r.bad (4 * e.2) }
  modS fun s => s.updDie r.d fun x => { x with accs := x.accs ++ [a] }
  let _ ← openColl w 5 0 none [] ((List.range n).map fun j => { phase := 3, rank := j, len := 0, chunk := 1 }) [] true

/-! ### CL.SETCAST (11 R284) -/

/-- The planes of the set at DST as the instruction takes them. -/
def bindCast (base : Nat) (g : SetShape) : Exec (List (Option Bound)) := do
  let x ← getCtx
  let given := x.givenPlanes base
  shapeIf (given.contains 1 && given.contains 2) base
  (List.range 12).mapM fun p =>
    if p = 0 || given.contains p then do
      let b ← bindDesc (base + p) { plane := p + 1, fmts := if p = 1 then [8, 9] else if p = 3 || p = 5 then [9] else [6]
                                    sealing := if p ≤ 1 then 1 else 2, area := .inactive, far := true
                                    seals := if p = 1 then some g.units else none }
      let q := descOf b.word
      shapeIf (g.planeBytes p 1 ≤ q.rowBytes * q.rows) (base + p)
      exactRows base p g q
      pure (some b)
    else pure none

def clSetcastBody (w : IWord) (g : BitVec 256) : Exec Unit := do
  let r ← get
  let x ← getCtx
  let me := (gRank r.s.fabDims g r.s.node r.d).getD 0
  match x.sliceShape r.d w with
  | none => trap { (commitInfo 5 (clEntry w) (clSlice w)) with unit := 7 }
  | some shape =>
    let planes ← bindCast (clDst w) shape
    let given := x.givenPlanes (clDst w)
    let per := castUnitBytes given
    let len := per * shape.units + 32
    let fmt := (descOf (SMap.get 0 x.descs (clDst w + 1))).fmt
    let hash := opHash w 10 fmt len
    let expect : List Expect := [{ phase := 0, rank := clPeer w, len := len, chunk := clChunk w }]
    if me = clPeer w then
      let v ← openSet (clSrc w) { role := some true, far := true, area := .given (clArea w) }
      if !v.hdrPoison then shapeIf (v.g.red = shape.red && v.g.out = shape.out) (clSrc w)
      match v.pairing with
      | some p => raisePairing p
      | none => pure ()
      let v ← if v.hdrPoison || v.pairing.isSome then pure v else readUnits v (0, v.g.out) (0, v.g.red)
      if v.hdrPoison then setTainted
      let msg ← castMessage { v with g := shape } given
      let bs ← lineMarked 0 msg
      let o ← openColl w 10 hash none planes expect [ownPiece 0 me bs] true
      castAll o g 0 (clChunk w) bs (fun off => some (off / per % 256))
    else
      holdLine
      let _ ← openColl w 10 hash none planes expect [] true

/-! ### The express path (11 R285, R286) -/

/-- Lanes of 64 bytes. -/
def lanes (width : Nat) (v : BitVec 512) : List Nat := (List.range (512 / width)).map fun i => (v.toNat >>> (width * i)) % 2 ^ width

def unlanes (width : Nat) (l : List Nat) : BitVec 512 := pack 512 (l.map fun v => (v, width))

/-- Table 11.6. -/
def expressPair (func : Nat) (a b : BitVec 512) : BitVec 512 :=
  let zip := fun (width : Nat) (f : Nat → Nat → Nat) => unlanes width ((List.zip (lanes width a) (lanes width b)).map fun e => f e.1 e.2)
  let fp := fun (f : BitVec 32 → BitVec 32 → BitVec 32) (x y : Nat) => (f (BitVec.ofNat 32 x) (BitVec.ofNat 32 y)).toNat
  match func with
  | 0 => a ||| b
  | 1 => zip 32 (satAdd 32)
  | 2 => zip 64 (satAdd 64)
  | 3 => zip 32 max
  | 4 => zip 32 (fp fmax)
  | _ => zip 32 (fp fmin)

/-- A value and its poison mark. -/
abbrev EVal := BitVec 512 × Bool

def combineVals (func : Nat) (a : EVal) (l : List ExpVal) : EVal :=
  l.foldl (fun acc e => (expressPair func acc.1 e.val, acc.2 || e.poison)) a

/-- A dimension's run of member coordinates: its members in order, and whether it closes into a ring. -/
structure RunOf where
  dim : Nat
  coords : List Nat
  ring : Bool
  deriving DecidableEq, Repr

/-- The runs of a group, one for each dimension with more than one coordinate, in sweep order. -/
def groupRuns (dims : List Nat) (g : BitVec 256) : List RunOf :=
  (List.range 4).filterMap fun k =>
    let cs := gCoords dims g k
    let d := dims.getD k 1
    if cs.length ≤ 1 then none
    else if cs.length = d then some { dim := k, coords := cs, ring := true }
    else
      let start := (cs.find? fun c => !cs.contains ((c + d - 1) % d)).getD 0
      some { dim := k, coords := (List.range cs.length).map fun i => (start + i) % d, ring := false }

/-- The next member of a run from position i in a direction, for a value that began at position o. -/
def RunOf.onward (r : RunOf) (o i : Nat) (pos : Bool) : Option Nat :=
  let n := r.coords.length
  if r.ring then
    if pos then (if (i + 1 + n - o) % n ≤ n / 2 && (i + 1 + n - o) % n ≠ 0 then some ((i + 1) % n) else none)
    else (if (o + n + 1 - i) % n ≤ (n - 1) / 2 && (o + n + 1 - i) % n ≠ 0 then some ((i + n - 1) % n) else none)
  else if pos then (if i + 1 < n then some (i + 1) else none)
  else (if 0 < i then some (i - 1) else none)

/-- The values of a stage, the own one among them, combined in the order of their coordinates, which is the same for every member
(11 R288; log 37). -/
def stageValue (func : Nat) (got : List ExpVal) (me : Nat) (cur : EVal) : EVal :=
  let own : ExpVal := { stage := 0, origin := me, val := cur.1, poison := cur.2 }
  match sortBy (·.origin) (own :: got) with
  | [] => cur
  | a :: rest => combineVals func (a.val, a.poison) rest

/-- The stages that the device at some coordinates has entered, with its own value in each, and the reduced value once all are
over. -/
def expressStages (func : Nat) (vals : List ExpVal) (here : List Nat) : List RunOf → EVal → List (Nat × EVal) × Option EVal
  | [], cur => ([], some cur)
  | r :: rest, cur =>
    let got := vals.filter (·.stage = r.dim)
    if got.length + 1 = r.coords.length then
      let more := expressStages func vals here rest (stageValue func got (here.getD r.dim 0) cur)
      ((r.dim, cur) :: more.1, more.2)
    else ([(r.dim, cur)], none)

/-- The die that runs the stages of its device: the lowest member die (log 37). -/
def stageDie (g : BitVec 256) : Die := dieOf ((gDies g).headD 0)

/-- The express operation of a die with a number. -/
def State.expressOp (s : State) (d : Die) (c group seq : Nat) : Option CollOp :=
  (s.die d).ops.find? fun o => o.op = 11 && o.open_ && o.ctx = c && o.group = group && o.seq = seq

/-- The value of the device's dies, once every member die has contributed. -/
def State.deviceValue (s : State) (g : BitVec 256) (c group seq func : Nat) : Option EVal :=
  let own := (gDies g).map fun d => (s.expressOp (dieOf d) c group seq).bind fun o => o.express.find? (·.stage = 4)
  if own.all (·.isSome) then
    match own.filterMap (fun e => e) with
    | [] => none
    | a :: rest => some (combineVals func (a.val, a.poison) rest)
  else none

/-- Node of a run's member, seen from this device. -/
def State.runNode (s : State) (r : RunOf) (i : Nat) : Nat :=
  numberOf s.fabDims ((coordsOf s.fabDims s.node).set r.dim (r.coords.getD i 0))

/-- This device's position in a run. -/
def State.runPos (s : State) (r : RunOf) : Nat := ((r.coords).findIdx? (· = (coordsOf s.fabDims s.node).getD r.dim 0)).getD 0

/-- Sends the device's own value of a stage both ways. What it forwarded in an earlier stage is not sent again (R286). -/
def State.sendStage (s : State) (d : Die) (o : CollOp) (r : RunOf) (v : EVal) : State :=
  let i := s.runPos r
  let s := s.updOp d o fun e => { e with done := e.done ++ [(5, r.dim)], outputs := e.outputs.filter fun p => r.dim ≤ p.aux / 16 % 4 }
  [true, false].foldl (fun st pos => match r.onward i i pos with
    | none => st
    | some j =>
      let h : Head := { ty := 6, dst := st.runNode r j, src := st.node, dstDie := d, srcDie := d, ctx := o.ctx, msgLen := 64
                        addr := o.group + (o.seq % 4096) * 2 ^ 8 + 4 * 2 ^ 44, aux := clFunc o.word + r.dim * 16 + (if pos then 0 else 64) }
      let k := srcOf (h.data (leBytes 64 v.1.toNat) (List.replicate 64 v.2) 0 none) o.ctx o.instr []
      let key := seqKeyOf k.pkt
      let seq := SMap.get 0 (st.die d).nextSeq key
      let p := st.stampPkt k seq
      let st := st.updDie d fun x => { x with nextSeq := SMap.put 0 x.nextSeq key ((seq + 1) % 65536) }
      ((st.updOp d o fun e => { e with outputs := e.outputs ++ [p] }).route none p)) s

/-- Goes on with an express operation of this device: stages that begin are sent, and the reduced value is returned to the
dies. -/
def State.expressAdvance (s : State) (g : BitVec 256) (c group seq : Nat) : State :=
  let d := stageDie g
  match s.expressOp d c group seq with
  | none => s
  | some o =>
    match s.deviceValue g c group seq (clFunc o.word) with
    | none => s
    | some v =>
      let runs := groupRuns s.fabDims g
      let (entered, final) := expressStages (clFunc o.word) (o.express.filter (·.stage < 4)) (coordsOf s.fabDims s.node) runs v
      let s := entered.foldl (fun st e =>
        if o.done.contains (5, e.1) then st
        else match runs.find? (·.dim = e.1) with
          | some r => st.sendStage d o r e.2
          | none => st) s
      match final with
      | none => s
      | some v => (gDies g).foldl (fun st k => match st.expressOp (dieOf k) c group seq with
        | some q =>
          let st := st.updOp (dieOf k) q fun e => { e with result := true }
          (st.inCl (dieOf k) q (q.place (dieOf k) 0 ((leBytes 64 v.1.toNat).map fun b => (b, v.2)))).settle (dieOf k)
        | none => st) s

/-- CL.EXPRESS contributes the die's 64 bytes. -/
def clExpressBody (w : IWord) (_g : BitVec 256) : Exec Unit := do
  let r ← get
  let a ← resolve (clSrc w) { far := true }
  let dst ← bindDesc (clDst w) { far := true }
  let q := descOf dst.word
  shapeIf (a.flatLen = 64) (clSrc w)
  shapeIf (q.rowBytes * q.rows = 64) (clDst w)
  let bs ← readSource a
  let o ← openColl w 11 0 dst [] [] [] false
  modS fun s => s.updOp r.d o fun e => { e with
    express := [{ stage := 4, origin := r.d, val := wordOf 512 (bs.map (·.1)), poison := bs.any (·.2) }] }

/-- An EXPRESS packet reaches its operation: dedupe by stage and origin, forward, go on. -/
def State.applyExpress (s : State) (d : Die) (o : CollOp) (g : BitVec 256) (p : Pkt) : State :=
  let c := ctxOf o.ctx
  let s := s.orVerdict c (p.verdict &&& 0xF)
  let dim := p.aux / 16 % 4
  let pos := p.aux / 64 % 2 = 0
  if (gRank s.fabDims g p.src d).isNone then s.orderFaultBy d c (some o) 4 p
  else
    match (groupRuns s.fabDims g).find? (·.dim = dim) with
    | none => s.orderFaultBy d c (some o) 4 p
    | some r =>
      let origin := (coordsOf s.fabDims p.src).getD dim 0
      if o.express.any fun e => e.stage = dim && e.origin = origin then s.count d 0x70C 0 (some c.val)
      else
        let s := s.updOp d o fun e => { e with express := e.express ++ [{ stage := dim, origin := origin, val := wordOf 512 p.payload, poison := bit p.poisonMap 0 }] }
        let from_ := ((r.coords).findIdx? (· = origin)).getD 0
        let s := match r.onward from_ (s.runPos r) pos with
          | none => s
          | some j =>
            let q := ({ p with hdr := setFld (setFld (setFld p.hdr 29 16 (s.runNode r j)) 10 10 0) 79 72 0
                               desc := setFld p.desc 95 32 (p.verdict ||| ((s.ctx c).elim 0 (·.verdict))).toNat } : Pkt).checked
            (s.updOp d o fun e => { e with outputs := e.outputs ++ [q] }).route none q
        s.expressAdvance g o.ctx o.group o.seq

/-- The unit answers an EXPRESS packet: what it cannot place or park it discards (11 R241, R270, R274). The second component says
that the packet is done with. -/
def State.offerExpress (s : State) (d : Die) (p : Pkt) : State × Bool :=
  let c := ctxOf p.ctx
  match s.ctx c, s.group p.cGroup with
  | some x, some g =>
    if gCtx g ≠ c.val || !(gDies g).contains d.val || x.stopped.isSome then (s, false)
    else
      match (s.die d).ops.find? fun o => o.op = 11 && o.open_ && o.ctx = c.val && o.group = p.cGroup && o.seq % 4096 = p.cSeq with
      | some o => (s.applyExpress d o g p, true)
      | none =>
        let ahead := (p.cSeq + 4096 - SMap.get 0 (s.die d).groupSeq p.cGroup % 4096) % 4096
        if 2048 ≤ ahead then (s.count d 0x70C 0 (some c.val), true)
        else if 255 ≤ ahead then (s.orderFaultBy d c none 3 p, true)
        else if (s.die d).parked.any fun q => q.pkt.ty = 6 && q.pkt.src = p.src && q.pkt.aux = p.aux && q.pkt.cSeq = p.cSeq && q.pkt.cGroup = p.cGroup then
          (s.count d 0x70C 0 (some c.val), true)
        else if s.parkRoom d c p then (s.park d c p, true)
        else (s, false)
  | _, _ => (s, false)

/-! ### The rows -/

def clBody (w : IWord) (op : Nat) (g : BitVec 256) : Exec Unit :=
  match op with
  | 4 => clGradsendBody w g
  | 5 => clGradrecvBody w g
  | 9 => clBcastBody w g
  | 10 => clSetcastBody w g
  | 11 => clExpressBody w g
  | _ => clDataBody w op g

/-- What is in as an operation opens: the own contribution, and those of no bytes. -/
def State.kick (s : State) (d : Die) (o : CollOp) (g : BitVec 256) : State :=
  if o.op = 5 then s
  else o.expect.foldl (fun st e =>
    if e.len = 0 || o.pieces.any (fun q => q.phase = e.phase && q.rank = e.rank) then st.landed d o g e 0 e.len else st) s

/-- Parked EXPRESS packets of an operation that opens. -/
def State.unparkExpress (s : State) (d : Die) (o : CollOp) (g : BitVec 256) : State :=
  let mine := fun (q : Parked) => q.ctx = o.ctx && q.pkt.ty = 6 && q.pkt.cGroup = o.group && q.pkt.cSeq = o.seq % 4096
  let ps := (s.die d).parked.filter mine
  let s := s.updDie d fun x => { x with parked := x.parked.filter fun q => !mine q }
  ps.foldl (fun st q => match st.opNow d o with
    | some o => st.applyExpress d o g q.pkt
    | none => st) s

/-- Everything that an operation's start brings with it. -/
def State.startOp (s : State) (d : Die) (o : CollOp) (g : BitVec 256) : State :=
  let s := s.kick d o g
  let s := if o.op = 11 then (s.unparkExpress d o g).expressAdvance g o.ctx o.group o.seq
    else if o.op = 5 then s.fillReceipts d else s.unpark d
  ((s.localPartials d).pump d).settle d

/-- A CL instruction that has a slot runs. -/
def State.runCl (s : State) (d : Die) (c : Ctx) (w : IWord) (op addr : Nat) (x : Phys) (g : BitVec 256) : State :=
  let num := ((s.stream d c).getD Stream.reset).issued
  let s := s.runEngine d c w addr 7 0 x (clBody w op g)
  match (s.die d).ops.find? fun o => o.open_ && o.ctx = c.val && o.instr = num with
  | some o => s.startOp d o g
  | none => s

/-- CL.GRADRECV waits while its half holds an open receipt or an accumulation that is still to be checked (11 R283). -/
def State.clWaits (s : State) (d : Die) (c : Ctx) (w : IWord) (op : Nat) : Bool :=
  let x := s.die d
  op = 5 && (x.receiptOn c (clArray w) (x.physOf (clArray w)) (clBank w) || x.checkingOn c (clArray w) (clBank w))

/-- A CL row: issue, a slot of the context's share or a wait for one, then the operation. -/
def clRow (d : Die) (c : Ctx) (w : IWord) (op : Nat) (x : Phys) (s : State) : Out :=
  match s.tryIssue d c w 6 op (fun _ _ => s.clOk d c w op) with
  | .stays s => .next s
  | .go t addr =>
    match t.ctx c, t.group (clGroup w) with
    | some y, some g =>
      if s.clWaits d c w op then .next (s.updStream d c fun u => { u with hold := some .receipt })
      else if y.clSlots ≤ ((t.die d).openOps c).length then
        let o : CollOp := { ctx := c, group := clGroup w, op := op, seq := 0, word := w, addr := addr, instr := ((t.stream d c).getD Stream.reset).issued
                            hash := 0, open_ := false, expect := [], pieces := [], done := [], dst := none, planes := [], result := false
                            express := [], outputs := [] }
        .next ((t.updStream d c fun u => { u with hold := some .slot }).updDie d fun x => { x with ops := x.ops ++ [o] })
      else .next (if t.holdsBack d c w addr 7 0 (clBody w op g) then s else t.runCl d c w op addr x g)
    | _, _ => .next t

def execClShift (d : Die) (c : Ctx) (w : IWord) (x : Phys) (s : State) : Out := clRow d c w 1 x s
def execClPermute (d : Die) (c : Ctx) (w : IWord) (x : Phys) (s : State) : Out := clRow d c w 2 x s
def execClAlltoall (d : Die) (c : Ctx) (w : IWord) (x : Phys) (s : State) : Out := clRow d c w 3 x s
def execClGradsend (d : Die) (c : Ctx) (w : IWord) (x : Phys) (s : State) : Out := clRow d c w 4 x s
def execClGradrecv (d : Die) (c : Ctx) (w : IWord) (x : Phys) (s : State) : Out := clRow d c w 5 x s
def execClReduce (d : Die) (c : Ctx) (w : IWord) (x : Phys) (s : State) : Out := clRow d c w 6 x s
def execClReduceScatter (d : Die) (c : Ctx) (w : IWord) (x : Phys) (s : State) : Out := clRow d c w 7 x s
def execClGather (d : Die) (c : Ctx) (w : IWord) (x : Phys) (s : State) : Out := clRow d c w 8 x s
def execClBcast (d : Die) (c : Ctx) (w : IWord) (x : Phys) (s : State) : Out := clRow d c w 9 x s
def execClSetcast (d : Die) (c : Ctx) (w : IWord) (x : Phys) (s : State) : Out := clRow d c w 10 x s
def execClExpress (d : Die) (c : Ctx) (w : IWord) (x : Phys) (s : State) : Out := clRow d c w 11 x s

/-- CL_SLOT_GRANTED: a slot of the context's share is free, and its oldest waiting CL instruction opens it (11 R273). -/
def execClSlotGranted (d : Die) (c : Ctx) (s : State) : Out :=
  match s.ctx c with
  | none => .next s
  | some y =>
    if y.clSlots ≤ ((s.die d).openOps c).length then .next s
    else
      match (s.die d).ops.find? fun o => !o.open_ && o.ctx = c.val with
      | none => .next s
      | some o =>
        let t := (s.updDie d fun x => { x with ops := x.ops.filter fun e => !e.same o }).updStream d c fun u => { u with hold := none }
        match t.group o.group with
        | some g => .next (if t.holdsBack d c o.word o.addr 7 0 (clBody o.word o.op g) then s else t.runCl d c o.word o.op o.addr Phys.none g)
        | none => .next (t.invalid d c o.addr)

/-- COLLECTIVE_TIMEOUT: an open operation, or one that waits for a slot, saw nothing for its group's TIMEOUT_US (11 R276). -/
def execCollectiveTimeout (d : Die) (c : Ctx) (index : Nat) (s : State) : Out :=
  match ((s.die d).ops.filter (·.ctx = c.val))[index]? with
  | none => .next s
  | some o => .next ((s.orderFault d c o.addr 1 o.group (o.seq, 0) (o.hash.toNat % 256, 0) (0, 0)).endBackoffs c)

/-- EXPRESS_RESEND: 50 µs have passed, and the device sends its latest stage outputs again (11 R286). -/
def execExpressResend (c : Ctx) (group : Nat) (s : State) : Out :=
  match s.group group with
  | none => .next s
  | some g =>
    let d := stageDie g
    .next (((s.die d).ops.filter fun o => o.op = 11 && o.open_ && o.ctx = c.val && o.group = group).foldl (fun st o =>
      o.outputs.foldl (fun st p => (st.count d 0x806 0 (some c.val)).route none p) st) s)

end Sys2Proof.Machine
end

