-- ==== Sys2Proof/Machine/Receipt.lean ====
section
/-! DEFINITION. Delivery at the destination die and answers at the source: tracking, the message table, the ordered class,
acknowledgement and retransmission (10 R251 to R262, R265, R267). -/
namespace Sys2Proof.Machine

/-! ### Tracking (10 R258; log 33) -/

/-- A new tracking entry begins at 0 when the packet is within the first window, else at the packet (log 38). -/
def freshTrack (p : Pkt) : Track :=
  { srcNode := p.src, srcDie := p.srcDie, space := p.seqSpace, next := if p.seq < 256 then 0 else p.seq, bitmap := 0, unacked := 0 }

def DieSt.trackOf (x : DieSt) (node die space : Nat) : Option Track :=
  x.tracks.find? fun t => t.srcNode = node && t.srcDie = die && t.space = space

/-- What tracking says of a packet. -/
inductive Seen where
  | fresh
  | duplicate
  /-- no entry is free -/
  | noRoom
  deriving DecidableEq, Repr

def Track.ahead (t : Track) (seq : Nat) : Nat := (seq + 65536 - t.next) % 65536

/-- Numbers behind the window have been received or given up; in the express space, which nothing acknowledges, they may still
come (log 33). -/
def Track.seen (t : Track) (seq : Nat) : Seen :=
  let k := t.ahead seq
  if 32768 ≤ k then (if t.space = 3 then .fresh else .duplicate)
  else if k < 256 && bit t.bitmap k then .duplicate
  else .fresh

def DieSt.seen (x : DieSt) (p : Pkt) : Seen :=
  match x.trackOf p.src p.srcDie p.seqSpace with
  | some t => t.seen p.seq
  | none => if 8192 ≤ x.tracks.length then .noRoom else .fresh

/-- Moves the cumulative SEQ past everything received. -/
def Track.slide : Nat → Track → Track
  | 0, t => t
  | n + 1, t => if bit t.bitmap 0 then Track.slide n { t with next := (t.next + 1) % 65536, bitmap := t.bitmap >>> 1 } else t

/-- Marks a SEQ received. A number that lies beyond the window moves it on: what it leaves behind, the source no longer holds
unacknowledged, or sent elsewhere (log 33). -/
def Track.mark (t : Track) (seq : Nat) : Track :=
  if 32768 ≤ t.ahead seq then t
  else
    let t := if 256 ≤ t.ahead seq then { t with next := (seq + 65536 - 255) % 65536, bitmap := t.bitmap >>> (t.ahead seq - 255) } else t
    Track.slide 257 { t with bitmap := setBit t.bitmap (t.ahead seq) true }

/-- Marks a packet received in the die's entry; only the die that received it owes an acknowledgement. -/
def DieSt.markSeq (x : DieSt) (p : Pkt) (here : Bool) : DieSt :=
  let owe := fun (t : Track) => if here then { t with unacked := t.unacked + 1 } else t
  match x.trackOf p.src p.srcDie p.seqSpace with
  | some t => { x with tracks := x.tracks.map fun e => if e = t then owe (t.mark p.seq) else e }
  | none => { x with tracks := x.tracks ++ [owe ((freshTrack p).mark p.seq)] }

/-- A packet counts as received on every die, since a space's numbers run toward the node (R257; log 33). -/
def State.markSeq (s : State) (d : Die) (p : Pkt) : State := s.updDies fun e x => x.markSeq p (e = d)

/-! ### Acknowledgement (10 R259, R265) -/

/-- Sends an ACK for a tracking entry. -/
def State.sendAck (s : State) (d : Die) (t : Track) (ctx : Nat) : State :=
  let s := s.updDie d fun x => { x with tracks := x.tracks.map fun e => if e = t then { e with unacked := 0 } else e }
  s.offer (({ ty := 7, ordered := t.space = 1, mspace := t.space = 2, dst := t.srcNode, src := s.node, dstDie := t.srcDie, srcDie := d
              ctx := ctx, seq := (t.next + 65535) % 65536 } : Head).bare (BitVec.ofNat 256 (t.bitmap.toNat % 2 ^ 64)))

/-- Acknowledges when 16 new packets are unacknowledged, or at once. -/
def State.ackFor (s : State) (d : Die) (p : Pkt) (now : Bool) : State :=
  if 2 ≤ p.seqSpace then s
  else match (s.die d).trackOf p.src p.srcDie p.seqSpace with
    | some t => if now || 16 ≤ t.unacked then s.sendAck d t p.ctx else s
    | none => s

def State.sendMsgAck (s : State) (d : Die) (p : Pkt) : State := s.offer (s.answer 9 p d p.seq 0 0)

/-! ### The message table (10 R255, R256) -/

def MsgEntry.of (e : MsgEntry) (p : Pkt) : Bool := e.srcNode = p.src && e.srcDie = p.srcDie && e.msgId = p.msgId && e.space = p.seqSpace

/-- Reason to refuse a packet of a message; none: it may be counted. -/
def DieSt.msgRefusal (x : DieSt) (p : Pkt) : Option Nat :=
  match x.messages.find? (·.of p) with
  | some e =>
    if e.len = p.msgLen && e.ctx = p.ctx && e.sem = p.notifySem && e.val = p.notifyVal && e.count + p.bytes ≤ e.len then none else some 9
  | none => if p.msgLen < p.bytes then some 9 else if 4096 ≤ x.messages.length then some 1 else none

/-- Counts a packet's bytes; a complete message fires its notify, closes its entry and, in the multicast space, is
acknowledged. -/
def State.countMessage (s : State) (d : Die) (p : Pkt) : State :=
  let x := s.die d
  let before := ((x.messages.find? (·.of p)).map (·.count)).getD 0
  let others := x.messages.filter fun e => !e.of p
  if before + p.bytes = p.msgLen then
    let s := s.updDie d fun x => { x with messages := others }
    let s := if p.notifyVal = 0 then s else (s.semAdd d (ctxOf p.ctx) p.notifySem (BitVec.ofNat 32 p.notifyVal)).measure d 3 0 (some p.ctx) s.freeCtr
    if p.mspace then s.sendMsgAck d p else s
  else
    s.updDie d fun x => { x with messages := others ++ [{ srcNode := p.src, srcDie := p.srcDie, msgId := p.msgId, space := p.seqSpace
                                                          len := p.msgLen, ctx := p.ctx, sem := p.notifySem, val := p.notifyVal
                                                          count := before + p.bytes }] }

/-! ### What a delivery does (10 R251 to R254) -/

/-- Place of a byte of a packet's address space, as seen from the destination die; host memory fails. -/
def landing (d : Die) (sp : Bool) (a : Nat) : Option Place :=
  if sp then (if a < 2 ^ 26 then some (.sp d a) else none)
  else match deviceAddr d a with
    | some (.host _) => none
    | q => q

/-- Every byte of a run is in the context's ranges. -/
def State.landingOk (s : State) (d : Die) (c : Nat) (sp : Bool) (a n : Nat) : Bool :=
  match s.ctx (ctxOf c) with
  | some x => x.ownsRun (fun i => landing d sp (a + i)) n
  | none => false

/-- Seal blocks of a sealed put. -/
def sealBlocks (p : Pkt) : Nat := ceilDiv p.bytes 512

/-- Addresses that a PUT or GET_RESP writes. -/
def State.putOk (s : State) (d : Die) (p : Pkt) : Bool :=
  s.landingOk d p.ctx p.inSp p.addr p.bytes && (!p.isSealed || s.landingOk d p.ctx p.inSp p.sealAddr (4 * sealBlocks p))

/-- Writes a run of marked bytes, unit by unit, and charges the stall (08 R185). -/
def State.land (s : State) (d : Die) (c : Nat) (sp : Bool) (a : Nat) (bs : List PByte) : State :=
  (pieces a bs.length).foldl (fun st (lo, k) =>
    let part := (bs.drop (lo - a)).take k
    match landing d sp lo with
    | some q =>
      let st := st.write q (part.map (·.1)) (part.any (·.2))
      (match q with
      | .st e off => ((st.countWrites (dieOf e) off k (some c)).chargeDelivery (dieOf e) off k c)
      | _ => st)
    | none => st) s

/-- Pair tags of the scratchpad words that a packet fills: FIRST_TAG in its first block, and consecutive tags mod 256 in the later
ones (Table 10.4). The packet does not say how long its blocks are, so that length is free (log 9). -/
def State.landTags (s : State) (d : Die) (p : Pkt) : State :=
  if !p.tagValid || !p.inSp then s
  else
    let (n, s) := s.draw
    let block := (Config.unstated 70 n).toNat + 1
    let first := ceilDiv p.addr 32
    (List.range ((p.addr + p.bytes) / 32 - first)).foldl (fun st i =>
      let o := 32 * (first + i) - p.addr
      { st with tags := SMap.put 0 st.tags (d.val * 2 ^ 21 + first + i) (BitVec.ofNat 8 (p.firstTag + o / block)) }) s

/-- A PUT or GET_RESP writes its bytes, and its seals (R251, R252). -/
def State.landPut (s : State) (d : Die) (p : Pkt) : State :=
  let bs := markedBytes p
  if !p.isSealed then (s.land d p.ctx p.inSp p.addr bs).landTags d p
  else
    let blocks := chunksOf 512 bs
    let whole := blocks.flatMap fun b => b.map fun (x : PByte) => (x.1, b.any (·.2))
    let s := s.land d p.ctx p.inSp p.addr whole
    let s := s.land d p.ctx p.inSp p.sealAddr ((blocks.zipIdx.flatMap fun (b, i) => leBytes 4 (sealOf (p.firstSeal + i) (b.map (·.1))).toNat).map fun x => (x, false))
    s.landTags d p

/-- Return address, space and die of a GET_REQ. -/
def retAddr (p : Pkt) : Nat := fld p.desc 47 0
def retSpace (p : Pkt) : Bool := bit p.desc 48
def retDie (p : Pkt) : Nat := fld p.desc 53 49

/-- A GET_REQ is answered with GET_RESP packets (R253). -/
def State.answerGet (s : State) (d : Die) (p : Pkt) : State :=
  let at_ := fun (i : Nat) => landing d p.inSp (p.addr + i)
  let s := (pieces p.addr p.msgLen).foldl (fun st (lo, _) => match landing d p.inSp lo with
    | some (.st e off) => (st.countReads (dieOf e) off 1 (some p.ctx)).askUnits (dieOf e) off 1 p.ctx
    | _ => st) s
  let bs : List PByte := (List.range p.msgLen).map fun i => match at_ i with
    | some q => (s.byteAt q, (s.poisonAt q).isSome)
    | none => (0, false)
  let pkts := (cutMessage 16777216 p.msgLen).map fun (off, n, _, last) =>
    let part := (bs.drop off).take n
    let h : Head := { ty := 4, last := last, space := retSpace p, dst := p.src, src := s.node, dstDie := retDie p, srcDie := d
                      ctx := p.ctx, msgId := p.msgId, msgLen := p.msgLen, sem := p.notifySem, val := p.notifyVal, addr := retAddr p + off }
    srcOf (h.data (part.map (·.1)) (part.map (·.2)) 0 none) p.ctx 0 []
  (s.queueSend d pkts).pump d

/-- What a packet that is delivered does: type by type. -/
def State.effect (s : State) (d : Die) (p : Pkt) : State :=
  match p.ty with
  | 1 | 4 => (s.landPut d p).countMessage d p
  | 2 => s.semAdd d (ctxOf p.ctx) p.notifySem (BitVec.ofNat 32 p.notifyVal)
  | 3 => s.answerGet d p
  | _ => s

/-- Reason to refuse a packet before it counts as received. -/
def State.refusal (s : State) (d : Die) (p : Pkt) : Option Nat :=
  if 19 < p.dstDie || (s.ctx (ctxOf p.ctx)).isNone then some 8
  else match p.ty with
    | 1 | 4 => if s.putOk d p then (s.die d).msgRefusal p else some 8
    | 3 => if s.landingOk d p.ctx p.inSp p.addr p.msgLen then none else some 8
    | _ => none

/-! ### The ordered class (10 R262) -/

def DieSt.storeBytes (x : DieSt) : Nat := (x.reorder.map fun p => 64 * p.plen).foldl (· + ·) 0

/-- The stored packet of a source that is next: every earlier number has come, and it is the one furthest behind the next
expected SEQ, on whichever die it waits. -/
def State.nextOrdered (s : State) (node die : Nat) : Option (Die × Pkt) :=
  let ready := (List.finRange 20).flatMap fun d =>
    match (s.die d).trackOf node die 1 with
    | none => []
    | some t => ((s.die d).reorder.filter fun p => p.src = node && p.srcDie = die && 32768 ≤ t.ahead p.seq).map fun p => (t.ahead p.seq, d, p)
  ((sortBy (·.1) ready).head?).map (·.2)

/-- A COLL packet whose turn has come: as the unit answers it, but a packet that the unit refuses for want of room waits. -/
def State.deliverColl (s : State) (d : Die) (p : Pkt) : Option State :=
  match s.offerColl d p with
  | .taken t => some (t.countMessage d p)
  | .refused r t => if r = 2 && (s.ctx (ctxOf p.ctx)).any (·.stopped.isNone) then none else some (t.nak d p r)

/-- Delivery of a stored packet; none: it must wait. -/
def State.deliver (s : State) (d : Die) (p : Pkt) : Option State :=
  if p.ty = 1 || p.ty = 4 || p.ty = 5 then
    match (s.die d).msgRefusal p with
    | some 1 => none
    | some r => some (s.nak d p r)
    | none => if p.ty = 5 then s.deliverColl d p else some (s.effect d p)
  else some (s.effect d p)

/-- Delivers what the reorder stores hold of a source, in order, up to the first packet that must wait. -/
def State.drain (s : State) (node die : Nat) : Nat → State
  | 0 => s
  | n + 1 =>
    match s.nextOrdered node die with
    | none => s
    | some (d, p) =>
      match (s.updDie d fun x => { x with reorder := x.reorder.filter (· ≠ p) }).deliver d p with
      | none => s
      | some t => t.drain node die n

/-- Every source that has packets in a reorder store. -/
def State.drainAll (s : State) : State :=
  let from_ := ((List.finRange 20).flatMap fun d => (s.die d).reorder.map fun p => (p.src, p.srcDie)).eraseDups
  from_.foldl (fun st e => st.drain e.1 e.2 10241) s

/-- An ordered packet enters the reorder store, if that can take it, and leaves it when its turn comes. -/
def State.storeOrdered (s : State) (d : Die) (p : Pkt) : State :=
  let rel := match (s.die d).trackOf p.src p.srcDie 1 with
    | some t => t.ahead p.seq
    | none => (freshTrack p).ahead p.seq
  if (rel ≠ 0 || (s.nextOrdered p.src p.srcDie).isSome) && 1048576 < (s.die d).storeBytes + 64 * p.plen then s.nak d p 3
  else (((s.markSeq d p).updDie d fun x => { x with reorder := x.reorder ++ [p] }).drainAll).ackFor d p false

/-! ### Receipt -/

/-- A packet leaves the inbox as it is received. -/
def State.unbox (s : State) (p : Pkt) : State := { s with fabric := { s.fabric with inbox := s.fabric.inbox.erase p } }

/-- It is addressed to this device. -/
def State.isMine (s : State) (p : Pkt) : Bool :=
  if p.mcast then s.mcDelivers p else p.dst = s.node

/-- PUT, SIGNAL, GET_REQ and GET_RESP packets at their destination die. -/
def State.receive (s : State) (ty : Nat) (p : Pkt) : State :=
  if p.ty ≠ ty || !s.isMine p then s
  else
    let d := dieOf p.dstDie
    let s := s.unbox p
    if !p.payloadOk then s.nak d p 7
    else match (s.die d).seen p with
      | .duplicate => (s.count d 0x70C 0 (some p.ctx)).ackFor d p true
      | .noRoom => s.nak d p 1
      | .fresh =>
        match s.refusal d p with
        | some r => s.nak d p r
        | none =>
          if p.seqSpace = 1 then s.storeOrdered d p
          else (((s.markSeq d p).effect d p).ackFor d p false).drainAll

def execPutReceived (p : Pkt) (s : State) : Out := .next (s.receive 1 p)
def execSignalReceived (p : Pkt) (s : State) : Out := .next (s.receive 2 p)

/-- GET_REQ_RECEIVED, with what its reads meet. -/
def execGetReqReceived (p : Pkt) (x : Phys) (s : State) : Out := .next ((s.applyPhys x).receive 3 p)

def execGetRespReceived (p : Pkt) (s : State) : Out := .next (s.receive 4 p)

/-- COLL_RECEIVED: the collective unit takes, parks or refuses it. -/
def execCollReceived (p : Pkt) (s : State) : Out :=
  if p.ty ≠ 5 || !s.isMine p then .next s
  else
    let d := dieOf p.dstDie
    let s := s.unbox p
    if !p.payloadOk then .next (s.nak d p 7)
    else match (s.die d).seen p with
      | .duplicate =>
        let s := s.count d 0x70C 0 (some p.ctx)
        .next (if p.mspace then (if (s.die d).messages.any (·.of p) then s else s.sendMsgAck d p) else s.ackFor d p true)
      | .noRoom => .next (s.nak d p 1)
      | .fresh =>
        if 19 < p.dstDie then .next (s.nak d p 8)
        else match (s.die d).msgRefusal p with
          | some r => .next (s.nak d p r)
          | none =>
            if p.seqSpace = 1 then .next (s.storeOrdered d p)
            else match s.offerColl d p with
              | .refused r s => .next (s.nak d p r)
              | .taken s => .next ((((s.markSeq d p).countMessage d p).ackFor d p false).drainAll)

/-- EXPRESS_RECEIVED: never answered (R241); a packet that the unit discards does not count as received. -/
def execExpressReceived (p : Pkt) (s : State) : Out :=
  if p.ty ≠ 6 || !s.isMine p then .next s
  else
    let s := s.unbox p
    let d := dieOf p.dstDie
    if !p.payloadOk || 19 < p.dstDie then .next s
    else match (s.die d).seen p with
      | .duplicate => .next (s.count d 0x70C 0 (some p.ctx))
      | .noRoom => .next s
      | .fresh =>
        let (t, kept) := s.offerExpress d p
        .next (if kept then t.markSeq d p else t)

/-! ### At the source (10 R260, R265) -/

/-- Space bits of an answer. -/
def answerSpace (p : Pkt) : Nat := if p.mspace then 2 else if p.ordered then 1 else 0

/-- An ACK covers a packet: its SEQ and every one before it, and those that its bitmap names (10 R257). -/
def ackCovers (p : Pkt) (k : SrcPkt) : Bool :=
  k.sent && !k.pkt.mcast && k.dstNode = p.src && k.space = answerSpace p &&
    ((p.seq + 65536 - k.seq) % 65536 < 32768 ||
      (let i := (k.seq + 65536 - p.seq - 1) % 65536; decide (i < 64) && bit p.desc i))

/-- ACK_RECEIVED: what it covers leaves the source's list. -/
def execAckReceived (p : Pkt) (s : State) : Out :=
  if p.ty ≠ 7 || !s.isMine p then .next s
  else
    let d := dieOf p.dstDie
    let s := s.unbox p
    let gone := (s.die d).unacked.filter (ackCovers p)
    let s := s.updDie d fun x => { x with unacked := x.unacked.filter fun k => !ackCovers p k }
    let s := gone.foldl (fun st k => match k.firstSent with
      | some (port, start) => st.measure d 2 port (some k.ctx) start
      | none => st) s
    .next ((s.pump d).settle d)

/-- MSG_ACK_RECEIVED: a member has a multicast message whole. -/
def execMsgAckReceived (p : Pkt) (s : State) : Out :=
  if p.ty ≠ 9 || !s.isMine p then .next s
  else
    let d := dieOf p.dstDie
    let s := s.unbox p
    let s := s.updDie d fun x => { x with unacked := (x.unacked.map fun (k : SrcPkt) =>
      if k.pkt.mcast && k.sent && k.pkt.msgId = p.msgId then { k with members := k.members.filter (· ≠ p.src) } else k).filter fun k =>
        !(k.pkt.mcast && k.sent && k.members.isEmpty) }
    .next ((s.pump d).settle d)

/-- Sends a packet again: unicast on a fresh route, or a multicast message by unicast to the members that have not acknowledged
it. `reason` is the qualifier of 0x70A. -/
def State.resend (s : State) (d : Die) (k : SrcPkt) (reason : Nat) : State :=
  if k.pkt.mcast then
    ((s.die d).unacked.filter fun e => e.sent && e.pkt.mcast && e.pkt.msgId = k.pkt.msgId).foldl (fun st e =>
      e.members.foldl (fun st m => (st.count d 0x70A reason (some k.ctx)).route none (unicastCopy e.pkt m)) st) s
  else (s.count d 0x70A reason (some k.ctx)).route none k.pkt

def State.updSrc (s : State) (d : Die) (i : Nat) (f : SrcPkt → SrcPkt) : State :=
  s.updDie d fun x => match x.unacked[i]? with
    | some k => { x with unacked := x.unacked.set i (f k) }
    | none => x

def State.dropSrc (s : State) (d : Die) (i : Nat) : State := s.updDie d fun x => { x with unacked := x.unacked.eraseIdx i }

/-- Address of the instruction that sent a packet. -/
def State.senderAddr (s : State) (d : Die) (k : SrcPkt) : Nat :=
  match s.stream d (ctxOf k.ctx) with
  | some t => ((t.inflight.find? (·.num = k.instr)).map (·.addr)).getD 0
  | none => 0

/-- A ninth counted reason: the destination is unreachable (R260, R267). -/
def State.giveUp (s : State) (d : Die) (i : Nat) (k : SrcPkt) (reason : Nat) : State :=
  let lost := if k.pkt.mcast then k.members else [k.dstNode]
  let addr := s.senderAddr d k
  let s := s.dropSrc d i
  let s := { s with fabric := { s.fabric with unreachable := (s.fabric.unreachable ++ lost).eraseDups } }
  s.fabricFault d (some (k.ctx, addr)) reason (lost.headD 0)

/-- A counted reason: retransmit, now or after 10 µs, or give up. -/
def State.countedReason (s : State) (d : Die) (i : Nat) (k : SrcPkt) (reason : Nat) : State :=
  if 8 ≤ k.counted then s.giveUp d i k reason
  else
    let k := { k with counted := k.counted + 1 }
    if reason = 5 || reason = 6 then s.updSrc d i fun _ => { k with waitReason := reason }
    else (s.updSrc d i fun _ => k).resend d k reason

/-- The packet that a NAK names by SEQ, space bits and MSG_ID. -/
def DieSt.nakked (x : DieSt) (p : Pkt) : Option Nat :=
  let fits := fun (k : SrcPkt) => k.sent && k.seq = p.seq && k.space = answerSpace p && k.pkt.msgId = p.msgId
  (x.unacked.findIdx? fun k => fits k && k.dstNode = p.src) <|> x.unacked.findIdx? fits

/-- NAK_RECEIVED (Table 10.7). -/
def execNakReceived (p : Pkt) (s : State) : Out :=
  if p.ty ≠ 8 || !s.isMine p then .next s
  else
    let d := dieOf p.dstDie
    let s := (s.unbox p).count d 0x709 p.aux (some p.ctx)
    match (s.die d).nakked p with
    | none => .next s
    | some i =>
      match (s.die d).unacked[i]? with
      | none => .next s
      | some k =>
        if p.aux = 8 || p.aux = 9 then
          let addr := s.senderAddr d k
          let s := s.dropSrc d i
          if (s.ctx (ctxOf k.ctx)).isSome then
            .next (s.stopFault d (ctxOf k.ctx) addr { cls := 4, reason := 4, sub := p.aux, unit := 12, valueB := k.pkt.addr })
          else .next s
        else if 1 ≤ p.aux && p.aux ≤ 3 then
          .next (s.updSrc d i fun k => { k with backoff := if k.backoff = 0 then 2 else min 256 (2 * k.backoff), waitReason := p.aux })
        else if p.aux ≤ 10 && p.aux ≠ 0 then .next (s.countedReason d i k p.aux)
        else .next s

/-- E2E_TIMEOUT: a packet is still unacknowledged E2E_TIMEOUT after it was last sent. -/
def execE2eTimeout (d : Die) (index : Nat) (s : State) : Out :=
  match (s.die d).unacked[index]? with
  | some k => if k.sent && k.waitReason = 0 then .next (s.countedReason d index k 0) else .next s
  | none => .next s

/-- NAK_BACKOFF_EXPIRY: the wait that a NAK called for is over. -/
def execNakBackoffExpiry (d : Die) (index : Nat) (s : State) : Out :=
  match (s.die d).unacked[index]? with
  | some k =>
    if k.waitReason = 0 then .next s
    else .next ((s.updSrc d index fun k => { k with waitReason := 0 }).resend d k k.waitReason)
  | none => .next s

/-- ACK_TIMER: 2 µs after the oldest packet that is not yet acknowledged. -/
def execAckTimer (d : Die) (srcNode srcDie space : Nat) (s : State) : Out :=
  match (s.die d).trackOf srcNode srcDie space with
  | some t => if t.unacked ≠ 0 && space < 2 then .next (s.sendAck d t 0) else .next s
  | none => .next s

/-- TRACKING_ENTRY_EXPIRY: 100 ms after the entry's last packet, which every die has marked (log 33). -/
def execTrackingEntryExpiry (_d : Die) (srcNode srcDie space : Nat) (s : State) : Out :=
  .next (s.updDies fun _ x => { x with tracks := x.tracks.filter fun t => !(t.srcNode = srcNode && t.srcDie = srcDie && t.space = space) })

end Sys2Proof.Machine
end

