-- ==== Sys2Proof/Machine/Castle.lean ====
section
/-! DEFINITION. Management packets and castling: the remap table's writes and the swap of two of its entries (10 R241, R246; 14
R357, R358). The messages' layout is the model's (log 51). -/
namespace Sys2Proof.Machine

/-! ### Messages: KIND, then the words of the message, 16 bits each -/

/-- A management packet to a logical node. -/
def State.mgmtPkt (s : State) (node kind : Nat) (words : List Nat) : Pkt :=
  ({ ty := 10, dst := node, src := s.node, dstDie := 0, srcDie := 0, ctx := 0 } : Head).data
    (leBytes 2 kind ++ words.flatMap (leBytes 2)) [] 0 none

def mgmtKind (p : Pkt) : Nat := leAt p.payload 0 2
def mgmtWord (p : Pkt) (i : Nat) : Nat := leAt p.payload (2 + 2 * i) 2

def State.sendMgmt (s : State) (node kind : Nat) (words : List Nat) : State := s.route none (s.mgmtPkt node kind words)

/-! ### Writing the remap table (10 R246) -/

/-- An entry for a logical node at a place. -/
def remapEntry (dims : List Nat) (node : Nat) (place : List Nat) (valid : Bool) : BitVec 16 :=
  pack 16 [(place.getD 0 0, 4), (place.getD 1 0, 4), (place.getD 2 0, 3), (place.getD 3 0, 3), (b2n (coordsOf dims node = place), 1), (b2n valid, 1)]

/-- One table write: REMAP_GEN rises by 1. -/
def State.writeRemap (s : State) (es : List (Nat × BitVec 16)) : State :=
  { s with fabric := { s.fabric with
      remap := es.foldl (fun t e => SMap.put 0 t e.1 e.2) s.fabric.remap, remapGen := s.fabric.remapGen + 1 } }

/-- The two entries of a swap: L takes the spare's place, S the failed device's, valid only while that is in service. -/
def State.swapEntries (s : State) (l n : Nat) : BitVec 16 × BitVec 16 :=
  let el := s.remapOf l
  let serves := remapValid el && !s.fabric.unreachable.contains l
  (remapEntry s.fabDims l (remapPlace (s.remapOf n)) true, remapEntry s.fabDims n (remapPlace el) serves)

/-- This device's number follows its place. -/
def State.renumber (s : State) (l n : Nat) : State :=
  let mine := fun (k : Nat) => remapPlace (s.remapOf k) = s.here
  if s.node ≠ l && s.node ≠ n then s
  else { s with fabric := { s.fabric with
    logical := if mine l then BitVec.ofNat 14 l else if mine n then BitVec.ofNat 14 n else s.fabric.logical } }

/-- A swap's entries are written, once; a device that already holds them writes nothing. -/
def State.takeSwap (s : State) (l n : Nat) (el en : BitVec 16) : State :=
  if s.remapOf l = el && s.remapOf n = en then s
  else
    let s := (s.writeRemap [(l, el), (n, en)]).renumber l n
    let u := s.fabric.unreachable
    { s with fabric := { s.fabric with
        unreachable := (u.filter fun k => k ≠ l && k ≠ n) ++ (if remapValid en then [] else [n]) } }

/-! ### The coordinator (14 R357, R358) -/

/-- Devices in service but this one: valid entries that are not known to be unreachable. -/
def State.serving (s : State) : List Nat :=
  (s.fabric.remap.filter fun e => remapValid e.2 && e.1 ≠ s.node && !s.fabric.unreachable.contains e.1).map (·.1)

/-- S is a member of some group that a context holds here. -/
def State.inSomeGroup (s : State) (n : Nat) : Bool := s.fabric.groups.any fun e => (gNodes s.fabDims e.2).contains n

/-- The swap is over: devices that did not acknowledge are posted, and the command completes. -/
def State.endSwap (s : State) (left : List Nat) (w : CmdWord) (m : Nat) : State :=
  let s : State := { s with fabric := { s.fabric with swap := none } }
  let s := if left.isEmpty then s
    else s.hostEvent 0x83 none (eventBody 0 0 13 0 0 0 left.length 0 ++ (left.take 192).flatMap (leBytes 2))
  s.finishCommand (mbxOf m) w (.results left.length 0)

/-- Sends the swap to devices, each with the number it is addressed by. -/
def State.sendSwap (s : State) (l n : Nat) (el en : BitVec 16) (devs : List Nat) : State :=
  devs.foldl (fun st k => st.sendMgmt k 1 [l, n, el.toNat, en.toNat, k]) s

/-- CASTLE: the answer of the spare to the coordinator's inquiry is its firmware and numerics revisions with its ports in
service; none: it did not answer in time. -/
def execCastle (m : Mbx) (spareRevs : Option (BitVec 16 × BitVec 8)) (sparePorts : BitVec 8) (s : State) : Out :=
  match (s.mbx m).started with
  | none => .next s
  | some w =>
    let l := cmdArg w 0
    let n := cmdArg w 1
    if cmdOp w ≠ 0x71 || !s.suphorRuns || s.fabric.swap.isSome then .next s
    else if 2 ^ 14 ≤ l then .next (s.finishCommand m w (.badArg 0))
    else if 2 ^ 14 ≤ n || n = l then .next (s.finishCommand m w (.badArg 1))
    else if !remapValid (s.remapOf n) then .next (s.finishCommand m w (.policyNo 1))
    else match spareRevs with
      | none => .next (s.finishCommand m w (.no .timeout))
      | some (fw, num) =>
        if sparePorts ≠ 0xFF then .next (s.finishCommand m w (.policyNo 1))
        else if fw ≠ s.fwRev || num ≠ s.numericsRev then .next (s.finishCommand m w (.policyNo 2))
        else if s.inSomeGroup n then .next (s.finishCommand m w (.policyNo 3))
        else
          let (el, en) := s.swapEntries l n
          let devs := s.serving
          let s := (s.sendSwap l n el en devs).takeSwap l n el en
          if devs.isEmpty then .next (s.endSwap [] w m.val)
          else .next { s with fabric := { s.fabric with swap := some (l, n, devs, w, m.val) } }

/-- SWAP_RESEND: every 50 ms, to every device that has not acknowledged. -/
def execSwapResend (s : State) : Out :=
  match s.fabric.swap with
  | none => .next s
  | some (l, n, left, _, _) =>
    let (el, en) := (s.remapOf l, s.remapOf n)
    let s := s.sendSwap l n el en left
    .next (if left.contains n then s.sendMgmt l 1 [l, n, el.toNat, en.toNat, n] else s)

/-- SWAP_DEADLINE: 2 s have passed; the swap completes without the devices that are left. -/
def execSwapDeadline (s : State) : Out :=
  match s.fabric.swap with
  | none => .next s
  | some (_, _, left, w, m) => .next (s.endSwap left w m)

/-! ### Receipt (10 R241) -/

/-- A device has acknowledged the swap, under the number it was addressed by. -/
def State.swapAck (s : State) (l n node : Nat) : State :=
  match s.fabric.swap with
  | some (l', n', left, w, m) =>
    if l ≠ l' || n ≠ n' then s
    else
      let left := left.filter (· ≠ node)
      if left.isEmpty then s.endSwap [] w m
      else { s with fabric := { s.fabric with swap := some (l', n', left, w, m) } }
  | none => s

/-- FAB_NODE as the device controller writes it: number, place and dimensions (10 Table 10.8). -/
def State.writeNode (s : State) (v : BitVec 64) : State :=
  { s with fabric := { s.fabric with
      logical := BitVec.ofNat 14 (fld v 13 0), px := BitVec.ofNat 4 (fld v 19 16), py := BitVec.ofNat 4 (fld v 23 20)
      pz := BitVec.ofNat 3 (fld v 26 24), pw := BitVec.ofNat 3 (fld v 29 27), dxM1 := BitVec.ofNat 4 (fld v 35 32)
      dyM1 := BitVec.ofNat 4 (fld v 39 36), dzM1 := BitVec.ofNat 3 (fld v 42 40), dwM1 := BitVec.ofNat 3 (fld v 45 43) } }

/-- MGMT_RECEIVED: 1 a swap, 2 its acknowledgement, 3 a write of the remap table, 4 a write of FAB_NODE; others are dropped. -/
def execMgmtReceived (p : Pkt) (s : State) : Out :=
  if p.ty ≠ 10 || !s.isMine p then .next s
  else
    let s := s.unbox p
    if !p.payloadOk then .next s
    else
      let f := mgmtWord p
      match mgmtKind p with
      | 1 =>
        let s := s.takeSwap (f 0) (f 1) (BitVec.ofNat 16 (f 2)) (BitVec.ofNat 16 (f 3))
        .next (s.sendMgmt p.src 2 [f 0, f 1, f 4])
      | 2 => .next (s.swapAck (f 0) (f 1) (f 2))
      | 3 => .next (s.writeRemap ((List.range (f 0)).map fun i =>
          let e := BitVec.ofNat 16 (f (2 + 2 * i))
          (f (1 + 2 * i), remapEntry s.fabDims (f (1 + 2 * i)) (remapPlace e) (remapValid e))))
      | 4 => .next (s.writeNode (wordOf 64 (slice p.payload 2 8)))
      | _ => .next s

end Sys2Proof.Machine
end

