-- ==== Sys2Proof/Machine/Debug.lean ====
section
/-! DEFINITION. The Dyolo debug port and the tap of each die (16 R400 to R405, Tables 16.9 to 16.11). -/
namespace Sys2Proof.Machine

/-! ### Frames (16 Table 16.10) -/

abbrev Frame := BitVec 160

def frCmd (f : Frame) : Nat := fld f 7 0
def frTag (f : Frame) : Nat := fld f 15 8
def frSpace (f : Frame) : Nat := fld f 19 16
def frCtx (f : Frame) : Nat := fld f 23 20
def frAddr (f : Frame) : Nat := fld f 79 32
def frData (f : Frame) : Nat := fld f 159 96
/-- STATUS and the reserved bits of a request are 0. -/
def frClear (f : Frame) : Bool := fld f 31 24 = 0 && fld f 95 80 = 0

/-- Response status: 0 OK, 1 LOCKED, 2 BAD_CMD, 3 BUSY, 4 ACCESS, 5 REFUSED, 6 POISON. -/
def frameReply (f : Frame) (status data : Nat) : Frame :=
  pack 160 [(frCmd f, 8), (frTag f, 8), (0, 4), (0, 4), (status, 8), (0, 48), (0, 16), (data, 64)]

/-- The debug port answers: rails up, and the boot did not stop at stage 0x01 (16 R387, R388, R397). -/
def State.tapUp (s : State) : Bool := s.up && (s.bootSt.stage = 0xFF || s.bootSt.stage = 0xE0 || s.bootSt.stage = 0xE2)

def State.respond (s : State) (d : Die) (f : Frame) (status data : Nat) : State :=
  s.updDie d fun x => { x with tapSide := { x.tapSide with ir := 0x10, response := frameReply f status data } }

/-- A command row that needs no scope. -/
def freeFrame (d : Die) (code : Nat) (f : Frame) (s : State) (act : State → Nat × Nat × State) : Out :=
  if !s.tapUp || frCmd f ≠ code then .next s
  else if !frClear f then .next (s.respond d f 2 0)
  else
    let (status, data, s) := act s
    .next (s.respond d f status data)

/-- A command row that needs a scope: bit 0 RUN, 1 READ, 2 WRITE (16 R402). -/
def scopedFrame (d : Die) (code scope : Nat) (f : Frame) (s : State) (act : State → Nat × Nat × State) : Out :=
  freeFrame d code f s fun s =>
    if !s.bootSt.unlocked then (1, 0, s)
    else if !s.bootSt.scopeDies.getLsbD d || !bit s.bootSt.scope scope then (4, 0, s)
    else act s

/-! ### Commands without a scope -/

def dyoloCodes : List Nat := [0x00, 0x01, 0x02, 0x03, 0x04, 0x05, 0x06, 0x07, 0x10, 0x11, 0x12, 0x13, 0x14, 0x20, 0x21, 0x30]

/-- NOP returns the previous response. A frame whose CMD is not in the table answers BAD_CMD. -/
def execDyoloNop (d : Die) (frame : BitVec 160) (s : State) : Out :=
  if !s.tapUp then .next s
  else if !dyoloCodes.contains (frCmd frame) then .next (s.respond d frame 2 0)
  else if frCmd frame ≠ 0 then .next s
  else .next (s.updDie d fun x => { x with tapSide := { x.tapSide with ir := 0x10 } })

/-- Streams of a die that a debug halt holds. -/
def State.haltedStreams (s : State) (d : Die) : Nat :=
  ((List.finRange 8).map fun c => match s.stream d c with | some t => b2n t.halted * 2 ^ c.val | none => 0).foldl (· + ·) 0

/-- STATUS: bit 0 is 1 while the port is unlocked (log 54). -/
def execDyoloStatus (d : Die) (frame : BitVec 160) (s : State) : Out :=
  freeFrame d 0x01 frame s fun s =>
    (0, packNat [(b2n s.bootSt.unlocked, 1), (s.bootSt.scope.toNat, 3), (b2n (s.die d).tapSide.haltedController, 1), (s.haltedStreams d, 8),
      (0, 3), (s.bootSt.stage.toNat, 8)], s)

/-- GET_NONCE: on D0 the nonce is the one that a token must carry. -/
def execDyoloGetNonce (d : Die) (frame : BitVec 160) (s : State) : Out :=
  freeFrame d 0x02 frame s fun s =>
    let (n, s) := s.draw
    let s : State := if d = 0 then { s with bootSt := { s.bootSt with nonce := some (Config.nonce n) } } else s
    (0, (Config.nonce n).toNat, s)

/-- Bytes that the push buffer holds: 33 MiB. -/
def pushCapacity : Nat := 34603008

/-- PUSH: appends DATA; a full buffer refuses. -/
def execDyoloPush (d : Die) (frame : BitVec 160) (s : State) : Out :=
  freeFrame d 0x03 frame s fun s =>
    if d ≠ 0 then (2, 0, s)
    else if pushCapacity < s.bootSt.push.length + 8 then (5, 0, s)
    else
      let t : State := { s with bootSt := { s.bootSt with push := s.bootSt.push ++ leBytes 8 (frData frame) } }
      (0, 0, t)

/-- PUSH_RESET. -/
def execDyoloPushReset (d : Die) (frame : BitVec 160) (s : State) : Out :=
  freeFrame d 0x04 frame s fun s =>
    if d ≠ 0 then (2, 0, s)
    else
      let t : State := { s with bootSt := { s.bootSt with push := [] } }
      (0, 0, t)

/-- UNLOCK: verifies the push buffer as a token, and consumes the nonce (16 R403). -/
def execDyoloUnlock (d : Die) (frame : BitVec 160) (s : State) : Out :=
  freeFrame d 0x05 frame s fun s =>
    if d ≠ 0 then (2, 0, s)
    else
      let p := s.bootSt.push
      let body := wordOf 128 (pkgBody p)
      if s.pkgOk [4] p then
        let scope : BitVec 3 := BitVec.ofNat 3 (fld body 2 0)
        let t : State := { s with bootSt := { s.bootSt with
          nonce := none, unlocked := true, scope := scope, scopeDies := BitVec.ofNat 20 (fld body 23 4)
          unlockedSinceBoot := true, scopesGranted := s.bootSt.scopesGranted ||| scope } }
        (0, 0, t.security 4 0 p)
      else
        let t : State := { s with bootSt := { s.bootSt with nonce := none, unlocked := false, scope := 0, scopeDies := 0 } }
        (5, 0, t.security 5 0 p)

/-- Every halted controller and stream goes on. A stream passes the breakpoint that it stands at. -/
def State.resumeAll (s : State) : State :=
  let s := s.updDies fun _ x => { x with tapSide := { x.tapSide with haltedController := false } }
  (List.finRange 8).foldl (fun st c => st.updCtx c fun x =>
    x.updStreams fun _ t => if t.halted then { t with halted := false, single := true } else t) s

/-- RELOCK: locks the port and resumes every halted target. -/
def execDyoloRelock (d : Die) (frame : BitVec 160) (s : State) : Out :=
  freeFrame d 0x06 frame s fun s =>
    let t : State := { s with bootSt := { s.bootSt with unlocked := false, scope := 0, scopeDies := 0 } }
    (0, 0, t.resumeAll)

/-! ### INSTALL and RESET_DEVICE (16 R392, R396, R385) -/

def State.markWritten (s : State) : State := { s with bootSt := { s.bootSt with writeUsed := true } }

/-- INSTALL: a FIRMWARE or a CALIBRATION package from the push buffer. -/
def execDyoloInstall (d : Die) (frame : BitVec 160) (s : State) : Out :=
  scopedFrame d 0x07 2 frame s fun s =>
    let p := s.bootSt.push
    if d ≠ 0 then (2, 0, s)
    else if s.pkgOk [1] p then (0, 0, (s.installFirmware p).markWritten)
    else if s.pkgOk [2] p then (0, 0, (s.installCalibration p).markWritten)
    else (5, 0, (s.refusePkg p).markWritten)

/-- RESET_DEVICE: BOOT ACTION 4. -/
def execDyoloResetDevice (d : Die) (frame : BitVec 160) (s : State) : Out :=
  if s.tapUp && frCmd frame = 0x30 && frClear frame && s.bootSt.unlocked && s.bootSt.scopeDies.getLsbD d && bit s.bootSt.scope 2 then
    .next (s.deviceReset 4)
  else scopedFrame d 0x30 2 frame s fun s => (4, 0, s)

/-! ### Halts (16 R404) -/

/-- The stream that a frame names, when its context exists. -/
def State.frameStream (s : State) (d : Die) (f : Frame) : Option (Ctx × Stream) :=
  if frSpace f = 4 && frCtx f < 8 then (s.stream d (ctxOf (frCtx f))).map fun t => (ctxOf (frCtx f), t) else none

/-- Acts on the target of a frame: the die controller, or a stream; another target answers ACCESS. -/
def onTarget (s : State) (d : Die) (f : Frame) (controller : DebugSt → DebugSt) (stream : Stream → Stream) : Nat × Nat × State :=
  if frSpace f = 0 then (0, 0, s.updDie d fun x => { x with tapSide := controller x.tapSide })
  else match s.frameStream d f with
    | some (c, _) => (0, 0, s.updStream d c stream)
    | none => (4, 0, s)

def execDyoloHalt (d : Die) (frame : BitVec 160) (s : State) : Out :=
  scopedFrame d 0x10 0 frame s fun s =>
    onTarget s d frame (fun x => { x with haltedController := true }) (fun t => { t with halted := true })

def execDyoloResume (d : Die) (frame : BitVec 160) (s : State) : Out :=
  scopedFrame d 0x11 0 frame s fun s =>
    onTarget s d frame (fun x => { x with haltedController := false })
      (fun t => if t.halted then { t with halted := false, single := true } else t)

/-- Breakpoints 0 to 3 of the target's owner: the die controller (context 8) or the die's sequencer. -/
def otherBreaks (f : Frame) (l : List (Nat × Nat × Nat)) : List (Nat × Nat × Nat) :=
  l.filter fun b => !(b.1 = frData f % 4 && decide (b.2.1 = 8) == decide (frSpace f = 0))

def execDyoloBreakSet (d : Die) (frame : BitVec 160) (s : State) : Out :=
  scopedFrame d 0x13 0 frame s fun s =>
    let set := fun (k : Nat) => s.updDie d fun x => { x with tapSide := { x.tapSide with
      breaks := otherBreaks frame x.tapSide.breaks ++ [(frData frame % 4, k, frAddr frame)] } }
    if frSpace frame = 0 then (0, 0, set 8)
    else if frSpace frame = 4 && frCtx frame < 8 then (0, 0, set (frCtx frame))
    else (4, 0, s)

def execDyoloBreakClear (d : Die) (frame : BitVec 160) (s : State) : Out :=
  scopedFrame d 0x14 0 frame s fun s =>
    if frSpace frame = 0 || frSpace frame = 4 then
      (0, 0, s.updDie d fun x => { x with tapSide := { x.tapSide with breaks := otherBreaks frame x.tapSide.breaks } })
    else (4, 0, s)

/-- The row that carries out an instruction word, by its class and operation (01 Table 1.6). A word of no row is invalid. -/
def runWord (d : Die) (c : Ctx) (w : IWord) (x : Phys) (s : State) : Out :=
  match fld w 3 0, fld w 11 4 with
  | 1, 1 => execMmProduct d c w x s
  | 1, 2 => execMmDrain d c w x s
  | 1, 3 => execMmSpill d c w x s
  | 1, 4 => execMmDiscard d c w x s
  | 2, 1 => execShQuant d c w x s
  | 2, 2 => execShDequant d c w x s
  | 2, 3 => execShRotate d c w x s
  | 3, 0x01 => execVxAdd d c w x s
  | 3, 0x02 => execVxSub d c w x s
  | 3, 0x03 => execVxMul d c w x s
  | 3, 0x04 => execVxFma d c w x s
  | 3, 0x05 => execVxMax d c w x s
  | 3, 0x06 => execVxMin d c w x s
  | 3, 0x07 => execVxScale d c w x s
  | 3, 0x08 => execVxConvert d c w x s
  | 3, 0x09 => execVxFunc d c w x s
  | 3, 0x10 => execVxReduce d c w x s
  | 3, 0x11 => execVxSoftmax d c w x s
  | 3, 0x12 => execVxSoftmaxBwd d c w x s
  | 3, 0x13 => execVxNorm d c w x s
  | 3, 0x14 => execVxNormBwd d c w x s
  | 3, 0x18 => execVxTopk d c w x s
  | 3, 0x20 => execVxRelu d c w x s
  | 3, 0x21 => execVxDropout d c w x s
  | 3, 0x22 => execVxMaxpool d c w x s
  | 3, 0x23 => execVxMaskmul d c w x s
  | 3, 0x24 => execVxUnpool d c w x s
  | 3, 0x25 => execVxMaskgen d c w x s
  | 3, 0x26 => execVxRandom d c w x s
  | 3, 0x30 => execVxTable d c w x s
  | 3, 0x31 => execVxKvappend d c w x s
  | 3, 0x32 => execVxKvscore d c w x s
  | 3, 0x33 => execVxKvmix d c w x s
  | 4, 1 => execUpStep d c w x s
  | 4, 2 => execUpWcopy d c w x s
  | 4, 3 => execUpVerdict d c w s
  | 5, 1 => execMvCopy d c w x s
  | 5, 2 => execMvSetcopy d c w x s
  | 5, 3 => execMvGather d c w x s
  | 5, 4 => execMvScatter d c w x s
  | 5, 5 => execMvScatterAdd d c w x s
  | 5, 6 => execMvWindow d c w x s
  | 5, 7 => execMvFill d c w x s
  | 5, 8 => execMvSeal d c w x s
  | 6, 1 => execClShift d c w x s
  | 6, 2 => execClPermute d c w x s
  | 6, 3 => execClAlltoall d c w x s
  | 6, 4 => execClGradsend d c w x s
  | 6, 5 => execClGradrecv d c w x s
  | 6, 6 => execClReduce d c w x s
  | 6, 7 => execClReduceScatter d c w x s
  | 6, 8 => execClGather d c w x s
  | 6, 9 => execClBcast d c w x s
  | 6, 10 => execClSetcast d c w x s
  | 6, 11 => execClExpress d c w x s
  | 7, 1 => execSyWait d c w s
  | 7, 2 => execSySignal d c w s
  | 7, 3 => execSySet d c w s
  | 7, 4 => execSyFence d c w s
  | 7, 5 => execSyJump d c w s
  | 8, 0 => execMkStep d c w s
  | 9, 1 => execCfSeed d c w s
  | 9, 2 => execCfAccdef d c w s
  | 9, 3 => execCfTimeout d c w s
  | _, _ => execCfNop d c w s

/-- The stream issues its next instruction once, and is halted again; true: it issued, or faulted. -/
def State.stepStream (s : State) (d : Die) (c : Ctx) (w : IWord) (x : Phys) : Bool × State :=
  let issued := fun (t : State) => ((t.stream d c).getD Stream.reset).issued
  let going := s.updStream d c fun t => { t with halted := false, single := true }
  match runWord d c w x going with
  | .next t =>
    let ran := decide (issued t ≠ issued s) || !(((t.stream d c).getD Stream.reset).launched)
    (ran, t.updStream d c fun u => { u with halted := true, single := false })
  | _ => (false, s)

/-- STEP: one instruction of a halted stream; BUSY while its wait holds. A die controller's instruction is firmware. -/
def execDyoloStep (d : Die) (frame : BitVec 160) (x : Phys) (s : State) : Out :=
  scopedFrame d 0x12 0 frame s fun s =>
    if frSpace frame = 0 then (if (s.die d).tapSide.haltedController then (0, 0, s) else (5, 0, s))
    else match s.frameStream d frame with
      | none => (4, 0, s)
      | some (c, t) =>
        if !t.halted || !t.launched then (5, 0, s)
        else match s.ctx c with
          | none => (4, 0, s)
          | some y =>
            let (ran, s) := s.stepStream d c (s.wordAt d y t.pc) x
            (if ran then 0 else 3, 0, s)

/-! ### READ and WRITE (16 R405) -/

/-- Where a frame's eight bytes lie, for the memory spaces; none: outside its space, or not 8-byte aligned. -/
def framePlace (d : Die) (f : Frame) : Option Place :=
  if frAddr f % 8 ≠ 0 then none
  else match frSpace f with
    | 2 => if frAddr f < 2 ^ 26 then some (.sp d (frAddr f)) else none
    | 3 => deviceAddr d (frAddr f)
    | _ => none

/-- Block and offset of a register space address: 64 KiB for each block of GET_STATUS (log 54). -/
def frameBlock (f : Frame) : Option (Nat × Nat) :=
  if frSpace f = 1 && frAddr f % 8 = 0 && frAddr f < 0x40000 then some (frAddr f / 65536, frAddr f % 65536) else none

/-- Eight bytes of a die controller's memory. -/
def State.controllerBytes (s : State) (d : Die) (a : Nat) : Bytes :=
  (List.range 8).map fun i => (SMap.find (s.die d).tapSide.memory (a + i)).getD (Config.controllerByte d (a + i))

/-- READ: the bytes as stored; a word or codeword that its read finds in error is corrected or poisoned first (09 R201,
08 R191). -/
def execDyoloRead (d : Die) (frame : BitVec 160) (x : Phys) (s : State) : Out :=
  scopedFrame d 0x20 1 frame s fun s =>
    if frSpace frame = 0 then
      (if frAddr frame % 8 = 0 then (0, leNat (s.controllerBytes d (frAddr frame)), s) else (4, 0, s))
    else match frameBlock frame, framePlace d frame with
      | some (b, o), _ => (0, leNat (segRead (s.block d b) o 8), s)
      | none, some p =>
        let s := s.applyPhys x
        let lost := match p with | .host _ => s.host.link.isNone | _ => false
        (if lost || (s.poisonAt p).isSome then 6 else 0, leNat (s.read p 8), s)
      | none, none => (4, 0, s)

/-- A debug write to a register of a die follows its access code: STALL_CFG, CNT, HIST_SEL and WINDOW_SHIFT take it. -/
def DieSt.writeReg (x : DieSt) (d : Die) (b o : Nat) (v : BitVec 64) (since : Nat) : DieSt :=
  if b = 1 && 0x100 ≤ o && o < 0x180 && o % 16 = 0 then
    let k := (o - 0x100) / 16
    { x with stalls := Vector.ofFn fun i =>
        if i.val = k then { x.stalls[i].configure (BitVec.ofNat 20 (fld v 19 0)) with enable := bit v 20 } else x.stalls[i] }
  else if b = 3 && o < 0x200 && o % 16 = 0 then
    { x with counters := x.counters.setIfInBounds (o / 16) { select := BitVec.ofNat 64 (fld v 28 0), value := 0 } }
  else if b = 3 && 0x400 ≤ o && o < 0x420 then
    let k := (o - 0x400) / 4
    let sel := fun (w : Nat) => Histogram.fresh (BitVec.ofNat 32 (w % 2 ^ 21)) since
    { x with hists := (x.hists.setIfInBounds k (sel (fld v 31 0))).setIfInBounds (k + 1) (sel (fld v 63 32)) }
  else if b = 3 && 0x800 ≤ o && o < 0x8A0 && o % 32 = 16 then
    let k := (o - 0x800) / 32
    if hasBw d ⟨k % 5, Nat.mod_lt _ (by decide)⟩ && inRange (fld v 36 32) 16 26 then
      { x with bw := x.bw.setIfInBounds k { BwWin.reset with shift := BitVec.ofNat 5 (fld v 36 32) } } else x
  else x

/-- WRITE: a partial write, which reads the word or codeword that it merges into (09 R201, 08 R177, R191). -/
def execDyoloWrite (d : Die) (frame : BitVec 160) (x : Phys) (s : State) : Out :=
  scopedFrame d 0x21 2 frame s fun s =>
    let bs := leBytes 8 (frData frame)
    if frSpace frame = 0 then
      (if frAddr frame % 8 = 0 then
        (0, 0, (s.updDie d fun x => { x with tapSide := { x.tapSide with
          memory := bs.zipIdx.foldl (fun m e => SMap.insert m (frAddr frame + e.2) e.1) x.tapSide.memory } }).markWritten)
      else (4, 0, s))
    else match frameBlock frame, framePlace d frame with
      | some (b, o), _ => (0, 0, (s.draw.2.updDie d fun x => x.writeReg d b o (BitVec.ofNat 64 (frData frame)) s.freeCtr).markWritten)
      | none, some p =>
        let s := s.applyPhys x
        (match p with
          | .host _ => if s.host.link.isNone then (4, 0, s) else (0, 0, (s.write p bs false).markWritten)
          | _ => (0, 0, (s.write p bs false).markWritten))
      | none, none => (4, 0, s)

/-! ### The tap (16 R400, Table 16.9) -/

def State.selectIr (s : State) (d : Die) (ir : BitVec 8) (f : DebugSt → DebugSt) : State :=
  s.updDie d fun x => { x with tapSide := { f x.tapSide with ir := ir } }

/-- The tap has power. -/
def State.tapPowered (s : State) : Bool := s.power.state ≠ .off

/-- EXTEST drives the boundary cells while the module reset input is asserted; at any other time it selects BYPASS. -/
def execExtest (d : Die) (cells : BitVec 64) (s : State) : Out :=
  if !s.tapPowered then .next s
  else if s.power.resetAsserted then .next (s.selectIr d 0x00 fun x => { x with boundary := cells })
  else .next (s.selectIr d 0xFF id)

/-- SAMPLE/PRELOAD, likewise. -/
def execSamplePreload (d : Die) (cells : BitVec 64) (s : State) : Out :=
  if !s.tapPowered then .next s
  else if s.power.resetAsserted then .next (s.selectIr d 0x02 fun x => { x with boundary := cells })
  else .next (s.selectIr d 0xFF id)

/-- IDCODE: the identification register is what shifts out. -/
def execIdcode (d : Die) (s : State) : Out :=
  if !s.tapPowered then .next s else .next (s.selectIr d 0x01 fun x => { x with response := 0x2720058B })

/-- BYPASS: one bit, 0 as it is captured. -/
def execBypass (d : Die) (s : State) : Out :=
  if !s.tapPowered then .next s else .next (s.selectIr d 0xFF fun x => { x with response := 0 })

/-- TAP_RESET: every die's tap goes to Test-Logic-Reset, which selects IDCODE (log 54). -/
def execTapReset (s : State) : Out :=
  if !s.tapPowered then .next s
  else .next (s.updDies fun _ x => { x with tapSide := { x.tapSide with ir := 0x01 } })

end Sys2Proof.Machine
end

