-- ==== Sys2Proof/Machine/Power.lean ====
section
/-! DEFINITION. Power states, the drain, capping and the reference clocks (17). -/
namespace Sys2Proof.Machine

def State.setPower (s : State) (f : PowerSt → PowerSt) : State := { s with power := f s.power }

/-! ### Rails (17 R407 to R409, Table 17.2) -/

/-- The rails fall: no register holds state, every output is released. `clean`: the drain had written its checkpoint. -/
def State.railsFall (s : State) (clean : Bool) : State :=
  let t := s.deviceReset 1
  { t with
    bootSt := { t.bootSt with cause := 1, cleanShutdown := clean }
    power := { t.power with state := .off, railsOk := false, resetHold := false, starting := false, thermtripN := false, inputW := 0 } }

/-- An input the module works from (17 Table 17.1). -/
def inputInRange (mv : Nat) : Bool := inRange mv 44000 58000

/-- POWER_ON: PWR_EN goes high. Only this edge, with the input in range, starts the converters. -/
def execPowerOn (inputMv : Nat) (s : State) : Out :=
  if s.power.pwrEn then .next s
  else .next (s.setPower fun p => { p with
    pwrEn := true, inputMv := inputMv, inputPeakMv := inputMv, thermtripN := false
    starting := p.state = .off && inputInRange inputMv })

/-- Whatever reached the dies while they were held in reset leaves nothing behind; what the next BOOT record will say of the
reset stays. -/
def State.afresh (s : State) : State :=
  let t := s.deviceReset s.bootSt.cause
  { t with bootSt := { t.bootSt with cause := s.bootSt.cause, cleanShutdown := s.bootSt.cleanShutdown } }

/-- RAILS_GOOD: every rail is within its window, and the device is in reset. With RESET_N released already it stays there for
a millisecond (17 R408; 16 R385). -/
def execRailsGood (s : State) : Out :=
  if s.power.state = .off && s.power.starting then
    .next (s.afresh.setPower fun p => { p with state := .reset, railsOk := true, starting := false, resetHold := !p.resetAsserted })
  else .next s

/-- POWER_OFF: PWR_EN goes low and the rails fall. -/
def execPowerOff (s : State) : Out :=
  let s := s.setPower fun p => { p with pwrEn := false, starting := false, thermtripN := false }
  if s.power.state = .off then .next s else .next (s.railsFall (s.power.state = .drain && s.power.shutdownAck))

/-- INPUT_VOLTAGE_FAULT: the input crosses the undervoltage or the overvoltage threshold, each of which lies within 1 V of
its nominal value. -/
def execInputVoltageFault (inputMv : Nat) (s : State) : Out :=
  let s := s.setPower fun p => { p with inputMv := inputMv }
  if inRange inputMv 41000 59000 then .next s
  else if s.power.state = .off then .next (s.setPower fun p => { p with starting := false })
  else .next (s.railsFall false)

/-- RIDE_THROUGH_ENTRY: the input falls between 40 V and 44 V. -/
def execRideThroughEntry (inputMv : Nat) (s : State) : Out :=
  if s.power.state ≠ .off && 40000 ≤ inputMv && inputMv < 44000 then
    .next (s.setPower fun p => { p with
      inputMv := inputMv, rideThrough := some (p.rideThrough.getD s.now)
      inputPeakMv := if p.rideThrough.isSome then min p.inputPeakMv inputMv else inputMv })
  else .next s

/-- RIDE_THROUGH_EXPIRY: 10 ms below 44 V. -/
def execRideThroughExpiry (s : State) : Out :=
  if s.power.state ≠ .off && s.power.rideThrough.isSome then .next (s.railsFall false) else .next s

/-- An excursion record: which of 1 to 4, the sensor, the peak, the limit and the duration (13 Table 13.13). -/
def State.excursion (s : State) (action sensor peak limit us : Nat) : State :=
  s.logDevice 0x0F 0 none true (eventBody action 0 0 sensor peak limit us 0)

/-- INPUT_VOLTAGE_RECOVERED: the peak of an excursion downwards is its lowest voltage. -/
def execInputVoltageRecovered (inputMv : Nat) (durationUs : Nat) (s : State) : Out :=
  if s.power.rideThrough.isSome && inputInRange inputMv then
    let low := s.power.inputPeakMv
    let s := s.setPower fun p => { p with inputMv := inputMv, inputPeakMv := inputMv, rideThrough := none }
    .next (if s.up then s.excursion 1 0 low 44000 durationUs else s)
  else .next s

/-- RAIL_LEAVES_WINDOW: RAILS_OK_N is released; with the rails fallen THERMTRIP_N is too. -/
def execRailLeavesWindow (s : State) : Out :=
  .next (s.setPower fun p => { p with railsOk := false, thermtripN := p.thermtripN && p.state ≠ .off })

/-- THERMTRIP: a trip comparator of any powered die pulls THERMTRIP_N low and shuts the converters down. The pin stays low
until the fallen rails release it (log 56). -/
def execThermtrip (_d : Die) (s : State) : Out :=
  if s.power.state = .off then .next s
  else .next ((s.railsFall false).setPower fun p => { p with thermtripN := true })

/-! ### Reset (16 R385, R386; 17 R408) -/

/-- MODULE_RESET: RESET_N goes low. The reset wins over a drain (17 R411). -/
def execModuleReset (s : State) : Out :=
  if s.power.state = .off then .next (s.setPower fun p => { p with resetAsserted := true })
  else .next ((s.deviceReset 1).setPower fun p => { p with state := .reset, resetAsserted := true, resetHold := false })

/-- RESET_RELEASE: the dies leave reset when the rails have been good for 1 ms. -/
def execResetRelease (railsGoodUs : Nat) (s : State) : Out :=
  let s := s.setPower fun p => { p with
    resetHold := p.state = .reset && p.resetAsserted && railsGoodUs < 1000 || p.resetHold, resetAsserted := false }
  if s.power.state = .reset && !s.power.resetHold then .next (s.afresh.setPower fun p => { p with state := .run }) else .next s

/-- RESET_HOLD_EXPIRY: that millisecond has passed. -/
def execResetHoldExpiry (s : State) : Out :=
  if s.power.state = .reset && s.power.resetHold then .next (s.afresh.setPower fun p => { p with state := .run, resetHold := false })
  else .next s

/-! ### The drain (17 R410, R411) -/

/-- Every context's streams stop as Suphor STOP stops them. -/
def State.stopAll (s : State) : State :=
  (List.finRange 8).foldl (fun st c => match st.ctx c with
    | some x => if x.running then st.faultStop c .halted else st
    | none => st) s

/-- MODULE_DRAIN: SHUTDOWN_REQ_N goes low. Before BOOT_STAGE 0xFF the boot stops and is acknowledged. -/
def execModuleDrain (s : State) : Out :=
  let s := s.setPower fun p => { p with shutdownReq := true }
  if s.power.state ≠ .run then .next s
  else if s.bootSt.stage = 0xFF then .next (s.stopAll.setPower fun p => { p with state := .drain })
  else .next (s.setPower fun p => { p with shutdownAck := true })

/-- DRAIN_COMPLETE: the checkpoint reaches flash after every record already queued, and SHUTDOWN_ACK_N goes low. -/
def execDrainComplete (s : State) : Out :=
  if s.power.state = .drain && !s.power.shutdownAck then
    .next ((s.checkpoint 4).flushAll.setPower fun p => { p with shutdownAck := true })
  else .next s

/-- SHUTDOWN_REQ_RELEASE: the drain runs to its end all the same. -/
def execShutdownReqRelease (s : State) : Out := .next (s.setPower fun p => { p with shutdownReq := false })

/-! ### Capping (17 R412 to R415) -/

/-- The board limit of Table 17.5. -/
def boardLimit (code : BitVec 2) : Nat := if code = 3 then 3400 else if code = 2 then 2800 else if code = 1 then 2200 else 1600

/-- The coolant limit in W, rounded down (log 57). -/
def coolantLimit (inletMilliC : Int) : Nat :=
  3400 - ceilDiv (min 45000 (max 40000 inletMilliC) - 40000).toNat 10

/-- The effective limit is the lowest of the three. -/
def State.setLimit (s : State) : State :=
  (s.setPower fun p => { p with effectiveW := min (min (boardLimit p.limitCode) (coolantLimit p.inletMilliC)) 3400 }).cappingEpisode

/-- PWR_LIMIT_SAMPLE: every 1 ms. -/
def execPwrLimitSample (code : BitVec 2) (s : State) : Out :=
  if !s.up then .next s else .next (s.setPower fun p => { p with limitCode := code }).setLimit

/-- One step of 14 MHz down, to no less than 700 MHz. -/
def stepDown (mhz : Nat) : Nat := max 700 (mhz - 14)
/-- One step up, to no more than 1,400 MHz. -/
def stepUp (mhz : Nat) : Nat := min 1400 (mhz + 14)

/-- The next clock and the next count of samples below 97% of the limit. After a step up the count starts anew. -/
def cappingStep (watts limit mhz below : Nat) : Nat × Nat :=
  if limit < watts then (stepDown mhz, 0)
  else if 100 * watts < 97 * limit then (if 100 ≤ below + 1 then (stepUp mhz, 0) else (mhz, below + 1))
  else (mhz, 0)

/-- POWER_SAMPLE: every 10 µs. A capped die counts the 10,000 cclk of the sample (17 R414; log 58). -/
def execPowerSample (watts : Nat) (avg100us : Nat) (s : State) : Out :=
  if !s.up then .next s
  else
    let s := (List.finRange 20).foldl (fun st (d : Die) =>
      let x := st.die d
      if x.aclk < 1400 || x.vclk < 1400 then st.count d 0xA05 0 none 10000 else st) s
    let (mhz, below) := cappingStep watts s.power.effectiveW (s.die 0).powerMhz s.power.belowCount
    let s := s.updDies fun _ x => { x with powerMhz := mhz, capPower := mhz < 1400 }
    let s := s.setPower fun p => { p with
      inputW := avg100us, belowCount := below
      skipAlternate := if 3800 < avg100us then true else if avg100us < 3600 then false else p.skipAlternate }
    .next s.cappingEpisode

/-- CAPPING_EPISODE_END: the clocks have run at nominal for 1 s. -/
def execCappingEpisodeEnd (durationUs : Nat) (s : State) : Out :=
  match s.power.episode with
  | some (peak, limit) =>
    if s.up && s.dies.toList.all (fun x => 1400 ≤ x.powerMhz && 1400 ≤ x.marginMhz) then
      .next ((s.setPower fun p => { p with episode := none }).excursion 2 2 peak limit durationUs)
    else .next s
  | none => .next s

/-- Thermal capping of one die at a sample: above a threshold one step down, 2 °C below both one step up. -/
def thermalStep (die stack mhz : Nat) : Nat :=
  if 100000 < die || 92000 < stack then stepDown mhz
  else if die ≤ 98000 && stack ≤ 90000 then stepUp mhz
  else mhz

/-- The episode after a sample, if there is one. -/
def thermalEpisodeStep (e : Option ThermalEpisode) (die stack mhz : Nat) : Option ThermalEpisode :=
  match e with
  | some e => some { e with
      peakMilliC := max e.peakMilliC (if e.stack then stack else die), samples := e.samples + 1
      atNominal := if mhz < 1400 then 0 else e.atNominal + 1 }
  | none =>
    if mhz < 1400 then
      some { stack := die ≤ 100000, peakMilliC := if die ≤ 100000 then stack else die, samples := 0, atNominal := 0 }
    else none

/-- One die's sample. An episode whose clocks have been at nominal for 10,000 samples ends with its record. -/
def State.thermalDie (s : State) (d : Die) (die stack : Nat) : State :=
  let x := s.die d
  let mhz := thermalStep die stack x.thermalMhz
  let e := thermalEpisodeStep x.thermalEpisode die stack mhz
  let s := s.updDie d fun x => { x with
    dieTempC := (die / 1000 : Nat), stackTempC := (stack / 1000 : Nat), thermalMhz := mhz, capTemp := mhz < 1400, thermalEpisode := e }
  match e with
  | some e =>
    if 10000 ≤ e.atNominal then
      (s.updDie d fun x => { x with thermalEpisode := none }).excursion 3 (if e.stack then 23 + d else 3 + d) e.peakMilliC
        (if e.stack then 92000 else 100000) (100 * e.samples)
    else s
  | none => s

/-- Coolant over its limits writes a record when it goes over (17 R416). -/
def State.coolant (s : State) (inlet outlet : Nat) : State :=
  let warm := decide (inlet + 25000 < outlet)
  let hot := decide (45000 < inlet)
  let was := s.power.coolantHigh
  let s := s.setPower fun p => { p with inletMilliC := (inlet : Int), outletMilliC := (outlet : Int), coolantHigh := warm || hot }
  if was || !(warm || hot) then s
  else if hot then s.excursion 4 43 inlet 45000 0
  else s.excursion 4 44 outlet (inlet + 25000) 0

/-- THERMAL_SAMPLE: every 100 µs each die reads its own sensor and its stack's. A die without a reading keeps its own. -/
def execThermalSample (dieMilliC : List Nat) (stackMilliC : List Nat) (inletMilliC : Nat) (outletMilliC : Nat) (s : State) : Out :=
  if !s.up then .next s
  else
    let s := (List.finRange 20).foldl (fun st (d : Die) =>
      match dieMilliC[d.val]?, stackMilliC[d.val]? with
      | some a, some b => st.thermalDie d a b
      | _, _ => st) s
    .next (s.coolant inletMilliC outletMilliC).setLimit

/-! ### Reference clocks (17 R419) -/

/-- HOST_REFCLK_LOSS. -/
def execHostRefclkLoss (s : State) : Out :=
  let s := s.setPower fun p => { p with hostRefclk := false }
  .next (if s.host.link.isSome then s.dropHostLink else s)

/-- FAB_REFCLK_LOSS: every link loses lock. -/
def execFabRefclkLoss (s : State) : Out :=
  let s := s.setPower fun p => { p with fabRefclk := false }
  .next ((List.finRange 32).foldl (fun st (l : Link) =>
    if (st.link l).state = 2 then st.leaveService l 3
    else if (st.link l).state = 1 then st.updLink l fun x => { x with trained := false } else st) s)

/-- FAB_REFCLK_RETURN: the links that are training can lock again. -/
def execFabRefclkReturn (s : State) : Out := .next (s.setPower fun p => { p with fabRefclk := true })

end Sys2Proof.Machine
end

