-- ==== Sys2Proof/Machine/Dispatch.lean ====
section
/-! DEFINITION. One arm per command. -/
namespace Sys2Proof.Machine

/-- A command's effect on everything but the queue. -/
def exec (i : Instr) (s : State) : Host.Outcome State Fault Refusal :=
  match i with
  | .syWait d c w => Sys2Proof.Machine.execSyWait d c w s
  | .sySignal d c w => Sys2Proof.Machine.execSySignal d c w s
  | .sySet d c w => Sys2Proof.Machine.execSySet d c w s
  | .syFence d c w => Sys2Proof.Machine.execSyFence d c w s
  | .syJump d c w => Sys2Proof.Machine.execSyJump d c w s
  | .mkStep d c w => Sys2Proof.Machine.execMkStep d c w s
  | .mkFencePassed c => Sys2Proof.Machine.execMkFencePassed c s
  | .mkReductionReceived c step verdict stats check stepsAgree restorable retirementMap => Sys2Proof.Machine.execMkReductionReceived c step verdict stats check stepsAgree restorable retirementMap s
  | .cfSeed d c w => Sys2Proof.Machine.execCfSeed d c w s
  | .cfAccdef d c w => Sys2Proof.Machine.execCfAccdef d c w s
  | .cfTimeout d c w => Sys2Proof.Machine.execCfTimeout d c w s
  | .cfNop d c w => Sys2Proof.Machine.execCfNop d c w s
  | .instructionComplete d c index => Sys2Proof.Machine.execInstructionComplete d c index s
  | .syncTimeout d c => Sys2Proof.Machine.execSyncTimeout d c s
  | .shQuant d c w x => Sys2Proof.Machine.execShQuant d c w x s
  | .shDequant d c w x => Sys2Proof.Machine.execShDequant d c w x s
  | .shRotate d c w x => Sys2Proof.Machine.execShRotate d c w x s
  | .mmProduct d c w x => Sys2Proof.Machine.execMmProduct d c w x s
  | .tileCheckComplete d a upset x => Sys2Proof.Machine.execTileCheckComplete d a upset x s
  | .mmDrain d c w x => Sys2Proof.Machine.execMmDrain d c w x s
  | .mmSpill d c w x => Sys2Proof.Machine.execMmSpill d c w x s
  | .mmDiscard d c w x => Sys2Proof.Machine.execMmDiscard d c w x s
  | .vxAdd d c w x => Sys2Proof.Machine.execVxAdd d c w x s
  | .vxSub d c w x => Sys2Proof.Machine.execVxSub d c w x s
  | .vxMul d c w x => Sys2Proof.Machine.execVxMul d c w x s
  | .vxFma d c w x => Sys2Proof.Machine.execVxFma d c w x s
  | .vxMax d c w x => Sys2Proof.Machine.execVxMax d c w x s
  | .vxMin d c w x => Sys2Proof.Machine.execVxMin d c w x s
  | .vxScale d c w x => Sys2Proof.Machine.execVxScale d c w x s
  | .vxConvert d c w x => Sys2Proof.Machine.execVxConvert d c w x s
  | .vxFunc d c w x => Sys2Proof.Machine.execVxFunc d c w x s
  | .vxReduce d c w x => Sys2Proof.Machine.execVxReduce d c w x s
  | .vxSoftmax d c w x => Sys2Proof.Machine.execVxSoftmax d c w x s
  | .vxSoftmaxBwd d c w x => Sys2Proof.Machine.execVxSoftmaxBwd d c w x s
  | .vxNorm d c w x => Sys2Proof.Machine.execVxNorm d c w x s
  | .vxNormBwd d c w x => Sys2Proof.Machine.execVxNormBwd d c w x s
  | .vxTopk d c w x => Sys2Proof.Machine.execVxTopk d c w x s
  | .vxRelu d c w x => Sys2Proof.Machine.execVxRelu d c w x s
  | .vxDropout d c w x => Sys2Proof.Machine.execVxDropout d c w x s
  | .vxMaxpool d c w x => Sys2Proof.Machine.execVxMaxpool d c w x s
  | .vxMaskmul d c w x => Sys2Proof.Machine.execVxMaskmul d c w x s
  | .vxUnpool d c w x => Sys2Proof.Machine.execVxUnpool d c w x s
  | .vxMaskgen d c w x => Sys2Proof.Machine.execVxMaskgen d c w x s
  | .vxRandom d c w x => Sys2Proof.Machine.execVxRandom d c w x s
  | .vxTable d c w x => Sys2Proof.Machine.execVxTable d c w x s
  | .vxKvappend d c w x => Sys2Proof.Machine.execVxKvappend d c w x s
  | .vxKvscore d c w x => Sys2Proof.Machine.execVxKvscore d c w x s
  | .vxKvmix d c w x => Sys2Proof.Machine.execVxKvmix d c w x s
  | .upStep d c w x => Sys2Proof.Machine.execUpStep d c w x s
  | .upWcopy d c w x => Sys2Proof.Machine.execUpWcopy d c w x s
  | .upVerdict d c w => Sys2Proof.Machine.execUpVerdict d c w s
  | .roundVerdictReceived c round verdict roundsAgree => Sys2Proof.Machine.execRoundVerdictReceived c round verdict roundsAgree s
  | .mvCopy d c w x => Sys2Proof.Machine.execMvCopy d c w x s
  | .mvSetcopy d c w x => Sys2Proof.Machine.execMvSetcopy d c w x s
  | .mvGather d c w x => Sys2Proof.Machine.execMvGather d c w x s
  | .mvScatter d c w x => Sys2Proof.Machine.execMvScatter d c w x s
  | .mvScatterAdd d c w x => Sys2Proof.Machine.execMvScatterAdd d c w x s
  | .mvWindow d c w x => Sys2Proof.Machine.execMvWindow d c w x s
  | .mvFill d c w x => Sys2Proof.Machine.execMvFill d c w x s
  | .mvSeal d c w x => Sys2Proof.Machine.execMvSeal d c w x s
  | .clShift d c w x => Sys2Proof.Machine.execClShift d c w x s
  | .clPermute d c w x => Sys2Proof.Machine.execClPermute d c w x s
  | .clAlltoall d c w x => Sys2Proof.Machine.execClAlltoall d c w x s
  | .clGradsend d c w x => Sys2Proof.Machine.execClGradsend d c w x s
  | .clGradrecv d c w x => Sys2Proof.Machine.execClGradrecv d c w x s
  | .clReduce d c w x => Sys2Proof.Machine.execClReduce d c w x s
  | .clReduceScatter d c w x => Sys2Proof.Machine.execClReduceScatter d c w x s
  | .clGather d c w x => Sys2Proof.Machine.execClGather d c w x s
  | .clBcast d c w x => Sys2Proof.Machine.execClBcast d c w x s
  | .clSetcast d c w x => Sys2Proof.Machine.execClSetcast d c w x s
  | .clExpress d c w x => Sys2Proof.Machine.execClExpress d c w x s
  | .clSlotGranted d c => Sys2Proof.Machine.execClSlotGranted d c s
  | .collectiveTimeout d c index => Sys2Proof.Machine.execCollectiveTimeout d c index s
  | .expressResend c group => Sys2Proof.Machine.execExpressResend c group s
  | .linkCodewordReceived l r => Sys2Proof.Machine.execLinkCodewordReceived l r s
  | .idleFlit l f => Sys2Proof.Machine.execIdleFlit l f s
  | .creditFlit l f => Sys2Proof.Machine.execCreditFlit l f s
  | .replayFlit l f => Sys2Proof.Machine.execReplayFlit l f s
  | .abortFlit l f => Sys2Proof.Machine.execAbortFlit l f s
  | .helloFlit l f => Sys2Proof.Machine.execHelloFlit l f s
  | .controlFlitInterval l => Sys2Proof.Machine.execControlFlitInterval l s
  | .laneLockLost l lane => Sys2Proof.Machine.execLaneLockLost l lane s
  | .linkRetrainDone l ok => Sys2Proof.Machine.execLinkRetrainDone l ok s
  | .routerPacketArrival from_ p => Sys2Proof.Machine.execRouterPacketArrival from_ p s
  | .packetAdvance index => Sys2Proof.Machine.execPacketAdvance index s
  | .packetStaleTimeout index => Sys2Proof.Machine.execPacketStaleTimeout index s
  | .putReceived p => Sys2Proof.Machine.execPutReceived p s
  | .signalReceived p => Sys2Proof.Machine.execSignalReceived p s
  | .getReqReceived p x => Sys2Proof.Machine.execGetReqReceived p x s
  | .getRespReceived p => Sys2Proof.Machine.execGetRespReceived p s
  | .collReceived p => Sys2Proof.Machine.execCollReceived p s
  | .expressReceived p => Sys2Proof.Machine.execExpressReceived p s
  | .ackReceived p => Sys2Proof.Machine.execAckReceived p s
  | .nakReceived p => Sys2Proof.Machine.execNakReceived p s
  | .msgAckReceived p => Sys2Proof.Machine.execMsgAckReceived p s
  | .mgmtReceived p => Sys2Proof.Machine.execMgmtReceived p s
  | .ackTimer d srcNode srcDie space => Sys2Proof.Machine.execAckTimer d srcNode srcDie space s
  | .e2eTimeout d index => Sys2Proof.Machine.execE2eTimeout d index s
  | .nakBackoffExpiry d index => Sys2Proof.Machine.execNakBackoffExpiry d index s
  | .trackingEntryExpiry d srcNode srcDie space => Sys2Proof.Machine.execTrackingEntryExpiry d srcNode srcDie space s
  | .memoryRequest d address len op who => Sys2Proof.Machine.execMemoryRequest d address len op who s
  | .memoryReadReturn d errs => Sys2Proof.Machine.execMemoryReadReturn d errs s
  | .rowRepair d pc bank sid row errs => Sys2Proof.Machine.execRowRepair d pc bank sid row errs s
  | .pageRetirement d page => Sys2Proof.Machine.execPageRetirement d page s
  | .scrubGranule d errs => Sys2Proof.Machine.execScrubGranule d errs s
  | .retrainStart d pc cause => Sys2Proof.Machine.execRetrainStart d pc cause s
  | .retrainDone d pc eyes => Sys2Proof.Machine.execRetrainDone d pc eyes s
  | .stallWindow d demand => Sys2Proof.Machine.execStallWindow d demand s
  | .hostMemAccess dpa op errs => Sys2Proof.Machine.execHostMemAccess dpa op errs s
  | .lockstepMismatch d => Sys2Proof.Machine.execLockstepMismatch d s
  | .captureWrite d => Sys2Proof.Machine.execCaptureWrite d s
  | .spareTest d pass => Sys2Proof.Machine.execSpareTest d pass s
  | .spareEnterService d => Sys2Proof.Machine.execSpareEnterService d s
  | .checkerSelftest d unit a pass => Sys2Proof.Machine.execCheckerSelftest d unit a pass s
  | .gambitRun d a vectorEngine gambit vector mismatches => Sys2Proof.Machine.execGambitRun d a vectorEngine gambit vector mismatches s
  | .quietWorkStart d arrays work lengthUs => Sys2Proof.Machine.execQuietWorkStart d arrays work lengthUs s
  | .quietWindowEnd c => Sys2Proof.Machine.execQuietWindowEnd c s
  | .arrayBorrow d a work => Sys2Proof.Machine.execArrayBorrow d a work s
  | .arrayReturn d a mismatches => Sys2Proof.Machine.execArrayReturn d a mismatches s
  | .marginSweepDone d a topMhz tempC => Sys2Proof.Machine.execMarginSweepDone d a topMhz tempC s
  | .linkEyeScan l eyes tempC => Sys2Proof.Machine.execLinkEyeScan l eyes tempC s
  | .tallyPeriod d => Sys2Proof.Machine.execTallyPeriod d s
  | .tallyDump d => Sys2Proof.Machine.execTallyDump d s
  | .bwWindowEnd d win tx rx => Sys2Proof.Machine.execBwWindowEnd d win tx rx s
  | .lifetimeRecord d => Sys2Proof.Machine.execLifetimeRecord d s
  | .ledgerCheckpoint => Sys2Proof.Machine.execLedgerCheckpoint s
  | .ledgerFlashWrite => Sys2Proof.Machine.execLedgerFlashWrite s
  | .datagramSend => Sys2Proof.Machine.execDatagramSend s
  | .lifetimeRecordsRequest who q => Sys2Proof.Machine.execLifetimeRecordsRequest who q s
  | .rollingRecordsRequest who q => Sys2Proof.Machine.execRollingRecordsRequest who q s
  | .historyDatagramsRequest who q => Sys2Proof.Machine.execHistoryDatagramsRequest who q s
  | .captureSlotRequest who q => Sys2Proof.Machine.execCaptureSlotRequest who q s
  | .captureExportedRequest who q => Sys2Proof.Machine.execCaptureExportedRequest who q s
  | .checkpointNowRequest who q => Sys2Proof.Machine.execCheckpointNowRequest who q s
  | .mctpGambitInstall package => Sys2Proof.Machine.execMctpGambitInstall package s
  | .generationCopyDone c generation own namesBack => Sys2Proof.Machine.execGenerationCopyDone c generation own namesBack s
  | .stopClassDetermined c maxClass missing => Sys2Proof.Machine.execStopClassDetermined c maxClass missing s
  | .restore c generation ownOk buddyImage => Sys2Proof.Machine.execRestore c generation ownOk buddyImage s
  | .swapResend => Sys2Proof.Machine.execSwapResend s
  | .swapDeadline => Sys2Proof.Machine.execSwapDeadline s
  | .cmdDoorbell m tail => Sys2Proof.Machine.execCmdDoorbell m tail s
  | .commandFetch m record => Sys2Proof.Machine.execCommandFetch m record s
  | .ringEnableWrite m ring v => Sys2Proof.Machine.execRingEnableWrite m ring v s
  | .cplHeadWrite m v => Sys2Proof.Machine.execCplHeadWrite m v s
  | .evtHeadWrite m v => Sys2Proof.Machine.execEvtHeadWrite m v s
  | .mailboxErrClear m v => Sys2Proof.Machine.execMailboxErrClear m v s
  | .registerWrite bar offset v => Sys2Proof.Machine.execRegisterWrite bar offset v s
  | .getGeometry m ok => Sys2Proof.Machine.execGetGeometry m ok s
  | .getStatus m ok => Sys2Proof.Machine.execGetStatus m ok s
  | .reset m => Sys2Proof.Machine.execReset m s
  | .ctxCreate m data => Sys2Proof.Machine.execCtxCreate m data s
  | .ctxDestroy m => Sys2Proof.Machine.execCtxDestroy m s
  | .stallSet m => Sys2Proof.Machine.execStallSet m s
  | .memAlloc m => Sys2Proof.Machine.execMemAlloc m s
  | .memFree m => Sys2Proof.Machine.execMemFree m s
  | .descWrite m data => Sys2Proof.Machine.execDescWrite m data s
  | .descRead m ok => Sys2Proof.Machine.execDescRead m ok s
  | .progLoad m data => Sys2Proof.Machine.execProgLoad m data s
  | .launch m => Sys2Proof.Machine.execLaunch m s
  | .stop m => Sys2Proof.Machine.execStop m s
  | .slotWrite m => Sys2Proof.Machine.execSlotWrite m s
  | .slotRead m ok => Sys2Proof.Machine.execSlotRead m ok s
  | .entryRegister m data => Sys2Proof.Machine.execEntryRegister m data s
  | .entryRead m ok => Sys2Proof.Machine.execEntryRead m ok s
  | .groupRegister m data => Sys2Proof.Machine.execGroupRegister m data s
  | .groupRelease m => Sys2Proof.Machine.execGroupRelease m s
  | .policySetFallback m data => Sys2Proof.Machine.execPolicySetFallback m data s
  | .policySetResilience m data => Sys2Proof.Machine.execPolicySetResilience m data s
  | .policySetSamplePeriod m => Sys2Proof.Machine.execPolicySetSamplePeriod m s
  | .policySetIntegrity m data => Sys2Proof.Machine.execPolicySetIntegrity m data s
  | .policySetScrubPeriod m => Sys2Proof.Machine.execPolicySetScrubPeriod m s
  | .policySetE2eTimeout m => Sys2Proof.Machine.execPolicySetE2eTimeout m s
  | .policySetCheckpointInterval m => Sys2Proof.Machine.execPolicySetCheckpointInterval m s
  | .policySetTally m => Sys2Proof.Machine.execPolicySetTally m s
  | .policyRead m ok => Sys2Proof.Machine.execPolicyRead m ok s
  | .fallbackRead m ok => Sys2Proof.Machine.execFallbackRead m ok s
  | .ringRegister m => Sys2Proof.Machine.execRingRegister m s
  | .measureSetCounter m => Sys2Proof.Machine.execMeasureSetCounter m s
  | .measureSetHistogram m => Sys2Proof.Machine.execMeasureSetHistogram m s
  | .measureSetWindow m => Sys2Proof.Machine.execMeasureSetWindow m s
  | .tallyRequest m => Sys2Proof.Machine.execTallyRequest m s
  | .ledgerRead m ok => Sys2Proof.Machine.execLedgerRead m ok s
  | .captureRead m ok => Sys2Proof.Machine.execCaptureRead m ok s
  | .captureExported m => Sys2Proof.Machine.execCaptureExported m s
  | .checkpointNow m => Sys2Proof.Machine.execCheckpointNow m s
  | .collectorSet m data => Sys2Proof.Machine.execCollectorSet m data s
  | .gambitInstall m data => Sys2Proof.Machine.execGambitInstall m data s
  | .calRead m ok => Sys2Proof.Machine.execCalRead m ok s
  | .calWrite m data => Sys2Proof.Machine.execCalWrite m data s
  | .fwInstall m data => Sys2Proof.Machine.execFwInstall m data s
  | .linkReset m => Sys2Proof.Machine.execLinkReset m s
  | .castle m spareRevs sparePorts => Sys2Proof.Machine.execCastle m spareRevs sparePorts s
  | .hostLinkDown => Sys2Proof.Machine.execHostLinkDown s
  | .hostLinkUp width => Sys2Proof.Machine.execHostLinkUp width s
  | .hostLinkRetrain result => Sys2Proof.Machine.execHostLinkRetrain result s
  | .hostPortReset => Sys2Proof.Machine.execHostPortReset s
  | .spdmGetVersion via req => Sys2Proof.Machine.execSpdmGetVersion via req s
  | .spdmGetCapabilities via req => Sys2Proof.Machine.execSpdmGetCapabilities via req s
  | .spdmNegotiateAlgorithms via req => Sys2Proof.Machine.execSpdmNegotiateAlgorithms via req s
  | .spdmGetDigests via req => Sys2Proof.Machine.execSpdmGetDigests via req s
  | .spdmGetCertificate via req => Sys2Proof.Machine.execSpdmGetCertificate via req s
  | .spdmChallenge via req => Sys2Proof.Machine.execSpdmChallenge via req s
  | .spdmGetMeasurements via req => Sys2Proof.Machine.execSpdmGetMeasurements via req s
  | .spdmUnsupportedRequest via req => Sys2Proof.Machine.execSpdmUnsupportedRequest via req s
  | .pldmSensorRead sensor => Sys2Proof.Machine.execPldmSensorRead sensor s
  | .pldmCollectorSet collector portEnable address => Sys2Proof.Machine.execPldmCollectorSet collector portEnable address s
  | .dyoloNop d frame => Sys2Proof.Machine.execDyoloNop d frame s
  | .dyoloStatus d frame => Sys2Proof.Machine.execDyoloStatus d frame s
  | .dyoloGetNonce d frame => Sys2Proof.Machine.execDyoloGetNonce d frame s
  | .dyoloPush d frame => Sys2Proof.Machine.execDyoloPush d frame s
  | .dyoloPushReset d frame => Sys2Proof.Machine.execDyoloPushReset d frame s
  | .dyoloUnlock d frame => Sys2Proof.Machine.execDyoloUnlock d frame s
  | .dyoloRelock d frame => Sys2Proof.Machine.execDyoloRelock d frame s
  | .dyoloInstall d frame => Sys2Proof.Machine.execDyoloInstall d frame s
  | .dyoloHalt d frame => Sys2Proof.Machine.execDyoloHalt d frame s
  | .dyoloResume d frame => Sys2Proof.Machine.execDyoloResume d frame s
  | .dyoloStep d frame x => Sys2Proof.Machine.execDyoloStep d frame x s
  | .dyoloBreakSet d frame => Sys2Proof.Machine.execDyoloBreakSet d frame s
  | .dyoloBreakClear d frame => Sys2Proof.Machine.execDyoloBreakClear d frame s
  | .dyoloRead d frame x => Sys2Proof.Machine.execDyoloRead d frame x s
  | .dyoloWrite d frame x => Sys2Proof.Machine.execDyoloWrite d frame x s
  | .dyoloResetDevice d frame => Sys2Proof.Machine.execDyoloResetDevice d frame s
  | .extest d cells => Sys2Proof.Machine.execExtest d cells s
  | .idcode d => Sys2Proof.Machine.execIdcode d s
  | .samplePreload d cells => Sys2Proof.Machine.execSamplePreload d cells s
  | .bypass d => Sys2Proof.Machine.execBypass d s
  | .tapReset => Sys2Proof.Machine.execTapReset s
  | .powerOn inputMv => Sys2Proof.Machine.execPowerOn inputMv s
  | .railsGood => Sys2Proof.Machine.execRailsGood s
  | .powerOff => Sys2Proof.Machine.execPowerOff s
  | .inputVoltageFault inputMv => Sys2Proof.Machine.execInputVoltageFault inputMv s
  | .rideThroughExpiry => Sys2Proof.Machine.execRideThroughExpiry s
  | .inputVoltageRecovered inputMv durationUs => Sys2Proof.Machine.execInputVoltageRecovered inputMv durationUs s
  | .moduleReset => Sys2Proof.Machine.execModuleReset s
  | .resetRelease railsGoodUs => Sys2Proof.Machine.execResetRelease railsGoodUs s
  | .boot env => Sys2Proof.Machine.execBoot env s
  | .moduleDrain => Sys2Proof.Machine.execModuleDrain s
  | .drainComplete => Sys2Proof.Machine.execDrainComplete s
  | .shutdownReqRelease => Sys2Proof.Machine.execShutdownReqRelease s
  | .pwrLimitSample code => Sys2Proof.Machine.execPwrLimitSample code s
  | .powerSample watts avg100us => Sys2Proof.Machine.execPowerSample watts avg100us s
  | .cappingEpisodeEnd durationUs => Sys2Proof.Machine.execCappingEpisodeEnd durationUs s
  | .thermalSample dieMilliC stackMilliC inletMilliC outletMilliC => Sys2Proof.Machine.execThermalSample dieMilliC stackMilliC inletMilliC outletMilliC s
  | .thermtrip d => Sys2Proof.Machine.execThermtrip d s
  | .hostRefclkLoss => Sys2Proof.Machine.execHostRefclkLoss s
  | .fabRefclkLoss => Sys2Proof.Machine.execFabRefclkLoss s
  | .rideThroughEntry inputMv => Sys2Proof.Machine.execRideThroughEntry inputMv s
  | .resetHoldExpiry => Sys2Proof.Machine.execResetHoldExpiry s
  | .railLeavesWindow => Sys2Proof.Machine.execRailLeavesWindow s
  | .fabRefclkReturn => Sys2Proof.Machine.execFabRefclkReturn s
  | .hostWindowCompletion d c index reply => Sys2Proof.Machine.execHostWindowCompletion d c index reply s
  | .quietWorkDone d arrays mismatches => Sys2Proof.Machine.execQuietWorkDone d arrays mismatches s
  | .selftestOverdue d a work pastTwice => Sys2Proof.Machine.execSelftestOverdue d a work pastTwice s
  | .watchdogExpiry d => Sys2Proof.Machine.execWatchdogExpiry d s

end Sys2Proof.Machine
end

