-- ==== Sys2Proof/Safety.lean ====
section
/-! DEFINITION. What counts as a sound state and a safe run, in the terms the statements use. -/
namespace Sys2Proof.Machine

/-- A command answers a next state. -/
def Completes (i : Instr) (s : State) : Prop := ∃ t, exec i s = .next t

/-- The memories, the semaphores and the instruction memory keep their canonical form. -/
def State.memoryWf (s : State) : Prop :=
  SMap.wf 0 s.stack = true ∧ SMap.wf 0 s.scratch = true ∧ SMap.wf 0 s.hostMem = true ∧ SMap.wf 0 s.sems = true ∧
    SMap.wf 0 s.program = true

/-- The queue of ledgered records has room for whatever records one command of background work makes (13 R333). -/
def State.recordRoom (s : State) : Prop := queueBytes s.ledger.queue + 65536 ≤ 4194304

/-! ### Instructions of a stream -/

/-- The stream of context x on die d can issue the word w of class cls and operation op (01 R12, R13, R16): it is launched,
stands at w, is held by nothing that blocks issue, meets no breakpoint, and w is legal; `ok` is what the row asks beyond its
header. -/
structure Issues (s : State) (d : Die) (c : Ctx) (w : IWord) (cls op : Nat) (ok : CtxSt → Stream → Bool) (x : CtxSt) : Prop where
  context : s.ctx c = some x
  launched : (x.stream d).launched = true
  running : (x.stream d).halted = false
  atWord : s.wordAt d x (x.stream d).pc = w
  free : (x.stream d).blocked = false
  noBreak : (x.stream d).single = true ∨ ((s.die d).tapSide.breaks.any fun b => b.2.1 = c.val && b.2.2 = (x.stream d).pc) = false
  header : headerOk x w cls op = true
  pair : (x.stream d).pair = none ∨ (cls = 2 ∧ op = 1)
  legal : ok x (x.stream d) = true
  waitOver : bit w 12 = true → satisfies (s.sem d c (fld w 23 16)) (BitVec.ofNat 32 (fld w 63 32)) = true

/-- The device as an issue leaves it: a wait that is over is measured, the program counter moves on, the tag is drawn. -/
def State.afterIssue (s : State) (d : Die) (c : Ctx) (cls : Nat) (x : CtxSt) : State :=
  ((s.afterHold d c (x.stream d)).issued d c cls).drawGap d c

/-- The run of an engine's body: the record of its instruction, and the physical world's part applied. -/
def State.engineStart (s : State) (d : Die) (c : Ctx) (w : IWord) (addr unit inst : Nat) (x : Phys) : Run :=
  Run.start (s.meetPhys d unit x) d c addr unit none (inFlightOf (s.meetPhys d unit x) d c w addr inst)

/-- No duplicated unit's compare and no residue of the vector engine fails for good, and no state that the instruction depends
on is in error (12 R292, R293, R300, R301). -/
structure soundFor (x : Phys) (unit : Nat) : Prop where
  shared : x.shared = false
  own : x.own = false
  issue : x.issue ≤ 1
  mismatch : if residueChecked unit x = true then x.mismatch = 0 else x.mismatch ≤ 1

/-- An engine's row as it runs once it has issued: unit, instance, what the row asks of its word, and its body. -/
structure EngineRow where
  d : Die
  c : Ctx
  w : IWord
  x : Phys
  cls : Nat
  op : Nat
  unit : Nat
  ok : CtxSt → Stream → Bool
  body : Exec Unit

/-- The rows that run at issue on the shaper (but for SH.QUANT), the vector engine and the update engine. -/
def engineRow : Instr → Option EngineRow
  | .shDequant d c w x => some ⟨d, c, w, x, 2, 2, 3, fun _ _ => dequantOk w, dequantBody w⟩
  | .shRotate d c w x => some ⟨d, c, w, x, 2, 3, 3, fun _ _ => rotateOk w, rotateBody w⟩
  | .vxAdd d c w x => some ⟨d, c, w, x, 3, 0x01, 4, fun _ _ => vxOnly w [.a, .b, .dst], binary w resAdd⟩
  | .vxSub d c w x => some ⟨d, c, w, x, 3, 0x02, 4, fun _ _ => vxOnly w [.a, .b, .dst], binary w resSub⟩
  | .vxMul d c w x => some ⟨d, c, w, x, 3, 0x03, 4, fun _ _ => vxOnly w [.a, .b, .dst], binary w resMul⟩
  | .vxFma d c w x => some ⟨d, c, w, x, 3, 0x04, 4, fun _ _ => vxOnly w [.a, .b, .c, .dst], ternary w resFma⟩
  | .vxMax d c w x => some ⟨d, c, w, x, 3, 0x05, 4, fun _ _ => vxOnly w [.a, .b, .dst], binary w fun a b => .ofWord (fmax a b)⟩
  | .vxMin d c w x => some ⟨d, c, w, x, 3, 0x06, 4, fun _ _ => vxOnly w [.a, .b, .dst], binary w fun a b => .ofWord (fmin a b)⟩
  | .vxScale d c w x => some ⟨d, c, w, x, 3, 0x07, 4, fun _ _ => vxOnly w [.a, .dst, .imm], unary w fun a => resMul a (vxImm w)⟩
  | .vxConvert d c w x => some ⟨d, c, w, x, 3, 0x08, 4, fun _ _ => vxOnly w [.a, .dst], convertBody w⟩
  | .vxFunc d c w x => some ⟨d, c, w, x, 3, 0x09, 4, fun _ _ => vxOnly w [.a, .dst, .func] && vxFn w ≤ 0xB, funcBody w⟩
  | .vxReduce d c w x => some ⟨d, c, w, x, 3, 0x10, 4, fun _ _ => vxOnly w [.a, .dst, .func, .axis] && vxFn w ≤ 4, reduceBody w⟩
  | .vxSoftmax d c w x => some ⟨d, c, w, x, 3, 0x11, 4, fun _ _ =>
      vxOnly w ([.a, .dst, .imm, .auxEn] ++ if vxAuxEn w then [.b] else []) && isFiniteF (vxImm w) && !isZeroF (vxImm w), softmaxBody w⟩
  | .vxSoftmaxBwd d c w x => some ⟨d, c, w, x, 3, 0x12, 4, fun _ _ => vxOnly w [.a, .b, .dst], softmaxBwdBody w⟩
  | .vxNorm d c w x => some ⟨d, c, w, x, 3, 0x13, 4, fun _ _ =>
      vxOnly w ([.a, .b, .dst, .aux, .func, .imm] ++ if vxFn w = 1 then [.c] else []) && vxFn w ≤ 1 &&
        isFiniteF (vxImm w) && (!(vxImm w).getLsbD 31 || isZeroF (vxImm w)), normBody w⟩
  | .vxNormBwd d c w x => some ⟨d, c, w, x, 3, 0x14, 4, fun _ _ =>
      vxOnly w ([.a, .b, .c, .dst, .func, .auxEn] ++ if vxAuxEn w then [.aux] else []) && vxFn w ≤ 1, normBwdBody w⟩
  | .vxTopk d c w x => some ⟨d, c, w, x, 3, 0x18, 4, fun _ _ => vxOnly w [.a, .dst, .aux, .count] && 1 ≤ vxCount w && vxCount w ≤ 256, topkBody w⟩
  | .vxRelu d c w x => some ⟨d, c, w, x, 3, 0x20, 4, fun _ _ => vxOnly w [.a, .dst, .aux], reluBody w⟩
  | .vxDropout d c w x => some ⟨d, c, w, x, 3, 0x21, 4, fun _ _ =>
      vxOnly w [.a, .dst, .aux, .rng, .salt, .keep, .rowBase, .colBase] && 1 ≤ vxKeep w, dropoutBody w⟩
  | .vxMaxpool d c w x => some ⟨d, c, w, x, 3, 0x22, 4, fun _ _ =>
      vxOnly w [.a, .dst, .aux, .window] && 2 ≤ vxWindow w && vxWindow w ≤ 64, maxpoolBody w⟩
  | .vxMaskmul d c w x => some ⟨d, c, w, x, 3, 0x23, 4, fun _ _ => vxOnly w [.a, .b, .dst, .imm], maskmulBody w⟩
  | .vxUnpool d c w x => some ⟨d, c, w, x, 3, 0x24, 4, fun _ _ =>
      vxOnly w [.a, .b, .dst, .window] && 2 ≤ vxWindow w && vxWindow w ≤ 64, unpoolBody w⟩
  | .vxMaskgen d c w x => some ⟨d, c, w, x, 3, 0x25, 4, fun _ _ =>
      vxOnly w ([.dst, .func, .imm, .rowBase, .colBase] ++ if vxFn w = 0 then [.a] else []) && vxFn w ≤ 1, maskgenBody w⟩
  | .vxRandom d c w x => some ⟨d, c, w, x, 3, 0x26, 4, fun _ _ => vxOnly w [.dst, .func, .rng, .salt, .rowBase, .colBase] && vxFn w ≤ 1, randomBody w⟩
  | .vxTable d c w x => some ⟨d, c, w, x, 3, 0x30, 4, fun _ _ => vxOnly w [.a, .b, .c, .dst], tableBody w⟩
  | .vxKvappend d c w x => some ⟨d, c, w, x, 3, 0x31, 4, fun _ _ => vxOnly w [.a, .dst, .func, .count] && vxFn w ≤ 1 && vxCount w ≤ 255, kvappendBody w⟩
  | .vxKvscore d c w x => some ⟨d, c, w, x, 3, 0x32, 4, fun _ _ =>
      vxOnly w [.a, .b, .dst, .func, .count, .imm] && vxFn w ≤ 1 && 1 ≤ vxCount w && vxCount w ≤ 256, kvscoreBody w⟩
  | .vxKvmix d c w x => some ⟨d, c, w, x, 3, 0x33, 4, fun _ _ =>
      vxOnly w [.a, .b, .dst, .func, .count] && vxFn w ≤ 1 && 1 ≤ vxCount w && vxCount w ≤ 256, kvmixBody w⟩
  | .upStep d c w x => some ⟨d, c, w, x, 4, 1, 5, fun y _ => upStepOk y w, upStepBody w⟩
  | .upWcopy d c w x => some ⟨d, c, w, x, 4, 2, 5, fun y _ => upWcopyOk y w, upWcopyBody w⟩
  | _ => none

/-! ### Suphor commands -/

/-- Mailbox m runs the record w, whose opcode is op, and Suphor serves (15 R373). -/
def Runs (s : State) (m : Mbx) (op : Nat) (w : CmdWord) : Prop :=
  (s.mbx m).started = some w ∧ cmdOp w = op ∧ s.suphorRuns = true

/-- The command takes s to t and then completes with reply r. -/
def Ends (i : Instr) (s : State) (m : Mbx) (w : CmdWord) (r : Reply) (t : State) : Prop :=
  exec i s = .next (t.finishCommand m w r)

/-- The data buffer of a command: its length, at most 16 MiB, and its alignment (15 Table 15.7). -/
def Buffer (w : CmdWord) (n : Nat) : Prop := cmdLen w = n ∧ n ≤ 16777216 ∧ cmdAddr w % 64 = 0

/-- The command writes `bytes` into its data buffer and completes with reply r. -/
def Delivers (i : Instr) (s : State) (m : Mbx) (w : CmdWord) (bytes : Bytes) (r : Reply) : Prop :=
  Buffer w bytes.length → Ends i s m w r (s.write (.host (cmdAddr w)) bytes false)


/-! ### Rows of one shape -/

/-- The MV rows: die, context, word, physical world, operation, and whether the word's other fields are clear. -/
def moveRow : Instr → Option (Die × Ctx × IWord × Phys × Nat × Bool)
  | .mvCopy d c w x => some (d, c, w, x, 1, mvOk w { src := true, dst := true, convert := true })
  | .mvSetcopy d c w x => some (d, c, w, x, 2, mvOk w { src := true, dst := true })
  | .mvGather d c w x => some (d, c, w, x, 3, mvOk w { src := true, dst := true, idx := true })
  | .mvScatter d c w x => some (d, c, w, x, 4, mvOk w { src := true, dst := true, idx := true })
  | .mvScatterAdd d c w x => some (d, c, w, x, 5, mvOk w { src := true, dst := true, idx := true })
  | .mvWindow d c w x => some (d, c, w, x, 6, mvOk w { src := true, dst := true, window := true })
  | .mvFill d c w x => some (d, c, w, x, 7, mvOk w { dst := true, imm := true })
  | .mvSeal d c w x => some (d, c, w, x, 8, mvOk w { dst := true })
  | _ => none

/-- The CL rows. -/
def collectiveRow : Instr → Option (Die × Ctx × IWord × Phys × Nat)
  | .clShift d c w x => some (d, c, w, x, 1)
  | .clPermute d c w x => some (d, c, w, x, 2)
  | .clAlltoall d c w x => some (d, c, w, x, 3)
  | .clGradsend d c w x => some (d, c, w, x, 4)
  | .clGradrecv d c w x => some (d, c, w, x, 5)
  | .clReduce d c w x => some (d, c, w, x, 6)
  | .clReduceScatter d c w x => some (d, c, w, x, 7)
  | .clGather d c w x => some (d, c, w, x, 8)
  | .clBcast d c w x => some (d, c, w, x, 9)
  | .clSetcast d c w x => some (d, c, w, x, 10)
  | .clExpress d c w x => some (d, c, w, x, 11)
  | _ => none

/-- The debug commands that need a scope, with their CMD. -/
def scopedRow : Instr → Option (Die × BitVec 160 × Nat)
  | .dyoloInstall d f => some (d, f, 0x07)
  | .dyoloHalt d f => some (d, f, 0x10)
  | .dyoloResume d f => some (d, f, 0x11)
  | .dyoloStep d f _ => some (d, f, 0x12)
  | .dyoloBreakSet d f => some (d, f, 0x13)
  | .dyoloBreakClear d f => some (d, f, 0x14)
  | .dyoloRead d f _ => some (d, f, 0x20)
  | .dyoloWrite d f _ => some (d, f, 0x21)
  | .dyoloResetDevice d f => some (d, f, 0x30)
  | _ => none

/-- A frame that the debug port takes: the port answers, CMD is the row's, STATUS and the reserved bits are 0. -/
def Framed (s : State) (f : Frame) (code : Nat) : Prop := s.tapUp = true ∧ frCmd f = code ∧ frClear f = true

/-- A frame whose command the port's scopes grant on die d. -/
def Scoped (s : State) (d : Die) (f : Frame) (code scope : Nat) : Prop :=
  Framed s f code ∧ s.bootSt.unlocked = true ∧ s.bootSt.scopeDies.getLsbD d = true ∧ bit s.bootSt.scope scope = true

/-- The command takes s to t, and the response to its frame is ready. -/
def Answers (i : Instr) (s : State) (d : Die) (f : Frame) (status data : Nat) (t : State) : Prop :=
  exec i s = .next (t.respond d f status data)

end Sys2Proof.Machine
end

