-- ==== Sys2Proof/Certificates/Slice0/Obligations.lean ====
section
/-! DEFINITION. The statements for the provers. -/

open Sys2Proof Sys2Proof.Machine

/-! ### Steps and the queue -/

/-- A step takes the command at the front of the queue and runs it on the device with the queue's rest. -/
def Obligations.StepTakesFront : Prop :=
  ∀ (s : State) (c : Instr) (rest : List Instr), s.pending = c :: rest → step s = exec c { s with pending := rest }

/-- On an empty queue only time passes: the model's choice (log 5). -/
def Obligations.StepIdles : Prop :=
  ∀ s : State, s.pending = [] → step s = .next { s with now := s.now + 1 }

/-- No command touches the queue: a step leaves exactly its rest. -/
def Obligations.StepKeepsRest : Prop :=
  ∀ (s t : State) (c : Instr) (rest : List Instr), s.pending = c :: rest → step s = .next t → t.pending = rest

/-- Every step keeps the canonical form of the stacks, the scratchpads, host memory, the semaphores and the instruction
memory. -/
def Obligations.StepKeepsMemoryWf : Prop :=
  ∀ s t : State, s.memoryWf → step s = .next t → t.memoryWf

/-- Reset memory lists nothing, and so has the canonical form. -/
def Obligations.ResetMemoryWf : Prop := State.reset.memoryWf

/-- Fuses only blow: a step leaves the identity, the digests and the key hashes of the device, never lowers its security
version, and forgets no fused repair. -/
def Obligations.StepKeepsFuses : Prop :=
  ∀ s t : State, step s = .next t →
    t.fuses.deviceId = s.fuses.deviceId ∧ t.fuses.romDigest = s.fuses.romDigest ∧ t.fuses.fwKeyHash = s.fuses.fwKeyHash ∧
    t.fuses.calKeyHash = s.fuses.calKeyHash ∧ t.fuses.serviceKeyHash = s.fuses.serviceKeyHash ∧
    s.fuses.secVersion ≤ t.fuses.secVersion ∧ s.fuses.repairs <+: t.fuses.repairs

/-- The lifetime tier is written once, in order: a step leaves every record it holds where it stands, and adds only at its
end. -/
def Obligations.StepKeepsLifetime : Prop :=
  ∀ s t : State, step s = .next t → s.flash.lifetime <+: t.flash.lifetime

/-! ### Memory -/

/-- A write leaves what was written, where its bytes have places of their own.

A write to a scratchpad leaves every other byte of every memory as it was. -/
def Obligations.MemoryLaws : Prop :=
  (∀ (s : State) (d off : Nat) (bs : Bytes) (poison : Bool), s.memoryWf → off + bs.length ≤ 2 ^ 26 →
    (s.write (.sp d off) bs poison).read (.sp d off) bs.length = bs) ∧
  (∀ (s : State) (d off : Nat) (bs : Bytes) (poison : Bool) (p : Place),
    (∀ i, i < bs.length → ∀ d' o', p = .sp d' o' → spKey d' o' ≠ spKey d (off + i)) →
    (s.write (.sp d off) bs poison).byteAt p = s.byteAt p)

/-- A retired page reads as memory-origin poison and discards every write (08 R197). -/
def Obligations.RetiredPage : Prop :=
  ∀ (s : State) (d off : Nat) (bs : Bytes), s.isRetired d off = true →
    (∀ i, i < bs.length → s.isRetired d (off + i) = true) →
    s.poisonAt (.st d off) = some .memory ∧ s.putBytes (.st d off) bs = s

/-! ### The sequencer -/

/-- The synchronisation rows complete as they issue: SIGNAL adds VALUE to SEM modulo 2^32, SET writes it, WAIT passes once
SEM satisfies VALUE, FENCE passes once nothing of its stream is in flight.

A wait that is not satisfied holds its stream, and the stream goes on where it stood. -/
def Obligations.SyncRows : Prop :=
  (∀ (d : Die) (c : Ctx) (w : IWord) (s : State) (x : CtxSt),
    let t := s.afterIssue d c 7 x
    let pc := (x.stream d).pc
    (Issues s d c w 7 2 (syOk w) x →
      exec (.sySignal d c w) s = .next ((t.semSet d c (sySem w) (t.sem d c (sySem w) + syVal w)).sequencerDone d c w pc)) ∧
    (Issues s d c w 7 3 (syOk w) x → exec (.sySet d c w) s = .next ((t.semSet d c (sySem w) (syVal w)).sequencerDone d c w pc)) ∧
    (Issues s d c w 7 1 (syOk w) x → (t.sem d c (sySem w) - syVal w).toNat < 2 ^ 31 →
      exec (.syWait d c w) s = .next (t.sequencerDone d c w pc)) ∧
    (Issues s d c w 7 4 (fun _ _ => syBody w && sySem w = 0 && syVal w = 0) x →
      ((t.stream d c).getD Stream.reset).inflight = [] → exec (.syFence d c w) s = .next (t.sequencerDone d c w pc))) ∧
  (∀ (d : Die) (c : Ctx) (w : IWord) (s : State) (x : CtxSt), Issues s d c w 7 1 (syOk w) x →
    2 ^ 31 ≤ ((s.afterIssue d c 7 x).sem d c (sySem w) - syVal w).toNat →
    ∃ t y, exec (.syWait d c w) s = .next t ∧ t.stream d c = some y ∧ y.pc = (x.stream d).pc ∧
      y.hold = some (.wait (sySem w) (syVal w)))

/-- SY.JUMP transfers issue as COND directs: 0 when SEM satisfies VALUE, 1 when it does not, 2 always. A jump that is taken
goes to a word of the loaded program; one that is not taken may name any (the model's choice, log 123).

The CF rows set the state of their own stream and complete. -/
def Obligations.JumpAndCfRows : Prop :=
  (∀ (d : Die) (c : Ctx) (w : IWord) (s : State) (x : CtxSt),
    let pc := (x.stream d).pc
    let sat := satisfies (SMap.get 0 s.sems (semKey d x.semBase (sySem w))) (syVal w)
    let t := s.afterIssue d c 7 x
    Issues s d c w 7 5 (fun _ _ => syBody w && sySem w < x.semCount &&
      (!jumpTaken w sat || (0 ≤ jumpTarget w pc && jumpTarget w pc < x.loaded d))) x →
    exec (.syJump d c w) s = .next ((if jumpTaken w (satisfies (t.sem d c (sySem w)) (syVal w))
      then t.updStream d c fun u => { u with pc := (jumpTarget w pc).toNat } else t).sequencerDone d c w pc)) ∧
  (∀ (d : Die) (c : Ctx) (w : IWord) (s : State) (x : CtxSt),
    let t := s.afterIssue d c 9 x
    let pc := (x.stream d).pc
    (Issues s d c w 9 0 (fun _ _ => fld w 255 64 = 0) x → exec (.cfNop d c w) s = .next (t.sequencerDone d c w pc)) ∧
    (Issues s d c w 9 1 (fun _ _ => fld w 129 128 ≠ 0 && fld w 255 130 = 0) x →
      exec (.cfSeed d c w) s = .next ((t.updStream d c fun u => { u with
        seedVector := if bit w 128 then BitVec.ofNat 64 (fld w 127 64) else u.seedVector
        seedUpdate := if bit w 129 then BitVec.ofNat 64 (fld w 127 64) else u.seedUpdate }).sequencerDone d c w pc)) ∧
    (Issues s d c w 9 2 (fun _ _ => fld w 79 72 ≠ 0 && fld w 71 65 = 0 && fld w 255 80 = 0) x →
      exec (.cfAccdef d c w) s = .next ((t.updStream d c fun u => { u with
        accMode := bit w 64, promoInterval := fld w 79 72 }).sequencerDone d c w pc)) ∧
    (Issues s d c w 9 3 (fun _ _ => fld w 255 96 = 0) x →
      exec (.cfTimeout d c w) s = .next ((t.updStream d c fun u => { u with
        timeoutUs := if fld w 95 64 = 0 then 10000000 else fld w 95 64 }).sequencerDone d c w pc)))

/-- MK, with nothing of its stream in flight and no accumulation held, fences its stream and holds it for the group
reduction; its record stays in flight. -/
def Obligations.MkHolds : Prop :=
  ∀ (d : Die) (c : Ctx) (w : IWord) (s : State) (x : CtxSt), Issues s d c w 8 0 (mkOk w) x →
    let t := s.afterIssue d c 8 x
    ((t.stream d c).getD Stream.reset).inflight = [] → (t.die d).holdsAcc c = none →
    exec (.mkStep d c w) s = .next ((t.latchAtMk c d (((t.ctx c).map (·.stepNow)).getD 0)).updStream d c fun u => { u with
      hold := some .mk, fenced := true, mkStep := fld w 127 64, quietEn := bit w 128, quietUs := fld w 159 144
      inflight := [inFlightOf t d c w (x.stream d).pc 0] })

/-- The MK class defines one operation: a stream that stands at an MK word of another one raises the invalid-instruction
fault and stops. -/
def Obligations.MkOtherOp : Prop :=
  ∀ (d : Die) (c : Ctx) (w : IWord) (s : State) (x : CtxSt), s.ctx c = some x → (x.stream d).launched = true →
    (x.stream d).halted = false → s.wordAt d x (x.stream d).pc = w → (x.stream d).blocked = false →
    (s.die d).tapSide.breaks = [] → fld w 3 0 = 8 → fld w 11 4 ≠ 0 →
    exec (.mkStep d c w) s = .next (s.invalid d c (x.stream d).pc)

/-- An instruction whose turn it is completes: its record leaves the stream, and SIG_EN adds 1 to its semaphore; the product of
a requantising pair completes with its SH.QUANT.

A stream that is held past its wait timeout by what has not come raises the sync-timeout fault, which names the instruction it
is held at; its context stops, and its packets' backoffs end. -/
def Obligations.StreamRows : Prop :=
  (∀ (d : Die) (c : Ctx) (index : Nat) (s : State) (t : Stream) (f : InFlight), s.stream d c = some t →
    t.inflight[index]? = some f → f.ready (t.inflight.take index) = true →
    exec (.instructionComplete d c index) s =
      .next (((t.inflight.filter (·.pairOf f)).foldl (fun st e => st.complete d c e)
        (s.updStream d c fun u => { u with inflight := (u.inflight.eraseIdx index).filter fun e => !e.pairOf f })).complete d c f)) ∧
  (∀ (d : Die) (c : Ctx) (s : State) (t : Stream), s.stream d c = some t → t.launched = true → t.halted = false →
    s.timesOut d c t = true →
    exec (.syncTimeout d c) s = .next ((s.stopFault d c t.heldAt { cls := 4, reason := 2 }).endBackoffs c))

/-- A fault that stops a context stops its streams on every die, contributes FAULT to its verdict and to the step and round
verdicts that are pending, and leaves no open operation and no parked payload of it. -/
def Obligations.FaultStops : Prop :=
  ∀ (s : State) (c : Ctx) (k : StopCause) (x : CtxSt), s.ctx c = some x →
    ∃ y, (s.faultStop c k).ctx c = some y ∧ y.running = false ∧ y.verdict = x.verdict ||| 4 ∧ y.stopped ≠ none ∧
      y.mkSent = x.mkSent.map (fun e => (e.1, e.2 ||| 4)) ∧ y.roundSent = x.roundSent.map (· ||| 4) ∧
      (∀ d : Die, (∀ o ∈ ((s.faultStop c k).die d).ops, o.ctx ≠ c.val) ∧ ∀ q ∈ ((s.faultStop c k).die d).parked, q.ctx ≠ c.val) ∧
      (∀ e : Ctx, e ≠ c → (s.faultStop c k).ctx e = s.ctx e)

/-! ### Engines -/

/-- Every one of these rows completes its issue: where the word issues, no checked unit fails for good, no stack that it asks
holds its context back and the body meets no fault that stops the context, the body's result stands and the instruction's
record is in flight.

A body that meets a stopping fault leaves nothing but the fault: no output of it stands. A row that a stack holds back has not
issued (08 R185; log 11). -/
def Obligations.EngineRows : Prop :=
  (∀ (i : Instr) (e : EngineRow) (s : State) (y : CtxSt) (r : Run), engineRow i = some e → soundFor e.x e.unit →
    Issues s e.d e.c e.w e.cls e.op e.ok y →
    (s.afterIssue e.d e.c e.cls y).holdsBack e.d e.c e.w (y.stream e.d).pc e.unit 0 e.body = false →
    e.body.run ((s.afterIssue e.d e.c e.cls y).engineStart e.d e.c e.w (y.stream e.d).pc e.unit 0 e.x) = .ok ((), r) →
    exec i s = .next r.finish) ∧
  (∀ (i : Instr) (e : EngineRow) (s : State) (y : CtxSt) (f : Trap), engineRow i = some e → soundFor e.x e.unit →
    Issues s e.d e.c e.w e.cls e.op e.ok y →
    (s.afterIssue e.d e.c e.cls y).holdsBack e.d e.c e.w (y.stream e.d).pc e.unit 0 e.body = false →
    let q := (s.afterIssue e.d e.c e.cls y).engineStart e.d e.c e.w (y.stream e.d).pc e.unit 0 e.x
    e.body.run q = .error f →
    exec i s = .next (q.s.stopFault e.d e.c (y.stream e.d).pc f.info f.cause)) ∧
  (∀ (i : Instr) (e : EngineRow) (s : State) (y : CtxSt), engineRow i = some e → Issues s e.d e.c e.w e.cls e.op e.ok y →
    (s.afterIssue e.d e.c e.cls y).holdsBack e.d e.c e.w (y.stream e.d).pc e.unit 0 e.body = true → exec i s = .next s)

/-- SH.QUANT outside a pair, and the matrix rows on a half that is not open for receipt, waits for no check and is held by no
tile that is still to come.

A tile that waits for its check is checked, with what the compare finds, and then ends as its word says. -/
def Obligations.MatrixRows : Prop :=
  (∀ (d : Die) (c : Ctx) (w : IWord) (x : Phys) (s : State) (y : CtxSt) (r : Run),
    let pc := (y.stream d).pc
    let phys := (s.die d).physOf (mmArray w)
    let idle := (s.die d).receiptOn c (mmArray w) phys (mmBank w) = false ∧ (s.die d).checkingOn c (mmArray w) (mmBank w) = false ∧
      (s.die d).holdSoon phys (mmBank w) = false
    (Issues s d c w 2 1 (fun y _ => quantOk y w) y → (y.stream d).pair = none → soundFor x 3 →
      (quantBody w none).run ((s.afterIssue d c 2 y).engineStart d c w pc 3 0 x) = .ok ((), r) →
      exec (.shQuant d c w x) s = .next r.finish) ∧
    (Issues s d c w 1 1 (productMayRun s d w) y → idle → soundFor x 1 →
      (productBody w x).run ((s.afterIssue d c 1 y).engineStart d c w pc 1 (mmArray w) x) = .ok ((), r) →
      exec (.mmProduct d c w x) s = .next (r.finish.openPair d c w)) ∧
    (Issues s d c w 1 2 (fun _ _ => drainOk w) y → idle → soundFor x 2 →
      (drainBody w).run ((s.afterIssue d c 1 y).engineStart d c w pc 2 (phys.getD (mmArray w)) x) = .ok ((), r) →
      exec (.mmDrain d c w x) s = .next r.finish) ∧
    (Issues s d c w 1 3 (fun _ _ => spillOk w) y → idle → soundFor x 2 →
      (spillBody w).run ((s.afterIssue d c 1 y).engineStart d c w pc 2 (phys.getD (mmArray w)) x) = .ok ((), r) →
      exec (.mmSpill d c w x) s = .next r.finish) ∧
    (Issues s d c w 1 4 (fun _ _ => discardOk w) y → idle → soundFor x 2 →
      (discardBody w).run ((s.afterIssue d c 1 y).engineStart d c w pc 2 (phys.getD (mmArray w)) x) = .ok ((), r) →
      exec (.mmDiscard d c w x) s = .next r.finish)) ∧
  (∀ (d : Die) (a : Arr) (x : Phys) (s : State) (k hit : Accum) (upset : Option (UpsetAt × Nat × Nat × Int))
      (dup : Option (Nat × Nat × Int × Int)), x.mismatch ≤ 1 → x.issue ≤ 1 →
    (s.die d).accs.find? (fun k => k.phase = .checking && k.phys = some a.val) = some k → addUpset k upset = (hit, dup) →
    exec (.tileCheckComplete d a upset x) s = .next
      (((((s.updDie d fun y => ({ y with accs := y.accs.erase k }).storeBank hit).applyPhys x).compareRetry d 2 x.mismatch)).runTile d
        (ctxOf k.ctx) 1 k.endAddr none 2 (do
          let k ← checkTile hit dup
          if k.poison.any id then setTainted
          endTile k)))

/-! ### Verdicts and the step marker -/

/-- UP.VERDICT, with nothing of its stream in flight, contributes and holds its stream for its round; the round verdict, once
it arrives, is recorded, joins the running verdict, and completes UP.VERDICT on every stream. -/
def Obligations.VerdictRows : Prop :=
  ∀ (d : Die) (c : Ctx) (w : IWord) (s : State) (x : CtxSt),
    (Issues s d c w 4 3 (fun _ _ => upVerdictOk w) x →
      ((((s.afterIssue d c 4 x).stream d c).getD Stream.reset).inflight = [] →
        let t := if upSkip w then (s.afterIssue d c 4 x).orVerdict c vSkip else s.afterIssue d c 4 x
        exec (.upVerdict d c w) s = .next ((t.updStream d c fun u => { u with
          hold := some (.verdict (upRound w))
          inflight := [{ inFlightOf t d c w (x.stream d).pc 0 with verdictWait := true }] }).roundContribute c))) ∧
    ∀ (round : Nat) (verdict own : BitVec 64), s.ctx c = some x → x.roundSent = some own →
      (∀ e ∈ x.launchedDies, (x.stream e).roundHeld = some round ∧ (x.stream e).rounds = round) →
      let v := verdictBits (verdict ||| own)
      exec (.roundVerdictReceived c round verdict true) s = .next (x.launchedDies.foldl (fun st e => st.verdictDone c e)
        ((s.updCtx c fun y => { y with roundSent := none, verdict := y.verdict ||| v }).updCtx c fun y => { y with
          roundVerdicts := SMap.insert y.roundVerdicts round v, inPlaceStopped := y.inPlaceStopped || !clean v }))

/-- Once every launched stream of a context has passed its fence, the device contributes the running verdict for the step. -/
def Obligations.MkContributes : Prop :=
  ∀ (c : Ctx) (s : State) (x : CtxSt), s.ctx c = some x → (s.die 0).tapSide.haltedController = false → x.mkSent = none →
    x.mkTail = none → x.launchedDies ≠ [] → (∀ d ∈ x.launchedDies, (x.stream d).atMk = true) → x.partialEntries = [] →
    ∃ t y, exec (.mkFencePassed c) s = .next t ∧ t.ctx c = some y ∧ y.mkSent = some (x.stepNow, verdictBits x.verdict) ∧
      y.verdict = x.verdict ∧ y.commitCount = x.commitCount ∧ ∀ e : Ctx, e ≠ c → t.ctx e = s.ctx e

/-- A clean verdict commits a paired step: COMMIT_COUNT grows by 1, SKIP_RUN returns to 0, every complete entry changes its
active area, and no other entry does.

A verdict that is not clean commits nothing: COMMIT_COUNT stays, SKIP_RUN counts the step, and no area changes. -/
def Obligations.MkOutcomes : Prop :=
  (∀ (c : Ctx) (n restorable : Nat) (verdict own : BitVec 64) (stats : Bytes) (check : FallbackCheck) (gone : List Nat)
      (s : State) (x : CtxSt),
    s.ctx c = some x → (s.die 0).tapSide.haltedController = false → x.mkSent = some (n, own) → x.mkTail = none →
    (∀ g ∈ check.digests, g = x.policyDigest) →
    x.mkBad = false → x.commitMode = false → x.copying = false → clean (verdictBits (verdict ||| own)) = true →
    ∃ t y, exec (.mkReductionReceived c n verdict stats check true restorable gone) s = .next t ∧ t.ctx c = some y ∧
      y.commitCount = x.commitCount + 1 ∧ y.skipRun = 0 ∧ y.lastStep = some n ∧ y.mkSent = none ∧ y.restorable = restorable ∧
      y.entries = x.entries.map fun e => (e.1, { e.2 with
        area := if e.2.complete then !e.2.area else e.2.area, written := [], lastMap := e.2.written, lastStep := n, complete := false })) ∧
  (∀ (c : Ctx) (n restorable : Nat) (verdict own : BitVec 64) (stats : Bytes) (check : FallbackCheck) (gone : List Nat)
      (s : State) (x : CtxSt),
    s.ctx c = some x → (s.die 0).tapSide.haltedController = false → x.mkSent = some (n, own) → x.mkTail = none →
    (∀ g ∈ check.digests, g = x.policyDigest) →
    x.mkBad = false → clean (verdictBits (verdict ||| own)) = false →
    ∃ t y, exec (.mkReductionReceived c n verdict stats check true restorable gone) s = .next t ∧ t.ctx c = some y ∧
      y.commitCount = x.commitCount ∧ y.skipRun = min (x.skipRun + 1) 65535 ∧ y.lastStep = some n ∧
      y.entries = x.entries.map fun e => (e.1, { e.2 with
        written := [], lastMap := e.2.written, lastStep := n, complete := false }))

/-! ### Moves and collectives -/

/-- A move whose queue is empty runs as it issues, and its result stands, where it asks nothing of the host and no stack
holds it back. One that touches the window becomes a request to the host, whose answer the stream's record gets; one that comes
behind another in its queue waits for it, with the descriptors that it issued with. -/
def Obligations.MoveRows : Prop :=
  ∀ (i : Instr) (d : Die) (c : Ctx) (w : IWord) (x : Phys) (op : Nat) (ok : Bool) (s : State) (y : CtxSt) (r : Run),
    moveRow i = some (d, c, w, x, op, ok) → Issues s d c w 5 op (fun _ _ => ok) y →
    let t := s.afterIssue d c 5 y
    let q := t.engineStart d c w (y.stream d).pc 6 (mvQueue w) x
    soundFor x 6 →
    ((t.die d).moves.any (·.queue = mvQueue w) = false →
      ((t.host.link.isSome && t.touchesHost d c w) = false → t.holdsBack d c w (y.stream d).pc 6 (mvQueue w) (mvNow w) = false →
        (mvNow w).run q = .ok ((), r) → exec i s = .next r.finish) ∧
      ((t.host.link.isSome && t.touchesHost d c w) = true → (mvWait w true).run q = .ok ((), r) → exec i s = .next r.finish)) ∧
    ((t.die d).moves.any (·.queue = mvQueue w) = true → (mvWait w false).run q = .ok ((), r) → exec i s = .next r.finish) ∧
    ∀ (k : Nat) (reply : HostReply), s.host.link.isSome → exec (.hostWindowCompletion d c k reply) s = .next (s.hostAnswer d c k reply)

/-- A collective row that has a slot of its context's share opens it; one that has none takes its number in the order of its
group when a slot is granted.

A slot that is free goes to the oldest waiting operation of the context; an operation that saw nothing for its timeout
stops the context; and a stage device sends its latest outputs again. -/
def Obligations.CollectiveRows : Prop :=
  (∀ (i : Instr) (d : Die) (c : Ctx) (w : IWord) (x : Phys) (op : Nat) (s : State) (y z : CtxSt) (g : BitVec 256),
    collectiveRow i = some (d, c, w, x, op) → Issues s d c w 6 op (fun _ _ => s.clOk d c w op) y →
    let t := s.afterIssue d c 6 y
    t.ctx c = some z → t.group (clGroup w) = some g → s.clWaits d c w op = false →
    (((t.die d).openOps c).length < z.clSlots → t.holdsBack d c w (y.stream d).pc 7 0 (clBody w op g) = false →
      exec i s = .next (t.runCl d c w op (y.stream d).pc x g)) ∧
    (z.clSlots ≤ ((t.die d).openOps c).length → ∃ u v o, exec i s = .next u ∧ u.stream d c = some v ∧ v.hold = some .slot ∧
      (u.die d).ops = (t.die d).ops ++ [o] ∧ o.open_ = false ∧ o.word = w)) ∧
  (∀ (d : Die) (c : Ctx) (s : State) (y : CtxSt) (o : CollOp) (g : BitVec 256) (k h : Nat), s.ctx c = some y →
    (((s.die d).openOps c).length < y.clSlots → (s.die d).ops.find? (fun o => !o.open_ && o.ctx = c.val) = some o →
      s.group o.group = some g →
      let t := (s.updDie d fun x => { x with ops := x.ops.filter fun e => !e.same o }).updStream d c fun u => { u with hold := none }
      t.holdsBack d c o.word o.addr 7 0 (clBody o.word o.op g) = false →
      exec (.clSlotGranted d c) s = .next (t.runCl d c o.word o.op o.addr Phys.none g)) ∧
    (((s.die d).ops.filter (·.ctx = c.val))[k]? = some o →
      exec (.collectiveTimeout d c k) s =
        .next ((s.orderFault d c o.addr 1 o.group (o.seq, 0) (o.hash.toNat % 256, 0) (0, 0)).endBackoffs c)) ∧
    (s.group h = some g → exec (.expressResend c h) s = .next
      (((s.die (stageDie g)).ops.filter fun o => o.op = 11 && o.open_ && o.ctx = c.val && o.group = h).foldl
        (fun st o => o.outputs.foldl (fun st p => (st.count (stageDie g) 0x806 0 (some c.val)).route none p) st) s)))

/-! ### Suphor commands -/

/-- The reading commands write what they read into their data buffer, and complete.

LEDGER_READ writes the leading records of its tier that fit the buffer, and answers where to go on. -/
def Obligations.SuphorReads : Prop :=
  (∀ (s : State) (m : Mbx) (w : CmdWord) (x : CtxSt) (e : Entry) (k : Capture),
    (Runs s m 0x01 w → Delivers (.getGeometry m true) s m w s.geometryTable (.results s.tableGen.toNat 0)) ∧
    (Runs s m 0x02 w → cmdArg w 0 < 20 → cmdArg w 1 ≤ 3 → cmdArg w 2 % 8 = 0 → cmdArg w 2 < 65536 → 8 ≤ cmdArg w 3 →
      cmdArg w 3 ≤ 4096 → Delivers (.getStatus m true) s m w
        (segRead (s.block (dieOf (cmdArg w 0)) (cmdArg w 1)) (cmdArg w 2) (cmdArg w 3)) .done) ∧
    (Runs s m 0x31 w → s.ctx (cmdTarget m w) = some x → cmdArg w 0 < 4096 → cmdArg w 0 + cmdArg w 1 ≤ 4096 →
      Delivers (.descRead m true) s m w
        ((List.range (cmdArg w 1)).flatMap fun i => leBytes 64 (SMap.get 0 x.descs (cmdArg w 0 + i)).toNat) .done) ∧
    (Runs s m 0x36 w → s.ctx (cmdTarget m w) = some x →
      Delivers (.slotRead m true) s m w ((List.range 256).flatMap fun k => leBytes 4 (x.slot k).toNat) .done) ∧
    (Runs s m 0x38 w → s.ctx (cmdTarget m w) = some x → cmdArg w 0 ≤ 1023 → cmdArg w 1 < 20 →
      SMap.find x.entries (cmdArg w 1 * 1024 + cmdArg w 0) = some e →
      Delivers (.entryRead m true) s m w e.image (.results e.lastStep 0)) ∧
    (Runs s m 0x3D w → s.ctx (cmdTarget m w) = some x → Delivers (.fallbackRead m true) s m w
      (padTo 32768 x.reduced ++ (List.range 256).flatMap fun k => slotCtlImage (SMap.get ctlZero x.reducedCtl k))
      (.results x.reducedStep 0)) ∧
    (Runs s m 0x61 w → SMap.find s.flash.captures (cmdArg w 0) = some k →
      Delivers (.captureRead m true) s m w (padTo 262144 k.bytes) (.results (digestNat 8 k.bytes) 0)) ∧
    (Runs s m 0x66 w → Delivers (.calRead m true) s m w s.bootSt.calInForce .done) ∧
    (Runs s m 0x3C w → cmdArg w 0 = 4 → Delivers (.policyRead m true) s m w (leBytes 16 s.ledger.integrityPolicy.toNat) .done) ∧
    (Runs s m 0x3C w → cmdArg w 0 = 5 → Ends (.policyRead m true) s m w (.results s.ledger.scrubHours 0) s)) ∧
  (∀ (s : State) (m : Mbx) (w : CmdWord), Runs s m 0x60 w → cmdArg w 0 ≤ 1 → 1 ≤ cmdArg w 2 → cmdArg w 2 ≤ 4096 →
    Buffer w (cmdLen w) →
    let rs := fitting (cmdLen w) (held (if cmdArg w 0 = 0 then s.flash.lifetime else s.flash.rolling) (cmdArg w 1) (cmdArg w 2))
    rs.flatten.length ≤ cmdLen w ∧ rs.length ≤ cmdArg w 2 ∧
    Ends (.ledgerRead m true) s m w (.results rs.length (match rs.getLast? with | some r => leAt r 32 8 + 1 | none => cmdArg w 1))
      (s.write (.host (cmdAddr w)) rs.flatten false))

/-- The commands that set a value of the device set it, and complete.

MEASURE_SET gives a counter, a histogram or a bandwidth window of the dies of ARG0 its new setting, cleared. -/
def Obligations.SuphorValues : Prop :=
  (∀ (s : State) (m : Mbx) (w : CmdWord) (x : CtxSt) (bs : Bytes),
    (Runs s m 0x3B w → cmdArg w 0 = 3 → s.ctx (cmdTarget m w) = some x →
      cmdArg w 1 = 0 ∨ (1024 ≤ cmdArg w 1 ∧ cmdArg w 1 ≤ 2 ^ 24) →
      Ends (.policySetSamplePeriod m) s m w .done (x.launchedDies.foldl (fun st d => st.firstGap (cmdTarget m w) d)
        (s.updCtx (cmdTarget m w) fun y => { y with samplePeriod := cmdArg w 1 }))) ∧
    (Runs s m 0x3B w → cmdArg w 0 = 4 → Buffer w 16 → bs.length = 16 → fld (wordOf 128 bs) 127 60 = 0 →
      integrityValues (wordOf 128 bs) = true → Ends (.policySetIntegrity m (some bs)) s m w .done
        { s with ledger := { s.ledger with integrityPolicy := wordOf 128 bs } }) ∧
    (Runs s m 0x3B w → cmdArg w 0 = 5 → 1 ≤ cmdArg w 1 → cmdArg w 1 ≤ 168 → Ends (.policySetScrubPeriod m) s m w .done
      { s with ledger := { s.ledger with scrubHours := cmdArg w 1 } }) ∧
    (Runs s m 0x3B w → cmdArg w 0 = 6 → 10 ≤ cmdArg w 1 → cmdArg w 1 ≤ 10000 → Ends (.policySetE2eTimeout m) s m w .done
      { s with fabric := { s.fabric with e2eUs := BitVec.ofNat 24 (cmdArg w 1) } }) ∧
    (Runs s m 0x3B w → cmdArg w 0 = 7 → 10 ≤ cmdArg w 1 → cmdArg w 1 ≤ 1440 → Ends (.policySetCheckpointInterval m) s m w .done
      { s with ledger := { s.ledger with checkpointMin := cmdArg w 1 } }) ∧
    (Runs s m 0x3B w → cmdArg w 0 = 8 → cmdArg w 1 ≤ 7 → 1000 ≤ cmdArg w 2 → cmdArg w 2 ≤ 10000000 → 100000 ≤ cmdArg w 3 →
      cmdArg w 3 ≤ 60000000 → Ends (.policySetTally m) s m w .done { s with ledger := { s.ledger with
        tallyCtx := some (cmdArg w 1), tallyMinUs := cmdArg w 2, tallyPeriodUs := cmdArg w 3 } }) ∧
    (Runs s m 0x12 w → s.ctx (cmdTarget m w) = some x → cmdArg w 0 < 2 ^ 20 →
      let v := BitVec.ofNat 20 (cmdArg w 0)
      s.stallPolicy (cmdTarget m w) v = 0 → Ends (.stallSet m) s m w .done
        ((s.updCtx (cmdTarget m w) fun y => { y with stall := v }).updDies fun _ y =>
          { y with stalls := y.stalls.set (cmdTarget m w) { y.stalls[cmdTarget m w] with next := some v } })) ∧
    (Runs s m 0x64 w → cmdArg w 0 ≤ 1 → cmdArg w 1 < 2 ^ 17 → Buffer w 16 → bs.length = 16 →
      Ends (.collectorSet m (some bs)) s m w .done
        (s.setCollector (cmdArg w 0) (cmdArg w 1 % 65536) ((cmdArg w 1).testBit 16) bs)) ∧
    (Runs s m 0x51 w → cmdArg w 0 < 2 ^ 20 → Ends (.tallyRequest m) s m w .done ((cmdDies w).foldl
      (fun st d => if st.dieInService d then st.latchTally d 3 (st.stepOf none) else st) s)) ∧
    (Runs s m 0x63 w → Ends (.checkpointNow m) s m w (.results ((s.checkpoint 3).flushAll).checkpointLseq 0)
      ((s.checkpoint 3).flushAll)) ∧
    (∀ t, Runs s m 0x62 w → s.exportCapture (cmdArg w 0) (cmdArg w 1) = some t → Ends (.captureExported m) s m w .done t)) ∧
  (∀ (s : State) (m : Mbx) (w : CmdWord), Runs s m 0x50 w → cmdArg w 0 < 2 ^ 20 →
    let v := BitVec.ofNat 64 (cmdArg w 3)
    (cmdArg w 1 = 0 → cmdArg w 2 ≤ 31 → fld v 63 29 = 0 → selectPolicy (eventQualifier (fld v 11 0)) (fld v 23 12) (bit v 24) = 0 →
      Ends (.measureSetCounter m) s m w .done (s.updDies fun d x => if (cmdArg w 0).testBit d.val then
        { x with counters := x.counters.setIfInBounds (cmdArg w 2) { select := v, value := 0 } } else x)) ∧
    (cmdArg w 1 = 1 → cmdArg w 2 ≤ 7 → fld v 63 21 = 0 → selectPolicy (sourceQualifier (fld v 3 0)) (fld v 15 4) (bit v 16) = 0 →
      Ends (.measureSetHistogram m) s m w .done (s.draw.2.updDies fun d x => if (cmdArg w 0).testBit d.val then
        { x with hists := x.hists.setIfInBounds (cmdArg w 2) (Histogram.fresh (BitVec.ofNat 32 v.toNat) s.freeCtr) } else x)) ∧
    (cmdArg w 1 = 2 → cmdArg w 2 ≤ 4 → 16 ≤ cmdArg w 3 → cmdArg w 3 ≤ 26 →
      Ends (.measureSetWindow m) s m w .done (s.updDies fun d x =>
        if (cmdArg w 0).testBit d.val ∧ hasBw d ⟨cmdArg w 2 % 5, Nat.mod_lt _ (by decide)⟩ then
          { x with bw := x.bw.setIfInBounds (cmdArg w 2) { BwWin.reset with shift := BitVec.ofNat 5 (cmdArg w 3) } } else x)))

/-- Creating a context gives it its semaphores, its instruction memory and its save areas, and enables its stall;
destroying one stops it, frees all of it, and leaves no context of its number. -/
def Obligations.ContextRows : Prop :=
  ∀ (s : State) (m : Mbx) (w : CmdWord),
    let c := cmdTarget m w
    (∀ (bs : Bytes) (sem prog : Nat) (save : List Nat), Runs s m 0x10 w → Buffer w 64 → bs.length = 64 →
      let r := wordOf 512 bs
      creReserved r = true → s.ctx c = none → 1 ≤ creSlots r → creSlots r ≤ 16 → 1 ≤ creSems r → creSems r ≤ 256 →
      1 ≤ creProg r → creProg r ≤ 8192 → 4 ≤ creScratch r → creScratch r ≤ 61440 → creScratch r % 4 = 0 →
      s.stallPolicy c (creStall r) = 0 → (creAction r = true → creMode r = true) →
      s.commonRun 256 (creSems r) (fun x => (x.semBase, x.semCount)) = some sem →
      s.commonRun 8192 (creProg r) (fun x => (x.progBase, x.progCount)) = some prog → s.saveAreas = some save →
      s.quotasFit r = true →
      Ends (.ctxCreate m (some bs)) s m w (.results (sem + 65536 * prog) 0)
        ((s.setCtx c (some (CtxSt.fresh r sem prog save))).updDies fun _ y => { y with
          stalls := y.stalls.set c { y.stalls[c].configure (creStall r) with enable := true } })) ∧
    (∀ x : CtxSt, Runs s m 0x11 w → (s.mbx (mbxOf (c.val + 1))).started = none → s.ctx c = some x →
      Ends (.ctxDestroy m) s m w .done ((if x.running then s.faultStop c .halted else s).freeCtx c x) ∧
      ((if x.running then s.faultStop c .halted else s).freeCtx c x).ctx c = none)

/-- LAUNCH starts the streams of its mask at ENTRY, with their semaphores at 0; STOP stops the streams of a running context,
contributes FAULT, and answers the last completed step. -/
def Obligations.LaunchStop : Prop :=
  ∀ (s : State) (m : Mbx) (w : CmdWord) (x : CtxSt),
    let c := cmdTarget m w
    s.ctx c = some x →
    (∀ y : CtxSt, Runs s m 0x33 w → x.running = false → 1 ≤ cmdArg w 0 → cmdArg w 0 < 2 ^ 20 →
      let mask := BitVec.ofNat 20 (cmdArg w 0)
      s.launchPolicy c x mask (cmdArg w 1) (cmdArg w 3) = 0 → x.launchFallback = some y →
      let t := s.launchCtx c y mask (cmdArg w 1) (cmdArg w 2) (cmdArg w 3)
      Ends (.launch m) s m w .done t ∧
      (∀ d : Die, mask.getLsbD d = true → ∃ u, t.stream d c = some u ∧ u.launched = true ∧ u.pc = cmdArg w 1 ∧
        u.hold = none ∧ u.promoInterval = 16 ∧ u.timeoutUs = 10000000) ∧
      ∃ z, t.ctx c = some z ∧ z.verdict = 0 ∧ z.startStep = cmdArg w 2 ∧ z.stepGroup = cmdArg w 3) ∧
    (Runs s m 0x34 w → x.running = true → Ends (.stop m) s m w (.results x.lastMk 0) (s.faultStop c .halted))

/-- PROG_LOAD, DESC_WRITE and SLOT_WRITE change what they name: the words of a context's instruction memory on the dies of a
mask, descriptors, and the form of a slot (at the next MK while streams run). -/
def Obligations.ContextTables : Prop :=
  ∀ (s : State) (m : Mbx) (w : CmdWord) (x : CtxSt) (bs : Bytes),
    let c := cmdTarget m w
    s.ctx c = some x →
    (Runs s m 0x32 w → cmdArg w 0 < 2 ^ 20 → x.running = false → cmdArg w 1 + cmdArg w 2 ≤ x.progCount →
      Buffer w (32 * cmdArg w 2) → bs.length = 32 * cmdArg w 2 → Ends (.progLoad m (some bs)) s m w .done
        ((onesOf (BitVec.ofNat 20 (cmdArg w 0))).foldl (fun st d => st.loadProgram c x d (cmdArg w 1)
          ((List.range (cmdArg w 2)).map fun i => wordOf 256 (slice bs (32 * i) 32))) s)) ∧
    (Runs s m 0x30 w → cmdArg w 0 + cmdArg w 1 ≤ 4096 → Buffer w (64 * cmdArg w 1) →
      bs.length = 64 * cmdArg w 1 → Ends (.descWrite m (some bs)) s m w .done (s.updCtx c fun y => { y with
        descs := (List.range (cmdArg w 1)).foldl (fun t i =>
          SMap.put 0 t (cmdArg w 0 + i) (wordOf 512 (slice bs (64 * i) 64))) y.descs })) ∧
    (Runs s m 0x35 w → cmdArg w 0 ≤ 255 → slotFormOk (cmdArg w 1) = true →
      (∀ p, x.policySet = some p → slotEnable (polSlot p (cmdArg w 0)) = false) →
      Ends (.slotWrite m) s m w .done (s.updCtx c fun y => if x.running
        then { y with slotWrites := SMap.insert y.slotWrites (cmdArg w 0) (setFld (SMap.get 0 x.slots (cmdArg w 0)) 4 0 (cmdArg w 1)) }
        else { y with
          slots := SMap.put 0 y.slots (cmdArg w 0) (setFld (SMap.get 0 x.slots (cmdArg w 0)) 4 0 (cmdArg w 1))
          slotWrites := y.slotWrites.filter (·.1 ≠ cmdArg w 0) }))

/-- MEM_ALLOC takes the lowest free run, records the range and zeroes it; MEM_FREE forgets the range. -/
def Obligations.MemoryRanges : Prop :=
  ∀ (s : State) (m : Mbx) (w : CmdWord) (x : CtxSt) (i u : Nat),
    let c := cmdTarget m w
    let n := cmdArg w 2
    let t := fun (kind die : Nat) => s.updCtx c fun y => { y with ranges := y.ranges ++
      [{ index := i, kind := kind, die := die, base := u * allocUnit kind, len := n }] }
    s.ctx c = some x →
    (Runs s m 0x20 w → cmdArg w 0 = 0 → cmdArg w 1 < 20 → 0 < n → n % 65536 = 0 → x.freeIndex = some i →
      s.allocAt x 0 (cmdArg w 1) (n / 65536) = some u →
      Ends (.memAlloc m) s m w (.results ((cmdArg w 1 + 1) * 2 ^ 36 + u * 65536) i)
        ((t 0 (cmdArg w 1)).zeroStack (cmdArg w 1) (u * 65536) n)) ∧
    (Runs s m 0x20 w → cmdArg w 0 = 1 → 0 < n → n % 1310720 = 0 → x.freeIndex = some i →
      s.allocAt x 1 0 (n / 1310720) = some u →
      Ends (.memAlloc m) s m w (.results (0x100000000000 + u * 1310720) i)
        ((List.range 20).foldl (fun st d => st.zeroStack d (u * 1310720 / 20) (n / 20)) (t 1 0))) ∧
    (Runs s m 0x20 w → cmdArg w 0 = 2 → cmdArg w 1 < 20 → 0 < n → n % 4096 = 0 → x.freeIndex = some i →
      s.allocAt x 2 (cmdArg w 1) (n / 4096) = some u →
      Ends (.memAlloc m) s m w (.results (u * 4096) i) ((t 2 (cmdArg w 1)).zeroScratch (cmdArg w 1) (u * 4096) n)) ∧
    (∀ r, Runs s m 0x21 w → x.ranges.find? (fun r => r.index = cmdArg w 0) = some r → x.running = false → x.dependsOn r = false →
      Ends (.memFree m) s m w .done (s.updCtx c fun y => { y with ranges := y.ranges.filter fun q => q.index ≠ r.index }))

/-- What MEM_ALLOC takes belongs to nobody: no run that a context holds, and no retired page, meets it. -/
def Obligations.AllocationIsDisjoint : Prop :=
  ∀ (s : State) (x : CtxSt) (d n u : Nat), 0 < n →
    (s.allocAt x 0 d n = some u → u + n ≤ pagesPerStack ∧ (∀ r ∈ s.takenPages d, u + n ≤ r.1 ∨ r.1 + r.2 ≤ u ∨ r.2 = 0) ∧
      x.pagesOn d + n ≤ x.hbmPages) ∧
    (s.allocAt x 2 d n = some u → u + n ≤ scratchUnits ∧ (∀ r ∈ s.takenUnits d, u + n ≤ r.1 ∨ r.1 + r.2 ≤ u ∨ r.2 = 0))

/-- Commit entries, groups, policy records and rings are registered as their records say. -/
def Obligations.SuphorRegistrations : Prop :=
  ∀ (s : State) (m : Mbx) (w : CmdWord) (x : CtxSt) (bs : Bytes),
    let c := cmdTarget m w
    s.ctx c = some x →
    (Runs s m 0x37 w → cmdArg w 0 ≤ 1023 → cmdArg w 1 < 20 → x.running = false → Buffer w 32 → bs.length = 32 →
      let e := wordOf 256 bs
      entryReserved e = true → entryFields e = true →
      s.slicesOn (cmdArg w 1) (c, cmdArg w 1 * 1024 + cmdArg w 0) + fld e 35 16 ≤ 1048576 →
      Ends (.entryRegister m (some bs)) s m w .done (s.updCtx c fun y => { y with
        entries := SMap.insert y.entries (cmdArg w 1 * 1024 + cmdArg w 0) {
          word := setBit e 2 false, area := false, written := [], lastMap := [], lastStep := 0, codeBytes := 0, complete := false } })) ∧
    (Runs s m 0x39 w → Buffer w 32 → bs.length = 32 →
      let g := wordOf 256 bs
      groupReserved g = true → s.groupOk c g = true → s.group (fld g 7 0) = none →
      ∃ t, Ends (.groupRegister m (some bs)) s m w .done t ∧ t.group (fld g 7 0) = some g ∧
        ∀ d : Die, (t.die d).groupSeq = SMap.erase (s.die d).groupSeq (fld g 7 0)) ∧
    (∀ g, Runs s m 0x3A w → s.group (cmdArg w 0) = some g → fld g 10 8 = c.val → ¬(x.running = true ∧ x.stepGroup = cmdArg w 0) →
      (∀ d : Die, ∀ o ∈ (s.die d).ops, o.open_ = true → o.group ≠ cmdArg w 0) →
      Ends (.groupRelease m) s m w .done { s with fabric := { s.fabric with
        groups := SMap.erase s.fabric.groups (cmdArg w 0), multicast := SMap.erase s.fabric.multicast (cmdArg w 0) } }) ∧
    (Runs s m 0x3B w → cmdArg w 0 = 1 → Buffer w 4160 → bs.length = 4160 → fallbackReserved bs = true → x.fallbackPolicy bs = 0 →
      Ends (.policySetFallback m (some bs)) s m w .done (s.updCtx c fun y => { y with policyNext := some bs })) ∧
    (Runs s m 0x3B w → cmdArg w 0 = 2 → Buffer w 32 → bs.length = 32 → resilienceReserved (wordOf 256 bs) = true →
      s.resiliencePolicy x (wordOf 256 bs) = 0 →
      Ends (.policySetResilience m (some bs)) s m w .done (s.updCtx c fun y => { y with resilienceNext := some (wordOf 256 bs) })) ∧
    (Runs s m 0x3E w → cmdArg w 0 = 1 → cmdArg w 1 ≠ 0 → cmdArg w 1 % 64 = 0 → cmdArg w 1 < 2 ^ 47 → 6 ≤ cmdArg w 2 →
      cmdArg w 2 ≤ 16 → Ends (.ringRegister m) s m w .done
        ((s.write (.host (cmdArg w 1)) (List.replicate 64 0) false).updCtx c fun y => { y with
          stepRing := some { address := cmdArg w 1, sizeLog := cmdArg w 2, writeIndex := 0, dropped := 0 } }))

/-- Packages that pass their checks are installed: calibration, firmware, key list and gambit. One that does not pass completes
with SIGNATURE, or with the gambit's reason, and changes flash only by the record of its refusal. -/
def Obligations.PackageRows : Prop :=
  ∀ (s : State) (m : Mbx) (w : CmdWord) (p : Bytes), Buffer w p.length →
    (Runs s m 0x67 w → Ends (.calWrite m (some p)) s m w (if s.pkgOk [2] p then .done else .no .signature)
      (if s.pkgOk [2] p then s.installCalibration p else s.refusePkg p)) ∧
    (Runs s m 0x68 w → Ends (.fwInstall m (some p)) s m w
      (if s.pkgOk [1, 3] p then .results (if pkgType p = 1 then pkgFwRev p else leAt (pkgBody p) 0 4) 0 else .no .signature)
      (if s.pkgOk [1, 3] p then if pkgType p = 1 then s.installFirmware p else s.installKeys p else s.refusePkg p)) ∧
    (Runs s m 0x65 w → Ends (.gambitInstall m (some p)) s m w (gambitReply (s.installGambit p).1 (gambitIdOf p))
      (s.installGambit p).2 ∧ (s.gambitRefusal p ≠ 0 → (s.installGambit p).2.flash = (s.logDevice 0x0A 0 none false
        (eventBody 4 (s.gambitRefusal p) 0 0 (gambitIdOf p) 0 0 (digestNat 32 p))).flash)) ∧
    (s.managed = true → exec (.mctpGambitInstall p) s = .next (s.installGambit p).2)

/-- RESET completes and then resets the device; LINK_RESET sends a failed link into training; CASTLE swaps a failed device for
a spare, tells every device in service, and ends when all have answered or at its deadline. -/
def Obligations.SuphorDevice : Prop :=
  ∀ (s : State) (m : Mbx) (w : CmdWord),
    (Runs s m 0x03 w → cmdArg w 0 = 0 → exec (.reset m) s = .next ((s.finishCommand m w .done).deviceReset 2)) ∧
    (Runs s m 0x70 w → cmdArg w 0 ≤ 31 → (s.link (linkOf (cmdArg w 0))).state = 3 → Ends (.linkReset m) s m w .done
      ((s.updLink (linkOf (cmdArg w 0)) fun x => { x with state := 1 }).linkRecord (linkOf (cmdArg w 0)) 1 6)) ∧
    (let l := cmdArg w 0
      let n := cmdArg w 1
      let t := (s.sendSwap l n (s.swapEntries l n).1 (s.swapEntries l n).2 s.serving).takeSwap l n (s.swapEntries l n).1 (s.swapEntries l n).2
      Runs s m 0x71 w → s.fabric.swap = none → l < 2 ^ 14 → n < 2 ^ 14 → n ≠ l → remapValid (s.remapOf n) = true →
      s.inSomeGroup n = false →
      (s.serving ≠ [] → exec (.castle m (some (s.fwRev, s.numericsRev)) 0xFF) s =
        .next { t with fabric := { t.fabric with swap := some (l, n, s.serving, w, m.val) } }) ∧
      (s.serving = [] → exec (.castle m (some (s.fwRev, s.numericsRev)) 0xFF) s = .next (t.endSwap [] w m.val))) ∧
    ∀ (l n k : Nat) (left : List Nat) (v : CmdWord), s.fabric.swap = some (l, n, left, v, k) →
      exec .swapDeadline s = .next (s.endSwap left v k) ∧
      exec .swapResend s = .next (let t := s.sendSwap l n (s.remapOf l) (s.remapOf n) left
        if left.contains n then t.sendMgmt l 1 [l, n, (s.remapOf l).toNat, (s.remapOf n).toNat, n] else t)

/-! ### Mailboxes and the host link -/

/-- A completion lands in the slot that CPL_TAIL names, with its PHASE in bit 0, and CPL_TAIL moves on.

A completion changes host memory, its mailbox and the raised vectors, and nothing else of the device. -/
def Obligations.CompletionWritten : Prop :=
  (∀ (s : State) (m : Mbx) (w : CmdWord) (r : Reply), s.memoryWf → s.host.link.isSome → (s.mbx m).cplEnable = true →
    let x := s.mbx m
    let slot := x.cplTail.toNat % 2 ^ x.cplSize.toNat
    let bytes := leBytes 32 ((cplRecord w r).toNat + (1 - x.cplTail.toNat / 2 ^ x.cplSize.toNat % 2))
    let t := s.complete_ m w r
    t.read (.host (x.cplBase.toNat / 4096 * 4096 + 32 * slot)) 32 = bytes ∧ (t.mbx m).cplTail = x.cplTail + 1 ∧
      fld (cplRecord w r) 0 0 = 0 ∧ fld (cplRecord w r) 15 8 = r.status.code ∧ fld (cplRecord w r) 63 32 = cmdTag w) ∧
  (∀ (s : State) (m : Mbx) (w : CmdWord) (r : Reply),
    let t := s.complete_ m w r
    t.stack = s.stack ∧ t.scratch = s.scratch ∧ t.sems = s.sems ∧ t.program = s.program ∧ t.dies = s.dies ∧ t.ctxs = s.ctxs ∧
      t.links = s.links ∧ t.fabric = s.fabric ∧ t.ledger = s.ledger ∧ t.flash = s.flash ∧ t.fuses = s.fuses ∧ t.bootSt = s.bootSt ∧
      t.power = s.power ∧ ∀ n : Mbx, n ≠ m → t.mbx n = s.mbx n)

/-- The rows of a mailbox: a doorbell within the ring sets CMD_TAIL, and one beyond it sets TAIL_ERR; a fetch takes the next
record or sets FETCH_ERR; a ring's control word sets SIZE, ENABLE and vectors and returns its counts to 0 as ENABLE rises;
CPL_HEAD and EVT_HEAD are written; error bits clear by writing 1; ring bases are written while their ring is disabled. -/
def Obligations.MailboxRows : Prop :=
  ∀ (s : State) (m : Mbx) (v : BitVec 64) (h tail : BitVec 32) (w : BitVec 512),
    let x := s.mbx m
    (s.ready = true → (tail - x.cmdHead).toNat ≤ 2 ^ x.cmdSize.toNat →
      exec (.cmdDoorbell m tail) s = .next (s.updMbx m fun y => { y with cmdTail := tail })) ∧
    (s.ready = true → 2 ^ x.cmdSize.toNat < (tail - x.cmdHead).toNat →
      exec (.cmdDoorbell m tail) s = .next (s.updMbx m fun y => { y with tailErr := true })) ∧
    (s.suphorRuns = true → x.cmdEnable = true → x.fetchErr = false → x.cmdHead ≠ x.cmdTail → s.host.link.isSome →
      exec (.commandFetch m (some w)) s =
        .next ((s.updMbx m fun y => { y with cmdHead := y.cmdHead + 1, fetched := y.fetched ++ [w] }).startMore m) ∧
      exec (.commandFetch m none) s = .next (s.updMbx m fun y => { y with fetchErr := true })) ∧
    (x.cmdEnable = false → bit v 8 = true → 4 ≤ fld v 3 0 → fld v 3 0 ≤ 12 →
      exec (.ringEnableWrite m .cmd v) s = .next ((s.updMbx m fun y => { y with
        cmdSize := BitVec.ofNat 4 (fld v 3 0), cmdEnable := true, cmdTail := 0, cmdHead := 0, fetched := [], aborts := 0 }).startMore m)) ∧
    (x.cplEnable = false → bit v 8 = true → 4 ≤ fld v 3 0 → fld v 3 0 ≤ 12 →
      exec (.ringEnableWrite m .cpl v) s = .next ((s.updMbx m fun y => { y with
        cplSize := BitVec.ofNat 4 (fld v 3 0), cplEnable := true, cplVector := BitVec.ofNat 6 (fld v 21 16), cplHead := 0, cplTail := 0 }).startMore m)) ∧
    (x.evtEnable = false → bit v 8 = true → 4 ≤ fld v 3 0 → fld v 3 0 ≤ 12 →
      exec (.ringEnableWrite m .evt v) s = .next ((s.updMbx m fun y => { y with
        evtSize := BitVec.ofNat 4 (fld v 3 0), evtEnable := true, evtIrqEn := bit v 9, evtVector := BitVec.ofNat 6 (fld v 21 16), evtHead := 0, evtTail := 0 }).startMore m)) ∧
    exec (.cplHeadWrite m h) s = .next ((s.updMbx m fun y => { y with cplHead := h }).startMore m) ∧
    exec (.evtHeadWrite m h) s = .next (s.updMbx m fun y => { y with evtHead := h }) ∧
    exec (.mailboxErrClear m v) s = .next (s.updMbx m fun y => { y with
      fetchErr := y.fetchErr && !bit v 0, tailErr := y.tailErr && !bit v 1, linkRecovered := y.linkRecovered && !bit v 2 }) ∧
    (x.cmdEnable = false → exec (.registerWrite 0 (m.val * 4096 + 8) v) s =
      .next (s.updMbx m fun y => { y with cmdBase := BitVec.ofNat 64 (v.toNat / 4096 * 4096) })) ∧
    (x.cmdEnable = true → exec (.registerWrite 0 (m.val * 4096 + 8) v) s = .next s)

/-- The host link goes down, comes up at a width, fails to train, and is reset: a reset of the host port loses the link,
disables the rings of every mailbox and leaves the commands that run. -/
def Obligations.HostLinkRows : Prop :=
  ∀ (s : State) (u : HostWidth),
    (s.host.link.isSome → exec .hostLinkDown s = .next s.dropHostLink) ∧
    (s.host.link = none → s.hostPortUp = true → exec (.hostLinkUp u) s = .next (s.raiseHostLink u) ∧
      exec (.hostLinkRetrain (some u)) s = .next (s.raiseHostLink u) ∧
      exec (.hostLinkRetrain none) s = .next (s.logDevice 0x07 1 none true (eventBody 0 5 12 0xFF 0 0 0 0))) ∧
    ∃ t, exec .hostPortReset s = .next t ∧ t.host.link = none ∧ t.host.msix = [] ∧ t.host.component = [] ∧
      ∀ m : Mbx, (t.mbx m).cmdEnable = false ∧ (t.mbx m).cplEnable = false ∧ (t.mbx m).evtEnable = false ∧
        (t.mbx m).started = (s.dropHostLink.mbx m).started

/-! ### Power, reset and boot -/

/-- The way up: PWR_EN with the input in range starts the converters; good rails bring the device to reset; releasing RESET_N
with the rails good for 1 ms, or that millisecond's end, starts it. -/
def Obligations.PowerUpRows : Prop :=
  ∀ (s : State) (mv us : Nat),
    (s.power.pwrEn = false → s.power.state = .off → 44000 ≤ mv → mv ≤ 58000 → exec (.powerOn mv) s = .next (s.setPower fun p => { p with
      pwrEn := true, inputMv := mv, inputPeakMv := mv, thermtripN := false, starting := true })) ∧
    (s.power.state = .off → s.power.starting = true → ∃ t, exec .railsGood s = .next t ∧ t.power.state = .reset ∧
      t.power.railsOk = true ∧ t.bootSt.stage = 0 ∧ t.stack = [] ∧ t.scratch = [] ∧ t.fuses = s.fuses) ∧
    (s.power.state = .reset → s.power.resetAsserted = true → s.power.resetHold = false → 1000 ≤ us →
      ∃ t, exec (.resetRelease us) s = .next t ∧ t.power.state = .run ∧ t.power.resetAsserted = false) ∧
    (s.power.state = .reset → s.power.resetAsserted = true → us < 1000 →
      ∃ t, exec (.resetRelease us) s = .next t ∧ t.power.state = .reset ∧ t.power.resetHold = true) ∧
    (s.power.state = .reset → s.power.resetHold = true → ∃ t, exec .resetHoldExpiry s = .next t ∧ t.power.state = .run)

/-- The ways down: PWR_EN released, an input outside 41 V to 59 V, a ride-through past 10 ms and a thermal trip all lower the
rails; a module reset resets the device; a drain stops every context and then acknowledges. -/
def Obligations.PowerDownRows : Prop :=
  ∀ (s : State) (mv : Nat) (d : Die),
    (s.power.state ≠ .off →
      (∃ t, exec .powerOff s = .next t ∧ t.power.state = .off ∧ t.power.pwrEn = false) ∧
      (mv < 41000 ∨ 59000 < mv → ∃ t, exec (.inputVoltageFault mv) s = .next t ∧ t.power.state = .off ∧
        t.bootSt.cleanShutdown = false) ∧
      (40000 ≤ mv → mv < 44000 → ∃ t, exec (.rideThroughEntry mv) s = .next t ∧ t.power.rideThrough.isSome ∧ t.power.state = s.power.state) ∧
      (s.power.rideThrough.isSome → ∃ t, exec .rideThroughExpiry s = .next t ∧ t.power.state = .off) ∧
      (∃ t, exec (.thermtrip d) s = .next t ∧ t.power.state = .off ∧ t.power.thermtripN = true) ∧
      ∃ t, exec .moduleReset s = .next t ∧ t.power.state = .reset ∧ t.power.resetAsserted = true ∧ t.bootSt.stage = 0) ∧
    (s.power.rideThrough.isSome → 44000 ≤ mv → mv ≤ 58000 → ∃ t, exec (.inputVoltageRecovered mv 5) s = .next t ∧
      t.power.rideThrough = none) ∧
    (∃ t, exec .railLeavesWindow s = .next t ∧ t.power.railsOk = false) ∧
    (s.power.state = .run → s.bootSt.stage = 0xFF → ∃ t, exec .moduleDrain s = .next t ∧ t.power.state = .drain ∧
      t.power.shutdownReq = true ∧ ∀ (c : Ctx) (x : CtxSt), t.ctx c = some x → x.running = false) ∧
    (s.power.state = .drain → s.power.shutdownAck = false → exec .drainComplete s =
      .next ((s.checkpoint 4).flushAll.setPower fun p => { p with shutdownAck := true })) ∧
    exec .shutdownReqRelease s = .next (s.setPower fun p => { p with shutdownReq := false })

/-- Samples and reference clocks: the limit code, the capping controller, the episode that ends, the temperatures, and the
clocks that leave and return. -/
def Obligations.SupplyRows : Prop :=
  ∀ (s : State) (code : BitVec 2) (watts avg us : Nat) (dies hbm : List Nat) (inlet outlet : Nat), s.up = true →
    exec (.pwrLimitSample code) s = .next (s.setPower fun p => { p with limitCode := code }).setLimit ∧
    (∃ t, exec (.powerSample watts avg) s = .next t ∧ t.power.inputW = avg ∧
      ∀ d : Die, (t.die d).powerMhz = (cappingStep watts s.power.effectiveW (s.die 0).powerMhz s.power.belowCount).1) ∧
    (∀ peak limit, s.power.episode = some (peak, limit) → (∀ d : Die, 1400 ≤ (s.die d).powerMhz ∧ 1400 ≤ (s.die d).marginMhz) →
      ∃ t, exec (.cappingEpisodeEnd us) s = .next t ∧ t.power.episode = none) ∧
    (∃ t, exec (.thermalSample dies hbm inlet outlet) s = .next t ∧ t.power.inletMilliC = inlet ∧ t.power.outletMilliC = outlet) ∧
    (∃ t, exec .hostRefclkLoss s = .next t ∧ t.power.hostRefclk = false ∧ t.host.link = none) ∧
    (∃ t, exec .fabRefclkLoss s = .next t ∧ t.power.fabRefclk = false ∧ ∀ l : Link, (t.link l).state ≠ 2) ∧
    exec .fabRefclkReturn s = .next (s.setPower fun p => { p with fabRefclk := true })

/-- The capping controller keeps the clocks between 700 and 1,400 MHz, lowers them above the limit, and raises them only at a
sample below 97 % of it that 99 such samples precede (17 R413). -/
def Obligations.CappingStaysInRange : Prop :=
  ∀ watts limit mhz count : Nat, 700 ≤ mhz → mhz ≤ 1400 →
    700 ≤ (cappingStep watts limit mhz count).1 ∧ (cappingStep watts limit mhz count).1 ≤ 1400 ∧
    (limit < watts → (cappingStep watts limit mhz count).1 ≤ mhz ∧ (700 < mhz → (cappingStep watts limit mhz count).1 < mhz)) ∧
    (mhz < (cappingStep watts limit mhz count).1 → 100 * watts < 97 * limit ∧ 99 ≤ count)

/-- A boot with every die good, firmware that passes and a calibration set in force reaches stage 0xFF, raises READY, and
never lowers the security version; with D0 bad it stops at 0x01, and with no firmware at 0xE0. -/
def Obligations.BootRow : Prop :=
  ∀ (s : State) (env : BootEnv), s.power.state = .run → s.bootSt.stage = 0 → s.power.shutdownReq = false →
    (∀ k : DieBoot, env.dies[0]? = some k → k.lockstepOk = false → exec (.boot env) s = .next (s.bootStops 0x01)) ∧
    ((∀ k : DieBoot, env.dies[0]? = some k → k.lockstepOk = true ∧ k.stackOk = true ∧ k.arraysOk = true) →
      (s.bootSlot = none → exec (.boot env) s = .next (s.bootStops 0xE0)) ∧
      ∀ fw isB, s.bootSlot = some (fw, isB) → s.calibrate.bootSt.calInForce ≠ [] →
        ∃ t, exec (.boot env) s = .next t ∧ t.bootSt.stage = 0xFF ∧ t.bootSt.bootCount = s.bootSt.bootCount + 1 ∧ t.power.readyN = true ∧
          s.fuses.secVersion ≤ t.fuses.secVersion)

/-! ### Debug, attestation and management -/

/-- A locked port answers LOCKED to every command that needs a scope, and does nothing else.

The commands without a scope. NOP repeats the previous response; STATUS, GET_NONCE, PUSH, PUSH_RESET, UNLOCK and RELOCK
act as 16 R402 and R403 say. -/
def Obligations.DyoloFree : Prop :=
  (∀ (i : Instr) (d : Die) (f : BitVec 160) (s : State) (code : Nat), scopedRow i = some (d, f, code) → Framed s f code →
    s.bootSt.unlocked = false → Answers i s d f 1 0 s) ∧
  (∀ (d : Die) (f : BitVec 160) (s : State),
    (s.tapUp = true → frCmd f = 0 → exec (.dyoloNop d f) s = .next (s.updDie d fun x => { x with tapSide := { x.tapSide with ir := 0x10 } })) ∧
    (Framed s f 0x01 → ∃ data, Answers (.dyoloStatus d f) s d f 0 data s ∧ data % 2 = (if s.bootSt.unlocked then 1 else 0)) ∧
    (Framed s f 0x02 → ∃ n t, Answers (.dyoloGetNonce d f) s d f 0 (BitVec.toNat n) t ∧ (d = 0 → t.bootSt.nonce = some n) ∧
      (d ≠ 0 → t.bootSt = s.bootSt)) ∧
    (Framed s f 0x03 → d = 0 → s.bootSt.push.length + 8 ≤ pushCapacity →
      Answers (.dyoloPush d f) s d f 0 0 { s with bootSt := { s.bootSt with push := s.bootSt.push ++ leBytes 8 (frData f) } }) ∧
    (Framed s f 0x04 → d = 0 → Answers (.dyoloPushReset d f) s d f 0 0 { s with bootSt := { s.bootSt with push := [] } }) ∧
    (Framed s f 0x05 → d = 0 → s.pkgOk [4] s.bootSt.push = true → ∃ t, Answers (.dyoloUnlock d f) s d f 0 0 t ∧
      t.bootSt.unlocked = true ∧ t.bootSt.nonce = none ∧ t.bootSt.scope = BitVec.ofNat 3 (fld (wordOf 128 (pkgBody s.bootSt.push)) 2 0)) ∧
    (Framed s f 0x05 → d = 0 → s.pkgOk [4] s.bootSt.push = false → ∃ t, Answers (.dyoloUnlock d f) s d f 5 0 t ∧
      t.bootSt.unlocked = false ∧ t.bootSt.nonce = none) ∧
    (Framed s f 0x06 → ∃ t, Answers (.dyoloRelock d f) s d f 0 0 t ∧ t.bootSt.unlocked = false ∧
      ∀ (e : Die), (t.die e).tapSide.haltedController = false ∧ ∀ (c : Ctx) (u : Stream), t.stream e c = some u → u.halted = false))

/-- The commands that a scope grants: HALT, RESUME, STEP and breakpoints under RUN, READ under READ, WRITE, INSTALL and
RESET_DEVICE under WRITE. -/
def Obligations.DyoloScoped : Prop :=
  ∀ (d : Die) (f : BitVec 160) (x : Phys) (s : State) (c : Ctx) (u : Stream) (y : CtxSt), s.stream d c = some u → s.ctx c = some y →
    (frSpace f = 4 → frCtx f = c.val →
      (Scoped s d f 0x10 0 → Answers (.dyoloHalt d f) s d f 0 0 (s.updStream d c fun t => { t with halted := true })) ∧
      (Scoped s d f 0x11 0 → u.halted = true → ∃ t v, Answers (.dyoloResume d f) s d f 0 0 t ∧ t.stream d c = some v ∧
        v.halted = false ∧ v.single = true) ∧
      (Scoped s d f 0x12 0 → u.halted = true → u.launched = true → ∃ t ran, Answers (.dyoloStep d f x) s d f (if ran then 0 else 3) 0 t ∧
        (ran, t) = s.stepStream d c (s.wordAt d y u.pc) x) ∧
      (Scoped s d f 0x13 0 → Answers (.dyoloBreakSet d f) s d f 0 0 (s.updDie d fun x => { x with tapSide := { x.tapSide with
        breaks := otherBreaks f x.tapSide.breaks ++ [(frData f % 4, c.val, frAddr f)] } })) ∧
      (Scoped s d f 0x14 0 → Answers (.dyoloBreakClear d f) s d f 0 0 (s.updDie d fun x => { x with tapSide := { x.tapSide with
        breaks := otherBreaks f x.tapSide.breaks } }))) ∧
    (frSpace f = 2 → frAddr f % 8 = 0 → frAddr f < 2 ^ 26 →
      let v := s.applyPhys x
      (Scoped s d f 0x20 1 → Answers (.dyoloRead d f x) s d f (if (v.poisonAt (.sp d (frAddr f))).isSome then 6 else 0)
        (leNat (v.read (.sp d (frAddr f)) 8)) v) ∧
      (Scoped s d f 0x21 2 → Answers (.dyoloWrite d f x) s d f 0 0 (v.write (.sp d (frAddr f)) (leBytes 8 (frData f)) false).markWritten)) ∧
    (Scoped s d f 0x07 2 → d = 0 →
      let p := s.bootSt.push
      Answers (.dyoloInstall d f) s d f (if s.pkgOk [1] p || s.pkgOk [2] p then 0 else 5) 0
        (if s.pkgOk [1] p then s.installFirmware p else if s.pkgOk [2] p then s.installCalibration p else s.refusePkg p).markWritten) ∧
    (Scoped s d f 0x30 2 → exec (.dyoloResetDevice d f) s = .next (s.deviceReset 4))

/-- The tap's instructions: IDCODE shifts out the identification register, BYPASS a 0, and EXTEST and SAMPLE/PRELOAD reach the
boundary cells only while RESET_N is asserted; a tap reset selects IDCODE on every die. -/
def Obligations.TapRows : Prop :=
  ∀ (d : Die) (cells : BitVec 64) (s : State), s.power.state ≠ .off →
    exec (.idcode d) s = .next (s.selectIr d 0x01 fun x => { x with response := 0x2720058B }) ∧
    exec (.bypass d) s = .next (s.selectIr d 0xFF fun x => { x with response := 0 }) ∧
    (s.power.resetAsserted = true →
      exec (.extest d cells) s = .next (s.selectIr d 0x00 fun x => { x with boundary := cells }) ∧
      exec (.samplePreload d cells) s = .next (s.selectIr d 0x02 fun x => { x with boundary := cells })) ∧
    (s.power.resetAsserted = false → exec (.extest d cells) s = .next (s.selectIr d 0xFF id) ∧
      exec (.samplePreload d cells) s = .next (s.selectIr d 0xFF id)) ∧
    exec .tapReset s = .next (s.updDies fun _ x => { x with tapSide := { x.tapSide with ir := 0x01 } })

/-- The SPDM responder: the version exchange begins anew, algorithms are negotiated, and the digests, certificate, challenge
and measurements then answer with the messages of version 1.3; anything else is an ERROR of unsupported request.

Over MCTP: PLDM reads of the sensors and the collector setting of PLDM type 63. -/
def Obligations.ManagementRows : Prop :=
  (∀ (via : SpdmPath) (q : Bytes) (s : State), s.spdmAnswers via = true →
    let x := s.spdm via
    (reqCode q = 0x84 → ∃ y, exec (.spdmGetVersion via q) s = .next (s.setSpdm via y) ∧ y.vca = q ++ y.response ∧
      y.response = [0x10, 0x04, 0, 0, 0, 1, 0x00, 0x13] ∧ y.negotiated = false) ∧
    (reqCode q = 0xE1 → x.vca ≠ [] → ∃ y, exec (.spdmGetCapabilities via q) s = .next (s.setSpdm via y) ∧
      y.response.take 2 = [0x13, 0x61] ∧ y.vca = x.vca ++ q ++ y.response) ∧
    (reqCode q = 0xE3 → x.vca ≠ [] → (leAt q 8 4).testBit 5 = true → (leAt q 12 4).testBit 2 = true →
      ∃ y, exec (.spdmNegotiateAlgorithms via q) s = .next (s.setSpdm via y) ∧ y.response.take 2 = [0x13, 0x63] ∧ y.negotiated = true) ∧
    (x.negotiated = true →
      (reqCode q = 0x81 → ∃ y, exec (.spdmGetDigests via q) s = .next (s.setSpdm via y) ∧
        y.response = [0x13, 0x01, 0x01, 0x01] ++ sha512 spdmChain) ∧
      (reqCode q = 0x82 → reqP1 q % 16 = 0 → leAt q 4 2 < spdmChain.length →
        ∃ y, exec (.spdmGetCertificate via q) s = .next (s.setSpdm via y) ∧ y.response.take 2 = [0x13, 0x02] ∧
          y.response.drop 8 = (spdmChain.drop (leAt q 4 2)).take (leAt q 6 2)) ∧
      (reqCode q = 0x83 → reqP1 q = 0 → ∃ (t : State) (y : SpdmSt) (m : Bytes), exec (.spdmChallenge via q) s = .next (t.setSpdm via y) ∧
        y.response.take 2 = [0x13, 0x03] ∧ y.certs = [] ∧ ∃ r, y.response = r ++ Config.identitySign m) ∧
      (reqCode q = 0xE0 → reqP2 q ≤ 7 → ∃ (t : State) (y : SpdmSt), exec (.spdmGetMeasurements via q) s = .next (t.setSpdm via y) ∧
        y.response.take 2 = [0x13, 0x60])) ∧
    ([0x81, 0x82, 0x83, 0x84, 0xE0, 0xE1, 0xE3].contains (reqCode q) = false →
      exec (.spdmUnsupportedRequest via q) s = .next (s.setSpdm via { x with response := spdmError 0x07 (reqCode q) }))) ∧
  (∀ (k : Nat) (v : Int) (collector port : BitVec 64) (address : Bytes) (s : State), s.managed = true →
    (s.sensor k = some v → exec (.pldmSensorRead k) s = .next (s.pldmAnswer (0 :: leBytes 4 (twos 32 v)))) ∧
    (s.sensor k = none → exec (.pldmSensorRead k) s = .next (s.pldmAnswer [0x80])) ∧
    (collector.toNat ≤ 1 → port.toNat < 2 ^ 17 → address.length = 16 → exec (.pldmCollectorSet collector port address) s =
      .next ((s.setCollector collector.toNat (port.toNat % 65536) (bit port 16) address).pldmAnswer [0])))

/-! ### Links and the router -/

/-- A control flit of each kind is taken on a link whose lanes run; a live link sends its running totals, in a codeword that is
being filled or alone.

A HELLO of the opposite direction and the same link number brings a trained link up; another one puts a training link down. -/
def Obligations.ControlFlitRows : Prop :=
  ∀ (l : Link) (f : BitVec 512) (s : State), (s.link l).state ≠ 0 → (s.link l).state ≠ 3 →
    let t := ((s.quietLink l).count (linkDie l) 0x702 l none).controlFlit l f
    (flitKind f = 0 → exec (.idleFlit l f) s = .next t) ∧ (flitKind f = 1 → exec (.creditFlit l f) s = .next t) ∧
    (flitKind f = 2 → exec (.replayFlit l f) s = .next t) ∧ (flitKind f = 3 → exec (.abortFlit l f) s = .next t) ∧
    (flitKind f = 4 → exec (.helloFlit l f) s = .next t) ∧
    ((s.link l).state = 2 → (s.link l).open_ = [] → exec (.controlFlitInterval l) s = .next
      ((s.updLink l fun x => { x with control := [x.dueFlit], resent := [] }).count (linkDie l) 0x701 l none)) ∧
    ((s.link l).state = 2 → (s.link l).open_ ≠ [] → exec (.controlFlitInterval l) s = .next
      ((s.quietLink l).emit l [{ control := true, flit := (s.link l).dueFlit, pkt := none }])) ∧
    (∀ h : BitVec 33, (s.link l).state = 1 →
      (helloFits l h = true → (s.link l).trained = true → ((s.meetHello l h).link l).state = 2) ∧
      (helloFits l h = false → ((s.meetHello l h).link l).state = 0))

/-- A sequenced codeword in order is accepted and its slots taken; a TRAINING codeword's control slots are taken; one ahead of
its turn, or a bad one, asks for a replay and leaves RX_SEQ as it was; one that came before, or comes while the replay is awaited, is
dropped. A lane that loses lock
takes a link out of service, and a training link out of training.

A link that has trained sends its HELLO, and enters service if its peer's HELLO has come and fits; training that fails leaves a
link that was never in service down, and fails one that was. -/
def Obligations.LinkRows : Prop :=
  (∀ (l : Link) (r : LinkCw) (s : State), (s.link l).state ≠ 0 → (s.link l).state ≠ 3 →
    let d := linkDie l
    let seq := fld r.control 19 10
    let due := (s.link l).expected
    let q := (s.quietLink l).updLink l fun x => { x with correctedSymbols := x.correctedSymbols + BitVec.ofNat 32 r.corrected }
    let t := (if r.corrected = 0 then q else q.count d 0x703 l none r.corrected).count d 0x702 l none 10
    let bad := ((s.quietLink l).updLink l fun x => { x with
      uncorrected := BitVec.ofNat 32 (satAdd 32 x.uncorrected.toNat 1) }).count d 0x704 l none
    (r.good = true → seq = 1023 → exec (.linkCodewordReceived l r) s = .next (t.takeSlots l r)) ∧
    (r.good = true → seq ≠ 1023 → seq = due → exec (.linkCodewordReceived l r) s = .next
      ((t.updLink l fun x => { x with rxSeq := seq, rxAny := true, waitingReplay := false }).takeSlots l r)) ∧
    (r.good = true → seq ≠ 1023 → seq ≠ due → (s.link l).state = 2 → (s.link l).waitingReplay = false →
      512 < (due + 1023 - seq) % 1023 → exec (.linkCodewordReceived l r) s = .next (t.askReplay l due)) ∧
    (r.good = true → seq ≠ 1023 → seq ≠ due → (s.link l).waitingReplay = true ∨ (due + 1023 - seq) % 1023 ≤ 512 ∨ (s.link l).state ≠ 2 →
      exec (.linkCodewordReceived l r) s = .next t) ∧
    (r.good = false → (s.link l).state = 2 → exec (.linkCodewordReceived l r) s = .next (bad.askReplay l due) ∧
      ((bad.askReplay l due).link l).rxSeq = (s.link l).rxSeq) ∧
    (r.good = false → (s.link l).state ≠ 2 → exec (.linkCodewordReceived l r) s = .next bad)) ∧
  (∀ (l : Link) (lane : Fin 8) (s : State),
    ((s.link l).state = 2 → exec (.laneLockLost l lane) s = .next (s.leaveService l 3) ∧ ((s.leaveService l 3).link l).state ≠ 2) ∧
    ((s.link l).state = 1 → exec (.laneLockLost l lane) s = .next (s.updLink l fun x => { x with trained := false }))) ∧
  (∀ (l : Link) (s : State), (s.link l).state = 1 →
    (s.power.fabRefclk = true → (s.link l).hello.any (helloFits l) = true →
      exec (.linkRetrainDone l true) s = .next ((s.sayHello l).comeUp l) ∧ (((s.sayHello l).comeUp l).link l).state = 2 ∧
      (((s.sayHello l).comeUp l).link l).txSeq = 0) ∧
    (s.power.fabRefclk = true → (s.link l).hello.any (helloFits l) = false →
      exec (.linkRetrainDone l true) s = .next (s.sayHello l) ∧ ((s.sayHello l).link l).trained = true) ∧
    ((s.link l).fresh = true → exec (.linkRetrainDone l false) s =
      .next ((s.updLink l fun x => { x with state := 0, trained := false }).linkRecord l 0 5)) ∧
    ((s.link l).fresh = false → exec (.linkRetrainDone l false) s =
      .next ((s.updLink l fun x => { x with state := 3, trained := false }).linkRecord l 3 5)))

/-- The router takes an arriving packet, moves a waiting one on, and discards one that has waited for more than 1 ms with a
NAK; the codewords that no packet is ready for are then filled. A packet for this device reaches its inbox. -/
def Obligations.RouterRows : Prop :=
  ∀ (s : State) (p : Pkt) (w : Waiting) (k : Nat) (l : Option Link),
    exec (.routerPacketArrival l p) s = .next (s.route (l.map (·.val)) p) ∧
    (p.headOk = true → p.valid = true → p.mcast = false → p.hops < 64 → p.dst = s.node →
      exec (.routerPacketArrival none p) s = .next ((s.freeBuffer none p).offer p).closeLinks) ∧
    exec (.packetAdvance k) s = .next (s.advanceAt k).closeLinks ∧
    (s.fabric.waiting[k]? = some w → exec (.packetStaleTimeout k) s = .next
      ((({ s with fabric := { s.fabric with waiting := s.fabric.waiting.eraseIdx k } } : State).discard w.from_ w.pkt 3).nak
        (routerDie w.from_ w.pkt) w.pkt 0xA).closeLinks)

/-! ### Transport -/

/-- A SIGNAL adds NOTIFY_VAL to NOTIFY_SEM of CONTEXT on DST_DIE when it is first received. Duplicates add nothing.

What waited behind a message's place is then looked at again. -/
def Obligations.SignalAdds : Prop :=
  ∀ (s : State) (p : Pkt) (x : CtxSt), p.ty = 2 → s.isMine p = true → p.payloadOk = true → p.dstDie ≤ 19 →
    let d := dieOf p.dstDie
    let c := ctxOf p.ctx
    s.memoryWf → s.ctx c = some x → p.notifySem < x.semCount →
    ((s.die d).seen p = .fresh → p.seqSpace ≠ 1 → ∃ t : State, exec (.signalReceived p) s = .next t.drainAll ∧
      t.sem d c p.notifySem = s.sem d c p.notifySem + BitVec.ofNat 32 p.notifyVal) ∧
    ((s.die d).seen p = .fresh → p.seqSpace = 1 → exec (.signalReceived p) s = .next ((s.unbox p).storeOrdered d p)) ∧
    ((s.die d).seen p = .duplicate → ∃ t, exec (.signalReceived p) s = .next t ∧ t.sems = s.sems)

/-- A PUT, GET response or GET request that is new and allowed leaves the inbox, is marked as received, has its effect and is
acknowledged; an ordered one enters the reorder store, and has its effect when its turn comes; one that may not land is
refused with a NAK.

A collective packet is taken, parked or refused by the unit; an express one is applied, never answered, and counts as received
unless the unit discards it. -/
def Obligations.ReceiptRows : Prop :=
  (∀ (s : State) (p : Pkt) (x : Phys) (r : Nat), s.isMine p = true → p.payloadOk = true →
    let d := dieOf p.dstDie
    let t := s.unbox p
    let u := (s.applyPhys x).unbox p
    let done := fun (q : State) => if p.seqSpace = 1 then q.storeOrdered d p else ((((q.markSeq d p).effect d p).ackFor d p false).drainAll)
    ((s.die d).seen p = .fresh → t.refusal d p = none →
      (p.ty = 1 → exec (.putReceived p) s = .next (done t)) ∧ (p.ty = 4 → exec (.getRespReceived p) s = .next (done t))) ∧
    ((s.die d).seen p = .fresh → t.refusal d p = some r → (p.ty = 1 → exec (.putReceived p) s = .next (t.nak d p r)) ∧
      (p.ty = 4 → exec (.getRespReceived p) s = .next (t.nak d p r))) ∧
    (((s.applyPhys x).isMine p = true) → (u.die d).seen p = .fresh → u.refusal d p = none → p.ty = 3 →
      exec (.getReqReceived p x) s = .next (done u))) ∧
  (∀ (s t : State) (p : Pkt), s.isMine p = true → p.payloadOk = true → p.dstDie ≤ 19 →
    let d := dieOf p.dstDie
    let u := s.unbox p
    (p.ty = 5 → (u.die d).seen p = .fresh → (u.die d).msgRefusal p = none →
      (p.seqSpace = 1 → exec (.collReceived p) s = .next (u.storeOrdered d p)) ∧
      (p.seqSpace ≠ 1 → u.offerColl d p = .taken t →
        exec (.collReceived p) s = .next ((((t.markSeq d p).countMessage d p).ackFor d p false).drainAll)) ∧
      (∀ r, p.seqSpace ≠ 1 → u.offerColl d p = .refused r t → exec (.collReceived p) s = .next (t.nak d p r))) ∧
    (p.ty = 6 → (u.die d).seen p = .fresh → ∀ kept, u.offerExpress d p = (t, kept) →
      exec (.expressReceived p) s = .next (if kept then t.markSeq d p else t)))

/-- An ACK takes what it covers off its source's list, a multicast message's acknowledgement takes its member, and a refusal
for good (8, 9) stops the sender's context.

The transport's timers: an ACK for what is not yet acknowledged, a retransmission after E2E_TIMEOUT (given up at the
ninth), a resend after a NAK's wait, and a tracking entry that is forgotten. -/
def Obligations.AnswerRows : Prop :=
  (∀ (s : State) (p : Pkt), s.isMine p = true →
    let d := dieOf p.dstDie
    (p.ty = 7 → ∃ t : State, exec (.ackReceived p) s = .next ((t.pump d).settle d) ∧
      (t.die d).unacked = (s.die d).unacked.filter (fun k => !ackCovers p k) ∧ t.stack = s.stack ∧ t.scratch = s.scratch ∧
      t.ctxs = s.ctxs) ∧
    (p.ty = 9 → ∃ t : State, exec (.msgAckReceived p) s = .next ((t.pump d).settle d) ∧ t.stack = s.stack ∧ t.scratch = s.scratch ∧
      t.ctxs = s.ctxs ∧ ∀ k : SrcPkt, k ∈ (t.die d).unacked → k.pkt.mcast = true → k.sent = true → k.pkt.msgId = p.msgId → ¬ p.src ∈ k.members) ∧
    (p.ty = 8 → p.aux = 8 ∨ p.aux = 9 → ∀ i k, (s.die d).nakked p = some i → (s.die d).unacked[i]? = some k →
      ∀ y, s.ctx (ctxOf k.ctx) = some y → ∃ t z, exec (.nakReceived p) s = .next t ∧ t.ctx (ctxOf k.ctx) = some z ∧ z.running = false) ∧
    (p.ty = 10 → p.payloadOk = true → mgmtKind p = 4 →
      exec (.mgmtReceived p) s = .next ((s.unbox p).writeNode (wordOf 64 (slice p.payload 2 8))))) ∧
  (∀ (s : State) (d : Die) (node die space k : Nat) (e : Track) (u : SrcPkt),
    ((s.die d).trackOf node die space = some e → e.unacked ≠ 0 → space < 2 →
      exec (.ackTimer d node die space) s = .next (s.sendAck d e 0)) ∧
    ((s.die d).unacked[k]? = some u → u.sent = true → u.waitReason = 0 →
      (u.counted < 8 → exec (.e2eTimeout d k) s =
        .next ((s.updSrc d k fun _ => { u with counted := u.counted + 1 }).resend d { u with counted := u.counted + 1 } 0)) ∧
      (8 ≤ u.counted → exec (.e2eTimeout d k) s = .next (s.giveUp d k u 0))) ∧
    ((s.die d).unacked[k]? = some u → u.waitReason ≠ 0 →
      exec (.nakBackoffExpiry d k) s = .next ((s.updSrc d k fun u => { u with waitReason := 0 }).resend d u u.waitReason)) ∧
    ∃ t, exec (.trackingEntryExpiry d node die space) s = .next t ∧ (t.die d).trackOf node die space = none)

/-! ### Memory -/

/-- A request of a context whose stall the controller serves is queued, with its codewords as it finds them, or writes its
bytes; a service request needs no stall. One outside the context's ranges raises the context fault, one that the controller
does not take stays with its issuer (log 11), and a returned read delivers its bytes.

A codeword of the device's memory that the host writes or reads through CXL, where a context holds it. -/
def Obligations.MemoryRows : Prop :=
  (∀ (s : State) (d : Die) (c : Ctx) (a len die off : Nat) (x : CtxSt) (bs : Bytes) (poison : Bool),
    deviceAddr d a = some (.st die off) → requestOk a len = true →
    let t := dieOf die
    let q := fun (who : Charge) => ({ offset := off, len := len, who := who, seen := (codewordsIn off len).map (s.cwSeen t), born := s.freeCtr } : MemReq)
    (s.ctx c = some x → x.ownsRun (fun i => some (.st die (off + i))) len = true →
      (s.stackReady t c = true →
        exec (.memoryRequest d a len .read (.stall c)) s = .next
          ((s.askUnits t off len c).updDie t fun y => { y with requests := y.requests ++ [q (.stall c)] }) ∧
        (bs.length = len → exec (.memoryRequest d a len (.write bs poison) (.stall c)) s =
          .next (((s.askUnits t off len c).countWrites t off len (some c.val)).write (.st die off) bs poison))) ∧
      (s.stackReady t c = false → exec (.memoryRequest d a len .read (.stall c)) s = .next s)) ∧
    (s.ctx c = some x → x.ownsRun (fun i => some (.st die (off + i))) len = false →
      exec (.memoryRequest d a len .read (.stall c)) s = .next (s.stopFault d c 0 { cls := 4, reason := 4, unit := 10, valueB := a })) ∧
    ((s.die t).requests.length < 256 →
      exec (.memoryRequest d a len .read .service) s = .next (s.updDie t fun y => { y with requests := y.requests ++ [q .service] }) ∧
      (bs.length = len → exec (.memoryRequest d a len (.write bs poison) .service) s =
        .next ((s.countWrites t off len none).write (.st die off) bs poison)))) ∧
  (∀ (s : State) (d : Die) (q : MemReq) (rest : List MemReq) (errs : List (Nat × List (Nat × BitVec 8))), (s.die d).requests = q :: rest →
    ∃ t, exec (.memoryReadReturn d errs) s = .next t ∧ (t.die d).requests = rest ∧
      ∃ v, (t.die d).delivered = some v ∧ v.offset = q.offset) ∧
  (∀ (s : State) (dpa die off : Nat) (c : Ctx) (bs : Bytes) (poison : Bool), s.host.link.isSome → dpa % 64 = 0 → dpa + 64 ≤ 2 * (20 * 2 ^ 36) →
    (dpaAddress dpa).bind (deviceAddr 0) = some (.st die off) → s.stackOwner die off = some c → bs.length = 64 →
    exec (.hostMemAccess dpa (.write bs poison) []) s =
      .next (((s.askUnits (dieOf die) off 64 c).countWrites (dieOf die) off 64 (some c)).write (.st die off) bs poison) ∧
    let r := (s.askUnits (dieOf die) off 64 c).deliverCw (dieOf die) off [] (some c)
    exec (.hostMemAccess dpa (.read 64) []) s =
      .next { r.2 with host := { r.2.host with lastRead := (slice r.1.1 (off % 64) 64, r.1.2.isSome) } })

/-- Row repair, page retirement, scrubbing, retraining and the stall window, where their conditions hold and the queue of
records has room. -/
def Obligations.MemoryCare : Prop :=
  ∀ (s : State) (d : Die) (pc : Pc) (bank sid : Fin 16) (row : Fin 4096) (page : Fin 1048576) (r k : Nat) (cause : RetrainCause)
      (eyes : List (BitVec 16)) (demand : List Nat),
    (s.recordRoom →
      (let p := row.val * 256 + sid.val * 16 + bank.val
        let id := rowId pc p
        (s.die d).failedRows.contains id = true → (s.die d).repairedRows.contains id = false → (s.die d).retired.contains p = false →
        (s.die d).sparesUsed pc p < 2 → (s.die d).retired.length < 32768 →
        ∃ t, exec (.rowRepair d pc bank sid row []) s = .next t ∧ id ∈ (t.die d).repairedRows ∧ ¬ id ∈ (t.die d).failedRows) ∧
      ((s.die d).retired.contains page.val = false → (s.die d).retired.length < 32768 →
        (s.die d).failedRows.find? (fun r => r % 2 ^ 20 = page.val &&
          ((s.die d).repairedRows.contains r || 2 ≤ (s.die d).sparesUsed (r / 2 ^ 20) page.val)) = some r →
        exec (.pageRetirement d page) s = .next (s.retirePage d page.val (r / 2 ^ 20)) ∧
        page.val ∈ ((s.retirePage d page.val (r / 2 ^ 20)).die d).retired ∧
        ((s.retirePage d page.val (r / 2 ^ 20)).die d).retiredPages = (s.die d).retiredPages + 1) ∧
      ((s.die d).scrubFrom ((s.die d).retired.length + 2) (s.die d).scrubNext = some k →
        ∃ t, exec (.scrubGranule d []) s = .next t ∧ (t.die d).scrubNext = (k + 16) % 2 ^ 30) ∧
      ((s.die d).pcs[pc].retraining = true →
        ∃ t, exec (.retrainDone d pc eyes) s = .next t ∧ (t.die d).pcs[pc].retraining = false)) ∧
    ((∀ q : Pc, (s.die d).pcs[q].retraining = false) → s.retrainDue d pc cause = true →
      ∃ t, exec (.retrainStart d pc cause) s = .next t ∧ (t.die d).pcs[pc].retraining = true) ∧
    ∃ t, exec (.stallWindow d demand) s = .next t ∧ ∀ c : Ctx, (t.die d).stalls[c].charged = 0

/-- The grants of a window never exceed its units, and a stall whose demand its floor covers gets it. -/
def Obligations.GrantsFit : Prop :=
  ∀ (units : Nat) (ks : List (StallSt × Nat)),
    ((windowGrants units ks).foldl (· + ·) 0 ≤ units) ∧ (windowGrants units ks).length = ks.length ∧
    ∀ (i : Nat) (k : StallSt) (n : Nat), ks[i]? = some (k, n) →
      ((ks.map fun e => e.1.floor.toNat * 256).foldl (· + ·) 0) ≤ units → min (k.wants n) (k.floor.toNat * 256) ≤ (windowGrants units ks).getD i 0

/-! ### Integrity and measurement -/

/-- A controller that fails its lockstep compare or its watchdog raises a device fault.

Arrays and spares: a spare that passes its test enters in quiet time, one that fails is retired; quiet work takes arrays
and gives them back; work past its deadline borrows an array and returns it. Self-tests, gambits, captures and eye scans
leave their records, where the queue of records has room. -/
def Obligations.IntegrityRows : Prop :=
  (∀ (s : State) (d : Die), (s.die d).tapSide.haltedController = false →
    exec (.lockstepMismatch d) s = .next (s.deviceFaultNow d { cls := 3, reason := 18, unit := 13, inst := d }) ∧
    exec (.watchdogExpiry d) s = .next (s.deviceFaultNow d { cls := 3, reason := 0, unit := 13, inst := d })) ∧
  (∀ (s : State) (d : Die) (a : Arr) (unit : Fin 14) (k : Capture) (slot n v spoiled : Nat) (g : Gambit), s.recordRoom →
    ((s.die d).capture = some k → s.flash.slotFor = some slot → ∃ t, exec (.captureWrite d) s = .next t ∧ (t.die d).capture = none ∧
      ∃ e, SMap.find t.flash.captures slot = some e ∧ e.bytes = k.bytes ∧ e.exported = false) ∧
    ((s.die d).spareTesting = true → s.quiet = true → ∃ t, exec (.spareTest d true) s = .next t ∧ (t.die d).spareTesting = false) ∧
    ((s.die d).spareTesting = true → s.quiet = false → ∃ t, exec (.spareTest d true) s = .next t ∧ (t.die d).spareTesting = false ∧
      (t.die d).sparePending = true) ∧
    ((s.die d).spareTesting = true → ∃ t, exec (.spareTest d false) s = .next t ∧ (t.die d).spareFailed = true ∧
      (t.die d).spareTesting = false) ∧
    (2 < unit.val ∨ (s.die d).arrayFree a = true → exec (.checkerSelftest d unit a true) s =
      .next ((s.count d 0x906 unit none).granule d unit)) ∧
    (s.flash.gambits[n]? = some g → v < gambitVectorsOf g.bytes → bit (gambitUnits g) 1 = true →
      exec (.gambitRun d a true n v 0) s = .next
        (((s.count d 0x908 0x10 none 1).granule d 4).gambitRecord 5 0 0x10 (gambitIdOf g.bytes) v g.bytes)) ∧
    (s.flash.gambits[n]? = some g → v < gambitVectorsOf g.bytes → bit (gambitUnits g) 0 = true → (s.die d).arrayFree a = true →
      ∃ t, exec (.gambitRun d a false n v spoiled) s = .next t ∧ t.flash.gambits = s.flash.gambits ∧ t.stack = s.stack ∧
        t.scratch = s.scratch) ∧
    (∀ l : Link, (s.link l).state = 2 → ∃ t, exec (.linkEyeScan l [] 0) s = .next t ∧ t.links = s.links)) ∧
  (∀ (s : State) (d : Die) (a : Arr) (c : Ctx) (work : UnitWork) (us : Nat) (arrays : BitVec 7) (x : CtxSt) (late : Bool),
    ((s.die d).sparePending = true → s.quiet = true → exec (.spareEnterService d) s = .next (s.enterSpare d)) ∧
    (s.quiet = true → s.quietEnd = none → work ≠ .spareTest → onesOf arrays ≠ [] →
      (∀ b ∈ onesOf arrays, (s.die d).present.contains b = true) →
      (onesOf arrays).length < (s.die d).activeArrays → ∃ t, exec (.quietWorkStart d arrays work us) s = .next t ∧
        ∀ b ∈ onesOf arrays, (b, work) ∈ (t.die d).quietWork) ∧
    (arrays.getLsbD a = true → (s.die d).quietWork = [(a.val, work)] → (∀ k ∈ (s.die d).accs, k.phys ≠ some a.val) →
      ∃ t, exec (.quietWorkDone d arrays []) s = .next t ∧ (t.die d).quietWork = []) ∧
    (s.ctx c = some x → ∃ t y, exec (.quietWindowEnd c) s = .next t ∧ t.ctx c = some y ∧ y.quietUntil = none) ∧
    (bit s.ledger.integrityPolicy 59 = true → s.quiet = false → work ≠ .spareTest → (s.die d).borrowing = none →
      (s.die d).present.contains a.val = true → 1 < (s.die d).activeArrays →
      ∃ t, exec (.arrayBorrow d a work) s = .next t ∧ (t.die d).borrowing = some (a.val, work)) ∧
    ((s.die d).borrowing = some (a.val, work) → (∀ k ∈ (s.die d).accs, k.phys ≠ some a.val) →
      ∃ t, exec (.arrayReturn d a 0) s = .next t ∧ (t.die d).borrowing = none) ∧
    (work ≠ .spareTest → exec (.selftestOverdue d a work late) s = .next
      (if late && decide (work = .selftest) then ((s.arrayEvent d 7 (workRow work) a).updDie d fun x => { x with overdue := true }).judgeIntegrity d
        else s.arrayEvent d 7 (workRow work) a)))

/-- If M < 70 MHz with VDD_A at its ceiling, the die's aclk is capped at 1,400 + M − 70 MHz, rounded down to a multiple of 14
MHz; the cap stays until a later sweep gives M of 70 MHz or more. -/
def Obligations.MarginCap : Prop :=
  ∀ (s : State) (d : Die) (a : Arr) (m : Int), (s.die d).smallestMargin = some m →
    let ceiling := s.calAt d (islandAt 0 + 4) 2
    let y := (s.adaptVoltage d a).die d
    (m < 70 → ceiling ≤ (s.die d).vddMv → y.capMargin = true ∧ (y.marginMhz : Int) = max 0 ((1400 + m - 70) / 14 * 14) ∧
      y.aclk ≤ y.marginMhz ∧ (s.adaptVoltage d a).power.episode.isSome) ∧
    (m < 70 → (s.die d).capMargin = true → y.capMargin = true) ∧
    (70 ≤ m → y.capMargin = false ∧ y.marginMhz = 1400)

/-- A sweep that ends records its top clock and adapts the supply; counters, windows, tallies and daily records are taken. -/
def Obligations.MeasurementRows : Prop :=
  ∀ (s : State) (d : Die) (a : Arr) (top temp : Nat) (i : Fin 5) (tx rx : BitVec 32) (y : Tally) (rest : List Tally),
    (s.recordRoom → (a.val, UnitWork.margin) ∈ (s.die d).quietWork → ∃ t, exec (.marginSweepDone d a top temp) s = .next t ∧
      (t.die d).arrays[a].sweep = some top) ∧
    (s.dieInService d = true → (s.die d).lastTally = none → s.ledger.tallyPeriodUs ≤ s.now →
      exec (.tallyPeriod d) s = .next (s.latchTally d 2 (s.stepOf none))) ∧
    ((s.die d).tallies = y :: rest → ∃ t, exec (.tallyDump d) s = .next t ∧ (t.die d).tallies = rest) ∧
    (hasBw d i = true → let u := (s.die d).bw[i].units i tx rx
      ∃ t, exec (.bwWindowEnd d i tx rx) s = .next t ∧ (t.die d).bw[i].txLast = u.1 ∧ (t.die d).bw[i].rxLast = u.2 ∧
        (t.die d).bw[i].txPeak.toNat = max (s.die d).bw[i].txPeak.toNat u.1.toNat ∧ (t.die d).bw[i].txNow = 0) ∧
    exec (.lifetimeRecord d) s = .next (({ s with freeCtr := s.freeCtr + 4 } : State).log d 0x0E 0 none false
      (tallyHead 0 0 s.freeCtr ++ (s.die d).aggregateImage))

/-- The ledger: its oldest record reaches flash, a checkpoint is written, and the next datagram leaves in the order of its
priority; the requests of the network that this device answers get their records, captures and checkpoints. -/
def Obligations.LedgerRows : Prop :=
  ∀ (s : State) (who : Requester) (q : BitVec 256) (r : Rec) (rest : List Rec) (g : Datagram) (k : Capture) (u : State),
    (s.ledger.queue = r :: rest → exec .ledgerFlashWrite s =
      .next ((({ s with ledger := { s.ledger with queue := rest } } : State).writeRecord r).granule 0 13)) ∧
    exec .ledgerCheckpoint s = .next (s.checkpoint 1) ∧
    (s.managed = true → s.pushes = true → [0, 1, 2, 3].findSome? (fun p => s.ledger.send.find? fun g => g.priority = p) = some g →
      ∃ t, exec .datagramSend s = .next t ∧ t.ledger.send = s.ledger.send.erase g) ∧
    (s.answers who q 1 = true → exec (.lifetimeRecordsRequest who q) s = .next (s.replyRecords who q s.flash.lifetime)) ∧
    (s.answers who q 2 = true → exec (.rollingRecordsRequest who q) s = .next (s.replyRecords who q s.flash.rolling)) ∧
    (s.answers who q 3 = true → exec (.historyDatagramsRequest who q) s = .next
      ((s.ledger.history.filter fun g => fld q 191 128 ≤ g.seq && g.seq < fld q 191 128 + fld q 63 32).foldl (fun st g => st.reply who g) s)) ∧
    (s.answers who q 4 = true → SMap.find s.flash.captures (fld q 27 24) = some k →
      exec (.captureSlotRequest who q) s = .next (s.replyBytes who (some (fld q 27 24)) k.bytes)) ∧
    (s.answers who q 5 = true → s.exportCapture (fld q 27 24) (fld q 255 192) = some u →
      exec (.captureExportedRequest who q) s = .next u) ∧
    (s.answers who q 6 = true → exec (.checkpointNowRequest who q) s = .next (s.checkpoint 3))

/-! ### Long runs -/

/-- A generation's copy that is done is marked; the job's stop class selects the action of the resilience policy; a restore
takes the image of the generation it names and launches the streams again. -/
def Obligations.LongRunRows : Prop :=
  ∀ (s : State) (c : Ctx) (x : CtxSt) (n cls : Nat) (k : StopCause) (h : Generation), s.ctx c = some x →
    (x.mkTail = none → x.generations.any (fun g => g.image.generation = n) = true →
      ∃ t y, exec (.generationCopyDone c n true true) s = .next t ∧ t.ctx c = some y ∧ y.generations = markCopy true n x.generations) ∧
    (x.stopped = some k → ∃ t y, exec (.stopClassDetermined c cls []) s = .next t ∧ t.ctx c = some y ∧ y.jobClass = max (min cls 9) k.code) ∧
    (x.running = false → x.stopped = none ∨ x.restart ≠ 0 → (x.generations.find? fun g => g.own && g.image.generation = n) = some h →
      h.image.fwRev = s.fwRev → h.image.numericsRev = s.numericsRev →
      exec (.restore c n true none) s = .next (s.restoreImage c x h.image))

/-! ### Formats and the whole machine -/

/-- The device decodes an N4F code with sign S, exponent E and mantissa M to (−1)^S × M × 0.5 when E = 0 and to
(−1)^S × 2^(E−1) × (1 + M/2) when E ≥ 1; code 0b1000 alone is NaN. -/
def Obligations.N4fDecode : Prop :=
  ∀ c : Nat, c < 16 →
    let sgn : Int := if c / 8 = 0 then 1 else -1
    (c = 8 ↔ n4fTwice c = none) ∧ (c ≠ 8 → n4fTwice c = some (if c / 2 % 4 = 0 then sgn * (c % 2 : Nat)
      else sgn * ((2 ^ (c / 2 % 4 - 1) * (2 + c % 2) : Nat) : Int)))

/-- Every command of every state is carried out: none faults and none is refused. -/
def Obligations.NothingRefused : Prop := ∀ (i : Instr) (s : State), ∃ t, exec i s = .next t
end

