-- ==== Sys2Proof/Laws/Maps.lean ====
section
/-! SUPPORT. What the sparse tables answer after they are written, and that writing keeps their canonical form. -/
namespace Sys2Proof.Machine

variable {α : Type}

theorem SMap.above_mono {i k : Nat} (h : i ≤ k) : ∀ m : SMap α, SMap.above k m = true → SMap.above i m = true
  | [], _ => rfl
  | (j, _) :: rest, a => by
    simp only [SMap.above, Bool.and_eq_true, decide_eq_true_eq] at a ⊢
    exact ⟨by omega, SMap.above_mono h rest a.2⟩

/-- A key below every key of a table reads as unlisted. -/
theorem SMap.get_above (d : α) {k : Nat} : ∀ m : SMap α, SMap.above k m = true → SMap.get d m k = d
  | [], _ => rfl
  | (j, _) :: rest, a => by
    simp only [SMap.above, Bool.and_eq_true, decide_eq_true_eq] at a
    simp [SMap.get, Nat.ne_of_gt a.1, SMap.get_above d rest a.2]

@[simp] theorem SMap.get_insert_same (d : α) (m : SMap α) (k : Nat) (v : α) : SMap.get d (SMap.insert m k v) k = v := by
  induction m with
  | nil => simp [SMap.insert, SMap.get]
  | cons e rest ih =>
    obtain ⟨j, u⟩ := e
    simp only [SMap.insert]
    split
    · simp [SMap.get]
    · split
      · simp [SMap.get]
      · simp [SMap.get, Ne.symm ‹_›, ih]

theorem SMap.get_insert_other (d : α) (m : SMap α) {k i : Nat} (v : α) (h : i ≠ k) :
    SMap.get d (SMap.insert m k v) i = SMap.get d m i := by
  induction m with
  | nil => simp [SMap.insert, SMap.get, Ne.symm h]
  | cons e rest ih =>
    obtain ⟨j, u⟩ := e
    simp only [SMap.insert]
    split
    · simp [SMap.get, Ne.symm h]
    · split
      · subst k; simp [SMap.get, Ne.symm h]
      · simp [SMap.get, ih]

theorem SMap.get_erase_other (d : α) (m : SMap α) {k i : Nat} (h : i ≠ k) : SMap.get d (SMap.erase m k) i = SMap.get d m i := by
  induction m with
  | nil => rfl
  | cons e rest ih =>
    obtain ⟨j, u⟩ := e
    simp only [SMap.erase]
    split
    · subst j; simp [SMap.get, Ne.symm h]
    · split
      · rfl
      · simp [SMap.get, ih]

@[simp] theorem SMap.find_insert_same (m : SMap α) (k : Nat) (v : α) : SMap.find (SMap.insert m k v) k = some v := by
  induction m with
  | nil => simp [SMap.insert, SMap.find]
  | cons e rest ih =>
    obtain ⟨j, u⟩ := e
    simp only [SMap.insert]
    split
    · simp [SMap.find]
    · split
      · simp [SMap.find]
      · simp [SMap.find, Ne.symm ‹_›, ih]

theorem SMap.find_insert_other (m : SMap α) {k i : Nat} (v : α) (h : i ≠ k) : SMap.find (SMap.insert m k v) i = SMap.find m i := by
  induction m with
  | nil => simp [SMap.insert, SMap.find, Ne.symm h]
  | cons e rest ih =>
    obtain ⟨j, u⟩ := e
    simp only [SMap.insert]
    split
    · simp [SMap.find, Ne.symm h]
    · split
      · subst k; simp [SMap.find, Ne.symm h]
      · simp [SMap.find, ih]

theorem SMap.above_erase {i : Nat} : ∀ (m : SMap α) (k : Nat), SMap.above i m = true → SMap.above i (SMap.erase m k) = true
  | [], _, _ => rfl
  | (j, u) :: rest, k, a => by
    have b := a
    simp only [SMap.above, Bool.and_eq_true, decide_eq_true_eq] at b
    simp only [SMap.erase]
    split
    · exact b.2
    · split
      · exact a
      · simp [SMap.above, b.1, SMap.above_erase rest k b.2]

theorem SMap.above_insert {i : Nat} (v : α) : ∀ (m : SMap α) (k : Nat), i < k → SMap.above i m = true →
    SMap.above i (SMap.insert m k v) = true
  | [], _, h, _ => by simp [SMap.insert, SMap.above, h]
  | (j, u) :: rest, k, h, a => by
    have b := a
    simp only [SMap.above, Bool.and_eq_true, decide_eq_true_eq] at b
    simp only [SMap.insert]
    split
    · simp [SMap.above, h, b.1, b.2]
    · split
      · simp [SMap.above, h, b.2]
      · simp [SMap.above, b.1, SMap.above_insert v rest k h b.2]

theorem SMap.above_filter {i : Nat} (p : Nat × α → Bool) : ∀ m : SMap α, SMap.above i m = true → SMap.above i (m.filter p) = true
  | [], _ => rfl
  | (j, u) :: rest, a => by
    simp only [SMap.above, Bool.and_eq_true, decide_eq_true_eq] at a
    rw [List.filter_cons]
    split
    · simp [SMap.above, a.1, SMap.above_filter p rest a.2]
    · exact SMap.above_filter p rest a.2

variable [DecidableEq α]

theorem SMap.get_erase_same {d : α} : ∀ m : SMap α, SMap.wf d m = true → ∀ k, SMap.get d (SMap.erase m k) k = d
  | [], _, _ => rfl
  | (j, u) :: rest, w, k => by
    simp only [SMap.wf, Bool.and_eq_true, decide_eq_true_eq] at w
    simp only [SMap.erase]
    split
    · subst j; exact SMap.get_above d rest w.1.2
    · rename_i h
      split
      · rename_i g
        simp [SMap.get, h, SMap.get_above d rest (SMap.above_mono (Nat.le_of_lt g) rest w.1.2)]
      · simp [SMap.get, h, SMap.get_erase_same rest w.2 k]

theorem SMap.get_put_same {d : α} {m : SMap α} (w : SMap.wf d m = true) (k : Nat) (v : α) : SMap.get d (SMap.put d m k v) k = v := by
  unfold SMap.put
  split
  · subst v; exact SMap.get_erase_same m w k
  · simp

theorem SMap.get_put_other (d : α) (m : SMap α) {k i : Nat} (v : α) (h : i ≠ k) :
    SMap.get d (SMap.put d m k v) i = SMap.get d m i := by
  unfold SMap.put
  split
  · exact SMap.get_erase_other d m h
  · exact SMap.get_insert_other d m v h

theorem SMap.wf_erase {d : α} : ∀ (m : SMap α) (k : Nat), SMap.wf d m = true → SMap.wf d (SMap.erase m k) = true
  | [], _, _ => rfl
  | (j, u) :: rest, k, w => by
    have b := w
    simp only [SMap.wf, Bool.and_eq_true, decide_eq_true_eq] at b
    simp only [SMap.erase]
    split
    · exact b.2
    · split
      · exact w
      · simp [SMap.wf, b.1.1, SMap.above_erase rest k b.1.2, SMap.wf_erase rest k b.2]

theorem SMap.wf_insert {d v : α} (hv : v ≠ d) : ∀ (m : SMap α) (k : Nat), SMap.wf d m = true → SMap.wf d (SMap.insert m k v) = true
  | [], k, _ => by simp [SMap.insert, SMap.wf, SMap.above, hv]
  | (j, u) :: rest, k, w => by
    have b := w
    simp only [SMap.wf, Bool.and_eq_true, decide_eq_true_eq] at b
    simp only [SMap.insert]
    split
    · rename_i h
      simp [SMap.wf, SMap.above, hv, h, b.1.1, b.1.2, b.2, SMap.above_mono (Nat.le_of_lt h) rest b.1.2]
    · split
      · subst k; simp [SMap.wf, hv, b.1.2, b.2]
      · simp [SMap.wf, b.1.1, SMap.above_insert v rest k (by omega) b.1.2, SMap.wf_insert hv rest k b.2]

/-- Writing a table keeps its canonical form. -/
@[simp] theorem SMap.wf_put {d : α} {m : SMap α} {k : Nat} {v : α} (w : SMap.wf d m = true) : SMap.wf d (SMap.put d m k v) = true := by
  unfold SMap.put
  split
  · exact SMap.wf_erase m k w
  · exact SMap.wf_insert ‹_› m k w

theorem SMap.wf_filter {d : α} (p : Nat × α → Bool) : ∀ m : SMap α, SMap.wf d m = true → SMap.wf d (m.filter p) = true
  | [], _ => rfl
  | (j, u) :: rest, w => by
    simp only [SMap.wf, Bool.and_eq_true, decide_eq_true_eq] at w
    rw [List.filter_cons]
    split
    · simp [SMap.wf, w.1.1, SMap.above_filter p rest w.1.2, SMap.wf_filter p rest w.2]
    · exact SMap.wf_filter p rest w.2

/-- So does dropping a range of it. -/
@[simp] theorem SMap.wf_eraseRange {d : α} {m : SMap α} {lo hi : Nat} (w : SMap.wf d m = true) :
    SMap.wf d (SMap.eraseRange m lo hi) = true := SMap.wf_filter _ m w

theorem SMap.wf_foldl {β : Type} {d : α} {f : SMap α → β → SMap α} (hf : ∀ p e, SMap.wf d p = true → SMap.wf d (f p e) = true)
    {l : List β} {m : SMap α} (w : SMap.wf d m = true) : SMap.wf d (l.foldl f m) = true := by
  induction l generalizing m with
  | nil => exact w
  | cons a l ih => exact ih (hf m a w)

end Sys2Proof.Machine
end

