-- ==== Sys2Proof/Laws/State.lean ====
section
/-! SUPPORT. What each named update leaves alone: one lemma a field, and what the accessors read after it. -/
namespace Sys2Proof.Machine

/-! ### Fields that an update leaves -/

@[simp] theorem State.updDie_pending (s : State) (d : Die) (f : DieSt → DieSt) : (s.updDie d f).pending = s.pending := rfl
@[simp] theorem State.updDie_freeCtr (s : State) (d : Die) (f : DieSt → DieSt) : (s.updDie d f).freeCtr = s.freeCtr := rfl
@[simp] theorem State.updDie_now (s : State) (d : Die) (f : DieSt → DieSt) : (s.updDie d f).now = s.now := rfl
@[simp] theorem State.updDie_stack (s : State) (d : Die) (f : DieSt → DieSt) : (s.updDie d f).stack = s.stack := rfl
@[simp] theorem State.updDie_stackPoison (s : State) (d : Die) (f : DieSt → DieSt) : (s.updDie d f).stackPoison = s.stackPoison := rfl
@[simp] theorem State.updDie_scratch (s : State) (d : Die) (f : DieSt → DieSt) : (s.updDie d f).scratch = s.scratch := rfl
@[simp] theorem State.updDie_scratchPoison (s : State) (d : Die) (f : DieSt → DieSt) : (s.updDie d f).scratchPoison = s.scratchPoison := rfl
@[simp] theorem State.updDie_tags (s : State) (d : Die) (f : DieSt → DieSt) : (s.updDie d f).tags = s.tags := rfl
@[simp] theorem State.updDie_hostMem (s : State) (d : Die) (f : DieSt → DieSt) : (s.updDie d f).hostMem = s.hostMem := rfl
@[simp] theorem State.updDie_hostPoison (s : State) (d : Die) (f : DieSt → DieSt) : (s.updDie d f).hostPoison = s.hostPoison := rfl
@[simp] theorem State.updDie_sems (s : State) (d : Die) (f : DieSt → DieSt) : (s.updDie d f).sems = s.sems := rfl
@[simp] theorem State.updDie_program (s : State) (d : Die) (f : DieSt → DieSt) : (s.updDie d f).program = s.program := rfl
@[simp] theorem State.updDie_numericsRev (s : State) (d : Die) (f : DieSt → DieSt) : (s.updDie d f).numericsRev = s.numericsRev := rfl
@[simp] theorem State.updDie_fwRev (s : State) (d : Die) (f : DieSt → DieSt) : (s.updDie d f).fwRev = s.fwRev := rfl
@[simp] theorem State.updDie_dieMask (s : State) (d : Die) (f : DieSt → DieSt) : (s.updDie d f).dieMask = s.dieMask := rfl
@[simp] theorem State.updDie_portMask (s : State) (d : Die) (f : DieSt → DieSt) : (s.updDie d f).portMask = s.portMask := rfl
@[simp] theorem State.updDie_tableGen (s : State) (d : Die) (f : DieSt → DieSt) : (s.updDie d f).tableGen = s.tableGen := rfl
@[simp] theorem State.updDie_ctxs (s : State) (d : Die) (f : DieSt → DieSt) : (s.updDie d f).ctxs = s.ctxs := rfl
@[simp] theorem State.updDie_mailboxes (s : State) (d : Die) (f : DieSt → DieSt) : (s.updDie d f).mailboxes = s.mailboxes := rfl
@[simp] theorem State.updDie_links (s : State) (d : Die) (f : DieSt → DieSt) : (s.updDie d f).links = s.links := rfl
@[simp] theorem State.updDie_fabric (s : State) (d : Die) (f : DieSt → DieSt) : (s.updDie d f).fabric = s.fabric := rfl
@[simp] theorem State.updDie_host (s : State) (d : Die) (f : DieSt → DieSt) : (s.updDie d f).host = s.host := rfl
@[simp] theorem State.updDie_ledger (s : State) (d : Die) (f : DieSt → DieSt) : (s.updDie d f).ledger = s.ledger := rfl
@[simp] theorem State.updDie_flash (s : State) (d : Die) (f : DieSt → DieSt) : (s.updDie d f).flash = s.flash := rfl
@[simp] theorem State.updDie_fuses (s : State) (d : Die) (f : DieSt → DieSt) : (s.updDie d f).fuses = s.fuses := rfl
@[simp] theorem State.updDie_bootSt (s : State) (d : Die) (f : DieSt → DieSt) : (s.updDie d f).bootSt = s.bootSt := rfl
@[simp] theorem State.updDie_power (s : State) (d : Die) (f : DieSt → DieSt) : (s.updDie d f).power = s.power := rfl

@[simp] theorem State.updDies_pending (s : State) (f : Die → DieSt → DieSt) : (s.updDies f).pending = s.pending := by unfold State.updDies; rfl
@[simp] theorem State.updDies_freeCtr (s : State) (f : Die → DieSt → DieSt) : (s.updDies f).freeCtr = s.freeCtr := by unfold State.updDies; rfl
@[simp] theorem State.updDies_now (s : State) (f : Die → DieSt → DieSt) : (s.updDies f).now = s.now := by unfold State.updDies; rfl
@[simp] theorem State.updDies_stack (s : State) (f : Die → DieSt → DieSt) : (s.updDies f).stack = s.stack := by unfold State.updDies; rfl
@[simp] theorem State.updDies_stackPoison (s : State) (f : Die → DieSt → DieSt) : (s.updDies f).stackPoison = s.stackPoison := by unfold State.updDies; rfl
@[simp] theorem State.updDies_scratch (s : State) (f : Die → DieSt → DieSt) : (s.updDies f).scratch = s.scratch := by unfold State.updDies; rfl
@[simp] theorem State.updDies_scratchPoison (s : State) (f : Die → DieSt → DieSt) : (s.updDies f).scratchPoison = s.scratchPoison := by unfold State.updDies; rfl
@[simp] theorem State.updDies_tags (s : State) (f : Die → DieSt → DieSt) : (s.updDies f).tags = s.tags := by unfold State.updDies; rfl
@[simp] theorem State.updDies_hostMem (s : State) (f : Die → DieSt → DieSt) : (s.updDies f).hostMem = s.hostMem := by unfold State.updDies; rfl
@[simp] theorem State.updDies_hostPoison (s : State) (f : Die → DieSt → DieSt) : (s.updDies f).hostPoison = s.hostPoison := by unfold State.updDies; rfl
@[simp] theorem State.updDies_sems (s : State) (f : Die → DieSt → DieSt) : (s.updDies f).sems = s.sems := by unfold State.updDies; rfl
@[simp] theorem State.updDies_program (s : State) (f : Die → DieSt → DieSt) : (s.updDies f).program = s.program := by unfold State.updDies; rfl
@[simp] theorem State.updDies_numericsRev (s : State) (f : Die → DieSt → DieSt) : (s.updDies f).numericsRev = s.numericsRev := by unfold State.updDies; rfl
@[simp] theorem State.updDies_fwRev (s : State) (f : Die → DieSt → DieSt) : (s.updDies f).fwRev = s.fwRev := by unfold State.updDies; rfl
@[simp] theorem State.updDies_dieMask (s : State) (f : Die → DieSt → DieSt) : (s.updDies f).dieMask = s.dieMask := by unfold State.updDies; rfl
@[simp] theorem State.updDies_portMask (s : State) (f : Die → DieSt → DieSt) : (s.updDies f).portMask = s.portMask := by unfold State.updDies; rfl
@[simp] theorem State.updDies_tableGen (s : State) (f : Die → DieSt → DieSt) : (s.updDies f).tableGen = s.tableGen := by unfold State.updDies; rfl
@[simp] theorem State.updDies_ctxs (s : State) (f : Die → DieSt → DieSt) : (s.updDies f).ctxs = s.ctxs := by unfold State.updDies; rfl
@[simp] theorem State.updDies_mailboxes (s : State) (f : Die → DieSt → DieSt) : (s.updDies f).mailboxes = s.mailboxes := by unfold State.updDies; rfl
@[simp] theorem State.updDies_links (s : State) (f : Die → DieSt → DieSt) : (s.updDies f).links = s.links := by unfold State.updDies; rfl
@[simp] theorem State.updDies_fabric (s : State) (f : Die → DieSt → DieSt) : (s.updDies f).fabric = s.fabric := by unfold State.updDies; rfl
@[simp] theorem State.updDies_host (s : State) (f : Die → DieSt → DieSt) : (s.updDies f).host = s.host := by unfold State.updDies; rfl
@[simp] theorem State.updDies_ledger (s : State) (f : Die → DieSt → DieSt) : (s.updDies f).ledger = s.ledger := by unfold State.updDies; rfl
@[simp] theorem State.updDies_flash (s : State) (f : Die → DieSt → DieSt) : (s.updDies f).flash = s.flash := by unfold State.updDies; rfl
@[simp] theorem State.updDies_fuses (s : State) (f : Die → DieSt → DieSt) : (s.updDies f).fuses = s.fuses := by unfold State.updDies; rfl
@[simp] theorem State.updDies_bootSt (s : State) (f : Die → DieSt → DieSt) : (s.updDies f).bootSt = s.bootSt := by unfold State.updDies; rfl
@[simp] theorem State.updDies_power (s : State) (f : Die → DieSt → DieSt) : (s.updDies f).power = s.power := by unfold State.updDies; rfl

@[simp] theorem State.updCtx_pending (s : State) (c : Ctx) (f : CtxSt → CtxSt) : (s.updCtx c f).pending = s.pending := rfl
@[simp] theorem State.updCtx_freeCtr (s : State) (c : Ctx) (f : CtxSt → CtxSt) : (s.updCtx c f).freeCtr = s.freeCtr := rfl
@[simp] theorem State.updCtx_now (s : State) (c : Ctx) (f : CtxSt → CtxSt) : (s.updCtx c f).now = s.now := rfl
@[simp] theorem State.updCtx_stack (s : State) (c : Ctx) (f : CtxSt → CtxSt) : (s.updCtx c f).stack = s.stack := rfl
@[simp] theorem State.updCtx_stackPoison (s : State) (c : Ctx) (f : CtxSt → CtxSt) : (s.updCtx c f).stackPoison = s.stackPoison := rfl
@[simp] theorem State.updCtx_scratch (s : State) (c : Ctx) (f : CtxSt → CtxSt) : (s.updCtx c f).scratch = s.scratch := rfl
@[simp] theorem State.updCtx_scratchPoison (s : State) (c : Ctx) (f : CtxSt → CtxSt) : (s.updCtx c f).scratchPoison = s.scratchPoison := rfl
@[simp] theorem State.updCtx_tags (s : State) (c : Ctx) (f : CtxSt → CtxSt) : (s.updCtx c f).tags = s.tags := rfl
@[simp] theorem State.updCtx_hostMem (s : State) (c : Ctx) (f : CtxSt → CtxSt) : (s.updCtx c f).hostMem = s.hostMem := rfl
@[simp] theorem State.updCtx_hostPoison (s : State) (c : Ctx) (f : CtxSt → CtxSt) : (s.updCtx c f).hostPoison = s.hostPoison := rfl
@[simp] theorem State.updCtx_sems (s : State) (c : Ctx) (f : CtxSt → CtxSt) : (s.updCtx c f).sems = s.sems := rfl
@[simp] theorem State.updCtx_program (s : State) (c : Ctx) (f : CtxSt → CtxSt) : (s.updCtx c f).program = s.program := rfl
@[simp] theorem State.updCtx_numericsRev (s : State) (c : Ctx) (f : CtxSt → CtxSt) : (s.updCtx c f).numericsRev = s.numericsRev := rfl
@[simp] theorem State.updCtx_fwRev (s : State) (c : Ctx) (f : CtxSt → CtxSt) : (s.updCtx c f).fwRev = s.fwRev := rfl
@[simp] theorem State.updCtx_dieMask (s : State) (c : Ctx) (f : CtxSt → CtxSt) : (s.updCtx c f).dieMask = s.dieMask := rfl
@[simp] theorem State.updCtx_portMask (s : State) (c : Ctx) (f : CtxSt → CtxSt) : (s.updCtx c f).portMask = s.portMask := rfl
@[simp] theorem State.updCtx_tableGen (s : State) (c : Ctx) (f : CtxSt → CtxSt) : (s.updCtx c f).tableGen = s.tableGen := rfl
@[simp] theorem State.updCtx_dies (s : State) (c : Ctx) (f : CtxSt → CtxSt) : (s.updCtx c f).dies = s.dies := rfl
@[simp] theorem State.updCtx_mailboxes (s : State) (c : Ctx) (f : CtxSt → CtxSt) : (s.updCtx c f).mailboxes = s.mailboxes := rfl
@[simp] theorem State.updCtx_links (s : State) (c : Ctx) (f : CtxSt → CtxSt) : (s.updCtx c f).links = s.links := rfl
@[simp] theorem State.updCtx_fabric (s : State) (c : Ctx) (f : CtxSt → CtxSt) : (s.updCtx c f).fabric = s.fabric := rfl
@[simp] theorem State.updCtx_host (s : State) (c : Ctx) (f : CtxSt → CtxSt) : (s.updCtx c f).host = s.host := rfl
@[simp] theorem State.updCtx_ledger (s : State) (c : Ctx) (f : CtxSt → CtxSt) : (s.updCtx c f).ledger = s.ledger := rfl
@[simp] theorem State.updCtx_flash (s : State) (c : Ctx) (f : CtxSt → CtxSt) : (s.updCtx c f).flash = s.flash := rfl
@[simp] theorem State.updCtx_fuses (s : State) (c : Ctx) (f : CtxSt → CtxSt) : (s.updCtx c f).fuses = s.fuses := rfl
@[simp] theorem State.updCtx_bootSt (s : State) (c : Ctx) (f : CtxSt → CtxSt) : (s.updCtx c f).bootSt = s.bootSt := rfl
@[simp] theorem State.updCtx_power (s : State) (c : Ctx) (f : CtxSt → CtxSt) : (s.updCtx c f).power = s.power := rfl

@[simp] theorem State.setCtx_pending (s : State) (c : Ctx) (x : Option CtxSt) : (s.setCtx c x).pending = s.pending := rfl
@[simp] theorem State.setCtx_freeCtr (s : State) (c : Ctx) (x : Option CtxSt) : (s.setCtx c x).freeCtr = s.freeCtr := rfl
@[simp] theorem State.setCtx_now (s : State) (c : Ctx) (x : Option CtxSt) : (s.setCtx c x).now = s.now := rfl
@[simp] theorem State.setCtx_stack (s : State) (c : Ctx) (x : Option CtxSt) : (s.setCtx c x).stack = s.stack := rfl
@[simp] theorem State.setCtx_stackPoison (s : State) (c : Ctx) (x : Option CtxSt) : (s.setCtx c x).stackPoison = s.stackPoison := rfl
@[simp] theorem State.setCtx_scratch (s : State) (c : Ctx) (x : Option CtxSt) : (s.setCtx c x).scratch = s.scratch := rfl
@[simp] theorem State.setCtx_scratchPoison (s : State) (c : Ctx) (x : Option CtxSt) : (s.setCtx c x).scratchPoison = s.scratchPoison := rfl
@[simp] theorem State.setCtx_tags (s : State) (c : Ctx) (x : Option CtxSt) : (s.setCtx c x).tags = s.tags := rfl
@[simp] theorem State.setCtx_hostMem (s : State) (c : Ctx) (x : Option CtxSt) : (s.setCtx c x).hostMem = s.hostMem := rfl
@[simp] theorem State.setCtx_hostPoison (s : State) (c : Ctx) (x : Option CtxSt) : (s.setCtx c x).hostPoison = s.hostPoison := rfl
@[simp] theorem State.setCtx_sems (s : State) (c : Ctx) (x : Option CtxSt) : (s.setCtx c x).sems = s.sems := rfl
@[simp] theorem State.setCtx_program (s : State) (c : Ctx) (x : Option CtxSt) : (s.setCtx c x).program = s.program := rfl
@[simp] theorem State.setCtx_numericsRev (s : State) (c : Ctx) (x : Option CtxSt) : (s.setCtx c x).numericsRev = s.numericsRev := rfl
@[simp] theorem State.setCtx_fwRev (s : State) (c : Ctx) (x : Option CtxSt) : (s.setCtx c x).fwRev = s.fwRev := rfl
@[simp] theorem State.setCtx_dieMask (s : State) (c : Ctx) (x : Option CtxSt) : (s.setCtx c x).dieMask = s.dieMask := rfl
@[simp] theorem State.setCtx_portMask (s : State) (c : Ctx) (x : Option CtxSt) : (s.setCtx c x).portMask = s.portMask := rfl
@[simp] theorem State.setCtx_tableGen (s : State) (c : Ctx) (x : Option CtxSt) : (s.setCtx c x).tableGen = s.tableGen := rfl
@[simp] theorem State.setCtx_dies (s : State) (c : Ctx) (x : Option CtxSt) : (s.setCtx c x).dies = s.dies := rfl
@[simp] theorem State.setCtx_mailboxes (s : State) (c : Ctx) (x : Option CtxSt) : (s.setCtx c x).mailboxes = s.mailboxes := rfl
@[simp] theorem State.setCtx_links (s : State) (c : Ctx) (x : Option CtxSt) : (s.setCtx c x).links = s.links := rfl
@[simp] theorem State.setCtx_fabric (s : State) (c : Ctx) (x : Option CtxSt) : (s.setCtx c x).fabric = s.fabric := rfl
@[simp] theorem State.setCtx_host (s : State) (c : Ctx) (x : Option CtxSt) : (s.setCtx c x).host = s.host := rfl
@[simp] theorem State.setCtx_ledger (s : State) (c : Ctx) (x : Option CtxSt) : (s.setCtx c x).ledger = s.ledger := rfl
@[simp] theorem State.setCtx_flash (s : State) (c : Ctx) (x : Option CtxSt) : (s.setCtx c x).flash = s.flash := rfl
@[simp] theorem State.setCtx_fuses (s : State) (c : Ctx) (x : Option CtxSt) : (s.setCtx c x).fuses = s.fuses := rfl
@[simp] theorem State.setCtx_bootSt (s : State) (c : Ctx) (x : Option CtxSt) : (s.setCtx c x).bootSt = s.bootSt := rfl
@[simp] theorem State.setCtx_power (s : State) (c : Ctx) (x : Option CtxSt) : (s.setCtx c x).power = s.power := rfl

@[simp] theorem State.updStream_pending (s : State) (d : Die) (c : Ctx) (f : Stream → Stream) : (s.updStream d c f).pending = s.pending := rfl
@[simp] theorem State.updStream_freeCtr (s : State) (d : Die) (c : Ctx) (f : Stream → Stream) : (s.updStream d c f).freeCtr = s.freeCtr := rfl
@[simp] theorem State.updStream_now (s : State) (d : Die) (c : Ctx) (f : Stream → Stream) : (s.updStream d c f).now = s.now := rfl
@[simp] theorem State.updStream_stack (s : State) (d : Die) (c : Ctx) (f : Stream → Stream) : (s.updStream d c f).stack = s.stack := rfl
@[simp] theorem State.updStream_stackPoison (s : State) (d : Die) (c : Ctx) (f : Stream → Stream) : (s.updStream d c f).stackPoison = s.stackPoison := rfl
@[simp] theorem State.updStream_scratch (s : State) (d : Die) (c : Ctx) (f : Stream → Stream) : (s.updStream d c f).scratch = s.scratch := rfl
@[simp] theorem State.updStream_scratchPoison (s : State) (d : Die) (c : Ctx) (f : Stream → Stream) : (s.updStream d c f).scratchPoison = s.scratchPoison := rfl
@[simp] theorem State.updStream_tags (s : State) (d : Die) (c : Ctx) (f : Stream → Stream) : (s.updStream d c f).tags = s.tags := rfl
@[simp] theorem State.updStream_hostMem (s : State) (d : Die) (c : Ctx) (f : Stream → Stream) : (s.updStream d c f).hostMem = s.hostMem := rfl
@[simp] theorem State.updStream_hostPoison (s : State) (d : Die) (c : Ctx) (f : Stream → Stream) : (s.updStream d c f).hostPoison = s.hostPoison := rfl
@[simp] theorem State.updStream_sems (s : State) (d : Die) (c : Ctx) (f : Stream → Stream) : (s.updStream d c f).sems = s.sems := rfl
@[simp] theorem State.updStream_program (s : State) (d : Die) (c : Ctx) (f : Stream → Stream) : (s.updStream d c f).program = s.program := rfl
@[simp] theorem State.updStream_numericsRev (s : State) (d : Die) (c : Ctx) (f : Stream → Stream) : (s.updStream d c f).numericsRev = s.numericsRev := rfl
@[simp] theorem State.updStream_fwRev (s : State) (d : Die) (c : Ctx) (f : Stream → Stream) : (s.updStream d c f).fwRev = s.fwRev := rfl
@[simp] theorem State.updStream_dieMask (s : State) (d : Die) (c : Ctx) (f : Stream → Stream) : (s.updStream d c f).dieMask = s.dieMask := rfl
@[simp] theorem State.updStream_portMask (s : State) (d : Die) (c : Ctx) (f : Stream → Stream) : (s.updStream d c f).portMask = s.portMask := rfl
@[simp] theorem State.updStream_tableGen (s : State) (d : Die) (c : Ctx) (f : Stream → Stream) : (s.updStream d c f).tableGen = s.tableGen := rfl
@[simp] theorem State.updStream_dies (s : State) (d : Die) (c : Ctx) (f : Stream → Stream) : (s.updStream d c f).dies = s.dies := rfl
@[simp] theorem State.updStream_mailboxes (s : State) (d : Die) (c : Ctx) (f : Stream → Stream) : (s.updStream d c f).mailboxes = s.mailboxes := rfl
@[simp] theorem State.updStream_links (s : State) (d : Die) (c : Ctx) (f : Stream → Stream) : (s.updStream d c f).links = s.links := rfl
@[simp] theorem State.updStream_fabric (s : State) (d : Die) (c : Ctx) (f : Stream → Stream) : (s.updStream d c f).fabric = s.fabric := rfl
@[simp] theorem State.updStream_host (s : State) (d : Die) (c : Ctx) (f : Stream → Stream) : (s.updStream d c f).host = s.host := rfl
@[simp] theorem State.updStream_ledger (s : State) (d : Die) (c : Ctx) (f : Stream → Stream) : (s.updStream d c f).ledger = s.ledger := rfl
@[simp] theorem State.updStream_flash (s : State) (d : Die) (c : Ctx) (f : Stream → Stream) : (s.updStream d c f).flash = s.flash := rfl
@[simp] theorem State.updStream_fuses (s : State) (d : Die) (c : Ctx) (f : Stream → Stream) : (s.updStream d c f).fuses = s.fuses := rfl
@[simp] theorem State.updStream_bootSt (s : State) (d : Die) (c : Ctx) (f : Stream → Stream) : (s.updStream d c f).bootSt = s.bootSt := rfl
@[simp] theorem State.updStream_power (s : State) (d : Die) (c : Ctx) (f : Stream → Stream) : (s.updStream d c f).power = s.power := rfl

@[simp] theorem State.updMbx_pending (s : State) (m : Mbx) (f : MbxSt → MbxSt) : (s.updMbx m f).pending = s.pending := rfl
@[simp] theorem State.updMbx_freeCtr (s : State) (m : Mbx) (f : MbxSt → MbxSt) : (s.updMbx m f).freeCtr = s.freeCtr := rfl
@[simp] theorem State.updMbx_now (s : State) (m : Mbx) (f : MbxSt → MbxSt) : (s.updMbx m f).now = s.now := rfl
@[simp] theorem State.updMbx_stack (s : State) (m : Mbx) (f : MbxSt → MbxSt) : (s.updMbx m f).stack = s.stack := rfl
@[simp] theorem State.updMbx_stackPoison (s : State) (m : Mbx) (f : MbxSt → MbxSt) : (s.updMbx m f).stackPoison = s.stackPoison := rfl
@[simp] theorem State.updMbx_scratch (s : State) (m : Mbx) (f : MbxSt → MbxSt) : (s.updMbx m f).scratch = s.scratch := rfl
@[simp] theorem State.updMbx_scratchPoison (s : State) (m : Mbx) (f : MbxSt → MbxSt) : (s.updMbx m f).scratchPoison = s.scratchPoison := rfl
@[simp] theorem State.updMbx_tags (s : State) (m : Mbx) (f : MbxSt → MbxSt) : (s.updMbx m f).tags = s.tags := rfl
@[simp] theorem State.updMbx_hostMem (s : State) (m : Mbx) (f : MbxSt → MbxSt) : (s.updMbx m f).hostMem = s.hostMem := rfl
@[simp] theorem State.updMbx_hostPoison (s : State) (m : Mbx) (f : MbxSt → MbxSt) : (s.updMbx m f).hostPoison = s.hostPoison := rfl
@[simp] theorem State.updMbx_sems (s : State) (m : Mbx) (f : MbxSt → MbxSt) : (s.updMbx m f).sems = s.sems := rfl
@[simp] theorem State.updMbx_program (s : State) (m : Mbx) (f : MbxSt → MbxSt) : (s.updMbx m f).program = s.program := rfl
@[simp] theorem State.updMbx_numericsRev (s : State) (m : Mbx) (f : MbxSt → MbxSt) : (s.updMbx m f).numericsRev = s.numericsRev := rfl
@[simp] theorem State.updMbx_fwRev (s : State) (m : Mbx) (f : MbxSt → MbxSt) : (s.updMbx m f).fwRev = s.fwRev := rfl
@[simp] theorem State.updMbx_dieMask (s : State) (m : Mbx) (f : MbxSt → MbxSt) : (s.updMbx m f).dieMask = s.dieMask := rfl
@[simp] theorem State.updMbx_portMask (s : State) (m : Mbx) (f : MbxSt → MbxSt) : (s.updMbx m f).portMask = s.portMask := rfl
@[simp] theorem State.updMbx_tableGen (s : State) (m : Mbx) (f : MbxSt → MbxSt) : (s.updMbx m f).tableGen = s.tableGen := rfl
@[simp] theorem State.updMbx_dies (s : State) (m : Mbx) (f : MbxSt → MbxSt) : (s.updMbx m f).dies = s.dies := rfl
@[simp] theorem State.updMbx_ctxs (s : State) (m : Mbx) (f : MbxSt → MbxSt) : (s.updMbx m f).ctxs = s.ctxs := rfl
@[simp] theorem State.updMbx_links (s : State) (m : Mbx) (f : MbxSt → MbxSt) : (s.updMbx m f).links = s.links := rfl
@[simp] theorem State.updMbx_fabric (s : State) (m : Mbx) (f : MbxSt → MbxSt) : (s.updMbx m f).fabric = s.fabric := rfl
@[simp] theorem State.updMbx_host (s : State) (m : Mbx) (f : MbxSt → MbxSt) : (s.updMbx m f).host = s.host := rfl
@[simp] theorem State.updMbx_ledger (s : State) (m : Mbx) (f : MbxSt → MbxSt) : (s.updMbx m f).ledger = s.ledger := rfl
@[simp] theorem State.updMbx_flash (s : State) (m : Mbx) (f : MbxSt → MbxSt) : (s.updMbx m f).flash = s.flash := rfl
@[simp] theorem State.updMbx_fuses (s : State) (m : Mbx) (f : MbxSt → MbxSt) : (s.updMbx m f).fuses = s.fuses := rfl
@[simp] theorem State.updMbx_bootSt (s : State) (m : Mbx) (f : MbxSt → MbxSt) : (s.updMbx m f).bootSt = s.bootSt := rfl
@[simp] theorem State.updMbx_power (s : State) (m : Mbx) (f : MbxSt → MbxSt) : (s.updMbx m f).power = s.power := rfl

@[simp] theorem State.updLink_pending (s : State) (l : Link) (f : LinkSt → LinkSt) : (s.updLink l f).pending = s.pending := rfl
@[simp] theorem State.updLink_freeCtr (s : State) (l : Link) (f : LinkSt → LinkSt) : (s.updLink l f).freeCtr = s.freeCtr := rfl
@[simp] theorem State.updLink_now (s : State) (l : Link) (f : LinkSt → LinkSt) : (s.updLink l f).now = s.now := rfl
@[simp] theorem State.updLink_stack (s : State) (l : Link) (f : LinkSt → LinkSt) : (s.updLink l f).stack = s.stack := rfl
@[simp] theorem State.updLink_stackPoison (s : State) (l : Link) (f : LinkSt → LinkSt) : (s.updLink l f).stackPoison = s.stackPoison := rfl
@[simp] theorem State.updLink_scratch (s : State) (l : Link) (f : LinkSt → LinkSt) : (s.updLink l f).scratch = s.scratch := rfl
@[simp] theorem State.updLink_scratchPoison (s : State) (l : Link) (f : LinkSt → LinkSt) : (s.updLink l f).scratchPoison = s.scratchPoison := rfl
@[simp] theorem State.updLink_tags (s : State) (l : Link) (f : LinkSt → LinkSt) : (s.updLink l f).tags = s.tags := rfl
@[simp] theorem State.updLink_hostMem (s : State) (l : Link) (f : LinkSt → LinkSt) : (s.updLink l f).hostMem = s.hostMem := rfl
@[simp] theorem State.updLink_hostPoison (s : State) (l : Link) (f : LinkSt → LinkSt) : (s.updLink l f).hostPoison = s.hostPoison := rfl
@[simp] theorem State.updLink_sems (s : State) (l : Link) (f : LinkSt → LinkSt) : (s.updLink l f).sems = s.sems := rfl
@[simp] theorem State.updLink_program (s : State) (l : Link) (f : LinkSt → LinkSt) : (s.updLink l f).program = s.program := rfl
@[simp] theorem State.updLink_numericsRev (s : State) (l : Link) (f : LinkSt → LinkSt) : (s.updLink l f).numericsRev = s.numericsRev := rfl
@[simp] theorem State.updLink_fwRev (s : State) (l : Link) (f : LinkSt → LinkSt) : (s.updLink l f).fwRev = s.fwRev := rfl
@[simp] theorem State.updLink_dieMask (s : State) (l : Link) (f : LinkSt → LinkSt) : (s.updLink l f).dieMask = s.dieMask := rfl
@[simp] theorem State.updLink_portMask (s : State) (l : Link) (f : LinkSt → LinkSt) : (s.updLink l f).portMask = s.portMask := rfl
@[simp] theorem State.updLink_tableGen (s : State) (l : Link) (f : LinkSt → LinkSt) : (s.updLink l f).tableGen = s.tableGen := rfl
@[simp] theorem State.updLink_dies (s : State) (l : Link) (f : LinkSt → LinkSt) : (s.updLink l f).dies = s.dies := rfl
@[simp] theorem State.updLink_ctxs (s : State) (l : Link) (f : LinkSt → LinkSt) : (s.updLink l f).ctxs = s.ctxs := rfl
@[simp] theorem State.updLink_mailboxes (s : State) (l : Link) (f : LinkSt → LinkSt) : (s.updLink l f).mailboxes = s.mailboxes := rfl
@[simp] theorem State.updLink_fabric (s : State) (l : Link) (f : LinkSt → LinkSt) : (s.updLink l f).fabric = s.fabric := rfl
@[simp] theorem State.updLink_host (s : State) (l : Link) (f : LinkSt → LinkSt) : (s.updLink l f).host = s.host := rfl
@[simp] theorem State.updLink_ledger (s : State) (l : Link) (f : LinkSt → LinkSt) : (s.updLink l f).ledger = s.ledger := rfl
@[simp] theorem State.updLink_flash (s : State) (l : Link) (f : LinkSt → LinkSt) : (s.updLink l f).flash = s.flash := rfl
@[simp] theorem State.updLink_fuses (s : State) (l : Link) (f : LinkSt → LinkSt) : (s.updLink l f).fuses = s.fuses := rfl
@[simp] theorem State.updLink_bootSt (s : State) (l : Link) (f : LinkSt → LinkSt) : (s.updLink l f).bootSt = s.bootSt := rfl
@[simp] theorem State.updLink_power (s : State) (l : Link) (f : LinkSt → LinkSt) : (s.updLink l f).power = s.power := rfl

@[simp] theorem State.setPower_pending (s : State) (f : PowerSt → PowerSt) : (s.setPower f).pending = s.pending := rfl
@[simp] theorem State.setPower_freeCtr (s : State) (f : PowerSt → PowerSt) : (s.setPower f).freeCtr = s.freeCtr := rfl
@[simp] theorem State.setPower_now (s : State) (f : PowerSt → PowerSt) : (s.setPower f).now = s.now := rfl
@[simp] theorem State.setPower_stack (s : State) (f : PowerSt → PowerSt) : (s.setPower f).stack = s.stack := rfl
@[simp] theorem State.setPower_stackPoison (s : State) (f : PowerSt → PowerSt) : (s.setPower f).stackPoison = s.stackPoison := rfl
@[simp] theorem State.setPower_scratch (s : State) (f : PowerSt → PowerSt) : (s.setPower f).scratch = s.scratch := rfl
@[simp] theorem State.setPower_scratchPoison (s : State) (f : PowerSt → PowerSt) : (s.setPower f).scratchPoison = s.scratchPoison := rfl
@[simp] theorem State.setPower_tags (s : State) (f : PowerSt → PowerSt) : (s.setPower f).tags = s.tags := rfl
@[simp] theorem State.setPower_hostMem (s : State) (f : PowerSt → PowerSt) : (s.setPower f).hostMem = s.hostMem := rfl
@[simp] theorem State.setPower_hostPoison (s : State) (f : PowerSt → PowerSt) : (s.setPower f).hostPoison = s.hostPoison := rfl
@[simp] theorem State.setPower_sems (s : State) (f : PowerSt → PowerSt) : (s.setPower f).sems = s.sems := rfl
@[simp] theorem State.setPower_program (s : State) (f : PowerSt → PowerSt) : (s.setPower f).program = s.program := rfl
@[simp] theorem State.setPower_numericsRev (s : State) (f : PowerSt → PowerSt) : (s.setPower f).numericsRev = s.numericsRev := rfl
@[simp] theorem State.setPower_fwRev (s : State) (f : PowerSt → PowerSt) : (s.setPower f).fwRev = s.fwRev := rfl
@[simp] theorem State.setPower_dieMask (s : State) (f : PowerSt → PowerSt) : (s.setPower f).dieMask = s.dieMask := rfl
@[simp] theorem State.setPower_portMask (s : State) (f : PowerSt → PowerSt) : (s.setPower f).portMask = s.portMask := rfl
@[simp] theorem State.setPower_tableGen (s : State) (f : PowerSt → PowerSt) : (s.setPower f).tableGen = s.tableGen := rfl
@[simp] theorem State.setPower_dies (s : State) (f : PowerSt → PowerSt) : (s.setPower f).dies = s.dies := rfl
@[simp] theorem State.setPower_ctxs (s : State) (f : PowerSt → PowerSt) : (s.setPower f).ctxs = s.ctxs := rfl
@[simp] theorem State.setPower_mailboxes (s : State) (f : PowerSt → PowerSt) : (s.setPower f).mailboxes = s.mailboxes := rfl
@[simp] theorem State.setPower_links (s : State) (f : PowerSt → PowerSt) : (s.setPower f).links = s.links := rfl
@[simp] theorem State.setPower_fabric (s : State) (f : PowerSt → PowerSt) : (s.setPower f).fabric = s.fabric := rfl
@[simp] theorem State.setPower_host (s : State) (f : PowerSt → PowerSt) : (s.setPower f).host = s.host := rfl
@[simp] theorem State.setPower_ledger (s : State) (f : PowerSt → PowerSt) : (s.setPower f).ledger = s.ledger := rfl
@[simp] theorem State.setPower_flash (s : State) (f : PowerSt → PowerSt) : (s.setPower f).flash = s.flash := rfl
@[simp] theorem State.setPower_fuses (s : State) (f : PowerSt → PowerSt) : (s.setPower f).fuses = s.fuses := rfl
@[simp] theorem State.setPower_bootSt (s : State) (f : PowerSt → PowerSt) : (s.setPower f).bootSt = s.bootSt := rfl

@[simp] theorem State.count_pending (s : State) (d : Die) (e q : Nat) (c : Option Nat) (n : Nat) : (s.count d e q c n).pending = s.pending := rfl
@[simp] theorem State.count_freeCtr (s : State) (d : Die) (e q : Nat) (c : Option Nat) (n : Nat) : (s.count d e q c n).freeCtr = s.freeCtr := rfl
@[simp] theorem State.count_now (s : State) (d : Die) (e q : Nat) (c : Option Nat) (n : Nat) : (s.count d e q c n).now = s.now := rfl
@[simp] theorem State.count_stack (s : State) (d : Die) (e q : Nat) (c : Option Nat) (n : Nat) : (s.count d e q c n).stack = s.stack := rfl
@[simp] theorem State.count_stackPoison (s : State) (d : Die) (e q : Nat) (c : Option Nat) (n : Nat) : (s.count d e q c n).stackPoison = s.stackPoison := rfl
@[simp] theorem State.count_scratch (s : State) (d : Die) (e q : Nat) (c : Option Nat) (n : Nat) : (s.count d e q c n).scratch = s.scratch := rfl
@[simp] theorem State.count_scratchPoison (s : State) (d : Die) (e q : Nat) (c : Option Nat) (n : Nat) : (s.count d e q c n).scratchPoison = s.scratchPoison := rfl
@[simp] theorem State.count_tags (s : State) (d : Die) (e q : Nat) (c : Option Nat) (n : Nat) : (s.count d e q c n).tags = s.tags := rfl
@[simp] theorem State.count_hostMem (s : State) (d : Die) (e q : Nat) (c : Option Nat) (n : Nat) : (s.count d e q c n).hostMem = s.hostMem := rfl
@[simp] theorem State.count_hostPoison (s : State) (d : Die) (e q : Nat) (c : Option Nat) (n : Nat) : (s.count d e q c n).hostPoison = s.hostPoison := rfl
@[simp] theorem State.count_sems (s : State) (d : Die) (e q : Nat) (c : Option Nat) (n : Nat) : (s.count d e q c n).sems = s.sems := rfl
@[simp] theorem State.count_program (s : State) (d : Die) (e q : Nat) (c : Option Nat) (n : Nat) : (s.count d e q c n).program = s.program := rfl
@[simp] theorem State.count_numericsRev (s : State) (d : Die) (e q : Nat) (c : Option Nat) (n : Nat) : (s.count d e q c n).numericsRev = s.numericsRev := rfl
@[simp] theorem State.count_fwRev (s : State) (d : Die) (e q : Nat) (c : Option Nat) (n : Nat) : (s.count d e q c n).fwRev = s.fwRev := rfl
@[simp] theorem State.count_dieMask (s : State) (d : Die) (e q : Nat) (c : Option Nat) (n : Nat) : (s.count d e q c n).dieMask = s.dieMask := rfl
@[simp] theorem State.count_portMask (s : State) (d : Die) (e q : Nat) (c : Option Nat) (n : Nat) : (s.count d e q c n).portMask = s.portMask := rfl
@[simp] theorem State.count_tableGen (s : State) (d : Die) (e q : Nat) (c : Option Nat) (n : Nat) : (s.count d e q c n).tableGen = s.tableGen := rfl
@[simp] theorem State.count_ctxs (s : State) (d : Die) (e q : Nat) (c : Option Nat) (n : Nat) : (s.count d e q c n).ctxs = s.ctxs := rfl
@[simp] theorem State.count_mailboxes (s : State) (d : Die) (e q : Nat) (c : Option Nat) (n : Nat) : (s.count d e q c n).mailboxes = s.mailboxes := rfl
@[simp] theorem State.count_links (s : State) (d : Die) (e q : Nat) (c : Option Nat) (n : Nat) : (s.count d e q c n).links = s.links := rfl
@[simp] theorem State.count_fabric (s : State) (d : Die) (e q : Nat) (c : Option Nat) (n : Nat) : (s.count d e q c n).fabric = s.fabric := rfl
@[simp] theorem State.count_host (s : State) (d : Die) (e q : Nat) (c : Option Nat) (n : Nat) : (s.count d e q c n).host = s.host := rfl
@[simp] theorem State.count_ledger (s : State) (d : Die) (e q : Nat) (c : Option Nat) (n : Nat) : (s.count d e q c n).ledger = s.ledger := rfl
@[simp] theorem State.count_flash (s : State) (d : Die) (e q : Nat) (c : Option Nat) (n : Nat) : (s.count d e q c n).flash = s.flash := rfl
@[simp] theorem State.count_fuses (s : State) (d : Die) (e q : Nat) (c : Option Nat) (n : Nat) : (s.count d e q c n).fuses = s.fuses := rfl
@[simp] theorem State.count_bootSt (s : State) (d : Die) (e q : Nat) (c : Option Nat) (n : Nat) : (s.count d e q c n).bootSt = s.bootSt := rfl
@[simp] theorem State.count_power (s : State) (d : Die) (e q : Nat) (c : Option Nat) (n : Nat) : (s.count d e q c n).power = s.power := rfl

@[simp] theorem State.measure_pending (s : State) (d : Die) (e q : Nat) (c : Option Nat) (n : Nat) : (s.measure d e q c n).pending = s.pending := by unfold State.measure; split <;> rfl
@[simp] theorem State.measure_now (s : State) (d : Die) (e q : Nat) (c : Option Nat) (n : Nat) : (s.measure d e q c n).now = s.now := by unfold State.measure; split <;> rfl
@[simp] theorem State.measure_stack (s : State) (d : Die) (e q : Nat) (c : Option Nat) (n : Nat) : (s.measure d e q c n).stack = s.stack := by unfold State.measure; split <;> rfl
@[simp] theorem State.measure_stackPoison (s : State) (d : Die) (e q : Nat) (c : Option Nat) (n : Nat) : (s.measure d e q c n).stackPoison = s.stackPoison := by unfold State.measure; split <;> rfl
@[simp] theorem State.measure_scratch (s : State) (d : Die) (e q : Nat) (c : Option Nat) (n : Nat) : (s.measure d e q c n).scratch = s.scratch := by unfold State.measure; split <;> rfl
@[simp] theorem State.measure_scratchPoison (s : State) (d : Die) (e q : Nat) (c : Option Nat) (n : Nat) : (s.measure d e q c n).scratchPoison = s.scratchPoison := by unfold State.measure; split <;> rfl
@[simp] theorem State.measure_tags (s : State) (d : Die) (e q : Nat) (c : Option Nat) (n : Nat) : (s.measure d e q c n).tags = s.tags := by unfold State.measure; split <;> rfl
@[simp] theorem State.measure_hostMem (s : State) (d : Die) (e q : Nat) (c : Option Nat) (n : Nat) : (s.measure d e q c n).hostMem = s.hostMem := by unfold State.measure; split <;> rfl
@[simp] theorem State.measure_hostPoison (s : State) (d : Die) (e q : Nat) (c : Option Nat) (n : Nat) : (s.measure d e q c n).hostPoison = s.hostPoison := by unfold State.measure; split <;> rfl
@[simp] theorem State.measure_sems (s : State) (d : Die) (e q : Nat) (c : Option Nat) (n : Nat) : (s.measure d e q c n).sems = s.sems := by unfold State.measure; split <;> rfl
@[simp] theorem State.measure_program (s : State) (d : Die) (e q : Nat) (c : Option Nat) (n : Nat) : (s.measure d e q c n).program = s.program := by unfold State.measure; split <;> rfl
@[simp] theorem State.measure_numericsRev (s : State) (d : Die) (e q : Nat) (c : Option Nat) (n : Nat) : (s.measure d e q c n).numericsRev = s.numericsRev := by unfold State.measure; split <;> rfl
@[simp] theorem State.measure_fwRev (s : State) (d : Die) (e q : Nat) (c : Option Nat) (n : Nat) : (s.measure d e q c n).fwRev = s.fwRev := by unfold State.measure; split <;> rfl
@[simp] theorem State.measure_dieMask (s : State) (d : Die) (e q : Nat) (c : Option Nat) (n : Nat) : (s.measure d e q c n).dieMask = s.dieMask := by unfold State.measure; split <;> rfl
@[simp] theorem State.measure_portMask (s : State) (d : Die) (e q : Nat) (c : Option Nat) (n : Nat) : (s.measure d e q c n).portMask = s.portMask := by unfold State.measure; split <;> rfl
@[simp] theorem State.measure_tableGen (s : State) (d : Die) (e q : Nat) (c : Option Nat) (n : Nat) : (s.measure d e q c n).tableGen = s.tableGen := by unfold State.measure; split <;> rfl
@[simp] theorem State.measure_ctxs (s : State) (d : Die) (e q : Nat) (c : Option Nat) (n : Nat) : (s.measure d e q c n).ctxs = s.ctxs := by unfold State.measure; split <;> rfl
@[simp] theorem State.measure_mailboxes (s : State) (d : Die) (e q : Nat) (c : Option Nat) (n : Nat) : (s.measure d e q c n).mailboxes = s.mailboxes := by unfold State.measure; split <;> rfl
@[simp] theorem State.measure_links (s : State) (d : Die) (e q : Nat) (c : Option Nat) (n : Nat) : (s.measure d e q c n).links = s.links := by unfold State.measure; split <;> rfl
@[simp] theorem State.measure_fabric (s : State) (d : Die) (e q : Nat) (c : Option Nat) (n : Nat) : (s.measure d e q c n).fabric = s.fabric := by unfold State.measure; split <;> rfl
@[simp] theorem State.measure_host (s : State) (d : Die) (e q : Nat) (c : Option Nat) (n : Nat) : (s.measure d e q c n).host = s.host := by unfold State.measure; split <;> rfl
@[simp] theorem State.measure_ledger (s : State) (d : Die) (e q : Nat) (c : Option Nat) (n : Nat) : (s.measure d e q c n).ledger = s.ledger := by unfold State.measure; split <;> rfl
@[simp] theorem State.measure_flash (s : State) (d : Die) (e q : Nat) (c : Option Nat) (n : Nat) : (s.measure d e q c n).flash = s.flash := by unfold State.measure; split <;> rfl
@[simp] theorem State.measure_fuses (s : State) (d : Die) (e q : Nat) (c : Option Nat) (n : Nat) : (s.measure d e q c n).fuses = s.fuses := by unfold State.measure; split <;> rfl
@[simp] theorem State.measure_bootSt (s : State) (d : Die) (e q : Nat) (c : Option Nat) (n : Nat) : (s.measure d e q c n).bootSt = s.bootSt := by unfold State.measure; split <;> rfl
@[simp] theorem State.measure_power (s : State) (d : Die) (e q : Nat) (c : Option Nat) (n : Nat) : (s.measure d e q c n).power = s.power := by unfold State.measure; split <;> rfl

@[simp] theorem State.orVerdict_pending (s : State) (c : Ctx) (v : BitVec 64) : (s.orVerdict c v).pending = s.pending := rfl
@[simp] theorem State.orVerdict_freeCtr (s : State) (c : Ctx) (v : BitVec 64) : (s.orVerdict c v).freeCtr = s.freeCtr := rfl
@[simp] theorem State.orVerdict_now (s : State) (c : Ctx) (v : BitVec 64) : (s.orVerdict c v).now = s.now := rfl
@[simp] theorem State.orVerdict_stack (s : State) (c : Ctx) (v : BitVec 64) : (s.orVerdict c v).stack = s.stack := rfl
@[simp] theorem State.orVerdict_stackPoison (s : State) (c : Ctx) (v : BitVec 64) : (s.orVerdict c v).stackPoison = s.stackPoison := rfl
@[simp] theorem State.orVerdict_scratch (s : State) (c : Ctx) (v : BitVec 64) : (s.orVerdict c v).scratch = s.scratch := rfl
@[simp] theorem State.orVerdict_scratchPoison (s : State) (c : Ctx) (v : BitVec 64) : (s.orVerdict c v).scratchPoison = s.scratchPoison := rfl
@[simp] theorem State.orVerdict_tags (s : State) (c : Ctx) (v : BitVec 64) : (s.orVerdict c v).tags = s.tags := rfl
@[simp] theorem State.orVerdict_hostMem (s : State) (c : Ctx) (v : BitVec 64) : (s.orVerdict c v).hostMem = s.hostMem := rfl
@[simp] theorem State.orVerdict_hostPoison (s : State) (c : Ctx) (v : BitVec 64) : (s.orVerdict c v).hostPoison = s.hostPoison := rfl
@[simp] theorem State.orVerdict_sems (s : State) (c : Ctx) (v : BitVec 64) : (s.orVerdict c v).sems = s.sems := rfl
@[simp] theorem State.orVerdict_program (s : State) (c : Ctx) (v : BitVec 64) : (s.orVerdict c v).program = s.program := rfl
@[simp] theorem State.orVerdict_numericsRev (s : State) (c : Ctx) (v : BitVec 64) : (s.orVerdict c v).numericsRev = s.numericsRev := rfl
@[simp] theorem State.orVerdict_fwRev (s : State) (c : Ctx) (v : BitVec 64) : (s.orVerdict c v).fwRev = s.fwRev := rfl
@[simp] theorem State.orVerdict_dieMask (s : State) (c : Ctx) (v : BitVec 64) : (s.orVerdict c v).dieMask = s.dieMask := rfl
@[simp] theorem State.orVerdict_portMask (s : State) (c : Ctx) (v : BitVec 64) : (s.orVerdict c v).portMask = s.portMask := rfl
@[simp] theorem State.orVerdict_tableGen (s : State) (c : Ctx) (v : BitVec 64) : (s.orVerdict c v).tableGen = s.tableGen := rfl
@[simp] theorem State.orVerdict_dies (s : State) (c : Ctx) (v : BitVec 64) : (s.orVerdict c v).dies = s.dies := rfl
@[simp] theorem State.orVerdict_mailboxes (s : State) (c : Ctx) (v : BitVec 64) : (s.orVerdict c v).mailboxes = s.mailboxes := rfl
@[simp] theorem State.orVerdict_links (s : State) (c : Ctx) (v : BitVec 64) : (s.orVerdict c v).links = s.links := rfl
@[simp] theorem State.orVerdict_fabric (s : State) (c : Ctx) (v : BitVec 64) : (s.orVerdict c v).fabric = s.fabric := rfl
@[simp] theorem State.orVerdict_host (s : State) (c : Ctx) (v : BitVec 64) : (s.orVerdict c v).host = s.host := rfl
@[simp] theorem State.orVerdict_ledger (s : State) (c : Ctx) (v : BitVec 64) : (s.orVerdict c v).ledger = s.ledger := rfl
@[simp] theorem State.orVerdict_flash (s : State) (c : Ctx) (v : BitVec 64) : (s.orVerdict c v).flash = s.flash := rfl
@[simp] theorem State.orVerdict_fuses (s : State) (c : Ctx) (v : BitVec 64) : (s.orVerdict c v).fuses = s.fuses := rfl
@[simp] theorem State.orVerdict_bootSt (s : State) (c : Ctx) (v : BitVec 64) : (s.orVerdict c v).bootSt = s.bootSt := rfl
@[simp] theorem State.orVerdict_power (s : State) (c : Ctx) (v : BitVec 64) : (s.orVerdict c v).power = s.power := rfl

@[simp] theorem State.contributeFault_pending (s : State) (c : Ctx) : (s.contributeFault c).pending = s.pending := rfl
@[simp] theorem State.contributeFault_freeCtr (s : State) (c : Ctx) : (s.contributeFault c).freeCtr = s.freeCtr := rfl
@[simp] theorem State.contributeFault_now (s : State) (c : Ctx) : (s.contributeFault c).now = s.now := rfl
@[simp] theorem State.contributeFault_stack (s : State) (c : Ctx) : (s.contributeFault c).stack = s.stack := rfl
@[simp] theorem State.contributeFault_stackPoison (s : State) (c : Ctx) : (s.contributeFault c).stackPoison = s.stackPoison := rfl
@[simp] theorem State.contributeFault_scratch (s : State) (c : Ctx) : (s.contributeFault c).scratch = s.scratch := rfl
@[simp] theorem State.contributeFault_scratchPoison (s : State) (c : Ctx) : (s.contributeFault c).scratchPoison = s.scratchPoison := rfl
@[simp] theorem State.contributeFault_tags (s : State) (c : Ctx) : (s.contributeFault c).tags = s.tags := rfl
@[simp] theorem State.contributeFault_hostMem (s : State) (c : Ctx) : (s.contributeFault c).hostMem = s.hostMem := rfl
@[simp] theorem State.contributeFault_hostPoison (s : State) (c : Ctx) : (s.contributeFault c).hostPoison = s.hostPoison := rfl
@[simp] theorem State.contributeFault_sems (s : State) (c : Ctx) : (s.contributeFault c).sems = s.sems := rfl
@[simp] theorem State.contributeFault_program (s : State) (c : Ctx) : (s.contributeFault c).program = s.program := rfl
@[simp] theorem State.contributeFault_numericsRev (s : State) (c : Ctx) : (s.contributeFault c).numericsRev = s.numericsRev := rfl
@[simp] theorem State.contributeFault_fwRev (s : State) (c : Ctx) : (s.contributeFault c).fwRev = s.fwRev := rfl
@[simp] theorem State.contributeFault_dieMask (s : State) (c : Ctx) : (s.contributeFault c).dieMask = s.dieMask := rfl
@[simp] theorem State.contributeFault_portMask (s : State) (c : Ctx) : (s.contributeFault c).portMask = s.portMask := rfl
@[simp] theorem State.contributeFault_tableGen (s : State) (c : Ctx) : (s.contributeFault c).tableGen = s.tableGen := rfl
@[simp] theorem State.contributeFault_dies (s : State) (c : Ctx) : (s.contributeFault c).dies = s.dies := rfl
@[simp] theorem State.contributeFault_mailboxes (s : State) (c : Ctx) : (s.contributeFault c).mailboxes = s.mailboxes := rfl
@[simp] theorem State.contributeFault_links (s : State) (c : Ctx) : (s.contributeFault c).links = s.links := rfl
@[simp] theorem State.contributeFault_fabric (s : State) (c : Ctx) : (s.contributeFault c).fabric = s.fabric := rfl
@[simp] theorem State.contributeFault_host (s : State) (c : Ctx) : (s.contributeFault c).host = s.host := rfl
@[simp] theorem State.contributeFault_ledger (s : State) (c : Ctx) : (s.contributeFault c).ledger = s.ledger := rfl
@[simp] theorem State.contributeFault_flash (s : State) (c : Ctx) : (s.contributeFault c).flash = s.flash := rfl
@[simp] theorem State.contributeFault_fuses (s : State) (c : Ctx) : (s.contributeFault c).fuses = s.fuses := rfl
@[simp] theorem State.contributeFault_bootSt (s : State) (c : Ctx) : (s.contributeFault c).bootSt = s.bootSt := rfl
@[simp] theorem State.contributeFault_power (s : State) (c : Ctx) : (s.contributeFault c).power = s.power := rfl

@[simp] theorem State.stopStreams_pending (s : State) (c : Ctx) (k : StopCause) : (s.stopStreams c k).pending = s.pending := by simp only [State.stopStreams, State.updDies_pending, State.updCtx_pending]
@[simp] theorem State.stopStreams_freeCtr (s : State) (c : Ctx) (k : StopCause) : (s.stopStreams c k).freeCtr = s.freeCtr := by simp only [State.stopStreams, State.updDies_freeCtr, State.updCtx_freeCtr]
@[simp] theorem State.stopStreams_now (s : State) (c : Ctx) (k : StopCause) : (s.stopStreams c k).now = s.now := by simp only [State.stopStreams, State.updDies_now, State.updCtx_now]
@[simp] theorem State.stopStreams_stack (s : State) (c : Ctx) (k : StopCause) : (s.stopStreams c k).stack = s.stack := by simp only [State.stopStreams, State.updDies_stack, State.updCtx_stack]
@[simp] theorem State.stopStreams_stackPoison (s : State) (c : Ctx) (k : StopCause) : (s.stopStreams c k).stackPoison = s.stackPoison := by simp only [State.stopStreams, State.updDies_stackPoison, State.updCtx_stackPoison]
@[simp] theorem State.stopStreams_scratch (s : State) (c : Ctx) (k : StopCause) : (s.stopStreams c k).scratch = s.scratch := by simp only [State.stopStreams, State.updDies_scratch, State.updCtx_scratch]
@[simp] theorem State.stopStreams_scratchPoison (s : State) (c : Ctx) (k : StopCause) : (s.stopStreams c k).scratchPoison = s.scratchPoison := by simp only [State.stopStreams, State.updDies_scratchPoison, State.updCtx_scratchPoison]
@[simp] theorem State.stopStreams_tags (s : State) (c : Ctx) (k : StopCause) : (s.stopStreams c k).tags = s.tags := by simp only [State.stopStreams, State.updDies_tags, State.updCtx_tags]
@[simp] theorem State.stopStreams_hostMem (s : State) (c : Ctx) (k : StopCause) : (s.stopStreams c k).hostMem = s.hostMem := by simp only [State.stopStreams, State.updDies_hostMem, State.updCtx_hostMem]
@[simp] theorem State.stopStreams_hostPoison (s : State) (c : Ctx) (k : StopCause) : (s.stopStreams c k).hostPoison = s.hostPoison := by simp only [State.stopStreams, State.updDies_hostPoison, State.updCtx_hostPoison]
@[simp] theorem State.stopStreams_sems (s : State) (c : Ctx) (k : StopCause) : (s.stopStreams c k).sems = s.sems := by simp only [State.stopStreams, State.updDies_sems, State.updCtx_sems]
@[simp] theorem State.stopStreams_program (s : State) (c : Ctx) (k : StopCause) : (s.stopStreams c k).program = s.program := by simp only [State.stopStreams, State.updDies_program, State.updCtx_program]
@[simp] theorem State.stopStreams_numericsRev (s : State) (c : Ctx) (k : StopCause) : (s.stopStreams c k).numericsRev = s.numericsRev := by simp only [State.stopStreams, State.updDies_numericsRev, State.updCtx_numericsRev]
@[simp] theorem State.stopStreams_fwRev (s : State) (c : Ctx) (k : StopCause) : (s.stopStreams c k).fwRev = s.fwRev := by simp only [State.stopStreams, State.updDies_fwRev, State.updCtx_fwRev]
@[simp] theorem State.stopStreams_dieMask (s : State) (c : Ctx) (k : StopCause) : (s.stopStreams c k).dieMask = s.dieMask := by simp only [State.stopStreams, State.updDies_dieMask, State.updCtx_dieMask]
@[simp] theorem State.stopStreams_portMask (s : State) (c : Ctx) (k : StopCause) : (s.stopStreams c k).portMask = s.portMask := by simp only [State.stopStreams, State.updDies_portMask, State.updCtx_portMask]
@[simp] theorem State.stopStreams_tableGen (s : State) (c : Ctx) (k : StopCause) : (s.stopStreams c k).tableGen = s.tableGen := by simp only [State.stopStreams, State.updDies_tableGen, State.updCtx_tableGen]
@[simp] theorem State.stopStreams_mailboxes (s : State) (c : Ctx) (k : StopCause) : (s.stopStreams c k).mailboxes = s.mailboxes := by simp only [State.stopStreams, State.updDies_mailboxes, State.updCtx_mailboxes]
@[simp] theorem State.stopStreams_links (s : State) (c : Ctx) (k : StopCause) : (s.stopStreams c k).links = s.links := by simp only [State.stopStreams, State.updDies_links, State.updCtx_links]
@[simp] theorem State.stopStreams_fabric (s : State) (c : Ctx) (k : StopCause) : (s.stopStreams c k).fabric = s.fabric := by simp only [State.stopStreams, State.updDies_fabric, State.updCtx_fabric]
@[simp] theorem State.stopStreams_host (s : State) (c : Ctx) (k : StopCause) : (s.stopStreams c k).host = s.host := by simp only [State.stopStreams, State.updDies_host, State.updCtx_host]
@[simp] theorem State.stopStreams_ledger (s : State) (c : Ctx) (k : StopCause) : (s.stopStreams c k).ledger = s.ledger := by simp only [State.stopStreams, State.updDies_ledger, State.updCtx_ledger]
@[simp] theorem State.stopStreams_flash (s : State) (c : Ctx) (k : StopCause) : (s.stopStreams c k).flash = s.flash := by simp only [State.stopStreams, State.updDies_flash, State.updCtx_flash]
@[simp] theorem State.stopStreams_fuses (s : State) (c : Ctx) (k : StopCause) : (s.stopStreams c k).fuses = s.fuses := by simp only [State.stopStreams, State.updDies_fuses, State.updCtx_fuses]
@[simp] theorem State.stopStreams_bootSt (s : State) (c : Ctx) (k : StopCause) : (s.stopStreams c k).bootSt = s.bootSt := by simp only [State.stopStreams, State.updDies_bootSt, State.updCtx_bootSt]
@[simp] theorem State.stopStreams_power (s : State) (c : Ctx) (k : StopCause) : (s.stopStreams c k).power = s.power := by simp only [State.stopStreams, State.updDies_power, State.updCtx_power]

@[simp] theorem State.faultStop_pending (s : State) (c : Ctx) (k : StopCause) : (s.faultStop c k).pending = s.pending := by simp only [State.faultStop, State.stopStreams_pending, State.contributeFault_pending]
@[simp] theorem State.faultStop_freeCtr (s : State) (c : Ctx) (k : StopCause) : (s.faultStop c k).freeCtr = s.freeCtr := by simp only [State.faultStop, State.stopStreams_freeCtr, State.contributeFault_freeCtr]
@[simp] theorem State.faultStop_now (s : State) (c : Ctx) (k : StopCause) : (s.faultStop c k).now = s.now := by simp only [State.faultStop, State.stopStreams_now, State.contributeFault_now]
@[simp] theorem State.faultStop_stack (s : State) (c : Ctx) (k : StopCause) : (s.faultStop c k).stack = s.stack := by simp only [State.faultStop, State.stopStreams_stack, State.contributeFault_stack]
@[simp] theorem State.faultStop_stackPoison (s : State) (c : Ctx) (k : StopCause) : (s.faultStop c k).stackPoison = s.stackPoison := by simp only [State.faultStop, State.stopStreams_stackPoison, State.contributeFault_stackPoison]
@[simp] theorem State.faultStop_scratch (s : State) (c : Ctx) (k : StopCause) : (s.faultStop c k).scratch = s.scratch := by simp only [State.faultStop, State.stopStreams_scratch, State.contributeFault_scratch]
@[simp] theorem State.faultStop_scratchPoison (s : State) (c : Ctx) (k : StopCause) : (s.faultStop c k).scratchPoison = s.scratchPoison := by simp only [State.faultStop, State.stopStreams_scratchPoison, State.contributeFault_scratchPoison]
@[simp] theorem State.faultStop_tags (s : State) (c : Ctx) (k : StopCause) : (s.faultStop c k).tags = s.tags := by simp only [State.faultStop, State.stopStreams_tags, State.contributeFault_tags]
@[simp] theorem State.faultStop_hostMem (s : State) (c : Ctx) (k : StopCause) : (s.faultStop c k).hostMem = s.hostMem := by simp only [State.faultStop, State.stopStreams_hostMem, State.contributeFault_hostMem]
@[simp] theorem State.faultStop_hostPoison (s : State) (c : Ctx) (k : StopCause) : (s.faultStop c k).hostPoison = s.hostPoison := by simp only [State.faultStop, State.stopStreams_hostPoison, State.contributeFault_hostPoison]
@[simp] theorem State.faultStop_sems (s : State) (c : Ctx) (k : StopCause) : (s.faultStop c k).sems = s.sems := by simp only [State.faultStop, State.stopStreams_sems, State.contributeFault_sems]
@[simp] theorem State.faultStop_program (s : State) (c : Ctx) (k : StopCause) : (s.faultStop c k).program = s.program := by simp only [State.faultStop, State.stopStreams_program, State.contributeFault_program]
@[simp] theorem State.faultStop_numericsRev (s : State) (c : Ctx) (k : StopCause) : (s.faultStop c k).numericsRev = s.numericsRev := by simp only [State.faultStop, State.stopStreams_numericsRev, State.contributeFault_numericsRev]
@[simp] theorem State.faultStop_fwRev (s : State) (c : Ctx) (k : StopCause) : (s.faultStop c k).fwRev = s.fwRev := by simp only [State.faultStop, State.stopStreams_fwRev, State.contributeFault_fwRev]
@[simp] theorem State.faultStop_dieMask (s : State) (c : Ctx) (k : StopCause) : (s.faultStop c k).dieMask = s.dieMask := by simp only [State.faultStop, State.stopStreams_dieMask, State.contributeFault_dieMask]
@[simp] theorem State.faultStop_portMask (s : State) (c : Ctx) (k : StopCause) : (s.faultStop c k).portMask = s.portMask := by simp only [State.faultStop, State.stopStreams_portMask, State.contributeFault_portMask]
@[simp] theorem State.faultStop_tableGen (s : State) (c : Ctx) (k : StopCause) : (s.faultStop c k).tableGen = s.tableGen := by simp only [State.faultStop, State.stopStreams_tableGen, State.contributeFault_tableGen]
@[simp] theorem State.faultStop_mailboxes (s : State) (c : Ctx) (k : StopCause) : (s.faultStop c k).mailboxes = s.mailboxes := by simp only [State.faultStop, State.stopStreams_mailboxes, State.contributeFault_mailboxes]
@[simp] theorem State.faultStop_links (s : State) (c : Ctx) (k : StopCause) : (s.faultStop c k).links = s.links := by simp only [State.faultStop, State.stopStreams_links, State.contributeFault_links]
@[simp] theorem State.faultStop_fabric (s : State) (c : Ctx) (k : StopCause) : (s.faultStop c k).fabric = s.fabric := by simp only [State.faultStop, State.stopStreams_fabric, State.contributeFault_fabric]
@[simp] theorem State.faultStop_host (s : State) (c : Ctx) (k : StopCause) : (s.faultStop c k).host = s.host := by simp only [State.faultStop, State.stopStreams_host, State.contributeFault_host]
@[simp] theorem State.faultStop_ledger (s : State) (c : Ctx) (k : StopCause) : (s.faultStop c k).ledger = s.ledger := by simp only [State.faultStop, State.stopStreams_ledger, State.contributeFault_ledger]
@[simp] theorem State.faultStop_flash (s : State) (c : Ctx) (k : StopCause) : (s.faultStop c k).flash = s.flash := by simp only [State.faultStop, State.stopStreams_flash, State.contributeFault_flash]
@[simp] theorem State.faultStop_fuses (s : State) (c : Ctx) (k : StopCause) : (s.faultStop c k).fuses = s.fuses := by simp only [State.faultStop, State.stopStreams_fuses, State.contributeFault_fuses]
@[simp] theorem State.faultStop_bootSt (s : State) (c : Ctx) (k : StopCause) : (s.faultStop c k).bootSt = s.bootSt := by simp only [State.faultStop, State.stopStreams_bootSt, State.contributeFault_bootSt]
@[simp] theorem State.faultStop_power (s : State) (c : Ctx) (k : StopCause) : (s.faultStop c k).power = s.power := by simp only [State.faultStop, State.stopStreams_power, State.contributeFault_power]

@[simp] theorem State.raise_pending (s : State) (v : Nat) : (s.raise v).pending = s.pending := rfl
@[simp] theorem State.raise_freeCtr (s : State) (v : Nat) : (s.raise v).freeCtr = s.freeCtr := rfl
@[simp] theorem State.raise_now (s : State) (v : Nat) : (s.raise v).now = s.now := rfl
@[simp] theorem State.raise_stack (s : State) (v : Nat) : (s.raise v).stack = s.stack := rfl
@[simp] theorem State.raise_stackPoison (s : State) (v : Nat) : (s.raise v).stackPoison = s.stackPoison := rfl
@[simp] theorem State.raise_scratch (s : State) (v : Nat) : (s.raise v).scratch = s.scratch := rfl
@[simp] theorem State.raise_scratchPoison (s : State) (v : Nat) : (s.raise v).scratchPoison = s.scratchPoison := rfl
@[simp] theorem State.raise_tags (s : State) (v : Nat) : (s.raise v).tags = s.tags := rfl
@[simp] theorem State.raise_hostMem (s : State) (v : Nat) : (s.raise v).hostMem = s.hostMem := rfl
@[simp] theorem State.raise_hostPoison (s : State) (v : Nat) : (s.raise v).hostPoison = s.hostPoison := rfl
@[simp] theorem State.raise_sems (s : State) (v : Nat) : (s.raise v).sems = s.sems := rfl
@[simp] theorem State.raise_program (s : State) (v : Nat) : (s.raise v).program = s.program := rfl
@[simp] theorem State.raise_numericsRev (s : State) (v : Nat) : (s.raise v).numericsRev = s.numericsRev := rfl
@[simp] theorem State.raise_fwRev (s : State) (v : Nat) : (s.raise v).fwRev = s.fwRev := rfl
@[simp] theorem State.raise_dieMask (s : State) (v : Nat) : (s.raise v).dieMask = s.dieMask := rfl
@[simp] theorem State.raise_portMask (s : State) (v : Nat) : (s.raise v).portMask = s.portMask := rfl
@[simp] theorem State.raise_tableGen (s : State) (v : Nat) : (s.raise v).tableGen = s.tableGen := rfl
@[simp] theorem State.raise_dies (s : State) (v : Nat) : (s.raise v).dies = s.dies := rfl
@[simp] theorem State.raise_ctxs (s : State) (v : Nat) : (s.raise v).ctxs = s.ctxs := rfl
@[simp] theorem State.raise_mailboxes (s : State) (v : Nat) : (s.raise v).mailboxes = s.mailboxes := rfl
@[simp] theorem State.raise_links (s : State) (v : Nat) : (s.raise v).links = s.links := rfl
@[simp] theorem State.raise_fabric (s : State) (v : Nat) : (s.raise v).fabric = s.fabric := rfl
@[simp] theorem State.raise_ledger (s : State) (v : Nat) : (s.raise v).ledger = s.ledger := rfl
@[simp] theorem State.raise_flash (s : State) (v : Nat) : (s.raise v).flash = s.flash := rfl
@[simp] theorem State.raise_fuses (s : State) (v : Nat) : (s.raise v).fuses = s.fuses := rfl
@[simp] theorem State.raise_bootSt (s : State) (v : Nat) : (s.raise v).bootSt = s.bootSt := rfl
@[simp] theorem State.raise_power (s : State) (v : Nat) : (s.raise v).power = s.power := rfl

/-! ### Accessors after an update -/

@[simp] theorem State.die_updDie (s : State) (d e : Die) (f : DieSt → DieSt) :
    (s.updDie d f).die e = if d = e then f (s.die d) else s.die e := by
  simp [State.die, State.updDie, Vector.getElem_set, Fin.ext_iff]

@[simp] theorem State.die_updDies (s : State) (e : Die) (f : Die → DieSt → DieSt) : (s.updDies f).die e = f e (s.die e) := by
  simp [State.die, State.updDies]

@[simp] theorem State.ctx_updCtx (s : State) (c e : Ctx) (f : CtxSt → CtxSt) :
    (s.updCtx c f).ctx e = if c = e then (s.ctx c).map f else s.ctx e := by
  simp [State.ctx, State.updCtx, Vector.getElem_set, Fin.ext_iff]

@[simp] theorem State.ctx_setCtx (s : State) (c e : Ctx) (x : Option CtxSt) :
    (s.setCtx c x).ctx e = if c = e then x else s.ctx e := by
  simp [State.ctx, State.setCtx, Vector.getElem_set, Fin.ext_iff]

@[simp] theorem State.ctx_updStream (s : State) (d : Die) (c e : Ctx) (f : Stream → Stream) :
    (s.updStream d c f).ctx e = if c = e then (s.ctx c).map (·.updStream d f) else s.ctx e := State.ctx_updCtx ..

@[simp] theorem State.mbx_updMbx (s : State) (m n : Mbx) (f : MbxSt → MbxSt) :
    (s.updMbx m f).mbx n = if m = n then f (s.mbx m) else s.mbx n := by
  simp [State.mbx, State.updMbx, Vector.getElem_set, Fin.ext_iff]

@[simp] theorem State.link_updLink (s : State) (l k : Link) (f : LinkSt → LinkSt) :
    (s.updLink l f).link k = if l = k then f (s.link l) else s.link k := by
  simp [State.link, State.updLink, Vector.getElem_set, Fin.ext_iff]

@[simp] theorem CtxSt.stream_updStream (x : CtxSt) (d e : Die) (f : Stream → Stream) :
    (x.updStream d f).stream e = if d = e then f (x.stream d) else x.stream e := by
  simp [CtxSt.stream, CtxSt.updStream, Vector.getElem_set, Fin.ext_iff]

@[simp] theorem CtxSt.stream_updStreams (x : CtxSt) (e : Die) (f : Die → Stream → Stream) :
    (x.updStreams f).stream e = f e (x.stream e) := by
  simp [CtxSt.stream, CtxSt.updStreams]

@[simp] theorem State.ctx_updDie (s : State) (d : Die) (f : DieSt → DieSt) (i : Ctx) : (s.updDie d f).ctx i = s.ctx i := by simp only [State.ctx, State.updDie_ctxs]
@[simp] theorem State.mbx_updDie (s : State) (d : Die) (f : DieSt → DieSt) (i : Mbx) : (s.updDie d f).mbx i = s.mbx i := by simp only [State.mbx, State.updDie_mailboxes]
@[simp] theorem State.link_updDie (s : State) (d : Die) (f : DieSt → DieSt) (i : Link) : (s.updDie d f).link i = s.link i := by simp only [State.link, State.updDie_links]
@[simp] theorem State.ctx_updDies (s : State) (f : Die → DieSt → DieSt) (i : Ctx) : (s.updDies f).ctx i = s.ctx i := by simp only [State.ctx, State.updDies_ctxs]
@[simp] theorem State.mbx_updDies (s : State) (f : Die → DieSt → DieSt) (i : Mbx) : (s.updDies f).mbx i = s.mbx i := by simp only [State.mbx, State.updDies_mailboxes]
@[simp] theorem State.link_updDies (s : State) (f : Die → DieSt → DieSt) (i : Link) : (s.updDies f).link i = s.link i := by simp only [State.link, State.updDies_links]
@[simp] theorem State.die_updCtx (s : State) (c : Ctx) (f : CtxSt → CtxSt) (i : Die) : (s.updCtx c f).die i = s.die i := by simp only [State.die, State.updCtx_dies]
@[simp] theorem State.mbx_updCtx (s : State) (c : Ctx) (f : CtxSt → CtxSt) (i : Mbx) : (s.updCtx c f).mbx i = s.mbx i := by simp only [State.mbx, State.updCtx_mailboxes]
@[simp] theorem State.link_updCtx (s : State) (c : Ctx) (f : CtxSt → CtxSt) (i : Link) : (s.updCtx c f).link i = s.link i := by simp only [State.link, State.updCtx_links]
@[simp] theorem State.die_setCtx (s : State) (c : Ctx) (x : Option CtxSt) (i : Die) : (s.setCtx c x).die i = s.die i := by simp only [State.die, State.setCtx_dies]
@[simp] theorem State.mbx_setCtx (s : State) (c : Ctx) (x : Option CtxSt) (i : Mbx) : (s.setCtx c x).mbx i = s.mbx i := by simp only [State.mbx, State.setCtx_mailboxes]
@[simp] theorem State.link_setCtx (s : State) (c : Ctx) (x : Option CtxSt) (i : Link) : (s.setCtx c x).link i = s.link i := by simp only [State.link, State.setCtx_links]
@[simp] theorem State.die_updStream (s : State) (d : Die) (c : Ctx) (f : Stream → Stream) (i : Die) : (s.updStream d c f).die i = s.die i := by simp only [State.die, State.updStream_dies]
@[simp] theorem State.mbx_updStream (s : State) (d : Die) (c : Ctx) (f : Stream → Stream) (i : Mbx) : (s.updStream d c f).mbx i = s.mbx i := by simp only [State.mbx, State.updStream_mailboxes]
@[simp] theorem State.link_updStream (s : State) (d : Die) (c : Ctx) (f : Stream → Stream) (i : Link) : (s.updStream d c f).link i = s.link i := by simp only [State.link, State.updStream_links]
@[simp] theorem State.die_updMbx (s : State) (m : Mbx) (f : MbxSt → MbxSt) (i : Die) : (s.updMbx m f).die i = s.die i := by simp only [State.die, State.updMbx_dies]
@[simp] theorem State.ctx_updMbx (s : State) (m : Mbx) (f : MbxSt → MbxSt) (i : Ctx) : (s.updMbx m f).ctx i = s.ctx i := by simp only [State.ctx, State.updMbx_ctxs]
@[simp] theorem State.link_updMbx (s : State) (m : Mbx) (f : MbxSt → MbxSt) (i : Link) : (s.updMbx m f).link i = s.link i := by simp only [State.link, State.updMbx_links]
@[simp] theorem State.die_updLink (s : State) (l : Link) (f : LinkSt → LinkSt) (i : Die) : (s.updLink l f).die i = s.die i := by simp only [State.die, State.updLink_dies]
@[simp] theorem State.ctx_updLink (s : State) (l : Link) (f : LinkSt → LinkSt) (i : Ctx) : (s.updLink l f).ctx i = s.ctx i := by simp only [State.ctx, State.updLink_ctxs]
@[simp] theorem State.mbx_updLink (s : State) (l : Link) (f : LinkSt → LinkSt) (i : Mbx) : (s.updLink l f).mbx i = s.mbx i := by simp only [State.mbx, State.updLink_mailboxes]
@[simp] theorem State.die_setPower (s : State) (f : PowerSt → PowerSt) (i : Die) : (s.setPower f).die i = s.die i := by simp only [State.die, State.setPower_dies]
@[simp] theorem State.ctx_setPower (s : State) (f : PowerSt → PowerSt) (i : Ctx) : (s.setPower f).ctx i = s.ctx i := by simp only [State.ctx, State.setPower_ctxs]
@[simp] theorem State.mbx_setPower (s : State) (f : PowerSt → PowerSt) (i : Mbx) : (s.setPower f).mbx i = s.mbx i := by simp only [State.mbx, State.setPower_mailboxes]
@[simp] theorem State.link_setPower (s : State) (f : PowerSt → PowerSt) (i : Link) : (s.setPower f).link i = s.link i := by simp only [State.link, State.setPower_links]
@[simp] theorem State.ctx_count (s : State) (d : Die) (e q : Nat) (c : Option Nat) (n : Nat) (i : Ctx) : (s.count d e q c n).ctx i = s.ctx i := by simp only [State.ctx, State.count_ctxs]
@[simp] theorem State.mbx_count (s : State) (d : Die) (e q : Nat) (c : Option Nat) (n : Nat) (i : Mbx) : (s.count d e q c n).mbx i = s.mbx i := by simp only [State.mbx, State.count_mailboxes]
@[simp] theorem State.link_count (s : State) (d : Die) (e q : Nat) (c : Option Nat) (n : Nat) (i : Link) : (s.count d e q c n).link i = s.link i := by simp only [State.link, State.count_links]
@[simp] theorem State.ctx_measure (s : State) (d : Die) (e q : Nat) (c : Option Nat) (n : Nat) (i : Ctx) : (s.measure d e q c n).ctx i = s.ctx i := by simp only [State.ctx, State.measure_ctxs]
@[simp] theorem State.mbx_measure (s : State) (d : Die) (e q : Nat) (c : Option Nat) (n : Nat) (i : Mbx) : (s.measure d e q c n).mbx i = s.mbx i := by simp only [State.mbx, State.measure_mailboxes]
@[simp] theorem State.link_measure (s : State) (d : Die) (e q : Nat) (c : Option Nat) (n : Nat) (i : Link) : (s.measure d e q c n).link i = s.link i := by simp only [State.link, State.measure_links]
@[simp] theorem State.die_orVerdict (s : State) (c : Ctx) (v : BitVec 64) (i : Die) : (s.orVerdict c v).die i = s.die i := by simp only [State.die, State.orVerdict_dies]
@[simp] theorem State.mbx_orVerdict (s : State) (c : Ctx) (v : BitVec 64) (i : Mbx) : (s.orVerdict c v).mbx i = s.mbx i := by simp only [State.mbx, State.orVerdict_mailboxes]
@[simp] theorem State.link_orVerdict (s : State) (c : Ctx) (v : BitVec 64) (i : Link) : (s.orVerdict c v).link i = s.link i := by simp only [State.link, State.orVerdict_links]
@[simp] theorem State.die_contributeFault (s : State) (c : Ctx) (i : Die) : (s.contributeFault c).die i = s.die i := by simp only [State.die, State.contributeFault_dies]
@[simp] theorem State.mbx_contributeFault (s : State) (c : Ctx) (i : Mbx) : (s.contributeFault c).mbx i = s.mbx i := by simp only [State.mbx, State.contributeFault_mailboxes]
@[simp] theorem State.link_contributeFault (s : State) (c : Ctx) (i : Link) : (s.contributeFault c).link i = s.link i := by simp only [State.link, State.contributeFault_links]
@[simp] theorem State.mbx_stopStreams (s : State) (c : Ctx) (k : StopCause) (i : Mbx) : (s.stopStreams c k).mbx i = s.mbx i := by simp only [State.mbx, State.stopStreams_mailboxes]
@[simp] theorem State.link_stopStreams (s : State) (c : Ctx) (k : StopCause) (i : Link) : (s.stopStreams c k).link i = s.link i := by simp only [State.link, State.stopStreams_links]
@[simp] theorem State.mbx_faultStop (s : State) (c : Ctx) (k : StopCause) (i : Mbx) : (s.faultStop c k).mbx i = s.mbx i := by simp only [State.mbx, State.faultStop_mailboxes]
@[simp] theorem State.link_faultStop (s : State) (c : Ctx) (k : StopCause) (i : Link) : (s.faultStop c k).link i = s.link i := by simp only [State.link, State.faultStop_links]
@[simp] theorem State.die_raise (s : State) (v : Nat) (i : Die) : (s.raise v).die i = s.die i := by simp only [State.die, State.raise_dies]
@[simp] theorem State.ctx_raise (s : State) (v : Nat) (i : Ctx) : (s.raise v).ctx i = s.ctx i := by simp only [State.ctx, State.raise_ctxs]
@[simp] theorem State.mbx_raise (s : State) (v : Nat) (i : Mbx) : (s.raise v).mbx i = s.mbx i := by simp only [State.mbx, State.raise_mailboxes]
@[simp] theorem State.link_raise (s : State) (v : Nat) (i : Link) : (s.raise v).link i = s.link i := by simp only [State.link, State.raise_links]

end Sys2Proof.Machine
end

