-- ==== Sys2Proof/Laws/Issue.lean ====
section
/-! SUPPORT. When a word issues, and how the engines end: the lemmas that the statements about instructions rest on. -/
namespace Sys2Proof.Machine

/-- A word whose conditions all hold issues (01 R12, R13, R16). -/
theorem State.tryIssue_go {s : State} {d : Die} {c : Ctx} {w : IWord} {cls op : Nat} {ok : CtxSt → Stream → Bool} {x : CtxSt}
    (h : Issues s d c w cls op ok x) : s.tryIssue d c w cls op ok = .go (s.afterIssue d c cls x) (x.stream d).pc := by
  have hb : (!(x.stream d).single && (s.die d).tapSide.breaks.any (fun b => b.2.1 = c.val && b.2.2 = (x.stream d).pc)) = false := by
    rcases h.noBreak with h | h <;> simp [h]
  have hl : (headerOk x w cls op && ((x.stream d).pair.isNone || (cls = 2 && op = 1)) && ok x (x.stream d)) = true := by
    simp only [h.header, h.legal, Bool.true_and, Bool.and_true]
    rcases h.pair with h | h <;> simp [h]
  have hs : (bit w 12 && !satisfies (s.sem d c (fld w 23 16)) (BitVec.ofNat 32 (fld w 63 32))) = false := by
    cases hb : bit w 12
    · rfl
    · simp [h.waitOver hb]
  have ho : otherRow w cls op = false := by
    have hh := h.header
    simp only [headerOk, Bool.and_eq_true, decide_eq_true_eq] at hh
    simp [otherRow, hh.1.1.1.1, hh.1.1.1.2]
  simp only [State.tryIssue, h.context, h.launched, h.running, h.atWord, h.free, hb, hl, hs, ho, State.afterIssue]
  simp

/-- Nothing that an instruction depends on mismatches for good. -/
theorem physHit_sound {x : Phys} {unit : Nat} (hx : soundFor x unit) : physHit x unit = none := by
  have h1 : ¬ 2 ≤ x.issue := by have := hx.issue; omega
  have h2 := hx.mismatch
  unfold physHit
  cases hr : residueChecked unit x <;> simp only [hr, reduceIte, Bool.false_eq_true, if_false, if_true] at h2 ⊢
  · rw [if_neg h1, if_neg (by omega)]
  · rw [if_neg h1, if_neg (by omega)]

/-- The body alone runs, with nothing added at its end. -/
theorem runEngine_body {x : Phys} {unit : Nat} {body a b : Exec Unit} (hx : soundFor x unit) :
    (do body; if 2 ≤ x.issue then a else if (physHit x unit).isSome then b else pure () : Exec Unit) = body := by
  have h1 : ¬ 2 ≤ x.issue := by have := hx.issue; omega
  rw [physHit_sound hx]
  simp only [h1, if_false, Option.isSome_none, Bool.false_eq_true]
  simp

/-- A body that meets no stopping fault finishes its instruction. -/
theorem State.runEngine_ok {s : State} {d : Die} {c : Ctx} {w : IWord} {addr unit inst : Nat} {x : Phys} {body : Exec Unit} {r : Run}
    (hx : soundFor x unit) (h : body.run (s.engineStart d c w addr unit inst x) = .ok ((), r)) :
    s.runEngine d c w addr unit inst x body = r.finish := by
  simp only [State.engineStart] at h
  simp only [State.runEngine, hx.shared, hx.own, Bool.false_eq_true, if_false]
  rw [runEngine_body hx, physHit_sound hx, h]

/-- A body that meets one stops the context, and nothing of it stands. -/
theorem State.runEngine_err {s : State} {d : Die} {c : Ctx} {w : IWord} {addr unit inst : Nat} {x : Phys} {body : Exec Unit} {f : Trap}
    (hx : soundFor x unit) (h : body.run (s.engineStart d c w addr unit inst x) = .error f) :
    s.runEngine d c w addr unit inst x body = (s.engineStart d c w addr unit inst x).s.stopFault d c addr f.info f.cause := by
  simp only [State.engineStart] at h ⊢
  simp only [State.runEngine, hx.shared, hx.own, Bool.false_eq_true, if_false]
  rw [runEngine_body hx, physHit_sound hx, h]
  rfl

/-- A mailbox's command runs its row's body and completes with the body's reply (15 R371). -/
theorem suphor_runs {s : State} {m : Mbx} {op : Nat} {w : CmdWord} {also : CmdWord → Bool} {body : CmdWord → State → Reply × State}
    (h : Runs s m op w) (ha : also w = true) : suphor m op also body s = .next ((body w s).2.finishCommand m w (body w s).1) := by
  obtain ⟨h1, h2, h3⟩ := h
  simp [suphor, h1, h2, h3, ha]

/-- The target of a command that its context exists for. -/
theorem withCtx_some {s : State} {m : Mbx} {w : CmdWord} {x : CtxSt} {k : Ctx → CtxSt → Reply × State}
    (h : s.ctx (cmdTarget m w) = some x) : withCtx m w s k = k (cmdTarget m w) x := by
  simp [withCtx, h]

/-- A data buffer of the right length, read whole. -/
theorem dataIn_buffer {s : State} {w : CmdWord} {n : Nat} {bs : Bytes} {k : Bytes → Reply × State} (h : Buffer w n)
    (hl : bs.length = n) : dataIn w n (some bs) s k = k bs := by
  obtain ⟨h1, h2, h3⟩ := h
  have hp : padTo n bs = bs := by simp [padTo, slice, ← hl]
  simp [dataIn, cmdBuffer, h1, h2, h3, hp]

end Sys2Proof.Machine
end

