-- ==== Sys2Proof/Laws/Keeps.lean ====
section
/-! SUPPORT. What no operation of the model breaks: the queue stands, fuses only blow, the lifetime tier only grows, and every
memory keeps its canonical form. One lemma an operation follows in the other Keeps files. -/
namespace Sys2Proof.Machine

/-- Fuses only blow (16 Table 16.1, R392; 08 R196). -/
structure Fuses.Grows (f g : Fuses) : Prop where
  deviceId : g.deviceId = f.deviceId
  romDigest : g.romDigest = f.romDigest
  fwKeyHash : g.fwKeyHash = f.fwKeyHash
  calKeyHash : g.calKeyHash = f.calKeyHash
  serviceKeyHash : g.serviceKeyHash = f.serviceKeyHash
  secVersion : f.secVersion ≤ g.secVersion
  repairs : f.repairs <+: g.repairs

theorem Fuses.Grows.refl (f : Fuses) : f.Grows f := ⟨rfl, rfl, rfl, rfl, rfl, Nat.le_refl _, List.prefix_refl _⟩

theorem Fuses.Grows.trans {f g h : Fuses} (a : f.Grows g) (b : g.Grows h) : f.Grows h :=
  ⟨b.1.trans a.1, b.2.trans a.2, b.3.trans a.3, b.4.trans a.4, b.5.trans a.5, Nat.le_trans a.6 b.6, List.IsPrefix.trans a.7 b.7⟩

/-- The part of the canonical form that one memory has. -/
abbrev Cells (m : List Host.Cell) : Prop := SMap.wf 0 m = true

/-- t comes from s by operations of the model. -/
structure State.Keeps (s t : State) : Prop where
  pending : t.pending = s.pending
  fuses : s.fuses.Grows t.fuses
  lifetime : s.flash.lifetime <+: t.flash.lifetime
  memory : s.memoryWf → t.memoryWf

theorem State.Keeps.refl (s : State) : s.Keeps s := ⟨rfl, .refl _, List.prefix_refl _, id⟩

theorem State.Keeps.trans {s t u : State} (a : s.Keeps t) (b : t.Keeps u) : s.Keeps u :=
  ⟨b.1.trans a.1, a.2.trans b.2, List.IsPrefix.trans a.3 b.3, fun h => b.4 (a.4 h)⟩

variable {z : State}

/-- An update of the fields that nothing here speaks of. -/
theorem State.Keeps.mk_iff {t : State} {a1 a2 a3 a4 a5 a6 a7 a8 a9 a10 a11 a12 a13 a14 a15 a16 a17 a18 a19 a20} :
    z.Keeps (State.mk t.pending a1 a2 t.stack a3 t.scratch a4 a5 t.hostMem a6 t.sems t.program a7 a8 a9 a10 a11 a12 a13 a14 a15
      a16 a17 a18 t.flash t.fuses a19 a20) ↔ z.Keeps t :=
  ⟨fun h => ⟨h.1, h.2, h.3, h.4⟩, fun h => ⟨h.1, h.2, h.3, h.4⟩⟩

/-- An update of the flash that leaves the lifetime tier. -/
theorem State.Keeps.flash {t u : State} (h : z.Keeps t) (e1 : u.pending = t.pending) (e2 : u.fuses = t.fuses)
    (e3 : t.flash.lifetime <+: u.flash.lifetime) (e4 : t.memoryWf → u.memoryWf) : z.Keeps u :=
  ⟨e1.trans h.1, e2 ▸ h.2, List.IsPrefix.trans h.3 e3, fun w => e4 (h.4 w)⟩

/-- The same with a flash that leaves the lifetime tier. -/
theorem State.Keeps.mk_flash {t : State} {f : Flash} {a1 a2 a3 a4 a5 a6 a7 a8 a9 a10 a11 a12 a13 a14 a15 a16 a17 a18 a19 a20}
    (hf : f.lifetime = t.flash.lifetime) :
    z.Keeps (State.mk t.pending a1 a2 t.stack a3 t.scratch a4 a5 t.hostMem a6 t.sems t.program a7 a8 a9 a10 a11 a12 a13 a14 a15
      a16 a17 a18 f t.fuses a19 a20) ↔ z.Keeps t :=
  ⟨fun h => ⟨h.1, h.2, hf ▸ h.3, h.4⟩, fun h => ⟨h.1, h.2, hf ▸ h.3, h.4⟩⟩

/-- A memory that keeps its form may change. -/
theorem State.Keeps.mem {t u : State} (h : z.Keeps t) (e1 : u.pending = t.pending) (e2 : u.fuses = t.fuses) (e3 : u.flash = t.flash)
    (e4 : t.memoryWf → u.memoryWf) : z.Keeps u :=
  h.flash e1 e2 (e3 ▸ List.prefix_refl _) e4

theorem State.Keeps.letH {x : State} {P : Prop} (hv : z.Keeps x) (hP : z.Keeps x → P) : P := hP hv

theorem State.Keeps.letF {α : Type} {x : α → State} {P : Prop} (hv : ∀ y, z.Keeps (x y)) (hP : (∀ y, z.Keeps (x y)) → P) : P := hP hv

theorem State.Keeps.foldlSnd {β γ : Type} {f : γ × State → β → γ × State} {l : List β} {p : γ × State} (h : z.Keeps p.2)
    (hf : ∀ (q : γ × State) (e : β), z.Keeps q.2 → z.Keeps (f q e).2) : z.Keeps (l.foldl f p).2 := by
  induction l generalizing p with
  | nil => exact h
  | cons a l ih => exact ih (hf p a h)

theorem State.Keeps.of_eq {α : Type} {p : α × State} {r : α} {u : State} (h : z.Keeps p.2) (e : p = (r, u)) : z.Keeps u := by
  rw [e] at h; exact h

theorem State.Keeps.of_eq2 {α β : Type} {p : α × β × State} {r : α} {q : β} {u : State} (h : z.Keeps p.2.2) (e : p = (r, q, u)) :
    z.Keeps u := by
  rw [e] at h; exact h

theorem State.Keeps.foldl {β : Type} {f : State → β → State} {l : List β} {t : State} (h : z.Keeps t)
    (hf : ∀ (u : State) (e : β), z.Keeps u → z.Keeps (f u e)) : z.Keeps (l.foldl f t) := by
  induction l generalizing t with
  | nil => exact h
  | cons a l ih => exact ih (hf t a h)

theorem State.Keeps.foldlProd {β γ : Type} {f : State × γ → β → State × γ} {l : List β} {t : State} {c : γ} (h : z.Keeps t)
    (hf : ∀ (u : State × γ) (e : β), z.Keeps u.1 → z.Keeps (f u e).1) : z.Keeps (l.foldl f (t, c)).1 := by
  suffices ∀ p : State × γ, z.Keeps p.1 → z.Keeps (l.foldl f p).1 from this (t, c) h
  intro p hp
  induction l generalizing p with
  | nil => exact hp
  | cons a l ih => exact ih _ (hf p a hp)

/-- A next state comes from z by operations of the model. -/
structure OutKeeps (z : State) (o : Out) : Prop where
  elim : ∀ t, o = .next t → z.Keeps t

theorem OutKeeps.next {t : State} (h : z.Keeps t) : OutKeeps z (.next t) := ⟨fun _ e => by cases e; exact h⟩

theorem OutKeeps.of_eq {o : Out} {t : State} (h : OutKeeps z o) (e : o = .next t) : z.Keeps t := h.elim t e

/-- The same of the collective unit's answer. -/
structure AnswerKeeps (z : State) (a : CollAnswer) : Prop where
  taken : ∀ t, a = .taken t → z.Keeps t
  refused : ∀ n t, a = .refused n t → z.Keeps t

theorem AnswerKeeps.of_taken {t : State} (h : z.Keeps t) : AnswerKeeps z (.taken t) :=
  ⟨fun _ e => (by cases e; exact h), fun _ _ e => (by cases e)⟩

theorem AnswerKeeps.of_refused {t : State} {n : Nat} (h : z.Keeps t) : AnswerKeeps z (.refused n t) :=
  ⟨fun _ e => (by cases e), fun _ _ e => (by cases e; exact h)⟩

theorem AnswerKeeps.taken_eq {a : CollAnswer} {t : State} (h : AnswerKeeps z a) (e : a = .taken t) : z.Keeps t := h.1 t e

theorem AnswerKeeps.refused_eq {a : CollAnswer} {n : Nat} {t : State} (h : AnswerKeeps z a) (e : a = .refused n t) : z.Keeps t := h.2 n t e

/-- The body of an instruction leaves what Keeps says, where it meets no fault that stops the context. -/
structure ExecKeeps {α : Type} (m : Exec α) : Prop where
  elim : ∀ (z : State) (r : Run) (a : α) (r' : Run), z.Keeps r.s → m.run r = .ok (a, r') → z.Keeps r'.s

theorem ExecKeeps.pure {α : Type} (a : α) : ExecKeeps (pure a : Exec α) := by
  constructor; intro z r b r' h e; cases e; exact h

theorem ExecKeeps.bind {α β : Type} {m : Exec α} {f : α → Exec β} (hm : ExecKeeps m) (hf : ∀ a, ExecKeeps (f a)) :
    ExecKeeps (m >>= f) := by
  constructor; intro z r b r' h e
  rw [StateT.run_bind] at e
  cases hr : m.run r with
  | error x => rw [hr] at e; cases e
  | ok p => rw [hr] at e; exact (hf p.1).elim z p.2 b r' (hm.elim z r p.1 p.2 h hr) e

theorem ExecKeeps.throw {α : Type} (x : Trap) : ExecKeeps (throw x : Exec α) := by
  constructor; intro z r b r' h e; cases e

theorem ExecKeeps.trap {α : Type} (f : FaultInfo) : ExecKeeps (trap f : Exec α) := .throw _

theorem ExecKeeps.peek {α : Type} {m : Exec α} : ExecKeeps (peek m) := by
  constructor; intro z r b r' h e
  change (match m r with | .ok (v, _) => (Except.ok (some v, r) : Except Trap _) | .error _ => .ok (none, r)) = _ at e
  split at e <;> (cases e; exact h)

theorem ExecKeeps.get : ExecKeeps (get : Exec Run) := by
  constructor; intro z r b r' h e; cases e; exact h

theorem ExecKeeps.getS : ExecKeeps getS := by
  constructor; intro z r b r' h e; cases e; exact h

theorem ExecKeeps.modify {f : Run → Run} (hf : ∀ (z : State) (r : Run), z.Keeps r.s → z.Keeps (f r).s) : ExecKeeps (modify f : Exec Unit) := by
  constructor; intro z r b r' h e; cases e; exact hf z r h

theorem ExecKeeps.modS {f : State → State} (hf : ∀ z s : State, z.Keeps s → z.Keeps (f s)) : ExecKeeps (modS f) :=
  .modify fun z r h => hf z r.s h

theorem ExecKeeps.map {α β : Type} {m : Exec α} {f : α → β} (hm : ExecKeeps m) : ExecKeeps (f <$> m) := by
  rw [map_eq_pure_bind]; exact hm.bind fun a => .pure _

theorem ExecKeeps.forM {β : Type} {l : List β} {f : β → Exec PUnit} (hf : ∀ a, ExecKeeps (f a)) : ExecKeeps (l.forM f) := by
  induction l with
  | nil => exact .pure _
  | cons a l ih => exact ExecKeeps.bind (hf a) fun _ => ih

theorem ExecKeeps.mapM {α β : Type} {l : List α} {f : α → Exec β} (hf : ∀ a, ExecKeeps (f a)) : ExecKeeps (l.mapM f) := by
  induction l with
  | nil => rw [List.mapM_nil]; exact .pure _
  | cons a l ih => rw [List.mapM_cons]; exact (hf a).bind fun _ => ih.bind fun _ => .pure _

theorem ExecKeeps.foldlM {α β : Type} {l : List α} {f : β → α → Exec β} {b : β} (hf : ∀ b a, ExecKeeps (f b a)) :
    ExecKeeps (l.foldlM f b) := by
  induction l generalizing b with
  | nil => exact .pure _
  | cons a l ih => rw [List.foldlM_cons]; exact (hf b a).bind fun _ => ih

theorem ExecKeeps.ite {α : Type} {c : Prop} [Decidable c] {a b : Exec α} (ha : ExecKeeps a) (hb : ExecKeeps b) :
    ExecKeeps (if c then a else b) := by split <;> assumption

theorem ExecKeeps.when {c : Bool} {a : Exec PUnit} (ha : ExecKeeps a) : ExecKeeps (if c then a else Pure.pure PUnit.unit) := by
  cases c
  · exact .pure _
  · exact ha

theorem ExecKeeps.letJ {α β : Type} {x : α → Exec β} {P : Prop} (hv : ∀ y, ExecKeeps (x y)) (hP : (∀ y, ExecKeeps (x y)) → P) : P := hP hv

theorem ExecKeeps.letM {α : Type} {x : Exec α} {P : Prop} (hv : ExecKeeps x) (hP : ExecKeeps x → P) : P := hP hv

theorem State.Keeps.letR {x : Run} {P : Prop} (hv : z.Keeps x.s) (hP : z.Keeps x.s → P) : P := hP hv

theorem ExecKeeps.run {α : Type} {m : Exec α} {r r' : Run} {a : α} (hm : ExecKeeps m) (h : z.Keeps r.s) (e : m.run r = .ok (a, r')) :
    z.Keeps r'.s := hm.elim z r a r' h e

end Sys2Proof.Machine
end

