-- ==== Sys2Proof/Laws/KeepsOps.lean ====
section
/-! SUPPORT. What Machine/Ops.lean keeps: one lemma an operation. -/
namespace Sys2Proof.Machine
set_option linter.all false

variable {z : State}

theorem State.updDie_keeps : ∀ (a0 : State) a1 a2, z.Keeps a0 → z.Keeps (State.updDie a0 a1 a2) := by
  intro a0 a1 a2 h
  unfold State.updDie
  repeat' first
    | with_reducible assumption
    | simp -zeta -zetaDelta only [State.Keeps.mk_iff, State.Keeps.mk_flash]

theorem State.updDies_keeps : ∀ (a0 : State) a1, z.Keeps a0 → z.Keeps (State.updDies a0 a1) := by
  intro a0 a1 h
  exact h.mem (by simp) (by simp) (by simp) (by simp [State.memoryWf])

theorem State.updCtx_keeps : ∀ (a0 : State) a1 a2, z.Keeps a0 → z.Keeps (State.updCtx a0 a1 a2) := by
  intro a0 a1 a2 h
  unfold State.updCtx
  repeat' first
    | with_reducible assumption
    | simp -zeta -zetaDelta only [State.Keeps.mk_iff, State.Keeps.mk_flash]

theorem State.setCtx_keeps : ∀ (a0 : State) a1 a2, z.Keeps a0 → z.Keeps (State.setCtx a0 a1 a2) := by
  intro a0 a1 a2 h
  unfold State.setCtx
  repeat' first
    | with_reducible assumption
    | simp -zeta -zetaDelta only [State.Keeps.mk_iff, State.Keeps.mk_flash]

theorem State.updStream_keeps : ∀ (a0 : State) a1 a2 a3, z.Keeps a0 → z.Keeps (State.updStream a0 a1 a2 a3) := by
  intro a0 a1 a2 a3 h
  unfold State.updStream
  repeat' first
    | with_reducible assumption
    | with_reducible apply State.updCtx_keeps

theorem State.updMbx_keeps : ∀ (a0 : State) a1 a2, z.Keeps a0 → z.Keeps (State.updMbx a0 a1 a2) := by
  intro a0 a1 a2 h
  unfold State.updMbx
  repeat' first
    | with_reducible assumption
    | simp -zeta -zetaDelta only [State.Keeps.mk_iff, State.Keeps.mk_flash]

theorem State.updLink_keeps : ∀ (a0 : State) a1 a2, z.Keeps a0 → z.Keeps (State.updLink a0 a1 a2) := by
  intro a0 a1 a2 h
  unfold State.updLink
  repeat' first
    | with_reducible assumption
    | simp -zeta -zetaDelta only [State.Keeps.mk_iff, State.Keeps.mk_flash]

theorem State.tick_keeps : ∀ (a0 : State), z.Keeps a0 → z.Keeps (State.tick a0) := by
  intro a0 h
  unfold State.tick
  repeat' first
    | with_reducible assumption
    | simp -zeta -zetaDelta only [State.Keeps.mk_iff, State.Keeps.mk_flash]

theorem State.draw_keeps : ∀ (a0 : State), z.Keeps a0 → z.Keeps (State.draw a0).2 := by
  intro a0 h
  unfold State.draw
  repeat' first
    | with_reducible assumption
    | simp -zeta -zetaDelta only [State.Keeps.mk_iff, State.Keeps.mk_flash]

theorem State.putByte_keeps : ∀ (a0 : State) a1 a2, z.Keeps a0 → z.Keeps (State.putByte a0 a1 a2) := by
  intro a0 a1 a2 h
  unfold State.putByte
  split
  · exact h.mem rfl rfl rfl fun w => ⟨w.1, SMap.wf_put w.2.1, w.2.2⟩
  · split
    · exact h
    · exact h.mem rfl rfl rfl fun w => ⟨SMap.wf_put w.1, w.2⟩
  · exact h.mem rfl rfl rfl fun w => ⟨w.1, w.2.1, SMap.wf_put w.2.2.1, w.2.2.2⟩

theorem State.putBytes_keeps : ∀ (a0 : State) a1 a2, z.Keeps a0 → z.Keeps (State.putBytes a0 a1 a2) := by
  intro a0 a1 a2 h
  unfold State.putBytes
  repeat' first
    | with_reducible assumption
    | intro y
    | (extract_lets +onlyGivenNames x
       first
       | (first | refine State.Keeps.letH (z := z) (x := x) ?_ ?_ | refine State.Keeps.letF (z := z) (x := x) ?_ ?_
          unfold x; clear x; rotate_left; clear_value x; intro; rotate_right)
       | clear_value x
       | skip)
    | with_reducible apply State.putByte_keeps
    | with_reducible apply State.Keeps.foldlProd

theorem State.mark_keeps : ∀ (a0 : State) a1 a2, z.Keeps a0 → z.Keeps (State.mark a0 a1 a2) := by
  intro a0 a1 a2 h
  unfold State.mark
  repeat' first
    | with_reducible assumption
    | (extract_lets +onlyGivenNames x
       first
       | (first | refine State.Keeps.letH (z := z) (x := x) ?_ ?_ | refine State.Keeps.letF (z := z) (x := x) ?_ ?_
          unfold x; clear x; rotate_left; clear_value x; intro; rotate_right)
       | clear_value x
       | skip)
    | simp -zeta -zetaDelta only [State.Keeps.mk_iff, State.Keeps.mk_flash]
    | split

theorem State.unmark_keeps : ∀ (a0 : State) a1, z.Keeps a0 → z.Keeps (State.unmark a0 a1) := by
  intro a0 a1 h
  unfold State.unmark
  repeat' first
    | with_reducible assumption
    | simp -zeta -zetaDelta only [State.Keeps.mk_iff, State.Keeps.mk_flash]
    | split

theorem State.touchUnits_keeps : ∀ (a0 : State) a1 a2 a3, z.Keeps a0 → z.Keeps (State.touchUnits a0 a1 a2 a3) := by
  intro a0 a1 a2 a3 h
  unfold State.touchUnits
  repeat' first
    | with_reducible assumption
    | intro y
    | (extract_lets +onlyGivenNames x
       first
       | (first | refine State.Keeps.letH (z := z) (x := x) ?_ ?_ | refine State.Keeps.letF (z := z) (x := x) ?_ ?_
          unfold x; clear x; rotate_left; clear_value x; intro; rotate_right)
       | clear_value x
       | skip)
    | with_reducible apply State.mark_keeps
    | with_reducible apply State.unmark_keeps
    | with_reducible apply State.Keeps.foldl
    | split

theorem State.write_keeps : ∀ (a0 : State) a1 a2 a3, z.Keeps a0 → z.Keeps (State.write a0 a1 a2 a3) := by
  intro a0 a1 a2 a3 h
  unfold State.write
  repeat' first
    | with_reducible assumption
    | (extract_lets +onlyGivenNames x
       first
       | (first | refine State.Keeps.letH (z := z) (x := x) ?_ ?_ | refine State.Keeps.letF (z := z) (x := x) ?_ ?_
          unfold x; clear x; rotate_left; clear_value x; intro; rotate_right)
       | clear_value x
       | skip)
    | with_reducible apply State.touchUnits_keeps
    | with_reducible apply State.putBytes_keeps

theorem State.semSet_keeps : ∀ (a0 : State) a1 a2 a3 a4, z.Keeps a0 → z.Keeps (State.semSet a0 a1 a2 a3 a4) := by
  intro a0 a1 a2 a3 a4 h
  unfold State.semSet
  split
  · split
    · exact h.mem rfl rfl rfl fun w => ⟨w.1, w.2.1, w.2.2.1, SMap.wf_put w.2.2.2.1, w.2.2.2.2⟩
    · exact h
  · exact h

theorem State.semAdd_keeps : ∀ (a0 : State) a1 a2 a3 a4, z.Keeps a0 → z.Keeps (State.semAdd a0 a1 a2 a3 a4) := by
  intro a0 a1 a2 a3 a4 h
  unfold State.semAdd
  repeat' first
    | with_reducible assumption
    | with_reducible apply State.semSet_keeps

theorem State.count_keeps : ∀ (a0 : State) a1 a2 a3 a4 a5, z.Keeps a0 → z.Keeps (State.count a0 a1 a2 a3 a4 a5) := by
  intro a0 a1 a2 a3 a4 a5 h
  unfold State.count
  repeat' first
    | with_reducible assumption
    | with_reducible apply State.updDie_keeps

theorem State.measure_keeps : ∀ (a0 : State) a1 a2 a3 a4 a5, z.Keeps a0 → z.Keeps (State.measure a0 a1 a2 a3 a4 a5) := by
  intro a0 a1 a2 a3 a4 a5 h
  unfold State.measure
  repeat' first
    | with_reducible assumption
    | intro y
    | (extract_lets +onlyGivenNames x
       first
       | (first | refine State.Keeps.letH (z := z) (x := x) ?_ ?_ | refine State.Keeps.letF (z := z) (x := x) ?_ ?_
          unfold x; clear x; rotate_left; clear_value x; intro; rotate_right)
       | clear_value x
       | skip)
    | with_reducible apply State.draw_keeps
    | with_reducible apply State.updDie_keeps
    | with_reducible apply State.Keeps.foldl
    | with_reducible apply State.Keeps.foldlProd
    | with_reducible apply State.Keeps.foldlSnd
    | simp -zeta -zetaDelta only [State.Keeps.mk_iff, State.Keeps.mk_flash]
    | split

theorem State.addUnits_keeps : ∀ (a0 : State) a1 a2 a3 a4, z.Keeps a0 → z.Keeps (State.addUnits a0 a1 a2 a3 a4) := by
  intro a0 a1 a2 a3 a4 h
  unfold State.addUnits
  repeat' first
    | with_reducible assumption
    | intro y
    | (extract_lets +onlyGivenNames x
       first
       | (first | refine State.Keeps.letH (z := z) (x := x) ?_ ?_ | refine State.Keeps.letF (z := z) (x := x) ?_ ?_
          unfold x; clear x; rotate_left; clear_value x; intro; rotate_right)
       | clear_value x
       | skip)
    | with_reducible apply State.updDie_keeps
    | with_reducible apply State.Keeps.foldl
    | with_reducible apply State.Keeps.foldlProd
    | with_reducible apply State.Keeps.foldlSnd
    | simp -zeta -zetaDelta only [State.Keeps.mk_iff, State.Keeps.mk_flash]
    | split

theorem State.makeRec_keeps : ∀ (a0 : State) a1 a2 a3 a4 a5 a6 a7, z.Keeps a0 → z.Keeps (State.makeRec a0 a1 a2 a3 a4 a5 a6 a7).2 := by
  intro a0 a1 a2 a3 a4 a5 a6 a7 h
  unfold State.makeRec
  repeat' first
    | with_reducible assumption
    | (extract_lets +onlyGivenNames x
       first
       | (first | refine State.Keeps.letH (z := z) (x := x) ?_ ?_ | refine State.Keeps.letF (z := z) (x := x) ?_ ?_
          unfold x; clear x; rotate_left; clear_value x; intro; rotate_right)
       | clear_value x
       | skip)
    | with_reducible apply State.draw_keeps
    | with_reducible apply State.updDie_keeps

theorem State.enqueue_keeps : ∀ (a0 : State) a1, z.Keeps a0 → z.Keeps (State.enqueue a0 a1) := by
  intro a0 a1 h
  unfold State.enqueue
  repeat' first
    | with_reducible assumption
    | (extract_lets +onlyGivenNames x
       first
       | (first | refine State.Keeps.letH (z := z) (x := x) ?_ ?_ | refine State.Keeps.letF (z := z) (x := x) ?_ ?_
          unfold x; clear x; rotate_left; clear_value x; intro; rotate_right)
       | clear_value x
       | skip)
    | with_reducible apply State.count_keeps
    | simp -zeta -zetaDelta only [State.Keeps.mk_iff, State.Keeps.mk_flash]
    | split

theorem State.unlessFull_keeps : ∀ (a0 : State) (a1 : State), z.Keeps a0 → z.Keeps a1 → z.Keeps (State.unlessFull a0 a1) := by
  intro a0 a1 h h1
  unfold State.unlessFull
  repeat' first
    | with_reducible assumption
    | intro y
    | (extract_lets +onlyGivenNames x
       first
       | (first | refine State.Keeps.letH (z := z) (x := x) ?_ ?_ | refine State.Keeps.letF (z := z) (x := x) ?_ ?_
          unfold x; clear x; rotate_left; clear_value x; intro; rotate_right)
       | clear_value x
       | skip)
    | with_reducible apply State.Keeps.foldl
    | with_reducible apply State.Keeps.foldlProd
    | with_reducible apply State.Keeps.foldlSnd
    | simp -zeta -zetaDelta only [State.Keeps.mk_iff, State.Keeps.mk_flash]
    | split

theorem background_keeps : ∀ (a0 : State) a1, z.Keeps a0 → OutKeeps z a1 → OutKeeps z (background a0 a1) := by
  intro a0 a1 h ha1
  cases a1 with
  | next t => exact OutKeeps.next (State.unlessFull_keeps _ _ h (ha1.of_eq rfl))
  | fault => exact ha1
  | refused => exact ha1

theorem State.raise_keeps : ∀ (a0 : State) a1, z.Keeps a0 → z.Keeps (State.raise a0 a1) := by
  intro a0 a1 h
  unfold State.raise
  repeat' first
    | with_reducible assumption
    | (extract_lets +onlyGivenNames x
       first
       | (first | refine State.Keeps.letH (z := z) (x := x) ?_ ?_ | refine State.Keeps.letF (z := z) (x := x) ?_ ?_
          unfold x; clear x; rotate_left; clear_value x; intro; rotate_right)
       | clear_value x
       | skip)
    | simp -zeta -zetaDelta only [State.Keeps.mk_iff, State.Keeps.mk_flash]

theorem State.postEvent_keeps : ∀ (a0 : State) a1 a2, z.Keeps a0 → z.Keeps (State.postEvent a0 a1 a2) := by
  intro a0 a1 a2 h
  unfold State.postEvent
  repeat' first
    | with_reducible assumption
    | (extract_lets +onlyGivenNames x
       first
       | (first | refine State.Keeps.letH (z := z) (x := x) ?_ ?_ | refine State.Keeps.letF (z := z) (x := x) ?_ ?_
          unfold x; clear x; rotate_left; clear_value x; intro; rotate_right)
       | clear_value x
       | skip)
    | with_reducible apply State.updMbx_keeps
    | with_reducible apply State.write_keeps
    | with_reducible apply State.raise_keeps
    | split

theorem State.post_keeps : ∀ (a0 : State) a1 a2, z.Keeps a0 → z.Keeps (State.post a0 a1 a2) := by
  intro a0 a1 a2 h
  unfold State.post
  repeat' first
    | with_reducible assumption
    | (extract_lets +onlyGivenNames x
       first
       | (first | refine State.Keeps.letH (z := z) (x := x) ?_ ?_ | refine State.Keeps.letF (z := z) (x := x) ?_ ?_
          unfold x; clear x; rotate_left; clear_value x; intro; rotate_right)
       | clear_value x
       | skip)
    | with_reducible apply State.postEvent_keeps
    | split

theorem State.logWith_keeps : ∀ (a0 : State) a1 a2 a3 a4 a5 a6 a7, z.Keeps a0 → z.Keeps (State.logWith a0 a1 a2 a3 a4 a5 a6 a7) := by
  intro a0 a1 a2 a3 a4 a5 a6 a7 h
  unfold State.logWith
  repeat' first
    | with_reducible assumption
    | (extract_lets +onlyGivenNames x
       first
       | (first | refine State.Keeps.letH (z := z) (x := x) ?_ ?_ | refine State.Keeps.letF (z := z) (x := x) ?_ ?_
          unfold x; clear x; rotate_left; clear_value x; intro; rotate_right)
       | clear_value x
       | skip)
    | with_reducible apply State.makeRec_keeps
    | with_reducible apply State.enqueue_keeps
    | with_reducible apply State.post_keeps
    | simp -zeta -zetaDelta only [State.Keeps.mk_iff, State.Keeps.mk_flash]
    | split

theorem State.log_keeps : ∀ (a0 : State) a1 a2 a3 a4 a5 a6, z.Keeps a0 → z.Keeps (State.log a0 a1 a2 a3 a4 a5 a6) := by
  intro a0 a1 a2 a3 a4 a5 a6 h
  unfold State.log
  repeat' first
    | with_reducible assumption
    | with_reducible apply State.logWith_keeps

theorem State.logDevice_keeps : ∀ (a0 : State) a1 a2 a3 a4 a5, z.Keeps a0 → z.Keeps (State.logDevice a0 a1 a2 a3 a4 a5) := by
  intro a0 a1 a2 a3 a4 a5 h
  unfold State.logDevice
  repeat' first
    | with_reducible assumption
    | with_reducible apply State.logWith_keeps

theorem State.hostEvent_keeps : ∀ (a0 : State) a1 a2 a3, z.Keeps a0 → z.Keeps (State.hostEvent a0 a1 a2 a3) := by
  intro a0 a1 a2 a3 h
  unfold State.hostEvent
  repeat' first
    | with_reducible assumption
    | (extract_lets +onlyGivenNames x
       first
       | (first | refine State.Keeps.letH (z := z) (x := x) ?_ ?_ | refine State.Keeps.letF (z := z) (x := x) ?_ ?_
          unfold x; clear x; rotate_left; clear_value x; intro; rotate_right)
       | clear_value x
       | skip)
    | with_reducible apply State.makeRec_keeps
    | with_reducible apply State.post_keeps

theorem State.geometryChange_keeps : ∀ (a0 : State) a1, z.Keeps a0 → z.Keeps (State.geometryChange a0 a1) := by
  intro a0 a1 h
  unfold State.geometryChange
  repeat' first
    | with_reducible assumption
    | (extract_lets +onlyGivenNames x
       first
       | (first | refine State.Keeps.letH (z := z) (x := x) ?_ ?_ | refine State.Keeps.letF (z := z) (x := x) ?_ ?_
          unfold x; clear x; rotate_left; clear_value x; intro; rotate_right)
       | clear_value x
       | skip)
    | with_reducible apply State.hostEvent_keeps
    | simp -zeta -zetaDelta only [State.Keeps.mk_iff, State.Keeps.mk_flash]

theorem State.stopStreams_keeps : ∀ (a0 : State) a1 a2, z.Keeps a0 → z.Keeps (State.stopStreams a0 a1 a2) := by
  intro a0 a1 a2 h
  unfold State.stopStreams
  repeat' first
    | with_reducible assumption
    | (extract_lets +onlyGivenNames x
       first
       | (first | refine State.Keeps.letH (z := z) (x := x) ?_ ?_ | refine State.Keeps.letF (z := z) (x := x) ?_ ?_
          unfold x; clear x; rotate_left; clear_value x; intro; rotate_right)
       | clear_value x
       | skip)
    | with_reducible apply State.updCtx_keeps
    | with_reducible apply State.updDies_keeps

theorem State.endBackoffs_keeps : ∀ (a0 : State) a1, z.Keeps a0 → z.Keeps (State.endBackoffs a0 a1) := by
  intro a0 a1 h
  unfold State.endBackoffs
  repeat' first
    | with_reducible assumption
    | intro y
    | (extract_lets +onlyGivenNames x
       first
       | (first | refine State.Keeps.letH (z := z) (x := x) ?_ ?_ | refine State.Keeps.letF (z := z) (x := x) ?_ ?_
          unfold x; clear x; rotate_left; clear_value x; intro; rotate_right)
       | clear_value x
       | skip)
    | with_reducible apply State.updDies_keeps
    | with_reducible apply State.Keeps.foldl
    | with_reducible apply State.Keeps.foldlProd
    | with_reducible apply State.Keeps.foldlSnd
    | simp -zeta -zetaDelta only [State.Keeps.mk_iff, State.Keeps.mk_flash]
    | split

theorem State.orVerdict_keeps : ∀ (a0 : State) a1 a2, z.Keeps a0 → z.Keeps (State.orVerdict a0 a1 a2) := by
  intro a0 a1 a2 h
  unfold State.orVerdict
  repeat' first
    | with_reducible assumption
    | with_reducible apply State.updCtx_keeps

theorem State.contributeFault_keeps : ∀ (a0 : State) a1, z.Keeps a0 → z.Keeps (State.contributeFault a0 a1) := by
  intro a0 a1 h
  unfold State.contributeFault
  repeat' first
    | with_reducible assumption
    | intro y
    | (extract_lets +onlyGivenNames x
       first
       | (first | refine State.Keeps.letH (z := z) (x := x) ?_ ?_ | refine State.Keeps.letF (z := z) (x := x) ?_ ?_
          unfold x; clear x; rotate_left; clear_value x; intro; rotate_right)
       | clear_value x
       | skip)
    | with_reducible apply State.updCtx_keeps
    | with_reducible apply State.Keeps.foldl
    | with_reducible apply State.Keeps.foldlProd
    | with_reducible apply State.Keeps.foldlSnd
    | simp -zeta -zetaDelta only [State.Keeps.mk_iff, State.Keeps.mk_flash]
    | split

theorem State.faultStop_keeps : ∀ (a0 : State) a1 a2, z.Keeps a0 → z.Keeps (State.faultStop a0 a1 a2) := by
  intro a0 a1 a2 h
  unfold State.faultStop
  repeat' first
    | with_reducible assumption
    | intro y
    | (extract_lets +onlyGivenNames x
       first
       | (first | refine State.Keeps.letH (z := z) (x := x) ?_ ?_ | refine State.Keeps.letF (z := z) (x := x) ?_ ?_
          unfold x; clear x; rotate_left; clear_value x; intro; rotate_right)
       | clear_value x
       | skip)
    | with_reducible apply State.contributeFault_keeps
    | with_reducible apply State.stopStreams_keeps
    | with_reducible apply State.Keeps.foldl
    | with_reducible apply State.Keeps.foldlProd
    | with_reducible apply State.Keeps.foldlSnd
    | simp -zeta -zetaDelta only [State.Keeps.mk_iff, State.Keeps.mk_flash]
    | split

theorem State.recordFault_keeps : ∀ (a0 : State) a1 a2 a3 a4, z.Keeps a0 → z.Keeps (State.recordFault a0 a1 a2 a3 a4) := by
  intro a0 a1 a2 a3 a4 h
  unfold State.recordFault
  repeat' first
    | with_reducible assumption
    | with_reducible apply State.log_keeps

theorem State.countFault_keeps : ∀ (a0 : State) a1 a2 a3, z.Keeps a0 → z.Keeps (State.countFault a0 a1 a2 a3) := by
  intro a0 a1 a2 a3 h
  unfold State.countFault
  repeat' first
    | with_reducible assumption
    | with_reducible apply State.count_keeps
    | split

theorem State.stopFault_keeps : ∀ (a0 : State) a1 a2 a3 a4 a5, z.Keeps a0 → z.Keeps (State.stopFault a0 a1 a2 a3 a4 a5) := by
  intro a0 a1 a2 a3 a4 a5 h
  unfold State.stopFault
  repeat' first
    | with_reducible assumption
    | (extract_lets +onlyGivenNames x
       first
       | (first | refine State.Keeps.letH (z := z) (x := x) ?_ ?_ | refine State.Keeps.letF (z := z) (x := x) ?_ ?_
          unfold x; clear x; rotate_left; clear_value x; intro; rotate_right)
       | clear_value x
       | skip)
    | with_reducible apply State.faultStop_keeps
    | with_reducible apply State.recordFault_keeps
    | with_reducible apply State.countFault_keeps

theorem State.computeFault_keeps : ∀ (a0 : State) a1 a2 a3 a4, z.Keeps a0 → z.Keeps (State.computeFault a0 a1 a2 a3 a4) := by
  intro a0 a1 a2 a3 a4 h
  unfold State.computeFault
  repeat' first
    | with_reducible assumption
    | (extract_lets +onlyGivenNames x
       first
       | (first | refine State.Keeps.letH (z := z) (x := x) ?_ ?_ | refine State.Keeps.letF (z := z) (x := x) ?_ ?_
          unfold x; clear x; rotate_left; clear_value x; intro; rotate_right)
       | clear_value x
       | skip)
    | with_reducible apply State.orVerdict_keeps
    | with_reducible apply State.recordFault_keeps
    | with_reducible apply State.countFault_keeps

theorem State.kill_keeps : ∀ (a0 : State) a1 a2 a3 a4, z.Keeps a0 → z.Keeps (State.kill a0 a1 a2 a3 a4) := by
  intro a0 a1 a2 a3 a4 h
  unfold State.kill
  repeat' first
    | with_reducible assumption
    | (extract_lets +onlyGivenNames x
       first
       | (first | refine State.Keeps.letH (z := z) (x := x) ?_ ?_ | refine State.Keeps.letF (z := z) (x := x) ?_ ?_
          unfold x; clear x; rotate_left; clear_value x; intro; rotate_right)
       | clear_value x
       | skip)
    | with_reducible apply State.faultStop_keeps
    | with_reducible apply State.orVerdict_keeps
    | with_reducible apply State.recordFault_keeps
    | with_reducible apply State.countFault_keeps

theorem State.deviceFaultNow_keeps : ∀ (a0 : State) a1 a2, z.Keeps a0 → z.Keeps (State.deviceFaultNow a0 a1 a2) := by
  intro a0 a1 a2 h
  unfold State.deviceFaultNow
  repeat' first
    | with_reducible assumption
    | intro y
    | (extract_lets +onlyGivenNames x
       first
       | (first | refine State.Keeps.letH (z := z) (x := x) ?_ ?_ | refine State.Keeps.letF (z := z) (x := x) ?_ ?_
          unfold x; clear x; rotate_left; clear_value x; intro; rotate_right)
       | clear_value x
       | skip)
    | with_reducible apply State.recordFault_keeps
    | with_reducible apply State.faultStop_keeps
    | with_reducible apply State.raise_keeps
    | with_reducible apply State.Keeps.foldl
    | simp -zeta -zetaDelta only [State.Keeps.mk_iff, State.Keeps.mk_flash]
    | split

end Sys2Proof.Machine
end

