-- ==== Sys2Proof/Laws/KeepsStack.lean ====
section
/-! SUPPORT. What Machine/Stack.lean keeps: one lemma an operation. -/
namespace Sys2Proof.Machine
set_option linter.all false

variable {z : State}

theorem State.event_keeps : ∀ (a0 : State) a1 a2 a3 a4 a5, z.Keeps a0 → z.Keeps (State.event a0 a1 a2 a3 a4 a5) := by
  intro a0 a1 a2 a3 a4 a5 h
  unfold State.event
  repeat' first
    | with_reducible assumption
    | with_reducible apply State.log_keeps

theorem State.judgeCapacity_keeps : ∀ (a0 : State) a1, z.Keeps a0 → z.Keeps (State.judgeCapacity a0 a1) := by
  intro a0 a1 h
  unfold State.judgeCapacity
  repeat' first
    | with_reducible assumption
    | (extract_lets +onlyGivenNames x
       first
       | (first | refine State.Keeps.letH (z := z) (x := x) ?_ ?_ | refine State.Keeps.letF (z := z) (x := x) ?_ ?_
          unfold x; clear x; rotate_left; clear_value x; intro; rotate_right)
       | clear_value x
       | skip)
    | with_reducible apply State.event_keeps
    | with_reducible apply State.updDie_keeps
    | simp -zeta -zetaDelta only [State.Keeps.mk_iff, State.Keeps.mk_flash]
    | split

theorem State.erasePin_keeps : ∀ (a0 : State) a1 a2 a3, z.Keeps a0 → z.Keeps (State.erasePin a0 a1 a2 a3) := by
  intro a0 a1 a2 a3 h
  unfold State.erasePin
  repeat' first
    | with_reducible assumption
    | (extract_lets +onlyGivenNames x
       first
       | (first | refine State.Keeps.letH (z := z) (x := x) ?_ ?_ | refine State.Keeps.letF (z := z) (x := x) ?_ ?_
          unfold x; clear x; rotate_left; clear_value x; intro; rotate_right)
       | clear_value x
       | skip)
    | with_reducible apply State.judgeCapacity_keeps
    | with_reducible apply State.event_keeps
    | with_reducible apply State.updDie_keeps
    | split

theorem State.failRow_keeps : ∀ (a0 : State) a1 a2, z.Keeps a0 → z.Keeps (State.failRow a0 a1 a2) := by
  intro a0 a1 a2 h
  unfold State.failRow
  repeat' first
    | with_reducible assumption
    | with_reducible apply State.updDie_keeps

theorem State.noteCorrection_keeps : ∀ (a0 : State) a1 a2 a3, z.Keeps a0 → z.Keeps (State.noteCorrection a0 a1 a2 a3) := by
  intro a0 a1 a2 a3 h
  unfold State.noteCorrection
  repeat' first
    | with_reducible assumption
    | (extract_lets +onlyGivenNames x
       first
       | (first | refine State.Keeps.letH (z := z) (x := x) ?_ ?_ | refine State.Keeps.letF (z := z) (x := x) ?_ ?_
          unfold x; clear x; rotate_left; clear_value x; intro; rotate_right)
       | clear_value x
       | skip)
    | with_reducible apply State.count_keeps
    | with_reducible apply State.updDie_keeps
    | with_reducible apply State.erasePin_keeps
    | with_reducible apply State.failRow_keeps
    | split

theorem State.decodeSeen_keeps : ∀ (a0 : State) a1 a2 a3 a4, z.Keeps a0 → z.Keeps (State.decodeSeen a0 a1 a2 a3 a4).2 := by
  intro a0 a1 a2 a3 a4 h
  unfold State.decodeSeen
  repeat' first
    | with_reducible assumption
    | intro y
    | (extract_lets +onlyGivenNames x
       first
       | (first | refine State.Keeps.letH (z := z) (x := x) ?_ ?_ | refine State.Keeps.letF (z := z) (x := x) ?_ ?_
          unfold x; clear x; rotate_left; clear_value x; intro; rotate_right)
       | clear_value x
       | skip)
    | with_reducible apply State.updDie_keeps
    | with_reducible apply State.failRow_keeps
    | with_reducible apply State.write_keeps
    | with_reducible apply State.noteCorrection_keeps
    | with_reducible apply State.mark_keeps
    | with_reducible apply State.count_keeps
    | with_reducible apply State.putBytes_keeps
    | with_reducible apply State.Keeps.foldl
    | with_reducible apply State.Keeps.foldlProd
    | with_reducible apply State.Keeps.foldlSnd
    | simp -zeta -zetaDelta only [State.Keeps.mk_iff, State.Keeps.mk_flash]
    | split

theorem State.updStall_keeps : ∀ (a0 : State) a1 a2 a3, z.Keeps a0 → z.Keeps (State.updStall a0 a1 a2 a3) := by
  intro a0 a1 a2 a3 h
  unfold State.updStall
  repeat' first
    | with_reducible assumption
    | intro y
    | (extract_lets +onlyGivenNames x
       first
       | (first | refine State.Keeps.letH (z := z) (x := x) ?_ ?_ | refine State.Keeps.letF (z := z) (x := x) ?_ ?_
          unfold x; clear x; rotate_left; clear_value x; intro; rotate_right)
       | clear_value x
       | skip)
    | with_reducible apply State.updDie_keeps
    | with_reducible apply State.Keeps.foldl
    | with_reducible apply State.Keeps.foldlProd
    | with_reducible apply State.Keeps.foldlSnd
    | simp -zeta -zetaDelta only [State.Keeps.mk_iff, State.Keeps.mk_flash]
    | split

theorem State.noteRead_keeps : ∀ (a0 : State) a1 a2 a3, z.Keeps a0 → z.Keeps (State.noteRead a0 a1 a2 a3) := by
  intro a0 a1 a2 a3 h
  unfold State.noteRead
  repeat' first
    | with_reducible assumption
    | intro y
    | (extract_lets +onlyGivenNames x
       first
       | (first | refine State.Keeps.letH (z := z) (x := x) ?_ ?_ | refine State.Keeps.letF (z := z) (x := x) ?_ ?_
          unfold x; clear x; rotate_left; clear_value x; intro; rotate_right)
       | clear_value x
       | skip)
    | with_reducible apply State.updDie_keeps
    | with_reducible apply State.addUnits_keeps
    | with_reducible apply State.updStall_keeps
    | with_reducible apply State.count_keeps
    | with_reducible apply State.Keeps.foldl
    | with_reducible apply State.Keeps.foldlProd
    | with_reducible apply State.Keeps.foldlSnd
    | simp -zeta -zetaDelta only [State.Keeps.mk_iff, State.Keeps.mk_flash]
    | split

theorem State.readCodeword_keeps : ∀ (a0 : State) a1 a2 a3 a4 a5, z.Keeps a0 → z.Keeps (State.readCodeword a0 a1 a2 a3 a4 a5).2 := by
  intro a0 a1 a2 a3 a4 a5 h
  unfold State.readCodeword
  repeat' first
    | with_reducible assumption
    | intro y
    | (extract_lets +onlyGivenNames x
       first
       | (first | refine State.Keeps.letH (z := z) (x := x) ?_ ?_ | refine State.Keeps.letF (z := z) (x := x) ?_ ?_
          unfold x; clear x; rotate_left; clear_value x; intro; rotate_right)
       | clear_value x
       | skip)
    | with_reducible apply State.noteRead_keeps
    | with_reducible apply State.decodeSeen_keeps
    | with_reducible apply State.count_keeps
    | with_reducible apply State.Keeps.foldl
    | with_reducible apply State.Keeps.foldlProd
    | with_reducible apply State.Keeps.foldlSnd
    | simp -zeta -zetaDelta only [State.Keeps.mk_iff, State.Keeps.mk_flash]
    | split

theorem State.countReads_keeps : ∀ (a0 : State) a1 a2 a3 a4, z.Keeps a0 → z.Keeps (State.countReads a0 a1 a2 a3 a4) := by
  intro a0 a1 a2 a3 a4 h
  unfold State.countReads
  repeat' first
    | with_reducible assumption
    | intro y
    | (extract_lets +onlyGivenNames x
       first
       | (first | refine State.Keeps.letH (z := z) (x := x) ?_ ?_ | refine State.Keeps.letF (z := z) (x := x) ?_ ?_
          unfold x; clear x; rotate_left; clear_value x; intro; rotate_right)
       | clear_value x
       | skip)
    | with_reducible apply State.noteRead_keeps
    | with_reducible apply State.measure_keeps
    | with_reducible apply State.count_keeps
    | with_reducible apply State.Keeps.foldl
    | with_reducible apply State.Keeps.foldlProd
    | with_reducible apply State.Keeps.foldlSnd
    | simp -zeta -zetaDelta only [State.Keeps.mk_iff, State.Keeps.mk_flash]
    | split

theorem State.countWrites_keeps : ∀ (a0 : State) a1 a2 a3 a4, z.Keeps a0 → z.Keeps (State.countWrites a0 a1 a2 a3 a4) := by
  intro a0 a1 a2 a3 a4 h
  unfold State.countWrites
  repeat' first
    | with_reducible assumption
    | intro y
    | (extract_lets +onlyGivenNames x
       first
       | (first | refine State.Keeps.letH (z := z) (x := x) ?_ ?_ | refine State.Keeps.letF (z := z) (x := x) ?_ ?_
          unfold x; clear x; rotate_left; clear_value x; intro; rotate_right)
       | clear_value x
       | skip)
    | with_reducible apply State.updDie_keeps
    | with_reducible apply State.addUnits_keeps
    | with_reducible apply State.updStall_keeps
    | with_reducible apply State.count_keeps
    | with_reducible apply State.Keeps.foldl
    | with_reducible apply State.Keeps.foldlProd
    | with_reducible apply State.Keeps.foldlSnd
    | simp -zeta -zetaDelta only [State.Keeps.mk_iff, State.Keeps.mk_flash]
    | split

theorem State.chargeDelivery_keeps : ∀ (a0 : State) a1 a2 a3 a4, z.Keeps a0 → z.Keeps (State.chargeDelivery a0 a1 a2 a3 a4) := by
  intro a0 a1 a2 a3 a4 h
  unfold State.chargeDelivery
  repeat' first
    | with_reducible assumption
    | intro y
    | (extract_lets +onlyGivenNames x
       first
       | (first | refine State.Keeps.letH (z := z) (x := x) ?_ ?_ | refine State.Keeps.letF (z := z) (x := x) ?_ ?_
          unfold x; clear x; rotate_left; clear_value x; intro; rotate_right)
       | clear_value x
       | skip)
    | with_reducible apply State.updStall_keeps
    | with_reducible apply State.Keeps.foldl
    | with_reducible apply State.Keeps.foldlProd
    | with_reducible apply State.Keeps.foldlSnd
    | simp -zeta -zetaDelta only [State.Keeps.mk_iff, State.Keeps.mk_flash]
    | split

theorem State.askUnits_keeps : ∀ (a0 : State) a1 a2 a3 a4, z.Keeps a0 → z.Keeps (State.askUnits a0 a1 a2 a3 a4) := by
  intro a0 a1 a2 a3 a4 h
  unfold State.askUnits
  repeat' first
    | with_reducible assumption
    | intro y
    | (extract_lets +onlyGivenNames x
       first
       | (first | refine State.Keeps.letH (z := z) (x := x) ?_ ?_ | refine State.Keeps.letF (z := z) (x := x) ?_ ?_
          unfold x; clear x; rotate_left; clear_value x; intro; rotate_right)
       | clear_value x
       | skip)
    | with_reducible apply State.updStall_keeps
    | with_reducible apply State.Keeps.foldl
    | with_reducible apply State.Keeps.foldlProd
    | with_reducible apply State.Keeps.foldlSnd
    | simp -zeta -zetaDelta only [State.Keeps.mk_iff, State.Keeps.mk_flash]
    | split

theorem State.scratchErrors_keeps : ∀ (a0 : State) a1, z.Keeps a0 → z.Keeps (State.scratchErrors a0 a1) := by
  intro a0 a1 h
  unfold State.scratchErrors
  repeat' first
    | with_reducible assumption
    | intro y
    | (extract_lets +onlyGivenNames x
       first
       | (first | refine State.Keeps.letH (z := z) (x := x) ?_ ?_ | refine State.Keeps.letF (z := z) (x := x) ?_ ?_
          unfold x; clear x; rotate_left; clear_value x; intro; rotate_right)
       | clear_value x
       | skip)
    | with_reducible apply State.mark_keeps
    | with_reducible apply State.count_keeps
    | with_reducible apply State.Keeps.foldl
    | with_reducible apply State.Keeps.foldlProd
    | with_reducible apply State.Keeps.foldlSnd
    | simp -zeta -zetaDelta only [State.Keeps.mk_iff, State.Keeps.mk_flash]
    | split

theorem State.applyPhys_keeps : ∀ (a0 : State) a1, z.Keeps a0 → z.Keeps (State.applyPhys a0 a1) := by
  intro a0 a1 h
  unfold State.applyPhys
  repeat' first
    | with_reducible assumption
    | intro y
    | (extract_lets +onlyGivenNames x
       first
       | (first | refine State.Keeps.letH (z := z) (x := x) ?_ ?_ | refine State.Keeps.letF (z := z) (x := x) ?_ ?_
          unfold x; clear x; rotate_left; clear_value x; intro; rotate_right)
       | clear_value x
       | skip)
    | with_reducible apply State.scratchErrors_keeps
    | with_reducible apply State.decodeSeen_keeps
    | with_reducible apply State.Keeps.foldl
    | with_reducible apply State.Keeps.foldlProd
    | with_reducible apply State.Keeps.foldlSnd
    | simp -zeta -zetaDelta only [State.Keeps.mk_iff, State.Keeps.mk_flash]
    | split

end Sys2Proof.Machine
end

