-- ==== Sys2Proof/Laws/KeepsOperands.lean ====
section
/-! SUPPORT. What Machine/Operands.lean keeps: one lemma an operation. -/
namespace Sys2Proof.Machine
set_option linter.all false

variable {z : State}

theorem Run.s_keeps : ∀ (a0 : Run), z.Keeps a0.s → z.Keeps (Run.s a0) := by
  intro a0 h
  unfold Run.s
  repeat' first
    | with_reducible assumption

theorem shapeFault_keeps : ∀ {α : Type} a1, ExecKeeps (@shapeFault α a1) := by
  intro α a1
  unfold shapeFault
  repeat' first
    | with_reducible exact ExecKeeps.trap _

theorem contextFault_keeps : ∀ {α : Type} a1, ExecKeeps (@contextFault α a1) := by
  intro α a1
  unfold contextFault
  repeat' first
    | with_reducible exact ExecKeeps.trap _

theorem shapeIf_keeps : ∀ a0 a1, ExecKeeps (shapeIf a0 a1) := by
  intro a0 a1
  unfold shapeIf
  repeat' first
    | with_reducible apply shapeFault_keeps
    | with_reducible exact ExecKeeps.pure _
    | split

theorem getCtx_keeps : ExecKeeps (getCtx) := by
  unfold getCtx
  repeat' first
    | intro y
    | (extract_lets +onlyGivenNames x
       first
       | (first | refine State.Keeps.letH (z := z) (x := x) ?_ ?_ | refine State.Keeps.letF (z := z) (x := x) ?_ ?_ | refine State.Keeps.letR (z := z) (x := x) ?_ ?_ | refine ExecKeeps.letJ (x := x) ?_ ?_ | refine ExecKeeps.letM (x := x) ?_ ?_
          unfold x; clear x; rotate_left; clear_value x; intro; rotate_right)
       | clear_value x
       | skip)
    | with_reducible apply contextFault_keeps
    | with_reducible exact ExecKeeps.pure _
    | with_reducible exact ExecKeeps.get
    | with_reducible apply ExecKeeps.bind
    | split

theorem setNonfinite_keeps : ∀ a0, ExecKeeps (setNonfinite a0) := by
  intro a0
  unfold setNonfinite
  repeat' first
    | with_reducible assumption
    | intro y
    | with_reducible apply ExecKeeps.modify

theorem setTainted_keeps : ExecKeeps (setTainted) := by
  unfold setTainted
  repeat' first
    | with_reducible assumption
    | intro y
    | with_reducible apply ExecKeeps.modify

theorem raiseCompute_keeps : ∀ a0, ExecKeeps (raiseCompute a0) := by
  intro a0
  unfold raiseCompute
  repeat' first
    | with_reducible assumption
    | intro y
    | (extract_lets +onlyGivenNames x
       first
       | (first | refine State.Keeps.letH (z := z) (x := x) ?_ ?_ | refine State.Keeps.letF (z := z) (x := x) ?_ ?_ | refine State.Keeps.letR (z := z) (x := x) ?_ ?_ | refine ExecKeeps.letJ (x := x) ?_ ?_ | refine ExecKeeps.letM (x := x) ?_ ?_
          unfold x; clear x; rotate_left; clear_value x; intro; rotate_right)
       | clear_value x
       | skip)
    | with_reducible apply State.recordFault_keeps
    | with_reducible apply State.countFault_keeps
    | with_reducible apply setTainted_keeps
    | with_reducible apply ExecKeeps.bind
    | with_reducible apply ExecKeeps.modify

theorem raiseMemory_keeps : ∀ a0, ExecKeeps (raiseMemory a0) := by
  intro a0
  unfold raiseMemory
  repeat' first
    | with_reducible assumption
    | intro y
    | (extract_lets +onlyGivenNames x
       first
       | (first | refine State.Keeps.letH (z := z) (x := x) ?_ ?_ | refine State.Keeps.letF (z := z) (x := x) ?_ ?_ | refine State.Keeps.letR (z := z) (x := x) ?_ ?_ | refine ExecKeeps.letJ (x := x) ?_ ?_ | refine ExecKeeps.letM (x := x) ?_ ?_
          unfold x; clear x; rotate_left; clear_value x; intro; rotate_right)
       | clear_value x
       | skip)
    | with_reducible apply State.recordFault_keeps
    | with_reducible apply State.countFault_keeps
    | with_reducible apply setTainted_keeps
    | with_reducible apply ExecKeeps.bind
    | with_reducible apply ExecKeeps.modify

theorem metPoison_keeps : ∀ a0 a1, ExecKeeps (metPoison a0 a1) := by
  intro a0 a1
  unfold metPoison
  repeat' first
    | with_reducible assumption
    | intro y
    | (extract_lets +onlyGivenNames x
       first
       | (first | refine State.Keeps.letH (z := z) (x := x) ?_ ?_ | refine State.Keeps.letF (z := z) (x := x) ?_ ?_ | refine State.Keeps.letR (z := z) (x := x) ?_ ?_ | refine ExecKeeps.letJ (x := x) ?_ ?_ | refine ExecKeeps.letM (x := x) ?_ ?_
          unfold x; clear x; rotate_left; clear_value x; intro; rotate_right)
       | clear_value x
       | skip)
    | with_reducible apply setTainted_keeps
    | with_reducible apply raiseMemory_keeps
    | with_reducible exact ExecKeeps.get
    | with_reducible apply ExecKeeps.bind
    | with_reducible apply ExecKeeps.modify
    | split

theorem resolve_keeps : ∀ a0 a1, ExecKeeps (resolve a0 a1) := by
  intro a0 a1
  unfold resolve
  repeat' first
    | with_reducible assumption
    | intro y
    | (extract_lets +onlyGivenNames x
       first
       | (first | refine ExecKeeps.letJ (x := x) ?_ ?_ | refine ExecKeeps.letM (x := x) ?_ ?_
          unfold x; clear x; rotate_left; clear_value x; intro; rotate_right)
       | clear_value x
       | skip)
    | with_reducible apply shapeIf_keeps
    | with_reducible apply getCtx_keeps
    | with_reducible apply contextFault_keeps
    | with_reducible exact ExecKeeps.pure _
    | with_reducible exact ExecKeeps.get
    | with_reducible apply ExecKeeps.bind
    | with_reducible apply ExecKeeps.forM
    | split

theorem withDescs_keeps : ∀ {α : Type} a1 a2, ExecKeeps a2 → ExecKeeps (@withDescs α a1 a2) := by
  intro α a1 a2 ha2
  unfold withDescs
  repeat' first
    | with_reducible assumption
    | intro y
    | (extract_lets +onlyGivenNames x
       first
       | (first | refine State.Keeps.letH (z := z) (x := x) ?_ ?_ | refine State.Keeps.letF (z := z) (x := x) ?_ ?_ | refine State.Keeps.letR (z := z) (x := x) ?_ ?_ | refine ExecKeeps.letJ (x := x) ?_ ?_ | refine ExecKeeps.letM (x := x) ?_ ?_
          unfold x; clear x; rotate_left; clear_value x; intro; rotate_right)
       | clear_value x
       | skip)
    | with_reducible apply ha2
    | with_reducible apply State.updCtx_keeps
    | with_reducible apply getCtx_keeps
    | with_reducible exact ExecKeeps.pure _
    | with_reducible exact ExecKeeps.trap _
    | with_reducible exact ExecKeeps.get
    | with_reducible exact ExecKeeps.getS
    | with_reducible apply ExecKeeps.bind
    | with_reducible apply ExecKeeps.modS
    | with_reducible apply ExecKeeps.modify
    | with_reducible apply ExecKeeps.forM
    | with_reducible apply ExecKeeps.mapM
    | with_reducible apply ExecKeeps.foldlM
    | with_reducible apply ExecKeeps.when
    | with_reducible apply State.Keeps.foldl
    | with_reducible apply State.Keeps.foldlProd
    | with_reducible apply State.Keeps.foldlSnd
    | simp -zeta -zetaDelta only [State.Keeps.mk_iff, State.Keeps.mk_flash]
    | split

theorem chargeStack_keeps : ∀ a0 a1 a2, ExecKeeps (chargeStack a0 a1 a2) := by
  intro a0 a1 a2
  unfold chargeStack
  repeat' first
    | with_reducible assumption
    | intro y
    | (extract_lets +onlyGivenNames x
       first
       | (first | refine State.Keeps.letH (z := z) (x := x) ?_ ?_ | refine State.Keeps.letF (z := z) (x := x) ?_ ?_ | refine State.Keeps.letR (z := z) (x := x) ?_ ?_ | refine ExecKeeps.letJ (x := x) ?_ ?_ | refine ExecKeeps.letM (x := x) ?_ ?_
          unfold x; clear x; rotate_left; clear_value x; intro; rotate_right)
       | clear_value x
       | skip)
    | with_reducible apply State.chargeDelivery_keeps
    | with_reducible apply State.askUnits_keeps
    | with_reducible exact ExecKeeps.pure _
    | with_reducible exact ExecKeeps.trap _
    | with_reducible exact ExecKeeps.get
    | with_reducible exact ExecKeeps.getS
    | with_reducible apply ExecKeeps.bind
    | with_reducible apply ExecKeeps.modS
    | with_reducible apply ExecKeeps.modify
    | with_reducible apply ExecKeeps.forM
    | with_reducible apply ExecKeeps.mapM
    | with_reducible apply ExecKeeps.foldlM
    | with_reducible apply ExecKeeps.when
    | with_reducible apply State.Keeps.foldl
    | with_reducible apply State.Keeps.foldlProd
    | with_reducible apply State.Keeps.foldlSnd
    | simp -zeta -zetaDelta only [State.Keeps.mk_iff, State.Keeps.mk_flash]
    | split

theorem countStackReads_keeps : ∀ a0 a1 a2, ExecKeeps (countStackReads a0 a1 a2) := by
  intro a0 a1 a2
  unfold countStackReads
  repeat' first
    | with_reducible assumption
    | intro y
    | (extract_lets +onlyGivenNames x
       first
       | (first | refine State.Keeps.letH (z := z) (x := x) ?_ ?_ | refine State.Keeps.letF (z := z) (x := x) ?_ ?_ | refine State.Keeps.letR (z := z) (x := x) ?_ ?_ | refine ExecKeeps.letJ (x := x) ?_ ?_ | refine ExecKeeps.letM (x := x) ?_ ?_
          unfold x; clear x; rotate_left; clear_value x; intro; rotate_right)
       | clear_value x
       | skip)
    | with_reducible apply State.countReads_keeps
    | with_reducible apply chargeStack_keeps
    | with_reducible exact ExecKeeps.pure _
    | with_reducible exact ExecKeeps.trap _
    | with_reducible exact ExecKeeps.get
    | with_reducible exact ExecKeeps.getS
    | with_reducible apply ExecKeeps.bind
    | with_reducible apply ExecKeeps.modS
    | with_reducible apply ExecKeeps.modify
    | with_reducible apply ExecKeeps.forM
    | with_reducible apply ExecKeeps.mapM
    | with_reducible apply ExecKeeps.foldlM
    | with_reducible apply ExecKeeps.when
    | with_reducible apply State.Keeps.foldl
    | with_reducible apply State.Keeps.foldlProd
    | with_reducible apply State.Keeps.foldlSnd
    | simp -zeta -zetaDelta only [State.Keeps.mk_iff, State.Keeps.mk_flash]
    | split

theorem delivering_keeps : ∀ a0, ExecKeeps a0 → ExecKeeps (delivering a0) := by
  intro a0 ha0
  unfold delivering
  repeat' first
    | with_reducible assumption
    | intro y
    | (extract_lets +onlyGivenNames x
       first
       | (first | refine State.Keeps.letH (z := z) (x := x) ?_ ?_ | refine State.Keeps.letF (z := z) (x := x) ?_ ?_ | refine State.Keeps.letR (z := z) (x := x) ?_ ?_ | refine ExecKeeps.letJ (x := x) ?_ ?_ | refine ExecKeeps.letM (x := x) ?_ ?_
          unfold x; clear x; rotate_left; clear_value x; intro; rotate_right)
       | clear_value x
       | skip)
    | with_reducible apply ha0
    | with_reducible exact ExecKeeps.pure _
    | with_reducible exact ExecKeeps.trap _
    | with_reducible exact ExecKeeps.get
    | with_reducible exact ExecKeeps.getS
    | with_reducible apply ExecKeeps.bind
    | with_reducible apply ExecKeeps.modS
    | with_reducible apply ExecKeeps.modify
    | with_reducible apply ExecKeeps.forM
    | with_reducible apply ExecKeeps.mapM
    | with_reducible apply ExecKeeps.foldlM
    | with_reducible apply ExecKeeps.when
    | with_reducible apply State.Keeps.foldl
    | with_reducible apply State.Keeps.foldlProd
    | with_reducible apply State.Keeps.foldlSnd
    | simp -zeta -zetaDelta only [State.Keeps.mk_iff, State.Keeps.mk_flash]
    | split

theorem raiseSeal_keeps : ∀ a0 a1 a2 a3, ExecKeeps (raiseSeal a0 a1 a2 a3) := by
  intro a0 a1 a2 a3
  unfold raiseSeal
  repeat' first
    | intro y
    | (extract_lets +onlyGivenNames x
       first
       | (first | refine ExecKeeps.letJ (x := x) ?_ ?_ | refine ExecKeeps.letM (x := x) ?_ ?_
          unfold x; clear x; rotate_left; clear_value x; intro; rotate_right)
       | clear_value x
       | skip)
    | with_reducible apply raiseMemory_keeps
    | with_reducible exact ExecKeeps.get
    | with_reducible apply ExecKeeps.bind

theorem readBlock_keeps : ∀ a0 a1 a2, ExecKeeps (readBlock a0 a1 a2) := by
  intro a0 a1 a2
  unfold readBlock
  repeat' first
    | with_reducible assumption
    | intro y
    | (extract_lets +onlyGivenNames x
       first
       | (first | refine State.Keeps.letH (z := z) (x := x) ?_ ?_ | refine State.Keeps.letF (z := z) (x := x) ?_ ?_ | refine State.Keeps.letR (z := z) (x := x) ?_ ?_ | refine ExecKeeps.letJ (x := x) ?_ ?_ | refine ExecKeeps.letM (x := x) ?_ ?_
          unfold x; clear x; rotate_left; clear_value x; intro; rotate_right)
       | clear_value x
       | skip)
    | with_reducible apply raiseSeal_keeps
    | with_reducible apply metPoison_keeps
    | with_reducible apply countStackReads_keeps
    | with_reducible exact ExecKeeps.pure _
    | with_reducible exact ExecKeeps.trap _
    | with_reducible exact ExecKeeps.get
    | with_reducible exact ExecKeeps.getS
    | with_reducible apply ExecKeeps.bind
    | with_reducible apply ExecKeeps.modS
    | with_reducible apply ExecKeeps.modify
    | with_reducible apply ExecKeeps.forM
    | with_reducible apply ExecKeeps.mapM
    | with_reducible apply ExecKeeps.foldlM
    | with_reducible apply ExecKeeps.when
    | with_reducible apply State.Keeps.foldl
    | with_reducible apply State.Keeps.foldlProd
    | with_reducible apply State.Keeps.foldlSnd
    | simp -zeta -zetaDelta only [State.Keeps.mk_iff, State.Keeps.mk_flash]
    | split
    | with_reducible apply_assumption

theorem readRow_keeps : ∀ a0 a1, ExecKeeps (readRow a0 a1) := by
  intro a0 a1
  unfold readRow
  repeat' first
    | intro y
    | (extract_lets +onlyGivenNames x
       first
       | (first | refine ExecKeeps.letJ (x := x) ?_ ?_ | refine ExecKeeps.letM (x := x) ?_ ?_
          unfold x; clear x; rotate_left; clear_value x; intro; rotate_right)
       | clear_value x
       | skip)
    | with_reducible apply readBlock_keeps
    | with_reducible exact ExecKeeps.pure _
    | with_reducible apply ExecKeeps.bind
    | with_reducible apply ExecKeeps.mapM

theorem readRows_keeps : ∀ a0, ExecKeeps (readRows a0) := by
  intro a0
  unfold readRows
  repeat' first
    | intro y
    | (extract_lets +onlyGivenNames x
       first
       | (first | refine ExecKeeps.letJ (x := x) ?_ ?_ | refine ExecKeeps.letM (x := x) ?_ ?_
          unfold x; clear x; rotate_left; clear_value x; intro; rotate_right)
       | clear_value x
       | skip)
    | with_reducible apply readRow_keeps
    | with_reducible apply ExecKeeps.mapM

theorem readFlat_keeps : ∀ a0, ExecKeeps (readFlat a0) := by
  intro a0
  unfold readFlat
  repeat' first
    | intro y
    | (extract_lets +onlyGivenNames x
       first
       | (first | refine ExecKeeps.letJ (x := x) ?_ ?_ | refine ExecKeeps.letM (x := x) ?_ ?_
          unfold x; clear x; rotate_left; clear_value x; intro; rotate_right)
       | clear_value x
       | skip)
    | with_reducible apply readRows_keeps
    | with_reducible exact ExecKeeps.pure _
    | with_reducible apply ExecKeeps.bind

theorem readPart_keeps : ∀ a0 a1 a2, ExecKeeps (readPart a0 a1 a2) := by
  intro a0 a1 a2
  unfold readPart
  repeat' first
    | with_reducible assumption
    | intro y
    | (extract_lets +onlyGivenNames x
       first
       | (first | refine State.Keeps.letH (z := z) (x := x) ?_ ?_ | refine State.Keeps.letF (z := z) (x := x) ?_ ?_ | refine State.Keeps.letR (z := z) (x := x) ?_ ?_ | refine ExecKeeps.letJ (x := x) ?_ ?_ | refine ExecKeeps.letM (x := x) ?_ ?_
          unfold x; clear x; rotate_left; clear_value x; intro; rotate_right)
       | clear_value x
       | skip)
    | with_reducible apply readBlock_keeps
    | with_reducible apply metPoison_keeps
    | with_reducible apply countStackReads_keeps
    | with_reducible exact ExecKeeps.pure _
    | with_reducible exact ExecKeeps.trap _
    | with_reducible exact ExecKeeps.get
    | with_reducible exact ExecKeeps.getS
    | with_reducible apply ExecKeeps.bind
    | with_reducible apply ExecKeeps.modS
    | with_reducible apply ExecKeeps.modify
    | with_reducible apply ExecKeeps.forM
    | with_reducible apply ExecKeeps.mapM
    | with_reducible apply ExecKeeps.foldlM
    | with_reducible apply ExecKeeps.when
    | with_reducible apply State.Keeps.foldl
    | with_reducible apply State.Keeps.foldlProd
    | with_reducible apply State.Keeps.foldlSnd
    | simp -zeta -zetaDelta only [State.Keeps.mk_iff, State.Keeps.mk_flash]
    | split
    | with_reducible apply_assumption

theorem storeAt_keeps : ∀ a0 a1 a2, ExecKeeps (storeAt a0 a1 a2) := by
  intro a0 a1 a2
  unfold storeAt
  repeat' first
    | with_reducible assumption
    | intro y
    | (extract_lets +onlyGivenNames x
       first
       | (first | refine State.Keeps.letH (z := z) (x := x) ?_ ?_ | refine State.Keeps.letF (z := z) (x := x) ?_ ?_ | refine State.Keeps.letR (z := z) (x := x) ?_ ?_ | refine ExecKeeps.letJ (x := x) ?_ ?_ | refine ExecKeeps.letM (x := x) ?_ ?_
          unfold x; clear x; rotate_left; clear_value x; intro; rotate_right)
       | clear_value x
       | skip)
    | with_reducible apply State.write_keeps
    | with_reducible apply chargeStack_keeps
    | with_reducible apply State.countWrites_keeps
    | with_reducible exact ExecKeeps.pure _
    | with_reducible exact ExecKeeps.trap _
    | with_reducible exact ExecKeeps.get
    | with_reducible exact ExecKeeps.getS
    | with_reducible apply ExecKeeps.bind
    | with_reducible apply ExecKeeps.modS
    | with_reducible apply ExecKeeps.modify
    | with_reducible apply ExecKeeps.forM
    | with_reducible apply ExecKeeps.mapM
    | with_reducible apply ExecKeeps.foldlM
    | with_reducible apply ExecKeeps.when
    | with_reducible apply State.Keeps.foldl
    | with_reducible apply State.Keeps.foldlProd
    | with_reducible apply State.Keeps.foldlSnd
    | simp -zeta -zetaDelta only [State.Keeps.mk_iff, State.Keeps.mk_flash]
    | split

theorem storeRun_keeps : ∀ a0 a1 a2 a3, ExecKeeps (storeRun a0 a1 a2 a3) := by
  intro a0 a1 a2 a3
  unfold storeRun
  repeat' first
    | with_reducible assumption
    | intro y
    | (extract_lets +onlyGivenNames x
       first
       | (first | refine State.Keeps.letH (z := z) (x := x) ?_ ?_ | refine State.Keeps.letF (z := z) (x := x) ?_ ?_ | refine State.Keeps.letR (z := z) (x := x) ?_ ?_ | refine ExecKeeps.letJ (x := x) ?_ ?_ | refine ExecKeeps.letM (x := x) ?_ ?_
          unfold x; clear x; rotate_left; clear_value x; intro; rotate_right)
       | clear_value x
       | skip)
    | with_reducible apply storeAt_keeps
    | with_reducible exact ExecKeeps.pure _
    | with_reducible exact ExecKeeps.trap _
    | with_reducible exact ExecKeeps.get
    | with_reducible exact ExecKeeps.getS
    | with_reducible apply ExecKeeps.bind
    | with_reducible apply ExecKeeps.modS
    | with_reducible apply ExecKeeps.modify
    | with_reducible apply ExecKeeps.forM
    | with_reducible apply ExecKeeps.mapM
    | with_reducible apply ExecKeeps.foldlM
    | with_reducible apply ExecKeeps.when
    | with_reducible apply State.Keeps.foldl
    | with_reducible apply State.Keeps.foldlProd
    | with_reducible apply State.Keeps.foldlSnd
    | simp -zeta -zetaDelta only [State.Keeps.mk_iff, State.Keeps.mk_flash]
    | split
    | with_reducible apply_assumption

theorem storeSeal_keeps : ∀ a0 a1 a2, ExecKeeps (storeSeal a0 a1 a2) := by
  intro a0 a1 a2
  unfold storeSeal
  repeat' first
    | (extract_lets +onlyGivenNames x
       first
       | (first | refine ExecKeeps.letJ (x := x) ?_ ?_ | refine ExecKeeps.letM (x := x) ?_ ?_
          unfold x; clear x; rotate_left; clear_value x; intro; rotate_right)
       | clear_value x
       | skip)
    | with_reducible apply storeRun_keeps
    | with_reducible apply ExecKeeps.when

theorem writeSpan_keeps : ∀ a0 a1 a2 a3, ExecKeeps (writeSpan a0 a1 a2 a3) := by
  intro a0 a1 a2 a3
  unfold writeSpan
  repeat' first
    | with_reducible assumption
    | intro y
    | (extract_lets +onlyGivenNames x
       first
       | (first | refine ExecKeeps.letJ (x := x) ?_ ?_ | refine ExecKeeps.letM (x := x) ?_ ?_
          unfold x; clear x; rotate_left; clear_value x; intro; rotate_right)
       | clear_value x
       | skip)
    | with_reducible apply storeRun_keeps
    | with_reducible apply storeSeal_keeps
    | with_reducible apply raiseSeal_keeps
    | with_reducible apply setTainted_keeps
    | with_reducible exact ExecKeeps.pure _
    | with_reducible apply ExecKeeps.bind
    | with_reducible exact ExecKeeps.getS
    | with_reducible apply ExecKeeps.forM
    | simp -zeta -zetaDelta only [State.Keeps.mk_iff, State.Keeps.mk_flash]
    | split
    | with_reducible apply_assumption

theorem onOutput_keeps : ∀ a0 a1, ExecKeeps a1 → ExecKeeps (onOutput a0 a1) := by
  intro a0 a1 ha1
  unfold onOutput
  repeat' first
    | with_reducible assumption
    | intro y
    | (extract_lets +onlyGivenNames x
       first
       | (first | refine State.Keeps.letH (z := z) (x := x) ?_ ?_ | refine State.Keeps.letF (z := z) (x := x) ?_ ?_ | refine State.Keeps.letR (z := z) (x := x) ?_ ?_ | refine ExecKeeps.letJ (x := x) ?_ ?_ | refine ExecKeeps.letM (x := x) ?_ ?_
          unfold x; clear x; rotate_left; clear_value x; intro; rotate_right)
       | clear_value x
       | skip)
    | with_reducible apply ha1
    | with_reducible exact ExecKeeps.pure _
    | with_reducible exact ExecKeeps.trap _
    | with_reducible exact ExecKeeps.get
    | with_reducible exact ExecKeeps.getS
    | with_reducible apply ExecKeeps.bind
    | with_reducible apply ExecKeeps.modS
    | with_reducible apply ExecKeeps.modify
    | with_reducible apply ExecKeeps.forM
    | with_reducible apply ExecKeeps.mapM
    | with_reducible apply ExecKeeps.foldlM
    | with_reducible apply ExecKeeps.when
    | with_reducible apply State.Keeps.foldl
    | with_reducible apply State.Keeps.foldlProd
    | with_reducible apply State.Keeps.foldlSnd
    | simp -zeta -zetaDelta only [State.Keeps.mk_iff, State.Keeps.mk_flash]
    | split

theorem writeRows_keeps : ∀ a0 a1, ExecKeeps (writeRows a0 a1) := by
  intro a0 a1
  unfold writeRows
  repeat' first
    | intro y
    | (extract_lets +onlyGivenNames x
       first
       | (first | refine ExecKeeps.letJ (x := x) ?_ ?_ | refine ExecKeeps.letM (x := x) ?_ ?_
          unfold x; clear x; rotate_left; clear_value x; intro; rotate_right)
       | clear_value x
       | skip)
    | with_reducible apply writeSpan_keeps
    | with_reducible exact ExecKeeps.get
    | with_reducible apply ExecKeeps.bind
    | with_reducible apply ExecKeeps.forM

theorem writeFlat_keeps : ∀ a0 a1 a2, ExecKeeps (writeFlat a0 a1 a2) := by
  intro a0 a1 a2
  unfold writeFlat
  repeat' first
    | intro y
    | (extract_lets +onlyGivenNames x
       first
       | (first | refine ExecKeeps.letJ (x := x) ?_ ?_ | refine ExecKeeps.letM (x := x) ?_ ?_
          unfold x; clear x; rotate_left; clear_value x; intro; rotate_right)
       | clear_value x
       | skip)
    | with_reducible apply writeSpan_keeps
    | with_reducible exact ExecKeeps.pure _
    | with_reducible apply ExecKeeps.forM
    | split

theorem writeFlatOut_keeps : ∀ a0 a1 a2, ExecKeeps (writeFlatOut a0 a1 a2) := by
  intro a0 a1 a2
  unfold writeFlatOut
  repeat' first
    | with_reducible assumption
    | intro y
    | (extract_lets +onlyGivenNames x
       first
       | (first | refine State.Keeps.letH (z := z) (x := x) ?_ ?_ | refine State.Keeps.letF (z := z) (x := x) ?_ ?_ | refine State.Keeps.letR (z := z) (x := x) ?_ ?_ | refine ExecKeeps.letJ (x := x) ?_ ?_ | refine ExecKeeps.letM (x := x) ?_ ?_
          unfold x; clear x; rotate_left; clear_value x; intro; rotate_right)
       | clear_value x
       | skip)
    | with_reducible apply writeFlat_keeps
    | with_reducible exact ExecKeeps.pure _
    | with_reducible exact ExecKeeps.trap _
    | with_reducible exact ExecKeeps.get
    | with_reducible exact ExecKeeps.getS
    | with_reducible apply ExecKeeps.bind
    | with_reducible apply ExecKeeps.modS
    | with_reducible apply ExecKeeps.modify
    | with_reducible apply ExecKeeps.forM
    | with_reducible apply ExecKeeps.mapM
    | with_reducible apply ExecKeeps.foldlM
    | with_reducible apply ExecKeeps.when
    | with_reducible apply State.Keeps.foldl
    | with_reducible apply State.Keeps.foldlProd
    | with_reducible apply State.Keeps.foldlSnd
    | simp -zeta -zetaDelta only [State.Keeps.mk_iff, State.Keeps.mk_flash]
    | split

theorem readElems_keeps : ∀ a0, ExecKeeps (readElems a0) := by
  intro a0
  unfold readElems
  repeat' first
    | intro y
    | (extract_lets +onlyGivenNames x
       first
       | (first | refine ExecKeeps.letJ (x := x) ?_ ?_ | refine ExecKeeps.letM (x := x) ?_ ?_
          unfold x; clear x; rotate_left; clear_value x; intro; rotate_right)
       | clear_value x
       | skip)
    | with_reducible apply readRows_keeps
    | with_reducible exact ExecKeeps.pure _
    | with_reducible apply ExecKeeps.bind

theorem readVals_keeps : ∀ a0, ExecKeeps (readVals a0) := by
  intro a0
  unfold readVals
  repeat' first
    | intro y
    | (extract_lets +onlyGivenNames x
       first
       | (first | refine ExecKeeps.letJ (x := x) ?_ ?_ | refine ExecKeeps.letM (x := x) ?_ ?_
          unfold x; clear x; rotate_left; clear_value x; intro; rotate_right)
       | clear_value x
       | skip)
    | with_reducible apply readElems_keeps
    | with_reducible exact ExecKeeps.pure _
    | with_reducible apply ExecKeeps.bind

theorem writeElems_keeps : ∀ a0 a1, ExecKeeps (writeElems a0 a1) := by
  intro a0 a1
  unfold writeElems
  repeat' first
    | with_reducible apply writeRows_keeps

theorem writeVals_keeps : ∀ a0 a1, ExecKeeps (writeVals a0 a1) := by
  intro a0 a1
  unfold writeVals
  repeat' first
    | intro y
    | (extract_lets +onlyGivenNames x
       first
       | (first | refine ExecKeeps.letJ (x := x) ?_ ?_ | refine ExecKeeps.letM (x := x) ?_ ?_
          unfold x; clear x; rotate_left; clear_value x; intro; rotate_right)
       | clear_value x
       | skip)
    | with_reducible apply setNonfinite_keeps
    | with_reducible apply writeElems_keeps
    | with_reducible apply ExecKeeps.bind

end Sys2Proof.Machine
end

