-- ==== Sys2Proof/Laws/KeepsOpSet.lean ====
section
/-! SUPPORT. What Machine/OpSet.lean keeps: one lemma an operation. -/
namespace Sys2Proof.Machine
set_option linter.all false

variable {z : State}

theorem readUnit_keeps : ∀ a0 a1, ExecKeeps (readUnit a0 a1) := by
  intro a0 a1
  unfold readUnit
  repeat' first
    | intro y
    | (extract_lets +onlyGivenNames x
       first
       | (first | refine ExecKeeps.letJ (x := x) ?_ ?_ | refine ExecKeeps.letM (x := x) ?_ ?_
          unfold x; clear x; rotate_left; clear_value x; intro; rotate_right)
       | clear_value x
       | skip)
    | with_reducible apply countStackReads_keeps
    | with_reducible apply metPoison_keeps
    | with_reducible apply raiseSeal_keeps
    | with_reducible exact ExecKeeps.pure _
    | with_reducible apply ExecKeeps.bind
    | with_reducible exact ExecKeeps.getS
    | with_reducible apply ExecKeeps.forM
    | simp -zeta -zetaDelta only [State.Keeps.mk_iff, State.Keeps.mk_flash]
    | split

theorem openSet_keeps : ∀ a0 a1, ExecKeeps (openSet a0 a1) := by
  intro a0 a1
  unfold openSet
  repeat' first
    | with_reducible assumption
    | intro y
    | (extract_lets +onlyGivenNames x
       first
       | (first | refine State.Keeps.letH (z := z) (x := x) ?_ ?_ | refine State.Keeps.letF (z := z) (x := x) ?_ ?_ | refine State.Keeps.letR (z := z) (x := x) ?_ ?_ | refine ExecKeeps.letJ (x := x) ?_ ?_ | refine ExecKeeps.letM (x := x) ?_ ?_
          unfold x; clear x; rotate_left; clear_value x; intro; rotate_right)
       | clear_value x
       | skip)
    | with_reducible apply readPart_keeps
    | with_reducible apply resolve_keeps
    | with_reducible apply shapeIf_keeps
    | with_reducible apply getCtx_keeps
    | with_reducible exact ExecKeeps.pure _
    | with_reducible exact ExecKeeps.trap _
    | with_reducible exact ExecKeeps.get
    | with_reducible exact ExecKeeps.getS
    | with_reducible apply ExecKeeps.bind
    | with_reducible apply ExecKeeps.modS
    | with_reducible apply ExecKeeps.modify
    | with_reducible apply ExecKeeps.forM
    | with_reducible apply ExecKeeps.mapM
    | with_reducible apply ExecKeeps.foldlM
    | with_reducible apply ExecKeeps.when
    | with_reducible apply State.Keeps.foldl
    | with_reducible apply State.Keeps.foldlProd
    | with_reducible apply State.Keeps.foldlSnd
    | simp -zeta -zetaDelta only [State.Keeps.mk_iff, State.Keeps.mk_flash]
    | split

theorem readUnits_keeps : ∀ a0 a1 a2, ExecKeeps (readUnits a0 a1 a2) := by
  intro a0 a1 a2
  unfold readUnits
  repeat' first
    | intro y
    | (extract_lets +onlyGivenNames x
       first
       | (first | refine ExecKeeps.letJ (x := x) ?_ ?_ | refine ExecKeeps.letM (x := x) ?_ ?_
          unfold x; clear x; rotate_left; clear_value x; intro; rotate_right)
       | clear_value x
       | skip)
    | with_reducible apply readUnit_keeps
    | with_reducible apply ExecKeeps.foldlM

theorem raisePairing_keeps : ∀ a0, ExecKeeps (raisePairing a0) := by
  intro a0
  unfold raisePairing
  repeat' first
    | with_reducible apply raiseCompute_keeps

theorem openDest_keeps : ∀ a0 a1 a2 a3 a4, ExecKeeps (openDest a0 a1 a2 a3 a4) := by
  intro a0 a1 a2 a3 a4
  unfold openDest
  repeat' first
    | with_reducible assumption
    | intro y
    | (extract_lets +onlyGivenNames x
       first
       | (first | refine ExecKeeps.letJ (x := x) ?_ ?_ | refine ExecKeeps.letM (x := x) ?_ ?_
          unfold x; clear x; rotate_left; clear_value x; intro; rotate_right)
       | clear_value x
       | skip)
    | with_reducible apply resolve_keeps
    | with_reducible apply shapeIf_keeps
    | with_reducible exact ExecKeeps.pure _
    | with_reducible apply ExecKeeps.bind
    | with_reducible apply ExecKeeps.mapM
    | split
    | with_reducible apply_assumption

theorem tagPlane_keeps : ∀ a0 a1 a2 a3, ExecKeeps (tagPlane a0 a1 a2 a3) := by
  intro a0 a1 a2 a3
  unfold tagPlane
  repeat' first
    | with_reducible assumption
    | intro y
    | (extract_lets +onlyGivenNames x
       first
       | (first | refine ExecKeeps.letJ (x := x) ?_ ?_ | refine ExecKeeps.letM (x := x) ?_ ?_
          unfold x; clear x; rotate_left; clear_value x; intro; rotate_right)
       | clear_value x
       | skip)
    | with_reducible exact ExecKeeps.pure _
    | with_reducible apply ExecKeeps.modS
    | with_reducible apply ExecKeeps.forM
    | simp -zeta -zetaDelta only [State.Keeps.mk_iff, State.Keeps.mk_flash]
    | split

theorem writePlane_keeps : ∀ a0 a1 a2 a3, ExecKeeps (writePlane a0 a1 a2 a3) := by
  intro a0 a1 a2 a3
  unfold writePlane
  repeat' first
    | intro y
    | (extract_lets +onlyGivenNames x
       first
       | (first | refine ExecKeeps.letJ (x := x) ?_ ?_ | refine ExecKeeps.letM (x := x) ?_ ?_
          unfold x; clear x; rotate_left; clear_value x; intro; rotate_right)
       | clear_value x
       | skip)
    | with_reducible apply writeFlat_keeps
    | with_reducible apply tagPlane_keeps
    | with_reducible apply ExecKeeps.bind
    | with_reducible apply ExecKeeps.forM

theorem sealUnits_keeps : ∀ a0 a1, ExecKeeps (sealUnits a0 a1) := by
  intro a0 a1
  unfold sealUnits
  repeat' first
    | intro y
    | (extract_lets +onlyGivenNames x
       first
       | (first | refine ExecKeeps.letJ (x := x) ?_ ?_ | refine ExecKeeps.letM (x := x) ?_ ?_
          unfold x; clear x; rotate_left; clear_value x; intro; rotate_right)
       | clear_value x
       | skip)
    | with_reducible apply storeRun_keeps
    | with_reducible exact ExecKeeps.pure _
    | with_reducible apply ExecKeeps.bind
    | with_reducible exact ExecKeeps.getS
    | with_reducible apply ExecKeeps.forM
    | split

theorem writeHeaders_keeps : ∀ a0 a1 a2, ExecKeeps (writeHeaders a0 a1 a2) := by
  intro a0 a1 a2
  unfold writeHeaders
  repeat' first
    | with_reducible assumption
    | intro y
    | (extract_lets +onlyGivenNames x
       first
       | (first | refine State.Keeps.letH (z := z) (x := x) ?_ ?_ | refine State.Keeps.letF (z := z) (x := x) ?_ ?_ | refine State.Keeps.letR (z := z) (x := x) ?_ ?_ | refine ExecKeeps.letJ (x := x) ?_ ?_ | refine ExecKeeps.letM (x := x) ?_ ?_
          unfold x; clear x; rotate_left; clear_value x; intro; rotate_right)
       | clear_value x
       | skip)
    | with_reducible apply writeFlat_keeps
    | with_reducible exact ExecKeeps.pure _
    | with_reducible exact ExecKeeps.trap _
    | with_reducible exact ExecKeeps.get
    | with_reducible exact ExecKeeps.getS
    | with_reducible apply ExecKeeps.bind
    | with_reducible apply ExecKeeps.modS
    | with_reducible apply ExecKeeps.modify
    | with_reducible apply ExecKeeps.forM
    | with_reducible apply ExecKeeps.mapM
    | with_reducible apply ExecKeeps.foldlM
    | with_reducible apply ExecKeeps.when
    | with_reducible apply State.Keeps.foldl
    | with_reducible apply State.Keeps.foldlProd
    | with_reducible apply State.Keeps.foldlSnd
    | simp -zeta -zetaDelta only [State.Keeps.mk_iff, State.Keeps.mk_flash]
    | split

theorem writeSet_keeps : ∀ a0 a1 a2, ExecKeeps (writeSet a0 a1 a2) := by
  intro a0 a1 a2
  unfold writeSet
  repeat' first
    | with_reducible assumption
    | intro y
    | (extract_lets +onlyGivenNames x
       first
       | (first | refine State.Keeps.letH (z := z) (x := x) ?_ ?_ | refine State.Keeps.letF (z := z) (x := x) ?_ ?_ | refine State.Keeps.letR (z := z) (x := x) ?_ ?_ | refine ExecKeeps.letJ (x := x) ?_ ?_ | refine ExecKeeps.letM (x := x) ?_ ?_
          unfold x; clear x; rotate_left; clear_value x; intro; rotate_right)
       | clear_value x
       | skip)
    | with_reducible apply writeHeaders_keeps
    | with_reducible apply setTainted_keeps
    | with_reducible apply writePlane_keeps
    | with_reducible apply sealUnits_keeps
    | with_reducible exact ExecKeeps.pure _
    | with_reducible exact ExecKeeps.trap _
    | with_reducible exact ExecKeeps.get
    | with_reducible exact ExecKeeps.getS
    | with_reducible apply ExecKeeps.bind
    | with_reducible apply ExecKeeps.modS
    | with_reducible apply ExecKeeps.modify
    | with_reducible apply ExecKeeps.forM
    | with_reducible apply ExecKeeps.mapM
    | with_reducible apply ExecKeeps.foldlM
    | with_reducible apply ExecKeeps.when
    | with_reducible apply State.Keeps.foldl
    | with_reducible apply State.Keeps.foldlProd
    | with_reducible apply State.Keeps.foldlSnd
    | simp -zeta -zetaDelta only [State.Keeps.mk_iff, State.Keeps.mk_flash]
    | split
    | with_reducible apply_assumption

end Sys2Proof.Machine
end

