-- ==== Sys2Proof/Laws/KeepsQuant.lean ====
section
/-! SUPPORT. What Machine/Quant.lean keeps: one lemma an operation. -/
namespace Sys2Proof.Machine
set_option linter.all false

variable {z : State}

theorem State.countProduction_keeps : ∀ (a0 : State) a1 a2 a3 a4 a5, z.Keeps a0 → z.Keeps (State.countProduction a0 a1 a2 a3 a4 a5) := by
  intro a0 a1 a2 a3 a4 a5 h
  unfold State.countProduction
  repeat' first
    | with_reducible assumption
    | with_reducible apply State.updDie_keeps

end Sys2Proof.Machine
end

