-- ==== Sys2Proof/Laws/KeepsChecks.lean ====
section
/-! SUPPORT. What Machine/Checks.lean keeps: one lemma an operation. -/
namespace Sys2Proof.Machine
set_option linter.all false

variable {z : State}

theorem State.judgeIntegrity_keeps : ∀ (a0 : State) a1, z.Keeps a0 → z.Keeps (State.judgeIntegrity a0 a1) := by
  intro a0 a1 h
  unfold State.judgeIntegrity
  repeat' first
    | with_reducible assumption
    | (extract_lets +onlyGivenNames x
       first
       | (first | refine State.Keeps.letH (z := z) (x := x) ?_ ?_ | refine State.Keeps.letF (z := z) (x := x) ?_ ?_
          unfold x; clear x; rotate_left; clear_value x; intro; rotate_right)
       | clear_value x
       | skip)
    | with_reducible apply State.event_keeps
    | with_reducible apply State.updDie_keeps
    | simp -zeta -zetaDelta only [State.Keeps.mk_iff, State.Keeps.mk_flash]
    | split

theorem State.saveAcc_keeps : ∀ (a0 : State) a1 a2, z.Keeps a0 → z.Keeps (State.saveAcc a0 a1 a2) := by
  intro a0 a1 a2 h
  unfold State.saveAcc
  repeat' first
    | with_reducible assumption
    | intro y
    | (extract_lets +onlyGivenNames x
       first
       | (first | refine State.Keeps.letH (z := z) (x := x) ?_ ?_ | refine State.Keeps.letF (z := z) (x := x) ?_ ?_
          unfold x; clear x; rotate_left; clear_value x; intro; rotate_right)
       | clear_value x
       | skip)
    | with_reducible apply State.updDie_keeps
    | with_reducible apply State.write_keeps
    | with_reducible apply State.countWrites_keeps
    | with_reducible apply State.count_keeps
    | with_reducible apply State.Keeps.foldl
    | with_reducible apply State.Keeps.foldlProd
    | with_reducible apply State.Keeps.foldlSnd
    | simp -zeta -zetaDelta only [State.Keeps.mk_iff, State.Keeps.mk_flash]
    | split

theorem State.saveAccs_keeps : ∀ (a0 : State) a1 a2, z.Keeps a0 → z.Keeps (State.saveAccs a0 a1 a2) := by
  intro a0 a1 a2 h
  unfold State.saveAccs
  repeat' first
    | with_reducible assumption
    | intro y
    | (extract_lets +onlyGivenNames x
       first
       | (first | refine State.Keeps.letH (z := z) (x := x) ?_ ?_ | refine State.Keeps.letF (z := z) (x := x) ?_ ?_
          unfold x; clear x; rotate_left; clear_value x; intro; rotate_right)
       | clear_value x
       | skip)
    | with_reducible apply State.saveAcc_keeps
    | with_reducible apply State.Keeps.foldl
    | with_reducible apply State.Keeps.foldlProd
    | with_reducible apply State.Keeps.foldlSnd
    | simp -zeta -zetaDelta only [State.Keeps.mk_iff, State.Keeps.mk_flash]
    | split

theorem State.arrayEvent_keeps : ∀ (a0 : State) a1 a2 a3 a4, z.Keeps a0 → z.Keeps (State.arrayEvent a0 a1 a2 a3 a4) := by
  intro a0 a1 a2 a3 a4 h
  unfold State.arrayEvent
  repeat' first
    | with_reducible assumption
    | with_reducible apply State.event_keeps

theorem State.retireArray_keeps : ∀ (a0 : State) a1 a2 a3, z.Keeps a0 → z.Keeps (State.retireArray a0 a1 a2 a3) := by
  intro a0 a1 a2 a3 h
  unfold State.retireArray
  repeat' first
    | with_reducible assumption
    | (extract_lets +onlyGivenNames x
       first
       | (first | refine State.Keeps.letH (z := z) (x := x) ?_ ?_ | refine State.Keeps.letF (z := z) (x := x) ?_ ?_
          unfold x; clear x; rotate_left; clear_value x; intro; rotate_right)
       | clear_value x
       | skip)
    | with_reducible apply State.updDie_keeps
    | with_reducible apply State.geometryChange_keeps
    | with_reducible apply State.saveAccs_keeps
    | with_reducible apply State.judgeIntegrity_keeps
    | with_reducible apply State.arrayEvent_keeps
    | split

theorem State.noteMismatch_keeps : ∀ (a0 : State) a1 a2, z.Keeps a0 → z.Keeps (State.noteMismatch a0 a1 a2) := by
  intro a0 a1 a2 h
  unfold State.noteMismatch
  repeat' first
    | with_reducible assumption
    | (extract_lets +onlyGivenNames x
       first
       | (first | refine State.Keeps.letH (z := z) (x := x) ?_ ?_ | refine State.Keeps.letF (z := z) (x := x) ?_ ?_
          unfold x; clear x; rotate_left; clear_value x; intro; rotate_right)
       | clear_value x
       | skip)
    | with_reducible apply State.updDie_keeps
    | with_reducible apply State.retireArray_keeps
    | split

theorem State.takeCapture_keeps : ∀ (a0 : State) a1 a2, z.Keeps a0 → z.Keeps (State.takeCapture a0 a1 a2) := by
  intro a0 a1 a2 h
  unfold State.takeCapture
  repeat' first
    | with_reducible assumption
    | (extract_lets +onlyGivenNames x
       first
       | (first | refine State.Keeps.letH (z := z) (x := x) ?_ ?_ | refine State.Keeps.letF (z := z) (x := x) ?_ ?_
          unfold x; clear x; rotate_left; clear_value x; intro; rotate_right)
       | clear_value x
       | skip)
    | with_reducible apply State.count_keeps
    | with_reducible apply State.updDie_keeps
    | split

theorem State.enterSpare_keeps : ∀ (a0 : State) a1, z.Keeps a0 → z.Keeps (State.enterSpare a0 a1) := by
  intro a0 a1 h
  unfold State.enterSpare
  repeat' first
    | with_reducible assumption
    | (extract_lets +onlyGivenNames x
       first
       | (first | refine State.Keeps.letH (z := z) (x := x) ?_ ?_ | refine State.Keeps.letF (z := z) (x := x) ?_ ?_
          unfold x; clear x; rotate_left; clear_value x; intro; rotate_right)
       | clear_value x
       | skip)
    | with_reducible apply State.updDie_keeps
    | with_reducible apply State.judgeIntegrity_keeps
    | with_reducible apply State.arrayEvent_keeps
    | with_reducible apply State.geometryChange_keeps

theorem State.sparesAtMk_keeps : ∀ (a0 : State), z.Keeps a0 → z.Keeps (State.sparesAtMk a0) := by
  intro a0 h
  unfold State.sparesAtMk
  repeat' first
    | with_reducible assumption
    | intro y
    | (extract_lets +onlyGivenNames x
       first
       | (first | refine State.Keeps.letH (z := z) (x := x) ?_ ?_ | refine State.Keeps.letF (z := z) (x := x) ?_ ?_
          unfold x; clear x; rotate_left; clear_value x; intro; rotate_right)
       | clear_value x
       | skip)
    | with_reducible apply State.enterSpare_keeps
    | with_reducible apply State.Keeps.foldl
    | split

theorem State.failChecker_keeps : ∀ (a0 : State) a1, z.Keeps a0 → z.Keeps (State.failChecker a0 a1) := by
  intro a0 a1 h
  unfold State.failChecker
  repeat' first
    | with_reducible assumption
    | (extract_lets +onlyGivenNames x
       first
       | (first | refine State.Keeps.letH (z := z) (x := x) ?_ ?_ | refine State.Keeps.letF (z := z) (x := x) ?_ ?_
          unfold x; clear x; rotate_left; clear_value x; intro; rotate_right)
       | clear_value x
       | skip)
    | with_reducible apply State.judgeIntegrity_keeps
    | with_reducible apply State.updDie_keeps

end Sys2Proof.Machine
end

