-- ==== Sys2Proof/Laws/KeepsSeq.lean ====
section
/-! SUPPORT. What Machine/Seq.lean keeps: one lemma an operation. -/
namespace Sys2Proof.Machine
set_option linter.all false

variable {z : State}

theorem State.ringWrite_keeps : ∀ (a0 : State) a1 a2 a3, z.Keeps a0 → z.Keeps (State.ringWrite a0 a1 a2 a3) := by
  intro a0 a1 a2 a3 h
  unfold State.ringWrite
  repeat' first
    | with_reducible assumption
    | intro y
    | (extract_lets +onlyGivenNames x
       first
       | (first | refine State.Keeps.letH (z := z) (x := x) ?_ ?_ | refine State.Keeps.letF (z := z) (x := x) ?_ ?_
          unfold x; clear x; rotate_left; clear_value x; intro; rotate_right)
       | clear_value x
       | skip)
    | with_reducible apply State.write_keeps
    | with_reducible apply State.countWrites_keeps
    | with_reducible apply State.askUnits_keeps
    | with_reducible apply State.Keeps.foldl
    | with_reducible apply State.Keeps.foldlProd
    | with_reducible apply State.Keeps.foldlSnd
    | simp -zeta -zetaDelta only [State.Keeps.mk_iff, State.Keeps.mk_flash]
    | split

theorem State.ringPush_keeps : ∀ (a0 : State) a1 a2 a3 a4 a5, z.Keeps a0 → z.Keeps (State.ringPush a0 a1 a2 a3 a4 a5).2.2 := by
  intro a0 a1 a2 a3 a4 a5 h
  unfold State.ringPush
  repeat' first
    | with_reducible assumption
    | intro y
    | (extract_lets +onlyGivenNames x
       first
       | (first | refine State.Keeps.letH (z := z) (x := x) ?_ ?_ | refine State.Keeps.letF (z := z) (x := x) ?_ ?_
          unfold x; clear x; rotate_left; clear_value x; intro; rotate_right)
       | clear_value x
       | skip)
    | with_reducible apply State.ringWrite_keeps
    | with_reducible apply State.Keeps.foldl
    | with_reducible apply State.Keeps.foldlProd
    | with_reducible apply State.Keeps.foldlSnd
    | simp -zeta -zetaDelta only [State.Keeps.mk_iff, State.Keeps.mk_flash]
    | split

theorem State.hostRingPush_keeps : ∀ (a0 : State) a1 a2 a3, z.Keeps a0 → z.Keeps (State.hostRingPush a0 a1 a2 a3).2.2 := by
  intro a0 a1 a2 a3 h
  unfold State.hostRingPush
  repeat' first
    | with_reducible assumption
    | with_reducible apply State.ringPush_keeps
    | split

theorem State.writeSample_keeps : ∀ (a0 : State) a1 a2 a3, z.Keeps a0 → z.Keeps (State.writeSample a0 a1 a2 a3) := by
  intro a0 a1 a2 a3 h
  unfold State.writeSample
  repeat' first
    | with_reducible assumption
    | (extract_lets +onlyGivenNames x
       first
       | (first | refine State.Keeps.letH (z := z) (x := x) ?_ ?_ | refine State.Keeps.letF (z := z) (x := x) ?_ ?_
          unfold x; clear x; rotate_left; clear_value x; intro; rotate_right)
       | clear_value x
       | skip)
    | with_reducible apply State.updDie_keeps
    | with_reducible apply State.count_keeps
    | with_reducible apply State.ringPush_keeps
    | with_reducible apply State.updCtx_keeps
    | simp -zeta -zetaDelta only [State.Keeps.mk_iff, State.Keeps.mk_flash]
    | split

theorem State.complete_keeps : ∀ (a0 : State) a1 a2 a3, z.Keeps a0 → z.Keeps (State.complete a0 a1 a2 a3) := by
  intro a0 a1 a2 a3 h
  unfold State.complete
  repeat' first
    | with_reducible assumption
    | (extract_lets +onlyGivenNames x
       first
       | (first | refine State.Keeps.letH (z := z) (x := x) ?_ ?_ | refine State.Keeps.letF (z := z) (x := x) ?_ ?_
          unfold x; clear x; rotate_left; clear_value x; intro; rotate_right)
       | clear_value x
       | skip)
    | with_reducible apply State.semAdd_keeps
    | with_reducible apply State.count_keeps
    | with_reducible apply State.measure_keeps
    | with_reducible apply State.writeSample_keeps
    | split

theorem execInstructionComplete_keeps : ∀ a0 a1 a2 (a3 : State), z.Keeps a3 → OutKeeps z (execInstructionComplete a0 a1 a2 a3) := by
  intro a0 a1 a2 a3 h
  unfold execInstructionComplete
  repeat' first
    | with_reducible assumption
    | intro y
    | (extract_lets +onlyGivenNames x
       first
       | (first | refine State.Keeps.letH (z := z) (x := x) ?_ ?_ | refine State.Keeps.letF (z := z) (x := x) ?_ ?_
          unfold x; clear x; rotate_left; clear_value x; intro; rotate_right)
       | clear_value x
       | skip)
    | with_reducible apply OutKeeps.next
    | with_reducible apply State.complete_keeps
    | with_reducible apply State.updStream_keeps
    | with_reducible apply State.Keeps.foldl
    | with_reducible apply State.Keeps.foldlProd
    | with_reducible apply State.Keeps.foldlSnd
    | simp -zeta -zetaDelta only [State.Keeps.mk_iff, State.Keeps.mk_flash]
    | split

theorem State.invalid_keeps : ∀ (a0 : State) a1 a2 a3, z.Keeps a0 → z.Keeps (State.invalid a0 a1 a2 a3) := by
  intro a0 a1 a2 a3 h
  unfold State.invalid
  repeat' first
    | with_reducible assumption
    | with_reducible apply State.stopFault_keeps

theorem State.issued_keeps : ∀ (a0 : State) a1 a2 a3, z.Keeps a0 → z.Keeps (State.issued a0 a1 a2 a3) := by
  intro a0 a1 a2 a3 h
  unfold State.issued
  repeat' first
    | with_reducible assumption
    | (extract_lets +onlyGivenNames x
       first
       | (first | refine State.Keeps.letH (z := z) (x := x) ?_ ?_ | refine State.Keeps.letF (z := z) (x := x) ?_ ?_
          unfold x; clear x; rotate_left; clear_value x; intro; rotate_right)
       | clear_value x
       | skip)
    | with_reducible apply State.updStream_keeps
    | with_reducible apply State.count_keeps

theorem State.drawGap_keeps : ∀ (a0 : State) a1 a2, z.Keeps a0 → z.Keeps (State.drawGap a0 a1 a2) := by
  intro a0 a1 a2 h
  unfold State.drawGap
  repeat' first
    | with_reducible assumption
    | (extract_lets +onlyGivenNames x
       first
       | (first | refine State.Keeps.letH (z := z) (x := x) ?_ ?_ | refine State.Keeps.letF (z := z) (x := x) ?_ ?_
          unfold x; clear x; rotate_left; clear_value x; intro; rotate_right)
       | clear_value x
       | skip)
    | with_reducible apply State.draw_keeps
    | with_reducible apply State.count_keeps
    | with_reducible apply State.updStream_keeps
    | simp -zeta -zetaDelta only [State.Keeps.mk_iff, State.Keeps.mk_flash]
    | split

theorem State.afterHold_keeps : ∀ (a0 : State) a1 a2 a3, z.Keeps a0 → z.Keeps (State.afterHold a0 a1 a2 a3) := by
  intro a0 a1 a2 a3 h
  unfold State.afterHold
  repeat' first
    | with_reducible assumption
    | with_reducible apply State.measure_keeps
    | split

theorem State.afterHeader_keeps : ∀ (a0 : State) a1 a2, z.Keeps a0 → z.Keeps (State.afterHeader a0 a1 a2) := by
  intro a0 a1 a2 h
  unfold State.afterHeader
  repeat' first
    | with_reducible assumption
    | intro y
    | (extract_lets +onlyGivenNames x
       first
       | (first | refine State.Keeps.letH (z := z) (x := x) ?_ ?_ | refine State.Keeps.letF (z := z) (x := x) ?_ ?_
          unfold x; clear x; rotate_left; clear_value x; intro; rotate_right)
       | clear_value x
       | skip)
    | with_reducible apply State.afterHold_keeps
    | with_reducible apply State.Keeps.foldl
    | with_reducible apply State.Keeps.foldlProd
    | with_reducible apply State.Keeps.foldlSnd
    | simp -zeta -zetaDelta only [State.Keeps.mk_iff, State.Keeps.mk_flash]
    | split

theorem State.tryIssue_keeps (s : State) (d : Die) (c : Ctx) (w : IWord) (cls op : Nat) (ok : CtxSt → Stream → Bool) (h : z.Keeps s) :
    (∀ u, s.tryIssue d c w cls op ok = .stays u → z.Keeps u) ∧ (∀ u a, s.tryIssue d c w cls op ok = .go u a → z.Keeps u) := by
  suffices k : ∀ i, s.tryIssue d c w cls op ok = i → (∀ u, i = .stays u → z.Keeps u) ∧ (∀ u a, i = .go u a → z.Keeps u) from k _ rfl
  intro i e
  unfold State.tryIssue at e
  subst e
  constructor <;> intros <;> rename_i e <;> revert e <;>
  repeat' first
    | with_reducible assumption
    | (intro e; cases e; done)
    | (intro e; injection e with e1 e2; subst e1)
    | (intro e; injection e with e1; subst e1)
    | with_reducible apply State.invalid_keeps
    | with_reducible apply State.drawGap_keeps
    | with_reducible apply State.issued_keeps
    | with_reducible apply State.afterHold_keeps
    | with_reducible apply State.updStream_keeps
    | with_reducible apply State.updDie_keeps
    | (extract_lets +onlyGivenNames x
       clear_value x)
    | split

theorem State.tryIssue_stays {s u : State} {d c w cls op ok} (h : z.Keeps s) (e : s.tryIssue d c w cls op ok = .stays u) : z.Keeps u :=
  (State.tryIssue_keeps s d c w cls op ok h).1 u e

theorem State.tryIssue_go_keeps {s u : State} {d c w cls op ok a} (h : z.Keeps s) (e : s.tryIssue d c w cls op ok = .go u a) : z.Keeps u :=
  (State.tryIssue_keeps s d c w cls op ok h).2 u a e

theorem State.sequencerDone_keeps : ∀ (a0 : State) a1 a2 a3 a4, z.Keeps a0 → z.Keeps (State.sequencerDone a0 a1 a2 a3 a4) := by
  intro a0 a1 a2 a3 a4 h
  unfold State.sequencerDone
  repeat' first
    | with_reducible assumption
    | with_reducible apply State.complete_keeps

theorem Run.close_keeps : ∀ (a0 : Run) a1 a2, z.Keeps a0.s → z.Keeps (Run.close a0 a1 a2) := by
  intro a0 a1 a2 h
  unfold Run.close
  repeat' first
    | with_reducible assumption
    | intro y
    | (extract_lets +onlyGivenNames x
       first
       | (first | refine State.Keeps.letH (z := z) (x := x) ?_ ?_ | refine State.Keeps.letF (z := z) (x := x) ?_ ?_
          unfold x; clear x; rotate_left; clear_value x; intro; rotate_right)
       | clear_value x
       | skip)
    | with_reducible apply State.faultStop_keeps
    | with_reducible apply State.orVerdict_keeps
    | with_reducible apply State.updStream_keeps
    | with_reducible apply State.count_keeps
    | with_reducible apply State.Keeps.foldl
    | with_reducible apply State.Keeps.foldlProd
    | with_reducible apply State.Keeps.foldlSnd
    | simp -zeta -zetaDelta only [State.Keeps.mk_iff, State.Keeps.mk_flash]
    | split

theorem Run.finish_keeps : ∀ (a0 : Run), z.Keeps a0.s → z.Keeps (Run.finish a0) := by
  intro a0 h
  unfold Run.finish
  repeat' first
    | with_reducible assumption
    | with_reducible apply Run.close_keeps

theorem State.compareRetry_keeps : ∀ (a0 : State) a1 a2 a3, z.Keeps a0 → z.Keeps (State.compareRetry a0 a1 a2 a3) := by
  intro a0 a1 a2 a3 h
  unfold State.compareRetry
  repeat' first
    | with_reducible assumption
    | (extract_lets +onlyGivenNames x
       first
       | (first | refine State.Keeps.letH (z := z) (x := x) ?_ ?_ | refine State.Keeps.letF (z := z) (x := x) ?_ ?_
          unfold x; clear x; rotate_left; clear_value x; intro; rotate_right)
       | clear_value x
       | skip)
    | with_reducible apply State.count_keeps
    | with_reducible apply State.updDie_keeps
    | split

theorem captureVector_keeps : ∀ a0 a1, ExecKeeps (captureVector a0 a1) := by
  intro a0 a1
  unfold captureVector
  repeat' first
    | with_reducible assumption
    | intro y
    | (extract_lets +onlyGivenNames x
       first
       | (first | refine State.Keeps.letH (z := z) (x := x) ?_ ?_ | refine State.Keeps.letF (z := z) (x := x) ?_ ?_ | refine State.Keeps.letR (z := z) (x := x) ?_ ?_ | refine ExecKeeps.letJ (x := x) ?_ ?_ | refine ExecKeeps.letM (x := x) ?_ ?_
          unfold x; clear x; rotate_left; clear_value x; intro; rotate_right)
       | clear_value x
       | skip)
    | with_reducible apply resolve_keeps
    | with_reducible apply State.takeCapture_keeps
    | with_reducible apply getCtx_keeps
    | with_reducible exact ExecKeeps.pure _
    | with_reducible exact ExecKeeps.trap _
    | with_reducible exact ExecKeeps.get
    | with_reducible exact ExecKeeps.getS
    | with_reducible apply ExecKeeps.bind
    | with_reducible apply ExecKeeps.modS
    | with_reducible apply ExecKeeps.modify
    | with_reducible apply ExecKeeps.forM
    | with_reducible apply ExecKeeps.mapM
    | with_reducible apply ExecKeeps.foldlM
    | with_reducible apply ExecKeeps.when
    | with_reducible apply State.Keeps.foldl
    | with_reducible apply State.Keeps.foldlProd
    | with_reducible apply State.Keeps.foldlSnd
    | simp -zeta -zetaDelta only [State.Keeps.mk_iff, State.Keeps.mk_flash]
    | split

theorem State.meetPhys_keeps : ∀ (a0 : State) a1 a2 a3, z.Keeps a0 → z.Keeps (State.meetPhys a0 a1 a2 a3) := by
  intro a0 a1 a2 a3 h
  unfold State.meetPhys
  repeat' first
    | with_reducible assumption
    | intro y
    | (extract_lets +onlyGivenNames x
       first
       | (first | refine State.Keeps.letH (z := z) (x := x) ?_ ?_ | refine State.Keeps.letF (z := z) (x := x) ?_ ?_
          unfold x; clear x; rotate_left; clear_value x; intro; rotate_right)
       | clear_value x
       | skip)
    | with_reducible apply State.applyPhys_keeps
    | with_reducible apply State.compareRetry_keeps
    | with_reducible apply State.Keeps.foldl
    | with_reducible apply State.Keeps.foldlProd
    | with_reducible apply State.Keeps.foldlSnd
    | simp -zeta -zetaDelta only [State.Keeps.mk_iff, State.Keeps.mk_flash]
    | split

theorem State.runEngine_keeps : ∀ (a0 : State) a1 a2 a3 a4 a5 a6 a7 a8, z.Keeps a0 → ExecKeeps a8 → z.Keeps (State.runEngine a0 a1 a2 a3 a4 a5 a6 a7 a8) := by
  intro a0 a1 a2 a3 a4 a5 a6 a7 a8 h ha8
  unfold State.runEngine
  repeat' first
    | with_reducible assumption
    | intro y
    | (extract_lets +onlyGivenNames x
       first
       | (first | refine State.Keeps.letH (z := z) (x := x) ?_ ?_ | refine State.Keeps.letF (z := z) (x := x) ?_ ?_ | refine State.Keeps.letR (z := z) (x := x) ?_ ?_ | refine ExecKeeps.letJ (x := x) ?_ ?_ | refine ExecKeeps.letM (x := x) ?_ ?_
          unfold x; clear x; rotate_left; clear_value x; intro; rotate_right)
       | clear_value x
       | skip)
    | with_reducible apply ha8
    | with_reducible apply State.kill_keeps
    | with_reducible apply raiseCompute_keeps
    | with_reducible apply captureVector_keeps
    | with_reducible apply State.stopFault_keeps
    | with_reducible apply Run.finish_keeps
    | with_reducible apply State.meetPhys_keeps
    | with_reducible apply State.deviceFaultNow_keeps
    | with_reducible exact ExecKeeps.pure _
    | with_reducible exact ExecKeeps.trap _
    | with_reducible exact ExecKeeps.get
    | with_reducible exact ExecKeeps.getS
    | with_reducible apply ExecKeeps.bind
    | with_reducible apply ExecKeeps.modS
    | with_reducible apply ExecKeeps.modify
    | with_reducible apply ExecKeeps.forM
    | with_reducible apply ExecKeeps.mapM
    | with_reducible apply ExecKeeps.foldlM
    | with_reducible apply ExecKeeps.when
    | with_reducible refine ExecKeeps.run ?_ ?_ (by with_reducible assumption)
    | with_reducible apply State.Keeps.foldl
    | with_reducible apply State.Keeps.foldlProd
    | with_reducible apply State.Keeps.foldlSnd
    | simp -zeta -zetaDelta only [State.Keeps.mk_iff, State.Keeps.mk_flash]
    | split
    | with_reducible apply_assumption

theorem engine_keeps : ∀ a0 a1 a2 a3 a4 a5 a6 a7 a8 a9 (a10 : State), ExecKeeps a9 → z.Keeps a10 → OutKeeps z (engine a0 a1 a2 a3 a4 a5 a6 a7 a8 a9 a10) := by
  intro a0 a1 a2 a3 a4 a5 a6 a7 a8 a9 a10 ha9 h
  unfold engine
  repeat' first
    | with_reducible assumption
    | intro y
    | (extract_lets +onlyGivenNames x
       first
       | (first | refine State.Keeps.letH (z := z) (x := x) ?_ ?_ | refine State.Keeps.letF (z := z) (x := x) ?_ ?_ | refine State.Keeps.letR (z := z) (x := x) ?_ ?_ | refine ExecKeeps.letJ (x := x) ?_ ?_ | refine ExecKeeps.letM (x := x) ?_ ?_
          unfold x; clear x; rotate_left; clear_value x; intro; rotate_right)
       | clear_value x
       | skip)
    | with_reducible apply ha9
    | with_reducible apply OutKeeps.next
    | with_reducible apply State.runEngine_keeps
    | with_reducible refine State.tryIssue_stays ?_ (by with_reducible assumption)
    | with_reducible refine State.tryIssue_go_keeps ?_ (by with_reducible assumption)
    | with_reducible exact ExecKeeps.pure _
    | with_reducible exact ExecKeeps.trap _
    | with_reducible exact ExecKeeps.get
    | with_reducible exact ExecKeeps.getS
    | with_reducible apply ExecKeeps.bind
    | with_reducible apply ExecKeeps.modS
    | with_reducible apply ExecKeeps.modify
    | with_reducible apply ExecKeeps.forM
    | with_reducible apply ExecKeeps.mapM
    | with_reducible apply ExecKeeps.foldlM
    | with_reducible apply ExecKeeps.when
    | with_reducible refine ExecKeeps.run ?_ ?_ (by with_reducible assumption)
    | with_reducible apply State.Keeps.foldl
    | with_reducible apply State.Keeps.foldlProd
    | with_reducible apply State.Keeps.foldlSnd
    | simp -zeta -zetaDelta only [State.Keeps.mk_iff, State.Keeps.mk_flash]
    | split
    | with_reducible apply_assumption

theorem sequencer_keeps : ∀ a0 a1 a2 a3 a4 a5 a6 (a7 : State), (∀ (b0 : State), z.Keeps b0 → z.Keeps (a6 b0)) → z.Keeps a7 → OutKeeps z (sequencer a0 a1 a2 a3 a4 a5 a6 a7) := by
  intro a0 a1 a2 a3 a4 a5 a6 a7 ha6 h
  unfold sequencer
  repeat' first
    | with_reducible assumption
    | (extract_lets +onlyGivenNames x
       first
       | (first | refine State.Keeps.letH (z := z) (x := x) ?_ ?_ | refine State.Keeps.letF (z := z) (x := x) ?_ ?_ | refine State.Keeps.letR (z := z) (x := x) ?_ ?_ | refine ExecKeeps.letJ (x := x) ?_ ?_ | refine ExecKeeps.letM (x := x) ?_ ?_
          unfold x; clear x; rotate_left; clear_value x; intro; rotate_right)
       | clear_value x
       | skip)
    | with_reducible apply ha6
    | with_reducible apply OutKeeps.next
    | with_reducible refine State.tryIssue_stays ?_ (by with_reducible assumption)
    | with_reducible refine State.tryIssue_go_keeps ?_ (by with_reducible assumption)
    | with_reducible apply State.sequencerDone_keeps
    | split

theorem execSyWait_keeps : ∀ a0 a1 a2 (a3 : State), z.Keeps a3 → OutKeeps z (execSyWait a0 a1 a2 a3) := by
  intro a0 a1 a2 a3 h
  unfold execSyWait
  repeat' first
    | with_reducible assumption
    | intro y
    | (extract_lets +onlyGivenNames x
       first
       | (first | refine State.Keeps.letH (z := z) (x := x) ?_ ?_ | refine State.Keeps.letF (z := z) (x := x) ?_ ?_
          unfold x; clear x; rotate_left; clear_value x; intro; rotate_right)
       | clear_value x
       | skip)
    | with_reducible apply OutKeeps.next
    | with_reducible apply State.afterHeader_keeps
    | with_reducible apply State.updStream_keeps
    | with_reducible refine State.tryIssue_stays ?_ (by with_reducible assumption)
    | with_reducible refine State.tryIssue_go_keeps ?_ (by with_reducible assumption)
    | with_reducible apply State.sequencerDone_keeps
    | with_reducible apply State.Keeps.foldl
    | with_reducible apply State.Keeps.foldlProd
    | with_reducible apply State.Keeps.foldlSnd
    | simp -zeta -zetaDelta only [State.Keeps.mk_iff, State.Keeps.mk_flash]
    | split

theorem execSySignal_keeps : ∀ a0 a1 a2 (a3 : State), z.Keeps a3 → OutKeeps z (execSySignal a0 a1 a2 a3) := by
  intro a0 a1 a2 a3 h
  unfold execSySignal
  repeat' first
    | with_reducible assumption
    | intro y
    | (extract_lets +onlyGivenNames x
       first
       | (first | refine State.Keeps.letH (z := z) (x := x) ?_ ?_ | refine State.Keeps.letF (z := z) (x := x) ?_ ?_
          unfold x; clear x; rotate_left; clear_value x; intro; rotate_right)
       | clear_value x
       | skip)
    | with_reducible apply sequencer_keeps
    | with_reducible apply State.semAdd_keeps

theorem execSySet_keeps : ∀ a0 a1 a2 (a3 : State), z.Keeps a3 → OutKeeps z (execSySet a0 a1 a2 a3) := by
  intro a0 a1 a2 a3 h
  unfold execSySet
  repeat' first
    | with_reducible assumption
    | intro y
    | (extract_lets +onlyGivenNames x
       first
       | (first | refine State.Keeps.letH (z := z) (x := x) ?_ ?_ | refine State.Keeps.letF (z := z) (x := x) ?_ ?_
          unfold x; clear x; rotate_left; clear_value x; intro; rotate_right)
       | clear_value x
       | skip)
    | with_reducible apply sequencer_keeps
    | with_reducible apply State.semSet_keeps

theorem execSyFence_keeps : ∀ a0 a1 a2 (a3 : State), z.Keeps a3 → OutKeeps z (execSyFence a0 a1 a2 a3) := by
  intro a0 a1 a2 a3 h
  unfold execSyFence
  repeat' first
    | with_reducible assumption
    | (extract_lets +onlyGivenNames x
       first
       | (first | refine State.Keeps.letH (z := z) (x := x) ?_ ?_ | refine State.Keeps.letF (z := z) (x := x) ?_ ?_
          unfold x; clear x; rotate_left; clear_value x; intro; rotate_right)
       | clear_value x
       | skip)
    | with_reducible apply OutKeeps.next
    | with_reducible refine State.tryIssue_stays ?_ (by with_reducible assumption)
    | with_reducible refine State.tryIssue_go_keeps ?_ (by with_reducible assumption)
    | with_reducible apply State.sequencerDone_keeps
    | with_reducible apply State.updStream_keeps
    | split

theorem execSyJump_keeps : ∀ a0 a1 a2 (a3 : State), z.Keeps a3 → OutKeeps z (execSyJump a0 a1 a2 a3) := by
  intro a0 a1 a2 a3 h
  unfold execSyJump
  repeat' first
    | with_reducible assumption
    | (extract_lets +onlyGivenNames x
       first
       | (first | refine State.Keeps.letH (z := z) (x := x) ?_ ?_ | refine State.Keeps.letF (z := z) (x := x) ?_ ?_
          unfold x; clear x; rotate_left; clear_value x; intro; rotate_right)
       | clear_value x
       | skip)
    | with_reducible apply OutKeeps.next
    | with_reducible refine State.tryIssue_stays ?_ (by with_reducible assumption)
    | with_reducible refine State.tryIssue_go_keeps ?_ (by with_reducible assumption)
    | with_reducible apply State.updStream_keeps
    | with_reducible apply State.sequencerDone_keeps
    | split

theorem execCfSeed_keeps : ∀ a0 a1 a2 (a3 : State), z.Keeps a3 → OutKeeps z (execCfSeed a0 a1 a2 a3) := by
  intro a0 a1 a2 a3 h
  unfold execCfSeed
  repeat' first
    | with_reducible assumption
    | intro y
    | (extract_lets +onlyGivenNames x
       first
       | (first | refine State.Keeps.letH (z := z) (x := x) ?_ ?_ | refine State.Keeps.letF (z := z) (x := x) ?_ ?_
          unfold x; clear x; rotate_left; clear_value x; intro; rotate_right)
       | clear_value x
       | skip)
    | with_reducible apply sequencer_keeps
    | with_reducible apply State.updStream_keeps

theorem execCfAccdef_keeps : ∀ a0 a1 a2 (a3 : State), z.Keeps a3 → OutKeeps z (execCfAccdef a0 a1 a2 a3) := by
  intro a0 a1 a2 a3 h
  unfold execCfAccdef
  repeat' first
    | with_reducible assumption
    | intro y
    | (extract_lets +onlyGivenNames x
       first
       | (first | refine State.Keeps.letH (z := z) (x := x) ?_ ?_ | refine State.Keeps.letF (z := z) (x := x) ?_ ?_
          unfold x; clear x; rotate_left; clear_value x; intro; rotate_right)
       | clear_value x
       | skip)
    | with_reducible apply sequencer_keeps
    | with_reducible apply State.updStream_keeps

theorem execCfTimeout_keeps : ∀ a0 a1 a2 (a3 : State), z.Keeps a3 → OutKeeps z (execCfTimeout a0 a1 a2 a3) := by
  intro a0 a1 a2 a3 h
  unfold execCfTimeout
  repeat' first
    | with_reducible assumption
    | intro y
    | (extract_lets +onlyGivenNames x
       first
       | (first | refine State.Keeps.letH (z := z) (x := x) ?_ ?_ | refine State.Keeps.letF (z := z) (x := x) ?_ ?_
          unfold x; clear x; rotate_left; clear_value x; intro; rotate_right)
       | clear_value x
       | skip)
    | with_reducible apply sequencer_keeps
    | with_reducible apply State.updStream_keeps

theorem execCfNop_keeps : ∀ a0 a1 a2 (a3 : State), z.Keeps a3 → OutKeeps z (execCfNop a0 a1 a2 a3) := by
  intro a0 a1 a2 a3 h
  unfold execCfNop
  repeat' first
    | with_reducible assumption
    | intro y
    | with_reducible apply sequencer_keeps

theorem execMkStep_keeps : ∀ a0 a1 a2 (a3 : State), z.Keeps a3 → OutKeeps z (execMkStep a0 a1 a2 a3) := by
  intro a0 a1 a2 a3 h
  unfold execMkStep
  repeat' first
    | with_reducible assumption
    | intro y
    | (extract_lets +onlyGivenNames x
       first
       | (first | refine State.Keeps.letH (z := z) (x := x) ?_ ?_ | refine State.Keeps.letF (z := z) (x := x) ?_ ?_
          unfold x; clear x; rotate_left; clear_value x; intro; rotate_right)
       | clear_value x
       | skip)
    | with_reducible apply OutKeeps.next
    | with_reducible apply State.latchAtMk_keeps
    | with_reducible apply State.stopFault_keeps
    | with_reducible apply State.updStream_keeps
    | with_reducible refine State.tryIssue_stays ?_ (by with_reducible assumption)
    | with_reducible refine State.tryIssue_go_keeps ?_ (by with_reducible assumption)
    | with_reducible apply State.Keeps.foldl
    | with_reducible apply State.Keeps.foldlProd
    | with_reducible apply State.Keeps.foldlSnd
    | simp -zeta -zetaDelta only [State.Keeps.mk_iff, State.Keeps.mk_flash]
    | split

theorem execSyncTimeout_keeps : ∀ a0 a1 (a2 : State), z.Keeps a2 → OutKeeps z (execSyncTimeout a0 a1 a2) := by
  intro a0 a1 a2 h
  unfold execSyncTimeout
  repeat' first
    | with_reducible assumption
    | intro y
    | (extract_lets +onlyGivenNames x
       first
       | (first | refine State.Keeps.letH (z := z) (x := x) ?_ ?_ | refine State.Keeps.letF (z := z) (x := x) ?_ ?_
          unfold x; clear x; rotate_left; clear_value x; intro; rotate_right)
       | clear_value x
       | skip)
    | with_reducible apply OutKeeps.next
    | with_reducible apply State.stopFault_keeps
    | with_reducible apply State.endBackoffs_keeps
    | with_reducible apply State.Keeps.foldl
    | with_reducible apply State.Keeps.foldlProd
    | with_reducible apply State.Keeps.foldlSnd
    | simp -zeta -zetaDelta only [State.Keeps.mk_iff, State.Keeps.mk_flash]
    | split

end Sys2Proof.Machine
end

