-- ==== Sys2Proof/Laws/KeepsShaper.lean ====
section
/-! SUPPORT. What Machine/Shaper.lean keeps: one lemma an operation. -/
namespace Sys2Proof.Machine
set_option linter.all false

variable {z : State}

theorem countE_keeps : ∀ a0 a1 a2, ExecKeeps (countE a0 a1 a2) := by
  intro a0 a1 a2
  unfold countE
  repeat' first
    | with_reducible assumption
    | intro y
    | (extract_lets +onlyGivenNames x
       first
       | (first | refine State.Keeps.letH (z := z) (x := x) ?_ ?_ | refine State.Keeps.letF (z := z) (x := x) ?_ ?_ | refine State.Keeps.letR (z := z) (x := x) ?_ ?_ | refine ExecKeeps.letJ (x := x) ?_ ?_ | refine ExecKeeps.letM (x := x) ?_ ?_
          unfold x; clear x; rotate_left; clear_value x; intro; rotate_right)
       | clear_value x
       | skip)
    | with_reducible apply State.count_keeps
    | with_reducible exact ExecKeeps.pure _
    | with_reducible exact ExecKeeps.get
    | with_reducible apply ExecKeeps.bind
    | with_reducible apply ExecKeeps.modS
    | split

theorem produce_keeps : ∀ a0 a1 a2 a3 a4 a5, ExecKeeps (produce a0 a1 a2 a3 a4 a5) := by
  intro a0 a1 a2 a3 a4 a5
  unfold produce
  repeat' first
    | with_reducible assumption
    | intro y
    | (extract_lets +onlyGivenNames x
       first
       | (first | refine State.Keeps.letH (z := z) (x := x) ?_ ?_ | refine State.Keeps.letF (z := z) (x := x) ?_ ?_ | refine State.Keeps.letR (z := z) (x := x) ?_ ?_ | refine ExecKeeps.letJ (x := x) ?_ ?_ | refine ExecKeeps.letM (x := x) ?_ ?_
          unfold x; clear x; rotate_left; clear_value x; intro; rotate_right)
       | clear_value x
       | skip)
    | with_reducible apply openDest_keeps
    | with_reducible apply writeSet_keeps
    | with_reducible apply setNonfinite_keeps
    | with_reducible apply State.countProduction_keeps
    | with_reducible apply countE_keeps
    | with_reducible exact ExecKeeps.pure _
    | with_reducible exact ExecKeeps.get
    | with_reducible apply ExecKeeps.bind
    | with_reducible exact ExecKeeps.getS
    | with_reducible apply ExecKeeps.modS

theorem quantBody_keeps : ∀ a0 a1, ExecKeeps (quantBody a0 a1) := by
  intro a0 a1
  unfold quantBody
  repeat' first
    | intro y
    | (extract_lets +onlyGivenNames x
       first
       | (first | refine ExecKeeps.letJ (x := x) ?_ ?_ | refine ExecKeeps.letM (x := x) ?_ ?_
          unfold x; clear x; rotate_left; clear_value x; intro; rotate_right)
       | clear_value x
       | skip)
    | with_reducible apply getCtx_keeps
    | with_reducible apply resolve_keeps
    | with_reducible apply shapeIf_keeps
    | with_reducible apply readVals_keeps
    | with_reducible apply readRow_keeps
    | with_reducible apply produce_keeps
    | with_reducible apply countE_keeps
    | with_reducible exact ExecKeeps.pure _
    | with_reducible apply ExecKeeps.bind
    | with_reducible apply ExecKeeps.mapM
    | split

theorem State.dropHalfPair_keeps : ∀ (a0 : State) a1 a2, z.Keeps a0 → z.Keeps (State.dropHalfPair a0 a1 a2) := by
  intro a0 a1 a2 h
  unfold State.dropHalfPair
  repeat' first
    | with_reducible assumption
    | intro y
    | (extract_lets +onlyGivenNames x
       first
       | (first | refine State.Keeps.letH (z := z) (x := x) ?_ ?_ | refine State.Keeps.letF (z := z) (x := x) ?_ ?_
          unfold x; clear x; rotate_left; clear_value x; intro; rotate_right)
       | clear_value x
       | skip)
    | with_reducible apply State.updStream_keeps
    | with_reducible apply State.Keeps.foldl
    | with_reducible apply State.Keeps.foldlProd
    | with_reducible apply State.Keeps.foldlSnd
    | simp -zeta -zetaDelta only [State.Keeps.mk_iff, State.Keeps.mk_flash]
    | split

theorem execShQuant_keeps : ∀ a0 a1 a2 a3 (a4 : State), z.Keeps a4 → OutKeeps z (execShQuant a0 a1 a2 a3 a4) := by
  intro a0 a1 a2 a3 a4 h
  unfold execShQuant
  repeat' first
    | with_reducible assumption
    | intro y
    | (extract_lets +onlyGivenNames x
       first
       | (first | refine State.Keeps.letH (z := z) (x := x) ?_ ?_ | refine State.Keeps.letF (z := z) (x := x) ?_ ?_ | refine State.Keeps.letR (z := z) (x := x) ?_ ?_ | refine ExecKeeps.letJ (x := x) ?_ ?_ | refine ExecKeeps.letM (x := x) ?_ ?_
          unfold x; clear x; rotate_left; clear_value x; intro; rotate_right)
       | clear_value x
       | skip)
    | with_reducible apply OutKeeps.next
    | with_reducible apply State.runEngine_keeps
    | with_reducible apply quantBody_keeps
    | with_reducible apply State.dropHalfPair_keeps
    | with_reducible apply State.updStream_keeps
    | with_reducible refine State.tryIssue_stays ?_ (by with_reducible assumption)
    | with_reducible refine State.tryIssue_go_keeps ?_ (by with_reducible assumption)
    | with_reducible exact ExecKeeps.pure _
    | with_reducible exact ExecKeeps.trap _
    | with_reducible exact ExecKeeps.get
    | with_reducible exact ExecKeeps.getS
    | with_reducible apply ExecKeeps.bind
    | with_reducible apply ExecKeeps.modS
    | with_reducible apply ExecKeeps.modify
    | with_reducible apply ExecKeeps.forM
    | with_reducible apply ExecKeeps.mapM
    | with_reducible apply ExecKeeps.foldlM
    | with_reducible apply ExecKeeps.when
    | with_reducible refine ExecKeeps.run ?_ ?_ (by with_reducible assumption)
    | with_reducible apply State.Keeps.foldl
    | with_reducible apply State.Keeps.foldlProd
    | with_reducible apply State.Keeps.foldlSnd
    | simp -zeta -zetaDelta only [State.Keeps.mk_iff, State.Keeps.mk_flash]
    | split

theorem dequantBody_keeps : ∀ a0, ExecKeeps (dequantBody a0) := by
  intro a0
  unfold dequantBody
  repeat' first
    | with_reducible assumption
    | intro y
    | (extract_lets +onlyGivenNames x
       first
       | (first | refine ExecKeeps.letJ (x := x) ?_ ?_ | refine ExecKeeps.letM (x := x) ?_ ?_
          unfold x; clear x; rotate_left; clear_value x; intro; rotate_right)
       | clear_value x
       | skip)
    | with_reducible apply openSet_keeps
    | with_reducible apply resolve_keeps
    | with_reducible apply shapeIf_keeps
    | with_reducible apply raisePairing_keeps
    | with_reducible apply setNonfinite_keeps
    | with_reducible apply writeElems_keeps
    | with_reducible apply readUnits_keeps
    | with_reducible exact ExecKeeps.pure _
    | with_reducible apply ExecKeeps.bind
    | with_reducible exact ExecKeeps.getS
    | split
    | with_reducible apply_assumption

theorem execShDequant_keeps : ∀ a0 a1 a2 a3 (a4 : State), z.Keeps a4 → OutKeeps z (execShDequant a0 a1 a2 a3 a4) := by
  intro a0 a1 a2 a3 a4 h
  unfold execShDequant
  repeat' first
    | with_reducible assumption
    | (extract_lets +onlyGivenNames x
       first
       | (first | refine State.Keeps.letH (z := z) (x := x) ?_ ?_ | refine State.Keeps.letF (z := z) (x := x) ?_ ?_ | refine State.Keeps.letR (z := z) (x := x) ?_ ?_ | refine ExecKeeps.letJ (x := x) ?_ ?_ | refine ExecKeeps.letM (x := x) ?_ ?_
          unfold x; clear x; rotate_left; clear_value x; intro; rotate_right)
       | clear_value x
       | skip)
    | with_reducible apply engine_keeps
    | with_reducible apply dequantBody_keeps

theorem rotateBody_keeps : ∀ a0, ExecKeeps (rotateBody a0) := by
  intro a0
  unfold rotateBody
  repeat' first
    | intro y
    | (extract_lets +onlyGivenNames x
       first
       | (first | refine ExecKeeps.letJ (x := x) ?_ ?_ | refine ExecKeeps.letM (x := x) ?_ ?_
          unfold x; clear x; rotate_left; clear_value x; intro; rotate_right)
       | clear_value x
       | skip)
    | with_reducible apply resolve_keeps
    | with_reducible apply shapeIf_keeps
    | with_reducible apply readElems_keeps
    | with_reducible apply setNonfinite_keeps
    | with_reducible apply writeElems_keeps
    | with_reducible exact ExecKeeps.pure _
    | with_reducible apply ExecKeeps.bind
    | split

theorem execShRotate_keeps : ∀ a0 a1 a2 a3 (a4 : State), z.Keeps a4 → OutKeeps z (execShRotate a0 a1 a2 a3 a4) := by
  intro a0 a1 a2 a3 a4 h
  unfold execShRotate
  repeat' first
    | with_reducible assumption
    | (extract_lets +onlyGivenNames x
       first
       | (first | refine State.Keeps.letH (z := z) (x := x) ?_ ?_ | refine State.Keeps.letF (z := z) (x := x) ?_ ?_ | refine State.Keeps.letR (z := z) (x := x) ?_ ?_ | refine ExecKeeps.letJ (x := x) ?_ ?_ | refine ExecKeeps.letM (x := x) ?_ ?_
          unfold x; clear x; rotate_left; clear_value x; intro; rotate_right)
       | clear_value x
       | skip)
    | with_reducible apply engine_keeps
    | with_reducible apply rotateBody_keeps

end Sys2Proof.Machine
end

