-- ==== Sys2Proof/Laws/KeepsArrays.lean ====
section
/-! SUPPORT. What Machine/Arrays.lean keeps: one lemma an operation. -/
namespace Sys2Proof.Machine
set_option linter.all false

variable {z : State}

theorem accFault_keeps : ∀ {α : Type} a1 a2, ExecKeeps (@accFault α a1 a2) := by
  intro α a1 a2
  unfold accFault
  repeat' first
    | with_reducible exact ExecKeeps.trap _

theorem physNow_keeps : ∀ a0, ExecKeeps (physNow a0) := by
  intro a0
  unfold physNow
  repeat' first
    | intro y
    | (extract_lets +onlyGivenNames x
       first
       | (first | refine State.Keeps.letH (z := z) (x := x) ?_ ?_ | refine State.Keeps.letF (z := z) (x := x) ?_ ?_ | refine State.Keeps.letR (z := z) (x := x) ?_ ?_ | refine ExecKeeps.letJ (x := x) ?_ ?_ | refine ExecKeeps.letM (x := x) ?_ ?_
          unfold x; clear x; rotate_left; clear_value x; intro; rotate_right)
       | clear_value x
       | skip)
    | with_reducible apply accFault_keeps
    | with_reducible exact ExecKeeps.pure _
    | with_reducible exact ExecKeeps.get
    | with_reducible apply ExecKeeps.bind
    | split

theorem evict_keeps : ∀ a0 a1, ExecKeeps (evict a0 a1) := by
  intro a0 a1
  unfold evict
  repeat' first
    | with_reducible assumption
    | intro y
    | (extract_lets +onlyGivenNames x
       first
       | (first | refine State.Keeps.letH (z := z) (x := x) ?_ ?_ | refine State.Keeps.letF (z := z) (x := x) ?_ ?_ | refine State.Keeps.letR (z := z) (x := x) ?_ ?_ | refine ExecKeeps.letJ (x := x) ?_ ?_ | refine ExecKeeps.letM (x := x) ?_ ?_
          unfold x; clear x; rotate_left; clear_value x; intro; rotate_right)
       | clear_value x
       | skip)
    | with_reducible apply State.saveAccs_keeps
    | with_reducible exact ExecKeeps.get
    | with_reducible apply ExecKeeps.bind
    | with_reducible apply ExecKeeps.modS

theorem evictOwn_keeps : ∀ a0 a1 a2, ExecKeeps (evictOwn a0 a1 a2) := by
  intro a0 a1 a2
  unfold evictOwn
  repeat' first
    | with_reducible assumption
    | intro y
    | (extract_lets +onlyGivenNames x
       first
       | (first | refine State.Keeps.letH (z := z) (x := x) ?_ ?_ | refine State.Keeps.letF (z := z) (x := x) ?_ ?_ | refine State.Keeps.letR (z := z) (x := x) ?_ ?_ | refine ExecKeeps.letJ (x := x) ?_ ?_ | refine ExecKeeps.letM (x := x) ?_ ?_
          unfold x; clear x; rotate_left; clear_value x; intro; rotate_right)
       | clear_value x
       | skip)
    | with_reducible apply State.saveAccs_keeps
    | with_reducible exact ExecKeeps.get
    | with_reducible apply ExecKeeps.bind
    | with_reducible apply ExecKeeps.modS

theorem restoreAcc_keeps : ∀ a0, ExecKeeps (restoreAcc a0) := by
  intro a0
  unfold restoreAcc
  repeat' first
    | with_reducible assumption
    | intro y
    | (extract_lets +onlyGivenNames x
       first
       | (first | refine State.Keeps.letH (z := z) (x := x) ?_ ?_ | refine State.Keeps.letF (z := z) (x := x) ?_ ?_ | refine State.Keeps.letR (z := z) (x := x) ?_ ?_ | refine ExecKeeps.letJ (x := x) ?_ ?_ | refine ExecKeeps.letM (x := x) ?_ ?_
          unfold x; clear x; rotate_left; clear_value x; intro; rotate_right)
       | clear_value x
       | skip)
    | with_reducible apply State.countReads_keeps
    | with_reducible apply metPoison_keeps
    | with_reducible apply raiseMemory_keeps
    | with_reducible exact ExecKeeps.pure _
    | with_reducible exact ExecKeeps.trap _
    | with_reducible exact ExecKeeps.get
    | with_reducible exact ExecKeeps.getS
    | with_reducible apply ExecKeeps.bind
    | with_reducible apply ExecKeeps.modS
    | with_reducible apply ExecKeeps.modify
    | with_reducible apply ExecKeeps.forM
    | with_reducible apply ExecKeeps.mapM
    | with_reducible apply ExecKeeps.foldlM
    | with_reducible apply ExecKeeps.when
    | with_reducible apply State.Keeps.foldl
    | with_reducible apply State.Keeps.foldlProd
    | with_reducible apply State.Keeps.foldlSnd
    | simp -zeta -zetaDelta only [State.Keeps.mk_iff, State.Keeps.mk_flash]
    | split

theorem takeHeld_keeps : ∀ a0 a1 a2, ExecKeeps (takeHeld a0 a1 a2) := by
  intro a0 a1 a2
  unfold takeHeld
  repeat' first
    | with_reducible assumption
    | intro y
    | (extract_lets +onlyGivenNames x
       first
       | (first | refine State.Keeps.letH (z := z) (x := x) ?_ ?_ | refine State.Keeps.letF (z := z) (x := x) ?_ ?_ | refine State.Keeps.letR (z := z) (x := x) ?_ ?_ | refine ExecKeeps.letJ (x := x) ?_ ?_ | refine ExecKeeps.letM (x := x) ?_ ?_
          unfold x; clear x; rotate_left; clear_value x; intro; rotate_right)
       | clear_value x
       | skip)
    | with_reducible apply accFault_keeps
    | with_reducible apply State.updDie_keeps
    | with_reducible apply restoreAcc_keeps
    | with_reducible apply State.count_keeps
    | with_reducible exact ExecKeeps.pure _
    | with_reducible exact ExecKeeps.trap _
    | with_reducible exact ExecKeeps.get
    | with_reducible exact ExecKeeps.getS
    | with_reducible apply ExecKeeps.bind
    | with_reducible apply ExecKeeps.modS
    | with_reducible apply ExecKeeps.modify
    | with_reducible apply ExecKeeps.forM
    | with_reducible apply ExecKeeps.mapM
    | with_reducible apply ExecKeeps.foldlM
    | with_reducible apply ExecKeeps.when
    | with_reducible apply State.Keeps.foldl
    | with_reducible apply State.Keeps.foldlProd
    | with_reducible apply State.Keeps.foldlSnd
    | simp -zeta -zetaDelta only [State.Keeps.mk_iff, State.Keeps.mk_flash]
    | split

theorem bindDesc_keeps : ∀ a0 a1, ExecKeeps (bindDesc a0 a1) := by
  intro a0 a1
  unfold bindDesc
  repeat' first
    | intro y
    | (extract_lets +onlyGivenNames x
       first
       | (first | refine ExecKeeps.letJ (x := x) ?_ ?_ | refine ExecKeeps.letM (x := x) ?_ ?_
          unfold x; clear x; rotate_left; clear_value x; intro; rotate_right)
       | clear_value x
       | skip)
    | with_reducible apply getCtx_keeps
    | with_reducible apply resolve_keeps
    | with_reducible exact ExecKeeps.pure _
    | with_reducible apply ExecKeeps.bind

theorem bindOut_keeps : ∀ a0, ExecKeeps (bindOut a0) := by
  intro a0
  unfold bindOut
  repeat' first
    | intro y
    | (extract_lets +onlyGivenNames x
       first
       | (first | refine ExecKeeps.letJ (x := x) ?_ ?_ | refine ExecKeeps.letM (x := x) ?_ ?_
          unfold x; clear x; rotate_left; clear_value x; intro; rotate_right)
       | clear_value x
       | skip)
    | with_reducible apply bindDesc_keeps
    | with_reducible apply shapeIf_keeps
    | with_reducible exact ExecKeeps.pure _
    | with_reducible apply ExecKeeps.bind

theorem bindSpill_keeps : ∀ a0, ExecKeeps (bindSpill a0) := by
  intro a0
  unfold bindSpill
  repeat' first
    | intro y
    | (extract_lets +onlyGivenNames x
       first
       | (first | refine ExecKeeps.letJ (x := x) ?_ ?_ | refine ExecKeeps.letM (x := x) ?_ ?_
          unfold x; clear x; rotate_left; clear_value x; intro; rotate_right)
       | clear_value x
       | skip)
    | with_reducible apply bindDesc_keeps
    | with_reducible apply shapeIf_keeps
    | with_reducible exact ExecKeeps.pure _
    | with_reducible apply ExecKeeps.bind

theorem bindCarry_keeps : ∀ a0 a1, ExecKeeps (bindCarry a0 a1) := by
  intro a0 a1
  unfold bindCarry
  repeat' first
    | intro y
    | (extract_lets +onlyGivenNames x
       first
       | (first | refine ExecKeeps.letJ (x := x) ?_ ?_ | refine ExecKeeps.letM (x := x) ?_ ?_
          unfold x; clear x; rotate_left; clear_value x; intro; rotate_right)
       | clear_value x
       | skip)
    | with_reducible apply accFault_keeps
    | with_reducible apply readBlock_keeps
    | with_reducible apply readRow_keeps
    | with_reducible exact ExecKeeps.pure _
    | with_reducible exact ExecKeeps.get
    | with_reducible apply ExecKeeps.bind
    | with_reducible apply ExecKeeps.mapM
    | split

theorem startTile_keeps : ∀ a0 a1 a2 a3 a4 a5, ExecKeeps (startTile a0 a1 a2 a3 a4 a5) := by
  intro a0 a1 a2 a3 a4 a5
  unfold startTile
  repeat' first
    | intro y
    | (extract_lets +onlyGivenNames x
       first
       | (first | refine State.Keeps.letH (z := z) (x := x) ?_ ?_ | refine State.Keeps.letF (z := z) (x := x) ?_ ?_ | refine State.Keeps.letR (z := z) (x := x) ?_ ?_ | refine ExecKeeps.letJ (x := x) ?_ ?_ | refine ExecKeeps.letM (x := x) ?_ ?_
          unfold x; clear x; rotate_left; clear_value x; intro; rotate_right)
       | clear_value x
       | skip)
    | with_reducible apply takeHeld_keeps
    | with_reducible apply evict_keeps
    | with_reducible apply evictOwn_keeps
    | with_reducible apply accFault_keeps
    | with_reducible exact ExecKeeps.pure _
    | with_reducible exact ExecKeeps.get
    | with_reducible apply ExecKeeps.bind
    | split

theorem State.loadCells_keeps : ∀ (a0 : State) a1 a2 a3 a4 a5 a6 a7 a8 a9, z.Keeps a0 → z.Keeps (State.loadCells a0 a1 a2 a3 a4 a5 a6 a7 a8 a9) := by
  intro a0 a1 a2 a3 a4 a5 a6 a7 a8 a9 h
  unfold State.loadCells
  repeat' first
    | with_reducible assumption
    | intro y
    | (extract_lets +onlyGivenNames x
       first
       | (first | refine State.Keeps.letH (z := z) (x := x) ?_ ?_ | refine State.Keeps.letF (z := z) (x := x) ?_ ?_
          unfold x; clear x; rotate_left; clear_value x; intro; rotate_right)
       | clear_value x
       | skip)
    | with_reducible apply State.updDie_keeps
    | with_reducible apply State.Keeps.foldl
    | with_reducible apply State.Keeps.foldlProd
    | with_reducible apply State.Keeps.foldlSnd
    | simp -zeta -zetaDelta only [State.Keeps.mk_iff, State.Keeps.mk_flash]
    | split

theorem readTileUnits_keeps : ∀ a0 a1 a2 a3, ExecKeeps (readTileUnits a0 a1 a2 a3) := by
  intro a0 a1 a2 a3
  unfold readTileUnits
  repeat' first
    | (extract_lets +onlyGivenNames x
       first
       | (first | refine ExecKeeps.letJ (x := x) ?_ ?_ | refine ExecKeeps.letM (x := x) ?_ ?_
          unfold x; clear x; rotate_left; clear_value x; intro; rotate_right)
       | clear_value x
       | skip)
    | with_reducible apply readUnits_keeps
    | split

theorem productTile_keeps : ∀ a0 a1 a2 a3 a4 a5 a6 a7 a8 a9 a10 a11 a12 a13 a14, ExecKeeps (productTile a0 a1 a2 a3 a4 a5 a6 a7 a8 a9 a10 a11 a12 a13 a14) := by
  intro a0 a1 a2 a3 a4 a5 a6 a7 a8 a9 a10 a11 a12 a13 a14
  unfold productTile
  repeat' first
    | with_reducible assumption
    | intro y
    | (extract_lets +onlyGivenNames x
       first
       | (first | refine State.Keeps.letH (z := z) (x := x) ?_ ?_ | refine State.Keeps.letF (z := z) (x := x) ?_ ?_ | refine State.Keeps.letR (z := z) (x := x) ?_ ?_ | refine ExecKeeps.letJ (x := x) ?_ ?_ | refine ExecKeeps.letM (x := x) ?_ ?_
          unfold x; clear x; rotate_left; clear_value x; intro; rotate_right)
       | clear_value x
       | skip)
    | with_reducible apply accFault_keeps
    | with_reducible apply State.updDie_keeps
    | with_reducible apply readTileUnits_keeps
    | with_reducible apply startTile_keeps
    | with_reducible apply raisePairing_keeps
    | with_reducible apply setTainted_keeps
    | with_reducible apply State.loadCells_keeps
    | with_reducible apply getCtx_keeps
    | with_reducible apply countE_keeps
    | with_reducible exact ExecKeeps.pure _
    | with_reducible exact ExecKeeps.trap _
    | with_reducible exact ExecKeeps.get
    | with_reducible exact ExecKeeps.getS
    | with_reducible apply ExecKeeps.bind
    | with_reducible apply ExecKeeps.modS
    | with_reducible apply ExecKeeps.modify
    | with_reducible apply ExecKeeps.forM
    | with_reducible apply ExecKeeps.mapM
    | with_reducible apply ExecKeeps.foldlM
    | with_reducible apply ExecKeeps.when
    | with_reducible apply State.Keeps.foldl
    | with_reducible apply State.Keeps.foldlProd
    | with_reducible apply State.Keeps.foldlSnd
    | simp -zeta -zetaDelta only [State.Keeps.mk_iff, State.Keeps.mk_flash]
    | split
    | with_reducible apply_assumption

theorem productBody_keeps : ∀ a0 a1, ExecKeeps (productBody a0 a1) := by
  intro a0 a1
  unfold productBody
  repeat' first
    | with_reducible assumption
    | intro y
    | (extract_lets +onlyGivenNames x
       first
       | (first | refine State.Keeps.letH (z := z) (x := x) ?_ ?_ | refine State.Keeps.letF (z := z) (x := x) ?_ ?_ | refine State.Keeps.letR (z := z) (x := x) ?_ ?_ | refine ExecKeeps.letJ (x := x) ?_ ?_ | refine ExecKeeps.letM (x := x) ?_ ?_
          unfold x; clear x; rotate_left; clear_value x; intro; rotate_right)
       | clear_value x
       | skip)
    | with_reducible apply getCtx_keeps
    | with_reducible apply physNow_keeps
    | with_reducible apply openSet_keeps
    | with_reducible apply shapeIf_keeps
    | with_reducible apply productTile_keeps
    | with_reducible apply countE_keeps
    | with_reducible apply raiseCompute_keeps
    | with_reducible apply bindCarry_keeps
    | with_reducible apply raisePairing_keeps
    | with_reducible apply readUnits_keeps
    | with_reducible apply bindSpill_keeps
    | with_reducible apply bindOut_keeps
    | with_reducible exact ExecKeeps.pure _
    | with_reducible exact ExecKeeps.get
    | with_reducible apply ExecKeeps.bind
    | with_reducible apply ExecKeeps.modify
    | with_reducible apply ExecKeeps.forM
    | split
    | with_reducible apply_assumption

theorem State.openPair_keeps : ∀ (a0 : State) a1 a2 a3, z.Keeps a0 → z.Keeps (State.openPair a0 a1 a2 a3) := by
  intro a0 a1 a2 a3 h
  unfold State.openPair
  repeat' first
    | with_reducible assumption
    | with_reducible apply State.updStream_keeps
    | split

theorem execMmProduct_keeps : ∀ a0 a1 a2 a3 (a4 : State), z.Keeps a4 → OutKeeps z (execMmProduct a0 a1 a2 a3 a4) := by
  intro a0 a1 a2 a3 a4 h
  unfold execMmProduct
  repeat' first
    | with_reducible assumption
    | (extract_lets +onlyGivenNames x
       first
       | (first | refine State.Keeps.letH (z := z) (x := x) ?_ ?_ | refine State.Keeps.letF (z := z) (x := x) ?_ ?_ | refine State.Keeps.letR (z := z) (x := x) ?_ ?_ | refine ExecKeeps.letJ (x := x) ?_ ?_ | refine ExecKeeps.letM (x := x) ?_ ?_
          unfold x; clear x; rotate_left; clear_value x; intro; rotate_right)
       | clear_value x
       | skip)
    | with_reducible apply OutKeeps.next
    | with_reducible refine State.tryIssue_stays ?_ (by with_reducible assumption)
    | with_reducible refine State.tryIssue_go_keeps ?_ (by with_reducible assumption)
    | with_reducible apply State.updStream_keeps
    | with_reducible apply State.openPair_keeps
    | with_reducible apply State.runEngine_keeps
    | with_reducible apply productBody_keeps
    | split

theorem addCarry_keeps : ∀ a0, ExecKeeps (addCarry a0) := by
  intro a0
  unfold addCarry
  repeat' first
    | intro y
    | (extract_lets +onlyGivenNames x
       first
       | (first | refine ExecKeeps.letJ (x := x) ?_ ?_ | refine ExecKeeps.letM (x := x) ?_ ?_
          unfold x; clear x; rotate_left; clear_value x; intro; rotate_right)
       | clear_value x
       | skip)
    | with_reducible apply readFlat_keeps
    | with_reducible apply shapeIf_keeps
    | with_reducible exact ExecKeeps.pure _
    | with_reducible exact ExecKeeps.get
    | with_reducible apply ExecKeeps.bind
    | split

theorem capture_keeps : ∀ a0 a1 a2, ExecKeeps (capture a0 a1 a2) := by
  intro a0 a1 a2
  unfold capture
  repeat' first
    | with_reducible assumption
    | intro y
    | (extract_lets +onlyGivenNames x
       first
       | (first | refine State.Keeps.letH (z := z) (x := x) ?_ ?_ | refine State.Keeps.letF (z := z) (x := x) ?_ ?_ | refine State.Keeps.letR (z := z) (x := x) ?_ ?_ | refine ExecKeeps.letJ (x := x) ?_ ?_ | refine ExecKeeps.letM (x := x) ?_ ?_
          unfold x; clear x; rotate_left; clear_value x; intro; rotate_right)
       | clear_value x
       | skip)
    | with_reducible apply withDescs_keeps
    | with_reducible apply State.takeCapture_keeps
    | with_reducible apply openSet_keeps
    | with_reducible apply getCtx_keeps
    | with_reducible exact ExecKeeps.pure _
    | with_reducible exact ExecKeeps.trap _
    | with_reducible exact ExecKeeps.get
    | with_reducible exact ExecKeeps.getS
    | with_reducible apply ExecKeeps.bind
    | with_reducible apply ExecKeeps.peek
    | with_reducible apply ExecKeeps.modS
    | with_reducible apply ExecKeeps.modify
    | with_reducible apply ExecKeeps.forM
    | with_reducible apply ExecKeeps.mapM
    | with_reducible apply ExecKeeps.foldlM
    | with_reducible apply ExecKeeps.when
    | with_reducible apply State.Keeps.foldl
    | with_reducible apply State.Keeps.foldlProd
    | with_reducible apply State.Keeps.foldlSnd
    | simp -zeta -zetaDelta only [State.Keeps.mk_iff, State.Keeps.mk_flash]
    | split
    | with_reducible apply_assumption

theorem checkTile_keeps : ∀ a0 a1, ExecKeeps (checkTile a0 a1) := by
  intro a0 a1
  unfold checkTile
  repeat' first
    | with_reducible assumption
    | intro y
    | (extract_lets +onlyGivenNames x
       first
       | (first | refine State.Keeps.letH (z := z) (x := x) ?_ ?_ | refine State.Keeps.letF (z := z) (x := x) ?_ ?_ | refine State.Keeps.letR (z := z) (x := x) ?_ ?_ | refine ExecKeeps.letJ (x := x) ?_ ?_ | refine ExecKeeps.letM (x := x) ?_ ?_
          unfold x; clear x; rotate_left; clear_value x; intro; rotate_right)
       | clear_value x
       | skip)
    | with_reducible apply State.updDie_keeps
    | with_reducible apply raiseCompute_keeps
    | with_reducible apply State.noteMismatch_keeps
    | with_reducible apply capture_keeps
    | with_reducible apply addCarry_keeps
    | with_reducible apply countE_keeps
    | with_reducible exact ExecKeeps.pure _
    | with_reducible exact ExecKeeps.trap _
    | with_reducible exact ExecKeeps.get
    | with_reducible exact ExecKeeps.getS
    | with_reducible apply ExecKeeps.bind
    | with_reducible apply ExecKeeps.modS
    | with_reducible apply ExecKeeps.modify
    | with_reducible apply ExecKeeps.forM
    | with_reducible apply ExecKeeps.mapM
    | with_reducible apply ExecKeeps.foldlM
    | with_reducible apply ExecKeeps.when
    | with_reducible apply State.Keeps.foldl
    | with_reducible apply State.Keeps.foldlProd
    | with_reducible apply State.Keeps.foldlSnd
    | simp -zeta -zetaDelta only [State.Keeps.mk_iff, State.Keeps.mk_flash]
    | split
    | with_reducible apply_assumption

theorem drainTile_keeps : ∀ a0 a1, ExecKeeps (drainTile a0 a1) := by
  intro a0 a1
  unfold drainTile
  repeat' first
    | with_reducible assumption
    | intro y
    | (extract_lets +onlyGivenNames x
       first
       | (first | refine State.Keeps.letH (z := z) (x := x) ?_ ?_ | refine State.Keeps.letF (z := z) (x := x) ?_ ?_ | refine State.Keeps.letR (z := z) (x := x) ?_ ?_ | refine ExecKeeps.letJ (x := x) ?_ ?_ | refine ExecKeeps.letM (x := x) ?_ ?_
          unfold x; clear x; rotate_left; clear_value x; intro; rotate_right)
       | clear_value x
       | skip)
    | with_reducible apply writeSpan_keeps
    | with_reducible apply setNonfinite_keeps
    | with_reducible exact ExecKeeps.pure _
    | with_reducible exact ExecKeeps.trap _
    | with_reducible exact ExecKeeps.get
    | with_reducible exact ExecKeeps.getS
    | with_reducible apply ExecKeeps.bind
    | with_reducible apply ExecKeeps.modS
    | with_reducible apply ExecKeeps.modify
    | with_reducible apply ExecKeeps.forM
    | with_reducible apply ExecKeeps.mapM
    | with_reducible apply ExecKeeps.foldlM
    | with_reducible apply ExecKeeps.when
    | with_reducible apply State.Keeps.foldl
    | with_reducible apply State.Keeps.foldlProd
    | with_reducible apply State.Keeps.foldlSnd
    | simp -zeta -zetaDelta only [State.Keeps.mk_iff, State.Keeps.mk_flash]
    | split

theorem endTile_keeps : ∀ a0, ExecKeeps (endTile a0) := by
  intro a0
  unfold endTile
  repeat' first
    | with_reducible assumption
    | intro y
    | (extract_lets +onlyGivenNames x
       first
       | (first | refine State.Keeps.letH (z := z) (x := x) ?_ ?_ | refine State.Keeps.letF (z := z) (x := x) ?_ ?_ | refine State.Keeps.letR (z := z) (x := x) ?_ ?_ | refine ExecKeeps.letJ (x := x) ?_ ?_ | refine ExecKeeps.letM (x := x) ?_ ?_
          unfold x; clear x; rotate_left; clear_value x; intro; rotate_right)
       | clear_value x
       | skip)
    | with_reducible apply accFault_keeps
    | with_reducible apply State.updDie_keeps
    | with_reducible apply writeFlatOut_keeps
    | with_reducible apply drainTile_keeps
    | with_reducible apply State.saveAccs_keeps
    | with_reducible apply shapeIf_keeps
    | with_reducible apply getCtx_keeps
    | with_reducible exact ExecKeeps.pure _
    | with_reducible exact ExecKeeps.trap _
    | with_reducible exact ExecKeeps.get
    | with_reducible exact ExecKeeps.getS
    | with_reducible apply ExecKeeps.bind
    | with_reducible apply ExecKeeps.modS
    | with_reducible apply ExecKeeps.modify
    | with_reducible apply ExecKeeps.forM
    | with_reducible apply ExecKeeps.mapM
    | with_reducible apply ExecKeeps.foldlM
    | with_reducible apply ExecKeeps.when
    | with_reducible apply State.Keeps.foldl
    | with_reducible apply State.Keeps.foldlProd
    | with_reducible apply State.Keeps.foldlSnd
    | simp -zeta -zetaDelta only [State.Keeps.mk_iff, State.Keeps.mk_flash]
    | split

theorem State.runTile_keeps : ∀ (a0 : State) a1 a2 a3 a4 a5 a6 a7, ExecKeeps a7 → z.Keeps a0 → z.Keeps (State.runTile a0 a1 a2 a3 a4 a5 a6 a7) := by
  intro a0 a1 a2 a3 a4 a5 a6 a7 hb h
  unfold State.runTile
  extract_lets t mine none_ fl less
  have hl : ∀ s g, z.Keeps s → z.Keeps (less s g) := fun s g hs => State.updStream_keeps _ _ _ _ hs
  have hr : z.Keeps (Run.start a0 a1 a2 a4 a6 a5 fl).s := h
  clear_value less
  split
  · with_reducible exact State.stopFault_keeps _ _ _ _ _ _ (hl _ _ h)
  · rename_i q r e
    have hq := ExecKeeps.run hb hr e
    extract_lets s1 s2 f s3
    have h1 : z.Keeps s1 := by
      show z.Keeps (if _ then _ else _)
      split
      · with_reducible exact State.orVerdict_keeps _ _ _ hq
      · exact hq
    clear_value s1
    have h2 : z.Keeps s2 := by
      show z.Keeps (if _ then _ else _)
      split
      · split
        · with_reducible exact State.orVerdict_keeps _ _ _ h1
        · with_reducible exact State.count_keeps _ _ _ _ _ _ (State.orVerdict_keeps _ _ _ h1)
      · exact h1
    clear_value s2
    have h3 : z.Keeps s3 := hl _ _ h2
    clear_value s3
    split
    · with_reducible exact State.faultStop_keeps _ _ _ h3
    · exact h3

theorem execTileCheckComplete_keeps : ∀ a0 a1 a2 a3 (a4 : State), z.Keeps a4 → OutKeeps z (execTileCheckComplete a0 a1 a2 a3 a4) := by
  intro a0 a1 a2 a3 a4 h
  unfold execTileCheckComplete
  repeat' first
    | with_reducible assumption
    | intro y
    | (extract_lets +onlyGivenNames x
       first
       | (first | refine State.Keeps.letH (z := z) (x := x) ?_ ?_ | refine State.Keeps.letF (z := z) (x := x) ?_ ?_ | refine State.Keeps.letR (z := z) (x := x) ?_ ?_ | refine ExecKeeps.letJ (x := x) ?_ ?_ | refine ExecKeeps.letM (x := x) ?_ ?_
          unfold x; clear x; rotate_left; clear_value x; intro; rotate_right)
       | clear_value x
       | skip)
    | with_reducible apply OutKeeps.next
    | with_reducible apply State.updDie_keeps
    | with_reducible apply State.compareRetry_keeps
    | with_reducible apply State.applyPhys_keeps
    | with_reducible apply State.runTile_keeps
    | with_reducible apply checkTile_keeps
    | with_reducible apply endTile_keeps
    | with_reducible apply raiseCompute_keeps
    | with_reducible apply setTainted_keeps
    | with_reducible apply ExecKeeps.bind
    | split
    | with_reducible apply_assumption

theorem heldEngine_keeps : ∀ a0 a1 a2 a3 a4 a5 a6 (a7 : State), ExecKeeps a6 → z.Keeps a7 → OutKeeps z (heldEngine a0 a1 a2 a3 a4 a5 a6 a7) := by
  intro a0 a1 a2 a3 a4 a5 a6 a7 ha6 h
  unfold heldEngine
  repeat' first
    | with_reducible assumption
    | (extract_lets +onlyGivenNames x
       first
       | (first | refine State.Keeps.letH (z := z) (x := x) ?_ ?_ | refine State.Keeps.letF (z := z) (x := x) ?_ ?_ | refine State.Keeps.letR (z := z) (x := x) ?_ ?_ | refine ExecKeeps.letJ (x := x) ?_ ?_ | refine ExecKeeps.letM (x := x) ?_ ?_
          unfold x; clear x; rotate_left; clear_value x; intro; rotate_right)
       | clear_value x
       | skip)
    | with_reducible apply OutKeeps.next
    | with_reducible refine State.tryIssue_stays ?_ (by with_reducible assumption)
    | with_reducible refine State.tryIssue_go_keeps ?_ (by with_reducible assumption)
    | with_reducible apply State.updStream_keeps
    | with_reducible apply State.runEngine_keeps
    | split

theorem drainBody_keeps : ∀ a0, ExecKeeps (drainBody a0) := by
  intro a0
  unfold drainBody
  repeat' first
    | with_reducible assumption
    | intro y
    | (extract_lets +onlyGivenNames x
       first
       | (first | refine ExecKeeps.letJ (x := x) ?_ ?_ | refine ExecKeeps.letM (x := x) ?_ ?_
          unfold x; clear x; rotate_left; clear_value x; intro; rotate_right)
       | clear_value x
       | skip)
    | with_reducible apply physNow_keeps
    | with_reducible apply bindOut_keeps
    | with_reducible apply takeHeld_keeps
    | with_reducible apply evict_keeps
    | with_reducible apply evictOwn_keeps
    | with_reducible apply openSet_keeps
    | with_reducible apply shapeIf_keeps
    | with_reducible apply checkTile_keeps
    | with_reducible apply endTile_keeps
    | with_reducible apply setTainted_keeps
    | with_reducible apply raisePairing_keeps
    | with_reducible exact ExecKeeps.get
    | with_reducible apply ExecKeeps.bind
    | split
    | with_reducible apply_assumption

theorem execMmDrain_keeps : ∀ a0 a1 a2 a3 (a4 : State), z.Keeps a4 → OutKeeps z (execMmDrain a0 a1 a2 a3 a4) := by
  intro a0 a1 a2 a3 a4 h
  unfold execMmDrain
  repeat' first
    | with_reducible assumption
    | (extract_lets +onlyGivenNames x
       first
       | (first | refine State.Keeps.letH (z := z) (x := x) ?_ ?_ | refine State.Keeps.letF (z := z) (x := x) ?_ ?_ | refine State.Keeps.letR (z := z) (x := x) ?_ ?_ | refine ExecKeeps.letJ (x := x) ?_ ?_ | refine ExecKeeps.letM (x := x) ?_ ?_
          unfold x; clear x; rotate_left; clear_value x; intro; rotate_right)
       | clear_value x
       | skip)
    | with_reducible apply heldEngine_keeps
    | with_reducible apply drainBody_keeps

theorem spillBody_keeps : ∀ a0, ExecKeeps (spillBody a0) := by
  intro a0
  unfold spillBody
  repeat' first
    | with_reducible assumption
    | intro y
    | (extract_lets +onlyGivenNames x
       first
       | (first | refine ExecKeeps.letJ (x := x) ?_ ?_ | refine ExecKeeps.letM (x := x) ?_ ?_
          unfold x; clear x; rotate_left; clear_value x; intro; rotate_right)
       | clear_value x
       | skip)
    | with_reducible apply physNow_keeps
    | with_reducible apply bindSpill_keeps
    | with_reducible apply takeHeld_keeps
    | with_reducible apply evict_keeps
    | with_reducible apply evictOwn_keeps
    | with_reducible apply checkTile_keeps
    | with_reducible apply endTile_keeps
    | with_reducible apply setTainted_keeps
    | with_reducible exact ExecKeeps.get
    | with_reducible apply ExecKeeps.bind
    | split
    | with_reducible apply_assumption

theorem execMmSpill_keeps : ∀ a0 a1 a2 a3 (a4 : State), z.Keeps a4 → OutKeeps z (execMmSpill a0 a1 a2 a3 a4) := by
  intro a0 a1 a2 a3 a4 h
  unfold execMmSpill
  repeat' first
    | with_reducible assumption
    | (extract_lets +onlyGivenNames x
       first
       | (first | refine State.Keeps.letH (z := z) (x := x) ?_ ?_ | refine State.Keeps.letF (z := z) (x := x) ?_ ?_ | refine State.Keeps.letR (z := z) (x := x) ?_ ?_ | refine ExecKeeps.letJ (x := x) ?_ ?_ | refine ExecKeeps.letM (x := x) ?_ ?_
          unfold x; clear x; rotate_left; clear_value x; intro; rotate_right)
       | clear_value x
       | skip)
    | with_reducible apply heldEngine_keeps
    | with_reducible apply spillBody_keeps

theorem discardBody_keeps : ∀ a0, ExecKeeps (discardBody a0) := by
  intro a0
  unfold discardBody
  repeat' first
    | intro y
    | (extract_lets +onlyGivenNames x
       first
       | (first | refine ExecKeeps.letJ (x := x) ?_ ?_ | refine ExecKeeps.letM (x := x) ?_ ?_
          unfold x; clear x; rotate_left; clear_value x; intro; rotate_right)
       | clear_value x
       | skip)
    | with_reducible apply physNow_keeps
    | with_reducible apply takeHeld_keeps
    | with_reducible exact ExecKeeps.pure _
    | with_reducible apply ExecKeeps.bind

theorem execMmDiscard_keeps : ∀ a0 a1 a2 a3 (a4 : State), z.Keeps a4 → OutKeeps z (execMmDiscard a0 a1 a2 a3 a4) := by
  intro a0 a1 a2 a3 a4 h
  unfold execMmDiscard
  repeat' first
    | with_reducible assumption
    | (extract_lets +onlyGivenNames x
       first
       | (first | refine State.Keeps.letH (z := z) (x := x) ?_ ?_ | refine State.Keeps.letF (z := z) (x := x) ?_ ?_ | refine State.Keeps.letR (z := z) (x := x) ?_ ?_ | refine ExecKeeps.letJ (x := x) ?_ ?_ | refine ExecKeeps.letM (x := x) ?_ ?_
          unfold x; clear x; rotate_left; clear_value x; intro; rotate_right)
       | clear_value x
       | skip)
    | with_reducible apply heldEngine_keeps
    | with_reducible apply discardBody_keeps

end Sys2Proof.Machine
end

