-- ==== Sys2Proof/Laws/KeepsFlags.lean ====
section
/-! SUPPORT. What Machine/Flags.lean keeps: one lemma an operation. -/
namespace Sys2Proof.Machine
set_option linter.all false

variable {z : State}

theorem State.updEntry_keeps : ∀ (a0 : State) a1 a2 a3 a4, z.Keeps a0 → z.Keeps (State.updEntry a0 a1 a2 a3 a4) := by
  intro a0 a1 a2 a3 a4 h
  unfold State.updEntry
  repeat' first
    | with_reducible assumption
    | with_reducible apply State.updCtx_keeps

theorem State.markSlice_keeps : ∀ (a0 : State) a1 a2 a3 a4 a5, z.Keeps a0 → z.Keeps (State.markSlice a0 a1 a2 a3 a4 a5) := by
  intro a0 a1 a2 a3 a4 a5 h
  unfold State.markSlice
  repeat' first
    | with_reducible assumption
    | (extract_lets +onlyGivenNames x
       first
       | (first | refine State.Keeps.letH (z := z) (x := x) ?_ ?_ | refine State.Keeps.letF (z := z) (x := x) ?_ ?_
          unfold x; clear x; rotate_left; clear_value x; intro; rotate_right)
       | clear_value x
       | skip)
    | with_reducible apply State.count_keeps
    | with_reducible apply State.updEntry_keeps

end Sys2Proof.Machine
end

