-- ==== Sys2Proof/Laws/KeepsFallback.lean ====
section
/-! SUPPORT. What Machine/Fallback.lean keeps: one lemma an operation. -/
namespace Sys2Proof.Machine
set_option linter.all false

variable {z : State}

theorem State.fallbackRecord_keeps : ∀ (a0 : State) a1 a2 a3 a4 a5 a6 a7, z.Keeps a0 → z.Keeps (State.fallbackRecord a0 a1 a2 a3 a4 a5 a6 a7) := by
  intro a0 a1 a2 a3 a4 a5 a6 a7 h
  unfold State.fallbackRecord
  repeat' first
    | with_reducible assumption
    | with_reducible apply State.logDevice_keeps

theorem State.fallbackAtMk_keeps : ∀ (a0 : State) a1 a2 a3 a4 a5, z.Keeps a0 → z.Keeps (State.fallbackAtMk a0 a1 a2 a3 a4 a5) := by
  intro a0 a1 a2 a3 a4 a5 h
  unfold State.fallbackAtMk
  split
  · exact h
  · extract_lets x base y p gone q s gone2 marked dec slots cancelled s2 sp hbm one s3 s4 s5 s6
    have hs : z.Keeps s := State.setCtx_keeps _ _ _ h
    split
    · exact State.updCtx_keeps _ _ _ hs
    · have h2 : z.Keeps s2 := State.updCtx_keeps _ _ _ hs
      have h1 : ∀ (t : State) k ks, z.Keeps t → z.Keeps (one t k ks) := by
        intro t k ks ht
        show z.Keeps (if ks.isEmpty then t else _)
        split
        · exact ht
        · exact State.fallbackRecord_keeps _ _ _ _ _ _ _ _ ht
      have h6 : z.Keeps s6 := State.Keeps.foldl (h1 _ _ _ (h1 _ _ _ (h1 _ _ _ h2))) fun u e hu => State.fallbackRecord_keeps _ _ _ _ _ _ _ _ hu
      split
      · exact State.fallbackRecord_keeps _ _ _ _ _ _ _ _ h6
      · exact h6

end Sys2Proof.Machine
end

