-- ==== Sys2Proof/Laws/KeepsTally.lean ====
section
/-! SUPPORT. What Machine/Tally.lean keeps: one lemma an operation. -/
namespace Sys2Proof.Machine
set_option linter.all false

variable {z : State}

theorem execTallyPeriod_keeps : ∀ a0 (a1 : State), z.Keeps a1 → OutKeeps z (execTallyPeriod a0 a1) := by
  intro a0 a1 h
  unfold execTallyPeriod
  repeat' first
    | with_reducible assumption
    | (extract_lets +onlyGivenNames x
       first
       | (first | refine State.Keeps.letH (z := z) (x := x) ?_ ?_ | refine State.Keeps.letF (z := z) (x := x) ?_ ?_
          unfold x; clear x; rotate_left; clear_value x; intro; rotate_right)
       | clear_value x
       | skip)
    | with_reducible apply OutKeeps.next
    | with_reducible apply State.latchTally_keeps
    | split

theorem State.makeDatagram_keeps : ∀ (a0 : State) a1 a2 a3 a4 a5 a6 a7, z.Keeps a0 → z.Keeps (State.makeDatagram a0 a1 a2 a3 a4 a5 a6 a7).2 := by
  intro a0 a1 a2 a3 a4 a5 a6 a7 h
  unfold State.makeDatagram
  repeat' first
    | with_reducible assumption
    | (extract_lets +onlyGivenNames x
       first
       | (first | refine State.Keeps.letH (z := z) (x := x) ?_ ?_ | refine State.Keeps.letF (z := z) (x := x) ?_ ?_
          unfold x; clear x; rotate_left; clear_value x; intro; rotate_right)
       | clear_value x
       | skip)
    | simp -zeta -zetaDelta only [State.Keeps.mk_iff, State.Keeps.mk_flash]

theorem State.queueDatagram_keeps : ∀ (a0 : State) a1, z.Keeps a0 → z.Keeps (State.queueDatagram a0 a1) := by
  intro a0 a1 h
  unfold State.queueDatagram
  repeat' first
    | with_reducible assumption
    | (extract_lets +onlyGivenNames x
       first
       | (first | refine State.Keeps.letH (z := z) (x := x) ?_ ?_ | refine State.Keeps.letF (z := z) (x := x) ?_ ?_
          unfold x; clear x; rotate_left; clear_value x; intro; rotate_right)
       | clear_value x
       | skip)
    | with_reducible apply State.count_keeps
    | simp -zeta -zetaDelta only [State.Keeps.mk_iff, State.Keeps.mk_flash]
    | split

theorem State.sendRecord_keeps : ∀ (a0 : State) a1 a2, z.Keeps a0 → z.Keeps (State.sendRecord a0 a1 a2) := by
  intro a0 a1 a2 h
  unfold State.sendRecord
  repeat' first
    | with_reducible assumption
    | intro y
    | (extract_lets +onlyGivenNames x
       first
       | (first | refine State.Keeps.letH (z := z) (x := x) ?_ ?_ | refine State.Keeps.letF (z := z) (x := x) ?_ ?_
          unfold x; clear x; rotate_left; clear_value x; intro; rotate_right)
       | clear_value x
       | skip)
    | with_reducible apply State.makeDatagram_keeps
    | with_reducible apply State.queueDatagram_keeps
    | with_reducible apply State.Keeps.foldl

theorem execTallyDump_keeps : ∀ a0 (a1 : State), z.Keeps a1 → OutKeeps z (execTallyDump a0 a1) := by
  intro a0 a1 h
  unfold execTallyDump
  repeat' first
    | with_reducible assumption
    | (extract_lets +onlyGivenNames x
       first
       | (first | refine State.Keeps.letH (z := z) (x := x) ?_ ?_ | refine State.Keeps.letF (z := z) (x := x) ?_ ?_
          unfold x; clear x; rotate_left; clear_value x; intro; rotate_right)
       | clear_value x
       | skip)
    | with_reducible apply OutKeeps.next
    | with_reducible apply State.updDie_keeps
    | with_reducible apply State.makeRec_keeps
    | with_reducible apply State.hostRingPush_keeps
    | with_reducible apply State.count_keeps
    | with_reducible apply State.sendRecord_keeps
    | simp -zeta -zetaDelta only [State.Keeps.mk_iff, State.Keeps.mk_flash]
    | split

theorem execBwWindowEnd_keeps : ∀ a0 a1 a2 a3 (a4 : State), z.Keeps a4 → OutKeeps z (execBwWindowEnd a0 a1 a2 a3 a4) := by
  intro a0 a1 a2 a3 a4 h
  unfold execBwWindowEnd
  repeat' first
    | with_reducible assumption
    | (extract_lets +onlyGivenNames x
       first
       | (first | refine State.Keeps.letH (z := z) (x := x) ?_ ?_ | refine State.Keeps.letF (z := z) (x := x) ?_ ?_
          unfold x; clear x; rotate_left; clear_value x; intro; rotate_right)
       | clear_value x
       | skip)
    | with_reducible apply OutKeeps.next
    | with_reducible apply State.updDie_keeps
    | split

theorem execLifetimeRecord_keeps : ∀ a0 (a1 : State), z.Keeps a1 → OutKeeps z (execLifetimeRecord a0 a1) := by
  intro a0 a1 h
  unfold execLifetimeRecord
  repeat' first
    | with_reducible assumption
    | (extract_lets +onlyGivenNames x
       first
       | (first | refine State.Keeps.letH (z := z) (x := x) ?_ ?_ | refine State.Keeps.letF (z := z) (x := x) ?_ ?_
          unfold x; clear x; rotate_left; clear_value x; intro; rotate_right)
       | clear_value x
       | skip)
    | with_reducible apply OutKeeps.next
    | with_reducible apply State.log_keeps
    | simp -zeta -zetaDelta only [State.Keeps.mk_iff, State.Keeps.mk_flash]

end Sys2Proof.Machine
end

