-- ==== Sys2Proof/Laws/KeepsVector.lean ====
section
/-! SUPPORT. What Machine/Vector.lean keeps: one lemma an operation. -/
namespace Sys2Proof.Machine
set_option linter.all false

variable {z : State}

theorem vxOpen_keeps : ∀ a0 a1, ExecKeeps (vxOpen a0 a1) := by
  intro a0 a1
  unfold vxOpen
  repeat' first
    | intro y
    | (extract_lets +onlyGivenNames x
       first
       | (first | refine ExecKeeps.letJ (x := x) ?_ ?_ | refine ExecKeeps.letM (x := x) ?_ ?_
          unfold x; clear x; rotate_left; clear_value x; intro; rotate_right)
       | clear_value x
       | skip)
    | with_reducible apply resolve_keeps
    | with_reducible apply shapeIf_keeps
    | with_reducible exact ExecKeeps.pure _
    | with_reducible apply ExecKeeps.bind

theorem vxRead_keeps : ∀ a0, ExecKeeps (vxRead a0) := by
  intro a0
  unfold vxRead
  repeat' first
    | with_reducible assumption
    | intro y
    | (extract_lets +onlyGivenNames x
       first
       | (first | refine ExecKeeps.letJ (x := x) ?_ ?_ | refine ExecKeeps.letM (x := x) ?_ ?_
          unfold x; clear x; rotate_left; clear_value x; intro; rotate_right)
       | clear_value x
       | skip)
    | with_reducible apply readElems_keeps
    | with_reducible apply setNonfinite_keeps
    | with_reducible exact ExecKeeps.pure _
    | with_reducible apply ExecKeeps.bind
    | split
    | with_reducible apply_assumption

theorem vxVals_keeps : ∀ a0, ExecKeeps (vxVals a0) := by
  intro a0
  unfold vxVals
  repeat' first
    | intro y
    | (extract_lets +onlyGivenNames x
       first
       | (first | refine ExecKeeps.letJ (x := x) ?_ ?_ | refine ExecKeeps.letM (x := x) ?_ ?_
          unfold x; clear x; rotate_left; clear_value x; intro; rotate_right)
       | clear_value x
       | skip)
    | with_reducible apply vxRead_keeps
    | with_reducible exact ExecKeeps.pure _
    | with_reducible apply ExecKeeps.bind

theorem vxBroadcast_keeps : ∀ a0 a1 a2, ExecKeeps (vxBroadcast a0 a1 a2) := by
  intro a0 a1 a2
  unfold vxBroadcast
  repeat' first
    | intro y
    | (extract_lets +onlyGivenNames x
       first
       | (first | refine ExecKeeps.letJ (x := x) ?_ ?_ | refine ExecKeeps.letM (x := x) ?_ ?_
          unfold x; clear x; rotate_left; clear_value x; intro; rotate_right)
       | clear_value x
       | skip)
    | with_reducible apply vxOpen_keeps
    | with_reducible apply shapeIf_keeps
    | with_reducible apply vxVals_keeps
    | with_reducible exact ExecKeeps.pure _
    | with_reducible apply ExecKeeps.bind

theorem vxSame_keeps : ∀ a0 a1 a2 a3, ExecKeeps (vxSame a0 a1 a2 a3) := by
  intro a0 a1 a2 a3
  unfold vxSame
  repeat' first
    | intro y
    | (extract_lets +onlyGivenNames x
       first
       | (first | refine ExecKeeps.letJ (x := x) ?_ ?_ | refine ExecKeeps.letM (x := x) ?_ ?_
          unfold x; clear x; rotate_left; clear_value x; intro; rotate_right)
       | clear_value x
       | skip)
    | with_reducible apply vxOpen_keeps
    | with_reducible apply shapeIf_keeps
    | with_reducible exact ExecKeeps.pure _
    | with_reducible apply ExecKeeps.bind

theorem vxCountOut_keeps : ∀ a0 a1, ExecKeeps (vxCountOut a0 a1) := by
  intro a0 a1
  unfold vxCountOut
  repeat' first
    | with_reducible apply countE_keeps

theorem vxWriteBits_keeps : ∀ a0 a1 a2, ExecKeeps (vxWriteBits a0 a1 a2) := by
  intro a0 a1 a2
  unfold vxWriteBits
  repeat' first
    | with_reducible assumption
    | intro y
    | (extract_lets +onlyGivenNames x
       first
       | (first | refine ExecKeeps.letJ (x := x) ?_ ?_ | refine ExecKeeps.letM (x := x) ?_ ?_
          unfold x; clear x; rotate_left; clear_value x; intro; rotate_right)
       | clear_value x
       | skip)
    | with_reducible apply writeElems_keeps
    | with_reducible apply vxCountOut_keeps
    | with_reducible apply setNonfinite_keeps
    | with_reducible apply ExecKeeps.bind
    | split
    | with_reducible apply_assumption

theorem vxWriteVals_keeps : ∀ a0 a1 a2, ExecKeeps (vxWriteVals a0 a1 a2) := by
  intro a0 a1 a2
  unfold vxWriteVals
  repeat' first
    | with_reducible apply vxWriteBits_keeps

theorem vxWriteAux_keeps : ∀ a0 a1 a2, ExecKeeps (vxWriteAux a0 a1 a2) := by
  intro a0 a1 a2
  unfold vxWriteAux
  repeat' first
    | with_reducible assumption
    | intro y
    | (extract_lets +onlyGivenNames x
       first
       | (first | refine State.Keeps.letH (z := z) (x := x) ?_ ?_ | refine State.Keeps.letF (z := z) (x := x) ?_ ?_ | refine State.Keeps.letR (z := z) (x := x) ?_ ?_ | refine ExecKeeps.letJ (x := x) ?_ ?_ | refine ExecKeeps.letM (x := x) ?_ ?_
          unfold x; clear x; rotate_left; clear_value x; intro; rotate_right)
       | clear_value x
       | skip)
    | with_reducible apply vxWriteBits_keeps
    | with_reducible apply onOutput_keeps
    | with_reducible exact ExecKeeps.pure _
    | with_reducible exact ExecKeeps.trap _
    | with_reducible exact ExecKeeps.get
    | with_reducible exact ExecKeeps.getS
    | with_reducible apply ExecKeeps.bind
    | with_reducible apply ExecKeeps.modS
    | with_reducible apply ExecKeeps.modify
    | with_reducible apply ExecKeeps.forM
    | with_reducible apply ExecKeeps.mapM
    | with_reducible apply ExecKeeps.foldlM
    | with_reducible apply ExecKeeps.when
    | with_reducible apply State.Keeps.foldl
    | with_reducible apply State.Keeps.foldlProd
    | with_reducible apply State.Keeps.foldlSnd
    | simp -zeta -zetaDelta only [State.Keeps.mk_iff, State.Keeps.mk_flash]
    | split

theorem vxEngine_keeps : ∀ a0 a1 a2 a3 a4 a5 a6 (a7 : State), ExecKeeps a6 → z.Keeps a7 → OutKeeps z (vxEngine a0 a1 a2 a3 a4 a5 a6 a7) := by
  intro a0 a1 a2 a3 a4 a5 a6 a7 ha6 h
  unfold vxEngine
  repeat' first
    | with_reducible assumption
    | with_reducible apply engine_keeps

theorem unary_keeps : ∀ a0 a1, ExecKeeps (unary a0 a1) := by
  intro a0 a1
  unfold unary
  repeat' first
    | intro y
    | (extract_lets +onlyGivenNames x
       first
       | (first | refine ExecKeeps.letJ (x := x) ?_ ?_ | refine ExecKeeps.letM (x := x) ?_ ?_
          unfold x; clear x; rotate_left; clear_value x; intro; rotate_right)
       | clear_value x
       | skip)
    | with_reducible apply vxOpen_keeps
    | with_reducible apply vxSame_keeps
    | with_reducible apply vxVals_keeps
    | with_reducible apply vxWriteBits_keeps
    | with_reducible apply ExecKeeps.bind

theorem binary_keeps : ∀ a0 a1, ExecKeeps (binary a0 a1) := by
  intro a0 a1
  unfold binary
  repeat' first
    | intro y
    | (extract_lets +onlyGivenNames x
       first
       | (first | refine ExecKeeps.letJ (x := x) ?_ ?_ | refine ExecKeeps.letM (x := x) ?_ ?_
          unfold x; clear x; rotate_left; clear_value x; intro; rotate_right)
       | clear_value x
       | skip)
    | with_reducible apply vxOpen_keeps
    | with_reducible apply vxSame_keeps
    | with_reducible apply vxVals_keeps
    | with_reducible apply vxBroadcast_keeps
    | with_reducible apply vxWriteBits_keeps
    | with_reducible apply ExecKeeps.bind

theorem ternary_keeps : ∀ a0 a1, ExecKeeps (ternary a0 a1) := by
  intro a0 a1
  unfold ternary
  repeat' first
    | intro y
    | (extract_lets +onlyGivenNames x
       first
       | (first | refine ExecKeeps.letJ (x := x) ?_ ?_ | refine ExecKeeps.letM (x := x) ?_ ?_
          unfold x; clear x; rotate_left; clear_value x; intro; rotate_right)
       | clear_value x
       | skip)
    | with_reducible apply vxOpen_keeps
    | with_reducible apply vxSame_keeps
    | with_reducible apply vxVals_keeps
    | with_reducible apply vxBroadcast_keeps
    | with_reducible apply vxWriteBits_keeps
    | with_reducible apply ExecKeeps.bind

theorem execVxAdd_keeps : ∀ a0 a1 a2 a3 (a4 : State), z.Keeps a4 → OutKeeps z (execVxAdd a0 a1 a2 a3 a4) := by
  intro a0 a1 a2 a3 a4 h
  unfold execVxAdd
  repeat' first
    | with_reducible assumption
    | (extract_lets +onlyGivenNames x
       first
       | (first | refine State.Keeps.letH (z := z) (x := x) ?_ ?_ | refine State.Keeps.letF (z := z) (x := x) ?_ ?_ | refine State.Keeps.letR (z := z) (x := x) ?_ ?_ | refine ExecKeeps.letJ (x := x) ?_ ?_ | refine ExecKeeps.letM (x := x) ?_ ?_
          unfold x; clear x; rotate_left; clear_value x; intro; rotate_right)
       | clear_value x
       | skip)
    | with_reducible apply vxEngine_keeps
    | with_reducible apply binary_keeps

theorem execVxSub_keeps : ∀ a0 a1 a2 a3 (a4 : State), z.Keeps a4 → OutKeeps z (execVxSub a0 a1 a2 a3 a4) := by
  intro a0 a1 a2 a3 a4 h
  unfold execVxSub
  repeat' first
    | with_reducible assumption
    | (extract_lets +onlyGivenNames x
       first
       | (first | refine State.Keeps.letH (z := z) (x := x) ?_ ?_ | refine State.Keeps.letF (z := z) (x := x) ?_ ?_ | refine State.Keeps.letR (z := z) (x := x) ?_ ?_ | refine ExecKeeps.letJ (x := x) ?_ ?_ | refine ExecKeeps.letM (x := x) ?_ ?_
          unfold x; clear x; rotate_left; clear_value x; intro; rotate_right)
       | clear_value x
       | skip)
    | with_reducible apply vxEngine_keeps
    | with_reducible apply binary_keeps

theorem execVxMul_keeps : ∀ a0 a1 a2 a3 (a4 : State), z.Keeps a4 → OutKeeps z (execVxMul a0 a1 a2 a3 a4) := by
  intro a0 a1 a2 a3 a4 h
  unfold execVxMul
  repeat' first
    | with_reducible assumption
    | (extract_lets +onlyGivenNames x
       first
       | (first | refine State.Keeps.letH (z := z) (x := x) ?_ ?_ | refine State.Keeps.letF (z := z) (x := x) ?_ ?_ | refine State.Keeps.letR (z := z) (x := x) ?_ ?_ | refine ExecKeeps.letJ (x := x) ?_ ?_ | refine ExecKeeps.letM (x := x) ?_ ?_
          unfold x; clear x; rotate_left; clear_value x; intro; rotate_right)
       | clear_value x
       | skip)
    | with_reducible apply vxEngine_keeps
    | with_reducible apply binary_keeps

theorem execVxFma_keeps : ∀ a0 a1 a2 a3 (a4 : State), z.Keeps a4 → OutKeeps z (execVxFma a0 a1 a2 a3 a4) := by
  intro a0 a1 a2 a3 a4 h
  unfold execVxFma
  repeat' first
    | with_reducible assumption
    | (extract_lets +onlyGivenNames x
       first
       | (first | refine State.Keeps.letH (z := z) (x := x) ?_ ?_ | refine State.Keeps.letF (z := z) (x := x) ?_ ?_ | refine State.Keeps.letR (z := z) (x := x) ?_ ?_ | refine ExecKeeps.letJ (x := x) ?_ ?_ | refine ExecKeeps.letM (x := x) ?_ ?_
          unfold x; clear x; rotate_left; clear_value x; intro; rotate_right)
       | clear_value x
       | skip)
    | with_reducible apply vxEngine_keeps
    | with_reducible apply ternary_keeps

theorem execVxMax_keeps : ∀ a0 a1 a2 a3 (a4 : State), z.Keeps a4 → OutKeeps z (execVxMax a0 a1 a2 a3 a4) := by
  intro a0 a1 a2 a3 a4 h
  unfold execVxMax
  repeat' first
    | with_reducible assumption
    | (extract_lets +onlyGivenNames x
       first
       | (first | refine State.Keeps.letH (z := z) (x := x) ?_ ?_ | refine State.Keeps.letF (z := z) (x := x) ?_ ?_ | refine State.Keeps.letR (z := z) (x := x) ?_ ?_ | refine ExecKeeps.letJ (x := x) ?_ ?_ | refine ExecKeeps.letM (x := x) ?_ ?_
          unfold x; clear x; rotate_left; clear_value x; intro; rotate_right)
       | clear_value x
       | skip)
    | with_reducible apply vxEngine_keeps
    | with_reducible apply binary_keeps

theorem execVxMin_keeps : ∀ a0 a1 a2 a3 (a4 : State), z.Keeps a4 → OutKeeps z (execVxMin a0 a1 a2 a3 a4) := by
  intro a0 a1 a2 a3 a4 h
  unfold execVxMin
  repeat' first
    | with_reducible assumption
    | (extract_lets +onlyGivenNames x
       first
       | (first | refine State.Keeps.letH (z := z) (x := x) ?_ ?_ | refine State.Keeps.letF (z := z) (x := x) ?_ ?_ | refine State.Keeps.letR (z := z) (x := x) ?_ ?_ | refine ExecKeeps.letJ (x := x) ?_ ?_ | refine ExecKeeps.letM (x := x) ?_ ?_
          unfold x; clear x; rotate_left; clear_value x; intro; rotate_right)
       | clear_value x
       | skip)
    | with_reducible apply vxEngine_keeps
    | with_reducible apply binary_keeps

theorem execVxScale_keeps : ∀ a0 a1 a2 a3 (a4 : State), z.Keeps a4 → OutKeeps z (execVxScale a0 a1 a2 a3 a4) := by
  intro a0 a1 a2 a3 a4 h
  unfold execVxScale
  repeat' first
    | with_reducible assumption
    | (extract_lets +onlyGivenNames x
       first
       | (first | refine State.Keeps.letH (z := z) (x := x) ?_ ?_ | refine State.Keeps.letF (z := z) (x := x) ?_ ?_ | refine State.Keeps.letR (z := z) (x := x) ?_ ?_ | refine ExecKeeps.letJ (x := x) ?_ ?_ | refine ExecKeeps.letM (x := x) ?_ ?_
          unfold x; clear x; rotate_left; clear_value x; intro; rotate_right)
       | clear_value x
       | skip)
    | with_reducible apply vxEngine_keeps
    | with_reducible apply unary_keeps

theorem convertBody_keeps : ∀ a0, ExecKeeps (convertBody a0) := by
  intro a0
  unfold convertBody
  repeat' first
    | intro y
    | (extract_lets +onlyGivenNames x
       first
       | (first | refine ExecKeeps.letJ (x := x) ?_ ?_ | refine ExecKeeps.letM (x := x) ?_ ?_
          unfold x; clear x; rotate_left; clear_value x; intro; rotate_right)
       | clear_value x
       | skip)
    | with_reducible apply vxOpen_keeps
    | with_reducible apply vxSame_keeps
    | with_reducible apply vxVals_keeps
    | with_reducible apply vxWriteVals_keeps
    | with_reducible apply ExecKeeps.bind

theorem execVxConvert_keeps : ∀ a0 a1 a2 a3 (a4 : State), z.Keeps a4 → OutKeeps z (execVxConvert a0 a1 a2 a3 a4) := by
  intro a0 a1 a2 a3 a4 h
  unfold execVxConvert
  repeat' first
    | with_reducible assumption
    | (extract_lets +onlyGivenNames x
       first
       | (first | refine State.Keeps.letH (z := z) (x := x) ?_ ?_ | refine State.Keeps.letF (z := z) (x := x) ?_ ?_ | refine State.Keeps.letR (z := z) (x := x) ?_ ?_ | refine ExecKeeps.letJ (x := x) ?_ ?_ | refine ExecKeeps.letM (x := x) ?_ ?_
          unfold x; clear x; rotate_left; clear_value x; intro; rotate_right)
       | clear_value x
       | skip)
    | with_reducible apply vxEngine_keeps
    | with_reducible apply convertBody_keeps

theorem funcBody_keeps : ∀ a0, ExecKeeps (funcBody a0) := by
  intro a0
  unfold funcBody
  repeat' first
    | intro y
    | (extract_lets +onlyGivenNames x
       first
       | (first | refine ExecKeeps.letJ (x := x) ?_ ?_ | refine ExecKeeps.letM (x := x) ?_ ?_
          unfold x; clear x; rotate_left; clear_value x; intro; rotate_right)
       | clear_value x
       | skip)
    | with_reducible apply vxOpen_keeps
    | with_reducible apply vxSame_keeps
    | with_reducible apply vxVals_keeps
    | with_reducible apply vxWriteVals_keeps
    | with_reducible apply ExecKeeps.bind
    | with_reducible exact ExecKeeps.getS

theorem execVxFunc_keeps : ∀ a0 a1 a2 a3 (a4 : State), z.Keeps a4 → OutKeeps z (execVxFunc a0 a1 a2 a3 a4) := by
  intro a0 a1 a2 a3 a4 h
  unfold execVxFunc
  repeat' first
    | with_reducible assumption
    | (extract_lets +onlyGivenNames x
       first
       | (first | refine State.Keeps.letH (z := z) (x := x) ?_ ?_ | refine State.Keeps.letF (z := z) (x := x) ?_ ?_ | refine State.Keeps.letR (z := z) (x := x) ?_ ?_ | refine ExecKeeps.letJ (x := x) ?_ ?_ | refine ExecKeeps.letM (x := x) ?_ ?_
          unfold x; clear x; rotate_left; clear_value x; intro; rotate_right)
       | clear_value x
       | skip)
    | with_reducible apply vxEngine_keeps
    | with_reducible apply funcBody_keeps

theorem reduceBody_keeps : ∀ a0, ExecKeeps (reduceBody a0) := by
  intro a0
  unfold reduceBody
  repeat' first
    | intro y
    | (extract_lets +onlyGivenNames x
       first
       | (first | refine ExecKeeps.letJ (x := x) ?_ ?_ | refine ExecKeeps.letM (x := x) ?_ ?_
          unfold x; clear x; rotate_left; clear_value x; intro; rotate_right)
       | clear_value x
       | skip)
    | with_reducible apply vxOpen_keeps
    | with_reducible apply vxSame_keeps
    | with_reducible apply vxVals_keeps
    | with_reducible apply vxWriteVals_keeps
    | with_reducible apply shapeIf_keeps
    | with_reducible apply ExecKeeps.bind
    | split

theorem execVxReduce_keeps : ∀ a0 a1 a2 a3 (a4 : State), z.Keeps a4 → OutKeeps z (execVxReduce a0 a1 a2 a3 a4) := by
  intro a0 a1 a2 a3 a4 h
  unfold execVxReduce
  repeat' first
    | with_reducible assumption
    | (extract_lets +onlyGivenNames x
       first
       | (first | refine State.Keeps.letH (z := z) (x := x) ?_ ?_ | refine State.Keeps.letF (z := z) (x := x) ?_ ?_ | refine State.Keeps.letR (z := z) (x := x) ?_ ?_ | refine ExecKeeps.letJ (x := x) ?_ ?_ | refine ExecKeeps.letM (x := x) ?_ ?_
          unfold x; clear x; rotate_left; clear_value x; intro; rotate_right)
       | clear_value x
       | skip)
    | with_reducible apply vxEngine_keeps
    | with_reducible apply reduceBody_keeps

theorem softmaxBody_keeps : ∀ a0, ExecKeeps (softmaxBody a0) := by
  intro a0
  unfold softmaxBody
  repeat' first
    | intro y
    | (extract_lets +onlyGivenNames x
       first
       | (first | refine ExecKeeps.letJ (x := x) ?_ ?_ | refine ExecKeeps.letM (x := x) ?_ ?_
          unfold x; clear x; rotate_left; clear_value x; intro; rotate_right)
       | clear_value x
       | skip)
    | with_reducible apply vxOpen_keeps
    | with_reducible apply shapeIf_keeps
    | with_reducible apply vxSame_keeps
    | with_reducible apply vxVals_keeps
    | with_reducible apply readElems_keeps
    | with_reducible apply vxWriteVals_keeps
    | with_reducible exact ExecKeeps.pure _
    | with_reducible apply ExecKeeps.bind
    | with_reducible exact ExecKeeps.getS
    | split

theorem execVxSoftmax_keeps : ∀ a0 a1 a2 a3 (a4 : State), z.Keeps a4 → OutKeeps z (execVxSoftmax a0 a1 a2 a3 a4) := by
  intro a0 a1 a2 a3 a4 h
  unfold execVxSoftmax
  repeat' first
    | with_reducible assumption
    | (extract_lets +onlyGivenNames x
       first
       | (first | refine State.Keeps.letH (z := z) (x := x) ?_ ?_ | refine State.Keeps.letF (z := z) (x := x) ?_ ?_ | refine State.Keeps.letR (z := z) (x := x) ?_ ?_ | refine ExecKeeps.letJ (x := x) ?_ ?_ | refine ExecKeeps.letM (x := x) ?_ ?_
          unfold x; clear x; rotate_left; clear_value x; intro; rotate_right)
       | clear_value x
       | skip)
    | with_reducible apply vxEngine_keeps
    | with_reducible apply softmaxBody_keeps

theorem softmaxBwdBody_keeps : ∀ a0, ExecKeeps (softmaxBwdBody a0) := by
  intro a0
  unfold softmaxBwdBody
  repeat' first
    | intro y
    | (extract_lets +onlyGivenNames x
       first
       | (first | refine ExecKeeps.letJ (x := x) ?_ ?_ | refine ExecKeeps.letM (x := x) ?_ ?_
          unfold x; clear x; rotate_left; clear_value x; intro; rotate_right)
       | clear_value x
       | skip)
    | with_reducible apply vxOpen_keeps
    | with_reducible apply shapeIf_keeps
    | with_reducible apply vxSame_keeps
    | with_reducible apply vxVals_keeps
    | with_reducible apply vxWriteVals_keeps
    | with_reducible apply ExecKeeps.bind

theorem execVxSoftmaxBwd_keeps : ∀ a0 a1 a2 a3 (a4 : State), z.Keeps a4 → OutKeeps z (execVxSoftmaxBwd a0 a1 a2 a3 a4) := by
  intro a0 a1 a2 a3 a4 h
  unfold execVxSoftmaxBwd
  repeat' first
    | with_reducible assumption
    | (extract_lets +onlyGivenNames x
       first
       | (first | refine State.Keeps.letH (z := z) (x := x) ?_ ?_ | refine State.Keeps.letF (z := z) (x := x) ?_ ?_ | refine State.Keeps.letR (z := z) (x := x) ?_ ?_ | refine ExecKeeps.letJ (x := x) ?_ ?_ | refine ExecKeeps.letM (x := x) ?_ ?_
          unfold x; clear x; rotate_left; clear_value x; intro; rotate_right)
       | clear_value x
       | skip)
    | with_reducible apply vxEngine_keeps
    | with_reducible apply softmaxBwdBody_keeps

theorem normBody_keeps : ∀ a0, ExecKeeps (normBody a0) := by
  intro a0
  unfold normBody
  repeat' first
    | intro y
    | (extract_lets +onlyGivenNames x
       first
       | (first | refine ExecKeeps.letJ (x := x) ?_ ?_ | refine ExecKeeps.letM (x := x) ?_ ?_
          unfold x; clear x; rotate_left; clear_value x; intro; rotate_right)
       | clear_value x
       | skip)
    | with_reducible apply vxOpen_keeps
    | with_reducible apply shapeIf_keeps
    | with_reducible apply vxSame_keeps
    | with_reducible apply vxVals_keeps
    | with_reducible apply vxBroadcast_keeps
    | with_reducible apply vxWriteVals_keeps
    | with_reducible apply vxWriteAux_keeps
    | with_reducible exact ExecKeeps.pure _
    | with_reducible apply ExecKeeps.bind
    | with_reducible exact ExecKeeps.getS
    | split

theorem execVxNorm_keeps : ∀ a0 a1 a2 a3 (a4 : State), z.Keeps a4 → OutKeeps z (execVxNorm a0 a1 a2 a3 a4) := by
  intro a0 a1 a2 a3 a4 h
  unfold execVxNorm
  repeat' first
    | with_reducible assumption
    | (extract_lets +onlyGivenNames x
       first
       | (first | refine State.Keeps.letH (z := z) (x := x) ?_ ?_ | refine State.Keeps.letF (z := z) (x := x) ?_ ?_ | refine State.Keeps.letR (z := z) (x := x) ?_ ?_ | refine ExecKeeps.letJ (x := x) ?_ ?_ | refine ExecKeeps.letM (x := x) ?_ ?_
          unfold x; clear x; rotate_left; clear_value x; intro; rotate_right)
       | clear_value x
       | skip)
    | with_reducible apply vxEngine_keeps
    | with_reducible apply normBody_keeps

theorem normBwdBody_keeps : ∀ a0, ExecKeeps (normBwdBody a0) := by
  intro a0
  unfold normBwdBody
  repeat' first
    | intro y
    | (extract_lets +onlyGivenNames x
       first
       | (first | refine ExecKeeps.letJ (x := x) ?_ ?_ | refine ExecKeeps.letM (x := x) ?_ ?_
          unfold x; clear x; rotate_left; clear_value x; intro; rotate_right)
       | clear_value x
       | skip)
    | with_reducible apply vxOpen_keeps
    | with_reducible apply shapeIf_keeps
    | with_reducible apply vxSame_keeps
    | with_reducible apply vxVals_keeps
    | with_reducible apply vxBroadcast_keeps
    | with_reducible apply vxWriteVals_keeps
    | with_reducible apply vxWriteAux_keeps
    | with_reducible exact ExecKeeps.pure _
    | with_reducible apply ExecKeeps.bind
    | simp -zeta -zetaDelta only [State.Keeps.mk_iff, State.Keeps.mk_flash]
    | split

theorem execVxNormBwd_keeps : ∀ a0 a1 a2 a3 (a4 : State), z.Keeps a4 → OutKeeps z (execVxNormBwd a0 a1 a2 a3 a4) := by
  intro a0 a1 a2 a3 a4 h
  unfold execVxNormBwd
  repeat' first
    | with_reducible assumption
    | (extract_lets +onlyGivenNames x
       first
       | (first | refine State.Keeps.letH (z := z) (x := x) ?_ ?_ | refine State.Keeps.letF (z := z) (x := x) ?_ ?_ | refine State.Keeps.letR (z := z) (x := x) ?_ ?_ | refine ExecKeeps.letJ (x := x) ?_ ?_ | refine ExecKeeps.letM (x := x) ?_ ?_
          unfold x; clear x; rotate_left; clear_value x; intro; rotate_right)
       | clear_value x
       | skip)
    | with_reducible apply vxEngine_keeps
    | with_reducible apply normBwdBody_keeps

theorem topkBody_keeps : ∀ a0, ExecKeeps (topkBody a0) := by
  intro a0
  unfold topkBody
  repeat' first
    | intro y
    | (extract_lets +onlyGivenNames x
       first
       | (first | refine ExecKeeps.letJ (x := x) ?_ ?_ | refine ExecKeeps.letM (x := x) ?_ ?_
          unfold x; clear x; rotate_left; clear_value x; intro; rotate_right)
       | clear_value x
       | skip)
    | with_reducible apply vxOpen_keeps
    | with_reducible apply shapeIf_keeps
    | with_reducible apply vxSame_keeps
    | with_reducible apply vxRead_keeps
    | with_reducible apply vxWriteBits_keeps
    | with_reducible apply vxWriteAux_keeps
    | with_reducible apply ExecKeeps.bind

theorem execVxTopk_keeps : ∀ a0 a1 a2 a3 (a4 : State), z.Keeps a4 → OutKeeps z (execVxTopk a0 a1 a2 a3 a4) := by
  intro a0 a1 a2 a3 a4 h
  unfold execVxTopk
  repeat' first
    | with_reducible assumption
    | (extract_lets +onlyGivenNames x
       first
       | (first | refine State.Keeps.letH (z := z) (x := x) ?_ ?_ | refine State.Keeps.letF (z := z) (x := x) ?_ ?_ | refine State.Keeps.letR (z := z) (x := x) ?_ ?_ | refine ExecKeeps.letJ (x := x) ?_ ?_ | refine ExecKeeps.letM (x := x) ?_ ?_
          unfold x; clear x; rotate_left; clear_value x; intro; rotate_right)
       | clear_value x
       | skip)
    | with_reducible apply vxEngine_keeps
    | with_reducible apply topkBody_keeps

theorem reluBody_keeps : ∀ a0, ExecKeeps (reluBody a0) := by
  intro a0
  unfold reluBody
  repeat' first
    | intro y
    | (extract_lets +onlyGivenNames x
       first
       | (first | refine ExecKeeps.letJ (x := x) ?_ ?_ | refine ExecKeeps.letM (x := x) ?_ ?_
          unfold x; clear x; rotate_left; clear_value x; intro; rotate_right)
       | clear_value x
       | skip)
    | with_reducible apply vxOpen_keeps
    | with_reducible apply vxSame_keeps
    | with_reducible apply vxVals_keeps
    | with_reducible apply vxWriteVals_keeps
    | with_reducible apply vxWriteAux_keeps
    | with_reducible apply ExecKeeps.bind

theorem execVxRelu_keeps : ∀ a0 a1 a2 a3 (a4 : State), z.Keeps a4 → OutKeeps z (execVxRelu a0 a1 a2 a3 a4) := by
  intro a0 a1 a2 a3 a4 h
  unfold execVxRelu
  repeat' first
    | with_reducible assumption
    | (extract_lets +onlyGivenNames x
       first
       | (first | refine State.Keeps.letH (z := z) (x := x) ?_ ?_ | refine State.Keeps.letF (z := z) (x := x) ?_ ?_ | refine State.Keeps.letR (z := z) (x := x) ?_ ?_ | refine ExecKeeps.letJ (x := x) ?_ ?_ | refine ExecKeeps.letM (x := x) ?_ ?_
          unfold x; clear x; rotate_left; clear_value x; intro; rotate_right)
       | clear_value x
       | skip)
    | with_reducible apply vxEngine_keeps
    | with_reducible apply reluBody_keeps

theorem maxpoolBody_keeps : ∀ a0, ExecKeeps (maxpoolBody a0) := by
  intro a0
  unfold maxpoolBody
  repeat' first
    | intro y
    | (extract_lets +onlyGivenNames x
       first
       | (first | refine ExecKeeps.letJ (x := x) ?_ ?_ | refine ExecKeeps.letM (x := x) ?_ ?_
          unfold x; clear x; rotate_left; clear_value x; intro; rotate_right)
       | clear_value x
       | skip)
    | with_reducible apply vxOpen_keeps
    | with_reducible apply shapeIf_keeps
    | with_reducible apply vxSame_keeps
    | with_reducible apply vxVals_keeps
    | with_reducible apply vxWriteVals_keeps
    | with_reducible apply vxWriteAux_keeps
    | with_reducible apply ExecKeeps.bind

theorem execVxMaxpool_keeps : ∀ a0 a1 a2 a3 (a4 : State), z.Keeps a4 → OutKeeps z (execVxMaxpool a0 a1 a2 a3 a4) := by
  intro a0 a1 a2 a3 a4 h
  unfold execVxMaxpool
  repeat' first
    | with_reducible assumption
    | (extract_lets +onlyGivenNames x
       first
       | (first | refine State.Keeps.letH (z := z) (x := x) ?_ ?_ | refine State.Keeps.letF (z := z) (x := x) ?_ ?_ | refine State.Keeps.letR (z := z) (x := x) ?_ ?_ | refine ExecKeeps.letJ (x := x) ?_ ?_ | refine ExecKeeps.letM (x := x) ?_ ?_
          unfold x; clear x; rotate_left; clear_value x; intro; rotate_right)
       | clear_value x
       | skip)
    | with_reducible apply vxEngine_keeps
    | with_reducible apply maxpoolBody_keeps

theorem maskmulBody_keeps : ∀ a0, ExecKeeps (maskmulBody a0) := by
  intro a0
  unfold maskmulBody
  repeat' first
    | intro y
    | (extract_lets +onlyGivenNames x
       first
       | (first | refine ExecKeeps.letJ (x := x) ?_ ?_ | refine ExecKeeps.letM (x := x) ?_ ?_
          unfold x; clear x; rotate_left; clear_value x; intro; rotate_right)
       | clear_value x
       | skip)
    | with_reducible apply vxOpen_keeps
    | with_reducible apply vxSame_keeps
    | with_reducible apply vxVals_keeps
    | with_reducible apply readElems_keeps
    | with_reducible apply vxWriteVals_keeps
    | with_reducible apply ExecKeeps.bind

theorem execVxMaskmul_keeps : ∀ a0 a1 a2 a3 (a4 : State), z.Keeps a4 → OutKeeps z (execVxMaskmul a0 a1 a2 a3 a4) := by
  intro a0 a1 a2 a3 a4 h
  unfold execVxMaskmul
  repeat' first
    | with_reducible assumption
    | (extract_lets +onlyGivenNames x
       first
       | (first | refine State.Keeps.letH (z := z) (x := x) ?_ ?_ | refine State.Keeps.letF (z := z) (x := x) ?_ ?_ | refine State.Keeps.letR (z := z) (x := x) ?_ ?_ | refine ExecKeeps.letJ (x := x) ?_ ?_ | refine ExecKeeps.letM (x := x) ?_ ?_
          unfold x; clear x; rotate_left; clear_value x; intro; rotate_right)
       | clear_value x
       | skip)
    | with_reducible apply vxEngine_keeps
    | with_reducible apply maskmulBody_keeps

theorem unpoolBody_keeps : ∀ a0, ExecKeeps (unpoolBody a0) := by
  intro a0
  unfold unpoolBody
  repeat' first
    | intro y
    | (extract_lets +onlyGivenNames x
       first
       | (first | refine ExecKeeps.letJ (x := x) ?_ ?_ | refine ExecKeeps.letM (x := x) ?_ ?_
          unfold x; clear x; rotate_left; clear_value x; intro; rotate_right)
       | clear_value x
       | skip)
    | with_reducible apply vxOpen_keeps
    | with_reducible apply vxSame_keeps
    | with_reducible apply vxVals_keeps
    | with_reducible apply readElems_keeps
    | with_reducible apply vxWriteVals_keeps
    | with_reducible apply ExecKeeps.bind

theorem execVxUnpool_keeps : ∀ a0 a1 a2 a3 (a4 : State), z.Keeps a4 → OutKeeps z (execVxUnpool a0 a1 a2 a3 a4) := by
  intro a0 a1 a2 a3 a4 h
  unfold execVxUnpool
  repeat' first
    | with_reducible assumption
    | (extract_lets +onlyGivenNames x
       first
       | (first | refine State.Keeps.letH (z := z) (x := x) ?_ ?_ | refine State.Keeps.letF (z := z) (x := x) ?_ ?_ | refine State.Keeps.letR (z := z) (x := x) ?_ ?_ | refine ExecKeeps.letJ (x := x) ?_ ?_ | refine ExecKeeps.letM (x := x) ?_ ?_
          unfold x; clear x; rotate_left; clear_value x; intro; rotate_right)
       | clear_value x
       | skip)
    | with_reducible apply vxEngine_keeps
    | with_reducible apply unpoolBody_keeps

theorem maskgenBody_keeps : ∀ a0, ExecKeeps (maskgenBody a0) := by
  intro a0
  unfold maskgenBody
  repeat' first
    | intro y
    | (extract_lets +onlyGivenNames x
       first
       | (first | refine ExecKeeps.letJ (x := x) ?_ ?_ | refine ExecKeeps.letM (x := x) ?_ ?_
          unfold x; clear x; rotate_left; clear_value x; intro; rotate_right)
       | clear_value x
       | skip)
    | with_reducible apply vxOpen_keeps
    | with_reducible apply vxSame_keeps
    | with_reducible apply vxVals_keeps
    | with_reducible apply vxWriteBits_keeps
    | with_reducible apply ExecKeeps.bind
    | split

theorem execVxMaskgen_keeps : ∀ a0 a1 a2 a3 (a4 : State), z.Keeps a4 → OutKeeps z (execVxMaskgen a0 a1 a2 a3 a4) := by
  intro a0 a1 a2 a3 a4 h
  unfold execVxMaskgen
  repeat' first
    | with_reducible assumption
    | (extract_lets +onlyGivenNames x
       first
       | (first | refine State.Keeps.letH (z := z) (x := x) ?_ ?_ | refine State.Keeps.letF (z := z) (x := x) ?_ ?_ | refine State.Keeps.letR (z := z) (x := x) ?_ ?_ | refine ExecKeeps.letJ (x := x) ?_ ?_ | refine ExecKeeps.letM (x := x) ?_ ?_
          unfold x; clear x; rotate_left; clear_value x; intro; rotate_right)
       | clear_value x
       | skip)
    | with_reducible apply vxEngine_keeps
    | with_reducible apply maskgenBody_keeps

theorem vxWords_keeps : ∀ a0 a1 a2, ExecKeeps (vxWords a0 a1 a2) := by
  intro a0 a1 a2
  unfold vxWords
  repeat' first
    | with_reducible assumption
    | intro y
    | (extract_lets +onlyGivenNames x
       first
       | (first | refine State.Keeps.letH (z := z) (x := x) ?_ ?_ | refine State.Keeps.letF (z := z) (x := x) ?_ ?_ | refine State.Keeps.letR (z := z) (x := x) ?_ ?_ | refine ExecKeeps.letJ (x := x) ?_ ?_ | refine ExecKeeps.letM (x := x) ?_ ?_
          unfold x; clear x; rotate_left; clear_value x; intro; rotate_right)
       | clear_value x
       | skip)
    | with_reducible apply State.updCtx_keeps
    | with_reducible apply getCtx_keeps
    | with_reducible exact ExecKeeps.pure _
    | with_reducible exact ExecKeeps.get
    | with_reducible apply ExecKeeps.bind
    | with_reducible apply ExecKeeps.modS
    | simp -zeta -zetaDelta only [State.Keeps.mk_iff, State.Keeps.mk_flash]
    | split

theorem randomBody_keeps : ∀ a0, ExecKeeps (randomBody a0) := by
  intro a0
  unfold randomBody
  repeat' first
    | intro y
    | (extract_lets +onlyGivenNames x
       first
       | (first | refine ExecKeeps.letJ (x := x) ?_ ?_ | refine ExecKeeps.letM (x := x) ?_ ?_
          unfold x; clear x; rotate_left; clear_value x; intro; rotate_right)
       | clear_value x
       | skip)
    | with_reducible apply vxOpen_keeps
    | with_reducible apply vxWords_keeps
    | with_reducible apply vxWriteBits_keeps
    | with_reducible apply ExecKeeps.bind

theorem execVxRandom_keeps : ∀ a0 a1 a2 a3 (a4 : State), z.Keeps a4 → OutKeeps z (execVxRandom a0 a1 a2 a3 a4) := by
  intro a0 a1 a2 a3 a4 h
  unfold execVxRandom
  repeat' first
    | with_reducible assumption
    | (extract_lets +onlyGivenNames x
       first
       | (first | refine State.Keeps.letH (z := z) (x := x) ?_ ?_ | refine State.Keeps.letF (z := z) (x := x) ?_ ?_ | refine State.Keeps.letR (z := z) (x := x) ?_ ?_ | refine ExecKeeps.letJ (x := x) ?_ ?_ | refine ExecKeeps.letM (x := x) ?_ ?_
          unfold x; clear x; rotate_left; clear_value x; intro; rotate_right)
       | clear_value x
       | skip)
    | with_reducible apply vxEngine_keeps
    | with_reducible apply randomBody_keeps

theorem dropoutBody_keeps : ∀ a0, ExecKeeps (dropoutBody a0) := by
  intro a0
  unfold dropoutBody
  repeat' first
    | intro y
    | (extract_lets +onlyGivenNames x
       first
       | (first | refine ExecKeeps.letJ (x := x) ?_ ?_ | refine ExecKeeps.letM (x := x) ?_ ?_
          unfold x; clear x; rotate_left; clear_value x; intro; rotate_right)
       | clear_value x
       | skip)
    | with_reducible apply vxOpen_keeps
    | with_reducible apply vxSame_keeps
    | with_reducible apply vxVals_keeps
    | with_reducible apply vxWords_keeps
    | with_reducible apply vxWriteVals_keeps
    | with_reducible apply vxWriteAux_keeps
    | with_reducible apply ExecKeeps.bind

theorem execVxDropout_keeps : ∀ a0 a1 a2 a3 (a4 : State), z.Keeps a4 → OutKeeps z (execVxDropout a0 a1 a2 a3 a4) := by
  intro a0 a1 a2 a3 a4 h
  unfold execVxDropout
  repeat' first
    | with_reducible assumption
    | (extract_lets +onlyGivenNames x
       first
       | (first | refine State.Keeps.letH (z := z) (x := x) ?_ ?_ | refine State.Keeps.letF (z := z) (x := x) ?_ ?_ | refine State.Keeps.letR (z := z) (x := x) ?_ ?_ | refine ExecKeeps.letJ (x := x) ?_ ?_ | refine ExecKeeps.letM (x := x) ?_ ?_
          unfold x; clear x; rotate_left; clear_value x; intro; rotate_right)
       | clear_value x
       | skip)
    | with_reducible apply vxEngine_keeps
    | with_reducible apply dropoutBody_keeps

theorem tableBody_keeps : ∀ a0, ExecKeeps (tableBody a0) := by
  intro a0
  unfold tableBody
  repeat' first
    | intro y
    | (extract_lets +onlyGivenNames x
       first
       | (first | refine ExecKeeps.letJ (x := x) ?_ ?_ | refine ExecKeeps.letM (x := x) ?_ ?_
          unfold x; clear x; rotate_left; clear_value x; intro; rotate_right)
       | clear_value x
       | skip)
    | with_reducible apply vxOpen_keeps
    | with_reducible apply shapeIf_keeps
    | with_reducible apply vxSame_keeps
    | with_reducible apply vxVals_keeps
    | with_reducible apply readElems_keeps
    | with_reducible apply vxWriteVals_keeps
    | with_reducible apply countE_keeps
    | with_reducible apply ExecKeeps.bind

theorem execVxTable_keeps : ∀ a0 a1 a2 a3 (a4 : State), z.Keeps a4 → OutKeeps z (execVxTable a0 a1 a2 a3 a4) := by
  intro a0 a1 a2 a3 a4 h
  unfold execVxTable
  repeat' first
    | with_reducible assumption
    | (extract_lets +onlyGivenNames x
       first
       | (first | refine State.Keeps.letH (z := z) (x := x) ?_ ?_ | refine State.Keeps.letF (z := z) (x := x) ?_ ?_ | refine State.Keeps.letR (z := z) (x := x) ?_ ?_ | refine ExecKeeps.letJ (x := x) ?_ ?_ | refine ExecKeeps.letM (x := x) ?_ ?_
          unfold x; clear x; rotate_left; clear_value x; intro; rotate_right)
       | clear_value x
       | skip)
    | with_reducible apply vxEngine_keeps
    | with_reducible apply tableBody_keeps

theorem kvappendBody_keeps : ∀ a0, ExecKeeps (kvappendBody a0) := by
  intro a0
  unfold kvappendBody
  repeat' first
    | with_reducible assumption
    | intro y
    | (extract_lets +onlyGivenNames x
       first
       | (first | refine State.Keeps.letH (z := z) (x := x) ?_ ?_ | refine State.Keeps.letF (z := z) (x := x) ?_ ?_ | refine State.Keeps.letR (z := z) (x := x) ?_ ?_ | refine ExecKeeps.letJ (x := x) ?_ ?_ | refine ExecKeeps.letM (x := x) ?_ ?_
          unfold x; clear x; rotate_left; clear_value x; intro; rotate_right)
       | clear_value x
       | skip)
    | with_reducible apply vxOpen_keeps
    | with_reducible apply writeFlatOut_keeps
    | with_reducible apply shapeIf_keeps
    | with_reducible apply vxCountOut_keeps
    | with_reducible apply vxVals_keeps
    | with_reducible exact ExecKeeps.pure _
    | with_reducible exact ExecKeeps.trap _
    | with_reducible exact ExecKeeps.get
    | with_reducible exact ExecKeeps.getS
    | with_reducible apply ExecKeeps.bind
    | with_reducible apply ExecKeeps.modS
    | with_reducible apply ExecKeeps.modify
    | with_reducible apply ExecKeeps.forM
    | with_reducible apply ExecKeeps.mapM
    | with_reducible apply ExecKeeps.foldlM
    | with_reducible apply ExecKeeps.when
    | with_reducible apply State.Keeps.foldl
    | with_reducible apply State.Keeps.foldlProd
    | with_reducible apply State.Keeps.foldlSnd
    | simp -zeta -zetaDelta only [State.Keeps.mk_iff, State.Keeps.mk_flash]
    | split

theorem execVxKvappend_keeps : ∀ a0 a1 a2 a3 (a4 : State), z.Keeps a4 → OutKeeps z (execVxKvappend a0 a1 a2 a3 a4) := by
  intro a0 a1 a2 a3 a4 h
  unfold execVxKvappend
  repeat' first
    | with_reducible assumption
    | (extract_lets +onlyGivenNames x
       first
       | (first | refine State.Keeps.letH (z := z) (x := x) ?_ ?_ | refine State.Keeps.letF (z := z) (x := x) ?_ ?_ | refine State.Keeps.letR (z := z) (x := x) ?_ ?_ | refine ExecKeeps.letJ (x := x) ?_ ?_ | refine ExecKeeps.letM (x := x) ?_ ?_
          unfold x; clear x; rotate_left; clear_value x; intro; rotate_right)
       | clear_value x
       | skip)
    | with_reducible apply vxEngine_keeps
    | with_reducible apply kvappendBody_keeps

theorem readWanted_keeps : ∀ a0 a1, ExecKeeps (readWanted a0 a1) := by
  intro a0 a1
  unfold readWanted
  repeat' first
    | intro y
    | (extract_lets +onlyGivenNames x
       first
       | (first | refine ExecKeeps.letJ (x := x) ?_ ?_ | refine ExecKeeps.letM (x := x) ?_ ?_
          unfold x; clear x; rotate_left; clear_value x; intro; rotate_right)
       | clear_value x
       | skip)
    | with_reducible apply readBlock_keeps
    | with_reducible exact ExecKeeps.pure _
    | with_reducible apply ExecKeeps.bind
    | with_reducible apply ExecKeeps.mapM
    | split

theorem readTokens_keeps : ∀ a0 a1 a2 a3, ExecKeeps (readTokens a0 a1 a2 a3) := by
  intro a0 a1 a2 a3
  unfold readTokens
  repeat' first
    | intro y
    | (extract_lets +onlyGivenNames x
       first
       | (first | refine ExecKeeps.letJ (x := x) ?_ ?_ | refine ExecKeeps.letM (x := x) ?_ ?_
          unfold x; clear x; rotate_left; clear_value x; intro; rotate_right)
       | clear_value x
       | skip)
    | with_reducible apply vxOpen_keeps
    | with_reducible apply shapeIf_keeps
    | with_reducible apply readWanted_keeps
    | with_reducible apply setNonfinite_keeps
    | with_reducible exact ExecKeeps.pure _
    | with_reducible apply ExecKeeps.bind

theorem kvscoreBody_keeps : ∀ a0, ExecKeeps (kvscoreBody a0) := by
  intro a0
  unfold kvscoreBody
  repeat' first
    | intro y
    | (extract_lets +onlyGivenNames x
       first
       | (first | refine ExecKeeps.letJ (x := x) ?_ ?_ | refine ExecKeeps.letM (x := x) ?_ ?_
          unfold x; clear x; rotate_left; clear_value x; intro; rotate_right)
       | clear_value x
       | skip)
    | with_reducible apply vxOpen_keeps
    | with_reducible apply shapeIf_keeps
    | with_reducible apply readTokens_keeps
    | with_reducible apply vxSame_keeps
    | with_reducible apply vxVals_keeps
    | with_reducible apply vxWriteVals_keeps
    | with_reducible apply countE_keeps
    | with_reducible apply ExecKeeps.bind

theorem execVxKvscore_keeps : ∀ a0 a1 a2 a3 (a4 : State), z.Keeps a4 → OutKeeps z (execVxKvscore a0 a1 a2 a3 a4) := by
  intro a0 a1 a2 a3 a4 h
  unfold execVxKvscore
  repeat' first
    | with_reducible assumption
    | (extract_lets +onlyGivenNames x
       first
       | (first | refine State.Keeps.letH (z := z) (x := x) ?_ ?_ | refine State.Keeps.letF (z := z) (x := x) ?_ ?_ | refine State.Keeps.letR (z := z) (x := x) ?_ ?_ | refine ExecKeeps.letJ (x := x) ?_ ?_ | refine ExecKeeps.letM (x := x) ?_ ?_
          unfold x; clear x; rotate_left; clear_value x; intro; rotate_right)
       | clear_value x
       | skip)
    | with_reducible apply vxEngine_keeps
    | with_reducible apply kvscoreBody_keeps

theorem kvmixBody_keeps : ∀ a0, ExecKeeps (kvmixBody a0) := by
  intro a0
  unfold kvmixBody
  repeat' first
    | intro y
    | (extract_lets +onlyGivenNames x
       first
       | (first | refine ExecKeeps.letJ (x := x) ?_ ?_ | refine ExecKeeps.letM (x := x) ?_ ?_
          unfold x; clear x; rotate_left; clear_value x; intro; rotate_right)
       | clear_value x
       | skip)
    | with_reducible apply vxOpen_keeps
    | with_reducible apply shapeIf_keeps
    | with_reducible apply readTokens_keeps
    | with_reducible apply vxVals_keeps
    | with_reducible apply vxWriteVals_keeps
    | with_reducible apply countE_keeps
    | with_reducible apply ExecKeeps.bind

theorem execVxKvmix_keeps : ∀ a0 a1 a2 a3 (a4 : State), z.Keeps a4 → OutKeeps z (execVxKvmix a0 a1 a2 a3 a4) := by
  intro a0 a1 a2 a3 a4 h
  unfold execVxKvmix
  repeat' first
    | with_reducible assumption
    | (extract_lets +onlyGivenNames x
       first
       | (first | refine State.Keeps.letH (z := z) (x := x) ?_ ?_ | refine State.Keeps.letF (z := z) (x := x) ?_ ?_ | refine State.Keeps.letR (z := z) (x := x) ?_ ?_ | refine ExecKeeps.letJ (x := x) ?_ ?_ | refine ExecKeeps.letM (x := x) ?_ ?_
          unfold x; clear x; rotate_left; clear_value x; intro; rotate_right)
       | clear_value x
       | skip)
    | with_reducible apply vxEngine_keeps
    | with_reducible apply kvmixBody_keeps

end Sys2Proof.Machine
end

