-- ==== Sys2Proof/Laws/KeepsUpdate.lean ====
section
/-! SUPPORT. What Machine/Update.lean keeps: one lemma an operation. -/
namespace Sys2Proof.Machine
set_option linter.all false

variable {z : State}

theorem commitFault_keeps : ∀ {α : Type} a1 a2, ExecKeeps (@commitFault α a1 a2) := by
  intro α a1 a2
  unfold commitFault
  repeat' first
    | with_reducible exact ExecKeeps.trap _

theorem upTarget_keeps : ∀ a0, ExecKeeps (upTarget a0) := by
  intro a0
  unfold upTarget
  repeat' first
    | intro y
    | (extract_lets +onlyGivenNames x
       first
       | (first | refine ExecKeeps.letJ (x := x) ?_ ?_ | refine ExecKeeps.letM (x := x) ?_ ?_
          unfold x; clear x; rotate_left; clear_value x; intro; rotate_right)
       | clear_value x
       | skip)
    | with_reducible apply getCtx_keeps
    | with_reducible apply commitFault_keeps
    | with_reducible exact ExecKeeps.pure _
    | with_reducible exact ExecKeeps.get
    | with_reducible apply ExecKeeps.bind
    | split

theorem upPlane_keeps : ∀ a0 a1 a2 a3 a4, ExecKeeps (upPlane a0 a1 a2 a3 a4) := by
  intro a0 a1 a2 a3 a4
  unfold upPlane
  repeat' first
    | intro y
    | (extract_lets +onlyGivenNames x
       first
       | (first | refine ExecKeeps.letJ (x := x) ?_ ?_ | refine ExecKeeps.letM (x := x) ?_ ?_
          unfold x; clear x; rotate_left; clear_value x; intro; rotate_right)
       | clear_value x
       | skip)
    | with_reducible apply resolve_keeps
    | with_reducible apply getCtx_keeps
    | with_reducible apply shapeIf_keeps
    | with_reducible exact ExecKeeps.pure _
    | with_reducible apply ExecKeeps.bind

theorem upWords_keeps : ∀ a0 a1 a2 a3 a4 a5, ExecKeeps (upWords a0 a1 a2 a3 a4 a5) := by
  intro a0 a1 a2 a3 a4 a5
  unfold upWords
  repeat' first
    | with_reducible assumption
    | intro y
    | (extract_lets +onlyGivenNames x
       first
       | (first | refine State.Keeps.letH (z := z) (x := x) ?_ ?_ | refine State.Keeps.letF (z := z) (x := x) ?_ ?_ | refine State.Keeps.letR (z := z) (x := x) ?_ ?_ | refine ExecKeeps.letJ (x := x) ?_ ?_ | refine ExecKeeps.letM (x := x) ?_ ?_
          unfold x; clear x; rotate_left; clear_value x; intro; rotate_right)
       | clear_value x
       | skip)
    | with_reducible apply State.updCtx_keeps
    | with_reducible apply getCtx_keeps
    | with_reducible exact ExecKeeps.pure _
    | with_reducible exact ExecKeeps.get
    | with_reducible apply ExecKeeps.bind
    | with_reducible apply ExecKeeps.modS
    | simp -zeta -zetaDelta only [State.Keeps.mk_iff, State.Keeps.mk_flash]
    | split

theorem upWrite_keeps : ∀ a0 a1 a2, ExecKeeps (upWrite a0 a1 a2) := by
  intro a0 a1 a2
  unfold upWrite
  repeat' first
    | with_reducible assumption
    | intro y
    | (extract_lets +onlyGivenNames x
       first
       | (first | refine State.Keeps.letH (z := z) (x := x) ?_ ?_ | refine State.Keeps.letF (z := z) (x := x) ?_ ?_ | refine State.Keeps.letR (z := z) (x := x) ?_ ?_ | refine ExecKeeps.letJ (x := x) ?_ ?_ | refine ExecKeeps.letM (x := x) ?_ ?_
          unfold x; clear x; rotate_left; clear_value x; intro; rotate_right)
       | clear_value x
       | skip)
    | with_reducible apply onOutput_keeps
    | with_reducible apply writeElems_keeps
    | with_reducible exact ExecKeeps.pure _
    | with_reducible exact ExecKeeps.trap _
    | with_reducible exact ExecKeeps.get
    | with_reducible exact ExecKeeps.getS
    | with_reducible apply ExecKeeps.bind
    | with_reducible apply ExecKeeps.modS
    | with_reducible apply ExecKeeps.modify
    | with_reducible apply ExecKeeps.forM
    | with_reducible apply ExecKeeps.mapM
    | with_reducible apply ExecKeeps.foldlM
    | with_reducible apply ExecKeeps.when
    | with_reducible apply State.Keeps.foldl
    | with_reducible apply State.Keeps.foldlProd
    | with_reducible apply State.Keeps.foldlSnd
    | simp -zeta -zetaDelta only [State.Keeps.mk_iff, State.Keeps.mk_flash]
    | split

theorem upRecord_keeps : ∀ a0 a1 a2, ExecKeeps (upRecord a0 a1 a2) := by
  intro a0 a1 a2
  unfold upRecord
  repeat' first
    | intro y
    | (extract_lets +onlyGivenNames x
       first
       | (first | refine ExecKeeps.letJ (x := x) ?_ ?_ | refine ExecKeeps.letM (x := x) ?_ ?_
          unfold x; clear x; rotate_left; clear_value x; intro; rotate_right)
       | clear_value x
       | skip)
    | with_reducible apply resolve_keeps
    | with_reducible apply shapeIf_keeps
    | with_reducible exact ExecKeeps.pure _
    | with_reducible apply ExecKeeps.bind

theorem upUpdate_keeps : ∀ a0 a1 a2 a3, ExecKeeps (upUpdate a0 a1 a2 a3) := by
  intro a0 a1 a2 a3
  unfold upUpdate
  repeat' first
    | with_reducible assumption
    | intro y
    | (extract_lets +onlyGivenNames x
       first
       | (first | refine State.Keeps.letH (z := z) (x := x) ?_ ?_ | refine State.Keeps.letF (z := z) (x := x) ?_ ?_ | refine State.Keeps.letR (z := z) (x := x) ?_ ?_ | refine ExecKeeps.letJ (x := x) ?_ ?_ | refine ExecKeeps.letM (x := x) ?_ ?_
          unfold x; clear x; rotate_left; clear_value x; intro; rotate_right)
       | clear_value x
       | skip)
    | with_reducible apply State.markSlice_keeps
    | with_reducible apply readVals_keeps
    | with_reducible apply upWrite_keeps
    | with_reducible apply writeFlatOut_keeps
    | with_reducible apply commitFault_keeps
    | with_reducible apply onOutput_keeps
    | with_reducible apply setTainted_keeps
    | with_reducible apply upWords_keeps
    | with_reducible apply readElems_keeps
    | with_reducible apply resolve_keeps
    | with_reducible apply upRecord_keeps
    | with_reducible apply upPlane_keeps
    | with_reducible apply readFlat_keeps
    | with_reducible apply shapeIf_keeps
    | with_reducible apply getCtx_keeps
    | with_reducible apply setNonfinite_keeps
    | with_reducible apply countE_keeps
    | with_reducible exact ExecKeeps.pure _
    | with_reducible exact ExecKeeps.trap _
    | with_reducible exact ExecKeeps.get
    | with_reducible exact ExecKeeps.getS
    | with_reducible apply ExecKeeps.bind
    | with_reducible apply ExecKeeps.peek
    | with_reducible apply ExecKeeps.modS
    | with_reducible apply ExecKeeps.modify
    | with_reducible apply ExecKeeps.forM
    | with_reducible apply ExecKeeps.mapM
    | with_reducible apply ExecKeeps.foldlM
    | with_reducible apply ExecKeeps.when
    | with_reducible apply State.Keeps.foldl
    | with_reducible apply State.Keeps.foldlProd
    | with_reducible apply State.Keeps.foldlSnd
    | simp -zeta -zetaDelta only [State.Keeps.mk_iff, State.Keeps.mk_flash]
    | split
    | with_reducible apply_assumption

theorem upStepBody_keeps : ∀ a0, ExecKeeps (upStepBody a0) := by
  intro a0
  unfold upStepBody
  repeat' first
    | with_reducible assumption
    | intro y
    | (extract_lets +onlyGivenNames x
       first
       | (first | refine State.Keeps.letH (z := z) (x := x) ?_ ?_ | refine State.Keeps.letF (z := z) (x := x) ?_ ?_ | refine State.Keeps.letR (z := z) (x := x) ?_ ?_ | refine ExecKeeps.letJ (x := x) ?_ ?_ | refine ExecKeeps.letM (x := x) ?_ ?_
          unfold x; clear x; rotate_left; clear_value x; intro; rotate_right)
       | clear_value x
       | skip)
    | with_reducible apply getCtx_keeps
    | with_reducible apply upTarget_keeps
    | with_reducible apply State.markSlice_keeps
    | with_reducible apply upUpdate_keeps
    | with_reducible apply commitFault_keeps
    | with_reducible exact ExecKeeps.get
    | with_reducible apply ExecKeeps.bind
    | with_reducible apply ExecKeeps.modS
    | simp -zeta -zetaDelta only [State.Keeps.mk_iff, State.Keeps.mk_flash]
    | split
    | with_reducible apply_assumption

theorem execUpStep_keeps : ∀ a0 a1 a2 a3 (a4 : State), z.Keeps a4 → OutKeeps z (execUpStep a0 a1 a2 a3 a4) := by
  intro a0 a1 a2 a3 a4 h
  unfold execUpStep
  repeat' first
    | with_reducible assumption
    | (extract_lets +onlyGivenNames x
       first
       | (first | refine State.Keeps.letH (z := z) (x := x) ?_ ?_ | refine State.Keeps.letF (z := z) (x := x) ?_ ?_ | refine State.Keeps.letR (z := z) (x := x) ?_ ?_ | refine ExecKeeps.letJ (x := x) ?_ ?_ | refine ExecKeeps.letM (x := x) ?_ ?_
          unfold x; clear x; rotate_left; clear_value x; intro; rotate_right)
       | clear_value x
       | skip)
    | with_reducible apply engine_keeps
    | with_reducible apply upStepBody_keeps

theorem exactRows_keeps : ∀ a0 a1 a2 a3, ExecKeeps (exactRows a0 a1 a2 a3) := by
  intro a0 a1 a2 a3
  unfold exactRows
  repeat' first
    | with_reducible assumption
    | intro y
    | (extract_lets +onlyGivenNames x
       first
       | (first | refine State.Keeps.letH (z := z) (x := x) ?_ ?_ | refine State.Keeps.letF (z := z) (x := x) ?_ ?_ | refine State.Keeps.letR (z := z) (x := x) ?_ ?_ | refine ExecKeeps.letJ (x := x) ?_ ?_ | refine ExecKeeps.letM (x := x) ?_ ?_
          unfold x; clear x; rotate_left; clear_value x; intro; rotate_right)
       | clear_value x
       | skip)
    | with_reducible apply shapeIf_keeps
    | with_reducible exact ExecKeeps.pure _
    | with_reducible exact ExecKeeps.trap _
    | with_reducible exact ExecKeeps.get
    | with_reducible exact ExecKeeps.getS
    | with_reducible apply ExecKeeps.bind
    | with_reducible apply ExecKeeps.modS
    | with_reducible apply ExecKeeps.modify
    | with_reducible apply ExecKeeps.forM
    | with_reducible apply ExecKeeps.mapM
    | with_reducible apply ExecKeeps.foldlM
    | with_reducible apply ExecKeeps.when
    | with_reducible apply State.Keeps.foldl
    | with_reducible apply State.Keeps.foldlProd
    | with_reducible apply State.Keeps.foldlSnd
    | simp -zeta -zetaDelta only [State.Keeps.mk_iff, State.Keeps.mk_flash]
    | split

theorem upWcopyBody_keeps : ∀ a0, ExecKeeps (upWcopyBody a0) := by
  intro a0
  unfold upWcopyBody
  repeat' first
    | with_reducible assumption
    | intro y
    | (extract_lets +onlyGivenNames x
       first
       | (first | refine State.Keeps.letH (z := z) (x := x) ?_ ?_ | refine State.Keeps.letF (z := z) (x := x) ?_ ?_ | refine State.Keeps.letR (z := z) (x := x) ?_ ?_ | refine ExecKeeps.letJ (x := x) ?_ ?_ | refine ExecKeeps.letM (x := x) ?_ ?_
          unfold x; clear x; rotate_left; clear_value x; intro; rotate_right)
       | clear_value x
       | skip)
    | with_reducible apply writeSet_keeps
    | with_reducible apply upTarget_keeps
    | with_reducible apply exactRows_keeps
    | with_reducible apply State.updEntry_keeps
    | with_reducible apply raiseCompute_keeps
    | with_reducible apply openDest_keeps
    | with_reducible apply State.countProduction_keeps
    | with_reducible apply readElems_keeps
    | with_reducible apply upRecord_keeps
    | with_reducible apply upPlane_keeps
    | with_reducible apply readFlat_keeps
    | with_reducible apply shapeIf_keeps
    | with_reducible apply getCtx_keeps
    | with_reducible apply setNonfinite_keeps
    | with_reducible apply countE_keeps
    | with_reducible exact ExecKeeps.pure _
    | with_reducible exact ExecKeeps.trap _
    | with_reducible exact ExecKeeps.get
    | with_reducible exact ExecKeeps.getS
    | with_reducible apply ExecKeeps.bind
    | with_reducible apply ExecKeeps.peek
    | with_reducible apply ExecKeeps.modS
    | with_reducible apply ExecKeeps.modify
    | with_reducible apply ExecKeeps.forM
    | with_reducible apply ExecKeeps.mapM
    | with_reducible apply ExecKeeps.foldlM
    | with_reducible apply ExecKeeps.when
    | with_reducible apply State.Keeps.foldl
    | with_reducible apply State.Keeps.foldlProd
    | with_reducible apply State.Keeps.foldlSnd
    | simp -zeta -zetaDelta only [State.Keeps.mk_iff, State.Keeps.mk_flash]
    | split
    | with_reducible apply_assumption

theorem execUpWcopy_keeps : ∀ a0 a1 a2 a3 (a4 : State), z.Keeps a4 → OutKeeps z (execUpWcopy a0 a1 a2 a3 a4) := by
  intro a0 a1 a2 a3 a4 h
  unfold execUpWcopy
  repeat' first
    | with_reducible assumption
    | (extract_lets +onlyGivenNames x
       first
       | (first | refine State.Keeps.letH (z := z) (x := x) ?_ ?_ | refine State.Keeps.letF (z := z) (x := x) ?_ ?_ | refine State.Keeps.letR (z := z) (x := x) ?_ ?_ | refine ExecKeeps.letJ (x := x) ?_ ?_ | refine ExecKeeps.letM (x := x) ?_ ?_
          unfold x; clear x; rotate_left; clear_value x; intro; rotate_right)
       | clear_value x
       | skip)
    | with_reducible apply engine_keeps
    | with_reducible apply upWcopyBody_keeps

theorem State.roundContribute_keeps : ∀ (a0 : State) a1, z.Keeps a0 → z.Keeps (State.roundContribute a0 a1) := by
  intro a0 a1 h
  unfold State.roundContribute
  repeat' first
    | with_reducible assumption
    | with_reducible apply State.updCtx_keeps

theorem execUpVerdict_keeps : ∀ a0 a1 a2 (a3 : State), z.Keeps a3 → OutKeeps z (execUpVerdict a0 a1 a2 a3) := by
  intro a0 a1 a2 a3 h
  unfold execUpVerdict
  repeat' first
    | with_reducible assumption
    | (extract_lets +onlyGivenNames x
       first
       | (first | refine State.Keeps.letH (z := z) (x := x) ?_ ?_ | refine State.Keeps.letF (z := z) (x := x) ?_ ?_
          unfold x; clear x; rotate_left; clear_value x; intro; rotate_right)
       | clear_value x
       | skip)
    | with_reducible apply OutKeeps.next
    | with_reducible refine State.tryIssue_stays ?_ (by with_reducible assumption)
    | with_reducible refine State.tryIssue_go_keeps ?_ (by with_reducible assumption)
    | with_reducible apply State.updStream_keeps
    | with_reducible apply State.orVerdict_keeps
    | with_reducible apply State.roundContribute_keeps
    | split

theorem State.verdictDone_keeps : ∀ (a0 : State) a1 a2, z.Keeps a0 → z.Keeps (State.verdictDone a0 a1 a2) := by
  intro a0 a1 a2 h
  unfold State.verdictDone
  repeat' first
    | with_reducible assumption
    | intro y
    | (extract_lets +onlyGivenNames x
       first
       | (first | refine State.Keeps.letH (z := z) (x := x) ?_ ?_ | refine State.Keeps.letF (z := z) (x := x) ?_ ?_
          unfold x; clear x; rotate_left; clear_value x; intro; rotate_right)
       | clear_value x
       | skip)
    | with_reducible apply State.updStream_keeps
    | with_reducible apply State.complete_keeps
    | with_reducible apply State.Keeps.foldl
    | split

theorem execRoundVerdictReceived_keeps : ∀ a0 a1 a2 a3 (a4 : State), z.Keeps a4 → OutKeeps z (execRoundVerdictReceived a0 a1 a2 a3 a4) := by
  intro a0 a1 a2 a3 a4 h
  unfold execRoundVerdictReceived
  repeat' first
    | with_reducible assumption
    | intro y
    | (extract_lets +onlyGivenNames x
       first
       | (first | refine State.Keeps.letH (z := z) (x := x) ?_ ?_ | refine State.Keeps.letF (z := z) (x := x) ?_ ?_
          unfold x; clear x; rotate_left; clear_value x; intro; rotate_right)
       | clear_value x
       | skip)
    | with_reducible apply OutKeeps.next
    | with_reducible apply State.updCtx_keeps
    | with_reducible apply State.stopFault_keeps
    | with_reducible apply State.verdictDone_keeps
    | with_reducible apply State.Keeps.foldl
    | split

end Sys2Proof.Machine
end

