-- ==== Sys2Proof/Laws/KeepsCommit.lean ====
section
/-! SUPPORT. What Machine/Commit.lean keeps: one lemma an operation. -/
namespace Sys2Proof.Machine
set_option linter.all false

variable {z : State}

theorem execMkFencePassed_keeps : ∀ a0 (a1 : State), z.Keeps a1 → OutKeeps z (execMkFencePassed a0 a1) := by
  intro a0 a1 h
  unfold execMkFencePassed
  repeat' first
    | with_reducible assumption
    | intro y
    | (extract_lets +onlyGivenNames x
       first
       | (first | refine State.Keeps.letH (z := z) (x := x) ?_ ?_ | refine State.Keeps.letF (z := z) (x := x) ?_ ?_
          unfold x; clear x; rotate_left; clear_value x; intro; rotate_right)
       | clear_value x
       | skip)
    | with_reducible apply OutKeeps.next
    | with_reducible apply State.latchAtMk_keeps
    | with_reducible apply State.stopFault_keeps
    | with_reducible apply State.updCtx_keeps
    | with_reducible apply State.Keeps.foldl
    | with_reducible apply State.Keeps.foldlProd
    | with_reducible apply State.Keeps.foldlSnd
    | simp -zeta -zetaDelta only [State.Keeps.mk_iff, State.Keeps.mk_flash]
    | split

theorem Tensor.putRun_keeps : ∀ a0 (a1 : State) a2 a3, z.Keeps a1 → z.Keeps (Tensor.putRun a0 a1 a2 a3) := by
  intro a0 a1 a2 a3 h
  unfold Tensor.putRun
  repeat' first
    | with_reducible assumption
    | intro y
    | (extract_lets +onlyGivenNames x
       first
       | (first | refine State.Keeps.letH (z := z) (x := x) ?_ ?_ | refine State.Keeps.letF (z := z) (x := x) ?_ ?_
          unfold x; clear x; rotate_left; clear_value x; intro; rotate_right)
       | clear_value x
       | skip)
    | with_reducible apply State.write_keeps
    | with_reducible apply State.Keeps.foldl
    | split

theorem State.putPlane_keeps : ∀ (a0 : State) a1 a2, z.Keeps a0 → z.Keeps (State.putPlane a0 a1 a2) := by
  intro a0 a1 a2 h
  unfold State.putPlane
  repeat' first
    | with_reducible assumption
    | intro y
    | (extract_lets +onlyGivenNames x
       first
       | (first | refine State.Keeps.letH (z := z) (x := x) ?_ ?_ | refine State.Keeps.letF (z := z) (x := x) ?_ ?_
          unfold x; clear x; rotate_left; clear_value x; intro; rotate_right)
       | clear_value x
       | skip)
    | with_reducible apply Tensor.putRun_keeps
    | with_reducible apply State.Keeps.foldl

theorem State.takeGeneration_keeps : ∀ (a0 : State) a1 a2, z.Keeps a0 → z.Keeps (State.takeGeneration a0 a1 a2).2 := by
  intro a0 a1 a2 h
  unfold State.takeGeneration
  repeat' first
    | with_reducible assumption
    | (extract_lets +onlyGivenNames x
       first
       | (first | refine State.Keeps.letH (z := z) (x := x) ?_ ?_ | refine State.Keeps.letF (z := z) (x := x) ?_ ?_
          unfold x; clear x; rotate_left; clear_value x; intro; rotate_right)
       | clear_value x
       | skip)
    | with_reducible apply State.hostEvent_keeps
    | with_reducible apply State.updCtx_keeps
    | split

theorem State.writeStepRecord_keeps : ∀ (a0 : State) a1 a2, z.Keeps a0 → z.Keeps (State.writeStepRecord a0 a1 a2) := by
  intro a0 a1 a2 h
  unfold State.writeStepRecord
  repeat' first
    | with_reducible assumption
    | (extract_lets +onlyGivenNames x
       first
       | (first | refine State.Keeps.letH (z := z) (x := x) ?_ ?_ | refine State.Keeps.letF (z := z) (x := x) ?_ ?_
          unfold x; clear x; rotate_left; clear_value x; intro; rotate_right)
       | clear_value x
       | skip)
    | with_reducible apply State.logDevice_keeps
    | with_reducible apply State.hostRingPush_keeps
    | with_reducible apply State.updCtx_keeps
    | with_reducible apply State.hostEvent_keeps
    | simp -zeta -zetaDelta only [State.Keeps.mk_iff, State.Keeps.mk_flash]
    | split

theorem State.mkDone_keeps : ∀ (a0 : State) a1 a2, z.Keeps a0 → z.Keeps (State.mkDone a0 a1 a2) := by
  intro a0 a1 a2 h
  unfold State.mkDone
  repeat' first
    | with_reducible assumption
    | intro y
    | (extract_lets +onlyGivenNames x
       first
       | (first | refine State.Keeps.letH (z := z) (x := x) ?_ ?_ | refine State.Keeps.letF (z := z) (x := x) ?_ ?_
          unfold x; clear x; rotate_left; clear_value x; intro; rotate_right)
       | clear_value x
       | skip)
    | with_reducible apply State.updStream_keeps
    | with_reducible apply State.measure_keeps
    | with_reducible apply State.count_keeps
    | with_reducible apply State.complete_keeps
    | with_reducible apply State.Keeps.foldl
    | split

theorem State.endStep_keeps : ∀ (a0 : State) a1 a2, z.Keeps a0 → z.Keeps (State.endStep a0 a1 a2) := by
  intro a0 a1 a2 h
  unfold State.endStep
  repeat' first
    | with_reducible assumption
    | intro y
    | (extract_lets +onlyGivenNames x
       first
       | (first | refine State.Keeps.letH (z := z) (x := x) ?_ ?_ | refine State.Keeps.letF (z := z) (x := x) ?_ ?_
          unfold x; clear x; rotate_left; clear_value x; intro; rotate_right)
       | clear_value x
       | skip)
    | with_reducible apply State.updCtx_keeps
    | with_reducible apply State.updDies_keeps
    | with_reducible apply State.sparesAtMk_keeps
    | with_reducible apply State.mkDone_keeps
    | with_reducible apply State.Keeps.foldl

theorem execMkReductionReceived_keeps : ∀ a0 a1 a2 a3 a4 a5 a6 a7 (a8 : State), z.Keeps a8 → OutKeeps z (execMkReductionReceived a0 a1 a2 a3 a4 a5 a6 a7 a8) := by
  intro a0 a1 a2 a3 a4 a5 a6 a7 a8 h
  unfold execMkReductionReceived
  repeat' first
    | with_reducible assumption
    | intro y
    | (extract_lets +onlyGivenNames x
       first
       | (first | refine State.Keeps.letH (z := z) (x := x) ?_ ?_ | refine State.Keeps.letF (z := z) (x := x) ?_ ?_
          unfold x; clear x; rotate_left; clear_value x; intro; rotate_right)
       | clear_value x
       | skip)
    | with_reducible apply OutKeeps.next
    | with_reducible apply State.countFault_keeps
    | with_reducible apply State.writeStepRecord_keeps
    | with_reducible apply State.recordFault_keeps
    | with_reducible apply State.fallbackAtMk_keeps
    | with_reducible apply State.endStep_keeps
    | with_reducible apply State.takeGeneration_keeps
    | with_reducible apply State.updCtx_keeps
    | with_reducible apply State.compareRetry_keeps
    | with_reducible apply State.stopStreams_keeps
    | with_reducible apply State.computeFault_keeps
    | with_reducible apply State.Keeps.foldl
    | with_reducible apply State.Keeps.foldlProd
    | with_reducible apply State.Keeps.foldlSnd
    | simp -zeta -zetaDelta only [State.Keeps.mk_iff, State.Keeps.mk_flash]
    | split
    | with_reducible apply_assumption

end Sys2Proof.Machine
end

