-- ==== Sys2Proof/Laws/KeepsMove.lean ====
section
/-! SUPPORT. What Machine/Move.lean keeps: one lemma an operation. -/
namespace Sys2Proof.Machine
set_option linter.all false

variable {z : State}

theorem mvRead_keeps : ∀ a0 a1, ExecKeeps (mvRead a0 a1) := by
  intro a0 a1
  unfold mvRead
  repeat' first
    | with_reducible apply resolve_keeps

theorem mvWrite_keeps : ∀ a0 a1, ExecKeeps (mvWrite a0 a1) := by
  intro a0 a1
  unfold mvWrite
  repeat' first
    | with_reducible apply resolve_keeps

theorem mvCount_keeps : ∀ a0 a1, ExecKeeps (mvCount a0 a1) := by
  intro a0 a1
  unfold mvCount
  repeat' first
    | with_reducible apply countE_keeps

theorem writeRow_keeps : ∀ a0 a1 a2, ExecKeeps (writeRow a0 a1 a2) := by
  intro a0 a1 a2
  unfold writeRow
  repeat' first
    | intro y
    | (extract_lets +onlyGivenNames x
       first
       | (first | refine ExecKeeps.letJ (x := x) ?_ ?_ | refine ExecKeeps.letM (x := x) ?_ ?_
          unfold x; clear x; rotate_left; clear_value x; intro; rotate_right)
       | clear_value x
       | skip)
    | with_reducible apply writeSpan_keeps
    | with_reducible exact ExecKeeps.get
    | with_reducible apply ExecKeeps.bind

theorem copyBody_keeps : ∀ a0, ExecKeeps (copyBody a0) := by
  intro a0
  unfold copyBody
  repeat' first
    | with_reducible assumption
    | intro y
    | (extract_lets +onlyGivenNames x
       first
       | (first | refine ExecKeeps.letJ (x := x) ?_ ?_ | refine ExecKeeps.letM (x := x) ?_ ?_
          unfold x; clear x; rotate_left; clear_value x; intro; rotate_right)
       | clear_value x
       | skip)
    | with_reducible apply mvRead_keeps
    | with_reducible apply mvWrite_keeps
    | with_reducible apply shapeIf_keeps
    | with_reducible apply readElems_keeps
    | with_reducible apply setNonfinite_keeps
    | with_reducible apply mvCount_keeps
    | with_reducible apply writeElems_keeps
    | with_reducible apply ExecKeeps.bind
    | split

theorem fillBody_keeps : ∀ a0, ExecKeeps (fillBody a0) := by
  intro a0
  unfold fillBody
  repeat' first
    | intro y
    | (extract_lets +onlyGivenNames x
       first
       | (first | refine ExecKeeps.letJ (x := x) ?_ ?_ | refine ExecKeeps.letM (x := x) ?_ ?_
          unfold x; clear x; rotate_left; clear_value x; intro; rotate_right)
       | clear_value x
       | skip)
    | with_reducible apply mvWrite_keeps
    | with_reducible apply writeElems_keeps
    | with_reducible apply mvCount_keeps
    | with_reducible apply ExecKeeps.bind

theorem sealBody_keeps : ∀ a0, ExecKeeps (sealBody a0) := by
  intro a0
  unfold sealBody
  repeat' first
    | intro y
    | (extract_lets +onlyGivenNames x
       first
       | (first | refine ExecKeeps.letJ (x := x) ?_ ?_ | refine ExecKeeps.letM (x := x) ?_ ?_
          unfold x; clear x; rotate_left; clear_value x; intro; rotate_right)
       | clear_value x
       | skip)
    | with_reducible apply mvWrite_keeps
    | with_reducible apply shapeIf_keeps
    | with_reducible apply countStackReads_keeps
    | with_reducible apply metPoison_keeps
    | with_reducible apply storeRun_keeps
    | with_reducible apply storeSeal_keeps
    | with_reducible apply mvCount_keeps
    | with_reducible apply ExecKeeps.bind
    | with_reducible apply_assumption
    | with_reducible exact ExecKeeps.getS
    | with_reducible apply ExecKeeps.forM
    | split

theorem poisonPlanes_keeps : ∀ a0 a1 a2 a3, ExecKeeps (poisonPlanes a0 a1 a2 a3) := by
  intro a0 a1 a2 a3
  unfold poisonPlanes
  repeat' first
    | with_reducible assumption
    | intro y
    | (extract_lets +onlyGivenNames x
       first
       | (first | refine State.Keeps.letH (z := z) (x := x) ?_ ?_ | refine State.Keeps.letF (z := z) (x := x) ?_ ?_ | refine State.Keeps.letR (z := z) (x := x) ?_ ?_ | refine ExecKeeps.letJ (x := x) ?_ ?_ | refine ExecKeeps.letM (x := x) ?_ ?_
          unfold x; clear x; rotate_left; clear_value x; intro; rotate_right)
       | clear_value x
       | skip)
    | with_reducible apply writePlane_keeps
    | with_reducible exact ExecKeeps.pure _
    | with_reducible exact ExecKeeps.trap _
    | with_reducible exact ExecKeeps.get
    | with_reducible exact ExecKeeps.getS
    | with_reducible apply ExecKeeps.bind
    | with_reducible apply ExecKeeps.modS
    | with_reducible apply ExecKeeps.modify
    | with_reducible apply ExecKeeps.forM
    | with_reducible apply ExecKeeps.mapM
    | with_reducible apply ExecKeeps.foldlM
    | with_reducible apply ExecKeeps.when
    | with_reducible apply State.Keeps.foldl
    | with_reducible apply State.Keeps.foldlProd
    | with_reducible apply State.Keeps.foldlSnd
    | simp -zeta -zetaDelta only [State.Keeps.mk_iff, State.Keeps.mk_flash]
    | split

theorem poisonSet_keeps : ∀ a0, ExecKeeps (poisonSet a0) := by
  intro a0
  unfold poisonSet
  repeat' first
    | with_reducible assumption
    | intro y
    | (extract_lets +onlyGivenNames x
       first
       | (first | refine State.Keeps.letH (z := z) (x := x) ?_ ?_ | refine State.Keeps.letF (z := z) (x := x) ?_ ?_ | refine State.Keeps.letR (z := z) (x := x) ?_ ?_ | refine ExecKeeps.letJ (x := x) ?_ ?_ | refine ExecKeeps.letM (x := x) ?_ ?_
          unfold x; clear x; rotate_left; clear_value x; intro; rotate_right)
       | clear_value x
       | skip)
    | with_reducible apply writeFlat_keeps
    | with_reducible apply resolve_keeps
    | with_reducible exact ExecKeeps.pure _
    | with_reducible exact ExecKeeps.trap _
    | with_reducible exact ExecKeeps.get
    | with_reducible exact ExecKeeps.getS
    | with_reducible apply ExecKeeps.bind
    | with_reducible apply ExecKeeps.modS
    | with_reducible apply ExecKeeps.modify
    | with_reducible apply ExecKeeps.forM
    | with_reducible apply ExecKeeps.mapM
    | with_reducible apply ExecKeeps.foldlM
    | with_reducible apply ExecKeeps.when
    | with_reducible apply State.Keeps.foldl
    | with_reducible apply State.Keeps.foldlProd
    | with_reducible apply State.Keeps.foldlSnd
    | simp -zeta -zetaDelta only [State.Keeps.mk_iff, State.Keeps.mk_flash]
    | split

theorem setcopyBody_keeps : ∀ a0, ExecKeeps (setcopyBody a0) := by
  intro a0
  unfold setcopyBody
  repeat' first
    | with_reducible assumption
    | intro y
    | (extract_lets +onlyGivenNames x
       first
       | (first | refine State.Keeps.letH (z := z) (x := x) ?_ ?_ | refine State.Keeps.letF (z := z) (x := x) ?_ ?_ | refine State.Keeps.letR (z := z) (x := x) ?_ ?_ | refine ExecKeeps.letJ (x := x) ?_ ?_ | refine ExecKeeps.letM (x := x) ?_ ?_
          unfold x; clear x; rotate_left; clear_value x; intro; rotate_right)
       | clear_value x
       | skip)
    | with_reducible apply mvCount_keeps
    | with_reducible apply readUnits_keeps
    | with_reducible apply writeFlat_keeps
    | with_reducible apply openDest_keeps
    | with_reducible apply storeRun_keeps
    | with_reducible apply writeFlatOut_keeps
    | with_reducible apply poisonSet_keeps
    | with_reducible apply raisePairing_keeps
    | with_reducible apply onOutput_keeps
    | with_reducible apply setTainted_keeps
    | with_reducible apply poisonPlanes_keeps
    | with_reducible apply writePlane_keeps
    | with_reducible apply sealUnits_keeps
    | with_reducible apply openSet_keeps
    | with_reducible exact ExecKeeps.pure _
    | with_reducible exact ExecKeeps.trap _
    | with_reducible exact ExecKeeps.get
    | with_reducible exact ExecKeeps.getS
    | with_reducible apply ExecKeeps.bind
    | with_reducible apply ExecKeeps.peek
    | with_reducible apply ExecKeeps.modS
    | with_reducible apply ExecKeeps.modify
    | with_reducible apply ExecKeeps.forM
    | with_reducible apply ExecKeeps.mapM
    | with_reducible apply ExecKeeps.foldlM
    | with_reducible apply ExecKeeps.when
    | with_reducible apply State.Keeps.foldl
    | with_reducible apply State.Keeps.foldlProd
    | with_reducible apply State.Keeps.foldlSnd
    | simp -zeta -zetaDelta only [State.Keeps.mk_iff, State.Keeps.mk_flash]
    | split
    | with_reducible apply_assumption

theorem readIndex_keeps : ∀ a0 a1, ExecKeeps (readIndex a0 a1) := by
  intro a0 a1
  unfold readIndex
  repeat' first
    | intro y
    | (extract_lets +onlyGivenNames x
       first
       | (first | refine ExecKeeps.letJ (x := x) ?_ ?_ | refine ExecKeeps.letM (x := x) ?_ ?_
          unfold x; clear x; rotate_left; clear_value x; intro; rotate_right)
       | clear_value x
       | skip)
    | with_reducible apply mvRead_keeps
    | with_reducible apply shapeIf_keeps
    | with_reducible apply readElems_keeps
    | with_reducible exact ExecKeeps.pure _
    | with_reducible apply ExecKeeps.bind

theorem raiseIndex_keeps : ∀ a0 a1, ExecKeeps (raiseIndex a0 a1) := by
  intro a0 a1
  unfold raiseIndex
  repeat' first
    | with_reducible apply raiseCompute_keeps

theorem gatherBody_keeps : ∀ a0, ExecKeeps (gatherBody a0) := by
  intro a0
  unfold gatherBody
  repeat' first
    | intro y
    | (extract_lets +onlyGivenNames x
       first
       | (first | refine ExecKeeps.letJ (x := x) ?_ ?_ | refine ExecKeeps.letM (x := x) ?_ ?_
          unfold x; clear x; rotate_left; clear_value x; intro; rotate_right)
       | clear_value x
       | skip)
    | with_reducible apply mvRead_keeps
    | with_reducible apply mvWrite_keeps
    | with_reducible apply shapeIf_keeps
    | with_reducible apply readIndex_keeps
    | with_reducible apply readRow_keeps
    | with_reducible apply setNonfinite_keeps
    | with_reducible apply writeRow_keeps
    | with_reducible apply raiseIndex_keeps
    | with_reducible apply countE_keeps
    | with_reducible apply mvCount_keeps
    | with_reducible apply ExecKeeps.bind
    | with_reducible apply ExecKeeps.forM
    | with_reducible apply ExecKeeps.mapM
    | simp -zeta -zetaDelta only [State.Keeps.mk_iff, State.Keeps.mk_flash]
    | split

theorem scatterBody_keeps : ∀ a0, ExecKeeps (scatterBody a0) := by
  intro a0
  unfold scatterBody
  repeat' first
    | intro y
    | (extract_lets +onlyGivenNames x
       first
       | (first | refine ExecKeeps.letJ (x := x) ?_ ?_ | refine ExecKeeps.letM (x := x) ?_ ?_
          unfold x; clear x; rotate_left; clear_value x; intro; rotate_right)
       | clear_value x
       | skip)
    | with_reducible apply mvRead_keeps
    | with_reducible apply mvWrite_keeps
    | with_reducible apply shapeIf_keeps
    | with_reducible apply readIndex_keeps
    | with_reducible apply readRow_keeps
    | with_reducible apply setNonfinite_keeps
    | with_reducible apply writeRow_keeps
    | with_reducible apply mvCount_keeps
    | with_reducible apply raiseIndex_keeps
    | with_reducible apply setTainted_keeps
    | with_reducible exact ExecKeeps.pure _
    | with_reducible apply ExecKeeps.bind
    | with_reducible apply ExecKeeps.forM
    | simp -zeta -zetaDelta only [State.Keeps.mk_iff, State.Keeps.mk_flash]
    | split

theorem scatterAddBody_keeps : ∀ a0, ExecKeeps (scatterAddBody a0) := by
  intro a0
  unfold scatterAddBody
  repeat' first
    | intro y
    | (extract_lets +onlyGivenNames x
       first
       | (first | refine ExecKeeps.letJ (x := x) ?_ ?_ | refine ExecKeeps.letM (x := x) ?_ ?_
          unfold x; clear x; rotate_left; clear_value x; intro; rotate_right)
       | clear_value x
       | skip)
    | with_reducible apply mvRead_keeps
    | with_reducible apply mvWrite_keeps
    | with_reducible apply shapeIf_keeps
    | with_reducible apply readIndex_keeps
    | with_reducible apply raiseIndex_keeps
    | with_reducible apply setTainted_keeps
    | with_reducible apply readRow_keeps
    | with_reducible apply setNonfinite_keeps
    | with_reducible apply writeRow_keeps
    | with_reducible apply mvCount_keeps
    | with_reducible exact ExecKeeps.pure _
    | with_reducible apply ExecKeeps.bind
    | with_reducible apply ExecKeeps.forM
    | with_reducible apply ExecKeeps.mapM
    | simp -zeta -zetaDelta only [State.Keeps.mk_iff, State.Keeps.mk_flash]
    | split

theorem windowBody_keeps : ∀ a0, ExecKeeps (windowBody a0) := by
  intro a0
  unfold windowBody
  repeat' first
    | intro y
    | (extract_lets +onlyGivenNames x
       first
       | (first | refine ExecKeeps.letJ (x := x) ?_ ?_ | refine ExecKeeps.letM (x := x) ?_ ?_
          unfold x; clear x; rotate_left; clear_value x; intro; rotate_right)
       | clear_value x
       | skip)
    | with_reducible apply mvRead_keeps
    | with_reducible apply mvWrite_keeps
    | with_reducible apply shapeIf_keeps
    | with_reducible apply readElems_keeps
    | with_reducible apply setNonfinite_keeps
    | with_reducible apply writeElems_keeps
    | with_reducible apply mvCount_keeps
    | with_reducible apply shapeFault_keeps
    | with_reducible apply ExecKeeps.bind
    | split

theorem mvBody_keeps : ∀ a0, ExecKeeps (mvBody a0) := by
  intro a0
  unfold mvBody
  repeat' first
    | with_reducible apply copyBody_keeps
    | with_reducible apply setcopyBody_keeps
    | with_reducible apply gatherBody_keeps
    | with_reducible apply scatterBody_keeps
    | with_reducible apply scatterAddBody_keeps
    | with_reducible apply windowBody_keeps
    | with_reducible apply fillBody_keeps
    | with_reducible apply sealBody_keeps
    | split

theorem setPositions_keeps : ∀ a0, ExecKeeps (setPositions a0) := by
  intro a0
  unfold setPositions
  repeat' first
    | with_reducible assumption
    | intro y
    | (extract_lets +onlyGivenNames x
       first
       | (first | refine State.Keeps.letH (z := z) (x := x) ?_ ?_ | refine State.Keeps.letF (z := z) (x := x) ?_ ?_ | refine State.Keeps.letR (z := z) (x := x) ?_ ?_ | refine ExecKeeps.letJ (x := x) ?_ ?_ | refine ExecKeeps.letM (x := x) ?_ ?_
          unfold x; clear x; rotate_left; clear_value x; intro; rotate_right)
       | clear_value x
       | skip)
    | with_reducible apply resolve_keeps
    | with_reducible exact ExecKeeps.pure _
    | with_reducible exact ExecKeeps.trap _
    | with_reducible exact ExecKeeps.get
    | with_reducible exact ExecKeeps.getS
    | with_reducible apply ExecKeeps.bind
    | with_reducible apply ExecKeeps.modS
    | with_reducible apply ExecKeeps.modify
    | with_reducible apply ExecKeeps.forM
    | with_reducible apply ExecKeeps.mapM
    | with_reducible apply ExecKeeps.foldlM
    | with_reducible apply ExecKeeps.when
    | with_reducible apply State.Keeps.foldl
    | with_reducible apply State.Keeps.foldlProd
    | with_reducible apply State.Keeps.foldlSnd
    | simp -zeta -zetaDelta only [State.Keeps.mk_iff, State.Keeps.mk_flash]
    | split

theorem mvIndices_keeps : ∀ a0, ExecKeeps (mvIndices a0) := by
  intro a0
  unfold mvIndices
  repeat' first
    | with_reducible assumption
    | intro y
    | (extract_lets +onlyGivenNames x
       first
       | (first | refine State.Keeps.letH (z := z) (x := x) ?_ ?_ | refine State.Keeps.letF (z := z) (x := x) ?_ ?_ | refine State.Keeps.letR (z := z) (x := x) ?_ ?_ | refine ExecKeeps.letJ (x := x) ?_ ?_ | refine ExecKeeps.letM (x := x) ?_ ?_
          unfold x; clear x; rotate_left; clear_value x; intro; rotate_right)
       | clear_value x
       | skip)
    | with_reducible apply setPositions_keeps
    | with_reducible exact ExecKeeps.pure _
    | with_reducible exact ExecKeeps.trap _
    | with_reducible exact ExecKeeps.get
    | with_reducible exact ExecKeeps.getS
    | with_reducible apply ExecKeeps.bind
    | with_reducible apply ExecKeeps.modS
    | with_reducible apply ExecKeeps.modify
    | with_reducible apply ExecKeeps.forM
    | with_reducible apply ExecKeeps.mapM
    | with_reducible apply ExecKeeps.foldlM
    | with_reducible apply ExecKeeps.when
    | with_reducible apply State.Keeps.foldl
    | with_reducible apply State.Keeps.foldlProd
    | with_reducible apply State.Keeps.foldlSnd
    | simp -zeta -zetaDelta only [State.Keeps.mk_iff, State.Keeps.mk_flash]
    | split

theorem mvWait_keeps : ∀ a0 a1, ExecKeeps (mvWait a0 a1) := by
  intro a0 a1
  unfold mvWait
  repeat' first
    | with_reducible assumption
    | intro y
    | (extract_lets +onlyGivenNames x
       first
       | (first | refine State.Keeps.letH (z := z) (x := x) ?_ ?_ | refine State.Keeps.letF (z := z) (x := x) ?_ ?_ | refine State.Keeps.letR (z := z) (x := x) ?_ ?_ | refine ExecKeeps.letJ (x := x) ?_ ?_ | refine ExecKeeps.letM (x := x) ?_ ?_
          unfold x; clear x; rotate_left; clear_value x; intro; rotate_right)
       | clear_value x
       | skip)
    | with_reducible apply mvIndices_keeps
    | with_reducible apply mvWrite_keeps
    | with_reducible apply State.updDie_keeps
    | with_reducible apply mvRead_keeps
    | with_reducible apply getCtx_keeps
    | with_reducible exact ExecKeeps.pure _
    | with_reducible exact ExecKeeps.trap _
    | with_reducible exact ExecKeeps.get
    | with_reducible exact ExecKeeps.getS
    | with_reducible apply ExecKeeps.bind
    | with_reducible apply ExecKeeps.peek
    | with_reducible apply ExecKeeps.modS
    | with_reducible apply ExecKeeps.modify
    | with_reducible apply ExecKeeps.forM
    | with_reducible apply ExecKeeps.mapM
    | with_reducible apply ExecKeeps.foldlM
    | with_reducible apply ExecKeeps.when
    | with_reducible apply State.Keeps.foldl
    | with_reducible apply State.Keeps.foldlProd
    | with_reducible apply State.Keeps.foldlSnd
    | simp -zeta -zetaDelta only [State.Keeps.mk_iff, State.Keeps.mk_flash]
    | split
    | with_reducible apply_assumption

theorem hostRefused_keeps : ∀ a0, ExecKeeps (hostRefused a0) := by
  intro a0
  unfold hostRefused
  repeat' first
    | with_reducible assumption
    | intro y
    | (extract_lets +onlyGivenNames x
       first
       | (first | refine State.Keeps.letH (z := z) (x := x) ?_ ?_ | refine State.Keeps.letF (z := z) (x := x) ?_ ?_ | refine State.Keeps.letR (z := z) (x := x) ?_ ?_ | refine ExecKeeps.letJ (x := x) ?_ ?_ | refine ExecKeeps.letM (x := x) ?_ ?_
          unfold x; clear x; rotate_left; clear_value x; intro; rotate_right)
       | clear_value x
       | skip)
    | with_reducible apply mvBody_keeps
    | with_reducible apply raiseMemory_keeps
    | with_reducible apply setTainted_keeps
    | with_reducible apply getCtx_keeps
    | with_reducible exact ExecKeeps.pure _
    | with_reducible exact ExecKeeps.trap _
    | with_reducible exact ExecKeeps.get
    | with_reducible exact ExecKeeps.getS
    | with_reducible apply ExecKeeps.bind
    | with_reducible apply ExecKeeps.modS
    | with_reducible apply ExecKeeps.modify
    | with_reducible apply ExecKeeps.forM
    | with_reducible apply ExecKeeps.mapM
    | with_reducible apply ExecKeeps.foldlM
    | with_reducible apply ExecKeeps.when
    | with_reducible apply State.Keeps.foldl
    | with_reducible apply State.Keeps.foldlProd
    | with_reducible apply State.Keeps.foldlSnd
    | simp -zeta -zetaDelta only [State.Keeps.mk_iff, State.Keeps.mk_flash]
    | split

theorem State.hostPoisonRuns_keeps : ∀ (a0 : State) a1, z.Keeps a0 → z.Keeps (State.hostPoisonRuns a0 a1) := by
  intro a0 a1 h
  unfold State.hostPoisonRuns
  repeat' first
    | with_reducible assumption
    | intro y
    | (extract_lets +onlyGivenNames x
       first
       | (first | refine State.Keeps.letH (z := z) (x := x) ?_ ?_ | refine State.Keeps.letF (z := z) (x := x) ?_ ?_
          unfold x; clear x; rotate_left; clear_value x; intro; rotate_right)
       | clear_value x
       | skip)
    | with_reducible apply State.mark_keeps
    | with_reducible apply State.Keeps.foldl

theorem State.hostStore_keeps : ∀ (a0 : State) a1 a2, z.Keeps a0 → z.Keeps (State.hostStore a0 a1 a2).1 := by
  intro a0 a1 a2 h
  unfold State.hostStore
  repeat' first
    | with_reducible assumption
    | intro y
    | (extract_lets +onlyGivenNames x
       first
       | (first | refine State.Keeps.letH (z := z) (x := x) ?_ ?_ | refine State.Keeps.letF (z := z) (x := x) ?_ ?_
          unfold x; clear x; rotate_left; clear_value x; intro; rotate_right)
       | clear_value x
       | skip)
    | with_reducible apply State.unmark_keeps
    | with_reducible apply State.putBytes_keeps
    | with_reducible apply State.Keeps.foldl
    | with_reducible apply State.Keeps.foldlProd
    | with_reducible apply State.Keeps.foldlSnd
    | simp -zeta -zetaDelta only [State.Keeps.mk_iff, State.Keeps.mk_flash]
    | split

theorem mvNow_keeps : ∀ a0, ExecKeeps (mvNow a0) := by
  intro a0
  unfold mvNow
  repeat' first
    | with_reducible assumption
    | intro y
    | (extract_lets +onlyGivenNames x
       first
       | (first | refine State.Keeps.letH (z := z) (x := x) ?_ ?_ | refine State.Keeps.letF (z := z) (x := x) ?_ ?_ | refine State.Keeps.letR (z := z) (x := x) ?_ ?_ | refine ExecKeeps.letJ (x := x) ?_ ?_ | refine ExecKeeps.letM (x := x) ?_ ?_
          unfold x; clear x; rotate_left; clear_value x; intro; rotate_right)
       | clear_value x
       | skip)
    | with_reducible apply State.hostPoisonRuns_keeps
    | with_reducible apply mvBody_keeps
    | with_reducible apply hostRefused_keeps
    | with_reducible apply getCtx_keeps
    | with_reducible exact ExecKeeps.pure _
    | with_reducible exact ExecKeeps.trap _
    | with_reducible exact ExecKeeps.get
    | with_reducible exact ExecKeeps.getS
    | with_reducible apply ExecKeeps.bind
    | with_reducible apply ExecKeeps.modS
    | with_reducible apply ExecKeeps.modify
    | with_reducible apply ExecKeeps.forM
    | with_reducible apply ExecKeeps.mapM
    | with_reducible apply ExecKeeps.foldlM
    | with_reducible apply ExecKeeps.when
    | with_reducible apply State.Keeps.foldl
    | with_reducible apply State.Keeps.foldlProd
    | with_reducible apply State.Keeps.foldlSnd
    | simp -zeta -zetaDelta only [State.Keeps.mk_iff, State.Keeps.mk_flash]
    | split

theorem mvEngine_keeps : ∀ a0 a1 a2 a3 a4 a5 (a6 : State), z.Keeps a6 → OutKeeps z (mvEngine a0 a1 a2 a3 a4 a5 a6) := by
  intro a0 a1 a2 a3 a4 a5 a6 h
  unfold mvEngine
  repeat' first
    | with_reducible assumption
    | intro y
    | (extract_lets +onlyGivenNames x
       first
       | (first | refine State.Keeps.letH (z := z) (x := x) ?_ ?_ | refine State.Keeps.letF (z := z) (x := x) ?_ ?_ | refine State.Keeps.letR (z := z) (x := x) ?_ ?_ | refine ExecKeeps.letJ (x := x) ?_ ?_ | refine ExecKeeps.letM (x := x) ?_ ?_
          unfold x; clear x; rotate_left; clear_value x; intro; rotate_right)
       | clear_value x
       | skip)
    | with_reducible apply OutKeeps.next
    | with_reducible apply mvNow_keeps
    | with_reducible apply State.runEngine_keeps
    | with_reducible refine State.tryIssue_stays ?_ (by with_reducible assumption)
    | with_reducible refine State.tryIssue_go_keeps ?_ (by with_reducible assumption)
    | with_reducible apply mvWait_keeps
    | with_reducible exact ExecKeeps.pure _
    | with_reducible exact ExecKeeps.trap _
    | with_reducible exact ExecKeeps.get
    | with_reducible exact ExecKeeps.getS
    | with_reducible apply ExecKeeps.bind
    | with_reducible apply ExecKeeps.modS
    | with_reducible apply ExecKeeps.modify
    | with_reducible apply ExecKeeps.forM
    | with_reducible apply ExecKeeps.mapM
    | with_reducible apply ExecKeeps.foldlM
    | with_reducible apply ExecKeeps.when
    | with_reducible refine ExecKeeps.run ?_ ?_ (by with_reducible assumption)
    | with_reducible apply State.Keeps.foldl
    | with_reducible apply State.Keeps.foldlProd
    | with_reducible apply State.Keeps.foldlSnd
    | simp -zeta -zetaDelta only [State.Keeps.mk_iff, State.Keeps.mk_flash]
    | split

theorem execMvCopy_keeps : ∀ a0 a1 a2 a3 (a4 : State), z.Keeps a4 → OutKeeps z (execMvCopy a0 a1 a2 a3 a4) := by
  intro a0 a1 a2 a3 a4 h
  unfold execMvCopy
  repeat' first
    | with_reducible assumption
    | with_reducible apply mvEngine_keeps

theorem execMvSetcopy_keeps : ∀ a0 a1 a2 a3 (a4 : State), z.Keeps a4 → OutKeeps z (execMvSetcopy a0 a1 a2 a3 a4) := by
  intro a0 a1 a2 a3 a4 h
  unfold execMvSetcopy
  repeat' first
    | with_reducible assumption
    | with_reducible apply mvEngine_keeps

theorem execMvGather_keeps : ∀ a0 a1 a2 a3 (a4 : State), z.Keeps a4 → OutKeeps z (execMvGather a0 a1 a2 a3 a4) := by
  intro a0 a1 a2 a3 a4 h
  unfold execMvGather
  repeat' first
    | with_reducible assumption
    | with_reducible apply mvEngine_keeps

theorem execMvScatter_keeps : ∀ a0 a1 a2 a3 (a4 : State), z.Keeps a4 → OutKeeps z (execMvScatter a0 a1 a2 a3 a4) := by
  intro a0 a1 a2 a3 a4 h
  unfold execMvScatter
  repeat' first
    | with_reducible assumption
    | with_reducible apply mvEngine_keeps

theorem execMvScatterAdd_keeps : ∀ a0 a1 a2 a3 (a4 : State), z.Keeps a4 → OutKeeps z (execMvScatterAdd a0 a1 a2 a3 a4) := by
  intro a0 a1 a2 a3 a4 h
  unfold execMvScatterAdd
  repeat' first
    | with_reducible assumption
    | with_reducible apply mvEngine_keeps

theorem execMvWindow_keeps : ∀ a0 a1 a2 a3 (a4 : State), z.Keeps a4 → OutKeeps z (execMvWindow a0 a1 a2 a3 a4) := by
  intro a0 a1 a2 a3 a4 h
  unfold execMvWindow
  repeat' first
    | with_reducible assumption
    | with_reducible apply mvEngine_keeps

theorem execMvFill_keeps : ∀ a0 a1 a2 a3 (a4 : State), z.Keeps a4 → OutKeeps z (execMvFill a0 a1 a2 a3 a4) := by
  intro a0 a1 a2 a3 a4 h
  unfold execMvFill
  repeat' first
    | with_reducible assumption
    | with_reducible apply mvEngine_keeps

theorem execMvSeal_keeps : ∀ a0 a1 a2 a3 (a4 : State), z.Keeps a4 → OutKeeps z (execMvSeal a0 a1 a2 a3 a4) := by
  intro a0 a1 a2 a3 a4 h
  unfold execMvSeal
  repeat' first
    | with_reducible assumption
    | with_reducible apply mvEngine_keeps

theorem State.runMove_keeps : ∀ (a0 : State) a1 a2 a3, z.Keeps a0 → ExecKeeps a3 → z.Keeps (State.runMove a0 a1 a2 a3) := by
  intro a0 a1 a2 a3 h ha3
  unfold State.runMove
  repeat' first
    | with_reducible assumption
    | intro y
    | (extract_lets +onlyGivenNames x
       first
       | (first | refine State.Keeps.letH (z := z) (x := x) ?_ ?_ | refine State.Keeps.letF (z := z) (x := x) ?_ ?_ | refine State.Keeps.letR (z := z) (x := x) ?_ ?_ | refine ExecKeeps.letJ (x := x) ?_ ?_ | refine ExecKeeps.letM (x := x) ?_ ?_
          unfold x; clear x; rotate_left; clear_value x; intro; rotate_right)
       | clear_value x
       | skip)
    | with_reducible apply ha3
    | with_reducible apply State.updDie_keeps
    | with_reducible apply withDescs_keeps
    | with_reducible apply State.stopFault_keeps
    | with_reducible apply State.updStream_keeps
    | with_reducible apply Run.close_keeps
    | with_reducible exact ExecKeeps.pure _
    | with_reducible exact ExecKeeps.trap _
    | with_reducible exact ExecKeeps.get
    | with_reducible exact ExecKeeps.getS
    | with_reducible apply ExecKeeps.bind
    | with_reducible apply ExecKeeps.peek
    | with_reducible apply ExecKeeps.modS
    | with_reducible apply ExecKeeps.modify
    | with_reducible apply ExecKeeps.forM
    | with_reducible apply ExecKeeps.mapM
    | with_reducible apply ExecKeeps.foldlM
    | with_reducible apply ExecKeeps.when
    | with_reducible refine ExecKeeps.run ?_ ?_ (by with_reducible assumption)
    | with_reducible apply State.Keeps.foldl
    | with_reducible apply State.Keeps.foldlProd
    | with_reducible apply State.Keeps.foldlSnd
    | simp -zeta -zetaDelta only [State.Keeps.mk_iff, State.Keeps.mk_flash]
    | split
    | with_reducible apply_assumption

theorem State.asIssued_keeps : ∀ (a0 : State) a1, z.Keeps a0 → z.Keeps (State.asIssued a0 a1) := by
  intro a0 a1 h
  unfold State.asIssued
  repeat' first
    | with_reducible assumption
    | intro y
    | (extract_lets +onlyGivenNames x
       first
       | (first | refine State.Keeps.letH (z := z) (x := x) ?_ ?_ | refine State.Keeps.letF (z := z) (x := x) ?_ ?_
          unfold x; clear x; rotate_left; clear_value x; intro; rotate_right)
       | clear_value x
       | skip)
    | with_reducible apply State.updCtx_keeps
    | with_reducible apply State.Keeps.foldl
    | with_reducible apply State.Keeps.foldlProd
    | with_reducible apply State.Keeps.foldlSnd
    | simp -zeta -zetaDelta only [State.Keeps.mk_iff, State.Keeps.mk_flash]
    | split

theorem State.advanceQueue_keeps : ∀ a0 a1 (n : Nat) (a3 : State), z.Keeps a3 → z.Keeps (State.advanceQueue a0 a1 n a3) := by
  intro a0 a1 n
  induction n with
  | zero => exact fun _ h => h
  | succ n ih =>
    intro a3 h
    rw [State.advanceQueue]
    split
    · exact h
    · split
      · exact h
      · split
        · exact State.updDie_keeps _ _ _ h
        · exact ih _ (State.runMove_keeps _ _ _ _ h (mvNow_keeps _))

theorem State.dropMoves_keeps : ∀ (a0 : State) a1 a2, z.Keeps a0 → z.Keeps (State.dropMoves a0 a1 a2) := by
  intro a0 a1 a2 h
  unfold State.dropMoves
  repeat' first
    | with_reducible assumption
    | intro y
    | (extract_lets +onlyGivenNames x
       first
       | (first | refine State.Keeps.letH (z := z) (x := x) ?_ ?_ | refine State.Keeps.letF (z := z) (x := x) ?_ ?_
          unfold x; clear x; rotate_left; clear_value x; intro; rotate_right)
       | clear_value x
       | skip)
    | with_reducible apply State.updDie_keeps
    | with_reducible apply State.advanceQueue_keeps
    | with_reducible apply State.Keeps.foldl
    | with_reducible apply State.Keeps.foldlProd
    | with_reducible apply State.Keeps.foldlSnd
    | simp -zeta -zetaDelta only [State.Keeps.mk_iff, State.Keeps.mk_flash]
    | split

theorem State.takeReply_keeps : ∀ (a0 : State) a1 a2 a3, z.Keeps a0 → z.Keeps (State.takeReply a0 a1 a2 a3).1 := by
  intro a0 a1 a2 a3 h
  unfold State.takeReply
  cases a3 with
  | completed data => exact State.hostStore_keeps _ _ _ (State.hostStore_keeps _ _ _ h)
  | refused => exact State.hostPoisonRuns_keeps _ _ h
  | poisoned _ => exact State.hostPoisonRuns_keeps _ _ h

/-- So does what the move then does. -/
theorem State.takeReply_body (a0 : State) (a1 : Die) (a2 : MoveWait) (a3 : HostReply) : ExecKeeps (State.takeReply a0 a1 a2 a3).2 := by
  unfold State.takeReply
  cases a3 with
  | completed data => exact mvBody_keeps _
  | refused => exact hostRefused_keeps _
  | poisoned _ =>
    change ExecKeeps (if _ then _ else _)
    split
    · exact mvBody_keeps _
    · exact hostRefused_keeps _

theorem State.hostAnswer_keeps : ∀ (a0 : State) a1 a2 a3 a4, z.Keeps a0 → z.Keeps (State.hostAnswer a0 a1 a2 a3 a4) := by
  intro a0 a1 a2 a3 a4 h
  unfold State.hostAnswer
  split
  · exact h
  · split
    · exact h
    · exact State.advanceQueue_keeps _ _ _ _ (State.runMove_keeps _ _ _ _ (State.takeReply_keeps _ _ _ _ h) (State.takeReply_body _ _ _ _))

theorem execHostWindowCompletion_keeps : ∀ a0 a1 a2 a3 (a4 : State), z.Keeps a4 → OutKeeps z (execHostWindowCompletion a0 a1 a2 a3 a4) := by
  intro a0 a1 a2 a3 a4 h
  unfold execHostWindowCompletion
  repeat' first
    | with_reducible assumption
    | (extract_lets +onlyGivenNames x
       first
       | (first | refine State.Keeps.letH (z := z) (x := x) ?_ ?_ | refine State.Keeps.letF (z := z) (x := x) ?_ ?_
          unfold x; clear x; rotate_left; clear_value x; intro; rotate_right)
       | clear_value x
       | skip)
    | with_reducible apply OutKeeps.next
    | with_reducible apply State.hostAnswer_keeps
    | split

end Sys2Proof.Machine
end

