-- ==== Sys2Proof/Laws/KeepsLongRuns.lean ====
section
/-! SUPPORT. What Machine/LongRuns.lean keeps: one lemma an operation. -/
namespace Sys2Proof.Machine
set_option linter.all false

variable {z : State}

theorem State.firstGap_keeps : ∀ (a0 : State) a1 a2, z.Keeps a0 → z.Keeps (State.firstGap a0 a1 a2) := by
  intro a0 a1 a2 h
  unfold State.firstGap
  repeat' first
    | with_reducible assumption
    | (extract_lets +onlyGivenNames x
       first
       | (first | refine State.Keeps.letH (z := z) (x := x) ?_ ?_ | refine State.Keeps.letF (z := z) (x := x) ?_ ?_
          unfold x; clear x; rotate_left; clear_value x; intro; rotate_right)
       | clear_value x
       | skip)
    | with_reducible apply State.draw_keeps
    | with_reducible apply State.updStream_keeps
    | simp -zeta -zetaDelta only [State.Keeps.mk_iff, State.Keeps.mk_flash]
    | split

theorem State.startStreams_keeps : ∀ (a0 : State) a1 a2 a3, z.Keeps a0 → z.Keeps (State.startStreams a0 a1 a2 a3) := by
  intro a0 a1 a2 a3 h
  unfold State.startStreams
  repeat' first
    | with_reducible assumption
    | intro y
    | (extract_lets +onlyGivenNames x
       first
       | (first | refine State.Keeps.letH (z := z) (x := x) ?_ ?_ | refine State.Keeps.letF (z := z) (x := x) ?_ ?_
          unfold x; clear x; rotate_left; clear_value x; intro; rotate_right)
       | clear_value x
       | skip)
    | with_reducible apply State.updDies_keeps
    | with_reducible apply State.firstGap_keeps
    | with_reducible apply State.updCtx_keeps
    | with_reducible apply State.dropMoves_keeps
    | with_reducible apply State.Keeps.foldl
    | with_reducible apply State.Keeps.foldlProd
    | with_reducible apply State.Keeps.foldlSnd
    | simp -zeta -zetaDelta only [State.Keeps.mk_iff, State.Keeps.mk_flash]
    | split

theorem execGenerationCopyDone_keeps : ∀ a0 a1 a2 a3 (a4 : State), z.Keeps a4 → OutKeeps z (execGenerationCopyDone a0 a1 a2 a3 a4) := by
  intro a0 a1 a2 a3 a4 h
  unfold execGenerationCopyDone
  repeat' first
    | with_reducible assumption
    | (extract_lets +onlyGivenNames x
       first
       | (first | refine State.Keeps.letH (z := z) (x := x) ?_ ?_ | refine State.Keeps.letF (z := z) (x := x) ?_ ?_
          unfold x; clear x; rotate_left; clear_value x; intro; rotate_right)
       | clear_value x
       | skip)
    | with_reducible apply OutKeeps.next
    | with_reducible apply State.stopFault_keeps
    | with_reducible apply State.updCtx_keeps
    | with_reducible apply State.endStep_keeps
    | with_reducible apply State.writeStepRecord_keeps
    | with_reducible apply State.stopStreams_keeps
    | split

theorem State.postStopClass_keeps : ∀ (a0 : State) a1 a2 a3 a4, z.Keeps a0 → z.Keeps (State.postStopClass a0 a1 a2 a3 a4) := by
  intro a0 a1 a2 a3 a4 h
  unfold State.postStopClass
  repeat' first
    | with_reducible assumption
    | with_reducible apply State.hostEvent_keeps

theorem execStopClassDetermined_keeps : ∀ a0 a1 a2 (a3 : State), z.Keeps a3 → OutKeeps z (execStopClassDetermined a0 a1 a2 a3) := by
  intro a0 a1 a2 a3 h
  unfold execStopClassDetermined
  repeat' first
    | with_reducible assumption
    | (extract_lets +onlyGivenNames x
       first
       | (first | refine State.Keeps.letH (z := z) (x := x) ?_ ?_ | refine State.Keeps.letF (z := z) (x := x) ?_ ?_
          unfold x; clear x; rotate_left; clear_value x; intro; rotate_right)
       | clear_value x
       | skip)
    | with_reducible apply OutKeeps.next
    | with_reducible apply State.updCtx_keeps
    | with_reducible apply State.postStopClass_keeps
    | split

theorem State.restoreImage_keeps : ∀ (a0 : State) a1 a2 a3, z.Keeps a0 → z.Keeps (State.restoreImage a0 a1 a2 a3) := by
  intro a0 a1 a2 a3 h
  unfold State.restoreImage
  repeat' first
    | with_reducible assumption
    | intro y
    | (extract_lets +onlyGivenNames x
       first
       | (first | refine State.Keeps.letH (z := z) (x := x) ?_ ?_ | refine State.Keeps.letF (z := z) (x := x) ?_ ?_
          unfold x; clear x; rotate_left; clear_value x; intro; rotate_right)
       | clear_value x
       | skip)
    | with_reducible apply State.putPlane_keeps
    | with_reducible apply State.updCtx_keeps
    | with_reducible apply State.startStreams_keeps
    | with_reducible apply State.Keeps.foldl

theorem execRestore_keeps : ∀ a0 a1 a2 a3 (a4 : State), z.Keeps a4 → OutKeeps z (execRestore a0 a1 a2 a3 a4) := by
  intro a0 a1 a2 a3 a4 h
  unfold execRestore
  repeat' first
    | with_reducible assumption
    | (extract_lets +onlyGivenNames x
       first
       | (first | refine State.Keeps.letH (z := z) (x := x) ?_ ?_ | refine State.Keeps.letF (z := z) (x := x) ?_ ?_
          unfold x; clear x; rotate_left; clear_value x; intro; rotate_right)
       | clear_value x
       | skip)
    | with_reducible apply OutKeeps.next
    | with_reducible apply State.restoreImage_keeps
    | with_reducible apply State.updCtx_keeps
    | with_reducible apply State.postStopClass_keeps
    | split

end Sys2Proof.Machine
end

