-- ==== Sys2Proof/Laws/KeepsPkg.lean ====
section
/-! SUPPORT. What Machine/Pkg.lean keeps: one lemma an operation. -/
namespace Sys2Proof.Machine
set_option linter.all false

variable {z : State}

theorem State.security_keeps : ∀ (a0 : State) a1 a2 a3, z.Keeps a0 → z.Keeps (State.security a0 a1 a2 a3) := by
  intro a0 a1 a2 a3 h
  unfold State.security
  repeat' first
    | with_reducible assumption
    | with_reducible apply State.logDevice_keeps

theorem State.refusePkg_keeps : ∀ (a0 : State) a1, z.Keeps a0 → z.Keeps (State.refusePkg a0 a1) := by
  intro a0 a1 h
  unfold State.refusePkg
  repeat' first
    | with_reducible assumption
    | with_reducible apply State.security_keeps

theorem State.installFirmware_keeps : ∀ (a0 : State) a1, z.Keeps a0 → z.Keeps (State.installFirmware a0 a1) := by
  intro a0 a1 h
  unfold State.installFirmware
  repeat' first
    | with_reducible assumption
    | simp -zetaDelta only [State.Keeps.mk_flash]
    | with_reducible apply State.security_keeps
    | (extract_lets +onlyGivenNames x
       first
       | (refine State.Keeps.letH (z := z) (x := x) ?_ ?_
          unfold x; clear x
          rotate_left
          clear_value x; intro hx
          rotate_right)
       | (refine ExecKeeps.letJ (x := x) ?_ ?_
          unfold x; clear x
          rotate_left
          clear_value x; intro hx
          rotate_right)
       | (refine State.Keeps.letF (z := z) (x := x) ?_ ?_
          unfold x; clear x
          rotate_left
          clear_value x; intro hx
          rotate_right)
       | (refine State.Keeps.letR (z := z) (x := x) ?_ ?_
          unfold x; clear x
          rotate_left
          clear_value x; intro hx
          rotate_right)
       | (refine ExecKeeps.letM (x := x) ?_ ?_
          unfold x; clear x
          rotate_left
          clear_value x; intro hx
          rotate_right)
       | clear_value x
       | skip)
    | split

theorem State.installCalibration_keeps : ∀ (a0 : State) a1, z.Keeps a0 → z.Keeps (State.installCalibration a0 a1) := by
  intro a0 a1 h
  unfold State.installCalibration
  repeat' first
    | with_reducible assumption
    | simp -zetaDelta only [State.Keeps.mk_flash]
    | with_reducible apply State.security_keeps

theorem State.installKeys_keeps : ∀ (a0 : State) a1, z.Keeps a0 → z.Keeps (State.installKeys a0 a1) := by
  intro a0 a1 h
  unfold State.installKeys
  repeat' first
    | with_reducible assumption
    | simp -zetaDelta only [State.Keeps.mk_flash]
    | with_reducible apply State.security_keeps

theorem State.gambitRecord_keeps : ∀ (a0 : State) a1 a2 a3 a4 a5 a6, z.Keeps a0 → z.Keeps (State.gambitRecord a0 a1 a2 a3 a4 a5 a6) := by
  intro a0 a1 a2 a3 a4 a5 a6 h
  unfold State.gambitRecord
  repeat' first
    | with_reducible assumption
    | with_reducible apply State.logDevice_keeps

theorem State.installGambit_keeps : ∀ (a0 : State) a1, z.Keeps a0 → z.Keeps (State.installGambit a0 a1).2 := by
  intro a0 a1 h
  unfold State.installGambit
  repeat' first
    | with_reducible assumption
    | simp -zetaDelta only [State.Keeps.mk_flash]
    | with_reducible apply State.gambitRecord_keeps
    | split

end Sys2Proof.Machine
end

