-- ==== Sys2Proof/Laws/KeepsGambit.lean ====
section
/-! SUPPORT. What Machine/Gambit.lean keeps: one lemma an operation. -/
namespace Sys2Proof.Machine
set_option linter.all false

variable {z : State}

theorem State.runVector_keeps : ∀ (a0 : State) a1 a2 a3, z.Keeps a0 → z.Keeps (State.runVector a0 a1 a2 a3) := by
  intro a0 a1 a2 a3 h
  unfold State.runVector
  repeat' first
    | with_reducible assumption
    | intro y
    | (extract_lets +onlyGivenNames x
       first
       | (first | refine State.Keeps.letH (z := z) (x := x) ?_ ?_ | refine State.Keeps.letF (z := z) (x := x) ?_ ?_
          unfold x; clear x; rotate_left; clear_value x; intro; rotate_right)
       | clear_value x
       | skip)
    | with_reducible apply State.updDie_keeps
    | with_reducible apply State.Keeps.foldl
    | with_reducible apply State.Keeps.foldlProd
    | with_reducible apply State.Keeps.foldlSnd
    | simp -zeta -zetaDelta only [State.Keeps.mk_iff, State.Keeps.mk_flash]
    | split

end Sys2Proof.Machine
end

