-- ==== Sys2Proof/Laws/KeepsNet.lean ====
section
/-! SUPPORT. What Machine/Net.lean keeps: one lemma an operation. -/
namespace Sys2Proof.Machine
set_option linter.all false

variable {z : State}

theorem State.offer_keeps : ∀ (a0 : State) a1, z.Keeps a0 → z.Keeps (State.offer a0 a1) := by
  intro a0 a1 h
  unfold State.offer
  repeat' first
    | with_reducible assumption
    | (extract_lets +onlyGivenNames x
       first
       | (first | refine State.Keeps.letH (z := z) (x := x) ?_ ?_ | refine State.Keeps.letF (z := z) (x := x) ?_ ?_
          unfold x; clear x; rotate_left; clear_value x; intro; rotate_right)
       | clear_value x
       | skip)
    | simp -zeta -zetaDelta only [State.Keeps.mk_iff, State.Keeps.mk_flash]
    | split

theorem State.nak_keeps : ∀ (a0 : State) a1 a2 a3, z.Keeps a0 → z.Keeps (State.nak a0 a1 a2 a3) := by
  intro a0 a1 a2 a3 h
  unfold State.nak
  repeat' first
    | with_reducible assumption
    | (extract_lets +onlyGivenNames x
       first
       | (first | refine State.Keeps.letH (z := z) (x := x) ?_ ?_ | refine State.Keeps.letF (z := z) (x := x) ?_ ?_
          unfold x; clear x; rotate_left; clear_value x; intro; rotate_right)
       | clear_value x
       | skip)
    | with_reducible apply State.offer_keeps
    | with_reducible apply State.count_keeps
    | split

theorem State.freeBuffer_keeps : ∀ (a0 : State) a1 a2, z.Keeps a0 → z.Keeps (State.freeBuffer a0 a1 a2) := by
  intro a0 a1 a2 h
  unfold State.freeBuffer
  repeat' first
    | with_reducible assumption
    | with_reducible apply State.updLink_keeps
    | split

theorem State.discard_keeps : ∀ (a0 : State) a1 a2 a3, z.Keeps a0 → z.Keeps (State.discard a0 a1 a2 a3) := by
  intro a0 a1 a2 a3 h
  unfold State.discard
  repeat' first
    | with_reducible assumption
    | (extract_lets +onlyGivenNames x
       first
       | (first | refine State.Keeps.letH (z := z) (x := x) ?_ ?_ | refine State.Keeps.letF (z := z) (x := x) ?_ ?_
          unfold x; clear x; rotate_left; clear_value x; intro; rotate_right)
       | clear_value x
       | skip)
    | with_reducible apply State.count_keeps
    | with_reducible apply State.freeBuffer_keeps

theorem State.emit_keeps : ∀ (a0 : State) a1 a2, z.Keeps a0 → z.Keeps (State.emit a0 a1 a2) := by
  intro a0 a1 a2 h
  unfold State.emit
  repeat' first
    | with_reducible assumption
    | intro y
    | (extract_lets +onlyGivenNames x
       first
       | (first | refine State.Keeps.letH (z := z) (x := x) ?_ ?_ | refine State.Keeps.letF (z := z) (x := x) ?_ ?_
          unfold x; clear x; rotate_left; clear_value x; intro; rotate_right)
       | clear_value x
       | skip)
    | with_reducible apply State.count_keeps
    | with_reducible apply State.updLink_keeps
    | with_reducible apply State.Keeps.foldl
    | with_reducible apply State.Keeps.foldlProd
    | with_reducible apply State.Keeps.foldlSnd
    | simp -zeta -zetaDelta only [State.Keeps.mk_iff, State.Keeps.mk_flash]
    | split

theorem State.sendHop_keeps : ∀ (a0 : State) a1 a2, z.Keeps a0 → z.Keeps (State.sendHop a0 a1 a2) := by
  intro a0 a1 a2 h
  unfold State.sendHop
  repeat' first
    | with_reducible assumption
    | intro y
    | (extract_lets +onlyGivenNames x
       first
       | (first | refine State.Keeps.letH (z := z) (x := x) ?_ ?_ | refine State.Keeps.letF (z := z) (x := x) ?_ ?_
          unfold x; clear x; rotate_left; clear_value x; intro; rotate_right)
       | clear_value x
       | skip)
    | with_reducible apply State.addUnits_keeps
    | with_reducible apply State.updLink_keeps
    | with_reducible apply State.emit_keeps
    | with_reducible apply State.Keeps.foldl
    | with_reducible apply State.Keeps.foldlProd
    | with_reducible apply State.Keeps.foldlSnd
    | simp -zeta -zetaDelta only [State.Keeps.mk_iff, State.Keeps.mk_flash]
    | split

theorem State.noteSent_keeps : ∀ (a0 : State) a1 a2, z.Keeps a0 → z.Keeps (State.noteSent a0 a1 a2) := by
  intro a0 a1 a2 h
  unfold State.noteSent
  repeat' first
    | with_reducible assumption
    | intro y
    | (extract_lets +onlyGivenNames x
       first
       | (first | refine State.Keeps.letH (z := z) (x := x) ?_ ?_ | refine State.Keeps.letF (z := z) (x := x) ?_ ?_
          unfold x; clear x; rotate_left; clear_value x; intro; rotate_right)
       | clear_value x
       | skip)
    | with_reducible apply State.updDie_keeps
    | with_reducible apply State.Keeps.foldl
    | with_reducible apply State.Keeps.foldlProd
    | with_reducible apply State.Keeps.foldlSnd
    | simp -zeta -zetaDelta only [State.Keeps.mk_iff, State.Keeps.mk_flash]
    | split

theorem State.advanceAt_keeps : ∀ (a0 : State) a1, z.Keeps a0 → z.Keeps (State.advanceAt a0 a1) := by
  intro a0 a1 h
  unfold State.advanceAt
  repeat' first
    | with_reducible assumption
    | intro y
    | (extract_lets +onlyGivenNames x
       first
       | (first | refine State.Keeps.letH (z := z) (x := x) ?_ ?_ | refine State.Keeps.letF (z := z) (x := x) ?_ ?_
          unfold x; clear x; rotate_left; clear_value x; intro; rotate_right)
       | clear_value x
       | skip)
    | with_reducible apply State.sendHop_keeps
    | with_reducible apply State.noteSent_keeps
    | with_reducible apply State.offer_keeps
    | with_reducible apply State.discard_keeps
    | with_reducible apply State.nak_keeps
    | with_reducible apply State.freeBuffer_keeps
    | with_reducible apply State.Keeps.foldl
    | with_reducible apply State.Keeps.foldlProd
    | with_reducible apply State.Keeps.foldlSnd
    | simp -zeta -zetaDelta only [State.Keeps.mk_iff, State.Keeps.mk_flash]
    | split

theorem State.buffer_keeps : ∀ (a0 : State) a1 a2, z.Keeps a0 → z.Keeps (State.buffer a0 a1 a2) := by
  intro a0 a1 a2 h
  unfold State.buffer
  repeat' first
    | with_reducible assumption
    | (extract_lets +onlyGivenNames x
       first
       | (first | refine State.Keeps.letH (z := z) (x := x) ?_ ?_ | refine State.Keeps.letF (z := z) (x := x) ?_ ?_
          unfold x; clear x; rotate_left; clear_value x; intro; rotate_right)
       | clear_value x
       | skip)
    | with_reducible apply State.advanceAt_keeps
    | simp -zeta -zetaDelta only [State.Keeps.mk_iff, State.Keeps.mk_flash]

theorem State.closeLinks_keeps : ∀ (a0 : State), z.Keeps a0 → z.Keeps (State.closeLinks a0) := by
  intro a0 h
  unfold State.closeLinks
  repeat' first
    | with_reducible assumption
    | intro y
    | (extract_lets +onlyGivenNames x
       first
       | (first | refine State.Keeps.letH (z := z) (x := x) ?_ ?_ | refine State.Keeps.letF (z := z) (x := x) ?_ ?_
          unfold x; clear x; rotate_left; clear_value x; intro; rotate_right)
       | clear_value x
       | skip)
    | with_reducible apply State.emit_keeps
    | with_reducible apply State.Keeps.foldl
    | with_reducible apply State.Keeps.foldlProd
    | with_reducible apply State.Keeps.foldlSnd
    | simp -zeta -zetaDelta only [State.Keeps.mk_iff, State.Keeps.mk_flash]
    | split

theorem State.enter_keeps : ∀ (a0 : State) a1 a2, z.Keeps a0 → z.Keeps (State.enter a0 a1 a2) := by
  intro a0 a1 a2 h
  unfold State.enter
  repeat' first
    | with_reducible assumption
    | intro y
    | (extract_lets +onlyGivenNames x
       first
       | (first | refine State.Keeps.letH (z := z) (x := x) ?_ ?_ | refine State.Keeps.letF (z := z) (x := x) ?_ ?_
          unfold x; clear x; rotate_left; clear_value x; intro; rotate_right)
       | clear_value x
       | skip)
    | with_reducible apply State.offer_keeps
    | with_reducible apply State.discard_keeps
    | with_reducible apply State.nak_keeps
    | with_reducible apply State.buffer_keeps
    | with_reducible apply State.freeBuffer_keeps
    | with_reducible apply State.Keeps.foldl
    | with_reducible apply State.Keeps.foldlProd
    | with_reducible apply State.Keeps.foldlSnd
    | simp -zeta -zetaDelta only [State.Keeps.mk_iff, State.Keeps.mk_flash]
    | split

theorem State.route_keeps : ∀ (a0 : State) a1 a2, z.Keeps a0 → z.Keeps (State.route a0 a1 a2) := by
  intro a0 a1 a2 h
  unfold State.route
  repeat' first
    | with_reducible assumption
    | intro y
    | (extract_lets +onlyGivenNames x
       first
       | (first | refine State.Keeps.letH (z := z) (x := x) ?_ ?_ | refine State.Keeps.letF (z := z) (x := x) ?_ ?_
          unfold x; clear x; rotate_left; clear_value x; intro; rotate_right)
       | clear_value x
       | skip)
    | with_reducible apply State.closeLinks_keeps
    | with_reducible apply State.enter_keeps
    | with_reducible apply State.Keeps.foldl
    | with_reducible apply State.Keeps.foldlProd
    | with_reducible apply State.Keeps.foldlSnd
    | simp -zeta -zetaDelta only [State.Keeps.mk_iff, State.Keeps.mk_flash]
    | split

theorem execRouterPacketArrival_keeps : ∀ a0 a1 (a2 : State), z.Keeps a2 → OutKeeps z (execRouterPacketArrival a0 a1 a2) := by
  intro a0 a1 a2 h
  unfold execRouterPacketArrival
  repeat' first
    | with_reducible assumption
    | (extract_lets +onlyGivenNames x
       first
       | (first | refine State.Keeps.letH (z := z) (x := x) ?_ ?_ | refine State.Keeps.letF (z := z) (x := x) ?_ ?_
          unfold x; clear x; rotate_left; clear_value x; intro; rotate_right)
       | clear_value x
       | skip)
    | with_reducible apply OutKeeps.next
    | with_reducible apply State.route_keeps

theorem execPacketAdvance_keeps : ∀ a0 (a1 : State), z.Keeps a1 → OutKeeps z (execPacketAdvance a0 a1) := by
  intro a0 a1 h
  unfold execPacketAdvance
  repeat' first
    | with_reducible assumption
    | intro y
    | (extract_lets +onlyGivenNames x
       first
       | (first | refine State.Keeps.letH (z := z) (x := x) ?_ ?_ | refine State.Keeps.letF (z := z) (x := x) ?_ ?_
          unfold x; clear x; rotate_left; clear_value x; intro; rotate_right)
       | clear_value x
       | skip)
    | with_reducible apply OutKeeps.next
    | with_reducible apply State.closeLinks_keeps
    | with_reducible apply State.advanceAt_keeps
    | with_reducible apply State.Keeps.foldl
    | with_reducible apply State.Keeps.foldlProd
    | with_reducible apply State.Keeps.foldlSnd
    | simp -zeta -zetaDelta only [State.Keeps.mk_iff, State.Keeps.mk_flash]
    | split

theorem execPacketStaleTimeout_keeps : ∀ a0 (a1 : State), z.Keeps a1 → OutKeeps z (execPacketStaleTimeout a0 a1) := by
  intro a0 a1 h
  unfold execPacketStaleTimeout
  repeat' first
    | with_reducible assumption
    | intro y
    | (extract_lets +onlyGivenNames x
       first
       | (first | refine State.Keeps.letH (z := z) (x := x) ?_ ?_ | refine State.Keeps.letF (z := z) (x := x) ?_ ?_
          unfold x; clear x; rotate_left; clear_value x; intro; rotate_right)
       | clear_value x
       | skip)
    | with_reducible apply OutKeeps.next
    | with_reducible apply State.discard_keeps
    | with_reducible apply State.nak_keeps
    | with_reducible apply State.closeLinks_keeps
    | with_reducible apply State.Keeps.foldl
    | with_reducible apply State.Keeps.foldlProd
    | with_reducible apply State.Keeps.foldlSnd
    | simp -zeta -zetaDelta only [State.Keeps.mk_iff, State.Keeps.mk_flash]
    | split

theorem State.injectAt_keeps : ∀ (a0 : State) a1 a2, z.Keeps a0 → z.Keeps (State.injectAt a0 a1 a2) := by
  intro a0 a1 a2 h
  unfold State.injectAt
  repeat' first
    | with_reducible assumption
    | intro y
    | (extract_lets +onlyGivenNames x
       first
       | (first | refine State.Keeps.letH (z := z) (x := x) ?_ ?_ | refine State.Keeps.letF (z := z) (x := x) ?_ ?_
          unfold x; clear x; rotate_left; clear_value x; intro; rotate_right)
       | clear_value x
       | skip)
    | with_reducible apply State.updDie_keeps
    | with_reducible apply State.enter_keeps
    | with_reducible apply State.Keeps.foldl
    | with_reducible apply State.Keeps.foldlProd
    | with_reducible apply State.Keeps.foldlSnd
    | simp -zeta -zetaDelta only [State.Keeps.mk_iff, State.Keeps.mk_flash]
    | split

theorem State.pump_keeps : ∀ (a0 : State) a1, z.Keeps a0 → z.Keeps (State.pump a0 a1) := by
  intro a0 a1 h
  unfold State.pump
  repeat' first
    | with_reducible assumption
    | intro y
    | (extract_lets +onlyGivenNames x
       first
       | (first | refine State.Keeps.letH (z := z) (x := x) ?_ ?_ | refine State.Keeps.letF (z := z) (x := x) ?_ ?_
          unfold x; clear x; rotate_left; clear_value x; intro; rotate_right)
       | clear_value x
       | skip)
    | with_reducible apply State.injectAt_keeps
    | with_reducible apply State.closeLinks_keeps
    | with_reducible apply State.Keeps.foldl
    | with_reducible apply State.Keeps.foldlProd
    | with_reducible apply State.Keeps.foldlSnd
    | simp -zeta -zetaDelta only [State.Keeps.mk_iff, State.Keeps.mk_flash]
    | split

theorem State.queueSend_keeps : ∀ (a0 : State) a1 a2, z.Keeps a0 → z.Keeps (State.queueSend a0 a1 a2) := by
  intro a0 a1 a2 h
  unfold State.queueSend
  repeat' first
    | with_reducible assumption
    | with_reducible apply State.updDie_keeps

theorem State.newMsg_keeps : ∀ (a0 : State) a1, z.Keeps a0 → z.Keeps (State.newMsg a0 a1).2 := by
  intro a0 a1 h
  unfold State.newMsg
  repeat' first
    | with_reducible assumption
    | with_reducible apply State.updDie_keeps

end Sys2Proof.Machine
end

