-- ==== Sys2Proof/Laws/KeepsLinks.lean ====
section
/-! SUPPORT. What Machine/Links.lean keeps: one lemma an operation. -/
namespace Sys2Proof.Machine
set_option linter.all false

variable {z : State}

theorem State.linkRecord_keeps : ∀ (a0 : State) a1 a2 a3, z.Keeps a0 → z.Keeps (State.linkRecord a0 a1 a2 a3) := by
  intro a0 a1 a2 a3 h
  unfold State.linkRecord
  repeat' first
    | with_reducible assumption
    | (extract_lets +onlyGivenNames x
       first
       | (first | refine State.Keeps.letH (z := z) (x := x) ?_ ?_ | refine State.Keeps.letF (z := z) (x := x) ?_ ?_
          unfold x; clear x; rotate_left; clear_value x; intro; rotate_right)
       | clear_value x
       | skip)
    | with_reducible apply State.log_keeps

theorem State.judgePort_keeps : ∀ (a0 : State) a1, z.Keeps a0 → z.Keeps (State.judgePort a0 a1) := by
  intro a0 a1 h
  unfold State.judgePort
  repeat' first
    | with_reducible assumption
    | (extract_lets +onlyGivenNames x
       first
       | (first | refine State.Keeps.letH (z := z) (x := x) ?_ ?_ | refine State.Keeps.letF (z := z) (x := x) ?_ ?_
          unfold x; clear x; rotate_left; clear_value x; intro; rotate_right)
       | clear_value x
       | skip)
    | with_reducible apply State.geometryChange_keeps
    | simp -zeta -zetaDelta only [State.Keeps.mk_iff, State.Keeps.mk_flash]
    | split

theorem State.fabricFault_keeps : ∀ (a0 : State) a1 a2 a3 a4, z.Keeps a0 → z.Keeps (State.fabricFault a0 a1 a2 a3 a4) := by
  intro a0 a1 a2 a3 a4 h
  unfold State.fabricFault
  repeat' first
    | with_reducible assumption
    | intro y
    | (extract_lets +onlyGivenNames x
       first
       | (first | refine State.Keeps.letH (z := z) (x := x) ?_ ?_ | refine State.Keeps.letF (z := z) (x := x) ?_ ?_
          unfold x; clear x; rotate_left; clear_value x; intro; rotate_right)
       | clear_value x
       | skip)
    | with_reducible apply State.stopFault_keeps
    | with_reducible apply State.Keeps.foldl
    | split

theorem State.judgeIsolation_keeps : ∀ (a0 : State) a1, z.Keeps a0 → z.Keeps (State.judgeIsolation a0 a1) := by
  intro a0 a1 h
  unfold State.judgeIsolation
  repeat' first
    | with_reducible assumption
    | with_reducible apply State.fabricFault_keeps
    | split

theorem State.leaveService_keeps : ∀ (a0 : State) a1 a2, z.Keeps a0 → z.Keeps (State.leaveService a0 a1 a2) := by
  intro a0 a1 a2 h
  unfold State.leaveService
  repeat' first
    | with_reducible assumption
    | intro y
    | (extract_lets +onlyGivenNames x
       first
       | (first | refine State.Keeps.letH (z := z) (x := x) ?_ ?_ | refine State.Keeps.letF (z := z) (x := x) ?_ ?_
          unfold x; clear x; rotate_left; clear_value x; intro; rotate_right)
       | clear_value x
       | skip)
    | with_reducible apply State.nak_keeps
    | with_reducible apply State.closeLinks_keeps
    | with_reducible apply State.linkRecord_keeps
    | with_reducible apply State.judgeIsolation_keeps
    | with_reducible apply State.enter_keeps
    | with_reducible apply State.judgePort_keeps
    | with_reducible apply State.count_keeps
    | with_reducible apply State.updLink_keeps
    | with_reducible apply State.Keeps.foldl
    | with_reducible apply State.Keeps.foldlProd
    | with_reducible apply State.Keeps.foldlSnd
    | simp -zeta -zetaDelta only [State.Keeps.mk_iff, State.Keeps.mk_flash]
    | split

theorem State.comeUp_keeps : ∀ (a0 : State) a1, z.Keeps a0 → z.Keeps (State.comeUp a0 a1) := by
  intro a0 a1 h
  unfold State.comeUp
  repeat' first
    | with_reducible assumption
    | (extract_lets +onlyGivenNames x
       first
       | (first | refine State.Keeps.letH (z := z) (x := x) ?_ ?_ | refine State.Keeps.letF (z := z) (x := x) ?_ ?_
          unfold x; clear x; rotate_left; clear_value x; intro; rotate_right)
       | clear_value x
       | skip)
    | with_reducible apply State.updLink_keeps
    | with_reducible apply State.judgePort_keeps
    | with_reducible apply State.linkRecord_keeps

theorem State.quietLink_keeps : ∀ (a0 : State) a1, z.Keeps a0 → z.Keeps (State.quietLink a0 a1) := by
  intro a0 a1 h
  unfold State.quietLink
  repeat' first
    | with_reducible assumption
    | with_reducible apply State.updLink_keeps

theorem State.replayFrom_keeps : ∀ (a0 : State) a1 a2, z.Keeps a0 → z.Keeps (State.replayFrom a0 a1 a2) := by
  intro a0 a1 a2 h
  unfold State.replayFrom
  repeat' first
    | with_reducible assumption
    | (extract_lets +onlyGivenNames x
       first
       | (first | refine State.Keeps.letH (z := z) (x := x) ?_ ?_ | refine State.Keeps.letF (z := z) (x := x) ?_ ?_
          unfold x; clear x; rotate_left; clear_value x; intro; rotate_right)
       | clear_value x
       | skip)
    | with_reducible apply State.updLink_keeps
    | with_reducible apply State.count_keeps
    | with_reducible apply State.leaveService_keeps
    | split

theorem State.meetHello_keeps : ∀ (a0 : State) a1 a2, z.Keeps a0 → z.Keeps (State.meetHello a0 a1 a2) := by
  intro a0 a1 a2 h
  unfold State.meetHello
  repeat' first
    | with_reducible assumption
    | intro y
    | (extract_lets +onlyGivenNames x
       first
       | (first | refine State.Keeps.letH (z := z) (x := x) ?_ ?_ | refine State.Keeps.letF (z := z) (x := x) ?_ ?_
          unfold x; clear x; rotate_left; clear_value x; intro; rotate_right)
       | clear_value x
       | skip)
    | with_reducible apply State.leaveService_keeps
    | with_reducible apply State.comeUp_keeps
    | with_reducible apply State.linkRecord_keeps
    | with_reducible apply State.updLink_keeps
    | with_reducible apply State.Keeps.foldl
    | with_reducible apply State.Keeps.foldlProd
    | with_reducible apply State.Keeps.foldlSnd
    | simp -zeta -zetaDelta only [State.Keeps.mk_iff, State.Keeps.mk_flash]
    | split

theorem State.controlFlit_keeps : ∀ (a0 : State) a1 a2, z.Keeps a0 → z.Keeps (State.controlFlit a0 a1 a2) := by
  intro a0 a1 a2 h
  unfold State.controlFlit
  repeat' first
    | with_reducible assumption
    | intro y
    | (extract_lets +onlyGivenNames x
       first
       | (first | refine State.Keeps.letH (z := z) (x := x) ?_ ?_ | refine State.Keeps.letF (z := z) (x := x) ?_ ?_
          unfold x; clear x; rotate_left; clear_value x; intro; rotate_right)
       | clear_value x
       | skip)
    | with_reducible apply State.replayFrom_keeps
    | with_reducible apply State.meetHello_keeps
    | with_reducible apply State.updLink_keeps
    | with_reducible apply State.Keeps.foldl
    | with_reducible apply State.Keeps.foldlProd
    | with_reducible apply State.Keeps.foldlSnd
    | simp -zeta -zetaDelta only [State.Keeps.mk_iff, State.Keeps.mk_flash]
    | split

theorem controlRow_keeps : ∀ a0 a1 a2 (a3 : State), z.Keeps a3 → OutKeeps z (controlRow a0 a1 a2 a3) := by
  intro a0 a1 a2 a3 h
  unfold controlRow
  repeat' first
    | with_reducible assumption
    | (extract_lets +onlyGivenNames x
       first
       | (first | refine State.Keeps.letH (z := z) (x := x) ?_ ?_ | refine State.Keeps.letF (z := z) (x := x) ?_ ?_
          unfold x; clear x; rotate_left; clear_value x; intro; rotate_right)
       | clear_value x
       | skip)
    | with_reducible apply OutKeeps.next
    | with_reducible apply State.controlFlit_keeps
    | with_reducible apply State.count_keeps
    | with_reducible apply State.quietLink_keeps
    | split

theorem execIdleFlit_keeps : ∀ a0 a1 (a2 : State), z.Keeps a2 → OutKeeps z (execIdleFlit a0 a1 a2) := by
  intro a0 a1 a2 h
  unfold execIdleFlit
  repeat' first
    | with_reducible assumption
    | with_reducible apply controlRow_keeps

theorem execCreditFlit_keeps : ∀ a0 a1 (a2 : State), z.Keeps a2 → OutKeeps z (execCreditFlit a0 a1 a2) := by
  intro a0 a1 a2 h
  unfold execCreditFlit
  repeat' first
    | with_reducible assumption
    | with_reducible apply controlRow_keeps

theorem execReplayFlit_keeps : ∀ a0 a1 (a2 : State), z.Keeps a2 → OutKeeps z (execReplayFlit a0 a1 a2) := by
  intro a0 a1 a2 h
  unfold execReplayFlit
  repeat' first
    | with_reducible assumption
    | with_reducible apply controlRow_keeps

theorem execAbortFlit_keeps : ∀ a0 a1 (a2 : State), z.Keeps a2 → OutKeeps z (execAbortFlit a0 a1 a2) := by
  intro a0 a1 a2 h
  unfold execAbortFlit
  repeat' first
    | with_reducible assumption
    | with_reducible apply controlRow_keeps

theorem execHelloFlit_keeps : ∀ a0 a1 (a2 : State), z.Keeps a2 → OutKeeps z (execHelloFlit a0 a1 a2) := by
  intro a0 a1 a2 h
  unfold execHelloFlit
  repeat' first
    | with_reducible assumption
    | with_reducible apply controlRow_keeps

theorem execControlFlitInterval_keeps : ∀ a0 (a1 : State), z.Keeps a1 → OutKeeps z (execControlFlitInterval a0 a1) := by
  intro a0 a1 h
  unfold execControlFlitInterval
  repeat' first
    | with_reducible assumption
    | intro y
    | (extract_lets +onlyGivenNames x
       first
       | (first | refine State.Keeps.letH (z := z) (x := x) ?_ ?_ | refine State.Keeps.letF (z := z) (x := x) ?_ ?_
          unfold x; clear x; rotate_left; clear_value x; intro; rotate_right)
       | clear_value x
       | skip)
    | with_reducible apply OutKeeps.next
    | with_reducible apply State.quietLink_keeps
    | with_reducible apply State.count_keeps
    | with_reducible apply State.updLink_keeps
    | with_reducible apply State.emit_keeps
    | with_reducible apply State.Keeps.foldl
    | with_reducible apply State.Keeps.foldlProd
    | with_reducible apply State.Keeps.foldlSnd
    | simp -zeta -zetaDelta only [State.Keeps.mk_iff, State.Keeps.mk_flash]
    | split

theorem State.packetFlit_keeps : ∀ (a0 : State) a1 a2, z.Keeps a0 → z.Keeps (State.packetFlit a0 a1 a2) := by
  intro a0 a1 a2 h
  unfold State.packetFlit
  repeat' first
    | with_reducible assumption
    | intro y
    | (extract_lets +onlyGivenNames x
       first
       | (first | refine State.Keeps.letH (z := z) (x := x) ?_ ?_ | refine State.Keeps.letF (z := z) (x := x) ?_ ?_
          unfold x; clear x; rotate_left; clear_value x; intro; rotate_right)
       | clear_value x
       | skip)
    | with_reducible apply State.addUnits_keeps
    | with_reducible apply State.enter_keeps
    | with_reducible apply State.updLink_keeps
    | with_reducible apply State.Keeps.foldl
    | with_reducible apply State.Keeps.foldlProd
    | with_reducible apply State.Keeps.foldlSnd
    | simp -zeta -zetaDelta only [State.Keeps.mk_iff, State.Keeps.mk_flash]
    | split

theorem State.askReplay_keeps : ∀ (a0 : State) a1 a2, z.Keeps a0 → z.Keeps (State.askReplay a0 a1 a2) := by
  intro a0 a1 a2 h
  unfold State.askReplay
  repeat' first
    | with_reducible assumption
    | (extract_lets +onlyGivenNames x
       first
       | (first | refine State.Keeps.letH (z := z) (x := x) ?_ ?_ | refine State.Keeps.letF (z := z) (x := x) ?_ ?_
          unfold x; clear x; rotate_left; clear_value x; intro; rotate_right)
       | clear_value x
       | skip)
    | with_reducible apply State.count_keeps
    | with_reducible apply State.updLink_keeps

theorem State.takeSlots_keeps : ∀ (a0 : State) a1 a2, z.Keeps a0 → z.Keeps (State.takeSlots a0 a1 a2) := by
  intro a0 a1 a2 h
  unfold State.takeSlots
  repeat' first
    | with_reducible assumption
    | intro y
    | (extract_lets +onlyGivenNames x
       first
       | (first | refine State.Keeps.letH (z := z) (x := x) ?_ ?_ | refine State.Keeps.letF (z := z) (x := x) ?_ ?_
          unfold x; clear x; rotate_left; clear_value x; intro; rotate_right)
       | clear_value x
       | skip)
    | with_reducible apply State.controlFlit_keeps
    | with_reducible apply State.packetFlit_keeps
    | with_reducible apply State.closeLinks_keeps
    | with_reducible apply State.Keeps.foldl
    | with_reducible apply State.Keeps.foldlProd
    | with_reducible apply State.Keeps.foldlSnd
    | simp -zeta -zetaDelta only [State.Keeps.mk_iff, State.Keeps.mk_flash]
    | split

theorem execLinkCodewordReceived_keeps : ∀ a0 a1 (a2 : State), z.Keeps a2 → OutKeeps z (execLinkCodewordReceived a0 a1 a2) := by
  intro a0 a1 a2 h
  unfold execLinkCodewordReceived
  repeat' first
    | with_reducible assumption
    | (extract_lets +onlyGivenNames x
       first
       | (first | refine State.Keeps.letH (z := z) (x := x) ?_ ?_ | refine State.Keeps.letF (z := z) (x := x) ?_ ?_
          unfold x; clear x; rotate_left; clear_value x; intro; rotate_right)
       | clear_value x
       | skip)
    | with_reducible apply OutKeeps.next
    | with_reducible apply State.quietLink_keeps
    | with_reducible apply State.updLink_keeps
    | with_reducible apply State.count_keeps
    | with_reducible apply State.askReplay_keeps
    | with_reducible apply State.takeSlots_keeps
    | split

theorem execLaneLockLost_keeps : ∀ a0 a1 (a2 : State), z.Keeps a2 → OutKeeps z (execLaneLockLost a0 a1 a2) := by
  intro a0 a1 a2 h
  unfold execLaneLockLost
  repeat' first
    | with_reducible assumption
    | (extract_lets +onlyGivenNames x
       first
       | (first | refine State.Keeps.letH (z := z) (x := x) ?_ ?_ | refine State.Keeps.letF (z := z) (x := x) ?_ ?_
          unfold x; clear x; rotate_left; clear_value x; intro; rotate_right)
       | clear_value x
       | skip)
    | with_reducible apply OutKeeps.next
    | with_reducible apply State.leaveService_keeps
    | with_reducible apply State.updLink_keeps
    | split

theorem State.sayHello_keeps : ∀ (a0 : State) a1, z.Keeps a0 → z.Keeps (State.sayHello a0 a1) := by
  intro a0 a1 h
  unfold State.sayHello
  repeat' first
    | with_reducible assumption
    | intro y
    | (extract_lets +onlyGivenNames x
       first
       | (first | refine State.Keeps.letH (z := z) (x := x) ?_ ?_ | refine State.Keeps.letF (z := z) (x := x) ?_ ?_
          unfold x; clear x; rotate_left; clear_value x; intro; rotate_right)
       | clear_value x
       | skip)
    | with_reducible apply State.count_keeps
    | with_reducible apply State.updLink_keeps
    | with_reducible apply State.Keeps.foldl
    | with_reducible apply State.Keeps.foldlProd
    | with_reducible apply State.Keeps.foldlSnd
    | simp -zeta -zetaDelta only [State.Keeps.mk_iff, State.Keeps.mk_flash]
    | split

theorem execLinkRetrainDone_keeps : ∀ a0 a1 (a2 : State), z.Keeps a2 → OutKeeps z (execLinkRetrainDone a0 a1 a2) := by
  intro a0 a1 a2 h
  unfold execLinkRetrainDone
  repeat' first
    | with_reducible assumption
    | intro y
    | (extract_lets +onlyGivenNames x
       first
       | (first | refine State.Keeps.letH (z := z) (x := x) ?_ ?_ | refine State.Keeps.letF (z := z) (x := x) ?_ ?_
          unfold x; clear x; rotate_left; clear_value x; intro; rotate_right)
       | clear_value x
       | skip)
    | with_reducible apply OutKeeps.next
    | with_reducible apply State.sayHello_keeps
    | with_reducible apply State.comeUp_keeps
    | with_reducible apply State.linkRecord_keeps
    | with_reducible apply State.updLink_keeps
    | with_reducible apply State.Keeps.foldl
    | with_reducible apply State.Keeps.foldlProd
    | with_reducible apply State.Keeps.foldlSnd
    | simp -zeta -zetaDelta only [State.Keeps.mk_iff, State.Keeps.mk_flash]
    | split

end Sys2Proof.Machine
end

