-- ==== Sys2Proof/Laws/KeepsMemory.lean ====
section
/-! SUPPORT. What Machine/Memory.lean keeps: one lemma an operation. -/
namespace Sys2Proof.Machine
set_option linter.all false

variable {z : State}

theorem State.granule_keeps : ∀ (a0 : State) a1 a2, z.Keeps a0 → z.Keeps (State.granule a0 a1 a2) := by
  intro a0 a1 a2 h
  unfold State.granule
  repeat' first
    | with_reducible assumption
    | with_reducible apply State.count_keeps

theorem State.deliverCw_keeps : ∀ (a0 : State) a1 a2 a3 a4, z.Keeps a0 → z.Keeps (State.deliverCw a0 a1 a2 a3 a4).2 := by
  intro a0 a1 a2 a3 a4 h
  unfold State.deliverCw
  repeat' first
    | with_reducible assumption
    | (extract_lets +onlyGivenNames x
       first
       | (first | refine State.Keeps.letH (z := z) (x := x) ?_ ?_ | refine State.Keeps.letF (z := z) (x := x) ?_ ?_
          unfold x; clear x; rotate_left; clear_value x; intro; rotate_right)
       | clear_value x
       | skip)
    | with_reducible apply State.readCodeword_keeps

theorem execMemoryRequest_keeps : ∀ a0 a1 a2 a3 a4 (a5 : State), z.Keeps a5 → OutKeeps z (execMemoryRequest a0 a1 a2 a3 a4 a5) := by
  intro a0 a1 a2 a3 a4 a5 h
  unfold execMemoryRequest
  repeat' first
    | with_reducible assumption
    | intro y
    | (extract_lets +onlyGivenNames x
       first
       | (first | refine State.Keeps.letH (z := z) (x := x) ?_ ?_ | refine State.Keeps.letF (z := z) (x := x) ?_ ?_
          unfold x; clear x; rotate_left; clear_value x; intro; rotate_right)
       | clear_value x
       | skip)
    | with_reducible apply OutKeeps.next
    | with_reducible apply State.updDie_keeps
    | with_reducible apply State.write_keeps
    | with_reducible apply State.stopFault_keeps
    | with_reducible apply State.countWrites_keeps
    | with_reducible apply State.askUnits_keeps
    | with_reducible apply State.Keeps.foldl
    | with_reducible apply State.Keeps.foldlProd
    | with_reducible apply State.Keeps.foldlSnd
    | simp -zeta -zetaDelta only [State.Keeps.mk_iff, State.Keeps.mk_flash]
    | split
    | with_reducible apply_assumption

theorem execMemoryReadReturn_keeps : ∀ d e (s : State), z.Keeps s → OutKeeps z (execMemoryReadReturn d e s) := by
  intro d e s h
  unfold execMemoryReadReturn
  split
  · exact .next h
  · rename_i q rest hq
    generalize hs : s.updDie d _ = t
    have ht : z.Keeps t := hs ▸ State.updDie_keeps _ _ _ h
    extract_lets s' c first step
    have hstep : ∀ l : List (CwSeen × Nat), z.Keeps (l.foldl step (([], []), s')).2 := fun l =>
      State.Keeps.foldlSnd ht fun p i hp => State.readCodeword_keeps _ _ _ _ _ _ hp
    replace hstep := hstep q.seen.zipIdx
    generalize q.seen.zipIdx.foldl step (([], []), s') = p at hstep ⊢
    clear_value c step first
    obtain ⟨⟨bytes, marks⟩, u⟩ := p
    dsimp only at hstep ⊢
    repeat' first
      | with_reducible assumption
      | with_reducible apply OutKeeps.next
      | with_reducible apply State.updDie_keeps
      | with_reducible apply State.measure_keeps
      | with_reducible apply State.kill_keeps
      | with_reducible apply State.orVerdict_keeps
      | (extract_lets +onlyGivenNames x
         refine State.Keeps.letH (z := z) (x := x) ?_ ?_
         unfold x; clear x
         rotate_left
         clear_value x; intro hx
         rotate_right)
      | split

theorem runRowRepair_keeps : ∀ a0 a1 a2 a3 a4 a5 (a6 : State), z.Keeps a6 → OutKeeps z (runRowRepair a0 a1 a2 a3 a4 a5 a6) := by
  intro a0 a1 a2 a3 a4 a5 a6 h
  unfold runRowRepair
  repeat' first
    | with_reducible assumption
    | intro y
    | (extract_lets +onlyGivenNames x
       first
       | (first | refine State.Keeps.letH (z := z) (x := x) ?_ ?_ | refine State.Keeps.letF (z := z) (x := x) ?_ ?_
          unfold x; clear x; rotate_left; clear_value x; intro; rotate_right)
       | clear_value x
       | skip)
    | with_reducible apply OutKeeps.next
    | with_reducible apply State.updDie_keeps
    | with_reducible apply State.granule_keeps
    | with_reducible apply State.deliverCw_keeps
    | with_reducible apply State.judgeCapacity_keeps
    | with_reducible apply State.count_keeps
    | with_reducible apply State.event_keeps
    | with_reducible apply State.Keeps.foldl
    | with_reducible apply State.Keeps.foldlProd
    | with_reducible apply State.Keeps.foldlSnd
    | simp -zeta -zetaDelta only [State.Keeps.mk_iff, State.Keeps.mk_flash]
    | split

theorem execRowRepair_keeps : ∀ a0 a1 a2 a3 a4 a5 (a6 : State), z.Keeps a6 → OutKeeps z (execRowRepair a0 a1 a2 a3 a4 a5 a6) := by
  intro a0 a1 a2 a3 a4 a5 a6 h
  unfold execRowRepair
  repeat' first
    | with_reducible assumption
    | intro y
    | (extract_lets +onlyGivenNames x
       first
       | (first | refine State.Keeps.letH (z := z) (x := x) ?_ ?_ | refine State.Keeps.letF (z := z) (x := x) ?_ ?_
          unfold x; clear x; rotate_left; clear_value x; intro; rotate_right)
       | clear_value x
       | skip)
    | with_reducible apply OutKeeps.next
    | with_reducible apply background_keeps
    | with_reducible apply runRowRepair_keeps
    | with_reducible apply State.Keeps.foldl
    | with_reducible apply State.Keeps.foldlProd
    | with_reducible apply State.Keeps.foldlSnd
    | simp -zeta -zetaDelta only [State.Keeps.mk_iff, State.Keeps.mk_flash]
    | split

theorem State.retirePage_keeps : ∀ (a0 : State) a1 a2 a3, z.Keeps a0 → z.Keeps (State.retirePage a0 a1 a2 a3) := by
  intro a0 a1 a2 a3 h
  unfold State.retirePage
  repeat' first
    | with_reducible assumption
    | (extract_lets +onlyGivenNames x
       first
       | (first | refine State.Keeps.letH (z := z) (x := x) ?_ ?_ | refine State.Keeps.letF (z := z) (x := x) ?_ ?_
          unfold x; clear x; rotate_left; clear_value x; intro; rotate_right)
       | clear_value x
       | skip)
    | with_reducible apply State.updDie_keeps
    | with_reducible apply State.count_keeps
    | with_reducible apply State.granule_keeps
    | with_reducible apply State.event_keeps
    | with_reducible apply State.judgeCapacity_keeps
    | with_reducible apply State.geometryChange_keeps
    | simp -zeta -zetaDelta only [State.Keeps.mk_iff, State.Keeps.mk_flash]

theorem runPageRetirement_keeps : ∀ a0 a1 (a2 : State), z.Keeps a2 → OutKeeps z (runPageRetirement a0 a1 a2) := by
  intro a0 a1 a2 h
  unfold runPageRetirement
  repeat' first
    | with_reducible assumption
    | intro y
    | (extract_lets +onlyGivenNames x
       first
       | (first | refine State.Keeps.letH (z := z) (x := x) ?_ ?_ | refine State.Keeps.letF (z := z) (x := x) ?_ ?_
          unfold x; clear x; rotate_left; clear_value x; intro; rotate_right)
       | clear_value x
       | skip)
    | with_reducible apply OutKeeps.next
    | with_reducible apply State.retirePage_keeps
    | with_reducible apply State.Keeps.foldl
    | with_reducible apply State.Keeps.foldlProd
    | with_reducible apply State.Keeps.foldlSnd
    | simp -zeta -zetaDelta only [State.Keeps.mk_iff, State.Keeps.mk_flash]
    | split

theorem execPageRetirement_keeps : ∀ a0 a1 (a2 : State), z.Keeps a2 → OutKeeps z (execPageRetirement a0 a1 a2) := by
  intro a0 a1 a2 h
  unfold execPageRetirement
  repeat' first
    | with_reducible assumption
    | intro y
    | (extract_lets +onlyGivenNames x
       first
       | (first | refine State.Keeps.letH (z := z) (x := x) ?_ ?_ | refine State.Keeps.letF (z := z) (x := x) ?_ ?_
          unfold x; clear x; rotate_left; clear_value x; intro; rotate_right)
       | clear_value x
       | skip)
    | with_reducible apply OutKeeps.next
    | with_reducible apply runPageRetirement_keeps
    | with_reducible apply background_keeps
    | with_reducible apply State.Keeps.foldl
    | with_reducible apply State.Keeps.foldlProd
    | with_reducible apply State.Keeps.foldlSnd
    | simp -zeta -zetaDelta only [State.Keeps.mk_iff, State.Keeps.mk_flash]
    | split

theorem runScrubGranule_keeps : ∀ a0 a1 (a2 : State), z.Keeps a2 → OutKeeps z (runScrubGranule a0 a1 a2) := by
  intro a0 a1 a2 h
  unfold runScrubGranule
  repeat' first
    | with_reducible assumption
    | intro y
    | (extract_lets +onlyGivenNames x
       first
       | (first | refine State.Keeps.letH (z := z) (x := x) ?_ ?_ | refine State.Keeps.letF (z := z) (x := x) ?_ ?_
          unfold x; clear x; rotate_left; clear_value x; intro; rotate_right)
       | clear_value x
       | skip)
    | with_reducible apply OutKeeps.next
    | with_reducible apply State.updDie_keeps
    | with_reducible apply State.granule_keeps
    | with_reducible apply State.deliverCw_keeps
    | with_reducible apply State.Keeps.foldl
    | with_reducible apply State.Keeps.foldlProd
    | with_reducible apply State.Keeps.foldlSnd
    | simp -zeta -zetaDelta only [State.Keeps.mk_iff, State.Keeps.mk_flash]
    | split

theorem execScrubGranule_keeps : ∀ a0 a1 (a2 : State), z.Keeps a2 → OutKeeps z (execScrubGranule a0 a1 a2) := by
  intro a0 a1 a2 h
  unfold execScrubGranule
  repeat' first
    | with_reducible assumption
    | intro y
    | (extract_lets +onlyGivenNames x
       first
       | (first | refine State.Keeps.letH (z := z) (x := x) ?_ ?_ | refine State.Keeps.letF (z := z) (x := x) ?_ ?_
          unfold x; clear x; rotate_left; clear_value x; intro; rotate_right)
       | clear_value x
       | skip)
    | with_reducible apply OutKeeps.next
    | with_reducible apply background_keeps
    | with_reducible apply runScrubGranule_keeps
    | with_reducible apply State.Keeps.foldl
    | with_reducible apply State.Keeps.foldlProd
    | with_reducible apply State.Keeps.foldlSnd
    | simp -zeta -zetaDelta only [State.Keeps.mk_iff, State.Keeps.mk_flash]
    | split

theorem execRetrainStart_keeps : ∀ a0 a1 a2 (a3 : State), z.Keeps a3 → OutKeeps z (execRetrainStart a0 a1 a2 a3) := by
  intro a0 a1 a2 a3 h
  unfold execRetrainStart
  repeat' first
    | with_reducible assumption
    | (extract_lets +onlyGivenNames x
       first
       | (first | refine State.Keeps.letH (z := z) (x := x) ?_ ?_ | refine State.Keeps.letF (z := z) (x := x) ?_ ?_
          unfold x; clear x; rotate_left; clear_value x; intro; rotate_right)
       | clear_value x
       | skip)
    | with_reducible apply OutKeeps.next
    | with_reducible apply State.granule_keeps
    | with_reducible apply State.updDie_keeps
    | split

theorem State.marginRecord_keeps : ∀ (a0 : State) a1 a2 a3 a4 a5 a6, z.Keeps a0 → z.Keeps (State.marginRecord a0 a1 a2 a3 a4 a5 a6) := by
  intro a0 a1 a2 a3 a4 a5 a6 h
  unfold State.marginRecord
  repeat' first
    | with_reducible assumption
    | (extract_lets +onlyGivenNames x
       first
       | (first | refine State.Keeps.letH (z := z) (x := x) ?_ ?_ | refine State.Keeps.letF (z := z) (x := x) ?_ ?_
          unfold x; clear x; rotate_left; clear_value x; intro; rotate_right)
       | clear_value x
       | skip)
    | with_reducible apply State.log_keeps

theorem State.keepErasure_keeps : ∀ (a0 : State) a1 a2 a3 a4, z.Keeps a0 → z.Keeps (State.keepErasure a0 a1 a2 a3 a4) := by
  intro a0 a1 a2 a3 a4 h
  unfold State.keepErasure
  repeat' first
    | with_reducible assumption
    | (extract_lets +onlyGivenNames x
       first
       | (first | refine State.Keeps.letH (z := z) (x := x) ?_ ?_ | refine State.Keeps.letF (z := z) (x := x) ?_ ?_
          unfold x; clear x; rotate_left; clear_value x; intro; rotate_right)
       | clear_value x
       | skip)
    | with_reducible apply State.updDie_keeps
    | with_reducible apply State.judgeCapacity_keeps
    | with_reducible apply State.event_keeps
    | split

theorem runRetrainDone_keeps : ∀ a0 a1 a2 (a3 : State), z.Keeps a3 → OutKeeps z (runRetrainDone a0 a1 a2 a3) := by
  intro a0 a1 a2 a3 h
  unfold runRetrainDone
  repeat' first
    | with_reducible assumption
    | intro y
    | (extract_lets +onlyGivenNames x
       first
       | (first | refine State.Keeps.letH (z := z) (x := x) ?_ ?_ | refine State.Keeps.letF (z := z) (x := x) ?_ ?_
          unfold x; clear x; rotate_left; clear_value x; intro; rotate_right)
       | clear_value x
       | skip)
    | with_reducible apply OutKeeps.next
    | with_reducible apply State.keepErasure_keeps
    | with_reducible apply State.updDie_keeps
    | with_reducible apply State.marginRecord_keeps
    | with_reducible apply State.erasePin_keeps
    | with_reducible apply State.count_keeps
    | with_reducible apply State.Keeps.foldl
    | with_reducible apply State.Keeps.foldlProd
    | with_reducible apply State.Keeps.foldlSnd
    | simp -zeta -zetaDelta only [State.Keeps.mk_iff, State.Keeps.mk_flash]
    | split

theorem execRetrainDone_keeps : ∀ a0 a1 a2 (a3 : State), z.Keeps a3 → OutKeeps z (execRetrainDone a0 a1 a2 a3) := by
  intro a0 a1 a2 a3 h
  unfold execRetrainDone
  repeat' first
    | with_reducible assumption
    | intro y
    | (extract_lets +onlyGivenNames x
       first
       | (first | refine State.Keeps.letH (z := z) (x := x) ?_ ?_ | refine State.Keeps.letF (z := z) (x := x) ?_ ?_
          unfold x; clear x; rotate_left; clear_value x; intro; rotate_right)
       | clear_value x
       | skip)
    | with_reducible apply OutKeeps.next
    | with_reducible apply runRetrainDone_keeps
    | with_reducible apply background_keeps
    | with_reducible apply State.Keeps.foldl
    | with_reducible apply State.Keeps.foldlProd
    | with_reducible apply State.Keeps.foldlSnd
    | simp -zeta -zetaDelta only [State.Keeps.mk_iff, State.Keeps.mk_flash]
    | split

theorem execStallWindow_keeps : ∀ a0 a1 (a2 : State), z.Keeps a2 → OutKeeps z (execStallWindow a0 a1 a2) := by
  intro a0 a1 a2 h
  unfold execStallWindow
  repeat' first
    | with_reducible assumption
    | intro y
    | (extract_lets +onlyGivenNames x
       first
       | (first | refine State.Keeps.letH (z := z) (x := x) ?_ ?_ | refine State.Keeps.letF (z := z) (x := x) ?_ ?_
          unfold x; clear x; rotate_left; clear_value x; intro; rotate_right)
       | clear_value x
       | skip)
    | with_reducible apply OutKeeps.next
    | with_reducible apply State.draw_keeps
    | with_reducible apply State.updDie_keeps
    | with_reducible apply State.count_keeps
    | with_reducible apply State.Keeps.foldl
    | simp -zeta -zetaDelta only [State.Keeps.mk_iff, State.Keeps.mk_flash]
    | split

theorem State.hostPiece_keeps : ∀ (a0 : State) a1 a2 a3 a4, z.Keeps a0 → z.Keeps (State.hostPiece a0 a1 a2 a3 a4).2 := by
  intro a0 a1 a2 a3 a4 h
  unfold State.hostPiece
  repeat' first
    | with_reducible assumption
    | intro y
    | (extract_lets +onlyGivenNames x
       first
       | (first | refine State.Keeps.letH (z := z) (x := x) ?_ ?_ | refine State.Keeps.letF (z := z) (x := x) ?_ ?_
          unfold x; clear x; rotate_left; clear_value x; intro; rotate_right)
       | clear_value x
       | skip)
    | with_reducible apply State.deliverCw_keeps
    | with_reducible apply State.write_keeps
    | with_reducible apply State.countWrites_keeps
    | with_reducible apply State.askUnits_keeps
    | with_reducible apply State.Keeps.foldl
    | with_reducible apply State.Keeps.foldlProd
    | with_reducible apply State.Keeps.foldlSnd
    | simp -zeta -zetaDelta only [State.Keeps.mk_iff, State.Keeps.mk_flash]
    | split

theorem execHostMemAccess_keeps : ∀ a0 a1 a2 (a3 : State), z.Keeps a3 → OutKeeps z (execHostMemAccess a0 a1 a2 a3) := by
  intro a0 a1 a2 a3 h
  unfold execHostMemAccess
  extract_lets n one
  have hf : z.Keeps ((cwPieces a0 n).foldl one (([], false), a3)).2 :=
    State.Keeps.foldlSnd h fun p e hp => State.hostPiece_keeps _ _ _ _ _ hp
  split
  · exact .next h
  · split
    rename_i bytes mark t ht
    rw [ht] at hf
    split
    · exact .next (by simpa only [State.Keeps.mk_iff] using hf)
    · exact .next hf

end Sys2Proof.Machine
end

