-- ==== Sys2Proof/Laws/KeepsIntegrity.lean ====
section
/-! SUPPORT. What Machine/Integrity.lean keeps: one lemma an operation. -/
namespace Sys2Proof.Machine
set_option linter.all false

variable {z : State}

theorem execLockstepMismatch_keeps : ∀ a0 (a1 : State), z.Keeps a1 → OutKeeps z (execLockstepMismatch a0 a1) := by
  intro a0 a1 h
  unfold execLockstepMismatch
  repeat' first
    | with_reducible assumption
    | (extract_lets +onlyGivenNames x
       first
       | (first | refine State.Keeps.letH (z := z) (x := x) ?_ ?_ | refine State.Keeps.letF (z := z) (x := x) ?_ ?_
          unfold x; clear x; rotate_left; clear_value x; intro; rotate_right)
       | clear_value x
       | skip)
    | with_reducible apply OutKeeps.next
    | with_reducible apply State.deviceFaultNow_keeps
    | split

theorem execWatchdogExpiry_keeps : ∀ a0 (a1 : State), z.Keeps a1 → OutKeeps z (execWatchdogExpiry a0 a1) := by
  intro a0 a1 h
  unfold execWatchdogExpiry
  repeat' first
    | with_reducible assumption
    | (extract_lets +onlyGivenNames x
       first
       | (first | refine State.Keeps.letH (z := z) (x := x) ?_ ?_ | refine State.Keeps.letF (z := z) (x := x) ?_ ?_
          unfold x; clear x; rotate_left; clear_value x; intro; rotate_right)
       | clear_value x
       | skip)
    | with_reducible apply OutKeeps.next
    | with_reducible apply State.deviceFaultNow_keeps
    | split

theorem State.captureRecord_keeps : ∀ (a0 : State) a1 a2 a3, z.Keeps a0 → z.Keeps (State.captureRecord a0 a1 a2 a3) := by
  intro a0 a1 a2 a3 h
  unfold State.captureRecord
  repeat' first
    | with_reducible assumption
    | with_reducible apply State.logDevice_keeps

theorem runCaptureWrite_keeps : ∀ a0 (a1 : State), z.Keeps a1 → OutKeeps z (runCaptureWrite a0 a1) := by
  intro a0 a1 h
  unfold runCaptureWrite
  repeat' first
    | with_reducible assumption
    | (extract_lets +onlyGivenNames x
       first
       | (first | refine State.Keeps.letH (z := z) (x := x) ?_ ?_ | refine State.Keeps.letF (z := z) (x := x) ?_ ?_
          unfold x; clear x; rotate_left; clear_value x; intro; rotate_right)
       | clear_value x
       | skip)
    | simp -zetaDelta only [State.Keeps.mk_flash]
    | with_reducible apply OutKeeps.next
    | with_reducible apply State.captureRecord_keeps
    | with_reducible apply State.updDie_keeps
    | with_reducible apply State.granule_keeps
    | split

theorem execCaptureWrite_keeps : ∀ a0 (a1 : State), z.Keeps a1 → OutKeeps z (execCaptureWrite a0 a1) := by
  intro a0 a1 h
  unfold execCaptureWrite
  repeat' first
    | with_reducible assumption
    | intro y
    | (extract_lets +onlyGivenNames x
       first
       | (first | refine State.Keeps.letH (z := z) (x := x) ?_ ?_ | refine State.Keeps.letF (z := z) (x := x) ?_ ?_
          unfold x; clear x; rotate_left; clear_value x; intro; rotate_right)
       | clear_value x
       | skip)
    | with_reducible apply OutKeeps.next
    | with_reducible apply runCaptureWrite_keeps
    | with_reducible apply background_keeps
    | with_reducible apply State.Keeps.foldl
    | with_reducible apply State.Keeps.foldlProd
    | with_reducible apply State.Keeps.foldlSnd
    | simp -zeta -zetaDelta only [State.Keeps.mk_iff, State.Keeps.mk_flash]
    | split

theorem runSpareTest_keeps : ∀ a0 a1 (a2 : State), z.Keeps a2 → OutKeeps z (runSpareTest a0 a1 a2) := by
  intro a0 a1 a2 h
  unfold runSpareTest
  repeat' first
    | with_reducible assumption
    | intro y
    | (extract_lets +onlyGivenNames x
       first
       | (first | refine State.Keeps.letH (z := z) (x := x) ?_ ?_ | refine State.Keeps.letF (z := z) (x := x) ?_ ?_
          unfold x; clear x; rotate_left; clear_value x; intro; rotate_right)
       | clear_value x
       | skip)
    | with_reducible apply OutKeeps.next
    | with_reducible apply State.arrayEvent_keeps
    | with_reducible apply State.updDie_keeps
    | with_reducible apply State.judgeIntegrity_keeps
    | with_reducible apply State.enterSpare_keeps
    | with_reducible apply State.Keeps.foldl
    | with_reducible apply State.Keeps.foldlProd
    | with_reducible apply State.Keeps.foldlSnd
    | simp -zeta -zetaDelta only [State.Keeps.mk_iff, State.Keeps.mk_flash]
    | split

theorem execSpareTest_keeps : ∀ a0 a1 (a2 : State), z.Keeps a2 → OutKeeps z (execSpareTest a0 a1 a2) := by
  intro a0 a1 a2 h
  unfold execSpareTest
  repeat' first
    | with_reducible assumption
    | intro y
    | (extract_lets +onlyGivenNames x
       first
       | (first | refine State.Keeps.letH (z := z) (x := x) ?_ ?_ | refine State.Keeps.letF (z := z) (x := x) ?_ ?_
          unfold x; clear x; rotate_left; clear_value x; intro; rotate_right)
       | clear_value x
       | skip)
    | with_reducible apply OutKeeps.next
    | with_reducible apply runSpareTest_keeps
    | with_reducible apply background_keeps
    | with_reducible apply State.Keeps.foldl
    | with_reducible apply State.Keeps.foldlProd
    | with_reducible apply State.Keeps.foldlSnd
    | simp -zeta -zetaDelta only [State.Keeps.mk_iff, State.Keeps.mk_flash]
    | split

theorem execSpareEnterService_keeps : ∀ a0 (a1 : State), z.Keeps a1 → OutKeeps z (execSpareEnterService a0 a1) := by
  intro a0 a1 h
  unfold execSpareEnterService
  repeat' first
    | with_reducible assumption
    | (extract_lets +onlyGivenNames x
       first
       | (first | refine State.Keeps.letH (z := z) (x := x) ?_ ?_ | refine State.Keeps.letF (z := z) (x := x) ?_ ?_
          unfold x; clear x; rotate_left; clear_value x; intro; rotate_right)
       | clear_value x
       | skip)
    | with_reducible apply OutKeeps.next
    | with_reducible apply State.enterSpare_keeps
    | split

theorem runCheckerSelftest_keeps : ∀ a0 a1 a2 a3 (a4 : State), z.Keeps a4 → OutKeeps z (runCheckerSelftest a0 a1 a2 a3 a4) := by
  intro a0 a1 a2 a3 a4 h
  unfold runCheckerSelftest
  repeat' first
    | with_reducible assumption
    | intro y
    | (extract_lets +onlyGivenNames x
       first
       | (first | refine State.Keeps.letH (z := z) (x := x) ?_ ?_ | refine State.Keeps.letF (z := z) (x := x) ?_ ?_
          unfold x; clear x; rotate_left; clear_value x; intro; rotate_right)
       | clear_value x
       | skip)
    | with_reducible apply OutKeeps.next
    | with_reducible apply State.granule_keeps
    | with_reducible apply State.failChecker_keeps
    | with_reducible apply State.retireArray_keeps
    | with_reducible apply State.count_keeps
    | with_reducible apply State.Keeps.foldl
    | with_reducible apply State.Keeps.foldlProd
    | with_reducible apply State.Keeps.foldlSnd
    | simp -zeta -zetaDelta only [State.Keeps.mk_iff, State.Keeps.mk_flash]
    | split

theorem execCheckerSelftest_keeps : ∀ a0 a1 a2 a3 (a4 : State), z.Keeps a4 → OutKeeps z (execCheckerSelftest a0 a1 a2 a3 a4) := by
  intro a0 a1 a2 a3 a4 h
  unfold execCheckerSelftest
  repeat' first
    | with_reducible assumption
    | intro y
    | (extract_lets +onlyGivenNames x
       first
       | (first | refine State.Keeps.letH (z := z) (x := x) ?_ ?_ | refine State.Keeps.letF (z := z) (x := x) ?_ ?_
          unfold x; clear x; rotate_left; clear_value x; intro; rotate_right)
       | clear_value x
       | skip)
    | with_reducible apply OutKeeps.next
    | with_reducible apply background_keeps
    | with_reducible apply runCheckerSelftest_keeps
    | with_reducible apply State.Keeps.foldl
    | with_reducible apply State.Keeps.foldlProd
    | with_reducible apply State.Keeps.foldlSnd
    | simp -zeta -zetaDelta only [State.Keeps.mk_iff, State.Keeps.mk_flash]
    | split

theorem runGambitRun_keeps : ∀ a0 a1 a2 a3 a4 a5 (a6 : State), z.Keeps a6 → OutKeeps z (runGambitRun a0 a1 a2 a3 a4 a5 a6) := by
  intro a0 a1 a2 a3 a4 a5 a6 h
  unfold runGambitRun
  repeat' first
    | with_reducible assumption
    | intro y
    | (extract_lets +onlyGivenNames x
       first
       | (first | refine State.Keeps.letH (z := z) (x := x) ?_ ?_ | refine State.Keeps.letF (z := z) (x := x) ?_ ?_
          unfold x; clear x; rotate_left; clear_value x; intro; rotate_right)
       | clear_value x
       | skip)
    | with_reducible apply OutKeeps.next
    | with_reducible apply State.granule_keeps
    | with_reducible apply State.noteMismatch_keeps
    | with_reducible apply State.failChecker_keeps
    | with_reducible apply State.gambitRecord_keeps
    | with_reducible apply State.runVector_keeps
    | with_reducible apply State.retireArray_keeps
    | with_reducible apply State.count_keeps
    | with_reducible apply State.Keeps.foldl
    | with_reducible apply State.Keeps.foldlProd
    | with_reducible apply State.Keeps.foldlSnd
    | simp -zeta -zetaDelta only [State.Keeps.mk_iff, State.Keeps.mk_flash]
    | split

theorem execGambitRun_keeps : ∀ a0 a1 a2 a3 a4 a5 (a6 : State), z.Keeps a6 → OutKeeps z (execGambitRun a0 a1 a2 a3 a4 a5 a6) := by
  intro a0 a1 a2 a3 a4 a5 a6 h
  unfold execGambitRun
  repeat' first
    | with_reducible assumption
    | intro y
    | (extract_lets +onlyGivenNames x
       first
       | (first | refine State.Keeps.letH (z := z) (x := x) ?_ ?_ | refine State.Keeps.letF (z := z) (x := x) ?_ ?_
          unfold x; clear x; rotate_left; clear_value x; intro; rotate_right)
       | clear_value x
       | skip)
    | with_reducible apply OutKeeps.next
    | with_reducible apply runGambitRun_keeps
    | with_reducible apply background_keeps
    | with_reducible apply State.Keeps.foldl
    | with_reducible apply State.Keeps.foldlProd
    | with_reducible apply State.Keeps.foldlSnd
    | simp -zeta -zetaDelta only [State.Keeps.mk_iff, State.Keeps.mk_flash]
    | split

theorem State.takeArray_keeps : ∀ (a0 : State) a1 a2, z.Keeps a0 → z.Keeps (State.takeArray a0 a1 a2) := by
  intro a0 a1 a2 h
  unfold State.takeArray
  repeat' first
    | with_reducible assumption
    | (extract_lets +onlyGivenNames x
       first
       | (first | refine State.Keeps.letH (z := z) (x := x) ?_ ?_ | refine State.Keeps.letF (z := z) (x := x) ?_ ?_
          unfold x; clear x; rotate_left; clear_value x; intro; rotate_right)
       | clear_value x
       | skip)
    | with_reducible apply State.geometryChange_keeps
    | with_reducible apply State.updDie_keeps
    | with_reducible apply State.saveAccs_keeps

theorem State.giveArray_keeps : ∀ (a0 : State) a1 a2, z.Keeps a0 → z.Keeps (State.giveArray a0 a1 a2) := by
  intro a0 a1 a2 h
  unfold State.giveArray
  repeat' first
    | with_reducible assumption
    | (extract_lets +onlyGivenNames x
       first
       | (first | refine State.Keeps.letH (z := z) (x := x) ?_ ?_ | refine State.Keeps.letF (z := z) (x := x) ?_ ?_
          unfold x; clear x; rotate_left; clear_value x; intro; rotate_right)
       | clear_value x
       | skip)
    | with_reducible apply State.geometryChange_keeps
    | with_reducible apply State.updDie_keeps

theorem execQuietWorkStart_keeps : ∀ a0 a1 a2 a3 (a4 : State), z.Keeps a4 → OutKeeps z (execQuietWorkStart a0 a1 a2 a3 a4) := by
  intro a0 a1 a2 a3 a4 h
  unfold execQuietWorkStart
  repeat' first
    | with_reducible assumption
    | intro y
    | (extract_lets +onlyGivenNames x
       first
       | (first | refine State.Keeps.letH (z := z) (x := x) ?_ ?_ | refine State.Keeps.letF (z := z) (x := x) ?_ ?_
          unfold x; clear x; rotate_left; clear_value x; intro; rotate_right)
       | clear_value x
       | skip)
    | with_reducible apply OutKeeps.next
    | with_reducible apply State.takeArray_keeps
    | with_reducible apply State.updDie_keeps
    | with_reducible apply State.Keeps.foldl
    | split

theorem State.workResult_keeps : ∀ (a0 : State) a1 a2 a3 a4, z.Keeps a0 → z.Keeps (State.workResult a0 a1 a2 a3 a4) := by
  intro a0 a1 a2 a3 a4 h
  unfold State.workResult
  repeat' first
    | with_reducible assumption
    | intro y
    | (extract_lets +onlyGivenNames x
       first
       | (first | refine State.Keeps.letH (z := z) (x := x) ?_ ?_ | refine State.Keeps.letF (z := z) (x := x) ?_ ?_
          unfold x; clear x; rotate_left; clear_value x; intro; rotate_right)
       | clear_value x
       | skip)
    | with_reducible apply State.noteMismatch_keeps
    | with_reducible apply State.judgeIntegrity_keeps
    | with_reducible apply State.updDie_keeps
    | with_reducible apply State.Keeps.foldl
    | split

theorem execQuietWorkDone_keeps : ∀ a0 a1 a2 (a3 : State), z.Keeps a3 → OutKeeps z (execQuietWorkDone a0 a1 a2 a3) := by
  intro a0 a1 a2 a3 h
  unfold execQuietWorkDone
  repeat' first
    | with_reducible assumption
    | intro y
    | (extract_lets +onlyGivenNames x
       first
       | (first | refine State.Keeps.letH (z := z) (x := x) ?_ ?_ | refine State.Keeps.letF (z := z) (x := x) ?_ ?_
          unfold x; clear x; rotate_left; clear_value x; intro; rotate_right)
       | clear_value x
       | skip)
    | with_reducible apply OutKeeps.next
    | with_reducible apply State.workResult_keeps
    | with_reducible apply State.giveArray_keeps
    | with_reducible apply State.updDie_keeps
    | with_reducible apply State.Keeps.foldl
    | split

theorem execQuietWindowEnd_keeps : ∀ a0 (a1 : State), z.Keeps a1 → OutKeeps z (execQuietWindowEnd a0 a1) := by
  intro a0 a1 h
  unfold execQuietWindowEnd
  repeat' first
    | with_reducible assumption
    | (extract_lets +onlyGivenNames x
       first
       | (first | refine State.Keeps.letH (z := z) (x := x) ?_ ?_ | refine State.Keeps.letF (z := z) (x := x) ?_ ?_
          unfold x; clear x; rotate_left; clear_value x; intro; rotate_right)
       | clear_value x
       | skip)
    | with_reducible apply OutKeeps.next
    | with_reducible apply State.updCtx_keeps

theorem execArrayBorrow_keeps : ∀ a0 a1 a2 (a3 : State), z.Keeps a3 → OutKeeps z (execArrayBorrow a0 a1 a2 a3) := by
  intro a0 a1 a2 a3 h
  unfold execArrayBorrow
  repeat' first
    | with_reducible assumption
    | (extract_lets +onlyGivenNames x
       first
       | (first | refine State.Keeps.letH (z := z) (x := x) ?_ ?_ | refine State.Keeps.letF (z := z) (x := x) ?_ ?_
          unfold x; clear x; rotate_left; clear_value x; intro; rotate_right)
       | clear_value x
       | skip)
    | with_reducible apply OutKeeps.next
    | with_reducible apply State.updDie_keeps
    | with_reducible apply State.count_keeps
    | with_reducible apply State.arrayEvent_keeps
    | with_reducible apply State.takeArray_keeps
    | split

theorem execArrayReturn_keeps : ∀ a0 a1 a2 (a3 : State), z.Keeps a3 → OutKeeps z (execArrayReturn a0 a1 a2 a3) := by
  intro a0 a1 a2 a3 h
  unfold execArrayReturn
  repeat' first
    | with_reducible assumption
    | (extract_lets +onlyGivenNames x
       first
       | (first | refine State.Keeps.letH (z := z) (x := x) ?_ ?_ | refine State.Keeps.letF (z := z) (x := x) ?_ ?_
          unfold x; clear x; rotate_left; clear_value x; intro; rotate_right)
       | clear_value x
       | skip)
    | with_reducible apply OutKeeps.next
    | with_reducible apply State.workResult_keeps
    | with_reducible apply State.arrayEvent_keeps
    | with_reducible apply State.giveArray_keeps
    | with_reducible apply State.updDie_keeps
    | split

theorem execSelftestOverdue_keeps : ∀ a0 a1 a2 a3 (a4 : State), z.Keeps a4 → OutKeeps z (execSelftestOverdue a0 a1 a2 a3 a4) := by
  intro a0 a1 a2 a3 a4 h
  unfold execSelftestOverdue
  repeat' first
    | with_reducible assumption
    | (extract_lets +onlyGivenNames x
       first
       | (first | refine State.Keeps.letH (z := z) (x := x) ?_ ?_ | refine State.Keeps.letF (z := z) (x := x) ?_ ?_
          unfold x; clear x; rotate_left; clear_value x; intro; rotate_right)
       | clear_value x
       | skip)
    | with_reducible apply OutKeeps.next
    | with_reducible apply State.arrayEvent_keeps
    | with_reducible apply State.judgeIntegrity_keeps
    | with_reducible apply State.updDie_keeps
    | split

theorem State.cappingEpisode_keeps : ∀ (a0 : State), z.Keeps a0 → z.Keeps (State.cappingEpisode a0) := by
  intro a0 h
  unfold State.cappingEpisode
  repeat' first
    | with_reducible assumption
    | (extract_lets +onlyGivenNames x
       first
       | (first | refine State.Keeps.letH (z := z) (x := x) ?_ ?_ | refine State.Keeps.letF (z := z) (x := x) ?_ ?_
          unfold x; clear x; rotate_left; clear_value x; intro; rotate_right)
       | clear_value x
       | skip)
    | simp -zeta -zetaDelta only [State.Keeps.mk_iff, State.Keeps.mk_flash]
    | split

theorem State.adaptVoltage_keeps : ∀ (a0 : State) a1 a2, z.Keeps a0 → z.Keeps (State.adaptVoltage a0 a1 a2) := by
  intro a0 a1 a2 h
  unfold State.adaptVoltage
  repeat' first
    | with_reducible assumption
    | (extract_lets +onlyGivenNames x
       first
       | (first | refine State.Keeps.letH (z := z) (x := x) ?_ ?_ | refine State.Keeps.letF (z := z) (x := x) ?_ ?_
          unfold x; clear x; rotate_left; clear_value x; intro; rotate_right)
       | clear_value x
       | skip)
    | with_reducible apply State.cappingEpisode_keeps
    | with_reducible apply State.updDie_keeps
    | split

theorem runMarginSweepDone_keeps : ∀ a0 a1 a2 a3 (a4 : State), z.Keeps a4 → OutKeeps z (runMarginSweepDone a0 a1 a2 a3 a4) := by
  intro a0 a1 a2 a3 a4 h
  unfold runMarginSweepDone
  repeat' first
    | with_reducible assumption
    | intro y
    | (extract_lets +onlyGivenNames x
       first
       | (first | refine State.Keeps.letH (z := z) (x := x) ?_ ?_ | refine State.Keeps.letF (z := z) (x := x) ?_ ?_
          unfold x; clear x; rotate_left; clear_value x; intro; rotate_right)
       | clear_value x
       | skip)
    | with_reducible apply OutKeeps.next
    | with_reducible apply State.updDie_keeps
    | with_reducible apply State.marginRecord_keeps
    | with_reducible apply State.adaptVoltage_keeps
    | with_reducible apply State.Keeps.foldl
    | with_reducible apply State.Keeps.foldlProd
    | with_reducible apply State.Keeps.foldlSnd
    | simp -zeta -zetaDelta only [State.Keeps.mk_iff, State.Keeps.mk_flash]
    | split

theorem execMarginSweepDone_keeps : ∀ a0 a1 a2 a3 (a4 : State), z.Keeps a4 → OutKeeps z (execMarginSweepDone a0 a1 a2 a3 a4) := by
  intro a0 a1 a2 a3 a4 h
  unfold execMarginSweepDone
  repeat' first
    | with_reducible assumption
    | intro y
    | (extract_lets +onlyGivenNames x
       first
       | (first | refine State.Keeps.letH (z := z) (x := x) ?_ ?_ | refine State.Keeps.letF (z := z) (x := x) ?_ ?_
          unfold x; clear x; rotate_left; clear_value x; intro; rotate_right)
       | clear_value x
       | skip)
    | with_reducible apply OutKeeps.next
    | with_reducible apply background_keeps
    | with_reducible apply runMarginSweepDone_keeps
    | with_reducible apply State.Keeps.foldl
    | with_reducible apply State.Keeps.foldlProd
    | with_reducible apply State.Keeps.foldlSnd
    | simp -zeta -zetaDelta only [State.Keeps.mk_iff, State.Keeps.mk_flash]
    | split

theorem runLinkEyeScan_keeps : ∀ a0 a1 a2 (a3 : State), z.Keeps a3 → OutKeeps z (runLinkEyeScan a0 a1 a2 a3) := by
  intro a0 a1 a2 a3 h
  unfold runLinkEyeScan
  repeat' first
    | with_reducible assumption
    | intro y
    | (extract_lets +onlyGivenNames x
       first
       | (first | refine State.Keeps.letH (z := z) (x := x) ?_ ?_ | refine State.Keeps.letF (z := z) (x := x) ?_ ?_
          unfold x; clear x; rotate_left; clear_value x; intro; rotate_right)
       | clear_value x
       | skip)
    | with_reducible apply OutKeeps.next
    | with_reducible apply State.granule_keeps
    | with_reducible apply State.marginRecord_keeps
    | with_reducible apply State.Keeps.foldl
    | with_reducible apply State.Keeps.foldlProd
    | with_reducible apply State.Keeps.foldlSnd
    | simp -zeta -zetaDelta only [State.Keeps.mk_iff, State.Keeps.mk_flash]
    | split

theorem execLinkEyeScan_keeps : ∀ a0 a1 a2 (a3 : State), z.Keeps a3 → OutKeeps z (execLinkEyeScan a0 a1 a2 a3) := by
  intro a0 a1 a2 a3 h
  unfold execLinkEyeScan
  repeat' first
    | with_reducible assumption
    | intro y
    | (extract_lets +onlyGivenNames x
       first
       | (first | refine State.Keeps.letH (z := z) (x := x) ?_ ?_ | refine State.Keeps.letF (z := z) (x := x) ?_ ?_
          unfold x; clear x; rotate_left; clear_value x; intro; rotate_right)
       | clear_value x
       | skip)
    | with_reducible apply OutKeeps.next
    | with_reducible apply background_keeps
    | with_reducible apply runLinkEyeScan_keeps
    | with_reducible apply State.Keeps.foldl
    | with_reducible apply State.Keeps.foldlProd
    | with_reducible apply State.Keeps.foldlSnd
    | simp -zeta -zetaDelta only [State.Keeps.mk_iff, State.Keeps.mk_flash]
    | split

end Sys2Proof.Machine
end

