-- ==== Sys2Proof/Laws/KeepsLedger.lean ====
section
/-! SUPPORT. What Machine/Ledger.lean keeps: one lemma an operation. -/
namespace Sys2Proof.Machine
set_option linter.all false

variable {z : State}

theorem State.judgeLedger_keeps : ∀ (a0 : State), z.Keeps a0 → z.Keeps (State.judgeLedger a0) := by
  intro a0 h
  unfold State.judgeLedger
  repeat' first
    | with_reducible assumption
    | (extract_lets +onlyGivenNames x
       first
       | (first | refine State.Keeps.letH (z := z) (x := x) ?_ ?_ | refine State.Keeps.letF (z := z) (x := x) ?_ ?_
          unfold x; clear x; rotate_left; clear_value x; intro; rotate_right)
       | clear_value x
       | skip)
    | with_reducible apply State.logDevice_keeps
    | simp -zeta -zetaDelta only [State.Keeps.mk_iff, State.Keeps.mk_flash]
    | split

theorem State.push_keeps : ∀ (a0 : State) a1 a2, z.Keeps a0 → z.Keeps (State.push a0 a1 a2) := by
  intro a0 a1 a2 h
  unfold State.push
  repeat' first
    | with_reducible assumption
    | with_reducible apply State.sendRecord_keeps
    | split

theorem State.writeRecord_keeps : ∀ (a0 : State) a1, z.Keeps a0 → z.Keeps (State.writeRecord a0 a1) := by
  intro a0 a1 h
  unfold State.writeRecord
  extract_lets fits b cp b' l b2 cp2 b3 l2
  split
  · apply State.judgeLedger_keeps
    apply State.push_keeps
    exact h.flash rfl rfl (List.prefix_append _ _) id
  · split
    · exact State.count_keeps _ _ _ _ _ _ (by simpa only [State.Keeps.mk_iff] using h)
    · apply State.judgeLedger_keeps
      apply State.push_keeps
      exact h.flash rfl rfl (List.prefix_refl _) id

theorem execLedgerFlashWrite_keeps : ∀ (a0 : State), z.Keeps a0 → OutKeeps z (execLedgerFlashWrite a0) := by
  intro a0 h
  unfold execLedgerFlashWrite
  repeat' first
    | with_reducible assumption
    | (extract_lets +onlyGivenNames x
       first
       | (first | refine State.Keeps.letH (z := z) (x := x) ?_ ?_ | refine State.Keeps.letF (z := z) (x := x) ?_ ?_
          unfold x; clear x; rotate_left; clear_value x; intro; rotate_right)
       | clear_value x
       | skip)
    | with_reducible apply OutKeeps.next
    | with_reducible apply State.granule_keeps
    | with_reducible apply State.writeRecord_keeps
    | simp -zeta -zetaDelta only [State.Keeps.mk_iff, State.Keeps.mk_flash]
    | split

theorem State.flush_keeps : ∀ (n : Nat) (a1 : State), z.Keeps a1 → z.Keeps (State.flush n a1) := by
  intro n
  induction n with
  | zero => intro s h; exact h
  | succ n ih =>
    intro s h
    unfold State.flush
    split
    · exact h
    · exact ih _ (State.writeRecord_keeps _ _ (by simpa only [State.Keeps.mk_iff] using h))

theorem State.flushAll_keeps : ∀ (a0 : State), z.Keeps a0 → z.Keeps (State.flushAll a0) := by
  intro a0 h
  unfold State.flushAll
  repeat' first
    | with_reducible assumption
    | with_reducible apply State.flush_keeps

theorem State.checkpoint_keeps : ∀ (a0 : State) a1, z.Keeps a0 → z.Keeps (State.checkpoint a0 a1) := by
  intro a0 a1 h
  unfold State.checkpoint
  repeat' first
    | with_reducible assumption
    | (extract_lets +onlyGivenNames x
       first
       | (first | refine State.Keeps.letH (z := z) (x := x) ?_ ?_ | refine State.Keeps.letF (z := z) (x := x) ?_ ?_
          unfold x; clear x; rotate_left; clear_value x; intro; rotate_right)
       | clear_value x
       | skip)
    | with_reducible apply State.logDevice_keeps
    | simp -zeta -zetaDelta only [State.Keeps.mk_iff, State.Keeps.mk_flash]

theorem execLedgerCheckpoint_keeps : ∀ (a0 : State), z.Keeps a0 → OutKeeps z (execLedgerCheckpoint a0) := by
  intro a0 h
  unfold execLedgerCheckpoint
  repeat' first
    | with_reducible assumption
    | (extract_lets +onlyGivenNames x
       first
       | (first | refine State.Keeps.letH (z := z) (x := x) ?_ ?_ | refine State.Keeps.letF (z := z) (x := x) ?_ ?_
          unfold x; clear x; rotate_left; clear_value x; intro; rotate_right)
       | clear_value x
       | skip)
    | with_reducible apply OutKeeps.next
    | with_reducible apply State.checkpoint_keeps

theorem execDatagramSend_keeps : ∀ (a0 : State), z.Keeps a0 → OutKeeps z (execDatagramSend a0) := by
  intro a0 h
  unfold execDatagramSend
  repeat' first
    | with_reducible assumption
    | (extract_lets +onlyGivenNames x
       first
       | (first | refine State.Keeps.letH (z := z) (x := x) ?_ ?_ | refine State.Keeps.letF (z := z) (x := x) ?_ ?_
          unfold x; clear x; rotate_left; clear_value x; intro; rotate_right)
       | clear_value x
       | skip)
    | with_reducible apply OutKeeps.next
    | simp -zeta -zetaDelta only [State.Keeps.mk_iff, State.Keeps.mk_flash]
    | split

theorem State.reply_keeps : ∀ (a0 : State) a1 a2, z.Keeps a0 → z.Keeps (State.reply a0 a1 a2) := by
  intro a0 a1 a2 h
  unfold State.reply
  repeat' first
    | with_reducible assumption
    | (extract_lets +onlyGivenNames x
       first
       | (first | refine State.Keeps.letH (z := z) (x := x) ?_ ?_ | refine State.Keeps.letF (z := z) (x := x) ?_ ?_
          unfold x; clear x; rotate_left; clear_value x; intro; rotate_right)
       | clear_value x
       | skip)
    | with_reducible apply State.queueDatagram_keeps
    | simp -zeta -zetaDelta only [State.Keeps.mk_iff, State.Keeps.mk_flash]
    | split

theorem State.replyBytes_keeps : ∀ (a0 : State) a1 a2 a3, z.Keeps a0 → z.Keeps (State.replyBytes a0 a1 a2 a3) := by
  intro a0 a1 a2 a3 h
  unfold State.replyBytes
  repeat' first
    | with_reducible assumption
    | intro y
    | (extract_lets +onlyGivenNames x
       first
       | (first | refine State.Keeps.letH (z := z) (x := x) ?_ ?_ | refine State.Keeps.letF (z := z) (x := x) ?_ ?_
          unfold x; clear x; rotate_left; clear_value x; intro; rotate_right)
       | clear_value x
       | skip)
    | with_reducible apply State.makeDatagram_keeps
    | with_reducible apply State.reply_keeps
    | with_reducible apply State.Keeps.foldl

theorem State.replyRecords_keeps : ∀ (a0 : State) a1 a2 a3, z.Keeps a0 → z.Keeps (State.replyRecords a0 a1 a2 a3) := by
  intro a0 a1 a2 a3 h
  unfold State.replyRecords
  repeat' first
    | with_reducible assumption
    | intro y
    | (extract_lets +onlyGivenNames x
       first
       | (first | refine State.Keeps.letH (z := z) (x := x) ?_ ?_ | refine State.Keeps.letF (z := z) (x := x) ?_ ?_
          unfold x; clear x; rotate_left; clear_value x; intro; rotate_right)
       | clear_value x
       | skip)
    | with_reducible apply State.replyBytes_keeps
    | with_reducible apply State.Keeps.foldl

theorem execLifetimeRecordsRequest_keeps : ∀ a0 a1 (a2 : State), z.Keeps a2 → OutKeeps z (execLifetimeRecordsRequest a0 a1 a2) := by
  intro a0 a1 a2 h
  unfold execLifetimeRecordsRequest
  repeat' first
    | with_reducible assumption
    | (extract_lets +onlyGivenNames x
       first
       | (first | refine State.Keeps.letH (z := z) (x := x) ?_ ?_ | refine State.Keeps.letF (z := z) (x := x) ?_ ?_
          unfold x; clear x; rotate_left; clear_value x; intro; rotate_right)
       | clear_value x
       | skip)
    | with_reducible apply OutKeeps.next
    | with_reducible apply State.replyRecords_keeps
    | split

theorem execRollingRecordsRequest_keeps : ∀ a0 a1 (a2 : State), z.Keeps a2 → OutKeeps z (execRollingRecordsRequest a0 a1 a2) := by
  intro a0 a1 a2 h
  unfold execRollingRecordsRequest
  repeat' first
    | with_reducible assumption
    | (extract_lets +onlyGivenNames x
       first
       | (first | refine State.Keeps.letH (z := z) (x := x) ?_ ?_ | refine State.Keeps.letF (z := z) (x := x) ?_ ?_
          unfold x; clear x; rotate_left; clear_value x; intro; rotate_right)
       | clear_value x
       | skip)
    | with_reducible apply OutKeeps.next
    | with_reducible apply State.replyRecords_keeps
    | split

theorem execHistoryDatagramsRequest_keeps : ∀ a0 a1 (a2 : State), z.Keeps a2 → OutKeeps z (execHistoryDatagramsRequest a0 a1 a2) := by
  intro a0 a1 a2 h
  unfold execHistoryDatagramsRequest
  repeat' first
    | with_reducible assumption
    | intro y
    | (extract_lets +onlyGivenNames x
       first
       | (first | refine State.Keeps.letH (z := z) (x := x) ?_ ?_ | refine State.Keeps.letF (z := z) (x := x) ?_ ?_
          unfold x; clear x; rotate_left; clear_value x; intro; rotate_right)
       | clear_value x
       | skip)
    | with_reducible apply OutKeeps.next
    | with_reducible apply State.reply_keeps
    | with_reducible apply State.Keeps.foldl
    | split

theorem execCaptureSlotRequest_keeps : ∀ a0 a1 (a2 : State), z.Keeps a2 → OutKeeps z (execCaptureSlotRequest a0 a1 a2) := by
  intro a0 a1 a2 h
  unfold execCaptureSlotRequest
  repeat' first
    | with_reducible assumption
    | (extract_lets +onlyGivenNames x
       first
       | (first | refine State.Keeps.letH (z := z) (x := x) ?_ ?_ | refine State.Keeps.letF (z := z) (x := x) ?_ ?_
          unfold x; clear x; rotate_left; clear_value x; intro; rotate_right)
       | clear_value x
       | skip)
    | with_reducible apply OutKeeps.next
    | with_reducible apply State.replyBytes_keeps
    | split

theorem State.exportCapture_keeps : ∀ (a0 : State) a1 a2, z.Keeps a0 → ∀ u, State.exportCapture a0 a1 a2 = some u → z.Keeps u := by
  intro a0 a1 a2 h u e
  unfold State.exportCapture at e
  split at e
  · split at e
    · injection e with e; subst e
      exact State.captureRecord_keeps _ _ _ _ (h.flash rfl rfl (List.prefix_refl _) id)
    · cases e
  · cases e

theorem State.exportCapture_keeps_eq {a0 : State} {a1 a2 u} (h : z.Keeps a0) (e : State.exportCapture a0 a1 a2 = some u) : z.Keeps u := State.exportCapture_keeps a0 a1 a2 h u e

theorem execCaptureExportedRequest_keeps : ∀ a0 a1 (a2 : State), z.Keeps a2 → OutKeeps z (execCaptureExportedRequest a0 a1 a2) := by
  intro a0 a1 a2 h
  unfold execCaptureExportedRequest
  split
  · apply OutKeeps.next
    cases e : a2.exportCapture (fld a1 27 24) (fld a1 255 192) with
    | none => exact h
    | some u => exact State.exportCapture_keeps _ _ _ h u e
  · exact .next h

theorem execCheckpointNowRequest_keeps : ∀ a0 a1 (a2 : State), z.Keeps a2 → OutKeeps z (execCheckpointNowRequest a0 a1 a2) := by
  intro a0 a1 a2 h
  unfold execCheckpointNowRequest
  repeat' first
    | with_reducible assumption
    | (extract_lets +onlyGivenNames x
       first
       | (first | refine State.Keeps.letH (z := z) (x := x) ?_ ?_ | refine State.Keeps.letF (z := z) (x := x) ?_ ?_
          unfold x; clear x; rotate_left; clear_value x; intro; rotate_right)
       | clear_value x
       | skip)
    | with_reducible apply OutKeeps.next
    | with_reducible apply State.checkpoint_keeps
    | split

theorem execMctpGambitInstall_keeps : ∀ a0 (a1 : State), z.Keeps a1 → OutKeeps z (execMctpGambitInstall a0 a1) := by
  intro a0 a1 h
  unfold execMctpGambitInstall
  repeat' first
    | with_reducible assumption
    | (extract_lets +onlyGivenNames x
       first
       | (first | refine State.Keeps.letH (z := z) (x := x) ?_ ?_ | refine State.Keeps.letF (z := z) (x := x) ?_ ?_
          unfold x; clear x; rotate_left; clear_value x; intro; rotate_right)
       | clear_value x
       | skip)
    | with_reducible apply OutKeeps.next
    | with_reducible apply State.installGambit_keeps
    | split

end Sys2Proof.Machine
end

