-- ==== Sys2Proof/Laws/KeepsBoot.lean ====
section
/-! SUPPORT. What Machine/Boot.lean keeps: one lemma an operation. -/
namespace Sys2Proof.Machine
set_option linter.all false

variable {z : State}

theorem State.restart_keeps : ∀ (a0 : State) a1, z.Keeps a0 → z.Keeps (State.restart a0 a1) := by
  intro a0 a1 h
  exact h.mem rfl rfl rfl fun w => ⟨rfl, rfl, w.2.2.1, rfl, rfl⟩

theorem State.deviceReset_keeps : ∀ (a0 : State) a1, z.Keeps a0 → z.Keeps (State.deviceReset a0 a1) := by
  intro a0 a1 h
  unfold State.deviceReset
  repeat' first
    | with_reducible assumption
    | intro y
    | (extract_lets +onlyGivenNames x
       first
       | (first | refine State.Keeps.letH (z := z) (x := x) ?_ ?_ | refine State.Keeps.letF (z := z) (x := x) ?_ ?_
          unfold x; clear x; rotate_left; clear_value x; intro; rotate_right)
       | clear_value x
       | skip)
    | with_reducible apply State.restart_keeps
    | with_reducible apply State.flushAll_keeps
    | with_reducible apply State.Keeps.foldl
    | with_reducible apply State.Keeps.foldlProd
    | with_reducible apply State.Keeps.foldlSnd
    | simp -zeta -zetaDelta only [State.Keeps.mk_iff, State.Keeps.mk_flash]
    | split
    | with_reducible apply_assumption

theorem State.bootStops_keeps : ∀ (a0 : State) a1, z.Keeps a0 → z.Keeps (State.bootStops a0 a1) := by
  intro a0 a1 h
  unfold State.bootStops
  repeat' first
    | with_reducible assumption
    | (extract_lets +onlyGivenNames x
       first
       | (first | refine State.Keeps.letH (z := z) (x := x) ?_ ?_ | refine State.Keeps.letF (z := z) (x := x) ?_ ?_
          unfold x; clear x; rotate_left; clear_value x; intro; rotate_right)
       | clear_value x
       | skip)
    | simp -zeta -zetaDelta only [State.Keeps.mk_iff, State.Keeps.mk_flash]

theorem State.calibrate_keeps : ∀ (a0 : State), z.Keeps a0 → z.Keeps (State.calibrate a0) := by
  intro a0 h
  unfold State.calibrate
  repeat' first
    | with_reducible assumption
    | (extract_lets +onlyGivenNames x
       first
       | (first | refine State.Keeps.letH (z := z) (x := x) ?_ ?_ | refine State.Keeps.letF (z := z) (x := x) ?_ ?_
          unfold x; clear x; rotate_left; clear_value x; intro; rotate_right)
       | clear_value x
       | skip)
    | with_reducible apply State.installCalibration_keeps
    | simp -zeta -zetaDelta only [State.Keeps.mk_iff, State.Keeps.mk_flash]
    | split

theorem State.bootDie_keeps : ∀ (a0 : State) a1, z.Keeps a0 → z.Keeps (State.bootDie a0 a1) := by
  intro a0 a1 h
  unfold State.bootDie
  repeat' first
    | with_reducible assumption
    | (extract_lets +onlyGivenNames x
       first
       | (first | refine State.Keeps.letH (z := z) (x := x) ?_ ?_ | refine State.Keeps.letF (z := z) (x := x) ?_ ?_
          unfold x; clear x; rotate_left; clear_value x; intro; rotate_right)
       | clear_value x
       | skip)
    | with_reducible apply State.updDie_keeps

theorem State.fuseRepairs_keeps : ∀ (a0 : State) a1 a2, z.Keeps a0 → z.Keeps (State.fuseRepairs a0 a1 a2) := by
  intro a0 a1 a2 h
  unfold State.fuseRepairs
  split
  · exact h
  · extract_lets soft f s t
    have hs : z.Keeps s := h.trans ⟨rfl, ⟨rfl, rfl, rfl, rfl, rfl, Nat.le_refl _, List.prefix_append _ _⟩, List.prefix_refl _, id⟩
    exact State.Keeps.foldl (State.updDie_keeps _ _ _ hs) fun u e hu => State.event_keeps _ _ _ _ _ _ hu

theorem State.dropDie_keeps : ∀ (a0 : State) a1 a2, z.Keeps a0 → z.Keeps (State.dropDie a0 a1 a2) := by
  intro a0 a1 a2 h
  unfold State.dropDie
  repeat' first
    | with_reducible assumption
    | (extract_lets +onlyGivenNames x
       first
       | (first | refine State.Keeps.letH (z := z) (x := x) ?_ ?_ | refine State.Keeps.letF (z := z) (x := x) ?_ ?_
          unfold x; clear x; rotate_left; clear_value x; intro; rotate_right)
       | clear_value x
       | skip)
    | with_reducible apply State.updDie_keeps
    | with_reducible apply State.geometryChange_keeps
    | with_reducible apply State.recordFault_keeps
    | simp -zeta -zetaDelta only [State.Keeps.mk_iff, State.Keeps.mk_flash]

theorem State.bootLedger_keeps : ∀ (a0 : State), z.Keeps a0 → z.Keeps (State.bootLedger a0) := by
  intro a0 h
  unfold State.bootLedger
  repeat' first
    | with_reducible assumption
    | (extract_lets +onlyGivenNames x
       first
       | (first | refine State.Keeps.letH (z := z) (x := x) ?_ ?_ | refine State.Keeps.letF (z := z) (x := x) ?_ ?_
          unfold x; clear x; rotate_left; clear_value x; intro; rotate_right)
       | clear_value x
       | skip)
    | with_reducible apply State.logDevice_keeps
    | with_reducible apply State.flushAll_keeps
    | with_reducible apply State.checkpoint_keeps
    | with_reducible apply State.judgeLedger_keeps
    | simp -zeta -zetaDelta only [State.Keeps.mk_iff, State.Keeps.mk_flash]

theorem State.bootLinks_keeps : ∀ (a0 : State) a1, z.Keeps a0 → z.Keeps (State.bootLinks a0 a1) := by
  intro a0 a1 h
  unfold State.bootLinks
  repeat' first
    | with_reducible assumption
    | intro y
    | (extract_lets +onlyGivenNames x
       first
       | (first | refine State.Keeps.letH (z := z) (x := x) ?_ ?_ | refine State.Keeps.letF (z := z) (x := x) ?_ ?_
          unfold x; clear x; rotate_left; clear_value x; intro; rotate_right)
       | clear_value x
       | skip)
    | with_reducible apply State.sayHello_keeps
    | with_reducible apply State.linkRecord_keeps
    | with_reducible apply State.meetHello_keeps
    | with_reducible apply State.judgePort_keeps
    | with_reducible apply State.updLink_keeps
    | with_reducible apply State.Keeps.foldl
    | with_reducible apply State.Keeps.foldlProd
    | with_reducible apply State.Keeps.foldlSnd
    | simp -zeta -zetaDelta only [State.Keeps.mk_iff, State.Keeps.mk_flash]
    | split

theorem State.bootHost_keeps : ∀ (a0 : State) a1, z.Keeps a0 → z.Keeps (State.bootHost a0 a1) := by
  intro a0 a1 h
  unfold State.bootHost
  repeat' first
    | with_reducible assumption
    | (extract_lets +onlyGivenNames x
       first
       | (first | refine State.Keeps.letH (z := z) (x := x) ?_ ?_ | refine State.Keeps.letF (z := z) (x := x) ?_ ?_
          unfold x; clear x; rotate_left; clear_value x; intro; rotate_right)
       | clear_value x
       | skip)
    | with_reducible apply State.logDevice_keeps
    | simp -zeta -zetaDelta only [State.Keeps.mk_iff, State.Keeps.mk_flash]
    | split

theorem State.bootReady_keeps : ∀ (a0 : State), z.Keeps a0 → z.Keeps (State.bootReady a0) := by
  intro a0 h
  exact h.trans ⟨rfl, ⟨rfl, rfl, rfl, rfl, rfl, Nat.le_max_left _ _, List.prefix_refl _⟩, List.prefix_refl _, id⟩

theorem execBoot_keeps : ∀ a0 (a1 : State), z.Keeps a1 → OutKeeps z (execBoot a0 a1) := by
  intro a0 a1 h
  unfold execBoot
  repeat' first
    | with_reducible assumption
    | intro y
    | (extract_lets +onlyGivenNames x
       first
       | (first | refine State.Keeps.letH (z := z) (x := x) ?_ ?_ | refine State.Keeps.letF (z := z) (x := x) ?_ ?_
          unfold x; clear x; rotate_left; clear_value x; intro; rotate_right)
       | clear_value x
       | skip)
    | with_reducible apply OutKeeps.next
    | with_reducible apply State.bootStops_keeps
    | with_reducible apply State.calibrate_keeps
    | with_reducible apply State.security_keeps
    | with_reducible apply State.fuseRepairs_keeps
    | with_reducible apply State.bootDie_keeps
    | with_reducible apply State.dropDie_keeps
    | with_reducible apply State.judgeCapacity_keeps
    | with_reducible apply State.judgeIntegrity_keeps
    | with_reducible apply State.bootHost_keeps
    | with_reducible apply State.bootLinks_keeps
    | with_reducible apply State.bootLedger_keeps
    | with_reducible apply State.raise_keeps
    | with_reducible apply State.bootReady_keeps
    | with_reducible apply State.Keeps.foldl
    | simp -zeta -zetaDelta only [State.Keeps.mk_iff, State.Keeps.mk_flash]
    | split

end Sys2Proof.Machine
end

