-- ==== Sys2Proof/Laws/KeepsMailbox.lean ====
section
/-! SUPPORT. What Machine/Mailbox.lean keeps: one lemma an operation. -/
namespace Sys2Proof.Machine
set_option linter.all false

variable {z : State}

theorem State.putCompletion_keeps : ∀ (a0 : State) a1 a2 a3, z.Keeps a0 → z.Keeps (State.putCompletion a0 a1 a2 a3) := by
  intro a0 a1 a2 a3 h
  unfold State.putCompletion
  repeat' first
    | with_reducible assumption
    | (extract_lets +onlyGivenNames x
       first
       | (first | refine State.Keeps.letH (z := z) (x := x) ?_ ?_ | refine State.Keeps.letF (z := z) (x := x) ?_ ?_
          unfold x; clear x; rotate_left; clear_value x; intro; rotate_right)
       | clear_value x
       | skip)
    | with_reducible apply State.write_keeps
    | with_reducible apply State.updMbx_keeps
    | with_reducible apply State.raise_keeps
    | split

theorem State.complete__keeps : ∀ (a0 : State) a1 a2 a3, z.Keeps a0 → z.Keeps (State.complete_ a0 a1 a2 a3) := by
  intro a0 a1 a2 a3 h
  unfold State.complete_
  repeat' first
    | with_reducible assumption
    | with_reducible apply State.putCompletion_keeps
    | with_reducible apply State.updMbx_keeps
    | split

theorem State.markAborts_keeps : ∀ (a0 : State) a1 a2, z.Keeps a0 → z.Keeps (State.markAborts a0 a1 a2) := by
  intro a0 a1 a2 h
  unfold State.markAborts
  repeat' first
    | with_reducible assumption
    | with_reducible apply State.updMbx_keeps
    | split

theorem State.startNext_keeps : ∀ a0 (n : Nat) (a2 : State), z.Keeps a2 → z.Keeps (State.startNext a0 n a2) := by
  intro m n
  induction n with
  | zero => intro s h; exact h
  | succ n ih =>
    intro s h
    unfold State.startNext
    extract_lets x
    split
    · split
      · exact h
      · extract_lets t
        have ht : z.Keeps t := State.updMbx_keeps _ _ _ h
        split
        · exact ih _ (State.complete__keeps _ _ _ _ ht)
        · split
          · exact ih _ (State.complete__keeps _ _ _ _ ht)
          · exact State.markAborts_keeps _ _ _ (State.updMbx_keeps _ _ _ ht)
    · exact h

theorem State.startMore_keeps : ∀ (a0 : State) a1, z.Keeps a0 → z.Keeps (State.startMore a0 a1) := by
  intro a0 a1 h
  unfold State.startMore
  repeat' first
    | with_reducible assumption
    | with_reducible apply State.startNext_keeps

theorem State.finishCommand_keeps : ∀ (a0 : State) a1 a2 a3, z.Keeps a0 → z.Keeps (State.finishCommand a0 a1 a2 a3) := by
  intro a0 a1 a2 a3 h
  unfold State.finishCommand
  repeat' first
    | with_reducible assumption
    | (extract_lets +onlyGivenNames x
       first
       | (first | refine State.Keeps.letH (z := z) (x := x) ?_ ?_ | refine State.Keeps.letF (z := z) (x := x) ?_ ?_
          unfold x; clear x; rotate_left; clear_value x; intro; rotate_right)
       | clear_value x
       | skip)
    | with_reducible apply State.startMore_keeps
    | with_reducible apply State.complete__keeps
    | with_reducible apply State.updMbx_keeps

theorem suphor_keeps : ∀ a0 a1 a2 a3 (a4 : State), (∀ b0 (b1 : State), z.Keeps b1 → z.Keeps (a3 b0 b1).2) → z.Keeps a4 → OutKeeps z (suphor a0 a1 a2 a3 a4) := by
  intro a0 a1 a2 a3 a4 ha3 h
  unfold suphor
  repeat' first
    | with_reducible assumption
    | (extract_lets +onlyGivenNames x
       first
       | (first | refine State.Keeps.letH (z := z) (x := x) ?_ ?_ | refine State.Keeps.letF (z := z) (x := x) ?_ ?_ | refine State.Keeps.letR (z := z) (x := x) ?_ ?_ | refine ExecKeeps.letJ (x := x) ?_ ?_ | refine ExecKeeps.letM (x := x) ?_ ?_
          unfold x; clear x; rotate_left; clear_value x; intro; rotate_right)
       | clear_value x
       | skip)
    | with_reducible apply ha3
    | with_reducible apply OutKeeps.next
    | with_reducible apply State.finishCommand_keeps
    | simp -zeta -zetaDelta only [State.Keeps.mk_iff, State.Keeps.mk_flash]
    | split

theorem dataIn_keeps : ∀ a0 a1 a2 (a3 : State) a4, (∀ b0, z.Keeps (a4 b0).2) → z.Keeps a3 → z.Keeps (dataIn a0 a1 a2 a3 a4).2 := by
  intro a0 a1 a2 a3 a4 ha4 h
  unfold dataIn
  repeat' first
    | with_reducible assumption
    | with_reducible apply ha4
    | split

theorem dataOut_keeps : ∀ a0 a1 a2 a3 (a4 : State), z.Keeps a4 → z.Keeps (dataOut a0 a1 a2 a3 a4).2 := by
  intro a0 a1 a2 a3 a4 h
  unfold dataOut
  repeat' first
    | with_reducible assumption
    | with_reducible apply State.write_keeps
    | split

theorem withCtx_keeps : ∀ a0 a1 (a2 : State) a3, (∀ b0 b1, z.Keeps (a3 b0 b1).2) → z.Keeps a2 → z.Keeps (withCtx a0 a1 a2 a3).2 := by
  intro a0 a1 a2 a3 ha3 h
  unfold withCtx
  repeat' first
    | with_reducible assumption
    | (extract_lets +onlyGivenNames x
       first
       | (first | refine State.Keeps.letH (z := z) (x := x) ?_ ?_ | refine State.Keeps.letF (z := z) (x := x) ?_ ?_ | refine State.Keeps.letR (z := z) (x := x) ?_ ?_ | refine ExecKeeps.letJ (x := x) ?_ ?_ | refine ExecKeeps.letM (x := x) ?_ ?_
          unfold x; clear x; rotate_left; clear_value x; intro; rotate_right)
       | clear_value x
       | skip)
    | with_reducible apply ha3
    | split

theorem execCmdDoorbell_keeps : ∀ a0 a1 (a2 : State), z.Keeps a2 → OutKeeps z (execCmdDoorbell a0 a1 a2) := by
  intro a0 a1 a2 h
  unfold execCmdDoorbell
  repeat' first
    | with_reducible assumption
    | (extract_lets +onlyGivenNames x
       first
       | (first | refine State.Keeps.letH (z := z) (x := x) ?_ ?_ | refine State.Keeps.letF (z := z) (x := x) ?_ ?_
          unfold x; clear x; rotate_left; clear_value x; intro; rotate_right)
       | clear_value x
       | skip)
    | with_reducible apply OutKeeps.next
    | with_reducible apply State.updMbx_keeps
    | split

theorem execCommandFetch_keeps : ∀ a0 a1 (a2 : State), z.Keeps a2 → OutKeeps z (execCommandFetch a0 a1 a2) := by
  intro a0 a1 a2 h
  unfold execCommandFetch
  repeat' first
    | with_reducible assumption
    | (extract_lets +onlyGivenNames x
       first
       | (first | refine State.Keeps.letH (z := z) (x := x) ?_ ?_ | refine State.Keeps.letF (z := z) (x := x) ?_ ?_
          unfold x; clear x; rotate_left; clear_value x; intro; rotate_right)
       | clear_value x
       | skip)
    | with_reducible apply OutKeeps.next
    | with_reducible apply State.updMbx_keeps
    | with_reducible apply State.startMore_keeps
    | split

theorem execRingEnableWrite_keeps : ∀ a0 a1 a2 (a3 : State), z.Keeps a3 → OutKeeps z (execRingEnableWrite a0 a1 a2 a3) := by
  intro a0 a1 a2 a3 h
  unfold execRingEnableWrite
  repeat' first
    | with_reducible assumption
    | (extract_lets +onlyGivenNames x
       first
       | (first | refine State.Keeps.letH (z := z) (x := x) ?_ ?_ | refine State.Keeps.letF (z := z) (x := x) ?_ ?_
          unfold x; clear x; rotate_left; clear_value x; intro; rotate_right)
       | clear_value x
       | skip)
    | with_reducible apply OutKeeps.next
    | with_reducible apply State.updMbx_keeps
    | with_reducible apply State.startMore_keeps
    | split

theorem execCplHeadWrite_keeps : ∀ a0 a1 (a2 : State), z.Keeps a2 → OutKeeps z (execCplHeadWrite a0 a1 a2) := by
  intro a0 a1 a2 h
  unfold execCplHeadWrite
  repeat' first
    | with_reducible assumption
    | (extract_lets +onlyGivenNames x
       first
       | (first | refine State.Keeps.letH (z := z) (x := x) ?_ ?_ | refine State.Keeps.letF (z := z) (x := x) ?_ ?_
          unfold x; clear x; rotate_left; clear_value x; intro; rotate_right)
       | clear_value x
       | skip)
    | with_reducible apply OutKeeps.next
    | with_reducible apply State.startMore_keeps
    | with_reducible apply State.updMbx_keeps

theorem execEvtHeadWrite_keeps : ∀ a0 a1 (a2 : State), z.Keeps a2 → OutKeeps z (execEvtHeadWrite a0 a1 a2) := by
  intro a0 a1 a2 h
  unfold execEvtHeadWrite
  repeat' first
    | with_reducible assumption
    | (extract_lets +onlyGivenNames x
       first
       | (first | refine State.Keeps.letH (z := z) (x := x) ?_ ?_ | refine State.Keeps.letF (z := z) (x := x) ?_ ?_
          unfold x; clear x; rotate_left; clear_value x; intro; rotate_right)
       | clear_value x
       | skip)
    | with_reducible apply OutKeeps.next
    | with_reducible apply State.updMbx_keeps

theorem execMailboxErrClear_keeps : ∀ a0 a1 (a2 : State), z.Keeps a2 → OutKeeps z (execMailboxErrClear a0 a1 a2) := by
  intro a0 a1 a2 h
  unfold execMailboxErrClear
  repeat' first
    | with_reducible assumption
    | (extract_lets +onlyGivenNames x
       first
       | (first | refine State.Keeps.letH (z := z) (x := x) ?_ ?_ | refine State.Keeps.letF (z := z) (x := x) ?_ ?_
          unfold x; clear x; rotate_left; clear_value x; intro; rotate_right)
       | clear_value x
       | skip)
    | with_reducible apply OutKeeps.next
    | with_reducible apply State.updMbx_keeps

theorem execRegisterWrite_keeps : ∀ a0 a1 a2 (a3 : State), z.Keeps a3 → OutKeeps z (execRegisterWrite a0 a1 a2 a3) := by
  intro a0 a1 a2 a3 h
  unfold execRegisterWrite
  repeat' first
    | with_reducible assumption
    | (extract_lets +onlyGivenNames x
       first
       | (first | refine State.Keeps.letH (z := z) (x := x) ?_ ?_ | refine State.Keeps.letF (z := z) (x := x) ?_ ?_
          unfold x; clear x; rotate_left; clear_value x; intro; rotate_right)
       | clear_value x
       | skip)
    | with_reducible apply OutKeeps.next
    | with_reducible apply State.updMbx_keeps
    | simp -zeta -zetaDelta only [State.Keeps.mk_iff, State.Keeps.mk_flash]
    | split

theorem State.dropHostLink_keeps : ∀ (a0 : State), z.Keeps a0 → z.Keeps (State.dropHostLink a0) := by
  intro a0 h
  unfold State.dropHostLink
  repeat' first
    | with_reducible assumption
    | intro y
    | (extract_lets +onlyGivenNames x
       first
       | (first | refine State.Keeps.letH (z := z) (x := x) ?_ ?_ | refine State.Keeps.letF (z := z) (x := x) ?_ ?_
          unfold x; clear x; rotate_left; clear_value x; intro; rotate_right)
       | clear_value x
       | skip)
    | with_reducible apply State.hostAnswer_keeps
    | with_reducible apply State.Keeps.foldl
    | simp -zeta -zetaDelta only [State.Keeps.mk_iff, State.Keeps.mk_flash]

theorem State.raiseHostLink_keeps : ∀ (a0 : State) a1, z.Keeps a0 → z.Keeps (State.raiseHostLink a0 a1) := by
  intro a0 a1 h
  unfold State.raiseHostLink
  repeat' first
    | with_reducible assumption
    | intro y
    | (extract_lets +onlyGivenNames x
       first
       | (first | refine State.Keeps.letH (z := z) (x := x) ?_ ?_ | refine State.Keeps.letF (z := z) (x := x) ?_ ?_
          unfold x; clear x; rotate_left; clear_value x; intro; rotate_right)
       | clear_value x
       | skip)
    | with_reducible apply State.updMbx_keeps
    | with_reducible apply State.putCompletion_keeps
    | with_reducible apply State.postEvent_keeps
    | with_reducible apply State.startMore_keeps
    | with_reducible apply State.Keeps.foldl
    | simp -zeta -zetaDelta only [State.Keeps.mk_iff, State.Keeps.mk_flash]

theorem execHostLinkDown_keeps : ∀ (a0 : State), z.Keeps a0 → OutKeeps z (execHostLinkDown a0) := by
  intro a0 h
  unfold execHostLinkDown
  repeat' first
    | with_reducible assumption
    | (extract_lets +onlyGivenNames x
       first
       | (first | refine State.Keeps.letH (z := z) (x := x) ?_ ?_ | refine State.Keeps.letF (z := z) (x := x) ?_ ?_
          unfold x; clear x; rotate_left; clear_value x; intro; rotate_right)
       | clear_value x
       | skip)
    | with_reducible apply OutKeeps.next
    | with_reducible apply State.dropHostLink_keeps
    | split

theorem execHostLinkUp_keeps : ∀ a0 (a1 : State), z.Keeps a1 → OutKeeps z (execHostLinkUp a0 a1) := by
  intro a0 a1 h
  unfold execHostLinkUp
  repeat' first
    | with_reducible assumption
    | (extract_lets +onlyGivenNames x
       first
       | (first | refine State.Keeps.letH (z := z) (x := x) ?_ ?_ | refine State.Keeps.letF (z := z) (x := x) ?_ ?_
          unfold x; clear x; rotate_left; clear_value x; intro; rotate_right)
       | clear_value x
       | skip)
    | with_reducible apply OutKeeps.next
    | with_reducible apply State.raiseHostLink_keeps
    | split

theorem execHostLinkRetrain_keeps : ∀ a0 (a1 : State), z.Keeps a1 → OutKeeps z (execHostLinkRetrain a0 a1) := by
  intro a0 a1 h
  unfold execHostLinkRetrain
  repeat' first
    | with_reducible assumption
    | (extract_lets +onlyGivenNames x
       first
       | (first | refine State.Keeps.letH (z := z) (x := x) ?_ ?_ | refine State.Keeps.letF (z := z) (x := x) ?_ ?_
          unfold x; clear x; rotate_left; clear_value x; intro; rotate_right)
       | clear_value x
       | skip)
    | with_reducible apply OutKeeps.next
    | with_reducible apply State.raiseHostLink_keeps
    | with_reducible apply State.logDevice_keeps
    | split

theorem execHostPortReset_keeps : ∀ (a0 : State), z.Keeps a0 → OutKeeps z (execHostPortReset a0) := by
  intro a0 h
  unfold execHostPortReset
  repeat' first
    | with_reducible assumption
    | (extract_lets +onlyGivenNames x
       first
       | (first | refine State.Keeps.letH (z := z) (x := x) ?_ ?_ | refine State.Keeps.letF (z := z) (x := x) ?_ ?_
          unfold x; clear x; rotate_left; clear_value x; intro; rotate_right)
       | clear_value x
       | skip)
    | with_reducible apply OutKeeps.next
    | with_reducible apply State.dropHostLink_keeps
    | simp -zeta -zetaDelta only [State.Keeps.mk_iff, State.Keeps.mk_flash]

end Sys2Proof.Machine
end

