-- ==== Sys2Proof/Laws/KeepsSuphor.lean ====
section
/-! SUPPORT. What Machine/Suphor.lean keeps: one lemma an operation. -/
namespace Sys2Proof.Machine
set_option linter.all false

variable {z : State}

theorem execGetGeometry_keeps : ∀ a0 a1 (a2 : State), z.Keeps a2 → OutKeeps z (execGetGeometry a0 a1 a2) := by
  intro a0 a1 a2 h
  unfold execGetGeometry
  repeat' first
    | with_reducible assumption
    | intro y
    | (extract_lets +onlyGivenNames x
       first
       | (first | refine State.Keeps.letH (z := z) (x := x) ?_ ?_ | refine State.Keeps.letF (z := z) (x := x) ?_ ?_
          unfold x; clear x; rotate_left; clear_value x; intro; rotate_right)
       | clear_value x
       | skip)
    | with_reducible apply suphor_keeps
    | with_reducible apply dataOut_keeps

theorem getStatusReply_keeps : ∀ a0 a1 (a2 : State), z.Keeps a2 → z.Keeps (getStatusReply a0 a1 a2).2 := by
  intro a0 a1 a2 h
  unfold getStatusReply
  repeat' first
    | with_reducible assumption
    | with_reducible apply dataOut_keeps
    | split

theorem execGetStatus_keeps : ∀ a0 a1 (a2 : State), z.Keeps a2 → OutKeeps z (execGetStatus a0 a1 a2) := by
  intro a0 a1 a2 h
  unfold execGetStatus
  repeat' first
    | with_reducible assumption
    | intro y
    | (extract_lets +onlyGivenNames x
       first
       | (first | refine State.Keeps.letH (z := z) (x := x) ?_ ?_ | refine State.Keeps.letF (z := z) (x := x) ?_ ?_
          unfold x; clear x; rotate_left; clear_value x; intro; rotate_right)
       | clear_value x
       | skip)
    | with_reducible apply suphor_keeps
    | with_reducible apply getStatusReply_keeps

theorem execReset_keeps : ∀ a0 (a1 : State), z.Keeps a1 → OutKeeps z (execReset a0 a1) := by
  intro a0 a1 h
  unfold execReset
  repeat' first
    | with_reducible assumption
    | (extract_lets +onlyGivenNames x
       first
       | (first | refine State.Keeps.letH (z := z) (x := x) ?_ ?_ | refine State.Keeps.letF (z := z) (x := x) ?_ ?_
          unfold x; clear x; rotate_left; clear_value x; intro; rotate_right)
       | clear_value x
       | skip)
    | with_reducible apply OutKeeps.next
    | with_reducible apply State.finishCommand_keeps
    | with_reducible apply State.deviceReset_keeps
    | split

theorem ctxCreateReply_keeps : ∀ a0 a1 a2 (a3 : State), z.Keeps a3 → z.Keeps (ctxCreateReply a0 a1 a2 a3).2 := by
  intro a0 a1 a2 a3 h
  unfold ctxCreateReply
  repeat' first
    | with_reducible assumption
    | intro y
    | (extract_lets +onlyGivenNames x
       first
       | (first | refine State.Keeps.letH (z := z) (x := x) ?_ ?_ | refine State.Keeps.letF (z := z) (x := x) ?_ ?_
          unfold x; clear x; rotate_left; clear_value x; intro; rotate_right)
       | clear_value x
       | skip)
    | with_reducible apply dataIn_keeps
    | with_reducible apply State.setCtx_keeps
    | with_reducible apply State.updDies_keeps
    | split

theorem execCtxCreate_keeps : ∀ a0 a1 (a2 : State), z.Keeps a2 → OutKeeps z (execCtxCreate a0 a1 a2) := by
  intro a0 a1 a2 h
  unfold execCtxCreate
  repeat' first
    | with_reducible assumption
    | intro y
    | (extract_lets +onlyGivenNames x
       first
       | (first | refine State.Keeps.letH (z := z) (x := x) ?_ ?_ | refine State.Keeps.letF (z := z) (x := x) ?_ ?_
          unfold x; clear x; rotate_left; clear_value x; intro; rotate_right)
       | clear_value x
       | skip)
    | with_reducible apply suphor_keeps
    | with_reducible apply ctxCreateReply_keeps

theorem State.freeCtx_keeps : ∀ (a0 : State) a1 a2, z.Keeps a0 → z.Keeps (State.freeCtx a0 a1 a2) := by
  intro a0 a1 a2 h
  unfold State.freeCtx
  apply State.setCtx_keeps
  generalize (a0.fabric.groups.filter fun e => fld e.2 10 8 = a1.val).map (·.1) = mine
  generalize hs : State.updDies a0 _ = t
  have ht : z.Keeps t := hs ▸ State.updDies_keeps _ _ h
  clear hs
  generalize hp : List.foldl _ t.program _ = p
  have wp : t.memoryWf → SMap.wf 0 p = true := by
    intro w; subst hp; exact SMap.wf_foldl (fun _ _ h => SMap.wf_eraseRange h) w.2.2.2.2
  clear hp
  refine State.Keeps.foldl ?_ fun u e hu => State.dropMoves_keeps _ _ _ hu
  exact ht.mem rfl rfl rfl fun w => ⟨w.1, w.2.1, w.2.2.1, w.2.2.2.1, wp w⟩

theorem execCtxDestroy_keeps : ∀ a0 (a1 : State), z.Keeps a1 → OutKeeps z (execCtxDestroy a0 a1) := by
  intro a0 a1 h
  unfold execCtxDestroy
  repeat' first
    | with_reducible assumption
    | intro y
    | (extract_lets +onlyGivenNames x
       first
       | (first | refine State.Keeps.letH (z := z) (x := x) ?_ ?_ | refine State.Keeps.letF (z := z) (x := x) ?_ ?_
          unfold x; clear x; rotate_left; clear_value x; intro; rotate_right)
       | clear_value x
       | skip)
    | with_reducible apply OutKeeps.next
    | with_reducible apply State.faultStop_keeps
    | with_reducible apply State.finishCommand_keeps
    | with_reducible apply State.freeCtx_keeps
    | with_reducible apply State.Keeps.foldl
    | with_reducible apply State.Keeps.foldlProd
    | with_reducible apply State.Keeps.foldlSnd
    | simp -zeta -zetaDelta only [State.Keeps.mk_iff, State.Keeps.mk_flash]
    | split
    | with_reducible apply_assumption

theorem stallSetReply_keeps : ∀ a0 a1 (a2 : State), z.Keeps a2 → z.Keeps (stallSetReply a0 a1 a2).2 := by
  intro a0 a1 a2 h
  unfold stallSetReply
  repeat' first
    | with_reducible assumption
    | intro y
    | (extract_lets +onlyGivenNames x
       first
       | (first | refine State.Keeps.letH (z := z) (x := x) ?_ ?_ | refine State.Keeps.letF (z := z) (x := x) ?_ ?_
          unfold x; clear x; rotate_left; clear_value x; intro; rotate_right)
       | clear_value x
       | skip)
    | with_reducible apply withCtx_keeps
    | with_reducible apply State.updDies_keeps
    | with_reducible apply State.updCtx_keeps
    | split

theorem execStallSet_keeps : ∀ a0 (a1 : State), z.Keeps a1 → OutKeeps z (execStallSet a0 a1) := by
  intro a0 a1 h
  unfold execStallSet
  repeat' first
    | with_reducible assumption
    | intro y
    | (extract_lets +onlyGivenNames x
       first
       | (first | refine State.Keeps.letH (z := z) (x := x) ?_ ?_ | refine State.Keeps.letF (z := z) (x := x) ?_ ?_
          unfold x; clear x; rotate_left; clear_value x; intro; rotate_right)
       | clear_value x
       | skip)
    | with_reducible apply suphor_keeps
    | with_reducible apply stallSetReply_keeps

theorem State.zeroStack_keeps : ∀ (a0 : State) a1 a2 a3, z.Keeps a0 → z.Keeps (State.zeroStack a0 a1 a2 a3) := by
  intro a0 a1 a2 a3 h
  exact h.mem rfl rfl rfl fun w => ⟨SMap.wf_eraseRange w.1, w.2⟩

theorem State.zeroScratch_keeps : ∀ (a0 : State) a1 a2 a3, z.Keeps a0 → z.Keeps (State.zeroScratch a0 a1 a2 a3) := by
  intro a0 a1 a2 a3 h
  exact h.mem rfl rfl rfl fun w => ⟨w.1, SMap.wf_eraseRange w.2.1, w.2.2⟩

theorem memAllocReply_keeps : ∀ a0 a1 (a2 : State), z.Keeps a2 → z.Keeps (memAllocReply a0 a1 a2).2 := by
  intro a0 a1 a2 h
  unfold memAllocReply
  repeat' first
    | with_reducible assumption
    | intro y
    | (extract_lets +onlyGivenNames x
       first
       | (first | refine State.Keeps.letH (z := z) (x := x) ?_ ?_ | refine State.Keeps.letF (z := z) (x := x) ?_ ?_
          unfold x; clear x; rotate_left; clear_value x; intro; rotate_right)
       | clear_value x
       | skip)
    | with_reducible apply withCtx_keeps
    | with_reducible apply State.updCtx_keeps
    | with_reducible apply State.zeroStack_keeps
    | with_reducible apply State.zeroScratch_keeps
    | with_reducible apply State.Keeps.foldl
    | split

theorem execMemAlloc_keeps : ∀ a0 (a1 : State), z.Keeps a1 → OutKeeps z (execMemAlloc a0 a1) := by
  intro a0 a1 h
  unfold execMemAlloc
  repeat' first
    | with_reducible assumption
    | intro y
    | (extract_lets +onlyGivenNames x
       first
       | (first | refine State.Keeps.letH (z := z) (x := x) ?_ ?_ | refine State.Keeps.letF (z := z) (x := x) ?_ ?_
          unfold x; clear x; rotate_left; clear_value x; intro; rotate_right)
       | clear_value x
       | skip)
    | with_reducible apply suphor_keeps
    | with_reducible apply memAllocReply_keeps

theorem memFreeReply_keeps : ∀ a0 a1 (a2 : State), z.Keeps a2 → z.Keeps (memFreeReply a0 a1 a2).2 := by
  intro a0 a1 a2 h
  unfold memFreeReply
  repeat' first
    | with_reducible assumption
    | intro y
    | (extract_lets +onlyGivenNames x
       first
       | (first | refine State.Keeps.letH (z := z) (x := x) ?_ ?_ | refine State.Keeps.letF (z := z) (x := x) ?_ ?_
          unfold x; clear x; rotate_left; clear_value x; intro; rotate_right)
       | clear_value x
       | skip)
    | with_reducible apply withCtx_keeps
    | with_reducible apply State.updCtx_keeps
    | split

theorem execMemFree_keeps : ∀ a0 (a1 : State), z.Keeps a1 → OutKeeps z (execMemFree a0 a1) := by
  intro a0 a1 h
  unfold execMemFree
  repeat' first
    | with_reducible assumption
    | intro y
    | (extract_lets +onlyGivenNames x
       first
       | (first | refine State.Keeps.letH (z := z) (x := x) ?_ ?_ | refine State.Keeps.letF (z := z) (x := x) ?_ ?_
          unfold x; clear x; rotate_left; clear_value x; intro; rotate_right)
       | clear_value x
       | skip)
    | with_reducible apply suphor_keeps
    | with_reducible apply memFreeReply_keeps

theorem descWriteReply_keeps : ∀ a0 a1 a2 (a3 : State), z.Keeps a3 → z.Keeps (descWriteReply a0 a1 a2 a3).2 := by
  intro a0 a1 a2 a3 h
  unfold descWriteReply
  repeat' first
    | with_reducible assumption
    | intro y
    | (extract_lets +onlyGivenNames x
       first
       | (first | refine State.Keeps.letH (z := z) (x := x) ?_ ?_ | refine State.Keeps.letF (z := z) (x := x) ?_ ?_
          unfold x; clear x; rotate_left; clear_value x; intro; rotate_right)
       | clear_value x
       | skip)
    | with_reducible apply withCtx_keeps
    | with_reducible apply dataIn_keeps
    | with_reducible apply State.updCtx_keeps
    | split

theorem execDescWrite_keeps : ∀ a0 a1 (a2 : State), z.Keeps a2 → OutKeeps z (execDescWrite a0 a1 a2) := by
  intro a0 a1 a2 h
  unfold execDescWrite
  repeat' first
    | with_reducible assumption
    | intro y
    | (extract_lets +onlyGivenNames x
       first
       | (first | refine State.Keeps.letH (z := z) (x := x) ?_ ?_ | refine State.Keeps.letF (z := z) (x := x) ?_ ?_
          unfold x; clear x; rotate_left; clear_value x; intro; rotate_right)
       | clear_value x
       | skip)
    | with_reducible apply suphor_keeps
    | with_reducible apply descWriteReply_keeps

theorem descReadReply_keeps : ∀ a0 a1 a2 (a3 : State), z.Keeps a3 → z.Keeps (descReadReply a0 a1 a2 a3).2 := by
  intro a0 a1 a2 a3 h
  unfold descReadReply
  repeat' first
    | with_reducible assumption
    | intro y
    | (extract_lets +onlyGivenNames x
       first
       | (first | refine State.Keeps.letH (z := z) (x := x) ?_ ?_ | refine State.Keeps.letF (z := z) (x := x) ?_ ?_
          unfold x; clear x; rotate_left; clear_value x; intro; rotate_right)
       | clear_value x
       | skip)
    | with_reducible apply withCtx_keeps
    | with_reducible apply dataOut_keeps
    | split

theorem execDescRead_keeps : ∀ a0 a1 (a2 : State), z.Keeps a2 → OutKeeps z (execDescRead a0 a1 a2) := by
  intro a0 a1 a2 h
  unfold execDescRead
  repeat' first
    | with_reducible assumption
    | intro y
    | (extract_lets +onlyGivenNames x
       first
       | (first | refine State.Keeps.letH (z := z) (x := x) ?_ ?_ | refine State.Keeps.letF (z := z) (x := x) ?_ ?_
          unfold x; clear x; rotate_left; clear_value x; intro; rotate_right)
       | clear_value x
       | skip)
    | with_reducible apply suphor_keeps
    | with_reducible apply descReadReply_keeps

theorem State.loadProgram_keeps : ∀ (a0 : State) a1 a2 a3 a4 a5, z.Keeps a0 → z.Keeps (State.loadProgram a0 a1 a2 a3 a4 a5) := by
  intro a0 a1 a2 a3 a4 a5 h
  apply State.updCtx_keeps
  refine h.mem rfl rfl rfl fun w => ⟨w.1, w.2.1, w.2.2.1, w.2.2.2.1, ?_⟩
  exact SMap.wf_foldl (fun p e hp => SMap.wf_put hp) w.2.2.2.2

theorem progLoadReply_keeps : ∀ a0 a1 a2 (a3 : State), z.Keeps a3 → z.Keeps (progLoadReply a0 a1 a2 a3).2 := by
  intro a0 a1 a2 a3 h
  unfold progLoadReply
  repeat' first
    | with_reducible assumption
    | intro y
    | (extract_lets +onlyGivenNames x
       first
       | (first | refine State.Keeps.letH (z := z) (x := x) ?_ ?_ | refine State.Keeps.letF (z := z) (x := x) ?_ ?_
          unfold x; clear x; rotate_left; clear_value x; intro; rotate_right)
       | clear_value x
       | skip)
    | with_reducible apply withCtx_keeps
    | with_reducible apply dataIn_keeps
    | with_reducible apply State.loadProgram_keeps
    | with_reducible apply State.Keeps.foldl
    | split

theorem execProgLoad_keeps : ∀ a0 a1 (a2 : State), z.Keeps a2 → OutKeeps z (execProgLoad a0 a1 a2) := by
  intro a0 a1 a2 h
  unfold execProgLoad
  repeat' first
    | with_reducible assumption
    | intro y
    | (extract_lets +onlyGivenNames x
       first
       | (first | refine State.Keeps.letH (z := z) (x := x) ?_ ?_ | refine State.Keeps.letF (z := z) (x := x) ?_ ?_
          unfold x; clear x; rotate_left; clear_value x; intro; rotate_right)
       | clear_value x
       | skip)
    | with_reducible apply suphor_keeps
    | with_reducible apply progLoadReply_keeps

theorem State.launchCtx_keeps : ∀ (a0 : State) a1 a2 a3 a4 a5 a6, z.Keeps a0 → z.Keeps (State.launchCtx a0 a1 a2 a3 a4 a5 a6) := by
  intro a0 a1 a2 a3 a4 a5 a6 h
  unfold State.launchCtx
  apply State.startStreams_keeps
  apply State.updDies_keeps
  apply State.setCtx_keeps
  generalize hp : List.foldl _ a0.sems _ = p
  have wp : a0.memoryWf → SMap.wf 0 p = true := by
    intro w; subst hp; exact SMap.wf_foldl (fun _ _ h => SMap.wf_eraseRange h) w.2.2.2.1
  clear hp
  exact h.mem rfl rfl rfl fun w => ⟨w.1, w.2.1, w.2.2.1, wp w, w.2.2.2.2⟩

theorem launchReply_keeps : ∀ a0 a1 (a2 : State), z.Keeps a2 → z.Keeps (launchReply a0 a1 a2).2 := by
  intro a0 a1 a2 h
  unfold launchReply
  repeat' first
    | with_reducible assumption
    | intro y
    | (extract_lets +onlyGivenNames x
       first
       | (first | refine State.Keeps.letH (z := z) (x := x) ?_ ?_ | refine State.Keeps.letF (z := z) (x := x) ?_ ?_
          unfold x; clear x; rotate_left; clear_value x; intro; rotate_right)
       | clear_value x
       | skip)
    | with_reducible apply withCtx_keeps
    | with_reducible apply State.launchCtx_keeps
    | split

theorem execLaunch_keeps : ∀ a0 (a1 : State), z.Keeps a1 → OutKeeps z (execLaunch a0 a1) := by
  intro a0 a1 h
  unfold execLaunch
  repeat' first
    | with_reducible assumption
    | intro y
    | (extract_lets +onlyGivenNames x
       first
       | (first | refine State.Keeps.letH (z := z) (x := x) ?_ ?_ | refine State.Keeps.letF (z := z) (x := x) ?_ ?_
          unfold x; clear x; rotate_left; clear_value x; intro; rotate_right)
       | clear_value x
       | skip)
    | with_reducible apply suphor_keeps
    | with_reducible apply launchReply_keeps

theorem stopReply_keeps : ∀ a0 a1 (a2 : State), z.Keeps a2 → z.Keeps (stopReply a0 a1 a2).2 := by
  intro a0 a1 a2 h
  unfold stopReply
  repeat' first
    | with_reducible assumption
    | intro y
    | (extract_lets +onlyGivenNames x
       first
       | (first | refine State.Keeps.letH (z := z) (x := x) ?_ ?_ | refine State.Keeps.letF (z := z) (x := x) ?_ ?_
          unfold x; clear x; rotate_left; clear_value x; intro; rotate_right)
       | clear_value x
       | skip)
    | with_reducible apply withCtx_keeps
    | with_reducible apply State.faultStop_keeps
    | split

theorem execStop_keeps : ∀ a0 (a1 : State), z.Keeps a1 → OutKeeps z (execStop a0 a1) := by
  intro a0 a1 h
  unfold execStop
  repeat' first
    | with_reducible assumption
    | intro y
    | (extract_lets +onlyGivenNames x
       first
       | (first | refine State.Keeps.letH (z := z) (x := x) ?_ ?_ | refine State.Keeps.letF (z := z) (x := x) ?_ ?_
          unfold x; clear x; rotate_left; clear_value x; intro; rotate_right)
       | clear_value x
       | skip)
    | with_reducible apply suphor_keeps
    | with_reducible apply stopReply_keeps

theorem slotWriteReply_keeps : ∀ a0 a1 (a2 : State), z.Keeps a2 → z.Keeps (slotWriteReply a0 a1 a2).2 := by
  intro a0 a1 a2 h
  unfold slotWriteReply
  repeat' first
    | with_reducible assumption
    | intro y
    | (extract_lets +onlyGivenNames x
       first
       | (first | refine State.Keeps.letH (z := z) (x := x) ?_ ?_ | refine State.Keeps.letF (z := z) (x := x) ?_ ?_
          unfold x; clear x; rotate_left; clear_value x; intro; rotate_right)
       | clear_value x
       | skip)
    | with_reducible apply withCtx_keeps
    | with_reducible apply State.updCtx_keeps
    | split

theorem execSlotWrite_keeps : ∀ a0 (a1 : State), z.Keeps a1 → OutKeeps z (execSlotWrite a0 a1) := by
  intro a0 a1 h
  unfold execSlotWrite
  repeat' first
    | with_reducible assumption
    | intro y
    | (extract_lets +onlyGivenNames x
       first
       | (first | refine State.Keeps.letH (z := z) (x := x) ?_ ?_ | refine State.Keeps.letF (z := z) (x := x) ?_ ?_
          unfold x; clear x; rotate_left; clear_value x; intro; rotate_right)
       | clear_value x
       | skip)
    | with_reducible apply suphor_keeps
    | with_reducible apply slotWriteReply_keeps

theorem execSlotRead_keeps : ∀ a0 a1 (a2 : State), z.Keeps a2 → OutKeeps z (execSlotRead a0 a1 a2) := by
  intro a0 a1 a2 h
  unfold execSlotRead
  repeat' first
    | with_reducible assumption
    | intro y
    | (extract_lets +onlyGivenNames x
       first
       | (first | refine State.Keeps.letH (z := z) (x := x) ?_ ?_ | refine State.Keeps.letF (z := z) (x := x) ?_ ?_
          unfold x; clear x; rotate_left; clear_value x; intro; rotate_right)
       | clear_value x
       | skip)
    | with_reducible apply suphor_keeps
    | with_reducible apply withCtx_keeps
    | with_reducible apply dataOut_keeps

theorem entryRegisterReply_keeps : ∀ a0 a1 a2 (a3 : State), z.Keeps a3 → z.Keeps (entryRegisterReply a0 a1 a2 a3).2 := by
  intro a0 a1 a2 a3 h
  unfold entryRegisterReply
  repeat' first
    | with_reducible assumption
    | intro y
    | (extract_lets +onlyGivenNames x
       first
       | (first | refine State.Keeps.letH (z := z) (x := x) ?_ ?_ | refine State.Keeps.letF (z := z) (x := x) ?_ ?_
          unfold x; clear x; rotate_left; clear_value x; intro; rotate_right)
       | clear_value x
       | skip)
    | with_reducible apply withCtx_keeps
    | with_reducible apply dataIn_keeps
    | with_reducible apply State.updCtx_keeps
    | split

theorem execEntryRegister_keeps : ∀ a0 a1 (a2 : State), z.Keeps a2 → OutKeeps z (execEntryRegister a0 a1 a2) := by
  intro a0 a1 a2 h
  unfold execEntryRegister
  repeat' first
    | with_reducible assumption
    | intro y
    | (extract_lets +onlyGivenNames x
       first
       | (first | refine State.Keeps.letH (z := z) (x := x) ?_ ?_ | refine State.Keeps.letF (z := z) (x := x) ?_ ?_
          unfold x; clear x; rotate_left; clear_value x; intro; rotate_right)
       | clear_value x
       | skip)
    | with_reducible apply suphor_keeps
    | with_reducible apply entryRegisterReply_keeps

theorem entryReadReply_keeps : ∀ a0 a1 a2 (a3 : State), z.Keeps a3 → z.Keeps (entryReadReply a0 a1 a2 a3).2 := by
  intro a0 a1 a2 a3 h
  unfold entryReadReply
  repeat' first
    | with_reducible assumption
    | intro y
    | (extract_lets +onlyGivenNames x
       first
       | (first | refine State.Keeps.letH (z := z) (x := x) ?_ ?_ | refine State.Keeps.letF (z := z) (x := x) ?_ ?_
          unfold x; clear x; rotate_left; clear_value x; intro; rotate_right)
       | clear_value x
       | skip)
    | with_reducible apply withCtx_keeps
    | with_reducible apply dataOut_keeps
    | split

theorem execEntryRead_keeps : ∀ a0 a1 (a2 : State), z.Keeps a2 → OutKeeps z (execEntryRead a0 a1 a2) := by
  intro a0 a1 a2 h
  unfold execEntryRead
  repeat' first
    | with_reducible assumption
    | intro y
    | (extract_lets +onlyGivenNames x
       first
       | (first | refine State.Keeps.letH (z := z) (x := x) ?_ ?_ | refine State.Keeps.letF (z := z) (x := x) ?_ ?_
          unfold x; clear x; rotate_left; clear_value x; intro; rotate_right)
       | clear_value x
       | skip)
    | with_reducible apply suphor_keeps
    | with_reducible apply entryReadReply_keeps

theorem groupRegisterReply_keeps : ∀ a0 a1 a2 (a3 : State), z.Keeps a3 → z.Keeps (groupRegisterReply a0 a1 a2 a3).2 := by
  intro a0 a1 a2 a3 h
  unfold groupRegisterReply
  repeat' first
    | with_reducible assumption
    | intro y
    | (extract_lets +onlyGivenNames x
       first
       | (first | refine State.Keeps.letH (z := z) (x := x) ?_ ?_ | refine State.Keeps.letF (z := z) (x := x) ?_ ?_
          unfold x; clear x; rotate_left; clear_value x; intro; rotate_right)
       | clear_value x
       | skip)
    | with_reducible apply withCtx_keeps
    | with_reducible apply dataIn_keeps
    | with_reducible apply State.updDies_keeps
    | simp -zeta -zetaDelta only [State.Keeps.mk_iff, State.Keeps.mk_flash]
    | split

theorem execGroupRegister_keeps : ∀ a0 a1 (a2 : State), z.Keeps a2 → OutKeeps z (execGroupRegister a0 a1 a2) := by
  intro a0 a1 a2 h
  unfold execGroupRegister
  repeat' first
    | with_reducible assumption
    | intro y
    | (extract_lets +onlyGivenNames x
       first
       | (first | refine State.Keeps.letH (z := z) (x := x) ?_ ?_ | refine State.Keeps.letF (z := z) (x := x) ?_ ?_
          unfold x; clear x; rotate_left; clear_value x; intro; rotate_right)
       | clear_value x
       | skip)
    | with_reducible apply suphor_keeps
    | with_reducible apply groupRegisterReply_keeps

theorem groupReleaseReply_keeps : ∀ a0 a1 (a2 : State), z.Keeps a2 → z.Keeps (groupReleaseReply a0 a1 a2).2 := by
  intro a0 a1 a2 h
  unfold groupReleaseReply
  repeat' first
    | with_reducible assumption
    | intro y
    | (extract_lets +onlyGivenNames x
       first
       | (first | refine State.Keeps.letH (z := z) (x := x) ?_ ?_ | refine State.Keeps.letF (z := z) (x := x) ?_ ?_
          unfold x; clear x; rotate_left; clear_value x; intro; rotate_right)
       | clear_value x
       | skip)
    | with_reducible apply withCtx_keeps
    | simp -zeta -zetaDelta only [State.Keeps.mk_iff, State.Keeps.mk_flash]
    | split

theorem execGroupRelease_keeps : ∀ a0 (a1 : State), z.Keeps a1 → OutKeeps z (execGroupRelease a0 a1) := by
  intro a0 a1 h
  unfold execGroupRelease
  repeat' first
    | with_reducible assumption
    | intro y
    | (extract_lets +onlyGivenNames x
       first
       | (first | refine State.Keeps.letH (z := z) (x := x) ?_ ?_ | refine State.Keeps.letF (z := z) (x := x) ?_ ?_
          unfold x; clear x; rotate_left; clear_value x; intro; rotate_right)
       | clear_value x
       | skip)
    | with_reducible apply suphor_keeps
    | with_reducible apply groupReleaseReply_keeps

end Sys2Proof.Machine
end

