-- ==== Sys2Proof/Laws/KeepsPolicies.lean ====
section
/-! SUPPORT. What Machine/Policies.lean keeps: one lemma an operation. -/
namespace Sys2Proof.Machine
set_option linter.all false

variable {z : State}

theorem policyFallbackReply_keeps : ∀ a0 a1 a2 (a3 : State), z.Keeps a3 → z.Keeps (policyFallbackReply a0 a1 a2 a3).2 := by
  intro a0 a1 a2 a3 h
  unfold policyFallbackReply
  repeat' first
    | with_reducible assumption
    | intro y
    | (extract_lets +onlyGivenNames x
       first
       | (first | refine State.Keeps.letH (z := z) (x := x) ?_ ?_ | refine State.Keeps.letF (z := z) (x := x) ?_ ?_
          unfold x; clear x; rotate_left; clear_value x; intro; rotate_right)
       | clear_value x
       | skip)
    | with_reducible apply withCtx_keeps
    | with_reducible apply dataIn_keeps
    | with_reducible apply State.updCtx_keeps
    | split

theorem execPolicySetFallback_keeps : ∀ a0 a1 (a2 : State), z.Keeps a2 → OutKeeps z (execPolicySetFallback a0 a1 a2) := by
  intro a0 a1 a2 h
  unfold execPolicySetFallback
  repeat' first
    | with_reducible assumption
    | intro y
    | (extract_lets +onlyGivenNames x
       first
       | (first | refine State.Keeps.letH (z := z) (x := x) ?_ ?_ | refine State.Keeps.letF (z := z) (x := x) ?_ ?_
          unfold x; clear x; rotate_left; clear_value x; intro; rotate_right)
       | clear_value x
       | skip)
    | with_reducible apply suphor_keeps
    | with_reducible apply policyFallbackReply_keeps

theorem policyResilienceReply_keeps : ∀ a0 a1 a2 (a3 : State), z.Keeps a3 → z.Keeps (policyResilienceReply a0 a1 a2 a3).2 := by
  intro a0 a1 a2 a3 h
  unfold policyResilienceReply
  repeat' first
    | with_reducible assumption
    | intro y
    | (extract_lets +onlyGivenNames x
       first
       | (first | refine State.Keeps.letH (z := z) (x := x) ?_ ?_ | refine State.Keeps.letF (z := z) (x := x) ?_ ?_
          unfold x; clear x; rotate_left; clear_value x; intro; rotate_right)
       | clear_value x
       | skip)
    | with_reducible apply withCtx_keeps
    | with_reducible apply dataIn_keeps
    | with_reducible apply State.updCtx_keeps
    | split

theorem execPolicySetResilience_keeps : ∀ a0 a1 (a2 : State), z.Keeps a2 → OutKeeps z (execPolicySetResilience a0 a1 a2) := by
  intro a0 a1 a2 h
  unfold execPolicySetResilience
  repeat' first
    | with_reducible assumption
    | intro y
    | (extract_lets +onlyGivenNames x
       first
       | (first | refine State.Keeps.letH (z := z) (x := x) ?_ ?_ | refine State.Keeps.letF (z := z) (x := x) ?_ ?_
          unfold x; clear x; rotate_left; clear_value x; intro; rotate_right)
       | clear_value x
       | skip)
    | with_reducible apply suphor_keeps
    | with_reducible apply policyResilienceReply_keeps

theorem policySampleReply_keeps : ∀ a0 a1 (a2 : State), z.Keeps a2 → z.Keeps (policySampleReply a0 a1 a2).2 := by
  intro a0 a1 a2 h
  unfold policySampleReply
  repeat' first
    | with_reducible assumption
    | intro y
    | (extract_lets +onlyGivenNames x
       first
       | (first | refine State.Keeps.letH (z := z) (x := x) ?_ ?_ | refine State.Keeps.letF (z := z) (x := x) ?_ ?_
          unfold x; clear x; rotate_left; clear_value x; intro; rotate_right)
       | clear_value x
       | skip)
    | with_reducible apply withCtx_keeps
    | with_reducible apply State.updCtx_keeps
    | with_reducible apply State.firstGap_keeps
    | with_reducible apply State.Keeps.foldl
    | split

theorem execPolicySetSamplePeriod_keeps : ∀ a0 (a1 : State), z.Keeps a1 → OutKeeps z (execPolicySetSamplePeriod a0 a1) := by
  intro a0 a1 h
  unfold execPolicySetSamplePeriod
  repeat' first
    | with_reducible assumption
    | intro y
    | (extract_lets +onlyGivenNames x
       first
       | (first | refine State.Keeps.letH (z := z) (x := x) ?_ ?_ | refine State.Keeps.letF (z := z) (x := x) ?_ ?_
          unfold x; clear x; rotate_left; clear_value x; intro; rotate_right)
       | clear_value x
       | skip)
    | with_reducible apply suphor_keeps
    | with_reducible apply policySampleReply_keeps

theorem policyIntegrityReply_keeps : ∀ a0 a1 (a2 : State), z.Keeps a2 → z.Keeps (policyIntegrityReply a0 a1 a2).2 := by
  intro a0 a1 a2 h
  unfold policyIntegrityReply
  repeat' first
    | with_reducible assumption
    | intro y
    | (extract_lets +onlyGivenNames x
       first
       | (first | refine State.Keeps.letH (z := z) (x := x) ?_ ?_ | refine State.Keeps.letF (z := z) (x := x) ?_ ?_
          unfold x; clear x; rotate_left; clear_value x; intro; rotate_right)
       | clear_value x
       | skip)
    | with_reducible apply dataIn_keeps
    | simp -zeta -zetaDelta only [State.Keeps.mk_iff, State.Keeps.mk_flash]
    | split

theorem execPolicySetIntegrity_keeps : ∀ a0 a1 (a2 : State), z.Keeps a2 → OutKeeps z (execPolicySetIntegrity a0 a1 a2) := by
  intro a0 a1 a2 h
  unfold execPolicySetIntegrity
  repeat' first
    | with_reducible assumption
    | intro y
    | (extract_lets +onlyGivenNames x
       first
       | (first | refine State.Keeps.letH (z := z) (x := x) ?_ ?_ | refine State.Keeps.letF (z := z) (x := x) ?_ ?_
          unfold x; clear x; rotate_left; clear_value x; intro; rotate_right)
       | clear_value x
       | skip)
    | with_reducible apply suphor_keeps
    | with_reducible apply policyIntegrityReply_keeps

theorem execPolicySetScrubPeriod_keeps : ∀ a0 (a1 : State), z.Keeps a1 → OutKeeps z (execPolicySetScrubPeriod a0 a1) := by
  intro a0 a1 h
  unfold execPolicySetScrubPeriod
  repeat' first
    | with_reducible assumption
    | intro y
    | (extract_lets +onlyGivenNames x
       first
       | (first | refine State.Keeps.letH (z := z) (x := x) ?_ ?_ | refine State.Keeps.letF (z := z) (x := x) ?_ ?_
          unfold x; clear x; rotate_left; clear_value x; intro; rotate_right)
       | clear_value x
       | skip)
    | with_reducible apply suphor_keeps
    | simp -zeta -zetaDelta only [State.Keeps.mk_iff, State.Keeps.mk_flash]
    | split

theorem execPolicySetE2eTimeout_keeps : ∀ a0 (a1 : State), z.Keeps a1 → OutKeeps z (execPolicySetE2eTimeout a0 a1) := by
  intro a0 a1 h
  unfold execPolicySetE2eTimeout
  repeat' first
    | with_reducible assumption
    | intro y
    | (extract_lets +onlyGivenNames x
       first
       | (first | refine State.Keeps.letH (z := z) (x := x) ?_ ?_ | refine State.Keeps.letF (z := z) (x := x) ?_ ?_
          unfold x; clear x; rotate_left; clear_value x; intro; rotate_right)
       | clear_value x
       | skip)
    | with_reducible apply suphor_keeps
    | simp -zeta -zetaDelta only [State.Keeps.mk_iff, State.Keeps.mk_flash]
    | split

theorem execPolicySetCheckpointInterval_keeps : ∀ a0 (a1 : State), z.Keeps a1 → OutKeeps z (execPolicySetCheckpointInterval a0 a1) := by
  intro a0 a1 h
  unfold execPolicySetCheckpointInterval
  repeat' first
    | with_reducible assumption
    | intro y
    | (extract_lets +onlyGivenNames x
       first
       | (first | refine State.Keeps.letH (z := z) (x := x) ?_ ?_ | refine State.Keeps.letF (z := z) (x := x) ?_ ?_
          unfold x; clear x; rotate_left; clear_value x; intro; rotate_right)
       | clear_value x
       | skip)
    | with_reducible apply suphor_keeps
    | simp -zeta -zetaDelta only [State.Keeps.mk_iff, State.Keeps.mk_flash]
    | split

theorem execPolicySetTally_keeps : ∀ a0 (a1 : State), z.Keeps a1 → OutKeeps z (execPolicySetTally a0 a1) := by
  intro a0 a1 h
  unfold execPolicySetTally
  repeat' first
    | with_reducible assumption
    | intro y
    | (extract_lets +onlyGivenNames x
       first
       | (first | refine State.Keeps.letH (z := z) (x := x) ?_ ?_ | refine State.Keeps.letF (z := z) (x := x) ?_ ?_
          unfold x; clear x; rotate_left; clear_value x; intro; rotate_right)
       | clear_value x
       | skip)
    | with_reducible apply suphor_keeps
    | simp -zeta -zetaDelta only [State.Keeps.mk_iff, State.Keeps.mk_flash]
    | split

theorem policyReadReply_keeps : ∀ a0 a1 a2 (a3 : State), z.Keeps a3 → z.Keeps (policyReadReply a0 a1 a2 a3).2 := by
  intro a0 a1 a2 a3 h
  unfold policyReadReply
  repeat' first
    | with_reducible assumption
    | intro y
    | (extract_lets +onlyGivenNames x
       first
       | (first | refine State.Keeps.letH (z := z) (x := x) ?_ ?_ | refine State.Keeps.letF (z := z) (x := x) ?_ ?_
          unfold x; clear x; rotate_left; clear_value x; intro; rotate_right)
       | clear_value x
       | skip)
    | with_reducible apply withCtx_keeps
    | with_reducible apply dataOut_keeps
    | split

theorem execPolicyRead_keeps : ∀ a0 a1 (a2 : State), z.Keeps a2 → OutKeeps z (execPolicyRead a0 a1 a2) := by
  intro a0 a1 a2 h
  unfold execPolicyRead
  repeat' first
    | with_reducible assumption
    | intro y
    | (extract_lets +onlyGivenNames x
       first
       | (first | refine State.Keeps.letH (z := z) (x := x) ?_ ?_ | refine State.Keeps.letF (z := z) (x := x) ?_ ?_
          unfold x; clear x; rotate_left; clear_value x; intro; rotate_right)
       | clear_value x
       | skip)
    | with_reducible apply suphor_keeps
    | with_reducible apply policyReadReply_keeps

theorem execFallbackRead_keeps : ∀ a0 a1 (a2 : State), z.Keeps a2 → OutKeeps z (execFallbackRead a0 a1 a2) := by
  intro a0 a1 a2 h
  unfold execFallbackRead
  repeat' first
    | with_reducible assumption
    | intro y
    | (extract_lets +onlyGivenNames x
       first
       | (first | refine State.Keeps.letH (z := z) (x := x) ?_ ?_ | refine State.Keeps.letF (z := z) (x := x) ?_ ?_
          unfold x; clear x; rotate_left; clear_value x; intro; rotate_right)
       | clear_value x
       | skip)
    | with_reducible apply suphor_keeps
    | with_reducible apply withCtx_keeps
    | with_reducible apply dataOut_keeps

theorem ringRegisterReply_keeps : ∀ a0 a1 (a2 : State), z.Keeps a2 → z.Keeps (ringRegisterReply a0 a1 a2).2 := by
  intro a0 a1 a2 h
  unfold ringRegisterReply
  repeat' first
    | with_reducible assumption
    | intro y
    | (extract_lets +onlyGivenNames x
       first
       | (first | refine State.Keeps.letH (z := z) (x := x) ?_ ?_ | refine State.Keeps.letF (z := z) (x := x) ?_ ?_
          unfold x; clear x; rotate_left; clear_value x; intro; rotate_right)
       | clear_value x
       | skip)
    | with_reducible apply withCtx_keeps
    | with_reducible apply State.write_keeps
    | with_reducible apply State.updCtx_keeps
    | with_reducible apply State.Keeps.foldl
    | simp -zeta -zetaDelta only [State.Keeps.mk_iff, State.Keeps.mk_flash]
    | split

theorem execRingRegister_keeps : ∀ a0 (a1 : State), z.Keeps a1 → OutKeeps z (execRingRegister a0 a1) := by
  intro a0 a1 h
  unfold execRingRegister
  repeat' first
    | with_reducible assumption
    | intro y
    | (extract_lets +onlyGivenNames x
       first
       | (first | refine State.Keeps.letH (z := z) (x := x) ?_ ?_ | refine State.Keeps.letF (z := z) (x := x) ?_ ?_
          unfold x; clear x; rotate_left; clear_value x; intro; rotate_right)
       | clear_value x
       | skip)
    | with_reducible apply suphor_keeps
    | with_reducible apply ringRegisterReply_keeps

theorem onDies_keeps : ∀ a0 (a1 : State) a2, z.Keeps a1 → z.Keeps (onDies a0 a1 a2).2 := by
  intro a0 a1 a2 h
  unfold onDies
  repeat' first
    | with_reducible assumption
    | with_reducible apply State.updDies_keeps

theorem counterReply_keeps : ∀ a0 (a1 : State), z.Keeps a1 → z.Keeps (counterReply a0 a1).2 := by
  intro a0 a1 h
  unfold counterReply
  repeat' first
    | with_reducible assumption
    | (extract_lets +onlyGivenNames x
       first
       | (first | refine State.Keeps.letH (z := z) (x := x) ?_ ?_ | refine State.Keeps.letF (z := z) (x := x) ?_ ?_
          unfold x; clear x; rotate_left; clear_value x; intro; rotate_right)
       | clear_value x
       | skip)
    | with_reducible apply onDies_keeps
    | split

theorem execMeasureSetCounter_keeps : ∀ a0 (a1 : State), z.Keeps a1 → OutKeeps z (execMeasureSetCounter a0 a1) := by
  intro a0 a1 h
  unfold execMeasureSetCounter
  repeat' first
    | with_reducible assumption
    | intro y
    | (extract_lets +onlyGivenNames x
       first
       | (first | refine State.Keeps.letH (z := z) (x := x) ?_ ?_ | refine State.Keeps.letF (z := z) (x := x) ?_ ?_
          unfold x; clear x; rotate_left; clear_value x; intro; rotate_right)
       | clear_value x
       | skip)
    | with_reducible apply suphor_keeps
    | with_reducible apply counterReply_keeps

theorem histogramReply_keeps : ∀ a0 (a1 : State), z.Keeps a1 → z.Keeps (histogramReply a0 a1).2 := by
  intro a0 a1 h
  unfold histogramReply
  repeat' first
    | with_reducible assumption
    | intro y
    | (extract_lets +onlyGivenNames x
       first
       | (first | refine State.Keeps.letH (z := z) (x := x) ?_ ?_ | refine State.Keeps.letF (z := z) (x := x) ?_ ?_
          unfold x; clear x; rotate_left; clear_value x; intro; rotate_right)
       | clear_value x
       | skip)
    | with_reducible apply State.draw_keeps
    | with_reducible apply onDies_keeps
    | with_reducible apply State.Keeps.foldl
    | with_reducible apply State.Keeps.foldlProd
    | with_reducible apply State.Keeps.foldlSnd
    | simp -zeta -zetaDelta only [State.Keeps.mk_iff, State.Keeps.mk_flash]
    | split

theorem execMeasureSetHistogram_keeps : ∀ a0 (a1 : State), z.Keeps a1 → OutKeeps z (execMeasureSetHistogram a0 a1) := by
  intro a0 a1 h
  unfold execMeasureSetHistogram
  repeat' first
    | with_reducible assumption
    | intro y
    | (extract_lets +onlyGivenNames x
       first
       | (first | refine State.Keeps.letH (z := z) (x := x) ?_ ?_ | refine State.Keeps.letF (z := z) (x := x) ?_ ?_
          unfold x; clear x; rotate_left; clear_value x; intro; rotate_right)
       | clear_value x
       | skip)
    | with_reducible apply suphor_keeps
    | with_reducible apply histogramReply_keeps

theorem windowReply_keeps : ∀ a0 (a1 : State), z.Keeps a1 → z.Keeps (windowReply a0 a1).2 := by
  intro a0 a1 h
  unfold windowReply
  repeat' first
    | with_reducible assumption
    | (extract_lets +onlyGivenNames x
       first
       | (first | refine State.Keeps.letH (z := z) (x := x) ?_ ?_ | refine State.Keeps.letF (z := z) (x := x) ?_ ?_
          unfold x; clear x; rotate_left; clear_value x; intro; rotate_right)
       | clear_value x
       | skip)
    | with_reducible apply onDies_keeps
    | split

theorem execMeasureSetWindow_keeps : ∀ a0 (a1 : State), z.Keeps a1 → OutKeeps z (execMeasureSetWindow a0 a1) := by
  intro a0 a1 h
  unfold execMeasureSetWindow
  repeat' first
    | with_reducible assumption
    | intro y
    | (extract_lets +onlyGivenNames x
       first
       | (first | refine State.Keeps.letH (z := z) (x := x) ?_ ?_ | refine State.Keeps.letF (z := z) (x := x) ?_ ?_
          unfold x; clear x; rotate_left; clear_value x; intro; rotate_right)
       | clear_value x
       | skip)
    | with_reducible apply suphor_keeps
    | with_reducible apply windowReply_keeps

theorem execTallyRequest_keeps : ∀ a0 (a1 : State), z.Keeps a1 → OutKeeps z (execTallyRequest a0 a1) := by
  intro a0 a1 h
  unfold execTallyRequest
  repeat' first
    | with_reducible assumption
    | intro y
    | (extract_lets +onlyGivenNames x
       first
       | (first | refine State.Keeps.letH (z := z) (x := x) ?_ ?_ | refine State.Keeps.letF (z := z) (x := x) ?_ ?_
          unfold x; clear x; rotate_left; clear_value x; intro; rotate_right)
       | clear_value x
       | skip)
    | with_reducible apply suphor_keeps
    | with_reducible apply State.latchTally_keeps
    | with_reducible apply State.Keeps.foldl
    | split

theorem ledgerReadReply_keeps : ∀ a0 a1 (a2 : State), z.Keeps a2 → z.Keeps (ledgerReadReply a0 a1 a2).2 := by
  intro a0 a1 a2 h
  unfold ledgerReadReply
  repeat' first
    | with_reducible assumption
    | (extract_lets +onlyGivenNames x
       first
       | (first | refine State.Keeps.letH (z := z) (x := x) ?_ ?_ | refine State.Keeps.letF (z := z) (x := x) ?_ ?_
          unfold x; clear x; rotate_left; clear_value x; intro; rotate_right)
       | clear_value x
       | skip)
    | with_reducible apply State.write_keeps
    | split

theorem execLedgerRead_keeps : ∀ a0 a1 (a2 : State), z.Keeps a2 → OutKeeps z (execLedgerRead a0 a1 a2) := by
  intro a0 a1 a2 h
  unfold execLedgerRead
  repeat' first
    | with_reducible assumption
    | intro y
    | (extract_lets +onlyGivenNames x
       first
       | (first | refine State.Keeps.letH (z := z) (x := x) ?_ ?_ | refine State.Keeps.letF (z := z) (x := x) ?_ ?_
          unfold x; clear x; rotate_left; clear_value x; intro; rotate_right)
       | clear_value x
       | skip)
    | with_reducible apply suphor_keeps
    | with_reducible apply ledgerReadReply_keeps

theorem execCaptureRead_keeps : ∀ a0 a1 (a2 : State), z.Keeps a2 → OutKeeps z (execCaptureRead a0 a1 a2) := by
  intro a0 a1 a2 h
  unfold execCaptureRead
  repeat' first
    | with_reducible assumption
    | intro y
    | (extract_lets +onlyGivenNames x
       first
       | (first | refine State.Keeps.letH (z := z) (x := x) ?_ ?_ | refine State.Keeps.letF (z := z) (x := x) ?_ ?_
          unfold x; clear x; rotate_left; clear_value x; intro; rotate_right)
       | clear_value x
       | skip)
    | with_reducible apply suphor_keeps
    | with_reducible apply dataOut_keeps
    | split

theorem execCaptureExported_keeps : ∀ a0 (a1 : State), z.Keeps a1 → OutKeeps z (execCaptureExported a0 a1) := by
  intro a0 a1 h
  unfold execCaptureExported
  repeat' first
    | with_reducible assumption
    | intro y
    | (extract_lets +onlyGivenNames x
       first
       | (first | refine State.Keeps.letH (z := z) (x := x) ?_ ?_ | refine State.Keeps.letF (z := z) (x := x) ?_ ?_
          unfold x; clear x; rotate_left; clear_value x; intro; rotate_right)
       | clear_value x
       | skip)
    | with_reducible apply suphor_keeps
    | with_reducible refine State.exportCapture_keeps_eq ?_ (by with_reducible assumption)
    | split

theorem execCheckpointNow_keeps : ∀ a0 (a1 : State), z.Keeps a1 → OutKeeps z (execCheckpointNow a0 a1) := by
  intro a0 a1 h
  unfold execCheckpointNow
  repeat' first
    | with_reducible assumption
    | intro y
    | (extract_lets +onlyGivenNames x
       first
       | (first | refine State.Keeps.letH (z := z) (x := x) ?_ ?_ | refine State.Keeps.letF (z := z) (x := x) ?_ ?_
          unfold x; clear x; rotate_left; clear_value x; intro; rotate_right)
       | clear_value x
       | skip)
    | with_reducible apply suphor_keeps
    | with_reducible apply State.flushAll_keeps
    | with_reducible apply State.checkpoint_keeps

theorem State.setCollector_keeps : ∀ (a0 : State) a1 a2 a3 a4, z.Keeps a0 → z.Keeps (State.setCollector a0 a1 a2 a3 a4) := by
  intro a0 a1 a2 a3 a4 h
  unfold State.setCollector
  repeat' first
    | with_reducible assumption
    | simp -zetaDelta only [State.Keeps.mk_flash]

theorem collectorReply_keeps : ∀ a0 a1 (a2 : State), z.Keeps a2 → z.Keeps (collectorReply a0 a1 a2).2 := by
  intro a0 a1 a2 h
  unfold collectorReply
  repeat' first
    | with_reducible assumption
    | intro y
    | (extract_lets +onlyGivenNames x
       first
       | (first | refine State.Keeps.letH (z := z) (x := x) ?_ ?_ | refine State.Keeps.letF (z := z) (x := x) ?_ ?_
          unfold x; clear x; rotate_left; clear_value x; intro; rotate_right)
       | clear_value x
       | skip)
    | with_reducible apply dataIn_keeps
    | with_reducible apply State.setCollector_keeps
    | split

theorem execCollectorSet_keeps : ∀ a0 a1 (a2 : State), z.Keeps a2 → OutKeeps z (execCollectorSet a0 a1 a2) := by
  intro a0 a1 a2 h
  unfold execCollectorSet
  repeat' first
    | with_reducible assumption
    | intro y
    | (extract_lets +onlyGivenNames x
       first
       | (first | refine State.Keeps.letH (z := z) (x := x) ?_ ?_ | refine State.Keeps.letF (z := z) (x := x) ?_ ?_
          unfold x; clear x; rotate_left; clear_value x; intro; rotate_right)
       | clear_value x
       | skip)
    | with_reducible apply suphor_keeps
    | with_reducible apply collectorReply_keeps

theorem execGambitInstall_keeps : ∀ a0 a1 (a2 : State), z.Keeps a2 → OutKeeps z (execGambitInstall a0 a1 a2) := by
  intro a0 a1 a2 h
  unfold execGambitInstall
  repeat' first
    | with_reducible assumption
    | intro y
    | (extract_lets +onlyGivenNames x
       first
       | (first | refine State.Keeps.letH (z := z) (x := x) ?_ ?_ | refine State.Keeps.letF (z := z) (x := x) ?_ ?_
          unfold x; clear x; rotate_left; clear_value x; intro; rotate_right)
       | clear_value x
       | skip)
    | with_reducible apply suphor_keeps
    | with_reducible apply dataIn_keeps
    | with_reducible apply State.installGambit_keeps

theorem execCalRead_keeps : ∀ a0 a1 (a2 : State), z.Keeps a2 → OutKeeps z (execCalRead a0 a1 a2) := by
  intro a0 a1 a2 h
  unfold execCalRead
  repeat' first
    | with_reducible assumption
    | intro y
    | (extract_lets +onlyGivenNames x
       first
       | (first | refine State.Keeps.letH (z := z) (x := x) ?_ ?_ | refine State.Keeps.letF (z := z) (x := x) ?_ ?_
          unfold x; clear x; rotate_left; clear_value x; intro; rotate_right)
       | clear_value x
       | skip)
    | with_reducible apply suphor_keeps
    | with_reducible apply dataOut_keeps

theorem execCalWrite_keeps : ∀ a0 a1 (a2 : State), z.Keeps a2 → OutKeeps z (execCalWrite a0 a1 a2) := by
  intro a0 a1 a2 h
  unfold execCalWrite
  repeat' first
    | with_reducible assumption
    | intro y
    | (extract_lets +onlyGivenNames x
       first
       | (first | refine State.Keeps.letH (z := z) (x := x) ?_ ?_ | refine State.Keeps.letF (z := z) (x := x) ?_ ?_
          unfold x; clear x; rotate_left; clear_value x; intro; rotate_right)
       | clear_value x
       | skip)
    | with_reducible apply suphor_keeps
    | with_reducible apply dataIn_keeps
    | with_reducible apply State.installCalibration_keeps
    | with_reducible apply State.refusePkg_keeps
    | split

theorem execFwInstall_keeps : ∀ a0 a1 (a2 : State), z.Keeps a2 → OutKeeps z (execFwInstall a0 a1 a2) := by
  intro a0 a1 a2 h
  unfold execFwInstall
  repeat' first
    | with_reducible assumption
    | intro y
    | (extract_lets +onlyGivenNames x
       first
       | (first | refine State.Keeps.letH (z := z) (x := x) ?_ ?_ | refine State.Keeps.letF (z := z) (x := x) ?_ ?_
          unfold x; clear x; rotate_left; clear_value x; intro; rotate_right)
       | clear_value x
       | skip)
    | with_reducible apply suphor_keeps
    | with_reducible apply dataIn_keeps
    | with_reducible apply State.refusePkg_keeps
    | with_reducible apply State.installFirmware_keeps
    | with_reducible apply State.installKeys_keeps
    | split

theorem execLinkReset_keeps : ∀ a0 (a1 : State), z.Keeps a1 → OutKeeps z (execLinkReset a0 a1) := by
  intro a0 a1 h
  unfold execLinkReset
  repeat' first
    | with_reducible assumption
    | intro y
    | (extract_lets +onlyGivenNames x
       first
       | (first | refine State.Keeps.letH (z := z) (x := x) ?_ ?_ | refine State.Keeps.letF (z := z) (x := x) ?_ ?_
          unfold x; clear x; rotate_left; clear_value x; intro; rotate_right)
       | clear_value x
       | skip)
    | with_reducible apply suphor_keeps
    | with_reducible apply State.linkRecord_keeps
    | with_reducible apply State.updLink_keeps
    | split

end Sys2Proof.Machine
end

