-- ==== Sys2Proof/Laws/KeepsAttest.lean ====
section
/-! SUPPORT. What Machine/Attest.lean keeps: one lemma an operation. -/
namespace Sys2Proof.Machine
set_option linter.all false

variable {z : State}

theorem State.setSpdm_keeps : ∀ (a0 : State) a1 a2, z.Keeps a0 → z.Keeps (State.setSpdm a0 a1 a2) := by
  intro a0 a1 a2 h
  unfold State.setSpdm
  repeat' first
    | with_reducible assumption
    | (extract_lets +onlyGivenNames x
       first
       | (first | refine State.Keeps.letH (z := z) (x := x) ?_ ?_ | refine State.Keeps.letF (z := z) (x := x) ?_ ?_
          unfold x; clear x; rotate_left; clear_value x; intro; rotate_right)
       | clear_value x
       | skip)
    | simp -zeta -zetaDelta only [State.Keeps.mk_iff, State.Keeps.mk_flash]
    | split

theorem State.randomNonce_keeps : ∀ (a0 : State), z.Keeps a0 → z.Keeps (State.randomNonce a0).2 := by
  intro a0 h
  unfold State.randomNonce
  repeat' first
    | with_reducible assumption
    | simp -zeta -zetaDelta only [State.Keeps.mk_iff, State.Keeps.mk_flash]

theorem spdmRow_keeps : ∀ a0 a1 a2 (a3 : State) a4, (∀ b0 (b1 : State), z.Keeps b1 → z.Keeps (a4 b0 b1).2) → z.Keeps a3 → OutKeeps z (spdmRow a0 a1 a2 a3 a4) := by
  intro a0 a1 a2 a3 a4 ha4 h
  unfold spdmRow
  repeat' first
    | with_reducible assumption
    | (extract_lets +onlyGivenNames x
       first
       | (first | refine State.Keeps.letH (z := z) (x := x) ?_ ?_ | refine State.Keeps.letF (z := z) (x := x) ?_ ?_ | refine State.Keeps.letR (z := z) (x := x) ?_ ?_ | refine ExecKeeps.letJ (x := x) ?_ ?_ | refine ExecKeeps.letM (x := x) ?_ ?_
          unfold x; clear x; rotate_left; clear_value x; intro; rotate_right)
       | clear_value x
       | skip)
    | with_reducible apply ha4
    | with_reducible apply OutKeeps.next
    | with_reducible apply State.setSpdm_keeps
    | simp -zeta -zetaDelta only [State.Keeps.mk_iff, State.Keeps.mk_flash]
    | split

theorem afterNegotiation_keeps : ∀ a0 a1 a2 (a3 : State) a4, (∀ b0 (b1 : State), z.Keeps b1 → z.Keeps (a4 b0 b1).2) → z.Keeps a3 → OutKeeps z (afterNegotiation a0 a1 a2 a3 a4) := by
  intro a0 a1 a2 a3 a4 ha4 h
  unfold afterNegotiation
  repeat' first
    | with_reducible assumption
    | intro y
    | (extract_lets +onlyGivenNames x
       first
       | (first | refine State.Keeps.letH (z := z) (x := x) ?_ ?_ | refine State.Keeps.letF (z := z) (x := x) ?_ ?_ | refine State.Keeps.letR (z := z) (x := x) ?_ ?_ | refine ExecKeeps.letJ (x := x) ?_ ?_ | refine ExecKeeps.letM (x := x) ?_ ?_
          unfold x; clear x; rotate_left; clear_value x; intro; rotate_right)
       | clear_value x
       | skip)
    | with_reducible apply ha4
    | with_reducible apply spdmRow_keeps
    | split

theorem execSpdmGetVersion_keeps : ∀ a0 a1 (a2 : State), z.Keeps a2 → OutKeeps z (execSpdmGetVersion a0 a1 a2) := by
  intro a0 a1 a2 h
  unfold execSpdmGetVersion
  repeat' first
    | with_reducible assumption
    | intro y
    | (extract_lets +onlyGivenNames x
       first
       | (first | refine State.Keeps.letH (z := z) (x := x) ?_ ?_ | refine State.Keeps.letF (z := z) (x := x) ?_ ?_
          unfold x; clear x; rotate_left; clear_value x; intro; rotate_right)
       | clear_value x
       | skip)
    | with_reducible apply spdmRow_keeps

theorem execSpdmGetCapabilities_keeps : ∀ a0 a1 (a2 : State), z.Keeps a2 → OutKeeps z (execSpdmGetCapabilities a0 a1 a2) := by
  intro a0 a1 a2 h
  unfold execSpdmGetCapabilities
  repeat' first
    | with_reducible assumption
    | intro y
    | (extract_lets +onlyGivenNames x
       first
       | (first | refine State.Keeps.letH (z := z) (x := x) ?_ ?_ | refine State.Keeps.letF (z := z) (x := x) ?_ ?_
          unfold x; clear x; rotate_left; clear_value x; intro; rotate_right)
       | clear_value x
       | skip)
    | with_reducible apply spdmRow_keeps
    | split

theorem execSpdmNegotiateAlgorithms_keeps : ∀ a0 a1 (a2 : State), z.Keeps a2 → OutKeeps z (execSpdmNegotiateAlgorithms a0 a1 a2) := by
  intro a0 a1 a2 h
  unfold execSpdmNegotiateAlgorithms
  repeat' first
    | with_reducible assumption
    | intro y
    | (extract_lets +onlyGivenNames x
       first
       | (first | refine State.Keeps.letH (z := z) (x := x) ?_ ?_ | refine State.Keeps.letF (z := z) (x := x) ?_ ?_
          unfold x; clear x; rotate_left; clear_value x; intro; rotate_right)
       | clear_value x
       | skip)
    | with_reducible apply spdmRow_keeps
    | split

theorem execSpdmGetDigests_keeps : ∀ a0 a1 (a2 : State), z.Keeps a2 → OutKeeps z (execSpdmGetDigests a0 a1 a2) := by
  intro a0 a1 a2 h
  unfold execSpdmGetDigests
  repeat' first
    | with_reducible assumption
    | intro y
    | (extract_lets +onlyGivenNames x
       first
       | (first | refine State.Keeps.letH (z := z) (x := x) ?_ ?_ | refine State.Keeps.letF (z := z) (x := x) ?_ ?_
          unfold x; clear x; rotate_left; clear_value x; intro; rotate_right)
       | clear_value x
       | skip)
    | with_reducible apply afterNegotiation_keeps

theorem execSpdmGetCertificate_keeps : ∀ a0 a1 (a2 : State), z.Keeps a2 → OutKeeps z (execSpdmGetCertificate a0 a1 a2) := by
  intro a0 a1 a2 h
  unfold execSpdmGetCertificate
  repeat' first
    | with_reducible assumption
    | intro y
    | (extract_lets +onlyGivenNames x
       first
       | (first | refine State.Keeps.letH (z := z) (x := x) ?_ ?_ | refine State.Keeps.letF (z := z) (x := x) ?_ ?_
          unfold x; clear x; rotate_left; clear_value x; intro; rotate_right)
       | clear_value x
       | skip)
    | with_reducible apply afterNegotiation_keeps
    | split

theorem execSpdmChallenge_keeps : ∀ a0 a1 (a2 : State), z.Keeps a2 → OutKeeps z (execSpdmChallenge a0 a1 a2) := by
  intro a0 a1 a2 h
  unfold execSpdmChallenge
  repeat' first
    | with_reducible assumption
    | intro y
    | (extract_lets +onlyGivenNames x
       first
       | (first | refine State.Keeps.letH (z := z) (x := x) ?_ ?_ | refine State.Keeps.letF (z := z) (x := x) ?_ ?_
          unfold x; clear x; rotate_left; clear_value x; intro; rotate_right)
       | clear_value x
       | skip)
    | with_reducible apply afterNegotiation_keeps
    | with_reducible apply State.randomNonce_keeps
    | simp -zeta -zetaDelta only [State.Keeps.mk_iff, State.Keeps.mk_flash]
    | split

theorem execSpdmGetMeasurements_keeps : ∀ a0 a1 (a2 : State), z.Keeps a2 → OutKeeps z (execSpdmGetMeasurements a0 a1 a2) := by
  intro a0 a1 a2 h
  unfold execSpdmGetMeasurements
  repeat' first
    | with_reducible assumption
    | intro y
    | (extract_lets +onlyGivenNames x
       first
       | (first | refine State.Keeps.letH (z := z) (x := x) ?_ ?_ | refine State.Keeps.letF (z := z) (x := x) ?_ ?_
          unfold x; clear x; rotate_left; clear_value x; intro; rotate_right)
       | clear_value x
       | skip)
    | with_reducible apply afterNegotiation_keeps
    | with_reducible apply State.randomNonce_keeps
    | simp -zeta -zetaDelta only [State.Keeps.mk_iff, State.Keeps.mk_flash]
    | split

theorem execSpdmUnsupportedRequest_keeps : ∀ a0 a1 (a2 : State), z.Keeps a2 → OutKeeps z (execSpdmUnsupportedRequest a0 a1 a2) := by
  intro a0 a1 a2 h
  unfold execSpdmUnsupportedRequest
  repeat' first
    | with_reducible assumption
    | intro y
    | with_reducible apply OutKeeps.next
    | with_reducible apply spdmRow_keeps
    | split

theorem State.pldmAnswer_keeps : ∀ (a0 : State) a1, z.Keeps a0 → z.Keeps (State.pldmAnswer a0 a1) := by
  intro a0 a1 h
  unfold State.pldmAnswer
  repeat' first
    | with_reducible assumption
    | (extract_lets +onlyGivenNames x
       first
       | (first | refine State.Keeps.letH (z := z) (x := x) ?_ ?_ | refine State.Keeps.letF (z := z) (x := x) ?_ ?_
          unfold x; clear x; rotate_left; clear_value x; intro; rotate_right)
       | clear_value x
       | skip)
    | simp -zeta -zetaDelta only [State.Keeps.mk_iff, State.Keeps.mk_flash]

theorem execPldmSensorRead_keeps : ∀ a0 (a1 : State), z.Keeps a1 → OutKeeps z (execPldmSensorRead a0 a1) := by
  intro a0 a1 h
  unfold execPldmSensorRead
  repeat' first
    | with_reducible assumption
    | (extract_lets +onlyGivenNames x
       first
       | (first | refine State.Keeps.letH (z := z) (x := x) ?_ ?_ | refine State.Keeps.letF (z := z) (x := x) ?_ ?_
          unfold x; clear x; rotate_left; clear_value x; intro; rotate_right)
       | clear_value x
       | skip)
    | with_reducible apply OutKeeps.next
    | with_reducible apply State.pldmAnswer_keeps
    | split

theorem execPldmCollectorSet_keeps : ∀ a0 a1 a2 (a3 : State), z.Keeps a3 → OutKeeps z (execPldmCollectorSet a0 a1 a2 a3) := by
  intro a0 a1 a2 a3 h
  unfold execPldmCollectorSet
  repeat' first
    | with_reducible assumption
    | (extract_lets +onlyGivenNames x
       first
       | (first | refine State.Keeps.letH (z := z) (x := x) ?_ ?_ | refine State.Keeps.letF (z := z) (x := x) ?_ ?_
          unfold x; clear x; rotate_left; clear_value x; intro; rotate_right)
       | clear_value x
       | skip)
    | with_reducible apply OutKeeps.next
    | with_reducible apply State.pldmAnswer_keeps
    | with_reducible apply State.setCollector_keeps
    | split

end Sys2Proof.Machine
end

