-- ==== Sys2Proof/Laws/KeepsClOps.lean ====
section
/-! SUPPORT. What Machine/ClOps.lean keeps: one lemma an operation. -/
namespace Sys2Proof.Machine
set_option linter.all false

variable {z : State}

theorem runNum_keeps : ExecKeeps (runNum) := by
  unfold runNum
  repeat' first
    | intro y
    | (extract_lets +onlyGivenNames x
       first
       | (first | refine ExecKeeps.letJ (x := x) ?_ ?_ | refine ExecKeeps.letM (x := x) ?_ ?_
          unfold x; clear x; rotate_left; clear_value x; intro; rotate_right)
       | clear_value x
       | skip)
    | with_reducible exact ExecKeeps.pure _
    | with_reducible exact ExecKeeps.get
    | with_reducible apply ExecKeeps.bind

theorem openColl_keeps : ∀ a0 a1 a2 a3 a4 a5 a6 a7, ExecKeeps (openColl a0 a1 a2 a3 a4 a5 a6 a7) := by
  intro a0 a1 a2 a3 a4 a5 a6 a7
  unfold openColl
  repeat' first
    | with_reducible assumption
    | intro y
    | (extract_lets +onlyGivenNames x
       first
       | (first | refine State.Keeps.letH (z := z) (x := x) ?_ ?_ | refine State.Keeps.letF (z := z) (x := x) ?_ ?_ | refine State.Keeps.letR (z := z) (x := x) ?_ ?_ | refine ExecKeeps.letJ (x := x) ?_ ?_ | refine ExecKeeps.letM (x := x) ?_ ?_
          unfold x; clear x; rotate_left; clear_value x; intro; rotate_right)
       | clear_value x
       | skip)
    | with_reducible apply State.updDie_keeps
    | with_reducible exact ExecKeeps.pure _
    | with_reducible exact ExecKeeps.get
    | with_reducible apply ExecKeeps.bind
    | with_reducible apply ExecKeeps.modS
    | with_reducible apply ExecKeeps.modify

theorem sendRank_keeps : ∀ a0 a1 a2 a3 a4 a5 a6 a7, ExecKeeps (sendRank a0 a1 a2 a3 a4 a5 a6 a7) := by
  intro a0 a1 a2 a3 a4 a5 a6 a7
  unfold sendRank
  repeat' first
    | with_reducible assumption
    | intro y
    | (extract_lets +onlyGivenNames x
       first
       | (first | refine State.Keeps.letH (z := z) (x := x) ?_ ?_ | refine State.Keeps.letF (z := z) (x := x) ?_ ?_ | refine State.Keeps.letR (z := z) (x := x) ?_ ?_ | refine ExecKeeps.letJ (x := x) ?_ ?_ | refine ExecKeeps.letM (x := x) ?_ ?_
          unfold x; clear x; rotate_left; clear_value x; intro; rotate_right)
       | clear_value x
       | skip)
    | with_reducible apply State.sendBytes_keeps
    | with_reducible exact ExecKeeps.pure _
    | with_reducible exact ExecKeeps.get
    | with_reducible apply ExecKeeps.bind
    | with_reducible apply ExecKeeps.modS
    | simp -zeta -zetaDelta only [State.Keeps.mk_iff, State.Keeps.mk_flash]
    | split

theorem castAll_keeps : ∀ a0 a1 a2 a3 a4 a5, ExecKeeps (castAll a0 a1 a2 a3 a4 a5) := by
  intro a0 a1 a2 a3 a4 a5
  unfold castAll
  repeat' first
    | with_reducible assumption
    | intro y
    | (extract_lets +onlyGivenNames x
       first
       | (first | refine State.Keeps.letH (z := z) (x := x) ?_ ?_ | refine State.Keeps.letF (z := z) (x := x) ?_ ?_ | refine State.Keeps.letR (z := z) (x := x) ?_ ?_ | refine ExecKeeps.letJ (x := x) ?_ ?_ | refine ExecKeeps.letM (x := x) ?_ ?_
          unfold x; clear x; rotate_left; clear_value x; intro; rotate_right)
       | clear_value x
       | skip)
    | with_reducible apply State.sendBytes_keeps
    | with_reducible exact ExecKeeps.pure _
    | with_reducible exact ExecKeeps.get
    | with_reducible apply ExecKeeps.bind
    | with_reducible apply ExecKeeps.modS
    | with_reducible apply ExecKeeps.forM
    | split

theorem readSource_keeps : ∀ a0, ExecKeeps (readSource a0) := by
  intro a0
  unfold readSource
  repeat' first
    | with_reducible assumption
    | intro y
    | (extract_lets +onlyGivenNames x
       first
       | (first | refine State.Keeps.letH (z := z) (x := x) ?_ ?_ | refine State.Keeps.letF (z := z) (x := x) ?_ ?_ | refine State.Keeps.letR (z := z) (x := x) ?_ ?_ | refine ExecKeeps.letJ (x := x) ?_ ?_ | refine ExecKeeps.letM (x := x) ?_ ?_
          unfold x; clear x; rotate_left; clear_value x; intro; rotate_right)
       | clear_value x
       | skip)
    | with_reducible apply lineMarked_keeps
    | with_reducible apply readFlat_keeps
    | with_reducible apply setNonfinite_keeps
    | with_reducible exact ExecKeeps.pure _
    | with_reducible exact ExecKeeps.trap _
    | with_reducible exact ExecKeeps.get
    | with_reducible exact ExecKeeps.getS
    | with_reducible apply ExecKeeps.bind
    | with_reducible apply ExecKeeps.modS
    | with_reducible apply ExecKeeps.modify
    | with_reducible apply ExecKeeps.forM
    | with_reducible apply ExecKeeps.mapM
    | with_reducible apply ExecKeeps.foldlM
    | with_reducible apply ExecKeeps.when
    | with_reducible apply State.Keeps.foldl
    | with_reducible apply State.Keeps.foldlProd
    | with_reducible apply State.Keeps.foldlSnd
    | simp -zeta -zetaDelta only [State.Keeps.mk_iff, State.Keeps.mk_flash]
    | split

theorem holdLine_keeps : ExecKeeps holdLine := by
  unfold holdLine
  apply ExecKeeps.modify
  intro z r h
  exact h

theorem readTable_keeps : ∀ a0 a1, ExecKeeps (readTable a0 a1) := by
  intro a0 a1
  unfold readTable
  repeat' first
    | intro y
    | (extract_lets +onlyGivenNames x
       first
       | (first | refine ExecKeeps.letJ (x := x) ?_ ?_ | refine ExecKeeps.letM (x := x) ?_ ?_
          unfold x; clear x; rotate_left; clear_value x; intro; rotate_right)
       | clear_value x
       | skip)
    | with_reducible apply resolve_keeps
    | with_reducible apply shapeIf_keeps
    | with_reducible apply readElems_keeps
    | with_reducible exact ExecKeeps.pure _
    | with_reducible apply ExecKeeps.bind

theorem openData_keeps : ∀ a0 a1 a2, ExecKeeps (openData a0 a1 a2) := by
  intro a0 a1 a2
  unfold openData
  repeat' first
    | with_reducible assumption
    | intro y
    | (extract_lets +onlyGivenNames x
       first
       | (first | refine ExecKeeps.letJ (x := x) ?_ ?_ | refine ExecKeeps.letM (x := x) ?_ ?_
          unfold x; clear x; rotate_left; clear_value x; intro; rotate_right)
       | clear_value x
       | skip)
    | with_reducible apply resolve_keeps
    | with_reducible apply bindDesc_keeps
    | with_reducible apply shapeIf_keeps
    | with_reducible apply readSource_keeps
    | with_reducible exact ExecKeeps.pure _
    | with_reducible apply ExecKeeps.bind
    | split
    | with_reducible apply_assumption

theorem clDataBody_keeps : ∀ a0 a1 a2, ExecKeeps (clDataBody a0 a1 a2) := by
  intro a0 a1 a2
  unfold clDataBody
  repeat' first
    | intro y
    | (extract_lets +onlyGivenNames x
       first
       | (first | refine State.Keeps.letH (z := z) (x := x) ?_ ?_ | refine State.Keeps.letF (z := z) (x := x) ?_ ?_ | refine State.Keeps.letR (z := z) (x := x) ?_ ?_ | refine ExecKeeps.letJ (x := x) ?_ ?_ | refine ExecKeeps.letM (x := x) ?_ ?_
          unfold x; clear x; rotate_left; clear_value x; intro; rotate_right)
       | clear_value x
       | skip)
    | with_reducible apply openData_keeps
    | with_reducible apply openColl_keeps
    | with_reducible apply sendRank_keeps
    | with_reducible apply readTable_keeps
    | with_reducible apply castAll_keeps
    | with_reducible exact ExecKeeps.get
    | with_reducible apply ExecKeeps.bind
    | with_reducible apply ExecKeeps.forM
    | simp -zeta -zetaDelta only [State.Keeps.mk_iff, State.Keeps.mk_flash]
    | split

theorem clBcastBody_keeps : ∀ a0 a1, ExecKeeps (clBcastBody a0 a1) := by
  intro a0 a1
  unfold clBcastBody
  repeat' first
    | with_reducible assumption
    | intro y
    | (extract_lets +onlyGivenNames x
       first
       | (first | refine State.Keeps.letH (z := z) (x := x) ?_ ?_ | refine State.Keeps.letF (z := z) (x := x) ?_ ?_ | refine State.Keeps.letR (z := z) (x := x) ?_ ?_ | refine ExecKeeps.letJ (x := x) ?_ ?_ | refine ExecKeeps.letM (x := x) ?_ ?_
          unfold x; clear x; rotate_left; clear_value x; intro; rotate_right)
       | clear_value x
       | skip)
    | with_reducible apply openColl_keeps
    | with_reducible apply readSource_keeps
    | with_reducible apply holdLine_keeps
    | with_reducible apply bindDesc_keeps
    | with_reducible apply resolve_keeps
    | with_reducible apply shapeIf_keeps
    | with_reducible apply castAll_keeps
    | with_reducible exact ExecKeeps.pure _
    | with_reducible exact ExecKeeps.trap _
    | with_reducible exact ExecKeeps.get
    | with_reducible exact ExecKeeps.getS
    | with_reducible apply ExecKeeps.bind
    | with_reducible apply ExecKeeps.modS
    | with_reducible apply ExecKeeps.modify
    | with_reducible apply ExecKeeps.forM
    | with_reducible apply ExecKeeps.mapM
    | with_reducible apply ExecKeeps.foldlM
    | with_reducible apply ExecKeeps.when
    | with_reducible apply State.Keeps.foldl
    | with_reducible apply State.Keeps.foldlProd
    | with_reducible apply State.Keeps.foldlSnd
    | simp -zeta -zetaDelta only [State.Keeps.mk_iff, State.Keeps.mk_flash]
    | split

theorem clGradsendBody_keeps : ∀ a0 a1, ExecKeeps (clGradsendBody a0 a1) := by
  intro a0 a1
  unfold clGradsendBody
  repeat' first
    | with_reducible assumption
    | intro y
    | (extract_lets +onlyGivenNames x
       first
       | (first | refine State.Keeps.letH (z := z) (x := x) ?_ ?_ | refine State.Keeps.letF (z := z) (x := x) ?_ ?_ | refine State.Keeps.letR (z := z) (x := x) ?_ ?_ | refine ExecKeeps.letJ (x := x) ?_ ?_ | refine ExecKeeps.letM (x := x) ?_ ?_
          unfold x; clear x; rotate_left; clear_value x; intro; rotate_right)
       | clear_value x
       | skip)
    | with_reducible apply openSet_keeps
    | with_reducible apply openColl_keeps
    | with_reducible apply sendRank_keeps
    | with_reducible apply setTainted_keeps
    | with_reducible apply raisePairing_keeps
    | with_reducible apply readUnits_keeps
    | with_reducible exact ExecKeeps.pure _
    | with_reducible exact ExecKeeps.get
    | with_reducible apply ExecKeeps.bind
    | with_reducible exact ExecKeeps.getS
    | split
    | with_reducible apply_assumption

theorem clGradrecvBody_keeps : ∀ a0 a1, ExecKeeps (clGradrecvBody a0 a1) := by
  intro a0 a1
  unfold clGradrecvBody
  repeat' first
    | with_reducible assumption
    | intro y
    | (extract_lets +onlyGivenNames x
       first
       | (first | refine State.Keeps.letH (z := z) (x := x) ?_ ?_ | refine State.Keeps.letF (z := z) (x := x) ?_ ?_ | refine State.Keeps.letR (z := z) (x := x) ?_ ?_ | refine ExecKeeps.letJ (x := x) ?_ ?_ | refine ExecKeeps.letM (x := x) ?_ ?_
          unfold x; clear x; rotate_left; clear_value x; intro; rotate_right)
       | clear_value x
       | skip)
    | with_reducible apply shapeIf_keeps
    | with_reducible apply physNow_keeps
    | with_reducible apply openSet_keeps
    | with_reducible apply evict_keeps
    | with_reducible apply evictOwn_keeps
    | with_reducible apply State.updDie_keeps
    | with_reducible apply openColl_keeps
    | with_reducible apply setTainted_keeps
    | with_reducible apply raisePairing_keeps
    | with_reducible apply accFault_keeps
    | with_reducible exact ExecKeeps.pure _
    | with_reducible exact ExecKeeps.get
    | with_reducible apply ExecKeeps.bind
    | with_reducible exact ExecKeeps.trap _
    | with_reducible apply ExecKeeps.modS
    | split
    | with_reducible apply_assumption

theorem bindCast_keeps : ∀ a0 a1, ExecKeeps (bindCast a0 a1) := by
  intro a0 a1
  unfold bindCast
  repeat' first
    | with_reducible assumption
    | intro y
    | (extract_lets +onlyGivenNames x
       first
       | (first | refine State.Keeps.letH (z := z) (x := x) ?_ ?_ | refine State.Keeps.letF (z := z) (x := x) ?_ ?_ | refine State.Keeps.letR (z := z) (x := x) ?_ ?_ | refine ExecKeeps.letJ (x := x) ?_ ?_ | refine ExecKeeps.letM (x := x) ?_ ?_
          unfold x; clear x; rotate_left; clear_value x; intro; rotate_right)
       | clear_value x
       | skip)
    | with_reducible apply exactRows_keeps
    | with_reducible apply bindDesc_keeps
    | with_reducible apply shapeIf_keeps
    | with_reducible apply getCtx_keeps
    | with_reducible exact ExecKeeps.pure _
    | with_reducible exact ExecKeeps.trap _
    | with_reducible exact ExecKeeps.get
    | with_reducible exact ExecKeeps.getS
    | with_reducible apply ExecKeeps.bind
    | with_reducible apply ExecKeeps.modS
    | with_reducible apply ExecKeeps.modify
    | with_reducible apply ExecKeeps.forM
    | with_reducible apply ExecKeeps.mapM
    | with_reducible apply ExecKeeps.foldlM
    | with_reducible apply ExecKeeps.when
    | with_reducible apply State.Keeps.foldl
    | with_reducible apply State.Keeps.foldlProd
    | with_reducible apply State.Keeps.foldlSnd
    | simp -zeta -zetaDelta only [State.Keeps.mk_iff, State.Keeps.mk_flash]
    | split

theorem clSetcastBody_keeps : ∀ a0 a1, ExecKeeps (clSetcastBody a0 a1) := by
  intro a0 a1
  unfold clSetcastBody
  repeat' first
    | with_reducible assumption
    | intro y
    | (extract_lets +onlyGivenNames x
       first
       | (first | refine State.Keeps.letH (z := z) (x := x) ?_ ?_ | refine State.Keeps.letF (z := z) (x := x) ?_ ?_ | refine State.Keeps.letR (z := z) (x := x) ?_ ?_ | refine ExecKeeps.letJ (x := x) ?_ ?_ | refine ExecKeeps.letM (x := x) ?_ ?_
          unfold x; clear x; rotate_left; clear_value x; intro; rotate_right)
       | clear_value x
       | skip)
    | with_reducible apply openColl_keeps
    | with_reducible apply readUnits_keeps
    | with_reducible apply castMessage_keeps
    | with_reducible apply bindCast_keeps
    | with_reducible apply holdLine_keeps
    | with_reducible apply lineMarked_keeps
    | with_reducible apply raisePairing_keeps
    | with_reducible apply setTainted_keeps
    | with_reducible apply shapeIf_keeps
    | with_reducible apply castAll_keeps
    | with_reducible apply openSet_keeps
    | with_reducible apply getCtx_keeps
    | with_reducible exact ExecKeeps.pure _
    | with_reducible exact ExecKeeps.trap _
    | with_reducible exact ExecKeeps.get
    | with_reducible exact ExecKeeps.getS
    | with_reducible apply ExecKeeps.bind
    | with_reducible apply ExecKeeps.peek
    | with_reducible apply ExecKeeps.modS
    | with_reducible apply ExecKeeps.modify
    | with_reducible apply ExecKeeps.forM
    | with_reducible apply ExecKeeps.mapM
    | with_reducible apply ExecKeeps.foldlM
    | with_reducible apply ExecKeeps.when
    | with_reducible apply State.Keeps.foldl
    | with_reducible apply State.Keeps.foldlProd
    | with_reducible apply State.Keeps.foldlSnd
    | simp -zeta -zetaDelta only [State.Keeps.mk_iff, State.Keeps.mk_flash]
    | split
    | with_reducible apply_assumption

theorem State.sendStage_keeps : ∀ (a0 : State) a1 a2 a3 a4, z.Keeps a0 → z.Keeps (State.sendStage a0 a1 a2 a3 a4) := by
  intro a0 a1 a2 a3 a4 h
  unfold State.sendStage
  repeat' first
    | with_reducible assumption
    | intro y
    | (extract_lets +onlyGivenNames x
       first
       | (first | refine State.Keeps.letH (z := z) (x := x) ?_ ?_ | refine State.Keeps.letF (z := z) (x := x) ?_ ?_
          unfold x; clear x; rotate_left; clear_value x; intro; rotate_right)
       | clear_value x
       | skip)
    | with_reducible apply State.updOp_keeps
    | with_reducible apply State.updDie_keeps
    | with_reducible apply State.route_keeps
    | with_reducible apply State.Keeps.foldl
    | split

theorem State.expressAdvance_keeps : ∀ (a0 : State) a1 a2 a3 a4, z.Keeps a0 → z.Keeps (State.expressAdvance a0 a1 a2 a3 a4) := by
  intro a0 a1 a2 a3 a4 h
  unfold State.expressAdvance
  repeat' first
    | with_reducible assumption
    | intro y
    | (extract_lets +onlyGivenNames x
       first
       | (first | refine State.Keeps.letH (z := z) (x := x) ?_ ?_ | refine State.Keeps.letF (z := z) (x := x) ?_ ?_ | refine State.Keeps.letR (z := z) (x := x) ?_ ?_ | refine ExecKeeps.letJ (x := x) ?_ ?_ | refine ExecKeeps.letM (x := x) ?_ ?_
          unfold x; clear x; rotate_left; clear_value x; intro; rotate_right)
       | clear_value x
       | skip)
    | with_reducible apply State.sendStage_keeps
    | with_reducible apply State.updOp_keeps
    | with_reducible apply State.settle_keeps
    | with_reducible apply State.inCl_keeps
    | with_reducible apply CollOp.place_keeps
    | with_reducible apply State.Keeps.foldl
    | simp -zeta -zetaDelta only [State.Keeps.mk_iff, State.Keeps.mk_flash]
    | split

theorem clExpressBody_keeps : ∀ a0 a1, ExecKeeps (clExpressBody a0 a1) := by
  intro a0 a1
  unfold clExpressBody
  repeat' first
    | with_reducible assumption
    | intro y
    | (extract_lets +onlyGivenNames x
       first
       | (first | refine State.Keeps.letH (z := z) (x := x) ?_ ?_ | refine State.Keeps.letF (z := z) (x := x) ?_ ?_ | refine State.Keeps.letR (z := z) (x := x) ?_ ?_ | refine ExecKeeps.letJ (x := x) ?_ ?_ | refine ExecKeeps.letM (x := x) ?_ ?_
          unfold x; clear x; rotate_left; clear_value x; intro; rotate_right)
       | clear_value x
       | skip)
    | with_reducible apply resolve_keeps
    | with_reducible apply bindDesc_keeps
    | with_reducible apply shapeIf_keeps
    | with_reducible apply readSource_keeps
    | with_reducible apply openColl_keeps
    | with_reducible apply State.updOp_keeps
    | with_reducible exact ExecKeeps.get
    | with_reducible apply ExecKeeps.bind
    | with_reducible apply ExecKeeps.modS

theorem State.applyExpress_keeps : ∀ (a0 : State) a1 a2 a3 a4, z.Keeps a0 → z.Keeps (State.applyExpress a0 a1 a2 a3 a4) := by
  intro a0 a1 a2 a3 a4 h
  unfold State.applyExpress
  repeat' first
    | with_reducible assumption
    | (extract_lets +onlyGivenNames x
       first
       | (first | refine State.Keeps.letH (z := z) (x := x) ?_ ?_ | refine State.Keeps.letF (z := z) (x := x) ?_ ?_
          unfold x; clear x; rotate_left; clear_value x; intro; rotate_right)
       | clear_value x
       | skip)
    | with_reducible apply State.orVerdict_keeps
    | with_reducible apply State.orderFaultBy_keeps
    | with_reducible apply State.count_keeps
    | with_reducible apply State.updOp_keeps
    | with_reducible apply State.route_keeps
    | with_reducible apply State.expressAdvance_keeps
    | split

theorem State.offerExpress_keeps : ∀ (a0 : State) a1 a2, z.Keeps a0 → z.Keeps (State.offerExpress a0 a1 a2).1 := by
  intro a0 a1 a2 h
  unfold State.offerExpress
  repeat' first
    | with_reducible assumption
    | intro y
    | (extract_lets +onlyGivenNames x
       first
       | (first | refine State.Keeps.letH (z := z) (x := x) ?_ ?_ | refine State.Keeps.letF (z := z) (x := x) ?_ ?_
          unfold x; clear x; rotate_left; clear_value x; intro; rotate_right)
       | clear_value x
       | skip)
    | with_reducible apply State.orderFaultBy_keeps
    | with_reducible apply State.applyExpress_keeps
    | with_reducible apply State.count_keeps
    | with_reducible apply State.park_keeps
    | with_reducible apply State.Keeps.foldl
    | with_reducible apply State.Keeps.foldlProd
    | with_reducible apply State.Keeps.foldlSnd
    | simp -zeta -zetaDelta only [State.Keeps.mk_iff, State.Keeps.mk_flash]
    | split
    | with_reducible apply_assumption

theorem clBody_keeps : ∀ a0 a1 a2, ExecKeeps (clBody a0 a1 a2) := by
  intro a0 a1 a2
  unfold clBody
  repeat' first
    | with_reducible apply clGradsendBody_keeps
    | with_reducible apply clGradrecvBody_keeps
    | with_reducible apply clBcastBody_keeps
    | with_reducible apply clSetcastBody_keeps
    | with_reducible apply clExpressBody_keeps
    | with_reducible apply clDataBody_keeps
    | split

theorem State.kick_keeps : ∀ (a0 : State) a1 a2 a3, z.Keeps a0 → z.Keeps (State.kick a0 a1 a2 a3) := by
  intro a0 a1 a2 a3 h
  unfold State.kick
  repeat' first
    | with_reducible assumption
    | intro y
    | (extract_lets +onlyGivenNames x
       first
       | (first | refine State.Keeps.letH (z := z) (x := x) ?_ ?_ | refine State.Keeps.letF (z := z) (x := x) ?_ ?_
          unfold x; clear x; rotate_left; clear_value x; intro; rotate_right)
       | clear_value x
       | skip)
    | with_reducible apply State.landed_keeps
    | with_reducible apply State.Keeps.foldl
    | with_reducible apply State.Keeps.foldlProd
    | with_reducible apply State.Keeps.foldlSnd
    | simp -zeta -zetaDelta only [State.Keeps.mk_iff, State.Keeps.mk_flash]
    | split

theorem State.unparkExpress_keeps : ∀ (a0 : State) a1 a2 a3, z.Keeps a0 → z.Keeps (State.unparkExpress a0 a1 a2 a3) := by
  intro a0 a1 a2 a3 h
  unfold State.unparkExpress
  repeat' first
    | with_reducible assumption
    | intro y
    | (extract_lets +onlyGivenNames x
       first
       | (first | refine State.Keeps.letH (z := z) (x := x) ?_ ?_ | refine State.Keeps.letF (z := z) (x := x) ?_ ?_
          unfold x; clear x; rotate_left; clear_value x; intro; rotate_right)
       | clear_value x
       | skip)
    | with_reducible apply State.updDie_keeps
    | with_reducible apply State.applyExpress_keeps
    | with_reducible apply State.Keeps.foldl
    | split

theorem State.startOp_keeps : ∀ (a0 : State) a1 a2 a3, z.Keeps a0 → z.Keeps (State.startOp a0 a1 a2 a3) := by
  intro a0 a1 a2 a3 h
  unfold State.startOp
  repeat' first
    | with_reducible assumption
    | (extract_lets +onlyGivenNames x
       first
       | (first | refine State.Keeps.letH (z := z) (x := x) ?_ ?_ | refine State.Keeps.letF (z := z) (x := x) ?_ ?_
          unfold x; clear x; rotate_left; clear_value x; intro; rotate_right)
       | clear_value x
       | skip)
    | with_reducible apply State.localPartials_keeps
    | with_reducible apply State.kick_keeps
    | with_reducible apply State.expressAdvance_keeps
    | with_reducible apply State.unparkExpress_keeps
    | with_reducible apply State.fillReceipts_keeps
    | with_reducible apply State.unpark_keeps
    | with_reducible apply State.settle_keeps
    | with_reducible apply State.pump_keeps
    | split

theorem State.runCl_keeps : ∀ (a0 : State) a1 a2 a3 a4 a5 a6 a7, z.Keeps a0 → z.Keeps (State.runCl a0 a1 a2 a3 a4 a5 a6 a7) := by
  intro a0 a1 a2 a3 a4 a5 a6 a7 h
  unfold State.runCl
  repeat' first
    | with_reducible assumption
    | (extract_lets +onlyGivenNames x
       first
       | (first | refine State.Keeps.letH (z := z) (x := x) ?_ ?_ | refine State.Keeps.letF (z := z) (x := x) ?_ ?_ | refine State.Keeps.letR (z := z) (x := x) ?_ ?_ | refine ExecKeeps.letJ (x := x) ?_ ?_ | refine ExecKeeps.letM (x := x) ?_ ?_
          unfold x; clear x; rotate_left; clear_value x; intro; rotate_right)
       | clear_value x
       | skip)
    | with_reducible apply State.runEngine_keeps
    | with_reducible apply clBody_keeps
    | with_reducible apply State.startOp_keeps
    | split

theorem clRow_keeps : ∀ a0 a1 a2 a3 a4 (a5 : State), z.Keeps a5 → OutKeeps z (clRow a0 a1 a2 a3 a4 a5) := by
  intro a0 a1 a2 a3 a4 a5 h
  unfold clRow
  repeat' first
    | with_reducible assumption
    | intro y
    | (extract_lets +onlyGivenNames x
       first
       | (first | refine State.Keeps.letH (z := z) (x := x) ?_ ?_ | refine State.Keeps.letF (z := z) (x := x) ?_ ?_ | refine State.Keeps.letR (z := z) (x := x) ?_ ?_ | refine ExecKeeps.letJ (x := x) ?_ ?_ | refine ExecKeeps.letM (x := x) ?_ ?_
          unfold x; clear x; rotate_left; clear_value x; intro; rotate_right)
       | clear_value x
       | skip)
    | with_reducible apply OutKeeps.next
    | with_reducible apply State.updDie_keeps
    | with_reducible apply clBody_keeps
    | with_reducible apply State.runCl_keeps
    | with_reducible apply State.updStream_keeps
    | with_reducible refine State.tryIssue_stays ?_ (by with_reducible assumption)
    | with_reducible refine State.tryIssue_go_keeps ?_ (by with_reducible assumption)
    | with_reducible exact ExecKeeps.pure _
    | with_reducible exact ExecKeeps.trap _
    | with_reducible exact ExecKeeps.get
    | with_reducible exact ExecKeeps.getS
    | with_reducible apply ExecKeeps.bind
    | with_reducible apply ExecKeeps.modS
    | with_reducible apply ExecKeeps.modify
    | with_reducible apply ExecKeeps.forM
    | with_reducible apply ExecKeeps.mapM
    | with_reducible apply ExecKeeps.foldlM
    | with_reducible apply ExecKeeps.when
    | with_reducible refine ExecKeeps.run ?_ ?_ (by with_reducible assumption)
    | with_reducible apply State.Keeps.foldl
    | with_reducible apply State.Keeps.foldlProd
    | with_reducible apply State.Keeps.foldlSnd
    | simp -zeta -zetaDelta only [State.Keeps.mk_iff, State.Keeps.mk_flash]
    | split

theorem execClShift_keeps : ∀ a0 a1 a2 a3 (a4 : State), z.Keeps a4 → OutKeeps z (execClShift a0 a1 a2 a3 a4) := by
  intro a0 a1 a2 a3 a4 h
  unfold execClShift
  repeat' first
    | with_reducible assumption
    | with_reducible apply clRow_keeps

theorem execClPermute_keeps : ∀ a0 a1 a2 a3 (a4 : State), z.Keeps a4 → OutKeeps z (execClPermute a0 a1 a2 a3 a4) := by
  intro a0 a1 a2 a3 a4 h
  unfold execClPermute
  repeat' first
    | with_reducible assumption
    | with_reducible apply clRow_keeps

theorem execClAlltoall_keeps : ∀ a0 a1 a2 a3 (a4 : State), z.Keeps a4 → OutKeeps z (execClAlltoall a0 a1 a2 a3 a4) := by
  intro a0 a1 a2 a3 a4 h
  unfold execClAlltoall
  repeat' first
    | with_reducible assumption
    | with_reducible apply clRow_keeps

theorem execClGradsend_keeps : ∀ a0 a1 a2 a3 (a4 : State), z.Keeps a4 → OutKeeps z (execClGradsend a0 a1 a2 a3 a4) := by
  intro a0 a1 a2 a3 a4 h
  unfold execClGradsend
  repeat' first
    | with_reducible assumption
    | with_reducible apply clRow_keeps

theorem execClGradrecv_keeps : ∀ a0 a1 a2 a3 (a4 : State), z.Keeps a4 → OutKeeps z (execClGradrecv a0 a1 a2 a3 a4) := by
  intro a0 a1 a2 a3 a4 h
  unfold execClGradrecv
  repeat' first
    | with_reducible assumption
    | with_reducible apply clRow_keeps

theorem execClReduce_keeps : ∀ a0 a1 a2 a3 (a4 : State), z.Keeps a4 → OutKeeps z (execClReduce a0 a1 a2 a3 a4) := by
  intro a0 a1 a2 a3 a4 h
  unfold execClReduce
  repeat' first
    | with_reducible assumption
    | with_reducible apply clRow_keeps

theorem execClReduceScatter_keeps : ∀ a0 a1 a2 a3 (a4 : State), z.Keeps a4 → OutKeeps z (execClReduceScatter a0 a1 a2 a3 a4) := by
  intro a0 a1 a2 a3 a4 h
  unfold execClReduceScatter
  repeat' first
    | with_reducible assumption
    | with_reducible apply clRow_keeps

theorem execClGather_keeps : ∀ a0 a1 a2 a3 (a4 : State), z.Keeps a4 → OutKeeps z (execClGather a0 a1 a2 a3 a4) := by
  intro a0 a1 a2 a3 a4 h
  unfold execClGather
  repeat' first
    | with_reducible assumption
    | with_reducible apply clRow_keeps

theorem execClBcast_keeps : ∀ a0 a1 a2 a3 (a4 : State), z.Keeps a4 → OutKeeps z (execClBcast a0 a1 a2 a3 a4) := by
  intro a0 a1 a2 a3 a4 h
  unfold execClBcast
  repeat' first
    | with_reducible assumption
    | with_reducible apply clRow_keeps

theorem execClSetcast_keeps : ∀ a0 a1 a2 a3 (a4 : State), z.Keeps a4 → OutKeeps z (execClSetcast a0 a1 a2 a3 a4) := by
  intro a0 a1 a2 a3 a4 h
  unfold execClSetcast
  repeat' first
    | with_reducible assumption
    | with_reducible apply clRow_keeps

theorem execClExpress_keeps : ∀ a0 a1 a2 a3 (a4 : State), z.Keeps a4 → OutKeeps z (execClExpress a0 a1 a2 a3 a4) := by
  intro a0 a1 a2 a3 a4 h
  unfold execClExpress
  repeat' first
    | with_reducible assumption
    | with_reducible apply clRow_keeps

theorem execClSlotGranted_keeps : ∀ a0 a1 (a2 : State), z.Keeps a2 → OutKeeps z (execClSlotGranted a0 a1 a2) := by
  intro a0 a1 a2 h
  unfold execClSlotGranted
  repeat' first
    | with_reducible assumption
    | intro y
    | (extract_lets +onlyGivenNames x
       first
       | (first | refine State.Keeps.letH (z := z) (x := x) ?_ ?_ | refine State.Keeps.letF (z := z) (x := x) ?_ ?_ | refine State.Keeps.letR (z := z) (x := x) ?_ ?_ | refine ExecKeeps.letJ (x := x) ?_ ?_ | refine ExecKeeps.letM (x := x) ?_ ?_
          unfold x; clear x; rotate_left; clear_value x; intro; rotate_right)
       | clear_value x
       | skip)
    | with_reducible apply OutKeeps.next
    | with_reducible apply State.updDie_keeps
    | with_reducible apply clBody_keeps
    | with_reducible apply State.invalid_keeps
    | with_reducible apply State.runCl_keeps
    | with_reducible apply State.updStream_keeps
    | with_reducible exact ExecKeeps.pure _
    | with_reducible exact ExecKeeps.trap _
    | with_reducible exact ExecKeeps.get
    | with_reducible exact ExecKeeps.getS
    | with_reducible apply ExecKeeps.bind
    | with_reducible apply ExecKeeps.modS
    | with_reducible apply ExecKeeps.modify
    | with_reducible apply ExecKeeps.forM
    | with_reducible apply ExecKeeps.mapM
    | with_reducible apply ExecKeeps.foldlM
    | with_reducible apply ExecKeeps.when
    | with_reducible refine ExecKeeps.run ?_ ?_ (by with_reducible assumption)
    | with_reducible apply State.Keeps.foldl
    | with_reducible apply State.Keeps.foldlProd
    | with_reducible apply State.Keeps.foldlSnd
    | simp -zeta -zetaDelta only [State.Keeps.mk_iff, State.Keeps.mk_flash]
    | split

theorem execCollectiveTimeout_keeps : ∀ a0 a1 a2 (a3 : State), z.Keeps a3 → OutKeeps z (execCollectiveTimeout a0 a1 a2 a3) := by
  intro a0 a1 a2 a3 h
  unfold execCollectiveTimeout
  repeat' first
    | with_reducible assumption
    | intro y
    | (extract_lets +onlyGivenNames x
       first
       | (first | refine State.Keeps.letH (z := z) (x := x) ?_ ?_ | refine State.Keeps.letF (z := z) (x := x) ?_ ?_
          unfold x; clear x; rotate_left; clear_value x; intro; rotate_right)
       | clear_value x
       | skip)
    | with_reducible apply OutKeeps.next
    | with_reducible apply State.endBackoffs_keeps
    | with_reducible apply State.orderFault_keeps
    | with_reducible apply State.Keeps.foldl
    | with_reducible apply State.Keeps.foldlProd
    | with_reducible apply State.Keeps.foldlSnd
    | simp -zeta -zetaDelta only [State.Keeps.mk_iff, State.Keeps.mk_flash]
    | split

theorem execExpressResend_keeps : ∀ a0 a1 (a2 : State), z.Keeps a2 → OutKeeps z (execExpressResend a0 a1 a2) := by
  intro a0 a1 a2 h
  unfold execExpressResend
  repeat' first
    | with_reducible assumption
    | intro y
    | (extract_lets +onlyGivenNames x
       first
       | (first | refine State.Keeps.letH (z := z) (x := x) ?_ ?_ | refine State.Keeps.letF (z := z) (x := x) ?_ ?_
          unfold x; clear x; rotate_left; clear_value x; intro; rotate_right)
       | clear_value x
       | skip)
    | with_reducible apply OutKeeps.next
    | with_reducible apply State.route_keeps
    | with_reducible apply State.count_keeps
    | with_reducible apply State.Keeps.foldl
    | split

end Sys2Proof.Machine
end

