-- ==== Sys2Proof/Laws/KeepsReceipt.lean ====
section
/-! SUPPORT. What Machine/Receipt.lean keeps: one lemma an operation. -/
namespace Sys2Proof.Machine
set_option linter.all false

variable {z : State}

theorem State.markSeq_keeps : ∀ (a0 : State) a1 a2, z.Keeps a0 → z.Keeps (State.markSeq a0 a1 a2) := by
  intro a0 a1 a2 h
  unfold State.markSeq
  repeat' first
    | with_reducible assumption
    | intro y
    | (extract_lets +onlyGivenNames x
       first
       | (first | refine State.Keeps.letH (z := z) (x := x) ?_ ?_ | refine State.Keeps.letF (z := z) (x := x) ?_ ?_
          unfold x; clear x; rotate_left; clear_value x; intro; rotate_right)
       | clear_value x
       | skip)
    | with_reducible apply State.updDies_keeps
    | with_reducible apply State.Keeps.foldl
    | with_reducible apply State.Keeps.foldlProd
    | with_reducible apply State.Keeps.foldlSnd
    | simp -zeta -zetaDelta only [State.Keeps.mk_iff, State.Keeps.mk_flash]
    | split

theorem State.sendAck_keeps : ∀ (a0 : State) a1 a2 a3, z.Keeps a0 → z.Keeps (State.sendAck a0 a1 a2 a3) := by
  intro a0 a1 a2 a3 h
  unfold State.sendAck
  repeat' first
    | with_reducible assumption
    | (extract_lets +onlyGivenNames x
       first
       | (first | refine State.Keeps.letH (z := z) (x := x) ?_ ?_ | refine State.Keeps.letF (z := z) (x := x) ?_ ?_
          unfold x; clear x; rotate_left; clear_value x; intro; rotate_right)
       | clear_value x
       | skip)
    | with_reducible apply State.updDie_keeps
    | with_reducible apply State.offer_keeps

theorem State.ackFor_keeps : ∀ (a0 : State) a1 a2 a3, z.Keeps a0 → z.Keeps (State.ackFor a0 a1 a2 a3) := by
  intro a0 a1 a2 a3 h
  unfold State.ackFor
  repeat' first
    | with_reducible assumption
    | with_reducible apply State.sendAck_keeps
    | split

theorem State.sendMsgAck_keeps : ∀ (a0 : State) a1 a2, z.Keeps a0 → z.Keeps (State.sendMsgAck a0 a1 a2) := by
  intro a0 a1 a2 h
  unfold State.sendMsgAck
  repeat' first
    | with_reducible assumption
    | with_reducible apply State.offer_keeps

theorem State.countMessage_keeps : ∀ (a0 : State) a1 a2, z.Keeps a0 → z.Keeps (State.countMessage a0 a1 a2) := by
  intro a0 a1 a2 h
  unfold State.countMessage
  repeat' first
    | with_reducible assumption
    | (extract_lets +onlyGivenNames x
       first
       | (first | refine State.Keeps.letH (z := z) (x := x) ?_ ?_ | refine State.Keeps.letF (z := z) (x := x) ?_ ?_
          unfold x; clear x; rotate_left; clear_value x; intro; rotate_right)
       | clear_value x
       | skip)
    | with_reducible apply State.updDie_keeps
    | with_reducible apply State.measure_keeps
    | with_reducible apply State.semAdd_keeps
    | with_reducible apply State.sendMsgAck_keeps
    | split

theorem State.land_keeps : ∀ (a0 : State) a1 a2 a3 a4 a5, z.Keeps a0 → z.Keeps (State.land a0 a1 a2 a3 a4 a5) := by
  intro a0 a1 a2 a3 a4 a5 h
  unfold State.land
  repeat' first
    | with_reducible assumption
    | intro y
    | (extract_lets +onlyGivenNames x
       first
       | (first | refine State.Keeps.letH (z := z) (x := x) ?_ ?_ | refine State.Keeps.letF (z := z) (x := x) ?_ ?_
          unfold x; clear x; rotate_left; clear_value x; intro; rotate_right)
       | clear_value x
       | skip)
    | with_reducible apply State.write_keeps
    | with_reducible apply State.chargeDelivery_keeps
    | with_reducible apply State.countWrites_keeps
    | with_reducible apply State.Keeps.foldl
    | simp -zeta -zetaDelta only [State.Keeps.mk_iff, State.Keeps.mk_flash]
    | split

theorem State.landTags_keeps : ∀ (a0 : State) a1 a2, z.Keeps a0 → z.Keeps (State.landTags a0 a1 a2) := by
  intro a0 a1 a2 h
  unfold State.landTags
  repeat' first
    | with_reducible assumption
    | intro y
    | (extract_lets +onlyGivenNames x
       first
       | (first | refine State.Keeps.letH (z := z) (x := x) ?_ ?_ | refine State.Keeps.letF (z := z) (x := x) ?_ ?_
          unfold x; clear x; rotate_left; clear_value x; intro; rotate_right)
       | clear_value x
       | skip)
    | with_reducible apply State.draw_keeps
    | with_reducible apply State.Keeps.foldl
    | with_reducible apply State.Keeps.foldlProd
    | with_reducible apply State.Keeps.foldlSnd
    | simp -zeta -zetaDelta only [State.Keeps.mk_iff, State.Keeps.mk_flash]
    | split

theorem State.landPut_keeps : ∀ (a0 : State) a1 a2, z.Keeps a0 → z.Keeps (State.landPut a0 a1 a2) := by
  intro a0 a1 a2 h
  unfold State.landPut
  repeat' first
    | with_reducible assumption
    | (extract_lets +onlyGivenNames x
       first
       | (first | refine State.Keeps.letH (z := z) (x := x) ?_ ?_ | refine State.Keeps.letF (z := z) (x := x) ?_ ?_
          unfold x; clear x; rotate_left; clear_value x; intro; rotate_right)
       | clear_value x
       | skip)
    | with_reducible apply State.landTags_keeps
    | with_reducible apply State.land_keeps
    | split

theorem State.answerGet_keeps : ∀ (a0 : State) a1 a2, z.Keeps a0 → z.Keeps (State.answerGet a0 a1 a2) := by
  intro a0 a1 a2 h
  unfold State.answerGet
  repeat' first
    | with_reducible assumption
    | intro y
    | (extract_lets +onlyGivenNames x
       first
       | (first | refine State.Keeps.letH (z := z) (x := x) ?_ ?_ | refine State.Keeps.letF (z := z) (x := x) ?_ ?_
          unfold x; clear x; rotate_left; clear_value x; intro; rotate_right)
       | clear_value x
       | skip)
    | with_reducible apply State.countReads_keeps
    | with_reducible apply State.pump_keeps
    | with_reducible apply State.askUnits_keeps
    | with_reducible apply State.queueSend_keeps
    | with_reducible apply State.Keeps.foldl
    | with_reducible apply State.Keeps.foldlProd
    | with_reducible apply State.Keeps.foldlSnd
    | simp -zeta -zetaDelta only [State.Keeps.mk_iff, State.Keeps.mk_flash]
    | split

theorem State.effect_keeps : ∀ (a0 : State) a1 a2, z.Keeps a0 → z.Keeps (State.effect a0 a1 a2) := by
  intro a0 a1 a2 h
  unfold State.effect
  repeat' first
    | with_reducible assumption
    | (extract_lets +onlyGivenNames x
       first
       | (first | refine State.Keeps.letH (z := z) (x := x) ?_ ?_ | refine State.Keeps.letF (z := z) (x := x) ?_ ?_
          unfold x; clear x; rotate_left; clear_value x; intro; rotate_right)
       | clear_value x
       | skip)
    | with_reducible apply State.countMessage_keeps
    | with_reducible apply State.landPut_keeps
    | with_reducible apply State.semAdd_keeps
    | with_reducible apply State.answerGet_keeps
    | split

theorem State.deliverColl_some {s t : State} {d : Die} {p : Pkt} (h : z.Keeps s) (e : s.deliverColl d p = some t) : z.Keeps t := by
  unfold State.deliverColl at e
  split at e
  · injection e with e; subst e
    rename_i hq
    exact State.countMessage_keeps _ _ _ ((State.offerColl_keeps _ _ _ h).taken_eq hq)
  · split at e
    · cases e
    · injection e with e; subst e
      rename_i hq _
      exact State.nak_keeps _ _ _ _ ((State.offerColl_keeps _ _ _ h).refused_eq hq)

theorem State.deliver_some {s t : State} {d : Die} {p : Pkt} (h : z.Keeps s) (e : s.deliver d p = some t) : z.Keeps t := by
  unfold State.deliver at e
  split at e
  · split at e
    · cases e
    · injection e with e; subst e; exact State.nak_keeps _ _ _ _ h
    · split at e
      · exact State.deliverColl_some h e
      · injection e with e; subst e; exact State.effect_keeps _ _ _ h
  · injection e with e; subst e; exact State.effect_keeps _ _ _ h

theorem State.drain_keeps : ∀ (a0 : State) a1 a2 (n : Nat), z.Keeps a0 → z.Keeps (State.drain a0 a1 a2 n) := by
  intro s node die n
  induction n generalizing s with
  | zero => intro h; exact h
  | succ n ih =>
    intro h
    unfold State.drain
    split
    · exact h
    · split
      · exact h
      · rename_i e
        exact ih _ (State.deliver_some (State.updDie_keeps _ _ _ h) e)

theorem State.drainAll_keeps : ∀ (a0 : State), z.Keeps a0 → z.Keeps (State.drainAll a0) := by
  intro a0 h
  unfold State.drainAll
  repeat' first
    | with_reducible assumption
    | intro y
    | (extract_lets +onlyGivenNames x
       first
       | (first | refine State.Keeps.letH (z := z) (x := x) ?_ ?_ | refine State.Keeps.letF (z := z) (x := x) ?_ ?_
          unfold x; clear x; rotate_left; clear_value x; intro; rotate_right)
       | clear_value x
       | skip)
    | with_reducible apply State.drain_keeps
    | with_reducible apply State.Keeps.foldl
    | with_reducible apply State.Keeps.foldlProd
    | with_reducible apply State.Keeps.foldlSnd
    | simp -zeta -zetaDelta only [State.Keeps.mk_iff, State.Keeps.mk_flash]
    | split
    | with_reducible apply_assumption

theorem State.storeOrdered_keeps : ∀ (a0 : State) a1 a2, z.Keeps a0 → z.Keeps (State.storeOrdered a0 a1 a2) := by
  intro a0 a1 a2 h
  unfold State.storeOrdered
  repeat' first
    | with_reducible assumption
    | intro y
    | (extract_lets +onlyGivenNames x
       first
       | (first | refine State.Keeps.letH (z := z) (x := x) ?_ ?_ | refine State.Keeps.letF (z := z) (x := x) ?_ ?_
          unfold x; clear x; rotate_left; clear_value x; intro; rotate_right)
       | clear_value x
       | skip)
    | with_reducible apply State.markSeq_keeps
    | with_reducible apply State.updDie_keeps
    | with_reducible apply State.drainAll_keeps
    | with_reducible apply State.nak_keeps
    | with_reducible apply State.ackFor_keeps
    | with_reducible apply State.Keeps.foldl
    | with_reducible apply State.Keeps.foldlProd
    | with_reducible apply State.Keeps.foldlSnd
    | simp -zeta -zetaDelta only [State.Keeps.mk_iff, State.Keeps.mk_flash]
    | split

theorem State.unbox_keeps : ∀ (a0 : State) a1, z.Keeps a0 → z.Keeps (State.unbox a0 a1) := by
  intro a0 a1 h
  unfold State.unbox
  repeat' first
    | with_reducible assumption
    | (extract_lets +onlyGivenNames x
       first
       | (first | refine State.Keeps.letH (z := z) (x := x) ?_ ?_ | refine State.Keeps.letF (z := z) (x := x) ?_ ?_
          unfold x; clear x; rotate_left; clear_value x; intro; rotate_right)
       | clear_value x
       | skip)
    | simp -zeta -zetaDelta only [State.Keeps.mk_iff, State.Keeps.mk_flash]

theorem State.receive_keeps : ∀ (a0 : State) a1 a2, z.Keeps a0 → z.Keeps (State.receive a0 a1 a2) := by
  intro a0 a1 a2 h
  unfold State.receive
  repeat' first
    | with_reducible assumption
    | intro y
    | (extract_lets +onlyGivenNames x
       first
       | (first | refine State.Keeps.letH (z := z) (x := x) ?_ ?_ | refine State.Keeps.letF (z := z) (x := x) ?_ ?_
          unfold x; clear x; rotate_left; clear_value x; intro; rotate_right)
       | clear_value x
       | skip)
    | with_reducible apply State.markSeq_keeps
    | with_reducible apply State.storeOrdered_keeps
    | with_reducible apply State.drainAll_keeps
    | with_reducible apply State.effect_keeps
    | with_reducible apply State.nak_keeps
    | with_reducible apply State.unbox_keeps
    | with_reducible apply State.ackFor_keeps
    | with_reducible apply State.count_keeps
    | with_reducible apply State.Keeps.foldl
    | with_reducible apply State.Keeps.foldlProd
    | with_reducible apply State.Keeps.foldlSnd
    | simp -zeta -zetaDelta only [State.Keeps.mk_iff, State.Keeps.mk_flash]
    | split

theorem execPutReceived_keeps : ∀ a0 (a1 : State), z.Keeps a1 → OutKeeps z (execPutReceived a0 a1) := by
  intro a0 a1 h
  unfold execPutReceived
  repeat' first
    | with_reducible assumption
    | (extract_lets +onlyGivenNames x
       first
       | (first | refine State.Keeps.letH (z := z) (x := x) ?_ ?_ | refine State.Keeps.letF (z := z) (x := x) ?_ ?_
          unfold x; clear x; rotate_left; clear_value x; intro; rotate_right)
       | clear_value x
       | skip)
    | with_reducible apply OutKeeps.next
    | with_reducible apply State.receive_keeps

theorem execSignalReceived_keeps : ∀ a0 (a1 : State), z.Keeps a1 → OutKeeps z (execSignalReceived a0 a1) := by
  intro a0 a1 h
  unfold execSignalReceived
  repeat' first
    | with_reducible assumption
    | (extract_lets +onlyGivenNames x
       first
       | (first | refine State.Keeps.letH (z := z) (x := x) ?_ ?_ | refine State.Keeps.letF (z := z) (x := x) ?_ ?_
          unfold x; clear x; rotate_left; clear_value x; intro; rotate_right)
       | clear_value x
       | skip)
    | with_reducible apply OutKeeps.next
    | with_reducible apply State.receive_keeps

theorem execGetReqReceived_keeps : ∀ a0 a1 (a2 : State), z.Keeps a2 → OutKeeps z (execGetReqReceived a0 a1 a2) := by
  intro a0 a1 a2 h
  unfold execGetReqReceived
  repeat' first
    | with_reducible assumption
    | (extract_lets +onlyGivenNames x
       first
       | (first | refine State.Keeps.letH (z := z) (x := x) ?_ ?_ | refine State.Keeps.letF (z := z) (x := x) ?_ ?_
          unfold x; clear x; rotate_left; clear_value x; intro; rotate_right)
       | clear_value x
       | skip)
    | with_reducible apply OutKeeps.next
    | with_reducible apply State.receive_keeps
    | with_reducible apply State.applyPhys_keeps

theorem execGetRespReceived_keeps : ∀ a0 (a1 : State), z.Keeps a1 → OutKeeps z (execGetRespReceived a0 a1) := by
  intro a0 a1 h
  unfold execGetRespReceived
  repeat' first
    | with_reducible assumption
    | (extract_lets +onlyGivenNames x
       first
       | (first | refine State.Keeps.letH (z := z) (x := x) ?_ ?_ | refine State.Keeps.letF (z := z) (x := x) ?_ ?_
          unfold x; clear x; rotate_left; clear_value x; intro; rotate_right)
       | clear_value x
       | skip)
    | with_reducible apply OutKeeps.next
    | with_reducible apply State.receive_keeps

theorem execCollReceived_keeps : ∀ a0 (a1 : State), z.Keeps a1 → OutKeeps z (execCollReceived a0 a1) := by
  intro a0 a1 h
  unfold execCollReceived
  repeat' first
    | with_reducible assumption
    | intro y
    | (extract_lets +onlyGivenNames x
       first
       | (first | refine State.Keeps.letH (z := z) (x := x) ?_ ?_ | refine State.Keeps.letF (z := z) (x := x) ?_ ?_
          unfold x; clear x; rotate_left; clear_value x; intro; rotate_right)
       | clear_value x
       | skip)
    | with_reducible apply OutKeeps.next
    | with_reducible apply State.markSeq_keeps
    | with_reducible apply State.storeOrdered_keeps
    | with_reducible apply State.drainAll_keeps
    | with_reducible apply State.countMessage_keeps
    | with_reducible refine AnswerKeeps.taken_eq ?_ (by with_reducible assumption)
    | with_reducible refine AnswerKeeps.refused_eq ?_ (by with_reducible assumption)
    | with_reducible apply State.offerColl_keeps
    | with_reducible apply State.nak_keeps
    | with_reducible apply State.unbox_keeps
    | with_reducible apply State.ackFor_keeps
    | with_reducible apply State.count_keeps
    | with_reducible apply State.sendMsgAck_keeps
    | with_reducible apply State.Keeps.foldl
    | with_reducible apply State.Keeps.foldlProd
    | with_reducible apply State.Keeps.foldlSnd
    | simp -zeta -zetaDelta only [State.Keeps.mk_iff, State.Keeps.mk_flash]
    | split

theorem execExpressReceived_keeps : ∀ a0 (a1 : State), z.Keeps a1 → OutKeeps z (execExpressReceived a0 a1) := by
  intro a0 a1 h
  unfold execExpressReceived
  repeat' first
    | with_reducible assumption
    | intro y
    | (extract_lets +onlyGivenNames x
       first
       | (first | refine State.Keeps.letH (z := z) (x := x) ?_ ?_ | refine State.Keeps.letF (z := z) (x := x) ?_ ?_
          unfold x; clear x; rotate_left; clear_value x; intro; rotate_right)
       | clear_value x
       | skip)
    | with_reducible apply OutKeeps.next
    | with_reducible apply State.markSeq_keeps
    | with_reducible apply State.offerExpress_keeps
    | with_reducible apply State.unbox_keeps
    | with_reducible apply State.count_keeps
    | with_reducible apply State.Keeps.foldl
    | with_reducible apply State.Keeps.foldlProd
    | with_reducible apply State.Keeps.foldlSnd
    | simp -zeta -zetaDelta only [State.Keeps.mk_iff, State.Keeps.mk_flash]
    | split

theorem execAckReceived_keeps : ∀ a0 (a1 : State), z.Keeps a1 → OutKeeps z (execAckReceived a0 a1) := by
  intro a0 a1 h
  unfold execAckReceived
  repeat' first
    | with_reducible assumption
    | intro y
    | (extract_lets +onlyGivenNames x
       first
       | (first | refine State.Keeps.letH (z := z) (x := x) ?_ ?_ | refine State.Keeps.letF (z := z) (x := x) ?_ ?_
          unfold x; clear x; rotate_left; clear_value x; intro; rotate_right)
       | clear_value x
       | skip)
    | with_reducible apply OutKeeps.next
    | with_reducible apply State.unbox_keeps
    | with_reducible apply State.updDie_keeps
    | with_reducible apply State.draw_keeps
    | with_reducible apply State.measure_keeps
    | with_reducible apply State.settle_keeps
    | with_reducible apply State.pump_keeps
    | with_reducible apply State.Keeps.foldl
    | split

theorem execMsgAckReceived_keeps : ∀ a0 (a1 : State), z.Keeps a1 → OutKeeps z (execMsgAckReceived a0 a1) := by
  intro a0 a1 h
  unfold execMsgAckReceived
  repeat' first
    | with_reducible assumption
    | (extract_lets +onlyGivenNames x
       first
       | (first | refine State.Keeps.letH (z := z) (x := x) ?_ ?_ | refine State.Keeps.letF (z := z) (x := x) ?_ ?_
          unfold x; clear x; rotate_left; clear_value x; intro; rotate_right)
       | clear_value x
       | skip)
    | with_reducible apply OutKeeps.next
    | with_reducible apply State.unbox_keeps
    | with_reducible apply State.updDie_keeps
    | with_reducible apply State.settle_keeps
    | with_reducible apply State.pump_keeps
    | split

theorem State.resend_keeps : ∀ (a0 : State) a1 a2 a3, z.Keeps a0 → z.Keeps (State.resend a0 a1 a2 a3) := by
  intro a0 a1 a2 a3 h
  unfold State.resend
  repeat' first
    | with_reducible assumption
    | intro y
    | (extract_lets +onlyGivenNames x
       first
       | (first | refine State.Keeps.letH (z := z) (x := x) ?_ ?_ | refine State.Keeps.letF (z := z) (x := x) ?_ ?_
          unfold x; clear x; rotate_left; clear_value x; intro; rotate_right)
       | clear_value x
       | skip)
    | with_reducible apply State.route_keeps
    | with_reducible apply State.count_keeps
    | with_reducible apply State.Keeps.foldl
    | split

theorem State.updSrc_keeps : ∀ (a0 : State) a1 a2 a3, z.Keeps a0 → z.Keeps (State.updSrc a0 a1 a2 a3) := by
  intro a0 a1 a2 a3 h
  unfold State.updSrc
  repeat' first
    | with_reducible assumption
    | with_reducible apply State.updDie_keeps

theorem State.dropSrc_keeps : ∀ (a0 : State) a1 a2, z.Keeps a0 → z.Keeps (State.dropSrc a0 a1 a2) := by
  intro a0 a1 a2 h
  unfold State.dropSrc
  repeat' first
    | with_reducible assumption
    | with_reducible apply State.updDie_keeps

theorem State.giveUp_keeps : ∀ (a0 : State) a1 a2 a3 a4, z.Keeps a0 → z.Keeps (State.giveUp a0 a1 a2 a3 a4) := by
  intro a0 a1 a2 a3 a4 h
  unfold State.giveUp
  repeat' first
    | with_reducible assumption
    | (extract_lets +onlyGivenNames x
       first
       | (first | refine State.Keeps.letH (z := z) (x := x) ?_ ?_ | refine State.Keeps.letF (z := z) (x := x) ?_ ?_
          unfold x; clear x; rotate_left; clear_value x; intro; rotate_right)
       | clear_value x
       | skip)
    | with_reducible apply State.dropSrc_keeps
    | with_reducible apply State.fabricFault_keeps
    | simp -zeta -zetaDelta only [State.Keeps.mk_iff, State.Keeps.mk_flash]

theorem State.countedReason_keeps : ∀ (a0 : State) a1 a2 a3 a4, z.Keeps a0 → z.Keeps (State.countedReason a0 a1 a2 a3 a4) := by
  intro a0 a1 a2 a3 a4 h
  unfold State.countedReason
  repeat' first
    | with_reducible assumption
    | (extract_lets +onlyGivenNames x
       first
       | (first | refine State.Keeps.letH (z := z) (x := x) ?_ ?_ | refine State.Keeps.letF (z := z) (x := x) ?_ ?_
          unfold x; clear x; rotate_left; clear_value x; intro; rotate_right)
       | clear_value x
       | skip)
    | with_reducible apply State.giveUp_keeps
    | with_reducible apply State.updSrc_keeps
    | with_reducible apply State.resend_keeps
    | split

theorem execNakReceived_keeps : ∀ a0 (a1 : State), z.Keeps a1 → OutKeeps z (execNakReceived a0 a1) := by
  intro a0 a1 h
  unfold execNakReceived
  repeat' first
    | with_reducible assumption
    | (extract_lets +onlyGivenNames x
       first
       | (first | refine State.Keeps.letH (z := z) (x := x) ?_ ?_ | refine State.Keeps.letF (z := z) (x := x) ?_ ?_
          unfold x; clear x; rotate_left; clear_value x; intro; rotate_right)
       | clear_value x
       | skip)
    | with_reducible apply OutKeeps.next
    | with_reducible apply State.count_keeps
    | with_reducible apply State.unbox_keeps
    | with_reducible apply State.dropSrc_keeps
    | with_reducible apply State.stopFault_keeps
    | with_reducible apply State.updSrc_keeps
    | with_reducible apply State.countedReason_keeps
    | split

theorem execE2eTimeout_keeps : ∀ a0 a1 (a2 : State), z.Keeps a2 → OutKeeps z (execE2eTimeout a0 a1 a2) := by
  intro a0 a1 a2 h
  unfold execE2eTimeout
  repeat' first
    | with_reducible assumption
    | (extract_lets +onlyGivenNames x
       first
       | (first | refine State.Keeps.letH (z := z) (x := x) ?_ ?_ | refine State.Keeps.letF (z := z) (x := x) ?_ ?_
          unfold x; clear x; rotate_left; clear_value x; intro; rotate_right)
       | clear_value x
       | skip)
    | with_reducible apply OutKeeps.next
    | with_reducible apply State.countedReason_keeps
    | split

theorem execNakBackoffExpiry_keeps : ∀ a0 a1 (a2 : State), z.Keeps a2 → OutKeeps z (execNakBackoffExpiry a0 a1 a2) := by
  intro a0 a1 a2 h
  unfold execNakBackoffExpiry
  repeat' first
    | with_reducible assumption
    | (extract_lets +onlyGivenNames x
       first
       | (first | refine State.Keeps.letH (z := z) (x := x) ?_ ?_ | refine State.Keeps.letF (z := z) (x := x) ?_ ?_
          unfold x; clear x; rotate_left; clear_value x; intro; rotate_right)
       | clear_value x
       | skip)
    | with_reducible apply OutKeeps.next
    | with_reducible apply State.resend_keeps
    | with_reducible apply State.updSrc_keeps
    | split

theorem execAckTimer_keeps : ∀ a0 a1 a2 a3 (a4 : State), z.Keeps a4 → OutKeeps z (execAckTimer a0 a1 a2 a3 a4) := by
  intro a0 a1 a2 a3 a4 h
  unfold execAckTimer
  repeat' first
    | with_reducible assumption
    | (extract_lets +onlyGivenNames x
       first
       | (first | refine State.Keeps.letH (z := z) (x := x) ?_ ?_ | refine State.Keeps.letF (z := z) (x := x) ?_ ?_
          unfold x; clear x; rotate_left; clear_value x; intro; rotate_right)
       | clear_value x
       | skip)
    | with_reducible apply OutKeeps.next
    | with_reducible apply State.sendAck_keeps
    | split

theorem execTrackingEntryExpiry_keeps : ∀ a0 a1 a2 a3 (a4 : State), z.Keeps a4 → OutKeeps z (execTrackingEntryExpiry a0 a1 a2 a3 a4) := by
  intro a0 a1 a2 a3 a4 h
  unfold execTrackingEntryExpiry
  repeat' first
    | with_reducible assumption
    | intro y
    | (extract_lets +onlyGivenNames x
       first
       | (first | refine State.Keeps.letH (z := z) (x := x) ?_ ?_ | refine State.Keeps.letF (z := z) (x := x) ?_ ?_
          unfold x; clear x; rotate_left; clear_value x; intro; rotate_right)
       | clear_value x
       | skip)
    | with_reducible apply OutKeeps.next
    | with_reducible apply State.updDies_keeps
    | with_reducible apply State.Keeps.foldl
    | with_reducible apply State.Keeps.foldlProd
    | with_reducible apply State.Keeps.foldlSnd
    | simp -zeta -zetaDelta only [State.Keeps.mk_iff, State.Keeps.mk_flash]
    | split

end Sys2Proof.Machine
end

