-- ==== Sys2Proof/Laws/KeepsCastle.lean ====
section
/-! SUPPORT. What Machine/Castle.lean keeps: one lemma an operation. -/
namespace Sys2Proof.Machine
set_option linter.all false

variable {z : State}

theorem State.sendMgmt_keeps : ∀ (a0 : State) a1 a2 a3, z.Keeps a0 → z.Keeps (State.sendMgmt a0 a1 a2 a3) := by
  intro a0 a1 a2 a3 h
  unfold State.sendMgmt
  repeat' first
    | with_reducible assumption
    | with_reducible apply State.route_keeps

theorem State.writeRemap_keeps : ∀ (a0 : State) a1, z.Keeps a0 → z.Keeps (State.writeRemap a0 a1) := by
  intro a0 a1 h
  unfold State.writeRemap
  repeat' first
    | with_reducible assumption
    | (extract_lets +onlyGivenNames x
       first
       | (first | refine State.Keeps.letH (z := z) (x := x) ?_ ?_ | refine State.Keeps.letF (z := z) (x := x) ?_ ?_
          unfold x; clear x; rotate_left; clear_value x; intro; rotate_right)
       | clear_value x
       | skip)
    | simp -zeta -zetaDelta only [State.Keeps.mk_iff, State.Keeps.mk_flash]

theorem State.renumber_keeps : ∀ (a0 : State) a1 a2, z.Keeps a0 → z.Keeps (State.renumber a0 a1 a2) := by
  intro a0 a1 a2 h
  unfold State.renumber
  repeat' first
    | with_reducible assumption
    | (extract_lets +onlyGivenNames x
       first
       | (first | refine State.Keeps.letH (z := z) (x := x) ?_ ?_ | refine State.Keeps.letF (z := z) (x := x) ?_ ?_
          unfold x; clear x; rotate_left; clear_value x; intro; rotate_right)
       | clear_value x
       | skip)
    | simp -zeta -zetaDelta only [State.Keeps.mk_iff, State.Keeps.mk_flash]
    | split

theorem State.takeSwap_keeps : ∀ (a0 : State) a1 a2 a3 a4, z.Keeps a0 → z.Keeps (State.takeSwap a0 a1 a2 a3 a4) := by
  intro a0 a1 a2 a3 a4 h
  unfold State.takeSwap
  repeat' first
    | with_reducible assumption
    | (extract_lets +onlyGivenNames x
       first
       | (first | refine State.Keeps.letH (z := z) (x := x) ?_ ?_ | refine State.Keeps.letF (z := z) (x := x) ?_ ?_
          unfold x; clear x; rotate_left; clear_value x; intro; rotate_right)
       | clear_value x
       | skip)
    | with_reducible apply State.renumber_keeps
    | with_reducible apply State.writeRemap_keeps
    | simp -zeta -zetaDelta only [State.Keeps.mk_iff, State.Keeps.mk_flash]
    | split

theorem State.endSwap_keeps : ∀ (a0 : State) a1 a2 a3, z.Keeps a0 → z.Keeps (State.endSwap a0 a1 a2 a3) := by
  intro a0 a1 a2 a3 h
  unfold State.endSwap
  repeat' first
    | with_reducible assumption
    | (extract_lets +onlyGivenNames x
       first
       | (first | refine State.Keeps.letH (z := z) (x := x) ?_ ?_ | refine State.Keeps.letF (z := z) (x := x) ?_ ?_
          unfold x; clear x; rotate_left; clear_value x; intro; rotate_right)
       | clear_value x
       | skip)
    | with_reducible apply State.hostEvent_keeps
    | with_reducible apply State.finishCommand_keeps
    | simp -zeta -zetaDelta only [State.Keeps.mk_iff, State.Keeps.mk_flash]
    | split

theorem State.sendSwap_keeps : ∀ (a0 : State) a1 a2 a3 a4 a5, z.Keeps a0 → z.Keeps (State.sendSwap a0 a1 a2 a3 a4 a5) := by
  intro a0 a1 a2 a3 a4 a5 h
  unfold State.sendSwap
  repeat' first
    | with_reducible assumption
    | intro y
    | (extract_lets +onlyGivenNames x
       first
       | (first | refine State.Keeps.letH (z := z) (x := x) ?_ ?_ | refine State.Keeps.letF (z := z) (x := x) ?_ ?_
          unfold x; clear x; rotate_left; clear_value x; intro; rotate_right)
       | clear_value x
       | skip)
    | with_reducible apply State.sendMgmt_keeps
    | with_reducible apply State.Keeps.foldl

theorem execCastle_keeps : ∀ a0 a1 a2 (a3 : State), z.Keeps a3 → OutKeeps z (execCastle a0 a1 a2 a3) := by
  intro a0 a1 a2 a3 h
  unfold execCastle
  repeat' first
    | with_reducible assumption
    | (extract_lets +onlyGivenNames x
       first
       | (first | refine State.Keeps.letH (z := z) (x := x) ?_ ?_ | refine State.Keeps.letF (z := z) (x := x) ?_ ?_
          unfold x; clear x; rotate_left; clear_value x; intro; rotate_right)
       | clear_value x
       | skip)
    | with_reducible apply OutKeeps.next
    | with_reducible apply State.finishCommand_keeps
    | with_reducible apply State.takeSwap_keeps
    | with_reducible apply State.sendSwap_keeps
    | with_reducible apply State.endSwap_keeps
    | simp -zeta -zetaDelta only [State.Keeps.mk_iff, State.Keeps.mk_flash]
    | split

theorem execSwapResend_keeps : ∀ (a0 : State), z.Keeps a0 → OutKeeps z (execSwapResend a0) := by
  intro a0 h
  unfold execSwapResend
  repeat' first
    | with_reducible assumption
    | (extract_lets +onlyGivenNames x
       first
       | (first | refine State.Keeps.letH (z := z) (x := x) ?_ ?_ | refine State.Keeps.letF (z := z) (x := x) ?_ ?_
          unfold x; clear x; rotate_left; clear_value x; intro; rotate_right)
       | clear_value x
       | skip)
    | with_reducible apply OutKeeps.next
    | with_reducible apply State.sendSwap_keeps
    | with_reducible apply State.sendMgmt_keeps
    | simp -zeta -zetaDelta only [State.Keeps.mk_iff, State.Keeps.mk_flash]
    | split

theorem execSwapDeadline_keeps : ∀ (a0 : State), z.Keeps a0 → OutKeeps z (execSwapDeadline a0) := by
  intro a0 h
  unfold execSwapDeadline
  repeat' first
    | with_reducible assumption
    | (extract_lets +onlyGivenNames x
       first
       | (first | refine State.Keeps.letH (z := z) (x := x) ?_ ?_ | refine State.Keeps.letF (z := z) (x := x) ?_ ?_
          unfold x; clear x; rotate_left; clear_value x; intro; rotate_right)
       | clear_value x
       | skip)
    | with_reducible apply OutKeeps.next
    | with_reducible apply State.endSwap_keeps
    | split

theorem State.swapAck_keeps : ∀ (a0 : State) a1 a2 a3, z.Keeps a0 → z.Keeps (State.swapAck a0 a1 a2 a3) := by
  intro a0 a1 a2 a3 h
  unfold State.swapAck
  repeat' first
    | with_reducible assumption
    | (extract_lets +onlyGivenNames x
       first
       | (first | refine State.Keeps.letH (z := z) (x := x) ?_ ?_ | refine State.Keeps.letF (z := z) (x := x) ?_ ?_
          unfold x; clear x; rotate_left; clear_value x; intro; rotate_right)
       | clear_value x
       | skip)
    | with_reducible apply State.endSwap_keeps
    | simp -zeta -zetaDelta only [State.Keeps.mk_iff, State.Keeps.mk_flash]
    | split

theorem State.writeNode_keeps : ∀ (a0 : State) a1, z.Keeps a0 → z.Keeps (State.writeNode a0 a1) := by
  intro a0 a1 h
  unfold State.writeNode
  repeat' first
    | with_reducible assumption
    | (extract_lets +onlyGivenNames x
       first
       | (first | refine State.Keeps.letH (z := z) (x := x) ?_ ?_ | refine State.Keeps.letF (z := z) (x := x) ?_ ?_
          unfold x; clear x; rotate_left; clear_value x; intro; rotate_right)
       | clear_value x
       | skip)
    | simp -zeta -zetaDelta only [State.Keeps.mk_iff, State.Keeps.mk_flash]

theorem execMgmtReceived_keeps : ∀ a0 (a1 : State), z.Keeps a1 → OutKeeps z (execMgmtReceived a0 a1) := by
  intro a0 a1 h
  unfold execMgmtReceived
  repeat' first
    | with_reducible assumption
    | (extract_lets +onlyGivenNames x
       first
       | (first | refine State.Keeps.letH (z := z) (x := x) ?_ ?_ | refine State.Keeps.letF (z := z) (x := x) ?_ ?_
          unfold x; clear x; rotate_left; clear_value x; intro; rotate_right)
       | clear_value x
       | skip)
    | with_reducible apply OutKeeps.next
    | with_reducible apply State.unbox_keeps
    | with_reducible apply State.takeSwap_keeps
    | with_reducible apply State.sendMgmt_keeps
    | with_reducible apply State.swapAck_keeps
    | with_reducible apply State.writeRemap_keeps
    | with_reducible apply State.writeNode_keeps
    | split

end Sys2Proof.Machine
end

