-- ==== Sys2Proof/Laws/KeepsDebug.lean ====
section
/-! SUPPORT. What Machine/Debug.lean keeps: one lemma an operation. -/
namespace Sys2Proof.Machine
set_option linter.all false

variable {z : State}

theorem State.respond_keeps : ∀ (a0 : State) a1 a2 a3 a4, z.Keeps a0 → z.Keeps (State.respond a0 a1 a2 a3 a4) := by
  intro a0 a1 a2 a3 a4 h
  unfold State.respond
  repeat' first
    | with_reducible assumption
    | with_reducible apply State.updDie_keeps

theorem freeFrame_keeps : ∀ a0 a1 a2 (a3 : State) a4, (∀ (b0 : State), z.Keeps b0 → z.Keeps (a4 b0).2.2) → z.Keeps a3 → OutKeeps z (freeFrame a0 a1 a2 a3 a4) := by
  intro a0 a1 a2 a3 a4 ha4 h
  unfold freeFrame
  repeat' first
    | with_reducible assumption
    | (extract_lets +onlyGivenNames x
       first
       | (first | refine State.Keeps.letH (z := z) (x := x) ?_ ?_ | refine State.Keeps.letF (z := z) (x := x) ?_ ?_ | refine State.Keeps.letR (z := z) (x := x) ?_ ?_ | refine ExecKeeps.letJ (x := x) ?_ ?_ | refine ExecKeeps.letM (x := x) ?_ ?_
          unfold x; clear x; rotate_left; clear_value x; intro; rotate_right)
       | clear_value x
       | skip)
    | with_reducible apply ha4
    | with_reducible apply OutKeeps.next
    | with_reducible apply State.respond_keeps
    | simp -zeta -zetaDelta only [State.Keeps.mk_iff, State.Keeps.mk_flash]
    | split

theorem scopedFrame_keeps : ∀ a0 a1 a2 a3 (a4 : State) a5, (∀ (b0 : State), z.Keeps b0 → z.Keeps (a5 b0).2.2) → z.Keeps a4 → OutKeeps z (scopedFrame a0 a1 a2 a3 a4 a5) := by
  intro a0 a1 a2 a3 a4 a5 ha5 h
  unfold scopedFrame
  repeat' first
    | with_reducible assumption
    | intro y
    | (extract_lets +onlyGivenNames x
       first
       | (first | refine State.Keeps.letH (z := z) (x := x) ?_ ?_ | refine State.Keeps.letF (z := z) (x := x) ?_ ?_ | refine State.Keeps.letR (z := z) (x := x) ?_ ?_ | refine ExecKeeps.letJ (x := x) ?_ ?_ | refine ExecKeeps.letM (x := x) ?_ ?_
          unfold x; clear x; rotate_left; clear_value x; intro; rotate_right)
       | clear_value x
       | skip)
    | with_reducible apply ha5
    | with_reducible apply freeFrame_keeps
    | split

theorem execDyoloNop_keeps : ∀ a0 a1 (a2 : State), z.Keeps a2 → OutKeeps z (execDyoloNop a0 a1 a2) := by
  intro a0 a1 a2 h
  unfold execDyoloNop
  repeat' first
    | with_reducible assumption
    | (extract_lets +onlyGivenNames x
       first
       | (first | refine State.Keeps.letH (z := z) (x := x) ?_ ?_ | refine State.Keeps.letF (z := z) (x := x) ?_ ?_
          unfold x; clear x; rotate_left; clear_value x; intro; rotate_right)
       | clear_value x
       | skip)
    | with_reducible apply OutKeeps.next
    | with_reducible apply State.respond_keeps
    | with_reducible apply State.updDie_keeps
    | split

theorem execDyoloStatus_keeps : ∀ a0 a1 (a2 : State), z.Keeps a2 → OutKeeps z (execDyoloStatus a0 a1 a2) := by
  intro a0 a1 a2 h
  unfold execDyoloStatus
  repeat' first
    | with_reducible assumption
    | intro y
    | with_reducible apply freeFrame_keeps

theorem execDyoloGetNonce_keeps : ∀ a0 a1 (a2 : State), z.Keeps a2 → OutKeeps z (execDyoloGetNonce a0 a1 a2) := by
  intro a0 a1 a2 h
  unfold execDyoloGetNonce
  repeat' first
    | with_reducible assumption
    | intro y
    | (extract_lets +onlyGivenNames x
       first
       | (first | refine State.Keeps.letH (z := z) (x := x) ?_ ?_ | refine State.Keeps.letF (z := z) (x := x) ?_ ?_
          unfold x; clear x; rotate_left; clear_value x; intro; rotate_right)
       | clear_value x
       | skip)
    | with_reducible apply freeFrame_keeps
    | with_reducible apply State.draw_keeps
    | simp -zeta -zetaDelta only [State.Keeps.mk_iff, State.Keeps.mk_flash]
    | split

theorem execDyoloPush_keeps : ∀ a0 a1 (a2 : State), z.Keeps a2 → OutKeeps z (execDyoloPush a0 a1 a2) := by
  intro a0 a1 a2 h
  unfold execDyoloPush
  repeat' first
    | with_reducible assumption
    | intro y
    | (extract_lets +onlyGivenNames x
       first
       | (first | refine State.Keeps.letH (z := z) (x := x) ?_ ?_ | refine State.Keeps.letF (z := z) (x := x) ?_ ?_
          unfold x; clear x; rotate_left; clear_value x; intro; rotate_right)
       | clear_value x
       | skip)
    | with_reducible apply freeFrame_keeps
    | simp -zeta -zetaDelta only [State.Keeps.mk_iff, State.Keeps.mk_flash]
    | split

theorem execDyoloPushReset_keeps : ∀ a0 a1 (a2 : State), z.Keeps a2 → OutKeeps z (execDyoloPushReset a0 a1 a2) := by
  intro a0 a1 a2 h
  unfold execDyoloPushReset
  repeat' first
    | with_reducible assumption
    | intro y
    | (extract_lets +onlyGivenNames x
       first
       | (first | refine State.Keeps.letH (z := z) (x := x) ?_ ?_ | refine State.Keeps.letF (z := z) (x := x) ?_ ?_
          unfold x; clear x; rotate_left; clear_value x; intro; rotate_right)
       | clear_value x
       | skip)
    | with_reducible apply freeFrame_keeps
    | simp -zeta -zetaDelta only [State.Keeps.mk_iff, State.Keeps.mk_flash]
    | split

theorem execDyoloUnlock_keeps : ∀ a0 a1 (a2 : State), z.Keeps a2 → OutKeeps z (execDyoloUnlock a0 a1 a2) := by
  intro a0 a1 a2 h
  unfold execDyoloUnlock
  repeat' first
    | with_reducible assumption
    | intro y
    | (extract_lets +onlyGivenNames x
       first
       | (first | refine State.Keeps.letH (z := z) (x := x) ?_ ?_ | refine State.Keeps.letF (z := z) (x := x) ?_ ?_
          unfold x; clear x; rotate_left; clear_value x; intro; rotate_right)
       | clear_value x
       | skip)
    | with_reducible apply freeFrame_keeps
    | with_reducible apply State.security_keeps
    | simp -zeta -zetaDelta only [State.Keeps.mk_iff, State.Keeps.mk_flash]
    | split

theorem State.resumeAll_keeps : ∀ (a0 : State), z.Keeps a0 → z.Keeps (State.resumeAll a0) := by
  intro a0 h
  unfold State.resumeAll
  repeat' first
    | with_reducible assumption
    | intro y
    | (extract_lets +onlyGivenNames x
       first
       | (first | refine State.Keeps.letH (z := z) (x := x) ?_ ?_ | refine State.Keeps.letF (z := z) (x := x) ?_ ?_
          unfold x; clear x; rotate_left; clear_value x; intro; rotate_right)
       | clear_value x
       | skip)
    | with_reducible apply State.updDies_keeps
    | with_reducible apply State.updCtx_keeps
    | with_reducible apply State.Keeps.foldl

theorem execDyoloRelock_keeps : ∀ a0 a1 (a2 : State), z.Keeps a2 → OutKeeps z (execDyoloRelock a0 a1 a2) := by
  intro a0 a1 a2 h
  unfold execDyoloRelock
  repeat' first
    | with_reducible assumption
    | intro y
    | (extract_lets +onlyGivenNames x
       first
       | (first | refine State.Keeps.letH (z := z) (x := x) ?_ ?_ | refine State.Keeps.letF (z := z) (x := x) ?_ ?_
          unfold x; clear x; rotate_left; clear_value x; intro; rotate_right)
       | clear_value x
       | skip)
    | with_reducible apply freeFrame_keeps
    | with_reducible apply State.resumeAll_keeps
    | simp -zeta -zetaDelta only [State.Keeps.mk_iff, State.Keeps.mk_flash]

theorem State.markWritten_keeps : ∀ (a0 : State), z.Keeps a0 → z.Keeps (State.markWritten a0) := by
  intro a0 h
  unfold State.markWritten
  repeat' first
    | with_reducible assumption
    | (extract_lets +onlyGivenNames x
       first
       | (first | refine State.Keeps.letH (z := z) (x := x) ?_ ?_ | refine State.Keeps.letF (z := z) (x := x) ?_ ?_
          unfold x; clear x; rotate_left; clear_value x; intro; rotate_right)
       | clear_value x
       | skip)
    | simp -zeta -zetaDelta only [State.Keeps.mk_iff, State.Keeps.mk_flash]

theorem execDyoloInstall_keeps : ∀ a0 a1 (a2 : State), z.Keeps a2 → OutKeeps z (execDyoloInstall a0 a1 a2) := by
  intro a0 a1 a2 h
  unfold execDyoloInstall
  repeat' first
    | with_reducible assumption
    | intro y
    | (extract_lets +onlyGivenNames x
       first
       | (first | refine State.Keeps.letH (z := z) (x := x) ?_ ?_ | refine State.Keeps.letF (z := z) (x := x) ?_ ?_
          unfold x; clear x; rotate_left; clear_value x; intro; rotate_right)
       | clear_value x
       | skip)
    | with_reducible apply scopedFrame_keeps
    | with_reducible apply State.markWritten_keeps
    | with_reducible apply State.installFirmware_keeps
    | with_reducible apply State.installCalibration_keeps
    | with_reducible apply State.refusePkg_keeps
    | split

theorem execDyoloResetDevice_keeps : ∀ a0 a1 (a2 : State), z.Keeps a2 → OutKeeps z (execDyoloResetDevice a0 a1 a2) := by
  intro a0 a1 a2 h
  unfold execDyoloResetDevice
  repeat' first
    | with_reducible assumption
    | intro y
    | (extract_lets +onlyGivenNames x
       first
       | (first | refine State.Keeps.letH (z := z) (x := x) ?_ ?_ | refine State.Keeps.letF (z := z) (x := x) ?_ ?_
          unfold x; clear x; rotate_left; clear_value x; intro; rotate_right)
       | clear_value x
       | skip)
    | with_reducible apply OutKeeps.next
    | with_reducible apply State.deviceReset_keeps
    | with_reducible apply scopedFrame_keeps
    | split

theorem onTarget_keeps : ∀ (a0 : State) a1 a2 a3 a4, z.Keeps a0 → z.Keeps (onTarget a0 a1 a2 a3 a4).2.2 := by
  intro a0 a1 a2 a3 a4 h
  unfold onTarget
  repeat' first
    | with_reducible assumption
    | with_reducible apply State.updDie_keeps
    | with_reducible apply State.updStream_keeps
    | split

theorem execDyoloHalt_keeps : ∀ a0 a1 (a2 : State), z.Keeps a2 → OutKeeps z (execDyoloHalt a0 a1 a2) := by
  intro a0 a1 a2 h
  unfold execDyoloHalt
  repeat' first
    | with_reducible assumption
    | intro y
    | (extract_lets +onlyGivenNames x
       first
       | (first | refine State.Keeps.letH (z := z) (x := x) ?_ ?_ | refine State.Keeps.letF (z := z) (x := x) ?_ ?_
          unfold x; clear x; rotate_left; clear_value x; intro; rotate_right)
       | clear_value x
       | skip)
    | with_reducible apply scopedFrame_keeps
    | with_reducible apply onTarget_keeps

theorem execDyoloResume_keeps : ∀ a0 a1 (a2 : State), z.Keeps a2 → OutKeeps z (execDyoloResume a0 a1 a2) := by
  intro a0 a1 a2 h
  unfold execDyoloResume
  repeat' first
    | with_reducible assumption
    | intro y
    | (extract_lets +onlyGivenNames x
       first
       | (first | refine State.Keeps.letH (z := z) (x := x) ?_ ?_ | refine State.Keeps.letF (z := z) (x := x) ?_ ?_
          unfold x; clear x; rotate_left; clear_value x; intro; rotate_right)
       | clear_value x
       | skip)
    | with_reducible apply scopedFrame_keeps
    | with_reducible apply onTarget_keeps

theorem execDyoloBreakSet_keeps : ∀ a0 a1 (a2 : State), z.Keeps a2 → OutKeeps z (execDyoloBreakSet a0 a1 a2) := by
  intro a0 a1 a2 h
  unfold execDyoloBreakSet
  repeat' first
    | with_reducible assumption
    | intro y
    | (extract_lets +onlyGivenNames x
       first
       | (first | refine State.Keeps.letH (z := z) (x := x) ?_ ?_ | refine State.Keeps.letF (z := z) (x := x) ?_ ?_
          unfold x; clear x; rotate_left; clear_value x; intro; rotate_right)
       | clear_value x
       | skip)
    | with_reducible apply scopedFrame_keeps
    | with_reducible apply State.updDie_keeps
    | simp -zeta -zetaDelta only [State.Keeps.mk_iff, State.Keeps.mk_flash]
    | split
    | with_reducible apply_assumption

theorem execDyoloBreakClear_keeps : ∀ a0 a1 (a2 : State), z.Keeps a2 → OutKeeps z (execDyoloBreakClear a0 a1 a2) := by
  intro a0 a1 a2 h
  unfold execDyoloBreakClear
  repeat' first
    | with_reducible assumption
    | intro y
    | (extract_lets +onlyGivenNames x
       first
       | (first | refine State.Keeps.letH (z := z) (x := x) ?_ ?_ | refine State.Keeps.letF (z := z) (x := x) ?_ ?_
          unfold x; clear x; rotate_left; clear_value x; intro; rotate_right)
       | clear_value x
       | skip)
    | with_reducible apply scopedFrame_keeps
    | with_reducible apply State.updDie_keeps
    | split

theorem runWord_keeps : ∀ a0 a1 a2 a3 (a4 : State), z.Keeps a4 → OutKeeps z (runWord a0 a1 a2 a3 a4) := by
  intro a0 a1 a2 a3 a4 h
  unfold runWord
  repeat' first
    | with_reducible assumption
    | with_reducible apply execMmProduct_keeps
    | with_reducible apply execMmDrain_keeps
    | with_reducible apply execMmSpill_keeps
    | with_reducible apply execMmDiscard_keeps
    | with_reducible apply execShQuant_keeps
    | with_reducible apply execShDequant_keeps
    | with_reducible apply execShRotate_keeps
    | with_reducible apply execVxAdd_keeps
    | with_reducible apply execVxSub_keeps
    | with_reducible apply execVxMul_keeps
    | with_reducible apply execVxFma_keeps
    | with_reducible apply execVxMax_keeps
    | with_reducible apply execVxMin_keeps
    | with_reducible apply execVxScale_keeps
    | with_reducible apply execVxConvert_keeps
    | with_reducible apply execVxFunc_keeps
    | with_reducible apply execVxReduce_keeps
    | with_reducible apply execVxSoftmax_keeps
    | with_reducible apply execVxSoftmaxBwd_keeps
    | with_reducible apply execVxNorm_keeps
    | with_reducible apply execVxNormBwd_keeps
    | with_reducible apply execVxTopk_keeps
    | with_reducible apply execVxRelu_keeps
    | with_reducible apply execVxDropout_keeps
    | with_reducible apply execVxMaxpool_keeps
    | with_reducible apply execVxMaskmul_keeps
    | with_reducible apply execVxUnpool_keeps
    | with_reducible apply execVxMaskgen_keeps
    | with_reducible apply execVxRandom_keeps
    | with_reducible apply execVxTable_keeps
    | with_reducible apply execVxKvappend_keeps
    | with_reducible apply execVxKvscore_keeps
    | with_reducible apply execVxKvmix_keeps
    | with_reducible apply execUpStep_keeps
    | with_reducible apply execUpWcopy_keeps
    | with_reducible apply execUpVerdict_keeps
    | with_reducible apply execMvCopy_keeps
    | with_reducible apply execMvSetcopy_keeps
    | with_reducible apply execMvGather_keeps
    | with_reducible apply execMvScatter_keeps
    | with_reducible apply execMvScatterAdd_keeps
    | with_reducible apply execMvWindow_keeps
    | with_reducible apply execMvFill_keeps
    | with_reducible apply execMvSeal_keeps
    | with_reducible apply execClShift_keeps
    | with_reducible apply execClPermute_keeps
    | with_reducible apply execClAlltoall_keeps
    | with_reducible apply execClGradsend_keeps
    | with_reducible apply execClGradrecv_keeps
    | with_reducible apply execClReduce_keeps
    | with_reducible apply execClReduceScatter_keeps
    | with_reducible apply execClGather_keeps
    | with_reducible apply execClBcast_keeps
    | with_reducible apply execClSetcast_keeps
    | with_reducible apply execClExpress_keeps
    | with_reducible apply execSyWait_keeps
    | with_reducible apply execSySignal_keeps
    | with_reducible apply execSySet_keeps
    | with_reducible apply execSyFence_keeps
    | with_reducible apply execSyJump_keeps
    | with_reducible apply execMkStep_keeps
    | with_reducible apply execCfSeed_keeps
    | with_reducible apply execCfAccdef_keeps
    | with_reducible apply execCfTimeout_keeps
    | with_reducible apply execCfNop_keeps
    | split

theorem State.stepStream_keeps : ∀ (a0 : State) a1 a2 a3 a4, z.Keeps a0 → z.Keeps (State.stepStream a0 a1 a2 a3 a4).2 := by
  intro a0 a1 a2 a3 a4 h
  unfold State.stepStream
  repeat' first
    | with_reducible assumption
    | (extract_lets +onlyGivenNames x
       first
       | (first | refine State.Keeps.letH (z := z) (x := x) ?_ ?_ | refine State.Keeps.letF (z := z) (x := x) ?_ ?_
          unfold x; clear x; rotate_left; clear_value x; intro; rotate_right)
       | clear_value x
       | skip)
    | with_reducible apply State.updStream_keeps
    | with_reducible apply runWord_keeps
    | with_reducible refine OutKeeps.of_eq ?_ (by with_reducible assumption)
    | split

theorem execDyoloStep_keeps : ∀ a0 a1 a2 (a3 : State), z.Keeps a3 → OutKeeps z (execDyoloStep a0 a1 a2 a3) := by
  intro a0 a1 a2 a3 h
  unfold execDyoloStep
  repeat' first
    | with_reducible assumption
    | intro y
    | (extract_lets +onlyGivenNames x
       first
       | (first | refine State.Keeps.letH (z := z) (x := x) ?_ ?_ | refine State.Keeps.letF (z := z) (x := x) ?_ ?_
          unfold x; clear x; rotate_left; clear_value x; intro; rotate_right)
       | clear_value x
       | skip)
    | with_reducible apply scopedFrame_keeps
    | with_reducible apply State.stepStream_keeps
    | simp -zeta -zetaDelta only [State.Keeps.mk_iff, State.Keeps.mk_flash]
    | split

theorem execDyoloRead_keeps : ∀ a0 a1 a2 (a3 : State), z.Keeps a3 → OutKeeps z (execDyoloRead a0 a1 a2 a3) := by
  intro a0 a1 a2 a3 h
  unfold execDyoloRead
  repeat' first
    | with_reducible assumption
    | intro y
    | (extract_lets +onlyGivenNames x
       first
       | (first | refine State.Keeps.letH (z := z) (x := x) ?_ ?_ | refine State.Keeps.letF (z := z) (x := x) ?_ ?_
          unfold x; clear x; rotate_left; clear_value x; intro; rotate_right)
       | clear_value x
       | skip)
    | with_reducible apply scopedFrame_keeps
    | with_reducible apply State.applyPhys_keeps
    | split

theorem execDyoloWrite_keeps : ∀ a0 a1 a2 (a3 : State), z.Keeps a3 → OutKeeps z (execDyoloWrite a0 a1 a2 a3) := by
  intro a0 a1 a2 a3 h
  unfold execDyoloWrite
  repeat' first
    | with_reducible assumption
    | intro y
    | (extract_lets +onlyGivenNames x
       first
       | (first | refine State.Keeps.letH (z := z) (x := x) ?_ ?_ | refine State.Keeps.letF (z := z) (x := x) ?_ ?_
          unfold x; clear x; rotate_left; clear_value x; intro; rotate_right)
       | clear_value x
       | skip)
    | with_reducible apply OutKeeps.next
    | with_reducible apply scopedFrame_keeps
    | with_reducible apply State.draw_keeps
    | with_reducible apply State.updDie_keeps
    | with_reducible apply State.write_keeps
    | with_reducible apply State.applyPhys_keeps
    | with_reducible apply State.markWritten_keeps
    | with_reducible apply State.Keeps.foldl
    | with_reducible apply State.Keeps.foldlProd
    | with_reducible apply State.Keeps.foldlSnd
    | simp -zeta -zetaDelta only [State.Keeps.mk_iff, State.Keeps.mk_flash]
    | split

theorem State.selectIr_keeps : ∀ (a0 : State) a1 a2 a3, z.Keeps a0 → z.Keeps (State.selectIr a0 a1 a2 a3) := by
  intro a0 a1 a2 a3 h
  unfold State.selectIr
  repeat' first
    | with_reducible assumption
    | with_reducible apply State.updDie_keeps

theorem execExtest_keeps : ∀ a0 a1 (a2 : State), z.Keeps a2 → OutKeeps z (execExtest a0 a1 a2) := by
  intro a0 a1 a2 h
  unfold execExtest
  repeat' first
    | with_reducible assumption
    | (extract_lets +onlyGivenNames x
       first
       | (first | refine State.Keeps.letH (z := z) (x := x) ?_ ?_ | refine State.Keeps.letF (z := z) (x := x) ?_ ?_
          unfold x; clear x; rotate_left; clear_value x; intro; rotate_right)
       | clear_value x
       | skip)
    | with_reducible apply OutKeeps.next
    | with_reducible apply State.selectIr_keeps
    | split

theorem execSamplePreload_keeps : ∀ a0 a1 (a2 : State), z.Keeps a2 → OutKeeps z (execSamplePreload a0 a1 a2) := by
  intro a0 a1 a2 h
  unfold execSamplePreload
  repeat' first
    | with_reducible assumption
    | (extract_lets +onlyGivenNames x
       first
       | (first | refine State.Keeps.letH (z := z) (x := x) ?_ ?_ | refine State.Keeps.letF (z := z) (x := x) ?_ ?_
          unfold x; clear x; rotate_left; clear_value x; intro; rotate_right)
       | clear_value x
       | skip)
    | with_reducible apply OutKeeps.next
    | with_reducible apply State.selectIr_keeps
    | split

theorem execIdcode_keeps : ∀ a0 (a1 : State), z.Keeps a1 → OutKeeps z (execIdcode a0 a1) := by
  intro a0 a1 h
  unfold execIdcode
  repeat' first
    | with_reducible assumption
    | (extract_lets +onlyGivenNames x
       first
       | (first | refine State.Keeps.letH (z := z) (x := x) ?_ ?_ | refine State.Keeps.letF (z := z) (x := x) ?_ ?_
          unfold x; clear x; rotate_left; clear_value x; intro; rotate_right)
       | clear_value x
       | skip)
    | with_reducible apply OutKeeps.next
    | with_reducible apply State.selectIr_keeps
    | split

theorem execBypass_keeps : ∀ a0 (a1 : State), z.Keeps a1 → OutKeeps z (execBypass a0 a1) := by
  intro a0 a1 h
  unfold execBypass
  repeat' first
    | with_reducible assumption
    | (extract_lets +onlyGivenNames x
       first
       | (first | refine State.Keeps.letH (z := z) (x := x) ?_ ?_ | refine State.Keeps.letF (z := z) (x := x) ?_ ?_
          unfold x; clear x; rotate_left; clear_value x; intro; rotate_right)
       | clear_value x
       | skip)
    | with_reducible apply OutKeeps.next
    | with_reducible apply State.selectIr_keeps
    | split

theorem execTapReset_keeps : ∀ (a0 : State), z.Keeps a0 → OutKeeps z (execTapReset a0) := by
  intro a0 h
  unfold execTapReset
  repeat' first
    | with_reducible assumption
    | (extract_lets +onlyGivenNames x
       first
       | (first | refine State.Keeps.letH (z := z) (x := x) ?_ ?_ | refine State.Keeps.letF (z := z) (x := x) ?_ ?_
          unfold x; clear x; rotate_left; clear_value x; intro; rotate_right)
       | clear_value x
       | skip)
    | with_reducible apply OutKeeps.next
    | with_reducible apply State.updDies_keeps
    | split

end Sys2Proof.Machine
end

