-- ==== Sys2Proof/Laws/KeepsPower.lean ====
section
/-! SUPPORT. What Machine/Power.lean keeps: one lemma an operation. -/
namespace Sys2Proof.Machine
set_option linter.all false

variable {z : State}

theorem State.setPower_keeps : ∀ (a0 : State) a1, z.Keeps a0 → z.Keeps (State.setPower a0 a1) := by
  intro a0 a1 h
  unfold State.setPower
  repeat' first
    | with_reducible assumption
    | simp -zeta -zetaDelta only [State.Keeps.mk_iff, State.Keeps.mk_flash]

theorem State.railsFall_keeps : ∀ (a0 : State) a1, z.Keeps a0 → z.Keeps (State.railsFall a0 a1) := by
  intro a0 a1 h
  unfold State.railsFall
  repeat' first
    | with_reducible assumption
    | (extract_lets +onlyGivenNames x
       first
       | (first | refine State.Keeps.letH (z := z) (x := x) ?_ ?_ | refine State.Keeps.letF (z := z) (x := x) ?_ ?_
          unfold x; clear x; rotate_left; clear_value x; intro; rotate_right)
       | clear_value x
       | skip)
    | with_reducible apply State.deviceReset_keeps
    | simp -zeta -zetaDelta only [State.Keeps.mk_iff, State.Keeps.mk_flash]

theorem execPowerOn_keeps : ∀ a0 (a1 : State), z.Keeps a1 → OutKeeps z (execPowerOn a0 a1) := by
  intro a0 a1 h
  unfold execPowerOn
  repeat' first
    | with_reducible assumption
    | (extract_lets +onlyGivenNames x
       first
       | (first | refine State.Keeps.letH (z := z) (x := x) ?_ ?_ | refine State.Keeps.letF (z := z) (x := x) ?_ ?_
          unfold x; clear x; rotate_left; clear_value x; intro; rotate_right)
       | clear_value x
       | skip)
    | with_reducible apply OutKeeps.next
    | with_reducible apply State.setPower_keeps
    | split

theorem State.afresh_keeps : ∀ (a0 : State), z.Keeps a0 → z.Keeps (State.afresh a0) := by
  intro a0 h
  unfold State.afresh
  repeat' first
    | with_reducible assumption
    | (extract_lets +onlyGivenNames x
       first
       | (first | refine State.Keeps.letH (z := z) (x := x) ?_ ?_ | refine State.Keeps.letF (z := z) (x := x) ?_ ?_
          unfold x; clear x; rotate_left; clear_value x; intro; rotate_right)
       | clear_value x
       | skip)
    | with_reducible apply State.deviceReset_keeps
    | simp -zeta -zetaDelta only [State.Keeps.mk_iff, State.Keeps.mk_flash]

theorem execRailsGood_keeps : ∀ (a0 : State), z.Keeps a0 → OutKeeps z (execRailsGood a0) := by
  intro a0 h
  unfold execRailsGood
  repeat' first
    | with_reducible assumption
    | (extract_lets +onlyGivenNames x
       first
       | (first | refine State.Keeps.letH (z := z) (x := x) ?_ ?_ | refine State.Keeps.letF (z := z) (x := x) ?_ ?_
          unfold x; clear x; rotate_left; clear_value x; intro; rotate_right)
       | clear_value x
       | skip)
    | with_reducible apply OutKeeps.next
    | with_reducible apply State.setPower_keeps
    | with_reducible apply State.afresh_keeps
    | split

theorem execPowerOff_keeps : ∀ (a0 : State), z.Keeps a0 → OutKeeps z (execPowerOff a0) := by
  intro a0 h
  unfold execPowerOff
  repeat' first
    | with_reducible assumption
    | (extract_lets +onlyGivenNames x
       first
       | (first | refine State.Keeps.letH (z := z) (x := x) ?_ ?_ | refine State.Keeps.letF (z := z) (x := x) ?_ ?_
          unfold x; clear x; rotate_left; clear_value x; intro; rotate_right)
       | clear_value x
       | skip)
    | with_reducible apply OutKeeps.next
    | with_reducible apply State.setPower_keeps
    | with_reducible apply State.railsFall_keeps
    | split

theorem execInputVoltageFault_keeps : ∀ a0 (a1 : State), z.Keeps a1 → OutKeeps z (execInputVoltageFault a0 a1) := by
  intro a0 a1 h
  unfold execInputVoltageFault
  repeat' first
    | with_reducible assumption
    | (extract_lets +onlyGivenNames x
       first
       | (first | refine State.Keeps.letH (z := z) (x := x) ?_ ?_ | refine State.Keeps.letF (z := z) (x := x) ?_ ?_
          unfold x; clear x; rotate_left; clear_value x; intro; rotate_right)
       | clear_value x
       | skip)
    | with_reducible apply OutKeeps.next
    | with_reducible apply State.setPower_keeps
    | with_reducible apply State.railsFall_keeps
    | split

theorem execRideThroughEntry_keeps : ∀ a0 (a1 : State), z.Keeps a1 → OutKeeps z (execRideThroughEntry a0 a1) := by
  intro a0 a1 h
  unfold execRideThroughEntry
  repeat' first
    | with_reducible assumption
    | (extract_lets +onlyGivenNames x
       first
       | (first | refine State.Keeps.letH (z := z) (x := x) ?_ ?_ | refine State.Keeps.letF (z := z) (x := x) ?_ ?_
          unfold x; clear x; rotate_left; clear_value x; intro; rotate_right)
       | clear_value x
       | skip)
    | with_reducible apply OutKeeps.next
    | with_reducible apply State.setPower_keeps
    | split

theorem execRideThroughExpiry_keeps : ∀ (a0 : State), z.Keeps a0 → OutKeeps z (execRideThroughExpiry a0) := by
  intro a0 h
  unfold execRideThroughExpiry
  repeat' first
    | with_reducible assumption
    | (extract_lets +onlyGivenNames x
       first
       | (first | refine State.Keeps.letH (z := z) (x := x) ?_ ?_ | refine State.Keeps.letF (z := z) (x := x) ?_ ?_
          unfold x; clear x; rotate_left; clear_value x; intro; rotate_right)
       | clear_value x
       | skip)
    | with_reducible apply OutKeeps.next
    | with_reducible apply State.railsFall_keeps
    | split

theorem State.excursion_keeps : ∀ (a0 : State) a1 a2 a3 a4 a5, z.Keeps a0 → z.Keeps (State.excursion a0 a1 a2 a3 a4 a5) := by
  intro a0 a1 a2 a3 a4 a5 h
  unfold State.excursion
  repeat' first
    | with_reducible assumption
    | with_reducible apply State.logDevice_keeps

theorem execInputVoltageRecovered_keeps : ∀ a0 a1 (a2 : State), z.Keeps a2 → OutKeeps z (execInputVoltageRecovered a0 a1 a2) := by
  intro a0 a1 a2 h
  unfold execInputVoltageRecovered
  repeat' first
    | with_reducible assumption
    | (extract_lets +onlyGivenNames x
       first
       | (first | refine State.Keeps.letH (z := z) (x := x) ?_ ?_ | refine State.Keeps.letF (z := z) (x := x) ?_ ?_
          unfold x; clear x; rotate_left; clear_value x; intro; rotate_right)
       | clear_value x
       | skip)
    | with_reducible apply OutKeeps.next
    | with_reducible apply State.setPower_keeps
    | with_reducible apply State.excursion_keeps
    | split

theorem execRailLeavesWindow_keeps : ∀ (a0 : State), z.Keeps a0 → OutKeeps z (execRailLeavesWindow a0) := by
  intro a0 h
  unfold execRailLeavesWindow
  repeat' first
    | with_reducible assumption
    | (extract_lets +onlyGivenNames x
       first
       | (first | refine State.Keeps.letH (z := z) (x := x) ?_ ?_ | refine State.Keeps.letF (z := z) (x := x) ?_ ?_
          unfold x; clear x; rotate_left; clear_value x; intro; rotate_right)
       | clear_value x
       | skip)
    | with_reducible apply OutKeeps.next
    | with_reducible apply State.setPower_keeps

theorem execThermtrip_keeps : ∀ a0 (a1 : State), z.Keeps a1 → OutKeeps z (execThermtrip a0 a1) := by
  intro a0 a1 h
  unfold execThermtrip
  repeat' first
    | with_reducible assumption
    | (extract_lets +onlyGivenNames x
       first
       | (first | refine State.Keeps.letH (z := z) (x := x) ?_ ?_ | refine State.Keeps.letF (z := z) (x := x) ?_ ?_
          unfold x; clear x; rotate_left; clear_value x; intro; rotate_right)
       | clear_value x
       | skip)
    | with_reducible apply OutKeeps.next
    | with_reducible apply State.setPower_keeps
    | with_reducible apply State.railsFall_keeps
    | split

theorem execModuleReset_keeps : ∀ (a0 : State), z.Keeps a0 → OutKeeps z (execModuleReset a0) := by
  intro a0 h
  unfold execModuleReset
  repeat' first
    | with_reducible assumption
    | (extract_lets +onlyGivenNames x
       first
       | (first | refine State.Keeps.letH (z := z) (x := x) ?_ ?_ | refine State.Keeps.letF (z := z) (x := x) ?_ ?_
          unfold x; clear x; rotate_left; clear_value x; intro; rotate_right)
       | clear_value x
       | skip)
    | with_reducible apply OutKeeps.next
    | with_reducible apply State.setPower_keeps
    | with_reducible apply State.deviceReset_keeps
    | split

theorem execResetRelease_keeps : ∀ a0 (a1 : State), z.Keeps a1 → OutKeeps z (execResetRelease a0 a1) := by
  intro a0 a1 h
  unfold execResetRelease
  repeat' first
    | with_reducible assumption
    | (extract_lets +onlyGivenNames x
       first
       | (first | refine State.Keeps.letH (z := z) (x := x) ?_ ?_ | refine State.Keeps.letF (z := z) (x := x) ?_ ?_
          unfold x; clear x; rotate_left; clear_value x; intro; rotate_right)
       | clear_value x
       | skip)
    | with_reducible apply OutKeeps.next
    | with_reducible apply State.setPower_keeps
    | with_reducible apply State.afresh_keeps
    | split

theorem execResetHoldExpiry_keeps : ∀ (a0 : State), z.Keeps a0 → OutKeeps z (execResetHoldExpiry a0) := by
  intro a0 h
  unfold execResetHoldExpiry
  repeat' first
    | with_reducible assumption
    | (extract_lets +onlyGivenNames x
       first
       | (first | refine State.Keeps.letH (z := z) (x := x) ?_ ?_ | refine State.Keeps.letF (z := z) (x := x) ?_ ?_
          unfold x; clear x; rotate_left; clear_value x; intro; rotate_right)
       | clear_value x
       | skip)
    | with_reducible apply OutKeeps.next
    | with_reducible apply State.setPower_keeps
    | with_reducible apply State.afresh_keeps
    | split

theorem State.stopAll_keeps : ∀ (a0 : State), z.Keeps a0 → z.Keeps (State.stopAll a0) := by
  intro a0 h
  unfold State.stopAll
  repeat' first
    | with_reducible assumption
    | intro y
    | (extract_lets +onlyGivenNames x
       first
       | (first | refine State.Keeps.letH (z := z) (x := x) ?_ ?_ | refine State.Keeps.letF (z := z) (x := x) ?_ ?_
          unfold x; clear x; rotate_left; clear_value x; intro; rotate_right)
       | clear_value x
       | skip)
    | with_reducible apply State.faultStop_keeps
    | with_reducible apply State.Keeps.foldl
    | split

theorem execModuleDrain_keeps : ∀ (a0 : State), z.Keeps a0 → OutKeeps z (execModuleDrain a0) := by
  intro a0 h
  unfold execModuleDrain
  repeat' first
    | with_reducible assumption
    | (extract_lets +onlyGivenNames x
       first
       | (first | refine State.Keeps.letH (z := z) (x := x) ?_ ?_ | refine State.Keeps.letF (z := z) (x := x) ?_ ?_
          unfold x; clear x; rotate_left; clear_value x; intro; rotate_right)
       | clear_value x
       | skip)
    | with_reducible apply OutKeeps.next
    | with_reducible apply State.setPower_keeps
    | with_reducible apply State.stopAll_keeps
    | split

theorem execDrainComplete_keeps : ∀ (a0 : State), z.Keeps a0 → OutKeeps z (execDrainComplete a0) := by
  intro a0 h
  unfold execDrainComplete
  repeat' first
    | with_reducible assumption
    | (extract_lets +onlyGivenNames x
       first
       | (first | refine State.Keeps.letH (z := z) (x := x) ?_ ?_ | refine State.Keeps.letF (z := z) (x := x) ?_ ?_
          unfold x; clear x; rotate_left; clear_value x; intro; rotate_right)
       | clear_value x
       | skip)
    | with_reducible apply OutKeeps.next
    | with_reducible apply State.setPower_keeps
    | with_reducible apply State.flushAll_keeps
    | with_reducible apply State.checkpoint_keeps
    | split

theorem execShutdownReqRelease_keeps : ∀ (a0 : State), z.Keeps a0 → OutKeeps z (execShutdownReqRelease a0) := by
  intro a0 h
  unfold execShutdownReqRelease
  repeat' first
    | with_reducible assumption
    | (extract_lets +onlyGivenNames x
       first
       | (first | refine State.Keeps.letH (z := z) (x := x) ?_ ?_ | refine State.Keeps.letF (z := z) (x := x) ?_ ?_
          unfold x; clear x; rotate_left; clear_value x; intro; rotate_right)
       | clear_value x
       | skip)
    | with_reducible apply OutKeeps.next
    | with_reducible apply State.setPower_keeps

theorem State.setLimit_keeps : ∀ (a0 : State), z.Keeps a0 → z.Keeps (State.setLimit a0) := by
  intro a0 h
  unfold State.setLimit
  repeat' first
    | with_reducible assumption
    | (extract_lets +onlyGivenNames x
       first
       | (first | refine State.Keeps.letH (z := z) (x := x) ?_ ?_ | refine State.Keeps.letF (z := z) (x := x) ?_ ?_
          unfold x; clear x; rotate_left; clear_value x; intro; rotate_right)
       | clear_value x
       | skip)
    | with_reducible apply State.cappingEpisode_keeps
    | with_reducible apply State.setPower_keeps

theorem execPwrLimitSample_keeps : ∀ a0 (a1 : State), z.Keeps a1 → OutKeeps z (execPwrLimitSample a0 a1) := by
  intro a0 a1 h
  unfold execPwrLimitSample
  repeat' first
    | with_reducible assumption
    | (extract_lets +onlyGivenNames x
       first
       | (first | refine State.Keeps.letH (z := z) (x := x) ?_ ?_ | refine State.Keeps.letF (z := z) (x := x) ?_ ?_
          unfold x; clear x; rotate_left; clear_value x; intro; rotate_right)
       | clear_value x
       | skip)
    | with_reducible apply OutKeeps.next
    | with_reducible apply State.setLimit_keeps
    | with_reducible apply State.setPower_keeps
    | split

theorem execPowerSample_keeps : ∀ a0 a1 (a2 : State), z.Keeps a2 → OutKeeps z (execPowerSample a0 a1 a2) := by
  intro a0 a1 a2 h
  unfold execPowerSample
  repeat' first
    | with_reducible assumption
    | intro y
    | (extract_lets +onlyGivenNames x
       first
       | (first | refine State.Keeps.letH (z := z) (x := x) ?_ ?_ | refine State.Keeps.letF (z := z) (x := x) ?_ ?_
          unfold x; clear x; rotate_left; clear_value x; intro; rotate_right)
       | clear_value x
       | skip)
    | with_reducible apply OutKeeps.next
    | with_reducible apply State.count_keeps
    | with_reducible apply State.updDies_keeps
    | with_reducible apply State.setPower_keeps
    | with_reducible apply State.cappingEpisode_keeps
    | with_reducible apply State.Keeps.foldl
    | simp -zeta -zetaDelta only [State.Keeps.mk_iff, State.Keeps.mk_flash]
    | split

theorem execCappingEpisodeEnd_keeps : ∀ a0 (a1 : State), z.Keeps a1 → OutKeeps z (execCappingEpisodeEnd a0 a1) := by
  intro a0 a1 h
  unfold execCappingEpisodeEnd
  repeat' first
    | with_reducible assumption
    | (extract_lets +onlyGivenNames x
       first
       | (first | refine State.Keeps.letH (z := z) (x := x) ?_ ?_ | refine State.Keeps.letF (z := z) (x := x) ?_ ?_
          unfold x; clear x; rotate_left; clear_value x; intro; rotate_right)
       | clear_value x
       | skip)
    | with_reducible apply OutKeeps.next
    | with_reducible apply State.excursion_keeps
    | with_reducible apply State.setPower_keeps
    | split

theorem State.thermalDie_keeps : ∀ (a0 : State) a1 a2 a3, z.Keeps a0 → z.Keeps (State.thermalDie a0 a1 a2 a3) := by
  intro a0 a1 a2 a3 h
  unfold State.thermalDie
  repeat' first
    | with_reducible assumption
    | (extract_lets +onlyGivenNames x
       first
       | (first | refine State.Keeps.letH (z := z) (x := x) ?_ ?_ | refine State.Keeps.letF (z := z) (x := x) ?_ ?_
          unfold x; clear x; rotate_left; clear_value x; intro; rotate_right)
       | clear_value x
       | skip)
    | with_reducible apply State.updDie_keeps
    | with_reducible apply State.excursion_keeps
    | split

theorem State.coolant_keeps : ∀ (a0 : State) a1 a2, z.Keeps a0 → z.Keeps (State.coolant a0 a1 a2) := by
  intro a0 a1 a2 h
  unfold State.coolant
  repeat' first
    | with_reducible assumption
    | (extract_lets +onlyGivenNames x
       first
       | (first | refine State.Keeps.letH (z := z) (x := x) ?_ ?_ | refine State.Keeps.letF (z := z) (x := x) ?_ ?_
          unfold x; clear x; rotate_left; clear_value x; intro; rotate_right)
       | clear_value x
       | skip)
    | with_reducible apply State.setPower_keeps
    | with_reducible apply State.excursion_keeps
    | split

theorem execThermalSample_keeps : ∀ a0 a1 a2 a3 (a4 : State), z.Keeps a4 → OutKeeps z (execThermalSample a0 a1 a2 a3 a4) := by
  intro a0 a1 a2 a3 a4 h
  unfold execThermalSample
  repeat' first
    | with_reducible assumption
    | intro y
    | (extract_lets +onlyGivenNames x
       first
       | (first | refine State.Keeps.letH (z := z) (x := x) ?_ ?_ | refine State.Keeps.letF (z := z) (x := x) ?_ ?_
          unfold x; clear x; rotate_left; clear_value x; intro; rotate_right)
       | clear_value x
       | skip)
    | with_reducible apply OutKeeps.next
    | with_reducible apply State.thermalDie_keeps
    | with_reducible apply State.setLimit_keeps
    | with_reducible apply State.coolant_keeps
    | with_reducible apply State.Keeps.foldl
    | split

theorem execHostRefclkLoss_keeps : ∀ (a0 : State), z.Keeps a0 → OutKeeps z (execHostRefclkLoss a0) := by
  intro a0 h
  unfold execHostRefclkLoss
  repeat' first
    | with_reducible assumption
    | (extract_lets +onlyGivenNames x
       first
       | (first | refine State.Keeps.letH (z := z) (x := x) ?_ ?_ | refine State.Keeps.letF (z := z) (x := x) ?_ ?_
          unfold x; clear x; rotate_left; clear_value x; intro; rotate_right)
       | clear_value x
       | skip)
    | with_reducible apply OutKeeps.next
    | with_reducible apply State.setPower_keeps
    | with_reducible apply State.dropHostLink_keeps
    | split

theorem execFabRefclkLoss_keeps : ∀ (a0 : State), z.Keeps a0 → OutKeeps z (execFabRefclkLoss a0) := by
  intro a0 h
  unfold execFabRefclkLoss
  repeat' first
    | with_reducible assumption
    | intro y
    | (extract_lets +onlyGivenNames x
       first
       | (first | refine State.Keeps.letH (z := z) (x := x) ?_ ?_ | refine State.Keeps.letF (z := z) (x := x) ?_ ?_
          unfold x; clear x; rotate_left; clear_value x; intro; rotate_right)
       | clear_value x
       | skip)
    | with_reducible apply OutKeeps.next
    | with_reducible apply State.setPower_keeps
    | with_reducible apply State.leaveService_keeps
    | with_reducible apply State.updLink_keeps
    | with_reducible apply State.Keeps.foldl
    | split

theorem execFabRefclkReturn_keeps : ∀ (a0 : State), z.Keeps a0 → OutKeeps z (execFabRefclkReturn a0) := by
  intro a0 h
  unfold execFabRefclkReturn
  repeat' first
    | with_reducible assumption
    | (extract_lets +onlyGivenNames x
       first
       | (first | refine State.Keeps.letH (z := z) (x := x) ?_ ?_ | refine State.Keeps.letF (z := z) (x := x) ?_ ?_
          unfold x; clear x; rotate_left; clear_value x; intro; rotate_right)
       | clear_value x
       | skip)
    | with_reducible apply OutKeeps.next
    | with_reducible apply State.setPower_keeps

end Sys2Proof.Machine
end

