-- ==== Sys2Proof/WellFormed.lean ====
section
/-! DEFINITION. What a command's operands must be for it to be one that the block's surroundings can send. `exec` is
total and asks nothing of this; it says which terms of `Instr` stand for something. -/
namespace Sys2Proof

/-- Symbol errors of a codeword: 72 symbols, none twice, an error value that is not 0 (08 R188). -/
def errsWf (e : List (Nat × BitVec 8)) : Bool :=
  e.all (fun x => decide (x.1 < 72) && decide (x.2 ≠ 0)) && decide (e.map (·.1)).Nodup

/-- Scratchpad words of 64 MiB on a die and bits in error out of the 278 stored ones; a die's codewords of 64 GiB. -/
def Phys.wf (x : Phys) : Bool :=
  x.spBits.all (fun e => decide (e.1 < 20) && decide (e.2.1 < 2 ^ 21) && decide (0 < e.2.2) && decide (e.2.2 ≤ 278)) &&
  x.cwErrs.all (fun e => decide (e.1 < 20) && decide (e.2.1 < 2 ^ 30) && errsWf e.2.2)

/-- Symbol errors of a run of codewords. -/
def cwListWf (l : List (Nat × List (Nat × BitVec 8))) : Bool :=
  l.all fun e => decide (e.1 < 2 ^ 30) && errsWf e.2

/-- A payload of at most 8,192 bytes in whole flits of a packet (10 R248). -/
def Pkt.wf (p : Pkt) : Bool := decide (p.payload.length ≤ 8192)

/-- Ten slots, as each codeword carries (10 R234). -/
def LinkCw.wf (r : LinkCw) : Bool := decide (r.slots.length = 10)

/-- Outcomes for 20 dies and what comes over 32 links. -/
def BootEnv.wf (e : BootEnv) : Bool := decide (e.dies.length = 20) && decide (e.hellos.length = 32)

/-- The well-formed commands. -/
def Instr.wf : Instr → Bool
  | .shQuant _ _ _ x | .shDequant _ _ _ x | .shRotate _ _ _ x => x.wf
  | .mmProduct _ _ _ x | .mmDrain _ _ _ x | .mmSpill _ _ _ x | .mmDiscard _ _ _ x => x.wf
  | .tileCheckComplete _ _ _ x => x.wf
  | .vxAdd _ _ _ x | .vxSub _ _ _ x | .vxMul _ _ _ x | .vxFma _ _ _ x | .vxMax _ _ _ x | .vxMin _ _ _ x => x.wf
  | .vxScale _ _ _ x | .vxConvert _ _ _ x | .vxFunc _ _ _ x | .vxReduce _ _ _ x | .vxSoftmax _ _ _ x => x.wf
  | .vxSoftmaxBwd _ _ _ x | .vxNorm _ _ _ x | .vxNormBwd _ _ _ x | .vxTopk _ _ _ x | .vxRelu _ _ _ x => x.wf
  | .vxDropout _ _ _ x | .vxMaxpool _ _ _ x | .vxMaskmul _ _ _ x | .vxUnpool _ _ _ x | .vxMaskgen _ _ _ x => x.wf
  | .vxRandom _ _ _ x | .vxTable _ _ _ x | .vxKvappend _ _ _ x | .vxKvscore _ _ _ x | .vxKvmix _ _ _ x => x.wf
  | .upStep _ _ _ x | .upWcopy _ _ _ x => x.wf
  | .mvCopy _ _ _ x | .mvSetcopy _ _ _ x | .mvGather _ _ _ x | .mvScatter _ _ _ x | .mvScatterAdd _ _ _ x => x.wf
  | .mvWindow _ _ _ x | .mvFill _ _ _ x | .mvSeal _ _ _ x => x.wf
  | .clShift _ _ _ x | .clPermute _ _ _ x | .clAlltoall _ _ _ x | .clGradsend _ _ _ x | .clGradrecv _ _ _ x => x.wf
  | .clReduce _ _ _ x | .clReduceScatter _ _ _ x | .clGather _ _ _ x | .clBcast _ _ _ x | .clSetcast _ _ _ x => x.wf
  | .clExpress _ _ _ x => x.wf
  | .getReqReceived p x => p.wf && x.wf
  | .routerPacketArrival _ p | .putReceived p | .signalReceived p | .getRespReceived p | .collReceived p => p.wf
  | .expressReceived p | .ackReceived p | .nakReceived p | .msgAckReceived p | .mgmtReceived p => p.wf
  | .linkCodewordReceived _ r => r.wf
  | .memoryRequest _ a len _ _ => decide (a < 2 ^ 48) && decide (0 < len)
  | .memoryReadReturn _ e | .rowRepair _ _ _ _ _ e | .scrubGranule _ e | .hostMemAccess _ _ e => cwListWf e
  | .stallWindow _ demand => decide (demand.length = 8)
  | .thermalSample dies hbm _ _ => decide (dies.length = 20) && decide (hbm.length = 20)
  | .linkEyeScan _ eyes _ => decide (eyes.length = 8)
  | .boot env => env.wf
  | .dyoloStep _ _ x => x.wf
  | .pldmCollectorSet _ _ a => decide (a.length = 16)
  | .gambitRun _ _ _ g _ _ => decide (g < 4096)
  | _ => true

end Sys2Proof
end

