-- ==== Sys2Proof/Tests/Slice0.lean ====
section
/-! SUPPORT. Small tests: what WellFormed refuses, and for every statement with hypotheses states that meet them. -/
namespace Sys2Proof.Tests
open Sys2Proof.Machine

-- one theorem at a time, so that the evaluations share no memory
set_option Elab.async false

/-! ### WellFormed: a term that each check refuses, and its neighbour that passes -/

def badErr : Phys := { Phys.none with cwErrs := [(0, 0, [(72, 1)])] }
def goodErr : Phys := { Phys.none with cwErrs := [(0, 0, [(71, 1)])] }

theorem test_wf_symbol : (Instr.vxAdd 0 0 0 badErr).wf = false ∧ (Instr.vxAdd 0 0 0 goodErr).wf = true := by decide
theorem test_wf_twice : errsWf [(3, 1), (3, 2)] = false ∧ errsWf [(3, 0)] = false ∧ errsWf [(3, 1), (4, 2)] = true := by decide
theorem test_wf_word : ({ Phys.none with spBits := [(0, 2 ^ 21, 1)] } : Phys).wf = false ∧ ({ Phys.none with spBits := [(20, 0, 1)] } : Phys).wf = false ∧
    ({ Phys.none with spBits := [(0, 0, 279)] } : Phys).wf = false ∧ ({ Phys.none with spBits := [(19, 2 ^ 21 - 1, 278)] } : Phys).wf = true := by decide
theorem test_wf_codewords : (Instr.scrubGranule 0 [(2 ^ 30, [])]).wf = false ∧ (Instr.scrubGranule 0 [(5, [(0, 0)])]).wf = false ∧
    (Instr.scrubGranule 0 [(2 ^ 30 - 1, [(0, 9)])]).wf = true := by decide
theorem test_wf_request : (Instr.memoryRequest 0 (2 ^ 48) 64 .read .service).wf = false ∧ (Instr.memoryRequest 0 0 0 .read .service).wf = false ∧
    (Instr.memoryRequest 0 0 64 .read .service).wf = true := by decide
theorem test_wf_lists : (Instr.stallWindow 0 []).wf = false ∧ (Instr.thermalSample [] [] 0 0).wf = false ∧
    (Instr.linkEyeScan 0 [] 0).wf = false ∧ (Instr.pldmCollectorSet 0 0 []).wf = false ∧ (Instr.gambitRun 0 0 true 4096 0 0).wf = false := by decide +kernel
theorem test_wf_slots : (Instr.linkCodewordReceived 0 { good := true, corrected := 0, control := 0, slots := [] }).wf = false ∧
    (Instr.linkCodewordReceived 0 { good := true, corrected := 0, control := 0, slots := List.replicate 10 0 }).wf = true := by decide
theorem test_wf_boot : (Instr.boot { dies := [], fuseWriteOk := true, hellos := List.replicate 32 none, hostLink := none }).wf = false := by decide +kernel
theorem test_wf_packet : (Instr.putReceived { hdr := 0, desc := 0, payload := List.replicate 8193 0 }).wf = false := by decide +kernel

/-! ### A device that has booted, and a context whose stream on die 0 stands at a word -/

/-- Booted, READY, its host link up. -/
def dev : State := { State.reset with
  power := { PowerSt.reset with state := .run, resetAsserted := false, readyN := true }
  bootSt := { BootSt.reset with stage := 0xFF }
  host := { HostSt.reset with link := some .x16 } }

/-- A stream that a launch started at its entry 0. -/
def running : Stream := { Stream.reset with launched := true }

/-- A context with every semaphore and all instruction memory, its stream on die 0 launched. -/
def ctx : CtxSt := ({ CtxSt.fresh 0 0 0 [] with
  semCount := 256, progCount := 8192, clSlots := 4, hbmPages := 16, scratchKib := 64, dieMask := 0xFFFFF } : CtxSt).updStream 0 fun _ => running

/-- dev with context 0 as given, and a word at instruction 0 of die 0. -/
def at_ (x : CtxSt) (w : IWord) : State := { dev with ctxs := dev.ctxs.set 0 (some x), program := [(0, w)] }

/-- A word: its class, its operation, and its body from bit 64. -/
def word (cls op : Nat) (body : List (Nat × Nat)) : IWord := pack 256 ((cls, 4) :: (op, 8) :: (0, 52) :: body)

/-- Issues, as one test. -/
def issuesB (s : State) (d : Die) (c : Ctx) (w : IWord) (cls op : Nat) (ok : CtxSt → Stream → Bool) (x : CtxSt) : Bool :=
  (x.stream d).launched && !(x.stream d).halted && decide (s.wordAt d x (x.stream d).pc = w) &&
    !(x.stream d).blocked && !((s.die d).tapSide.breaks.any fun b => b.2.1 = c.val && b.2.2 = (x.stream d).pc) &&
    headerOk x w cls op && (x.stream d).pair.isNone && ok x (x.stream d) && !bit w 12

theorem issues_of {s : State} {d : Die} {c : Ctx} {w : IWord} {cls op : Nat} {ok : CtxSt → Stream → Bool} {x : CtxSt}
    (h1 : s.ctx c = some x) (h : issuesB s d c w cls op ok x = true) : Issues s d c w cls op ok x := by
  simp only [issuesB, Bool.and_eq_true, decide_eq_true_eq, Bool.not_eq_true', Option.isNone_iff_eq_none] at h
  obtain ⟨⟨⟨⟨⟨⟨⟨⟨h2, h3⟩, h4⟩, h5⟩, h6⟩, h7⟩, h8⟩, h9⟩, h10⟩ := h
  exact ⟨h1, h2, h3, h4, h5, .inr h6, h7, .inl h8, h9, fun h => absurd h (by simp [h10])⟩

/-! ### The sequencer -/

def wSignal : IWord := word 7 2 [(255, 8), (5, 32)]
def wSet : IWord := word 7 3 [(255, 8), (2 ^ 32 - 1, 32)]
def wWait : IWord := word 7 1 [(255, 8), (2 ^ 31, 32)]
def wFence : IWord := word 7 4 []
def wJump : IWord := word 7 5 [(0, 8), (0, 32), (2, 2)]
def wNop : IWord := word 9 0 []
def wSeed : IWord := word 9 1 [(7, 64), (3, 2)]
def wAccdef : IWord := word 9 2 [(1, 8), (255, 8)]
def wTimeout : IWord := word 9 3 [(2 ^ 32 - 1, 32)]
def wMk : IWord := word 8 0 [(0, 64), (1, 1), (0, 15), (2 ^ 16 - 1, 16)]

theorem test_sync_issues :
    Issues (at_ ctx wSignal) 0 0 wSignal 7 2 (syOk wSignal) ctx ∧
    Issues (at_ ctx wSet) 0 0 wSet 7 3 (syOk wSet) ctx ∧ Issues (at_ ctx wWait) 0 0 wWait 7 1 (syOk wWait) ctx ∧
    Issues (at_ ctx wFence) 0 0 wFence 7 4 (fun _ _ => syBody wFence && sySem wFence = 0 && syVal wFence = 0) ctx :=
  ⟨issues_of rfl rfl, issues_of rfl rfl, issues_of rfl rfl, issues_of rfl rfl⟩

/-- SEM = VALUE + 2^31 − 1 is the last value that satisfies VALUE, and one more the first that does not. -/
theorem test_wait_edges : satisfies 0x80000004 5 = true ∧ satisfies 0x80000005 5 = false ∧ satisfies 5 5 = true ∧ satisfies 4 5 = false ∧
    (((at_ ctx wWait).afterIssue 0 0 7 ctx).sem 0 0 255 - syVal wWait).toNat = 2 ^ 31 ∧
    (((at_ ctx wSet).afterIssue 0 0 7 ctx).sem 0 0 255 - 0).toNat < 2 ^ 31 := by decide +kernel

def ctxL : CtxSt := { ctx with progLen := [(0, 1)] }
theorem test_jump_cf :
    Issues (at_ ctxL wJump) 0 0 wJump 7 5 (fun _ _ => syBody wJump && sySem wJump < ctxL.semCount &&
      (!jumpTaken wJump (satisfies (SMap.get 0 (at_ ctxL wJump).sems (semKey 0 ctxL.semBase (sySem wJump))) (syVal wJump)) ||
        (0 ≤ jumpTarget wJump 0 && jumpTarget wJump 0 < ctxL.loaded 0))) ctxL ∧
    Issues (at_ ctx wNop) 0 0 wNop 9 0 (fun _ _ => fld wNop 255 64 = 0) ctx ∧
    Issues (at_ ctx wSeed) 0 0 wSeed 9 1 (fun _ _ => fld wSeed 129 128 ≠ 0 && fld wSeed 255 130 = 0) ctx ∧
    Issues (at_ ctx wAccdef) 0 0 wAccdef 9 2 (fun _ _ => fld wAccdef 79 72 ≠ 0 && fld wAccdef 71 65 = 0 && fld wAccdef 255 80 = 0) ctx ∧
    Issues (at_ ctx wTimeout) 0 0 wTimeout 9 3 (fun _ _ => fld wTimeout 255 96 = 0) ctx :=
  ⟨issues_of rfl rfl, issues_of rfl rfl, issues_of rfl rfl, issues_of rfl rfl, issues_of rfl rfl⟩

theorem test_mk_holds : Issues (at_ ctx wMk) 0 0 wMk 8 0 (mkOk wMk) ctx ∧
    ((((at_ ctx wMk).afterIssue 0 0 8 ctx).stream 0 0).getD Stream.reset).inflight = [] ∧
    (((at_ ctx wMk).afterIssue 0 0 8 ctx).die 0).holdsAcc 0 = none := ⟨issues_of rfl rfl, by decide +kernel, by decide +kernel⟩

/-- OP 1 and OP 255, the ends of what Table 1.9 does not define. -/
theorem test_mk_other : [word 8 1 [], word 8 255 []].all (fun w =>
    (at_ ctx w).wordAt 0 ctx 0 = w && fld w 3 0 = 8 && fld w 11 4 ≠ 0 && ((at_ ctx w).die 0).tapSide.breaks.isEmpty &&
      !(ctx.stream 0).blocked && (ctx.stream 0).launched && !(ctx.stream 0).halted) = true := by decide +kernel

/-- A record of class 7 that nothing holds up. -/
def flight : InFlight := { num := 0, cls := 7, op := 2, addr := 0, sigEn := false, sigSem := 0, moveWait := false, paired := false, tiles := 0
                           collWait := false, verdictWait := false, instance_ := 0, fault := false, poison := false, nonfinite := false, tagged := false, stackBytes := 0, born := 0, badLine := none }
theorem test_streams :
    ((at_ (ctx.updStream 0 fun u => { u with inflight := [flight] }) 0).stream 0 0).any (fun t => t.inflight[0]? = some flight && flight.ready (t.inflight.take 0)) = true ∧
    (let s := at_ (ctx.updStream 0 fun u => { u with hold := some (.wait 0 1) }) 0
     (s.stream 0 0).any (fun t => t.launched && !t.halted && s.timesOut 0 0 t)) = true := by decide +kernel

theorem test_faultStop : (at_ ctx 0).ctx 0 = some ctx := rfl

/-! ### Engines -/

/-- A descriptor of one sealed FP32 row of e elements in the scratchpad of the issuing die. -/
def row (base e : Nat) : BitVec 512 :=
  BitVec.ofNat 512 (1 + 2 ^ 7 + 31 * 2 ^ 16 + base * 2 ^ 64 + (1024 + base) * 2 ^ 160 + e * 2 ^ 256 + 2 ^ 280 + 2 ^ 304 + 2 ^ 320)
/-- Plane p of an operand set, n bytes or codes of format f. -/
def plane (p f base e0 e1 : Nat) : BitVec 512 :=
  BitVec.ofNat 512 (1 + f * 4 + 2 ^ 7 + p * 2 ^ 12 + 31 * 2 ^ 16 + base * 2 ^ 64 + (2048 + base) * 2 ^ 160 + e0 * 2 ^ 256 + e1 * 2 ^ 280 + 2 ^ 304 + 2 ^ 320 + 64 * 2 ^ 336)
def ctxT : CtxSt := { ctx with
  descs := [(0, row 0 16), (1, row 64 16), (2, row 128 16)], ranges := [{ index := 0, kind := 2, die := 0, base := 0, len := 65536 }] }

def ends (m : Except Trap (Unit × Run)) : Bool := match m with | .ok _ => true | .error _ => false

/-- The body of e, from the state that its issue leaves, is held back by no stack and ends without a stopping fault. -/
def completes (x : CtxSt) (i : Instr) : Bool := match engineRow i with
  | some e => issuesB (at_ x e.w) e.d e.c e.w e.cls e.op e.ok x &&
      !((at_ x e.w).afterIssue e.d e.c e.cls x).holdsBack e.d e.c e.w 0 e.unit 0 e.body &&
      ends (e.body.run (((at_ x e.w).afterIssue e.d e.c e.cls x).engineStart e.d e.c e.w 0 e.unit 0 e.x))
  | none => false
/-- It meets one. -/
def traps (x : CtxSt) (i : Instr) : Bool := match engineRow i with
  | some e => issuesB (at_ x e.w) e.d e.c e.w e.cls e.op e.ok x &&
      !((at_ x e.w).afterIssue e.d e.c e.cls x).holdsBack e.d e.c e.w 0 e.unit 0 e.body &&
      !ends (e.body.run (((at_ x e.w).afterIssue e.d e.c e.cls x).engineStart e.d e.c e.w 0 e.unit 0 e.x))
  | none => false

def wAdd : IWord := word 3 1 [(0, 12), (1, 12), (0, 12), (2, 12)]
/-- A and B lie in memory that holds no seals of theirs: the row completes, and a die that cannot find DST's range traps. -/
theorem test_engine : completes ctxT (.vxAdd 0 0 wAdd .none) = true ∧ traps { ctxT with ranges := [] } (.vxAdd 0 0 wAdd .none) = true := by
  decide +kernel
theorem test_sound : soundFor Phys.none 1 ∧ soundFor Phys.none 3 ∧ soundFor Phys.none 4 ∧ soundFor Phys.none 6 := by
  refine ⟨⟨rfl, rfl, ?_, ?_⟩, ⟨rfl, rfl, ?_, ?_⟩, ⟨rfl, rfl, ?_, ?_⟩, ⟨rfl, rfl, ?_, ?_⟩⟩ <;> decide
/-- A plane of rows of e0 elements of format f in the die's own stack, in two areas. -/
def twoAreas (f base e0 e1 pitch : Nat) : BitVec 512 :=
  pack 512 [(2, 2), (f, 5), (1, 1), (1, 1), (0, 55), (base, 48), (4096 + base, 48), (8192 + base, 48), (12288 + base, 48), (e0, 24), (e1, 24), (1, 16), (1, 16), (pitch, 40)]
def record0 (base e0 : Nat) : BitVec 512 :=
  pack 512 [(1, 2), (6, 5), (1, 1), (0, 8), (31, 48), (base, 96), (4096 + base, 96), (e0, 24), (1, 24), (1, 16), (1, 16), (e0, 40)]
/-- Entry 0 of die 0: one slice of 16 rows of 16 parameters. -/
def ctxU : CtxSt := { ctx with
  ranges := [⟨0, 2, 0, 0, 65536⟩, ⟨1, 0, 0, 0, 65536⟩]
  entries := [(0, { word := BitVec.ofNat 256 (2 ^ 16 + 16 * 2 ^ 64 + 16 * 2 ^ 96 + 16 * 2 ^ 128), area := false, written := [], lastMap := [], lastStep := 0, codeBytes := 0, complete := false })]
  descs := [(10, twoAreas 1 0 16 16 64), (11, record0 0 64), (12, record0 512 16)] }
def wStep : IWord := word 4 1 [(0, 10), (0, 20), (0, 12), (10, 12), (0, 12), (11, 12), (2, 4), (1, 1)]
/-- Its stall is not enabled: the update of a master in the die's stack is held back. -/
theorem test_heldBack : issuesB (at_ ctxU wStep) 0 0 wStep 4 1 (fun y _ => upStepOk y wStep) ctxU = true ∧
    ((at_ ctxU wStep).afterIssue 0 0 4 ctxU).holdsBack 0 0 wStep 0 5 0 (upStepBody wStep) = true := by decide +kernel

/-! ### The arrays -/

/-- A held 1 by 16 accumulation of zeros on array 0's lower half. -/
def held : Accum := { ctx := 0, phys := some 0, origin := 0, logical := 0, bank := 0, rows := 1, cols := 16, transpose := false, colOff := 0
                      exact := true, promo := 16, regs := List.replicate 16 0, nonfinite := List.replicate 16 false, poison := List.replicate 16 false
                      expected := [0], blockSums := [], promoted := [], count := 1, carry := none, outT := none, spillT := none
                      aHdrs := [], wHdrs := [], phase := .held, ender := 0, endAddr := 0, tile := 0, earlier := false, elsewhere := false, partials := true, rowOff := 0, saved := none, descs := [] }
def mmWord (op set acc start fin out spill : Nat) (rows red cols : Nat) : IWord :=
  word 1 op [(set, 12), (set, 12), (out, 12), (spill, 12), (0, 8), (0, 3), (0, 1), (acc, 2), (0, 8), (start, 2), (fin, 2), (0, 2), (0, 2), (0, 2), (0, 20), (rows, 10), (0, 2), (0, 20), (red, 24), (0, 20), (cols / 16, 16)]
def ctxM : CtxSt := { ctxT with descs := [(0, row 0 16), (3, BitVec.ofNat 512 (1 + 2 ^ 7 + 31 * 2 ^ 16 + 2048 * 2 ^ 64 + 16384 * 2 ^ 160 + 16 * 2 ^ 256 + 16 * 2 ^ 280 + 2 ^ 304 + 2 ^ 320 + 64 * 2 ^ 336)),
  (4, plane 0 6 8192 8192 1), (16, plane 1 6 6144 32 1), (17, plane 2 8 6208 16 16), (18, BitVec.ofNat 512 (1 + 6 * 4 + 3 * 2 ^ 12 + 31 * 2 ^ 16 + 6656 * 2 ^ 64 + 16 * 2 ^ 256 + 2 ^ 280 + 2 ^ 304 + 2 ^ 320)), (8, plane 1 6 4096 32 1), (9, plane 2 9 4224 16 16)] }
def holding (s : State) (k : Accum) : State := s.updDie 0 fun x => { x with accs := [k] }
/-- A matrix word issues on a half that is free, and its body ends. -/
def mmRuns (w : IWord) (unit : Nat) (ok : CtxSt → Stream → Bool) (op cls : Nat) (body : Exec Unit) (k : List Accum) : Bool :=
  let s := (at_ ctxM w).updDie 0 fun x => { x with accs := k }
  issuesB s 0 0 w cls op ok ctxM && !(s.die 0).receiptOn 0 (mmArray w) ((s.die 0).physOf (mmArray w)) (mmBank w) &&
    !(s.die 0).checkingOn 0 (mmArray w) (mmBank w) && !(s.die 0).holdSoon ((s.die 0).physOf (mmArray w)) (mmBank w) && ends (body.run ((s.afterIssue 0 0 cls ctxM).engineStart 0 0 w 0 unit 0 Phys.none))
def wProduct : IWord := mmWord 1 8 0 0 1 0 0 16 16 16
def wDrain : IWord := mmWord 2 8 0 0 0 3 0 1 0 16
def wSpill : IWord := mmWord 3 0 0 0 0 0 4 1 0 16
def wDiscard : IWord := mmWord 4 0 0 0 0 0 0 0 0 0
def wQuant : IWord := word 2 1 [(3, 12), (16, 12), (0, 8), (0, 1), (0, 2), (0, 1)]
theorem test_product : mmRuns wProduct 1 (productMayRun ((at_ ctxM wProduct).updDie 0 fun x => { x with accs := [] }) 0 wProduct) 1 1 (productBody wProduct Phys.none) [] = true := by
  decide +kernel
theorem test_drain : mmRuns wDrain 2 (fun _ _ => drainOk wDrain) 2 1 (drainBody wDrain) [held] = true := by decide +kernel
set_option maxRecDepth 100000 in
theorem test_spill : mmRuns wSpill 2 (fun _ _ => spillOk wSpill) 3 1 (spillBody wSpill) [held] = true := by decide +kernel
theorem test_discard : mmRuns wDiscard 2 (fun _ _ => discardOk wDiscard) 4 1 (discardBody wDiscard) [held] = true := by decide +kernel
theorem test_quant : issuesB (at_ ctxM wQuant) 0 0 wQuant 2 1 (fun y _ => quantOk y wQuant) ctxM = true ∧
    ends ((quantBody wQuant none).run (((at_ ctxM wQuant).afterIssue 0 0 2 ctxM).engineStart 0 0 wQuant 0 3 0 Phys.none)) = true := by decide +kernel
theorem test_checking : ((dev.updDie 0 fun x => { x with accs := [{ held with phase := .checking }] }).die 0).accs.find?
    (fun k => k.phase = .checking && k.phys = some 0) = some { held with phase := .checking } ∧ Phys.none.mismatch ≤ 1 ∧ Phys.none.issue ≤ 1 ∧
    (addUpset held none).1 = held ∧ (addUpset held (some (.register, 0, 15, 1))).1.regs[15]? = some 1 := by decide +kernel

/-! ### Verdicts and the step marker -/

def wVerdict : IWord := word 4 3 [(0, 88), (1, 1), (0, 9), (255, 8)]
/-- A context whose stream waits for round 0, to which this device has contributed. -/
def ctxV : CtxSt := { ctx.updStream 0 fun u => { u with hold := some (.verdict 0) } with roundSent := some 0 }
/-- One whose stream has passed its MK fence, and one that has contributed for step 0. -/
def ctxF : CtxSt := ctx.updStream 0 fun u => { u with hold := some .mk, fenced := true }
def ctxS : CtxSt := { ctxF with mkSent := some (0, 0) }
theorem test_verdict : issuesB (at_ ctx wVerdict) 0 0 wVerdict 4 3 (fun _ _ => upVerdictOk wVerdict) ctx = true ∧ upRound wVerdict = 255 ∧ upSkip wVerdict = true ∧
    ((((at_ ctx wVerdict).afterIssue 0 0 4 ctx).stream 0 0).getD Stream.reset).inflight = [] ∧
    ctxV.launchedDies = [0] ∧ (ctxV.stream 0).roundHeld = some 0 ∧ (ctxV.stream 0).rounds = 0 := by decide +kernel
theorem test_mkContributes : (at_ ctxF 0).ctx 0 = some ctxF ∧ ((at_ ctxF 0).die 0).tapSide.haltedController = false ∧
    ctxF.launchedDies ≠ [] ∧ (∀ d ∈ ctxF.launchedDies, (ctxF.stream d).atMk = true) ∧ ctxF.partialEntries = [] := by
  refine ⟨rfl, ?_⟩; decide +kernel
/-- A verdict of 0 is clean; FAULT alone is the least that is not. -/
theorem test_mkOutcomes : ctxS.mkSent = some (0, 0) ∧ ctxS.mkTail = none ∧ ctxS.mkBad = false ∧ ctxS.commitMode = false ∧ ctxS.copying = false ∧
    clean (verdictBits (0 ||| 0)) = true ∧ clean (verdictBits (4 ||| 0)) = false := by decide +kernel
theorem test_digests : ∀ g ∈ ([ctxS.policyDigest] : List (BitVec 64)), g = ctxS.policyDigest := fun _ h => List.mem_singleton.1 h

/-! ### Moves and collectives -/

def wFill : IWord := word 5 7 [(0, 12), (2, 12), (0, 12), (3, 4), (0, 32), (1, 32)]
/-- A move to the host-memory window. -/
def wHost : IWord := word 5 1 [(0, 12), (5, 12)]
def ctxH : CtxSt := { ctxT with descs := ctxT.descs ++ [(5, BitVec.ofNat 512 (2 + 0x800000000000 * 2 ^ 64 + 16 * 2 ^ 256 + 2 ^ 280 + 2 ^ 304 + 2 ^ 320))] }
def moves (x : CtxSt) (w : IWord) (op : Nat) (ok host : Bool) (body : Exec Unit) : Bool :=
  let t := (at_ x w).afterIssue 0 0 5 x
  issuesB (at_ x w) 0 0 w 5 op (fun _ _ => ok) x && !((t.die 0).moves.any (·.queue = mvQueue w)) && (t.touchesHost 0 0 w == host) &&
    !t.holdsBack 0 0 w 0 6 (mvQueue w) body && ends (body.run (t.engineStart 0 0 w 0 6 (mvQueue w) Phys.none))
theorem test_moves : moves ctxT wFill 7 (mvOk wFill { dst := true, imm := true }) false (mvNow wFill) = true ∧ mvQueue wFill = 3 ∧
    moves ctxH wHost 1 (mvOk wHost { src := true, dst := true, convert := true }) true (mvWait wHost true) = true ∧ dev.host.link.isSome = true := by
  decide +kernel
/-- A move of the queue that wFill names waits already. -/
def queued : State := (at_ ctxT wFill).updDie 0 fun x => { x with moves := [{ ctx := 0, num := 0, queue := 3, word := wHost, descs := [], asked := true }] }
theorem test_queued : issuesB queued 0 0 wFill 5 7 (fun _ _ => mvOk wFill { dst := true, imm := true }) ctxT = true ∧
    (((queued.afterIssue 0 0 5 ctxT).die 0).moves.any (·.queue = mvQueue wFill)) = true ∧
    ends ((mvWait wFill false).run ((queued.afterIssue 0 0 5 ctxT).engineStart 0 0 wFill 0 6 (mvQueue wFill) Phys.none)) = true := by decide +kernel

/-- A group of die 0 of this device alone, of context 0, express. -/
def grp : BitVec 256 := BitVec.ofNat 256 (2 ^ 11 + 2 ^ 16 + 2 ^ 32 + 2 ^ 48 + 2 ^ 56 + 2 ^ 64)
def wShift : IWord := word 6 1 [(0, 8), (0, 12), (2, 12)]
def withGroup (s : State) : State := { s with fabric := { s.fabric with groups := [(0, grp)] } }
/-- An operation of group 0 that has a slot, or waits for one. -/
def collOp (isOpen : Bool) : CollOp := { ctx := 0, group := 0, op := 1, seq := 0, word := wShift, addr := 0, instr := 0, hash := 0, open_ := isOpen, expect := [], pieces := [], done := [], dst := none, planes := [], result := false, express := [], outputs := [] }
theorem test_collective :
    let s := withGroup (at_ ctxT wShift)
    let t := s.afterIssue 0 0 6 ctxT
    let full := (s.updDie 0 fun x => { x with ops := List.replicate 4 (collOp true) }).afterIssue 0 0 6 ctxT
    issuesB s 0 0 wShift 6 1 (fun _ _ => s.clOk 0 0 wShift 1) ctxT = true ∧ (t.ctx 0).any (fun z => decide (z.clSlots = 4)) = true ∧
      t.group (clGroup wShift) = some grp ∧ s.clWaits 0 0 wShift 1 = false ∧ ((t.die 0).openOps 0).length = 0 ∧
      t.holdsBack 0 0 wShift 0 7 0 (clBody wShift 1 grp) = false ∧
      ((full.die 0).openOps 0).length = 4 := by decide +kernel
theorem test_collectiveEvents :
    let s := withGroup ((at_ ctxT wShift).updDie 0 fun x => { x with ops := List.replicate 3 (collOp true) ++ [collOp false] })
    ((s.die 0).openOps 0).length = 3 ∧ (s.die 0).ops.find? (fun o => !o.open_ && o.ctx = (0 : Ctx).val) = some (collOp false) ∧
      s.group 0 = some grp ∧ s.holdsBack 0 0 wShift 0 7 0 (clBody wShift 1 grp) = false ∧ ((s.die 0).ops.filter (·.ctx = (0 : Ctx).val))[3]? = some (collOp false) := by decide +kernel

/-! ### Suphor -/

/-- A command record: opcode, context, buffer, four arguments. -/
def cmd (op c addr len a0 a1 a2 a3 : Nat) : CmdWord :=
  pack 512 [(op, 8), (0, 8), (c, 3), (0, 13), (1, 32), (addr, 64), (len, 32), (0, 32), (a0, 64), (a1, 64), (a2, 64), (a3, 64)]
/-- The administration mailbox runs w, on a device with context 0 as given. -/
def mb (x : CtxSt) (w : CmdWord) : State := (at_ x 0).updMbx 0 fun y => { y with started := some w }
def runsB (s : State) (op : Nat) (w : CmdWord) : Bool := (s.mbx 0).started = some w && cmdOp w = op && s.suphorRuns
theorem runs_of {s : State} {op : Nat} {w : CmdWord} (h : runsB s op w = true) : Runs s 0 op w := by
  simpa [runsB, Runs, and_assoc] using h
/-- A context that no stream of runs. -/
def idle : CtxSt := ctx.updStream 0 fun _ => Stream.reset
/-- The command runs, on context 0. -/
def suits (x : CtxSt) (op len a0 a1 a2 a3 : Nat) (ok : Bool) : Bool :=
  let w := cmd op 0 4096 len a0 a1 a2 a3
  runsB (mb x w) op w && cmdLen w = len && len ≤ 16777216 && cmdAddr w % 64 = 0 && cmdTarget 0 w = 0 && cmdArg w 0 = a0 && cmdArg w 1 = a1 && cmdArg w 2 = a2 &&
    cmdArg w 3 = a3 && ok

def entry0 : Entry := { word := 0, area := false, written := [], lastMap := [], lastStep := 0, codeBytes := 0, complete := false }
def capture0 : Capture := { kind := 0, bytes := [1], tileCount := 0, exported := false, order := 0 }
theorem test_reads :
    suits idle 0x01 dev.geometryTable.length 0 0 0 0 true = true ∧
    suits idle 0x02 8 19 3 65528 8 (decide ((segRead (dev.block 19 3) 65528 8).length = 8)) = true ∧
    suits idle 0x31 64 4095 1 0 0 true = true ∧ suits idle 0x31 0 0 0 0 0 true = true ∧
    suits idle 0x36 1024 0 0 0 0 true = true ∧
    suits idle 0x38 entry0.image.length 1023 19 0 0 (decide (({ idle with entries := [(19 * 1024 + 1023, entry0)] } : CtxSt).entries = [(20479, entry0)])) = true ∧
    suits idle 0x66 0 0 0 0 0 true = true ∧ suits idle 0x3C 16 4 0 0 0 true = true ∧ suits idle 0x3C 0 5 0 0 0 true = true ∧
    suits idle 0x60 0 1 0 1 0 true = true ∧ suits idle 0x60 0 0 0 4096 0 true = true := by decide +kernel

/-! ### Steps and memory -/

/-- A queue of one command, and an empty one. -/
theorem test_steps : ({ dev with pending := [.railLeavesWindow] } : State).pending = [.railLeavesWindow] ∧
    (∃ t, step { dev with pending := [.railLeavesWindow] } = .next t) ∧ dev.pending = [] ∧ (∃ t, step dev = .next t) :=
  ⟨rfl, ⟨_, rfl⟩, rfl, ⟨_, rfl⟩⟩
theorem test_stepKeepsMemoryWf : State.reset.memoryWf ∧ ({ dev with scratch := [(0, 1)] } : State).memoryWf := by
  constructor <;> (unfold State.memoryWf; decide)
/-- The last byte of a scratchpad, and its neighbour in the next one. -/
theorem test_memoryLaws : dev.memoryWf ∧ 2 ^ 26 - 1 + [(1 : Byte)].length ≤ 2 ^ 26 ∧ (1 : Nat) < [(0 : Byte), 1].length ∧
    (∀ i, i < [(1 : Byte)].length → ∀ d' o', Place.sp 1 0 = .sp d' o' → spKey d' o' ≠ spKey 0 (2 ^ 26 - 1 + i)) := by
  refine ⟨by unfold State.memoryWf; decide, by decide, by decide, ?_⟩
  intro i hi d' o' h; cases h; simp at hi; subst hi; decide
theorem test_retiredPage : let s := dev.updDie 0 fun x => { x with retired := [1] }
    s.isRetired 0 65535 = false ∧ s.isRetired 0 65536 = true ∧ s.isRetired 0 (65536 + 65535) = true ∧ s.isRetired 0 131072 = false := by decide +kernel

/-! ### Suphor: values, contexts, registrations -/

def integrity : BitVec 128 := BitVec.ofNat 128 (24 + 48 * 2 ^ 8 + 24 * 2 ^ 16 + 48 * 2 ^ 24 + 30 * 2 ^ 32 + 60 * 2 ^ 40 + 1440 * 2 ^ 48)
theorem test_values :
    suits idle 0x3B 0 3 0 0 0 true = true ∧ suits idle 0x3B 0 3 1024 0 0 true = true ∧ suits idle 0x3B 0 3 (2 ^ 24) 0 0 true = true ∧
    suits idle 0x3B 16 4 0 0 0 (integrityValues integrity && fld integrity 127 60 = 0 && wordOf 128 (leBytes 16 integrity.toNat) = integrity) = true ∧
    suits idle 0x3B 0 5 1 0 0 true = true ∧ suits idle 0x3B 0 5 168 0 0 true = true ∧ suits idle 0x3B 0 6 10 0 0 true = true ∧
    suits idle 0x3B 0 6 10000 0 0 true = true ∧ suits idle 0x3B 0 7 10 0 0 true = true ∧ suits idle 0x3B 0 7 1440 0 0 true = true ∧
    suits idle 0x3B 0 8 0 1000 100000 true = true ∧ suits idle 0x3B 0 8 7 10000000 60000000 true = true ∧
    suits idle 0x12 0 0x10000 0 0 0 (dev.stallPolicy 0 0x10000 = 0) = true ∧ suits idle 0x12 0 (2 ^ 20 - 1 - 0x17 - 0xFF00) 0 0 0 (dev.stallPolicy 0 (BitVec.ofNat 20 (2 ^ 20 - 1 - 0x17 - 0xFF00)) = 0) = true ∧
    suits idle 0x64 16 0 0 0 0 true = true ∧ suits idle 0x64 16 1 (2 ^ 17 - 1) 0 0 true = true ∧
    suits idle 0x51 0 0 0 0 0 true = true ∧ suits idle 0x51 0 (2 ^ 20 - 1) 0 0 0 true = true ∧ suits idle 0x63 0 0 0 0 0 true = true ∧
    (({ mb idle (cmd 0x62 0 4096 0 0 (digestNat 8 [1]) 0 0) with flash := { Flash.reset with captures := [(0, capture0)] } } : State).exportCapture 0 (digestNat 8 [1])).isSome = true := by
  decide +kernel
/-- The instruments: the counters at their ends, with select words at a boundary. -/
theorem test_measure :
    suits idle 0x50 0 0 0 31 0 (selectPolicy (eventQualifier 0) 0 false = 0) = true ∧
    suits idle 0x50 0 (2 ^ 20 - 1) 0 0 (0x504 + 2303 * 2 ^ 12) (selectPolicy (eventQualifier 0x504) 2303 false = 0) = true ∧
    suits idle 0x50 0 1 1 7 (10 + 17 * 2 ^ 4) (selectPolicy (sourceQualifier 10) 17 false = 0) = true ∧
    suits idle 0x50 0 1 2 4 16 true = true ∧ suits idle 0x50 0 1 2 0 26 true = true := by decide +kernel

/-- The least creation record, and the greatest quotas that the common runs give. -/
def create (slots sems prog pages scratch stall : Nat) : BitVec 512 :=
  pack 512 [(stall, 20), (slots, 12), (sems, 16), (prog, 16), (pages, 32), (scratch, 32), (0, 64), (0xFFFFF, 32)]
def creates (r : BitVec 512) : Bool :=
  let s := (mb idle (cmd 0x10 1 4096 64 0 0 0 0))
  let s : State := { s with ctxs := s.ctxs.set 0 none }
  let w := cmd 0x10 1 4096 64 0 0 0 0
  runsB s 0x10 w && cmdTarget 0 w = 1 && (s.ctx 1).isNone && cmdLen w = 64 && (leBytes 64 r.toNat).length = 64 && wordOf 512 (leBytes 64 r.toNat) = r &&
    creReserved r && inRange (creSlots r) 1 16 && inRange (creSems r) 1 256 && inRange (creProg r) 1 8192 && inRange (creScratch r) 4 61440 &&
    creScratch r % 4 = 0 && s.stallPolicy 1 (creStall r) = 0 && (!creAction r || creMode r) &&
    (s.commonRun 256 (creSems r) (fun x => (x.semBase, x.semCount))).isSome && (s.commonRun 8192 (creProg r) (fun x => (x.progBase, x.progCount))).isSome &&
    s.saveAreas.isSome && s.quotasFit r
theorem test_contexts : creates (create 1 1 1 208 4 0x10000) = true ∧ creates (create 16 256 8192 1048576 61440 0x1FFE8) = true ∧
    creates (create 16 256 8192 1048577 61440 0x1FFE8) = false ∧ creates (create 16 256 8192 1048576 61440 0x1FFE9) = false ∧
    suits idle 0x11 0 0 0 0 0 ((mb idle 0).mbx (mbxOf 1)).started.isNone = true ∧
    suits ctx 0x11 0 0 0 0 0 ((mb ctx 0).mbx (mbxOf 1)).started.isNone = true := by decide +kernel

/-- A context with a program of one word on every die, and an express group of its own. -/
def loadedCtx : CtxSt := { idle with progLen := [(0, 1)] }
theorem test_launchStop : idle.running = false ∧ ctx.running = true ∧ loadedCtx.launchFallback.isSome = true ∧
    suits loadedCtx 0x33 0 1 0 0 0 ((withGroup (mb loadedCtx 0)).launchPolicy 0 loadedCtx 1 0 0 = 0) = true ∧
    (withGroup (mb loadedCtx 0)).launchPolicy 0 loadedCtx 3 0 0 = 2 ∧ suits ctx 0x34 0 0 0 0 0 true = true := by decide +kernel
theorem test_contextTables :
    suits idle 0x32 32 (2 ^ 20 - 1) 8191 1 0 (8191 + 1 ≤ idle.progCount) = true ∧ suits idle 0x32 0 0 8192 0 0 true = true ∧
    suits ctx 0x30 64 4095 1 0 0 true = true ∧ suits ctx 0x30 0 0 0 0 0 true = true ∧
    suits ctx 0x35 0 255 0x1A 0 0 (slotFormOk 0x1A) = true ∧ suits idle 0x35 0 0 0 0 0 (slotFormOk 0) = true ∧
    (idle.policySet.isNone && ctx.policySet.isNone) = true := by decide +kernel
/-- The first run of each kind, the greatest that context 0 may hold beside its save area, and the first that it may not. -/
theorem test_memoryRanges :
    let x : CtxSt := { idle with hbmPages := 224 }
    let y : CtxSt := { idle with ranges := [⟨15, 0, 0, 0, 65536⟩] }
    suits x 0x20 0 0 19 (16 * 65536) 0 (x.freeIndex = some 0 && dev.allocAt x 0 19 16 = some 0) = true ∧
    suits x 0x20 0 0 0 65536 0 (dev.allocAt x 0 0 1 = some 0) = true ∧ dev.allocAt x 0 0 17 = none ∧
    suits x 0x20 0 1 0 1310720 0 (dev.allocAt x 1 0 1 = some 0) = true ∧ dev.allocAt x 1 0 17 = none ∧
    suits x 0x20 0 2 19 4096 0 (dev.allocAt x 2 19 1 = some 0) = true ∧ dev.allocAt x 2 19 16 = some 0 ∧ dev.allocAt x 2 19 17 = none ∧
    suits y 0x21 0 15 0 0 0 (!y.running && !y.dependsOn ⟨15, 0, 0, 0, 65536⟩) = true := by decide +kernel

def entryWord (kind slices : Nat) : BitVec 256 := BitVec.ofNat 256 (kind + slices * 2 ^ 16 + 16 * 2 ^ 64 + 16 * 2 ^ 96 + (if kind = 0 then 16 * 2 ^ 128 else 0))
def regEntry (kind slices a0 a1 : Nat) : Bool :=
  let e := entryWord kind slices
  let s := mb idle (cmd 0x37 0 4096 32 a0 a1 0 0)
  suits idle 0x37 32 a0 a1 0 0 (wordOf 256 (leBytes 32 e.toNat) = e && entryReserved e && entryFields e &&
    s.slicesOn a1 (0, a1 * 1024 + a0) + fld e 35 16 ≤ 1048576)
/-- The least fall-back record: every slot's entry is 0. -/
def policyHdr : Bytes := leBytes 64 (2 ^ 16 + 2 ^ 160 + 2 * 2 ^ 168 + 2 ^ 176 + 2 ^ 192)
def policy0 : Bytes := policyHdr ++ List.replicate 4096 0
theorem policyHdr_length : policyHdr.length = 64 := by decide +kernel
theorem policy0_take : policy0.take 64 = policyHdr := by
  rw [policy0, ← policyHdr_length]; exact List.take_left
theorem polSlot_policy0 {k : Nat} (h : k < 256) : polSlot policy0 k = 0 := by
  have hd : policy0.drop (64 + 16 * k) = List.replicate (4096 - 16 * k) 0 := by
    rw [policy0, ← policyHdr_length, ← List.drop_drop, List.drop_left, List.drop_replicate]
  have : min 16 (4096 - 16 * k) = 16 := by omega
  simp only [polSlot, slice, hd, List.take_replicate, List.length_replicate, this]
  decide
theorem polHdr_policy0 (hi lo : Nat) : polHdr policy0 hi lo = fld (wordOf 512 policyHdr) hi lo := by rw [polHdr, policy0_take]
theorem policy0_reserved : fallbackReserved policy0 = true := by
  have h : ((List.range 256).all fun k => fld (polSlot policy0 k) 31 17 = 0) = true := by
    refine List.all_eq_true.2 fun k hk => ?_
    rw [polSlot_policy0 (List.mem_range.1 hk)]; decide
  simp only [fallbackReserved, polHdr_policy0, h, Bool.and_true]; decide +kernel
theorem policy0_values : fallbackValues policy0 = true := by
  have h : ((List.range 256).all fun k => let e := polSlot policy0 k
      slotRole e ≠ 3 && slotMaxForm e ≠ 3 && slotInit e ≤ 4) = true := by
    refine List.all_eq_true.2 fun k hk => ?_
    rw [polSlot_policy0 (List.mem_range.1 hk)]; decide
  simp only [fallbackValues, polStreakLimit, polPromoteSteps, polDemoteSteps, polMinBlocks, polSpBase, polHbmBase, polHdr_policy0, h, Bool.and_true]
  decide +kernel
theorem foldl_id {α β : Type} (f : β → α → β) (b : β) : ∀ l : List α, (∀ a ∈ l, f b a = b) → l.foldl f b = b
  | [], _ => rfl
  | a :: l, h => by rw [List.foldl_cons, h a (by simp)]; exact foldl_id f b l fun a ha => h a (by simp [ha])
theorem policy0_forms (gone : List Nat) (kept : List Chunk) : launchForms policy0 gone kept = some ([], kept) := by
  refine foldl_id _ _ _ fun k hk => ?_
  have : slotEnable 0#128 = false := by decide
  simp [polSlot_policy0 (List.mem_range.1 hk), this]
theorem policy0_passes : idle.fallbackPolicy policy0 = 0 := by
  have h : ((List.range 256).all fun k => withinMax (initLevels (slotInit (polSlot policy0 k))) (slotMaxForm (polSlot policy0 k))) = true := by
    refine List.all_eq_true.2 fun k hk => ?_
    rw [polSlot_policy0 (List.mem_range.1 hk)]; decide
  have hc : idle.chunks = [] := rfl
  simp only [CtxSt.fallbackPolicy, policy0_values, h, policy0_forms, CtxSt.poolsKept, hc, polPromoteCoarse, polDemoteCoarse, polPromoteOverflow,
    polDemoteOverflow, polPromoteSteps, polDemoteSteps, polSpBase, polSpUnits, polHbmBase, polHbmPages, polHdr_policy0]
  decide +kernel
/-- A resilience record whose four pages lie in a range over every die. -/
def res0 : BitVec 256 := BitVec.ofNat 256 (1 + 2 ^ 16 + 2 ^ 32 + 2 ^ 128)
def wide : CtxSt := { idle with ranges := [⟨0, 1, 0, 0, 4 * 1310720⟩] }
/-- An operation of another group is open on die 0. -/
theorem test_registrations :
    regEntry 0 1 1023 19 = true ∧ regEntry 0 1048575 0 0 = true ∧ regEntry 1 0 0 0 = true ∧ regEntry 1 1 0 0 = false ∧
    suits idle 0x39 32 0 0 0 0 (wordOf 256 (leBytes 32 grp.toNat) = grp && groupReserved grp && (mb idle 0).groupOk 0 grp && (mb idle 0).group 0 = none) = true ∧
    suits idle 0x3A 0 0 0 0 0 ((withGroup (mb idle 0)).group 0 = some grp && fld grp 10 8 = (0 : Ctx).val && !idle.running) = true ∧
    suits idle 0x3B 4160 1 0 0 0 (policy0.length = 4160) = true ∧
    suits wide 0x3B 32 2 0 0 0 (wordOf 256 (leBytes 32 res0.toNat) = res0 && resilienceReserved res0 && (mb wide 0).resiliencePolicy wide res0 = 0) = true ∧
    suits idle 0x3E 0 1 64 6 0 true = true ∧ suits idle 0x3E 0 1 (2 ^ 47 - 64) 16 0 true = true := by decide +kernel
theorem test_groupRelease : ∀ d : Die, ∀ o ∈ ((withGroup (mb idle 0)).die d).ops, o.open_ = true → o.group ≠ 0 := by decide +kernel
theorem test_packages : suits idle 0x67 1 0 0 0 0 true = true ∧ suits idle 0x68 1 0 0 0 0 true = true ∧ suits idle 0x65 1 0 0 0 0 true = true ∧
    dev.gambitRefusal [0] ≠ 0 ∧ dev.managed = true := by decide +kernel
/-- A device with a second one in service, logical 1, and a spare device 2 in place for it. -/
def fabric2 (s : State) : State := { s with fabric := { s.fabric with remap := [(1, 0x8001), (2, 0x8002)] } }
theorem test_device :
    suits idle 0x03 0 0 0 0 0 true = true ∧
    suits idle 0x70 0 31 0 0 0 ((((mb idle 0).updLink 31 fun x => { x with state := 3 }).link (linkOf 31)).state = 3) = true ∧
    suits idle 0x71 0 1 2 0 0 (let s := fabric2 (mb idle 0)
      s.fabric.swap = none && remapValid (s.remapOf 2) && !s.inSomeGroup 2 && s.serving ≠ []) = true ∧
    suits idle 0x71 0 (2 ^ 14 - 1) 0 0 0 (let s : State := { mb idle 0 with fabric := { (mb idle 0).fabric with remap := [(0, 0x8000)] } }
      remapValid (s.remapOf 0) && !s.inSomeGroup 0 && s.serving = []) = true ∧
    ({ dev with fabric := { dev.fabric with swap := some (1, 2, [2], 0, 0) } } : State).fabric.swap = some (1, 2, [2], 0, 0) := by decide +kernel
theorem length_padTo (n : Nat) (bs : Bytes) : (padTo n bs).length = n := by
  simp only [padTo, slice, List.drop_zero, List.length_append, List.length_take, List.length_replicate]; omega
theorem length_leBytes : ∀ n v : Nat, (leBytes n v).length = n
  | 0, _ => rfl
  | n + 1, v => by simp [leBytes, length_leBytes n]
theorem length_ctl (f : Nat → SlotCtl) : ∀ l : List Nat, (l.flatMap fun k => slotCtlImage (f k)).length = 16 * l.length
  | [] => rfl
  | a :: l => by
    rw [List.flatMap_cons, List.length_append, length_ctl f l, slotCtlImage, length_leBytes, List.length_cons]; omega
theorem test_bigReads : suits idle 0x3D 36864 0 0 0 0 true = true ∧ suits idle 0x61 262144 63 0 0 0 true = true ∧
    (∀ x : CtxSt, (padTo 32768 x.reduced ++ (List.range 256).flatMap fun k => slotCtlImage (SMap.get ctlZero x.reducedCtl k)).length = 36864) ∧
    (padTo 262144 capture0.bytes).length = 262144 ∧ SMap.find [(63, capture0)] 63 = some capture0 := by
  refine ⟨by decide +kernel, by decide +kernel, fun x => ?_, length_padTo .., by decide⟩
  rw [List.length_append, length_padTo, length_ctl, List.length_range]

/-! ### Packages: a firmware package and a debug token, signed under one 4096-bit modulus -/

def joined (l : List Nat) : Nat := l.foldl (fun a x => a * 2 ^ 512 + x) 0
def modulus : Bytes := beBytes 512 (2 ^ 4096 - 2549)
def header (type signer body nonce rev : Nat) : Bytes :=
  leBytes 64 (packNat [(0x4B505952, 32), (type, 8), (signer, 8), (0xB0, 16), (body, 32), (0, 96), (nonce, 64), (rev, 16)])
def firmwareSig : Nat := joined [0xc0f4832155274d996f74d0c32f28447c40a7e09b058ac0d49d6427818d7ac428015a15400e0cfc8e5446a0675f022cb3885c29b8081086f212f7a234ba127453,
    0x9c6dbf6176f2379cc205858a2a69982d6db96920381083824318864a58dad95987fa15479628e6785f66e441292cb8e9d1993bf3e6dbc4bb52ca596af33a23c1,
    0x6b3b5a8af79e3c57497d4fef92e712c5a5b7f76af23dbbac96b956c802aa49db0b5bcc2b026a7585f9a70a13e0f09f24b2922440954fb7389954fde0cb691322,
    0xef0ca01ec876677321fedbac799e8a1e55b6157b9f4f08fabcf71732948a895e3c654857354aeaa8af89391efe26bbbaf89e1fe220b7025719c545299701c0d3,
    0x58d4907010d4796b1b363733d76b33ffa860d9bb51faece71c469ad820fd23996a1975df8545e915ae3b57d52dc8196d492c7af41102fd67e32b81c712bb08e8,
    0x42098651929d37dfb9d738c878a9f085a0be22ff4b54c46e9c526a346412bd1acd2e771968a013e52e3f4ca483433c3fb6159f07835027d66f251bc60ec0ddfc,
    0x325c18f03e9fa926e7cc29ab5439d719de9adaa546ca078f1d108f2e86e560e89665139484cd85f67ac513b2ec882fb94587c4bf0d17a17b82d2f40b56a1bbd8,
    0x306709e59177e6702d7cc73414c7ee143ba965751a9b9a1c3a8be3c8575ce037037def908ac6a83fcf2cd22b7f4105b153d1f6495fa5edcdc0dcf96e134767bc]
def firmware : Bytes := header 1 1 0 0 1 ++ modulus ++ beBytes 512 firmwareSig
def tokenSig : Nat := joined [0x83f51f4c2b80714c1af4da5aaac93160d822be5b3a022abeb3b5a294fd2a68b32680ccc29db9e58c0dd06a06c322bd7df142f6a0c82441d76c521e06241cdd03,
    0xea9051a57c2a5358edb0c4c762d10146e8e4a6a626f792c35367693c7ae44d7c91cd07d5f731e1f156b4895cbe45fa13c42108ef9556395e9719cf23912169a3,
    0x00981b906a1b5289bed686e0f97ba929b0a1ab962fb7e64a2da5ed49c6e774ca2f7a06155767e43925bcc60d9c7cad86d02cf6f0803587a5c0e3d87d52d73e9d,
    0xf7502366f492f237630352831abc389c300d49050f9f36123738780ccc89572bb6f57265016a9fe3ccfca67b7d09e20e33e74983ea9778da13c48358a867b5a0,
    0x361dea6ba26afccf4a0ae597a77cfe0152215f3e3198a35b7526e3f53cc1db8e5930781b5b0d9dc99c9a755fe40923e270cf987874588763b14485fcf4f54222,
    0xbdde39b059368ac7a2015ec93c7a98c1c0f338760621e66e079b57316e7e3d3feab11cea5da7f14055d23018af4acac5e70e92de93809476daef06f31d0b4a6c,
    0xadd7fb848ae0de651011dd9303f8c82facb640d46444e5de3cb54816667913bfb5e1e7821299082ace34be34e3bda171c30aefc8890aefb051d32766248a3898,
    0xcb1cc9e927b486d0f4cb5b5396fe569501e96b5fb7c9c79cf76821f68d4c43a6c4c35e8d666224760fdd7e91f3c22206e4354ba5e9c0915ff36775614cacd568]
/-- A token of nonce 9 for the scopes RUN and WRITE, bits 0 and 2, on every die. -/
def token : Bytes := header 4 3 16 9 0 ++ leBytes 16 (5 + 0xFFFFF * 2 ^ 4) ++ modulus ++ beBytes 512 tokenSig
def keyed (s : State) : State := { s with fuses := { s.fuses with fwKeyHash := fuseDigest modulus, serviceKeyHash := fuseDigest modulus } }
def tokened : State := { keyed dev with bootSt := { dev.bootSt with push := token, nonce := some 9 } }
theorem test_firmware : (keyed dev).pkgOk [1] firmware = true := by decide +kernel
theorem test_token : tokened.pkgOk [4] tokened.bootSt.push = true ∧ tokened.pkgOk [4] [] = false := by decide +kernel

/-! ### Debug and management -/

/-- A request frame: CMD, SPACE, CTX, ADDR and DATA. -/
def frame (code space c addr data : Nat) : BitVec 160 := pack 160 [(code, 8), (0, 8), (space, 4), (c, 4), (0, 8), (addr, 48), (0, 16), (data, 64)]
/-- A port whose token grants every scope on every die. -/
def unlocked (s : State) : State := { s with bootSt := { s.bootSt with unlocked := true, scope := 7, scopeDies := 0xFFFFF } }
def framedB (s : State) (f : BitVec 160) (code : Nat) : Bool := s.tapUp && frCmd f = code && frClear f
def scopedB (s : State) (d : Die) (f : BitVec 160) (code scope : Nat) : Bool :=
  framedB s f code && s.bootSt.unlocked && s.bootSt.scopeDies.getLsbD d && bit s.bootSt.scope scope
theorem test_dyoloLocked : dev.bootSt.unlocked = false ∧
    [.dyoloInstall 19 0, .dyoloHalt 0 0, .dyoloResume 0 0, .dyoloStep 0 0 Phys.none, .dyoloBreakSet 0 0, .dyoloBreakClear 0 0, .dyoloRead 0 0 Phys.none,
      .dyoloWrite 0 0 Phys.none, .dyoloResetDevice 0 0].map scopedRow =
      [some (19, 0, 0x07), some (0, 0, 0x10), some (0, 0, 0x11), some (0, 0, 0x12), some (0, 0, 0x13), some (0, 0, 0x14), some (0, 0, 0x20),
        some (0, 0, 0x21), some (0, 0, 0x30)] ∧
    [0x07, 0x10, 0x11, 0x12, 0x13, 0x14, 0x20, 0x21, 0x30].all (fun k => framedB dev (frame k 0 0 0 0) k) = true := by decide +kernel
theorem test_dyoloFree : [0x00, 0x01, 0x02, 0x03, 0x04, 0x05, 0x06].all (fun k => framedB dev (frame k 0 0 0 0) k) = true ∧
    dev.bootSt.push.length + 8 ≤ pushCapacity := by decide +kernel
/-- Context 0, halted on die 0: the commands of a scope, the last word of a scratchpad. -/
theorem test_dyoloScoped :
    let s := (unlocked (at_ ctx 0)).updStream 0 0 fun u => { u with halted := true }
    let f := fun (k : Nat) => frame k 4 0 0 0
    let g := fun (k : Nat) => frame k 2 0 (2 ^ 26 - 8) 7
    (s.stream 0 0).any (fun u => u.halted && u.launched) = true ∧ (s.ctx 0).isSome = true ∧ frSpace (f 0) = 4 ∧ frCtx (f 0) = (0 : Ctx).val ∧
    [0x10, 0x11, 0x12, 0x13, 0x14].all (fun k => scopedB s 0 (f k) k 0) = true ∧ frSpace (g 0) = 2 ∧ frAddr (g 0) = 2 ^ 26 - 8 ∧
    scopedB s 0 (g 0x20) 0x20 1 = true ∧ scopedB s 0 (g 0x21) 0x21 2 = true ∧ scopedB s 0 (f 0x07) 0x07 2 = true ∧ scopedB s 0 (f 0x30) 0x30 2 = true := by
  decide +kernel
theorem test_tap : dev.power.state ≠ .off ∧ dev.power.resetAsserted = false ∧
    ({ dev with power := { dev.power with resetAsserted := true } } : State).power.state ≠ .off := by decide +kernel

def ask (code p1 p2 : Nat) : Bytes := [0x13, BitVec.ofNat 8 code, BitVec.ofNat 8 p1, BitVec.ofNat 8 p2]
def algorithms : Bytes := ask 0xE3 0 0 ++ [0, 0, 0, 0, 0x20, 0, 0, 0, 4, 0, 0, 0]
theorem test_spdm :
    dev.spdmAnswers .mctp = true ∧ dev.spdmAnswers .doe = true ∧ reqCode (ask 0x84 0 0) = 0x84 ∧ reqCode (ask 0xE1 0 0) = 0xE1 ∧
    reqCode algorithms = 0xE3 ∧ (leAt algorithms 8 4).testBit 5 = true ∧ (leAt algorithms 12 4).testBit 2 = true ∧
    reqCode (ask 0x81 0 0) = 0x81 ∧ reqCode (ask 0x82 0x10 0) = 0x82 ∧ reqP1 (ask 0x82 0x10 0) % 16 = 0 ∧ leAt (ask 0x82 0 0) 4 2 = 0 ∧
    reqCode (ask 0x83 0 0) = 0x83 ∧ reqP1 (ask 0x83 0 0) = 0 ∧ reqCode (ask 0xE0 0 7) = 0xE0 ∧ reqP2 (ask 0xE0 0 7) ≤ 7 ∧
    ({ dev.spdm .doe with vca := [0x10], negotiated := true } : SpdmSt).negotiated = true ∧
    [0x81, 0x82, 0x83, 0x84, 0xE0, 0xE1, 0xE3].contains (reqCode (ask 0xFF 0 0)) = false := by decide +kernel
/-- The chain is never empty, whatever the device's certificates are. -/
theorem test_spdmChain : 0 < spdmChain.length := by simp [spdmChain, leBytes]
theorem test_pldm : dev.managed = true ∧ (dev.sensor 49).isSome = true ∧ dev.sensor 50 = none ∧ (1 : BitVec 64).toNat ≤ 1 ∧
    (131071 : BitVec 64).toNat < 2 ^ 17 ∧ (List.replicate 16 (0 : Byte)).length = 16 := by decide +kernel

/-! ### Mailboxes, the host link, power and boot -/

/-- A doorbell at the ring's end and beyond it; a record to fetch; a ring enabled at its least and greatest size. -/
theorem test_mailbox :
    let x := dev.mbx 0
    let s := dev.updMbx 0 fun y => { y with cmdEnable := true, cmdTail := 1 }
    dev.ready = true ∧ (BitVec.ofNat 32 (2 ^ x.cmdSize.toNat) - x.cmdHead).toNat ≤ 2 ^ x.cmdSize.toNat ∧
    2 ^ x.cmdSize.toNat < (BitVec.ofNat 32 (2 ^ x.cmdSize.toNat + 1) - x.cmdHead).toNat ∧
    s.suphorRuns = true ∧ (s.mbx 0).cmdEnable = true ∧ (s.mbx 0).fetchErr = false ∧ (s.mbx 0).cmdHead ≠ (s.mbx 0).cmdTail ∧ s.host.link.isSome = true ∧
    x.cmdEnable = false ∧ x.cplEnable = false ∧ x.evtEnable = false ∧
    bit (0x104 : BitVec 64) 8 = true ∧ fld (0x104 : BitVec 64) 3 0 = 4 ∧ bit (0x10C : BitVec 64) 8 = true ∧ fld (0x10C : BitVec 64) 3 0 = 12 := by
  decide +kernel
theorem test_completion : let s := dev.updMbx 0 fun y => { y with cplEnable := true, cplSize := 4, cplTail := 15 }
    s.host.link.isSome = true ∧ (s.mbx 0).cplEnable = true ∧ s.hostMem = [] ∧ s.stack = [] ∧ s.scratch = [] ∧ s.sems = [] ∧ s.program = [] := by decide +kernel
theorem test_hostLink : dev.host.link.isSome = true ∧ ({ dev with host := { dev.host with link := none } } : State).hostPortUp = true := by decide +kernel

def powered (p : PowerSt) : State := { dev with power := p }
theorem test_powerUp :
    (powered { PowerSt.reset with state := .off, pwrEn := false }).power.pwrEn = false ∧
    (powered { PowerSt.reset with state := .off, starting := true }).power.starting = true ∧
    (powered { PowerSt.reset with state := .reset, resetAsserted := true, resetHold := false }).power.resetAsserted = true ∧
    (powered { PowerSt.reset with state := .reset, resetHold := true }).power.resetHold = true := by decide +kernel
theorem test_powerDown :
    dev.power.state ≠ .off ∧ (40999 < 41000 ∧ 59000 < 59001) ∧ (40000 ≤ 40000 ∧ 43999 < 44000) ∧
    (powered { dev.power with rideThrough := some 0 }).power.rideThrough.isSome = true ∧ dev.power.state = .run ∧ dev.bootSt.stage = 0xFF ∧
    ({ dev.power with state := .drain } : PowerSt).shutdownAck = false := by decide +kernel
theorem test_supply : dev.up = true ∧ (powered { dev.power with episode := some (1, 1) }).power.episode = some (1, 1) ∧
    (∀ d : Die, 1400 ≤ (dev.die d).powerMhz ∧ 1400 ≤ (dev.die d).marginMhz) := by decide +kernel
/-- At the least and the greatest clock; above the limit it falls, and at 96 % of it with enough samples it rises. -/
theorem test_capping : cappingStep 101 100 1400 0 = (1386, 0) ∧ cappingStep 101 100 700 0 = (700, 0) ∧ cappingStep 96 100 700 99 = (714, 0) ∧
    cappingStep 96 100 1400 99 = (1400, 0) := by decide
/-- A device in reset, out of which its boot runs: with its firmware and a calibration set in force, with no firmware, with D0 bad. -/
def booting : State := { keyed dev with bootSt := { BootSt.reset with calInForce := [1] } }
def goodBoot : BootEnv := { dies := List.replicate 20 { lockstepOk := true, stackOk := true, arraysOk := true }, fuseWriteOk := true, hellos := List.replicate 32 none, hostLink := none }
theorem test_boot : booting.power.state = .run ∧ booting.bootSt.stage = 0 ∧ booting.power.shutdownReq = false ∧ booting.bootSlot = none ∧
    goodBoot.dies[0]? = some { lockstepOk := true, stackOk := true, arraysOk := true } ∧
    ({ goodBoot with dies := [{ lockstepOk := false, stackOk := true, arraysOk := true }] } : BootEnv).dies[0]? =
      some { lockstepOk := false, stackOk := true, arraysOk := true } := by decide +kernel
theorem test_bootSlot :
    let s : State := { booting with flash := { booting.flash with slotA := some firmware } }
    s.bootSlot = some (firmware, false) ∧ s.calibrate.bootSt.calInForce ≠ [] := by
  intro s
  have h1 : s.pkgOk [1] firmware = true := by exact test_firmware
  have h2 : s.flash.preferB = false := rfl
  have h3 : s.flash.slotA = some firmware := rfl
  refine ⟨?_, ?_⟩
  · simp [State.bootSlot, h2, h3, h1]
  · have : s.flash.staging = none ∧ s.flash.calibration = none := ⟨rfl, rfl⟩
    simp only [State.calibrate, this]; decide

/-! ### Links, the router and transport -/

def link0 (s : State) (x : BitVec 2) (h : Option (BitVec 33)) : State := s.updLink 0 fun l => { l with state := x, hello := h }
theorem test_controlFlits : ((link0 dev 2 none).link 0).open_ = [] ∧
    (((link0 dev 2 none).updLink 0 fun x => { x with open_ := [{ control := true, flit := 0, pkt := none }] }).link 0).open_ ≠ [] ∧
    helloFits 0 0x10000000 = true ∧ helloFits 0 0 = false ∧
    (((link0 dev 1 none).updLink 0 fun x => { x with trained := true }).link 0).trained = true ∧ ((link0 dev 1 none).link 0).state ≠ 0 ∧ ((link0 dev 1 none).link 0).state ≠ 3 ∧ ((link0 dev 2 none).link 0).state = 2 ∧
    flitKind 0 = 0 ∧ flitKind 1 = 1 ∧ flitKind 2 = 2 ∧ flitKind 3 = 3 ∧ flitKind 4 = 4 := by decide +kernel
/-- The first sequence number a link expects, and the last; a HELLO of link 0's partner, whose direction is 1. -/
theorem test_links :
    let s := link0 dev 2 none
    let t := s.updLink 0 fun x => { x with rxAny := true, rxSeq := 1021 }
    (s.link 0).state = 2 ∧ (s.link 0).waitingReplay = false ∧ (s.link 0).expected = 0 ∧ fld (0 : BitVec 20) 19 10 = 0 ∧
    (t.link 0).expected = 1022 ∧ fld (BitVec.ofNat 20 (1022 * 1024)) 19 10 = 1022 ∧
    512 < ((s.link 0).expected + 1023 - 1) % 1023 ∧ ((t.link 0).expected + 1023 - 1021) % 1023 ≤ 512 ∧ ((t.link 0).expected + 1023 - 510) % 1023 ≤ 512 ∧
    512 < ((t.link 0).expected + 1023 - 509) % 1023 ∧
    ((link0 dev 1 (some 0x10000000)).link 0).hello.any (helloFits 0) = true ∧ ((link0 dev 1 (some 0)).link 0).hello.any (helloFits 0) = false ∧
    ((link0 dev 1 none).link 0).hello.any (helloFits 0) = false ∧ dev.power.fabRefclk = true ∧
    ((link0 dev 1 none).link 0).fresh = true ∧ (((link0 dev 1 none).updLink 0 fun x => { x with fresh := false }).link 0).fresh = false := by decide +kernel
/-- A packet without payload, for this device. -/
def pkt (ty aux : Nat) (desc : BitVec 256) : Pkt := ({ ty := ty, dst := 0, src := 1, dstDie := 0, srcDie := 0, ctx := 0, aux := aux, val := 65535 } : Head).bare desc
def waiting0 : Waiting := { pkt := pkt 2 0 0, from_ := none, since := 0 }
theorem test_router : (pkt 2 0 0).headOk = true ∧ (pkt 2 0 0).valid = true ∧ (pkt 2 0 0).mcast = false ∧ (pkt 2 0 0).hops < 64 ∧ (pkt 2 0 0).dst = dev.node ∧
    ({ dev.fabric with waiting := [waiting0] } : FabricSt).waiting[0]? = some waiting0 := by decide +kernel
/-- A SIGNAL that is new, and one that has been received. -/
theorem test_signal :
    let p := pkt 2 0 0
    let s := at_ idle 0
    let t := s.markSeq 0 p
    let q : Pkt := { p with hdr := setBit p.hdr 7 true }
    p.ty = 2 ∧ s.isMine p = true ∧ p.payloadOk = true ∧ p.seqSpace = 0 ∧ q.ty = 2 ∧ q.seqSpace = 1 ∧ q.payloadOk = true ∧ (s.die 0).seen q = .fresh ∧ p.dstDie ≤ 19 ∧ (s.ctx (ctxOf p.ctx)).isSome = true ∧
    p.notifySem < idle.semCount ∧ (s.die 0).seen p = .fresh ∧ t.isMine p = true ∧ (t.die 0).seen p = .duplicate ∧ t.sems = [] := by decide +kernel
/-- A PUT of 64 bytes into the scratchpad of a context that holds them, and into one that does not. -/
def holder : CtxSt := { idle with ranges := [⟨0, 2, 0, 0, 4096⟩] }
def data (ty : Nat) (addr : Nat) : Pkt :=
  ({ ty := ty, dst := 0, src := 1, dstDie := 0, srcDie := 0, ctx := 0, space := true, msgLen := 64, addr := addr, seq := 0 } : Head).data (List.replicate 64 1) [] 0 none
def asks (addr : Nat) : Pkt := ({ ty := 3, dst := 0, src := 1, dstDie := 0, srcDie := 0, ctx := 0, space := true, msgLen := 64, addr := addr } : Head).bare 0
def arrives (x : CtxSt) (p : Pkt) (ty : Nat) (refused : Option Nat) : Bool :=
  let s := at_ x 0
  s.isMine p && p.payloadOk && !p.ordered && p.ty = ty && (s.die 0).seen p = .fresh && dieOf p.dstDie = 0 && (s.unbox p).refusal 0 p = refused
set_option maxRecDepth 100000 in
theorem test_receipt : arrives holder (data 1 4032) 1 none = true ∧ arrives holder (data 1 4033) 1 (some 8) = true ∧ arrives holder (data 4 0) 4 none = true ∧
    arrives holder (data 4 4096) 4 (some 8) = true ∧ arrives holder (asks 4032) 3 none = true := by decide +kernel
/-- A collective packet that is parked, and one of a context that is not in its group. -/
def coll (seq group : Nat) (ty : Nat) : Pkt :=
  ({ ty := ty, dst := 0, src := 1, dstDie := 0, srcDie := 0, ctx := 0, msgLen := 64, addr := group + seq * 2 ^ 8 } : Head).data (List.replicate 64 1) [] 0 none
set_option maxRecDepth 100000 in
theorem test_collReceipt :
    let s := withGroup (at_ ctxT 0)
    let u := s.unbox (coll 0 0 5)
    s.isMine (coll 0 0 5) = true ∧ (coll 0 0 5).payloadOk = true ∧ (coll 0 0 5).dstDie ≤ 19 ∧ (coll 0 0 5).ty = 5 ∧ (u.die 0).seen (coll 0 0 5) = .fresh ∧
    (u.die 0).msgRefusal (coll 0 0 5) = none ∧ (match u.offerColl 0 (coll 0 0 5) with | .taken _ => true | .refused _ _ => false) = true ∧
    (match (s.unbox (coll 0 1 5)).offerColl 0 (coll 0 1 5) with | .taken _ => false | .refused r _ => r = 8) = true ∧ (coll 0 0 6).ty = 6 ∧
    s.isMine (coll 0 0 6) = true ∧ (coll 0 0 6).payloadOk = true := by decide +kernel
def src0 (counted wait : Nat) : SrcPkt := { dstNode := 1, space := 0, seq := 0, pkt := pkt 1 0 0, ctx := 0, instr := 0, counted := counted, backoff := 0, waitReason := wait, members := [], sent := true, firstSent := none }
set_option maxRecDepth 100000 in
theorem test_answers :
    let s := (at_ ctx 0).updDie 0 fun x => { x with unacked := [src0 0 0, src0 8 0, src0 0 1] }
    let m := ({ ty := 10, dst := 0, src := 1, dstDie := 0, srcDie := 0, ctx := 0 } : Head).data (leBytes 2 4 ++ leBytes 8 5) [] 0 none
    s.isMine (pkt 7 0 0) = true ∧ s.isMine (pkt 9 0 0) = true ∧ (pkt 8 8 0).aux = 8 ∧ (pkt 8 9 0).aux = 9 ∧ (s.die 0).nakked (pkt 8 9 0) = some 0 ∧
    (s.ctx (ctxOf (src0 0 0).ctx)).isSome = true ∧ m.ty = 10 ∧ m.payloadOk = true ∧ mgmtKind m = 4 ∧ s.isMine m = true ∧
    (s.die 0).unacked[0]? = some (src0 0 0) ∧ (s.die 0).unacked[1]? = some (src0 8 0) ∧ (s.die 0).unacked[2]? = some (src0 0 1) ∧
    (let x := s.markSeq 0 (pkt 2 0 0)
     (((x.die 0).trackOf 1 0 0).map (·.unacked)) = some 1) := by decide +kernel

/-! ### Memory, integrity, measurement, the ledger, long runs -/

/-- A context that holds the first page of die 19's stack, by its stall, with a request queue that is empty or full. -/
def pageCtx : CtxSt := { idle with ranges := [⟨0, 0, 19, 0, 65536⟩] }
def stalled : State := (at_ pageCtx 0).updDie 19 fun x => { x with stalls := x.stalls.set 0 { x.stalls[0] with enable := true } }
theorem test_memoryRows :
    deviceAddr 0 (20 * 2 ^ 36) = some (.st 19 0) ∧ requestOk (20 * 2 ^ 36) 64 = true ∧ deviceAddr 0 (20 * 2 ^ 36 + 65536) = some (.st 19 65536) ∧
    (stalled.ctx 0).isSome = true ∧ pageCtx.ownsRun (fun i => some (.st 19 (65472 + i))) 64 = true ∧
    pageCtx.ownsRun (fun i => some (.st 19 (65473 + i))) 64 = false ∧ (stalled.die 19).stalls[0].enable = true ∧ (stalled.die 19).stalls[0].debt = 0 ∧
    (stalled.die 19).requests.length < 256 ∧ stalled.stackReady 19 0 = true ∧ (at_ pageCtx 0).stackReady 19 0 = false ∧ dieOf 19 = 19 := by decide +kernel
def request0 : MemReq := { offset := 0, len := 64, who := .service, seen := [], born := 0 }
theorem test_readReturn : ((dev.updDie 0 fun x => { x with requests := [request0] }).die 0).requests = [request0] := by decide +kernel
theorem test_hostAccess :
    let dpa := 20 * 2 ^ 36 + 19 * 2 ^ 36
    stalled.host.link.isSome = true ∧ dpa % 64 = 0 ∧ dpa + 64 ≤ 2 * (20 * 2 ^ 36) ∧ (dpaAddress dpa).bind (deviceAddr 0) = some (.st 19 0) ∧
    stalled.stackOwner 19 0 = some 0 ∧ dpaAddress (2 * (20 * 2 ^ 36) - 64) = some (20 * 2 ^ 36 + 2 ^ 36 - 64) := by decide +kernel
/-- The last row of the last bank and SID, and its page. -/
theorem test_memoryCare :
    let p := 4095 * 256 + 15 * 16 + 15
    let id := rowId 63 p
    let s := dev.updDie 0 fun x => { x with failedRows := [id] }
    let u := dev.updDie 0 fun x => { x with failedRows := [id], repairedRows := [id] }
    let r := dev.updDie 0 fun x => { x with pcs := x.pcs.set 63 { x.pcs[63] with retraining := true } }
    queueBytes dev.ledger.queue + 65536 ≤ 4194304 ∧
    p < 1048576 ∧ (s.die 0).failedRows.contains id = true ∧ (s.die 0).repairedRows.contains id = false ∧ (s.die 0).retired.contains p = false ∧
    (s.die 0).sparesUsed 63 p < 2 ∧ (s.die 0).retired.length < 32768 ∧
    (u.die 0).failedRows.find? (fun r => r % 2 ^ 20 = p && ((u.die 0).repairedRows.contains r || 2 ≤ (u.die 0).sparesUsed (r / 2 ^ 20) p)) = some id ∧
    (dev.die 0).scrubFrom ((dev.die 0).retired.length + 2) (dev.die 0).scrubNext = some 0 ∧
    (∀ q : Pc, (dev.die 0).pcs[q].retraining = false) ∧ dev.retrainDue 0 63 .interval = true ∧ (r.die 0).pcs[(63 : Pc)].retraining = true := by decide +kernel
/-- Two stalls that want all units: the floors of both fit, and the second's exactly. -/
theorem test_grants :
    let k := { StallSt.reset with enable := true, floor := 1 }
    let ks : List (StallSt × Nat) := [(k, 10000), (k, 256)]
    ((ks.map fun e => e.1.floor.toNat * 256).foldl (· + ·) 0) ≤ 512 ∧ ks[1]? = some (k, 256) ∧ (windowGrants 512 ks).foldl (· + ·) 0 ≤ 512 := by decide +kernel

def upd (f : DieSt → DieSt) : State := dev.updDie 0 f
theorem test_integrity :
    let g : Gambit := { id := 0, bytes := List.replicate 7 0 ++ [2] ++ List.replicate 8 0 ++ [1, 0] }
    let policy : State := { at_ ctx 0 with ledger := { dev.ledger with integrityPolicy := BitVec.ofNat 128 (2 ^ 59) } }
    (dev.die 0).tapSide.haltedController = false ∧ (dev.flash.slotFor = some 0) ∧ ((upd fun x => { x with capture := some capture0 }).die 0).capture = some capture0 ∧
    ((upd fun x => { x with spareTesting := true }).die 0).spareTesting = true ∧ ((at_ ctx 0).updDie 0 fun x => { x with spareTesting := true }).quiet = false ∧
    (dev.die 0).arrayFree 0 = true ∧ queueBytes dev.ledger.queue + 65536 ≤ 4194304 ∧ ((upd fun x => { x with sparePending := true }).die 0).sparePending = true ∧
    dev.quiet = true ∧ dev.quietEnd = none ∧ ({ dev.flash with gambits := [g] } : Flash).gambits[0]? = some g ∧ gambitVectorsOf g.bytes = 1 ∧
    bit (gambitUnits g) 1 = true ∧ onesOf (1 : BitVec 7) = [0] ∧ (dev.die 0).present.contains 0 = true ∧ (dev.die 0).accs = [] ∧
    (onesOf (1 : BitVec 7)).length < (dev.die 0).activeArrays ∧ (1 : BitVec 7).getLsbD (0 : Arr) = true ∧
    ((upd fun x => { x with quietWork := [(0, .selftest)] }).die 0).quietWork = [(0, .selftest)] ∧ (dev.ctxs.set 0 (some idle))[0] = some idle ∧
    bit policy.ledger.integrityPolicy 59 = true ∧ policy.quiet = false ∧ (policy.die 0).borrowing = none ∧ 1 < (policy.die 0).activeArrays ∧
    ((upd fun x => { x with borrowing := some (0, .margin) }).die 0).borrowing = some (0, .margin) ∧
    ((dev.updLink 0 fun x => { x with state := 2 }).link 0).state = 2 := by decide +kernel
def arrayGambit : Gambit := { id := 0, bytes := List.replicate 7 0 ++ [1] ++ List.replicate 8 0 ++ [1, 0] }
theorem test_arrayGambit : 0 < gambitVectorsOf arrayGambit.bytes ∧ bit (gambitUnits arrayGambit) 0 = true ∧ (dev.die 0).arrayFree 0 = true := by decide +kernel
/-- Margins below, at and above 70 MHz, with the supply at its ceiling and below it. -/
theorem test_margin :
    let swept := fun (m : Nat) => upd fun x => { x with arrays := x.arrays.set 0 { x.arrays[0] with sweep := some m }, vddMv := 800 }
    ((swept 1469).die 0).smallestMargin = some 69 ∧ ((swept 1470).die 0).smallestMargin = some 70 ∧ (swept 1469).calAt 0 (islandAt 0 + 4) 2 ≤ ((swept 1469).die 0).vddMv ∧
    ((upd fun x => { x with capMargin := true }).die 0).capMargin = true := by decide +kernel
theorem test_measurement :
    ((0 : Nat), UnitWork.margin) ∈ ((upd fun x => { x with quietWork := [(0, .margin)] }).die 0).quietWork ∧ dev.dieInService 0 = true ∧
    (dev.die 0).lastTally = none ∧ ({ dev with now := dev.ledger.tallyPeriodUs } : State).ledger.tallyPeriodUs ≤ ({ dev with now := dev.ledger.tallyPeriodUs } : State).now ∧
    ((upd fun x => { x with tallies := [⟨0, 0, 0, 0, []⟩] }).die 0).tallies = [⟨0, 0, 0, 0, []⟩] ∧ hasBw 0 4 = true ∧ hasBw 19 1 = true := by decide +kernel
def request (code : Nat) : BitVec 256 := pack 256 [(0x5751, 16), (1, 4), (code, 4), (0, 8), (4096, 32), (0, 64)]
def pushing (s : State) : State := { s with flash := { s.flash with collectors := s.flash.collectors.set 0 { s.flash.collectors[0] with enable := true, address := 7 } } }
def gram0 : Datagram := { seq := 0, priority := 3, dest := none, bytes := [] }
theorem test_ledger :
    let s := pushing dev
    dev.managed = true ∧ s.pushes = true ∧ [0, 1, 2, 3].findSome? (fun p => [gram0].find? fun g => g.priority = p) = some gram0 ∧
    [1, 2, 3, 4, 5, 6].all (fun k => s.answers (.udp 7) (request k) k && s.answers .mctp (request k) k) = true ∧ fld (request 4) 27 24 = 0 ∧
    SMap.find [(0, capture0)] 0 = some capture0 := by decide +kernel
def image0 : Image := { generation := 3, step := 0, commitCount := 0, skipRun := 0, fwRev := 0, numericsRev := 0, ctl := [], chunks := [], slots := [], body := [] }
def gen0 : Generation := { image := image0, own := true, buddy := true }
theorem test_longRuns :
    let x : CtxSt := { idle with generations := [gen0] }
    x.mkTail = none ∧ x.generations.any (fun g => g.image.generation = 3) = true ∧ (({ x with stopped := some .program } : CtxSt).stopped = some .program) ∧
    x.running = false ∧ x.stopped = none ∧ (x.generations.find? fun g => g.own && g.image.generation = 3) = some gen0 ∧
    gen0.image.fwRev = dev.fwRev ∧ gen0.image.numericsRev = dev.numericsRev := by decide +kernel

/-! ### The spec's worked examples: every value is the spec's -/

/-- 02 Table 2.9: the coarse and fine scales, and the three pieces. -/
theorem test_split : coarse (valF (mkF32 false 14 1)) 7 = 0x3C000000 ∧ bs8Ceil 5303 100 = 0xCB ∧ bs8Piece 0xCB 1 = 0x9B ∧ bs8Piece 0xCB 2 = 0x6B ∧
    (let q := quotient 0xBF9DF3B6 0x3C000000 (bs8Kilo 0xCB); splitPieces 3 q.1 q.2) = [-3, 1, -3] := by decide +kernel
/-- 03, worked example: one rotated block, its scales and its codes. -/
theorem test_shaped :
    let y := rotateRun 16 0xA5C3 0 ([mkF32 false 1 2, 0, 0, 0, 0, mkF32 false 8 1] ++ List.replicate 10 0)
    coarse (valF (mkF32 true 17 2)) 7 = 0x3B9B6DB7 ∧
    codeBlock 1 0 y 0x3B9B6DB7 = { head := 0xF0, codes := [[6, 9, 6, 9, 9, 6, 9, 6, 6, 9, 6, 9, 9, 6, 9, 6]], zp := 0, clamps := 0 } := by decide +kernel
/-- 06 Table 6.13: one parameter through ADAM, and its moments rounded. -/
theorem test_update :
    upKernel 0 { lr := 0x39800000, beta1 := 0x3F600000, omb1 := 0x3E000000, beta2 := 0x3F7E0000, omb2 := 0x3C000000, eps := 0x30800000, wd := 0,
                 gscale := 0x39800000, clip := 0, bias := false, c1 := 0, c2 := 0 } 0x3E806000 0x3C201234 0x38000000 0x31800000 =
      { g := 0x38806000, p := 0x3C1DD1DA, m := 0x38101800, v := 0x31800181 } ∧
    stochBf16 0x0F3A0000 0x38101800 = 0x3811 ∧ stochBf16 0x9C410000 0x31800181 = 0x3180 := by decide +kernel
/-- 08 Table 8.13: one byte by its three addresses. -/
theorem test_address : deviceAddr 12 0x101234567ABC = some (.st 7 0xE90452BC) ∧ deviceAddr 12 0x0080E90452BC = some (.st 7 0xE90452BC) ∧
    deviceAddr 7 0x0000E90452BC = some (.st 7 0xE90452BC) := by decide
/-- 09 Table 9.10: one gather under each policy. -/
theorem test_gather : [0, 1, 2, 3].map (fun p => [-1, 9].map (selectRow p 8)) =
    [[.fault, .fault], [.row 7, .row 1], [.row 0, .row 7], [.zero, .zero]] := by decide
/-- 10, worked message: coordinates, the productive ports, and the packets' offsets and lengths. -/
theorem test_message :
    let s : State := { dev with fabric := { dev.fabric with dxM1 := 15, dyM1 := 15, dzM1 := 7, dwM1 := 7, px := 3, py := 14, pz := 1, pw := 7 } }
    coordsOf s.fabDims 14819 = [3, 14, 1, 7] ∧ coordsOf s.fabDims 5420 = [12, 2, 5, 2] ∧ s.productivePorts [12, 2, 5, 2] = [1, 2, 4, 5, 6] ∧
    cutMessage 6000 6000 = [(0, 2048, 6000, false), (2048, 2048, 6000, false), (4096, 1904, 6000, true)] := by decide +kernel
/-- 11 Table 11.10: the partials on their grid, and the drain's one rounding; 04, worked tile: position 1 in BF16. -/
theorem test_partials : toGrid (({ m := 3, e := 0 } : Dyad).mul (valF 0x3A800000)) (-62) = (13510798882111488, false) ∧
    toGrid (({ m := -15, e := -2 } : Dyad).mul (valF 0x3A400000)) (-62) = (-12666373951979520, false) ∧
    toGrid (({ m := 34, e := -4 } : Dyad).mul (valF 0x2E800000)) (-62) = (570425344, false) ∧
    dyadF32 false { m := 844425500557312, e := -62 } = 0x39400008 ∧
    dyadWide 1 { m := 52953088 * 3, e := -33 } = 0x3C98 := by decide +kernel
/-- 15, worked exchange: LAUNCH's completion, OK and BUSY, but for PHASE. -/
theorem test_record : (cplRecord (cmd 0x33 3 0 0 0 0 0 0) .done).toNat % 2 ^ 64 = 0x0000000100330000 ∧
    (cplRecord (cmd 0x33 3 0 0 0 0 0 0) (.no .busy)).toNat % 2 ^ 64 = 0x0000000100330600 := by decide +kernel
/-- 17 Table 17.11: 26 steps, and the 27th. -/
theorem test_cap : (List.range 26).foldl (fun m _ => (cappingStep 3300 2800 m 0).1) 1400 = 1036 ∧ (cappingStep 2806 2800 1036 0).1 = 1022 ∧
    (cappingStep 2787 2800 1022 0).1 = 1022 := by decide

/-! 04, worked tile: the operand sets of Table 4.10, and the drain of what their product holds. -/

/-- A descriptor of e1 rows of e0 elements in the scratchpad of the issuing die. -/
def tileDesc (plane fmt : Nat) (isSealed : Bool) (base sealAt e0 e1 pitch : Nat) : BitVec 512 :=
  pack 512 [(1, 2), (fmt, 5), (b2n isSealed, 1), (0, 4), (plane, 4), (31, 48), (base, 96), (sealAt, 96), (e0, 24), (e1, 24), (1, 16), (1, 16), (pitch, 40)]
def tileCtx : CtxSt := { ctx with
  ranges := [{ index := 0, kind := 2, die := 0, base := 0, len := 1048576 }]
  descs := [(3, tileDesc 0 0 true 0x8000 0x9000 16 1 64), (4, tileDesc 0 1 true 0xA000 0xB000 16 1 32),
    (16, tileDesc 1 6 true 0x1000 0x1800 32 1 32), (17, tileDesc 2 8 true 0x2000 0x2800 32 1 32), (18, tileDesc 3 6 false 0x3000 0 2 1 32),
    (32, tileDesc 1 6 true 0x4000 0x4800 32 1 32), (33, tileDesc 2 9 true 0x5000 0x5800 16 32 8), (34, tileDesc 3 6 false 0x6000 0 2 1 32)] }
/-- A production of given codes and scales, in one unrotated panel. -/
def given (g : SetShape) (code : Nat) (cs : BitVec 32) (codes : List (Nat × Int)) (scales : Array Nat) : SetOut :=
  { g := g, form := 0, code := code, shift := 0, outliers := false, colsum := false, outs := (0, g.out), reds := (0, g.red)
    codes := [codes.foldl (fun a e => a.set! e.1 (twos 4 e.2)) (Array.replicate (g.red * g.out) 0)]
    scales := [scales], zps := #[], outl := #[], sums := [], poison := []
    headers := [(0, ({ cs32 := cs, code := code, form := 0, block := g.b16, nonfinite := false, outliers := false, colsum := false, rotR := 0, rotO := 0
                       shift := 0, seedR := 0, seedO := 0, baseR := 0, baseO := 0, zeroBlocks := 0, overflow := 0, zpClamp := 0 } : Header).word)] }
def tileA : SetOut := given { b16 := false, red := 32, out := 1 } 0 0x3D800000
  [(0, 3), (1, 9), (2, 5), (15, 7), (16, 4), (20, 0xE)] #[0x70, 0x54]
def tileW : SetOut := given { b16 := true, red := 32, out := 16 } 1 0x3CC00000
  [(0, 5), (16, -7), (32, 2), (240, -3), (256, 3), (320, 6), (1, 1), (17, 4), (33, -6), (241, 7), (257, -2), (321, 1)] #[0x68, 0x80]
def tileWord (out fmt : Nat) : IWord := word 1 1 [(16, 12), (32, 12), (out, 12), (0, 24), (1, 2), (0, 12), (fmt, 2), (0, 24), (1, 10), (0, 22), (32, 24), (0, 20), (1, 16)]
/-- Both sets lie in the scratchpad. -/
def tileReady (w : IWord) : State :=
  let writes : Exec Unit := do
    writeSet 16 tileA (← openDest 16 tileA .active false)
    writeSet 32 tileW (← openDest 32 tileW .active false)
  match writes.run ((at_ tileCtx w).engineStart 0 0 w 0 3 0 Phys.none) with
  | .ok (_, r) => { r.s with ctxs := r.s.ctxs.set 0 (some tileCtx) }
  | .error _ => dev
def next (o : Host.Outcome State Fault Refusal) : State := match o with | .next t => t | _ => dev
def tileRun (out fmt : Nat) : State := next (exec (.mmProduct 0 0 (tileWord out fmt) .none) (tileReady (tileWord out fmt)))
def tileEnd (out fmt : Nat) : State := next (exec (.tileCheckComplete 0 0 none .none) (tileRun out fmt))

set_option maxRecDepth 100000 in
/-- Position 0 and position 1, in FP32; the check of Table 4.10's expected sum has passed. -/
theorem test_drained : (tileEnd 3 0).read (.sp 0 0x8000) 8 = leBytes 4 0xBC900000 ++ leBytes 4 0x3C978000 := by decide +kernel

end Sys2Proof.Tests
end

section
/-! SUPPORT. Proofs: one step of a stream. What a row does once its word issues, what a fault that stops a context leaves, and
what the step marker commits (01 R11 to R21; 06 R144 to R151). -/
namespace Sys2Proof.Machine

/-! ### Issue, and the rows that run as they issue -/

/-- The stream issues under every row condition that its word meets as well. -/
theorem Issues.of_legal {s : State} {d : Die} {c : Ctx} {w : IWord} {cls op : Nat} {ok ok' : CtxSt → Stream → Bool} {x : CtxSt}
    (h : Issues s d c w cls op ok x) (hok : ok' x (x.stream d) = true) : Issues s d c w cls op ok' x :=
  { h with legal := hok }

/-- A stream that stands at a word which no row takes raises the invalid-instruction fault (01 R13). -/
theorem State.tryIssue_of_badHeader {s : State} {d : Die} {c : Ctx} {w : IWord} {cls op : Nat} {ok : CtxSt → Stream → Bool}
    {x : CtxSt} (hctx : s.ctx c = some x) (hlaunched : (x.stream d).launched = true) (hrun : (x.stream d).halted = false)
    (hword : s.wordAt d x (x.stream d).pc = w) (hfree : (x.stream d).blocked = false) (hbreaks : (s.die d).tapSide.breaks = [])
    (hrow : otherRow w cls op = false) (hheader : headerOk x w cls op = false) :
    s.tryIssue d c w cls op ok = .stays (s.invalid d c (x.stream d).pc) := by
  simp [State.tryIssue, hctx, hlaunched, hrun, hword, hfree, hbreaks, hrow, hheader]

/-- A sequencer row whose word issues has its effect and completes (01 R12, R14). -/
theorem sequencer_of_issues {s : State} {d : Die} {c : Ctx} {w : IWord} {cls op : Nat} {ok : CtxSt → Stream → Bool} {x : CtxSt}
    (effect : State → State) (h : Issues s d c w cls op ok x) :
    sequencer d c w cls op ok effect s = .next ((effect (s.afterIssue d c cls x)).sequencerDone d c w (x.stream d).pc) := by
  simp only [sequencer, State.tryIssue_go h]

/-- An engine row whose word issues runs, unless a stack holds it back (08 R185; log 11). -/
theorem engine_of_issues {s : State} {d : Die} {c : Ctx} {w : IWord} {cls op unit inst : Nat} {x : Phys} {body : Exec Unit}
    {ok : CtxSt → Stream → Bool} {y : CtxSt} (h : Issues s d c w cls op ok y) :
    engine d c w cls op unit inst x ok body s =
      .next (if (s.afterIssue d c cls y).holdsBack d c w (y.stream d).pc unit inst body then s
        else (s.afterIssue d c cls y).runEngine d c w (y.stream d).pc unit inst x body) := by
  simp only [engine, State.tryIssue_go h]

/-- What a stream holds after an update of its own. -/
@[simp] theorem State.stream_updStream_same (s : State) (d : Die) (c : Ctx) (f : Stream → Stream) :
    (s.updStream d c f).stream d c = (s.stream d c).map f := by
  simp [State.stream, Function.comp_def]

/-- Measuring a wait that is over changes no context. -/
@[simp] theorem State.ctx_afterHold (s : State) (d : Die) (c k : Ctx) (t : Stream) : (s.afterHold d c t).ctx k = s.ctx k := by
  unfold State.afterHold
  split <;> simp

/-- Measuring a header's wait that is over changes no context. -/
@[simp] theorem State.ctx_afterHeader (s : State) (d : Die) (c k : Ctx) : (s.afterHeader d c).ctx k = s.ctx k := by
  unfold State.afterHeader
  split
  · split
    · exact s.ctx_afterHold d c k _
    · rfl
  · rfl

/-- Settles O1: `step` is its queue's first case. -/
theorem stepTakesFront : Obligations.StepTakesFront := by
  intro s c rest h
  simp only [step, h]

/-- Settles O13: class MK defines operation 0 alone, so the word is no other row's and its header is illegal here. -/
theorem mkOtherOp : Obligations.MkOtherOp := by
  intro d c w s x hctx hlaunched hrun hword hfree hbreaks hcls hop
  have hrow : otherRow w 8 0 = false := by simp [otherRow, hcls, definedOp, hop]
  have hheader : headerOk x w 8 0 = false := by simp [headerOk, hop]
  change execMkStep d c w s = _
  simp only [execMkStep, State.tryIssue_of_badHeader hctx hlaunched hrun hword hfree hbreaks hrow hheader]

/-- Settles O12: the word issues, and with nothing in flight and nothing accumulated MK takes its last branch. -/
theorem mkHolds : Obligations.MkHolds := by
  intro d c w s x h t hempty hacc
  change execMkStep d c w s = _
  simp only [execMkStep, State.tryIssue_go h]
  rw [if_neg (by simp [t, hempty])]
  simp only [t, hacc]

/-- Settles O10: a word that issues meets its row's own test of the semaphore or of what is in flight. -/
theorem syncRows : Obligations.SyncRows := by
  refine ⟨fun d c w s x => ⟨fun h => ?_, fun h => ?_, fun h hsat => ?_, fun h hempty => ?_⟩, fun d c w s x h hunsat => ?_⟩
  · exact sequencer_of_issues _ h
  · exact sequencer_of_issues _ h
  · change execSyWait d c w s = _
    simp only [execSyWait, State.tryIssue_go h, satisfies, hsat, decide_true, if_true]
  · change execSyFence d c w s = _
    simp only [execSyFence, State.tryIssue_go h, hempty, List.isEmpty_nil, if_true]
  · refine ⟨(s.afterHeader d c).updStream d c fun t => t.holdBy (.wait (sySem w) (syVal w)) s.freeCtr,
      (x.stream d).holdBy (.wait (sySem w) (syVal w)) s.freeCtr, ?_, ?_, rfl, rfl⟩
    · change execSyWait d c w s = _
      simp only [execSyWait, State.tryIssue_go h, satisfies, decide_eq_true_eq, if_neg (Nat.not_lt.mpr hunsat)]
    · simp [State.stream, h.context]

/-- Settles O11: the condition of `execSyJump` also passes over the target while the header waits, so a jump that meets the
statement's condition meets it; each CF row is a sequencer row. -/
theorem jumpAndCfRows : Obligations.JumpAndCfRows := by
  refine ⟨?_, fun d c w s x => ⟨sequencer_of_issues _, sequencer_of_issues _, sequencer_of_issues _, sequencer_of_issues _⟩⟩
  intro d c w s x pc sat t h
  change execSyJump d c w s = _
  have hlegal := h.legal
  simp only [execSyJump]
  rw [State.tryIssue_go (h.of_legal ?_)]
  simp only [Bool.and_eq_true, Bool.or_eq_true] at hlegal ⊢
  obtain ⟨hbody, htaken | hin⟩ := hlegal
  · exact ⟨hbody, .inl (.inl htaken)⟩
  · exact ⟨hbody, .inr hin⟩

/-- Settles O14: both rows take the branch that their conditions pick. -/
theorem streamRows : Obligations.StreamRows := by
  refine ⟨fun d c index s t f hs hf hready => ?_, fun d c s t hs hlaunched hrun hout => ?_⟩
  · change execInstructionComplete d c index s = _
    simp only [execInstructionComplete, hs, hf, hready, if_true]
  · change execSyncTimeout d c s = _
    simp [execSyncTimeout, hs, hlaunched, hout, hrun]

/-- Each row that `engineRow` lists runs its body on the engine that it names (01 R12). -/
theorem exec_engineRow {i : Instr} {e : EngineRow} (h : engineRow i = some e) (s : State) :
    exec i s = engine e.d e.c e.w e.cls e.op e.unit 0 e.x e.ok e.body s := by
  unfold engineRow at h
  split at h
  all_goals (cases h <;> rfl)

/-- Settles O16: each row is an engine's row, whose word issues; the stack's answer and the body's end pick the outcome. -/
theorem engineRows : Obligations.EngineRows := by
  refine ⟨fun i e s y r hrow hsound h hfree hrun => ?_, ?_, fun i e s y hrow h hheld => ?_⟩
  · rw [exec_engineRow hrow, engine_of_issues h, hfree, if_neg Bool.false_ne_true, State.runEngine_ok hsound hrun]
  · intro i e s y f hrow hsound h hfree q herr
    rw [exec_engineRow hrow, engine_of_issues h, hfree, if_neg Bool.false_ne_true, State.runEngine_err hsound herr]
  · rw [exec_engineRow hrow, engine_of_issues h, hheld, if_pos rfl]

/-! ### A fault that stops a context -/

/-- A context whose streams have stopped for a cause (01 R13; 11 R275). -/
def CtxSt.streamsStopped (x : CtxSt) (cause : StopCause) : CtxSt :=
  { x with
    streams := x.streams.map fun t => { t with launched := false, hold := none, fenced := false, quietEn := false }
    quietUntil := none
    stopped := some (match x.stopped with | some a => a.worse cause | none => cause) }

/-- A context that has contributed FAULT (06 R149). -/
def CtxSt.faultContributed (x : CtxSt) : CtxSt :=
  { x with
    verdict := x.verdict ||| vFault, mkSent := x.mkSent.map fun e => (e.1, e.2 ||| vFault), roundSent := x.roundSent.map (· ||| vFault) }

/-- Stopping a context's streams changes that context alone. -/
@[simp] theorem State.ctx_stopStreams (s : State) (c e : Ctx) (k : StopCause) :
    (s.stopStreams c k).ctx e = if c = e then (s.ctx c).map (·.streamsStopped k) else s.ctx e := by
  rw [State.stopStreams, State.ctx_updDies, State.ctx_updCtx]
  rfl

/-- Contributing FAULT changes that context alone. -/
@[simp] theorem State.ctx_contributeFault (s : State) (c e : Ctx) :
    (s.contributeFault c).ctx e = if c = e then (s.ctx c).map (·.faultContributed) else s.ctx e := by
  rw [State.contributeFault, State.ctx_updCtx]
  rfl

/-- A fault stops its own context's streams, once FAULT is contributed, and leaves every other context alone. -/
theorem State.ctx_faultStop (s : State) (c e : Ctx) (k : StopCause) :
    (s.faultStop c k).ctx e = if c = e then (s.ctx c).map (·.faultContributed.streamsStopped k) else s.ctx e := by
  rw [State.faultStop, State.ctx_stopStreams]
  by_cases h : c = e <;> simp [h, Function.comp_def]

@[simp] theorem CtxSt.running_streamsStopped (x : CtxSt) (k : StopCause) : (x.streamsStopped k).running = false := by
  simp [CtxSt.running, CtxSt.streamsStopped, Vector.any_eq_false]

/-- A stopped context keeps no collective operation on any die. -/
theorem State.ops_faultStop_ne (s : State) (c : Ctx) (k : StopCause) (d : Die) :
    ∀ o ∈ ((s.faultStop c k).die d).ops, o.ctx ≠ c.val := by
  simp [State.faultStop, State.stopStreams]

/-- A stopped context keeps no parked payload on any die. -/
theorem State.parked_faultStop_ne (s : State) (c : Ctx) (k : StopCause) (d : Die) :
    ∀ q ∈ ((s.faultStop c k).die d).parked, q.ctx ≠ c.val := by
  simp [State.faultStop, State.stopStreams]

/-- Settles O15: FAULT is contributed first, and then the streams stop; both touch one context alone. -/
theorem faultStops : Obligations.FaultStops := by
  intro s c k x hctx
  refine ⟨x.faultContributed.streamsStopped k, ?_, CtxSt.running_streamsStopped _ k, rfl, Option.some_ne_none _, rfl, rfl,
    fun d => ⟨s.ops_faultStop_ne c k d, s.parked_faultStop_ne c k d⟩, fun e he => ?_⟩
  · rw [State.ctx_faultStop, if_pos rfl, hctx]
    rfl
  · rw [State.ctx_faultStop, if_neg he.symm]

/-! ### Operations that leave every context alone

Memory, counters, records and events: what the end of a step does beside its decision. -/

/-- What each turn of a fold leaves alone, the fold leaves alone. -/
theorem foldl_eq_of_step {α β σ : Type} (g : σ → β) {f : σ → α → σ} (hf : ∀ s e, g (f s e) = g s) (l : List α) (s : σ) :
    g (l.foldl f s) = g s := by
  induction l generalizing s with
  | nil => rfl
  | cons e l ih => exact (ih _).trans (hf s e)

@[simp] theorem State.draw_ctxs (s : State) : s.draw.2.ctxs = s.ctxs := rfl

@[simp] theorem State.putByte_ctxs (s : State) (p : Place) (b : Byte) : (s.putByte p b).ctxs = s.ctxs := by
  cases p <;> simp only [State.putByte]
  split <;> rfl

@[simp] theorem State.putBytes_ctxs (s : State) (p : Place) (bs : Bytes) : (s.putBytes p bs).ctxs = s.ctxs :=
  foldl_eq_of_step (fun acc : State × Nat => acc.1.ctxs) (fun acc b => acc.1.putByte_ctxs _ b) bs (s, 0)

@[simp] theorem State.mark_ctxs (s : State) (p : Place) (o : Origin) : (s.mark p o).ctxs = s.ctxs := by
  cases p <;> simp only [State.mark]
  split <;> rfl

@[simp] theorem State.unmark_ctxs (s : State) (p : Place) : (s.unmark p).ctxs = s.ctxs := by
  cases p <;> rfl

@[simp] theorem State.touchUnits_ctxs (s : State) (p : Place) (n : Nat) (poison : Bool) :
    (s.touchUnits p n poison).ctxs = s.ctxs := by
  unfold State.touchUnits
  split
  · rfl
  · refine foldl_eq_of_step State.ctxs (fun st i => ?_) _ s
    extract_lets base q full
    split
    · split
      · exact st.mark_ctxs ..
      · exact st.unmark_ctxs ..
    · split
      · exact st.mark_ctxs ..
      · rfl

@[simp] theorem State.write_ctxs (s : State) (p : Place) (bs : Bytes) (poison : Bool) : (s.write p bs poison).ctxs = s.ctxs := by
  simp [State.write]

@[simp] theorem State.updStall_ctxs (s : State) (d : Die) (c : Nat) (f : StallSt → StallSt) : (s.updStall d c f).ctxs = s.ctxs := by
  unfold State.updStall
  split <;> rfl

@[simp] theorem State.askUnits_ctxs (s : State) (d : Die) (off n c : Nat) : (s.askUnits d off n c).ctxs = s.ctxs :=
  s.updStall_ctxs d c _

@[simp] theorem State.countWrites_ctxs (s : State) (d : Die) (off n : Nat) (c : Option Nat) :
    (s.countWrites d off n c).ctxs = s.ctxs := by
  refine foldl_eq_of_step State.ctxs (fun st o => ?_) _ s
  cases c <;> dsimp only <;> split <;> simp [State.addUnits]

@[simp] theorem State.makeRec_ctxs (s : State) (d : Die) (type tier : Nat) (device : Bool) (step ctx : Option Nat) (body : Bytes) :
    (s.makeRec d type tier device step ctx body).2.ctxs = s.ctxs := rfl

@[simp] theorem State.enqueue_ctxs (s : State) (r : Rec) : (s.enqueue r).ctxs = s.ctxs := by
  unfold State.enqueue
  dsimp only
  split <;> rfl

@[simp] theorem State.postEvent_ctxs (s : State) (m : Mbx) (r : Bytes) : (s.postEvent m r).ctxs = s.ctxs := by
  unfold State.postEvent
  dsimp only
  split
  · rfl
  · split
    · split <;> rfl
    · split
      · rfl
      · split <;> simp only [State.raise_ctxs, State.updMbx_ctxs, State.write_ctxs]

@[simp] theorem State.post_ctxs (s : State) (c : Option Nat) (r : Bytes) : (s.post c r).ctxs = s.ctxs := by
  unfold State.post
  cases c with
  | none => simp
  | some c => dsimp only; split <;> simp

@[simp] theorem State.logWith_ctxs (s : State) (d : Die) (device : Bool) (type tier : Nat) (c : Option Nat) (toHost : Bool)
    (body : Bytes) : (s.logWith d device type tier c toHost body).ctxs = s.ctxs := by
  unfold State.logWith
  dsimp only
  split <;> simp

@[simp] theorem State.log_ctxs (s : State) (d : Die) (type tier : Nat) (c : Option Nat) (toHost : Bool) (body : Bytes) :
    (s.log d type tier c toHost body).ctxs = s.ctxs :=
  s.logWith_ctxs ..

@[simp] theorem State.logDevice_ctxs (s : State) (type tier : Nat) (c : Option Nat) (toHost : Bool) (body : Bytes) :
    (s.logDevice type tier c toHost body).ctxs = s.ctxs :=
  s.logWith_ctxs ..

@[simp] theorem State.event_ctxs (s : State) (d : Die) (type tier : Nat) (c : Option Nat) (body : Bytes) :
    (s.event d type tier c body).ctxs = s.ctxs :=
  s.log_ctxs ..

@[simp] theorem State.hostEvent_ctxs (s : State) (type : Nat) (c : Option Nat) (body : Bytes) :
    (s.hostEvent type c body).ctxs = s.ctxs := by
  simp [State.hostEvent]

@[simp] theorem State.geometryChange_ctxs (s : State) (inst : Nat) : (s.geometryChange inst).ctxs = s.ctxs := by
  simp [State.geometryChange]

@[simp] theorem State.recordFault_ctxs (s : State) (d : Die) (c : Option Nat) (addr : Nat) (f : FaultInfo) :
    (s.recordFault d c addr f).ctxs = s.ctxs :=
  s.log_ctxs ..

@[simp] theorem State.countFault_ctxs (s : State) (d : Die) (c : Option Nat) (f : FaultInfo) :
    (s.countFault d c f).ctxs = s.ctxs := by
  unfold State.countFault
  split <;> simp

@[simp] theorem State.compareRetry_ctxs (s : State) (d : Die) (unit n : Nat) : (s.compareRetry d unit n).ctxs = s.ctxs := by
  unfold State.compareRetry
  split <;> simp

@[simp] theorem State.judgeIntegrity_ctxs (s : State) (d : Die) : (s.judgeIntegrity d).ctxs = s.ctxs := by
  unfold State.judgeIntegrity
  dsimp only
  split <;> simp

@[simp] theorem State.enterSpare_ctxs (s : State) (d : Die) : (s.enterSpare d).ctxs = s.ctxs := by
  simp [State.enterSpare, State.arrayEvent]

@[simp] theorem State.sparesAtMk_ctxs (s : State) : s.sparesAtMk.ctxs = s.ctxs :=
  foldl_eq_of_step State.ctxs (fun st d => by dsimp only; split <;> simp) _ s

@[simp] theorem State.latchTally_ctxs (s : State) (d : Die) (trigger : Nat) (step : Option Nat) :
    (s.latchTally d trigger step).ctxs = s.ctxs := by
  unfold State.latchTally
  dsimp only
  split <;> simp

@[simp] theorem State.latchAtMk_ctxs (s : State) (c : Ctx) (d : Die) (step : Nat) : (s.latchAtMk c d step).ctxs = s.ctxs := by
  unfold State.latchAtMk
  split
  · rfl
  · split
    · split <;> simp
    · simp

@[simp] theorem State.semSet_ctxs (s : State) (d : Die) (c : Ctx) (i : Nat) (v : BitVec 32) : (s.semSet d c i v).ctxs = s.ctxs := by
  unfold State.semSet
  split
  · split <;> rfl
  · rfl

@[simp] theorem State.semAdd_ctxs (s : State) (d : Die) (c : Ctx) (i : Nat) (v : BitVec 32) : (s.semAdd d c i v).ctxs = s.ctxs :=
  s.semSet_ctxs ..

@[simp] theorem State.ringWrite_ctxs (s : State) (p : Place) (bs : Bytes) (c : Option Nat) : (s.ringWrite p bs c).ctxs = s.ctxs := by
  unfold State.ringWrite
  dsimp only
  split <;> simp

@[simp] theorem State.ringPush_ctxs (s : State) (r : Ring) (place : Nat → Option Place) (n : Nat) (bs : Bytes) (c : Option Nat) :
    (s.ringPush r place n bs c).2.2.ctxs = s.ctxs := by
  simp only [State.ringPush]
  cases place r.address with
  | none => rfl
  | some h =>
    simp only
    split
    · simp only [ringWrite_ctxs]
    · cases place (r.address + (64 + n * (r.writeIndex.toNat % 2 ^ r.sizeLog))) <;> simp only [ringWrite_ctxs]

@[simp] theorem State.hostRingPush_ctxs (s : State) (r : Ring) (n : Nat) (bs : Bytes) :
    (s.hostRingPush r n bs).2.2.ctxs = s.ctxs := by
  unfold State.hostRingPush
  split <;> simp

@[simp] theorem State.fallbackRecord_ctxs (s : State) (c : Ctx) (step kind streak sp hbm slots : Nat) :
    (s.fallbackRecord c step kind streak sp hbm slots).ctxs = s.ctxs :=
  s.logDevice_ctxs ..

/-- Contexts that stand as they did read as they did. -/
theorem State.ctx_eq_of_ctxs {s t : State} (h : t.ctxs = s.ctxs) (c : Ctx) : t.ctx c = s.ctx c := by
  simp only [State.ctx, h]

/-! ### The fence of MK -/

/-- A context whose contribution for the step is made (06 R145, R148); `dies` are those of its launched streams. -/
def CtxSt.contributed (x : CtxSt) (dies : List Die) (stats : Bytes) (bad : Bool) (gone : List Nat) : CtxSt :=
  { x.judgeEntries with
    mkSent := some (x.stepNow, verdictBits x.verdict), mkStats := stats, mkBad := bad
    retirementMap := (x.retirementMap ++ gone).eraseDups
    mkQuiet := (dies.filterMap fun d => if (x.stream d).quietEn then some (x.stream d).quietUs else none).max? }

/-- With every launched stream at its fence and no entry half written, MK_FENCE_PASSED contributes and touches no other
context (01 R18; 06 R148). -/
theorem execMkFencePassed_contributes {c : Ctx} {s : State} {x : CtxSt} (hctx : s.ctx c = some x)
    (hrun : (s.die 0).tapSide.haltedController = false) (hsent : x.mkSent = none) (htail : x.mkTail = none)
    (hdies : x.launchedDies ≠ []) (hmk : ∀ d ∈ x.launchedDies, (x.stream d).atMk = true) (hwhole : x.partialEntries = []) :
    ∃ (t : State) (stats : Bytes) (bad : Bool) (gone : List Nat), t.ctxs = s.ctxs ∧
      execMkFencePassed c s = .next (t.updCtx c (·.contributed x.launchedDies stats bad gone)) := by
  have hall : x.launchedDies.all (fun d => (x.stream d).atMk) = true := List.all_eq_true.mpr hmk
  simp only [execMkFencePassed, hctx, hrun, hsent, htail, hall, hwhole, List.isEmpty_eq_false_iff.mpr hdies, Option.isSome_none,
    Bool.or_false, Bool.not_true, Bool.false_eq_true, if_false, List.foldl_nil]
  refine ⟨_, _, _, _, ?_, rfl⟩
  exact foldl_eq_of_step State.ctxs (fun st d => by split <;> simp) _ s

/-- Settles O19: the contribution is an update of the context alone, which leaves its verdict and its commits. -/
theorem mkContributes : Obligations.MkContributes := by
  intro c s x hctx hrun hsent htail hdies hmk hwhole
  obtain ⟨t, stats, bad, gone, ht, hexec⟩ :=
    execMkFencePassed_contributes hctx hrun hsent htail hdies hmk hwhole
  refine ⟨_, x.contributed x.launchedDies stats bad gone, hexec, ?_, rfl, rfl, rfl, fun e he => ?_⟩
  · rw [State.ctx_updCtx, if_pos rfl, State.ctx_eq_of_ctxs ht, hctx]
    rfl
  · rw [State.ctx_updCtx, if_neg he.symm, State.ctx_eq_of_ctxs ht]

/-! ### What the end of MK commits -/

/-- The registers of a context that the end of MK decides on (06 R144 to R151). -/
structure CommitView where
  commitMode : Bool
  commitCount : BitVec 64
  skipRun : Nat
  lastStep : Option Nat
  mkSent : Option (Nat × BitVec 64)
  restorable : Nat
  entries : SMap Entry

def CtxSt.commitView (x : CtxSt) : CommitView :=
  ⟨x.commitMode, x.commitCount, x.skipRun, x.lastStep, x.mkSent, x.restorable, x.entries⟩

def State.commitView (s : State) (c : Ctx) : Option CommitView := (s.ctx c).map (·.commitView)

theorem State.commitView_of_ctxs {s t : State} (h : t.ctxs = s.ctxs) (c : Ctx) : t.commitView c = s.commitView c := by
  rw [State.commitView, State.ctx_eq_of_ctxs h, State.commitView]

theorem State.commitView_eq_some {s : State} {c : Ctx} {v : CommitView} :
    s.commitView c = some v ↔ ∃ x, s.ctx c = some x ∧ x.commitView = v :=
  Option.map_eq_some_iff

/-- An update of a context that maps its registers maps what they read. -/
theorem State.commitView_updCtx_map {g : CommitView → CommitView} {f : CtxSt → CtxSt} (hf : ∀ x, (f x).commitView = g x.commitView)
    (s : State) (c : Ctx) : (s.updCtx c f).commitView c = (s.commitView c).map g := by
  simp only [State.commitView, State.ctx_updCtx, if_true, Option.map_map]
  exact congrArg (Option.map · (s.ctx c)) (funext hf)

/-- An update of other registers of some context leaves these. -/
theorem State.commitView_updCtx {f : CtxSt → CtxSt} (hf : ∀ x, (f x).commitView = x.commitView) (s : State) (e c : Ctx) :
    (s.updCtx e f).commitView c = s.commitView c := by
  by_cases h : e = c
  · subst h
    rw [State.commitView_updCtx_map (g := id) hf, Option.map_id, id]
  · simp only [State.commitView, State.ctx_updCtx, if_neg h]

/-- The same, after operations that leave every context alone. -/
theorem State.commitView_updCtx_of_ctxs {s t : State} {f : CtxSt → CtxSt} (ht : t.ctxs = s.ctxs)
    (hf : ∀ x, (f x).commitView = x.commitView) (e c : Ctx) : (t.updCtx e f).commitView c = s.commitView c :=
  (State.commitView_updCtx hf t e c).trans (State.commitView_of_ctxs ht c)

@[simp] theorem State.commitView_updStream (s : State) (d : Die) (e c : Ctx) (f : Stream → Stream) :
    (s.updStream d e f).commitView c = s.commitView c :=
  State.commitView_updCtx (f := (·.updStream d f)) (fun _ => rfl) s e c

@[simp] theorem State.commitView_orVerdict (s : State) (e c : Ctx) (v : BitVec 64) :
    (s.orVerdict e v).commitView c = s.commitView c :=
  State.commitView_updCtx (by intro; rfl) s e c

@[simp] theorem State.commitView_stopStreams (s : State) (e c : Ctx) (k : StopCause) :
    (s.stopStreams e k).commitView c = s.commitView c := by
  rw [State.stopStreams, State.commitView_of_ctxs (State.updDies_ctxs _ _)]
  exact State.commitView_updCtx (by intro; rfl) s e c

@[simp] theorem State.commitView_computeFault (s : State) (d : Die) (e c : Ctx) (addr : Nat) (f : FaultInfo) :
    (s.computeFault d e addr f).commitView c = s.commitView c := by
  rw [State.computeFault, State.commitView_orVerdict]
  exact State.commitView_of_ctxs (by simp) c

@[simp] theorem State.commitView_writeSample (s : State) (d : Die) (e c : Ctx) (f : InFlight) :
    (s.writeSample d e f).commitView c = s.commitView c := by
  unfold State.writeSample
  split
  · rfl
  · dsimp only
    split
    · exact State.commitView_of_ctxs (by simp) c
    · split
      · exact State.commitView_updCtx_of_ctxs (by simp) (by intro; rfl) e c
      · rw [State.commitView_of_ctxs (State.count_ctxs ..)]
        exact State.commitView_updCtx_of_ctxs (by simp) (by intro; rfl) e c

@[simp] theorem State.commitView_complete (s : State) (d : Die) (e c : Ctx) (f : InFlight) :
    (s.complete d e f).commitView c = s.commitView c := by
  unfold State.complete
  extract_lets s1 s2 s3 s4 s5
  have h1 : s1.ctxs = s.ctxs := by unfold s1; split <;> simp
  have h2 : s2.ctxs = s1.ctxs := by unfold s2; split <;> simp
  have h4 : s4.ctxs = s3.ctxs := by unfold s4; split <;> simp
  have h5 : s5.ctxs = s4.ctxs := by unfold s5; split <;> simp
  have hall : s5.ctxs = s.ctxs := h5.trans (h4.trans ((State.measure_ctxs ..).trans (h2.trans h1)))
  split
  · rw [State.commitView_writeSample, State.commitView_of_ctxs hall]
  · exact State.commitView_of_ctxs hall c

@[simp] theorem State.commitView_mkDone (s : State) (e c : Ctx) (d : Die) : (s.mkDone e d).commitView c = s.commitView c := by
  unfold State.mkDone
  split
  · rfl
  · split
    · rfl
    · rw [foldl_eq_of_step (State.commitView · c) (fun st f => st.commitView_complete d e c f),
        State.commitView_of_ctxs (State.measure_ctxs ..), State.commitView_of_ctxs (State.count_ctxs ..), State.commitView_updStream]

/-- Writing the step record commits nothing. -/
@[simp] theorem State.commitView_writeStepRecord (s : State) (e c : Ctx) (r : Bytes) :
    (s.writeStepRecord e r).commitView c = s.commitView c := by
  unfold State.writeStepRecord
  dsimp only
  split
  · exact State.commitView_of_ctxs (by simp) c
  · split
    · exact State.commitView_updCtx_of_ctxs (by simp) (by intro; rfl) e c
    · rw [State.commitView_of_ctxs (State.hostEvent_ctxs ..)]
      exact State.commitView_updCtx_of_ctxs (by simp) (by intro; rfl) e c

/-- Taking a generation commits nothing. -/
@[simp] theorem State.commitView_takeGeneration (s : State) (e c : Ctx) (step : Nat) :
    (s.takeGeneration e step).2.commitView c = s.commitView c := by
  unfold State.takeGeneration
  split
  · rfl
  · split
    · rfl
    · split
      · rfl
      · split
        · exact State.commitView_of_ctxs (State.hostEvent_ctxs ..) c
        · exact State.commitView_updCtx (by intro; rfl) s e c

/-- The registers as the end of a step leaves them (06 R144, R151). -/
def CommitView.ended (v : CommitView) (step : Nat) : CommitView :=
  { v with
    lastStep := some step, mkSent := none
    entries := v.entries.map fun e => (e.1, { e.2 with written := [], lastMap := e.2.written, lastStep := step, complete := false }) }

theorem State.commitView_endStep (s : State) (c : Ctx) (step : Nat) :
    (s.endStep c step).commitView c = (s.commitView c).map (·.ended step) := by
  unfold State.endStep
  extract_lets dies s1 s2
  rw [State.commitView_of_ctxs (State.sparesAtMk_ctxs _), foldl_eq_of_step (State.commitView · c) fun st d => st.commitView_mkDone c c d,
    State.commitView_of_ctxs (State.updDies_ctxs _ _)]
  exact State.commitView_updCtx_map (by intro; rfl) s c

/-- The fall-back controller's decision at MK commits nothing (07 R168). -/
@[simp] theorem State.commitView_fallbackAtMk (s : State) (c : Ctx) (step : Nat) (isClean : Bool) (bs : Bytes) (gone : List Nat) :
    (s.fallbackAtMk c step isClean bs gone).commitView c = s.commitView c := by
  unfold State.fallbackAtMk
  split
  · rfl
  next x hx =>
    extract_lets x1 base x2 p gone' x3 s1 gone2 marked q slots cancelled s2 sp hbm one s3 s4 s5 s6
    have h1 : s1.commitView c = s.commitView c := by
      have h2 : x2.commitView = x.commitView := by
        unfold x2
        split <;> rfl
      simp only [State.commitView, s1, State.ctx_setCtx, if_true, hx]
      exact congrArg some h2
    split
    · exact (State.commitView_updCtx (by intro; rfl) s1 c c).trans h1
    · have h2 : s2.commitView c = s1.commitView c := State.commitView_updCtx (by intro; rfl) s1 c c
      have hone : ∀ st kind ks, (one st kind ks).ctxs = st.ctxs := fun st kind ks => by
        unfold one
        split <;> simp
      have h6 : s6.ctxs = s2.ctxs :=
        (foldl_eq_of_step State.ctxs (fun st e => st.fallbackRecord_ctxs ..) _ s5).trans
          ((hone ..).trans ((hone ..).trans (hone ..)))
      have h6 : s6.commitView c = s.commitView c := (State.commitView_of_ctxs h6 c).trans (h2.trans h1)
      split
      · exact (State.commitView_of_ctxs (State.fallbackRecord_ctxs ..) c).trans h6
      · exact h6

/-- The registers as the outcome of MK leaves them, before the step ends (06 R144, R150). -/
def CommitView.decided (v : CommitView) (o : MkOutcome) (restorable : Nat) : CommitView :=
  { v with
    restorable := restorable
    commitCount := if o = .committed then v.commitCount + 1 else v.commitCount
    skipRun := if o = .committed then 0 else min (v.skipRun + 1) 65535
    entries := if o = .committed && !v.commitMode
      then v.entries.map fun e => (e.1, if e.2.complete then { e.2 with area := !e.2.area } else e.2) else v.entries }

/-- The outcome of MK is a commit exactly where the verdict is clean (06 R148). -/
theorem mkOutcome_eq_committed (v : BitVec 64) (inPlace : Bool) (skipLimit skipRun : Nat) :
    mkOutcome v inPlace skipLimit skipRun = .committed ↔ clean v = true := by
  unfold mkOutcome
  cases hv : clean v with
  | true => exact ⟨fun _ => rfl, fun _ => if_pos rfl⟩
  | false =>
    refine ⟨fun h => ?_, fun h => absurd h Bool.false_ne_true⟩
    rw [if_neg Bool.false_ne_true] at h
    split at h
    · exact nomatch h
    · split at h
      · exact nomatch h
      · split at h <;> exact nomatch h

/-- The generation that a commit may take (14 R349). -/
def State.generationAt (s : State) (c : Ctx) (step : Nat) (o : MkOutcome) : Bool × State :=
  if o = .committed then s.takeGeneration c step else (false, s)

theorem State.commitView_generationAt (s : State) (c : Ctx) (step : Nat) (o : MkOutcome) :
    (s.generationAt c step o).2.commitView c = s.commitView c := by
  unfold State.generationAt
  split <;> simp

/-- A group reduction that agrees on step, policy and parts decides the outcome by the combined verdict and ends the step: the
registers of the commit are those of the outcome (06 R144 to R151). In place, a commit waits for its generation's copies, and is
not spoken of here (14 R351). -/
theorem execMkReductionReceived_decides {c : Ctx} {n restorable : Nat} {verdict own : BitVec 64} {stats : Bytes}
    {check : FallbackCheck} {gone : List Nat} {s : State} {x : CtxSt} (hctx : s.ctx c = some x)
    (hrun : (s.die 0).tapSide.haltedController = false) (hsent : x.mkSent = some (n, own)) (htail : x.mkTail = none)
    (hdigests : ∀ g ∈ check.digests, g = x.policyDigest) (hbad : x.mkBad = false)
    (hpaired : clean (verdictBits (verdict ||| own)) = true → x.commitMode = false ∧ x.copying = false) :
    ∃ t, exec (.mkReductionReceived c n verdict stats check true restorable gone) s = .next t ∧
      t.commitView c = some ((x.commitView.decided
        (mkOutcome (verdictBits (verdict ||| own)) x.commitMode x.skipLimit x.skipRun) restorable).ended n) := by
  change ∃ t, execMkReductionReceived c n verdict stats check true restorable gone s = _ ∧ _
  unfold execMkReductionReceived
  simp -zeta only [hctx, hsent, htail]
  extract_lets bad v d order s1 armed s2 s3 s4 o s5 y r halts cause s6
  have hb : bad = false := by simpa [bad, hbad] using hdigests
  have hv : v = verdictBits (verdict ||| own) := by simp [v, hb]
  have hfree : ((s.die 0).tapSide.haltedController || (clean v && !x.commitMode && x.copying)) = false := by
    cases hc : clean v
    · simp [hrun]
    · simp [hrun, hpaired (hv ▸ hc)]
  have h2 : s2.commitView c = some x.commitView := by
    rw [State.commitView_of_ctxs (State.compareRetry_ctxs ..), show s1 = s by simp [s1, hb], State.commitView, hctx]
    rfl
  have h3 : s3.commitView c = s2.commitView c := by
    unfold s3
    split <;> simp
  have h4 : s4.commitView c = s3.commitView c := by
    unfold s4
    split <;> simp
  have h5 : s5.commitView c = some (x.commitView.decided o restorable) := by
    rw [State.commitView_updCtx_map (g := (·.decided o restorable)) (by intro; rfl), h4, h3, h2]
    rfl
  have h6 : s6.commitView c = some ((x.commitView.decided o restorable).ended n) := by
    rw [State.commitView_endStep, State.commitView_writeStepRecord]
    exact congrArg (Option.map (·.ended n)) ((s5.commitView_generationAt c n o).trans h5)
  have htaken : ¬ ((s5.generationAt c n o).1 && x.commitMode) = true := by
    by_cases ho : o = .committed
    · simp [(hpaired (hv ▸ (mkOutcome_eq_committed ..).mp ho)).1]
    · simp [State.generationAt, ho]
  unfold State.generationAt at htaken
  rw [hfree, if_neg Bool.false_ne_true, ← hv, if_neg htaken]
  clear_value cause
  cases cause with
  | none => exact ⟨s6, rfl, h6⟩
  | some k =>
    refine ⟨_, rfl, ?_⟩
    rw [State.commitView_updCtx (by intro; rfl), State.commitView_stopStreams, h6]

/-- Settles O20: the outcome is a commit exactly where the verdict is clean, and the step's end then clears the maps. -/
theorem mkOutcomes : Obligations.MkOutcomes := by
  refine ⟨fun c n restorable verdict own stats check gone s x hctx hrun hsent htail hdigests hbad hmode hcopying hclean => ?_,
    fun c n restorable verdict own stats check gone s x hctx hrun hsent htail hdigests hbad hclean => ?_⟩
  · obtain ⟨t, hexec, hview⟩ := execMkReductionReceived_decides (stats := stats) (restorable := restorable) (gone := gone)
      hctx hrun hsent htail hdigests hbad fun _ => ⟨hmode, hcopying⟩
    rw [(mkOutcome_eq_committed ..).mpr hclean] at hview
    obtain ⟨y, hy, hview⟩ := State.commitView_eq_some.mp hview
    refine ⟨t, y, hexec, hy, congrArg CommitView.commitCount hview, congrArg CommitView.skipRun hview,
      congrArg CommitView.lastStep hview, congrArg CommitView.mkSent hview, congrArg CommitView.restorable hview, ?_⟩
    rw [show y.entries = _ from congrArg CommitView.entries hview]
    simp only [CommitView.ended, CommitView.decided, CtxSt.commitView, hmode, decide_true, Bool.not_false, Bool.and_self, if_true,
      List.map_map]
    refine List.map_congr_left fun e _ => ?_
    by_cases he : e.2.complete = true <;> simp [he]
  · obtain ⟨t, hexec, hview⟩ := execMkReductionReceived_decides (stats := stats) (restorable := restorable) (gone := gone)
      hctx hrun hsent htail hdigests hbad fun hc => absurd (hclean.symm.trans hc) Bool.false_ne_true
    have ho : mkOutcome (verdictBits (verdict ||| own)) x.commitMode x.skipLimit x.skipRun ≠ .committed := fun ho =>
      Bool.false_ne_true (hclean.symm.trans ((mkOutcome_eq_committed ..).mp ho))
    obtain ⟨y, hy, hview⟩ := State.commitView_eq_some.mp hview
    simp only [CommitView.decided, ho, if_false, decide_false, Bool.false_and, Bool.false_eq_true] at hview
    exact ⟨t, y, hexec, hy, congrArg CommitView.commitCount hview, congrArg CommitView.skipRun hview,
      congrArg CommitView.lastStep hview, congrArg CommitView.entries hview⟩

end Sys2Proof.Machine
end

section
/-! SUPPORT. Proofs: the number formats. What the N4F table lists, as the rule's sign, exponent and mantissa give it (02 R26). -/
namespace Sys2Proof.Machine

/-- Twice the magnitude that an exponent and a mantissa give: without a hidden one at exponent 0 and with it above (02 R26). -/
def n4fMagTwice (e m : Nat) : Nat := if e = 0 then m else 2 ^ (e - 1) * (2 + m)

/-- Table 2.2 lists, for each three-bit magnitude code, what its exponent and mantissa give. -/
theorem n4fTable_eq_magTwice :
    ∀ m < 8, ([0, 1, 2, 3, 4, 6, 8, 12] : List Int).getD m 0 = (n4fMagTwice (m / 2 % 4) (m % 2) : Int) := by
  decide

/-- Only the code with the sign alone is NaN. -/
theorem n4fTwice_eq_none_iff (c : Nat) : n4fTwice c = none ↔ c % 16 = 8 := by
  simp [n4fTwice]

/-- A code with sign 0 has its magnitude as its value. -/
theorem n4fTwice_of_lt {c : Nat} (h : c < 8) : n4fTwice c = some (n4fMagTwice (c / 2 % 4) (c % 2) : Int) := by
  have hnum : c % 16 ≠ 8 := by omega
  have hpos : c % 16 < 8 := by omega
  rw [← n4fTable_eq_magTwice c h]
  simp only [n4fTwice, if_neg hnum, if_pos hpos, Nat.mod_eq_of_lt h]

/-- A code with sign 1 other than NaN has its magnitude negated as its value. -/
theorem n4fTwice_of_gt {c : Nat} (hneg : 8 < c) (hc : c < 16) :
    n4fTwice c = some (-(n4fMagTwice (c / 2 % 4) (c % 2) : Int)) := by
  have hnum : c % 16 ≠ 8 := by omega
  have hsign : ¬ c % 16 < 8 := by omega
  have hexp : c / 2 % 4 = c % 8 / 2 % 4 := by omega
  have hman : c % 2 = c % 8 % 2 := by omega
  rw [hexp, hman, ← n4fTable_eq_magTwice (c % 8) (Nat.mod_lt c (by decide))]
  simp only [n4fTwice, if_neg hnum, if_neg hsign]

/-- Settles O59: the sign bit picks the half of the table, whose entry is what the exponent and the mantissa give. -/
theorem n4fDecode : Obligations.N4fDecode := by
  intro c hc sgn
  refine ⟨?_, fun hnan => ?_⟩
  · rw [n4fTwice_eq_none_iff, Nat.mod_eq_of_lt hc]
  · have hval : n4fTwice c = some (sgn * (n4fMagTwice (c / 2 % 4) (c % 2) : Int)) := by
      obtain hpos | hneg : c < 8 ∨ 8 < c := by omega
      · have hsgn : sgn = 1 := if_pos (Nat.div_eq_of_lt hpos)
        rw [n4fTwice_of_lt hpos, hsgn, Int.one_mul]
      · have hsgn : sgn = -1 := if_neg (by omega)
        rw [n4fTwice_of_gt hneg hc, hsgn, Int.neg_mul, Int.one_mul]
    rw [hval, n4fMagTwice]
    split <;> rfl

end Sys2Proof.Machine
end

section
/-! SUPPORT. Proofs: the matrix rows. When they do not wait for the half that they name, and how a checked tile ends (04 R82 to
R98). -/
namespace Sys2Proof.Machine

/-- The stream of a context on a die is the context's own. -/
theorem State.stream_of_ctx {s : State} {c : Ctx} {y : CtxSt} (h : s.ctx c = some y) (d : Die) :
    s.stream d c = some (y.stream d) := by
  rw [State.stream, h, Option.map_some]

/-- A duplicated unit's compare that fails once at most is cleared by its retry (12 R293). -/
theorem physHit_of_retried {x : Phys} {unit : Nat} (hdup : residueChecked unit x = false) (hmismatch : x.mismatch ≤ 1)
    (hissue : x.issue ≤ 1) : physHit x unit = none := by
  have hword : ¬ 2 ≤ x.issue := by omega
  have hresult : ¬ 2 ≤ x.mismatch := by omega
  simp [physHit, hdup, hword, hresult]

/-- The half that a matrix word names is not open for receipt, and no tile is still to be checked there that the word continues
or that is held (04 R98; 11 R283). -/
def DieSt.halfFree (x : DieSt) (c : Ctx) (w : IWord) : Prop :=
  x.receiptOn c (mmArray w) (x.physOf (mmArray w)) (mmBank w) = false ∧ x.checkingOn c (mmArray w) (mmBank w) = false ∧
    x.holdSoon (x.physOf (mmArray w)) (mmBank w) = false

/-- An SH.QUANT that follows no requantising product runs as it issues (04 R90). -/
theorem execShQuant_unpaired {s : State} {d : Die} {c : Ctx} {w : IWord} {x : Phys} {y : CtxSt}
    (h : Issues s d c w 2 1 (fun y _ => quantOk y w) y) (hpair : (y.stream d).pair = none) :
    execShQuant d c w x s = .next ((s.afterIssue d c 2 y).runEngine d c w (y.stream d).pc 3 0 x (quantBody w none)) := by
  have hmm : (s.stream d c).bind (·.pair) = none := by rw [State.stream_of_ctx h.context, Option.bind_some, hpair]
  simp only [execShQuant, hmm, Bool.and_true, State.tryIssue_go h]

/-- An MM.PRODUCT on a free half runs as it issues; a mismatch of the array that the retry clears
reaches the engine as it is (12 R293). -/
theorem execMmProduct_of_halfFree {s : State} {d : Die} {c : Ctx} {w : IWord} {x : Phys} {y : CtxSt}
    (h : Issues s d c w 1 1 (productMayRun s d w) y) (hfree : (s.die d).halfFree c w) (hx : soundFor x 1) :
    execMmProduct d c w x s =
      .next (((s.afterIssue d c 1 y).runEngine d c w (y.stream d).pc 1 (mmArray w) x (productBody w x)).openPair d c w) := by
  obtain ⟨hreceipt, hchecking, hsoon⟩ := hfree
  have hmismatch : x.mismatch ≤ 1 := hx.mismatch
  have hphys : { x with mismatch := if x.mismatch = 1 then 1 else 0 } = x := by
    have hone : (if x.mismatch = 1 then 1 else 0) = x.mismatch := by split <;> omega
    rw [hone]
  simp only [execMmProduct, State.tryIssue_go h, hreceipt, hchecking, hsoon, hphys, Bool.false_and, Bool.or_false,
    Bool.false_eq_true, if_false]

/-- A row that names a held accumulation on a free half runs its body as it issues (04 R96 to R98). -/
theorem heldEngine_of_halfFree {s : State} {d : Die} {c : Ctx} {w : IWord} {op : Nat} {x : Phys} {ok : CtxSt → Stream → Bool}
    {body : Exec Unit} {y : CtxSt} {r : Run} (h : Issues s d c w 1 op ok y) (hfree : (s.die d).halfFree c w) (hx : soundFor x 2)
    (hrun : body.run ((s.afterIssue d c 1 y).engineStart d c w (y.stream d).pc 2
      (((s.die d).physOf (mmArray w)).getD (mmArray w)) x) = .ok ((), r)) :
    heldEngine d c w op x ok body s = .next r.finish := by
  obtain ⟨hreceipt, hchecking, hsoon⟩ := hfree
  simp only [heldEngine, State.tryIssue_go h, hreceipt, hchecking, hsoon, Bool.or_false, Bool.false_eq_true, if_false,
    State.runEngine_ok hx hrun]

/-- A tile whose check no unit fails for good is checked and then ends as its word says, with nothing raised between (04 R87). -/
theorem execTileCheckComplete_of_retried {d : Die} {a : Arr} {x : Phys} {s : State} {k hit : Accum}
    {upset : Option (UpsetAt × Nat × Nat × Int)} {dup : Option (Nat × Nat × Int × Int)} (hmismatch : x.mismatch ≤ 1)
    (hissue : x.issue ≤ 1) (hk : (s.die d).accs.find? (fun k => k.phase = .checking && k.phys = some a.val) = some k)
    (hupset : addUpset k upset = (hit, dup)) :
    execTileCheckComplete d a upset x s = .next
      ((((s.updDie d fun y => ({ y with accs := y.accs.erase k }).storeBank hit).applyPhys x).compareRetry d 2 x.mismatch).runTile d
        (ctxOf k.ctx) 1 k.endAddr none 2 (do
          let k ← checkTile hit dup
          if k.poison.any id then setTainted
          endTile k)) := by
  simp only [execTileCheckComplete, hk, hupset, physHit_of_retried (unit := 2) rfl hmismatch hissue, Option.isSome_none,
    Bool.false_eq_true, if_false]

/-- Settles O17: SH.QUANT without a pair and MM.PRODUCT on a free half run their bodies on their engines, the rows of a held
accumulation are one row of three bodies, and a tile's check meets no unit that fails for good. -/
theorem matrixRows : Obligations.MatrixRows := by
  refine ⟨fun d c w x s y r => ⟨fun h hpair hx hrun => ?_, fun h hfree hx hrun => ?_, heldEngine_of_halfFree,
    heldEngine_of_halfFree, heldEngine_of_halfFree⟩, fun d a x s k hit upset dup => execTileCheckComplete_of_retried⟩
  · change execShQuant d c w x s = _
    rw [execShQuant_unpaired h hpair, State.runEngine_ok hx hrun]
  · change execMmProduct d c w x s = _
    rw [execMmProduct_of_halfFree h hfree hx, State.runEngine_ok hx hrun]

end Sys2Proof.Machine
end

section
/-! SUPPORT. Proofs: the round verdict and Suphor's registrations. What UP.VERDICT leaves once it issues, and that a record which
passes its checks is registered as it stands (06 R146, Table 6.2; 11 R269; 15 R379, R380). -/
namespace Sys2Proof.Machine

/-! ### Round verdicts -/

/-- UP.VERDICT issues with nothing of its stream in flight: it contributes SKIP where its word asks, and waits for its round
(06 R146). -/
theorem execUpVerdict_of_fenced {s : State} {d : Die} {c : Ctx} {w : IWord} {x : CtxSt}
    (h : Issues s d c w 4 3 (fun _ _ => upVerdictOk w) x)
    (hempty : (((s.afterIssue d c 4 x).stream d c).getD Stream.reset).inflight = []) :
    let t := if upSkip w then (s.afterIssue d c 4 x).orVerdict c vSkip else s.afterIssue d c 4 x
    execUpVerdict d c w s = .next ((t.updStream d c fun u => { u with
      hold := some (.verdict (upRound w))
      inflight := [{ inFlightOf t d c w (x.stream d).pc 0 with verdictWait := true }] }).roundContribute c) := by
  simp only [execUpVerdict, State.tryIssue_go h, hempty, List.isEmpty_nil, Bool.not_true, Bool.false_eq_true, if_false]

/-- A round verdict that every launched stream waits for in order is recorded and completes them all (06 R146 to R148). -/
theorem execRoundVerdictReceived_of_awaited {s : State} {c : Ctx} {x : CtxSt} {round : Nat} {verdict own : BitVec 64}
    (hctx : s.ctx c = some x) (hsent : x.roundSent = some own)
    (hheld : ∀ e ∈ x.launchedDies, (x.stream e).roundHeld = some round ∧ (x.stream e).rounds = round) :
    let v := verdictBits (verdict ||| own)
    execRoundVerdictReceived c round verdict true s = .next (x.launchedDies.foldl (fun st e => st.verdictDone c e)
      ((s.updCtx c fun y => { y with roundSent := none, verdict := y.verdict ||| v }).updCtx c fun y => { y with
        roundVerdicts := SMap.insert y.roundVerdicts round v, inPlaceStopped := y.inPlaceStopped || !clean v })) := by
  have hall : x.launchedDies.all (fun e => decide ((x.stream e).roundHeld = some round) && decide ((x.stream e).rounds = round)) = true :=
    List.all_eq_true.mpr fun e he => by simpa using hheld e he
  simp only [execRoundVerdictReceived, hctx, hsent, hall, Bool.and_true, Bool.not_true, Bool.false_eq_true, if_false]

/-- Settles O18: the stream's fence is passed, and every launched stream waits for the round that the verdict names. -/
theorem verdictRows : Obligations.VerdictRows :=
  fun _ _ _ _ _ => ⟨execUpVerdict_of_fenced, fun _ _ _ => execRoundVerdictReceived_of_awaited⟩

/-! ### Registrations -/

/-- A command that runs ends with the reply and the state that its row's body answers (15 R371). -/
theorem suphor_of_reply {s t : State} {m : Mbx} {op : Nat} {w : CmdWord} {also : CmdWord → Bool} {r : Reply}
    {body : CmdWord → State → Reply × State} (h : Runs s m op w) (halso : also w = true) (hbody : body w s = (r, t)) :
    suphor m op also body s = .next (t.finishCommand m w r) := by
  rw [suphor_runs h halso, hbody]

/-- An entry whose record Table 6.2 allows, and whose slices fit its die, is registered with area 0 and nothing written. -/
theorem entryRegisterReply_done {s : State} {m : Mbx} {w : CmdWord} {x : CtxSt} {bs : Bytes}
    (hctx : s.ctx (cmdTarget m w) = some x) (hindex : cmdArg w 0 ≤ 1023) (hdie : cmdArg w 1 < 20) (hstopped : x.running = false)
    (hbuf : Buffer w 32) (hlen : bs.length = 32) (hreserved : entryReserved (wordOf 256 bs) = true)
    (hfields : entryFields (wordOf 256 bs) = true)
    (hroom : s.slicesOn (cmdArg w 1) (cmdTarget m w, cmdArg w 1 * 1024 + cmdArg w 0) + fld (wordOf 256 bs) 35 16 ≤ 1048576) :
    entryRegisterReply m (some bs) w s = (.done, s.updCtx (cmdTarget m w) fun y => { y with
      entries := SMap.insert y.entries (cmdArg w 1 * 1024 + cmdArg w 0) {
        word := setBit (wordOf 256 bs) 2 false, area := false, written := [], lastMap := [], lastStep := 0, codeBytes := 0
        complete := false } }) := by
  rw [entryRegisterReply, withCtx_some hctx, if_neg (Nat.not_lt.mpr hindex), if_neg (Nat.not_le.mpr hdie), hstopped,
    if_neg Bool.false_ne_true, dataIn_buffer hbuf hlen]
  simp only [hreserved, hfields, Nat.not_lt.mpr hroom, Bool.not_true, Bool.false_eq_true, if_false]

/-- The device with a group registered: its record and its multicast setting listed, and its operations counted from 0 again on
every die (11 R269). -/
def State.withGroup (s : State) (g : BitVec 256) : State :=
  ({ s with fabric := { s.fabric with
      groups := SMap.insert s.fabric.groups (fld g 7 0) g
      multicast := SMap.put 0 s.fabric.multicast (fld g 7 0) (BitVec.ofNat 49 (fld g 63 16 + 2 ^ 48)) } } : State).updDies
    fun _ y => { y with groupSeq := SMap.erase y.groupSeq (fld g 7 0) }

@[simp] theorem State.group_withGroup_same (s : State) (g : BitVec 256) : (s.withGroup g).group (fld g 7 0) = some g := by
  simp [State.group, State.withGroup]

@[simp] theorem State.groupSeq_withGroup (s : State) (g : BitVec 256) (d : Die) :
    ((s.withGroup g).die d).groupSeq = SMap.erase (s.die d).groupSeq (fld g 7 0) := by
  rw [State.withGroup, State.die_updDies]
  simp only [State.die]

/-- A group record that is sound and whose handle is free is registered. -/
theorem groupRegisterReply_done {s : State} {m : Mbx} {w : CmdWord} {x : CtxSt} {bs : Bytes}
    (hctx : s.ctx (cmdTarget m w) = some x) (hbuf : Buffer w 32) (hlen : bs.length = 32)
    (hreserved : groupReserved (wordOf 256 bs) = true) (hok : s.groupOk (cmdTarget m w) (wordOf 256 bs) = true)
    (hfree : s.group (fld (wordOf 256 bs) 7 0) = none) :
    groupRegisterReply m (some bs) w s = (.done, s.withGroup (wordOf 256 bs)) := by
  rw [groupRegisterReply, withCtx_some hctx, dataIn_buffer hbuf hlen]
  simp only [hreserved, hok, hfree, Option.isSome_none, Bool.not_true, Bool.false_eq_true, if_false]
  rfl

/-- What holds of no die of the device by number holds of none in the list. -/
theorem State.any_dies_eq_false {s : State} {p : DieSt → Bool} (h : ∀ d : Die, p (s.die d) = false) :
    s.dies.toList.any p = false := by
  refine List.any_eq_false.mpr fun y hy => ?_
  obtain ⟨i, hi, rfl⟩ := Vector.mem_iff_getElem.mp (Vector.mem_toList_iff.mp hy)
  simpa [State.die] using h ⟨i, hi⟩

/-- A context's group that no running step and no open operation uses is forgotten (11 R269). -/
theorem groupReleaseReply_done {s : State} {m : Mbx} {w : CmdWord} {x : CtxSt} {g : BitVec 256}
    (hctx : s.ctx (cmdTarget m w) = some x) (hgroup : s.group (cmdArg w 0) = some g)
    (howner : fld g 10 8 = (cmdTarget m w).val) (hstep : ¬(x.running = true ∧ x.stepGroup = cmdArg w 0))
    (hclosed : ∀ d : Die, ∀ o ∈ (s.die d).ops, o.open_ = true → o.group ≠ cmdArg w 0) :
    groupReleaseReply m w s = (.done, { s with fabric := { s.fabric with
      groups := SMap.erase s.fabric.groups (cmdArg w 0), multicast := SMap.erase s.fabric.multicast (cmdArg w 0) } }) := by
  have hunused : (s.dies.toList.any fun y => y.ops.any fun o => o.open_ && decide (o.group = cmdArg w 0)) = false :=
    State.any_dies_eq_false fun d => List.any_eq_false.mpr fun o ho => by simpa using hclosed d o ho
  have hidle : (x.running && decide (x.stepGroup = cmdArg w 0)) = false := by simpa using hstep
  rw [groupReleaseReply, withCtx_some hctx]
  simp only [hgroup, howner, hunused, hidle, ne_eq, not_true_eq_false, Bool.or_false, Bool.false_eq_true, if_false]

/-- A fall-back record that breaks no condition waits for the launch or the next MK (07 R174). -/
theorem policyFallbackReply_done {s : State} {m : Mbx} {w : CmdWord} {x : CtxSt} {bs : Bytes}
    (hctx : s.ctx (cmdTarget m w) = some x) (hbuf : Buffer w 4160) (hlen : bs.length = 4160) (hreserved : fallbackReserved bs = true)
    (hsound : x.fallbackPolicy bs = 0) :
    policyFallbackReply m (some bs) w s = (.done, s.updCtx (cmdTarget m w) fun y => { y with policyNext := some bs }) := by
  rw [policyFallbackReply, withCtx_some hctx, dataIn_buffer hbuf hlen]
  simp only [hreserved, hsound, ne_eq, not_true_eq_false, Bool.not_true, Bool.false_eq_true, if_false]

/-- A resilience record that breaks no condition waits for the next MK (14 R347). -/
theorem policyResilienceReply_done {s : State} {m : Mbx} {w : CmdWord} {x : CtxSt} {bs : Bytes}
    (hctx : s.ctx (cmdTarget m w) = some x) (hbuf : Buffer w 32) (hlen : bs.length = 32)
    (hreserved : resilienceReserved (wordOf 256 bs) = true) (hsound : s.resiliencePolicy x (wordOf 256 bs) = 0) :
    policyResilienceReply m (some bs) w s =
      (.done, s.updCtx (cmdTarget m w) fun y => { y with resilienceNext := some (wordOf 256 bs) }) := by
  rw [policyResilienceReply, withCtx_some hctx, dataIn_buffer hbuf hlen]
  simp only [hreserved, hsound, ne_eq, not_true_eq_false, Bool.not_true, Bool.false_eq_true, if_false]

/-- A step ring at a sound address and of a sound size replaces the context's ring, with its header zeroed (15 R380). -/
theorem ringRegisterReply_stepRing {s : State} {m : Mbx} {w : CmdWord} {x : CtxSt} (hctx : s.ctx (cmdTarget m w) = some x)
    (hkind : cmdArg w 0 = 1) (hon : cmdArg w 1 ≠ 0) (haligned : cmdArg w 1 % 64 = 0) (hhost : cmdArg w 1 < 2 ^ 47)
    (hmin : 6 ≤ cmdArg w 2) (hmax : cmdArg w 2 ≤ 16) :
    ringRegisterReply m w s = (.done,
      (s.write (.host (cmdArg w 1)) (List.replicate 64 0) false).updCtx (cmdTarget m w) fun y => { y with
        stepRing := some { address := cmdArg w 1, sizeLog := cmdArg w 2, writeIndex := 0, dropped := 0 } }) := by
  have haddr : hostRingAddr (cmdArg w 1) = true := by simpa [hostRingAddr, haligned] using hhost
  have hsize : inRange (cmdArg w 2) 6 16 = true := by simp [inRange, hmin, hmax]
  simp only [ringRegisterReply, hkind, withCtx_some hctx, hon, haddr, hsize, newRing, decide_false, Bool.not_true, Bool.and_false,
    Bool.false_eq_true, if_false]

/-- Settles O30: each record passes its row's checks in turn, and the row's body then registers it. -/
theorem suphorRegistrations : Obligations.SuphorRegistrations := by
  intro s m w x bs c hctx
  refine ⟨?entry, ?group, ?release, ?fallback, ?resilience, ?ring⟩
  case entry =>
    intro hruns hindex hdie hstopped hbuf hlen e hreserved hfields hroom
    change execEntryRegister m (some bs) s = _
    exact suphor_of_reply hruns rfl (entryRegisterReply_done hctx hindex hdie hstopped hbuf hlen hreserved hfields hroom)
  case group =>
    intro hruns hbuf hlen g hreserved hok hfree
    refine ⟨s.withGroup g, ?_, s.group_withGroup_same g, s.groupSeq_withGroup g⟩
    change execGroupRegister m (some bs) s = _
    exact suphor_of_reply hruns rfl (groupRegisterReply_done hctx hbuf hlen hreserved hok hfree)
  case release =>
    intro g hruns hgroup howner hstep hclosed
    change execGroupRelease m s = _
    exact suphor_of_reply hruns rfl (groupReleaseReply_done hctx hgroup howner hstep hclosed)
  case fallback =>
    intro hruns hkind hbuf hlen hreserved hsound
    change execPolicySetFallback m (some bs) s = _
    exact suphor_of_reply hruns (decide_eq_true hkind) (policyFallbackReply_done hctx hbuf hlen hreserved hsound)
  case resilience =>
    intro hruns hkind hbuf hlen hreserved hsound
    change execPolicySetResilience m (some bs) s = _
    exact suphor_of_reply hruns (decide_eq_true hkind) (policyResilienceReply_done hctx hbuf hlen hreserved hsound)
  case ring =>
    intro hruns hkind hon haligned hhost hmin hmax
    change execRingRegister m s = _
    exact suphor_of_reply hruns rfl (ringRegisterReply_stepRing hctx hkind hon haligned hhost hmin hmax)

end Sys2Proof.Machine
end

section
/-! SUPPORT. Proofs: what every step keeps. Each command's meaning has its law under Laws/, and a step is one command, or a
microsecond (08 R178; 09 R201; 15 R367). -/
namespace Sys2Proof.Machine

/-- Every command leaves what `Keeps` says, by the law of its own meaning. -/
theorem exec_keeps {z s : State} (h : z.Keeps s) : ∀ i : Instr, OutKeeps z (exec i s)
  | .syWait d c w => execSyWait_keeps d c w s h
  | .sySignal d c w => execSySignal_keeps d c w s h
  | .sySet d c w => execSySet_keeps d c w s h
  | .syFence d c w => execSyFence_keeps d c w s h
  | .syJump d c w => execSyJump_keeps d c w s h
  | .mkStep d c w => execMkStep_keeps d c w s h
  | .mkFencePassed c => execMkFencePassed_keeps c s h
  | .mkReductionReceived c step verdict stats check stepsAgree restorable retirementMap =>
    execMkReductionReceived_keeps c step verdict stats check stepsAgree restorable retirementMap s h
  | .cfSeed d c w => execCfSeed_keeps d c w s h
  | .cfAccdef d c w => execCfAccdef_keeps d c w s h
  | .cfTimeout d c w => execCfTimeout_keeps d c w s h
  | .cfNop d c w => execCfNop_keeps d c w s h
  | .instructionComplete d c index => execInstructionComplete_keeps d c index s h
  | .syncTimeout d c => execSyncTimeout_keeps d c s h
  | .shQuant d c w x => execShQuant_keeps d c w x s h
  | .shDequant d c w x => execShDequant_keeps d c w x s h
  | .shRotate d c w x => execShRotate_keeps d c w x s h
  | .mmProduct d c w x => execMmProduct_keeps d c w x s h
  | .tileCheckComplete d a upset x => execTileCheckComplete_keeps d a upset x s h
  | .mmDrain d c w x => execMmDrain_keeps d c w x s h
  | .mmSpill d c w x => execMmSpill_keeps d c w x s h
  | .mmDiscard d c w x => execMmDiscard_keeps d c w x s h
  | .vxAdd d c w x => execVxAdd_keeps d c w x s h
  | .vxSub d c w x => execVxSub_keeps d c w x s h
  | .vxMul d c w x => execVxMul_keeps d c w x s h
  | .vxFma d c w x => execVxFma_keeps d c w x s h
  | .vxMax d c w x => execVxMax_keeps d c w x s h
  | .vxMin d c w x => execVxMin_keeps d c w x s h
  | .vxScale d c w x => execVxScale_keeps d c w x s h
  | .vxConvert d c w x => execVxConvert_keeps d c w x s h
  | .vxFunc d c w x => execVxFunc_keeps d c w x s h
  | .vxReduce d c w x => execVxReduce_keeps d c w x s h
  | .vxSoftmax d c w x => execVxSoftmax_keeps d c w x s h
  | .vxSoftmaxBwd d c w x => execVxSoftmaxBwd_keeps d c w x s h
  | .vxNorm d c w x => execVxNorm_keeps d c w x s h
  | .vxNormBwd d c w x => execVxNormBwd_keeps d c w x s h
  | .vxTopk d c w x => execVxTopk_keeps d c w x s h
  | .vxRelu d c w x => execVxRelu_keeps d c w x s h
  | .vxDropout d c w x => execVxDropout_keeps d c w x s h
  | .vxMaxpool d c w x => execVxMaxpool_keeps d c w x s h
  | .vxMaskmul d c w x => execVxMaskmul_keeps d c w x s h
  | .vxUnpool d c w x => execVxUnpool_keeps d c w x s h
  | .vxMaskgen d c w x => execVxMaskgen_keeps d c w x s h
  | .vxRandom d c w x => execVxRandom_keeps d c w x s h
  | .vxTable d c w x => execVxTable_keeps d c w x s h
  | .vxKvappend d c w x => execVxKvappend_keeps d c w x s h
  | .vxKvscore d c w x => execVxKvscore_keeps d c w x s h
  | .vxKvmix d c w x => execVxKvmix_keeps d c w x s h
  | .upStep d c w x => execUpStep_keeps d c w x s h
  | .upWcopy d c w x => execUpWcopy_keeps d c w x s h
  | .upVerdict d c w => execUpVerdict_keeps d c w s h
  | .roundVerdictReceived c round verdict roundsAgree => execRoundVerdictReceived_keeps c round verdict roundsAgree s h
  | .mvCopy d c w x => execMvCopy_keeps d c w x s h
  | .mvSetcopy d c w x => execMvSetcopy_keeps d c w x s h
  | .mvGather d c w x => execMvGather_keeps d c w x s h
  | .mvScatter d c w x => execMvScatter_keeps d c w x s h
  | .mvScatterAdd d c w x => execMvScatterAdd_keeps d c w x s h
  | .mvWindow d c w x => execMvWindow_keeps d c w x s h
  | .mvFill d c w x => execMvFill_keeps d c w x s h
  | .mvSeal d c w x => execMvSeal_keeps d c w x s h
  | .clShift d c w x => execClShift_keeps d c w x s h
  | .clPermute d c w x => execClPermute_keeps d c w x s h
  | .clAlltoall d c w x => execClAlltoall_keeps d c w x s h
  | .clGradsend d c w x => execClGradsend_keeps d c w x s h
  | .clGradrecv d c w x => execClGradrecv_keeps d c w x s h
  | .clReduce d c w x => execClReduce_keeps d c w x s h
  | .clReduceScatter d c w x => execClReduceScatter_keeps d c w x s h
  | .clGather d c w x => execClGather_keeps d c w x s h
  | .clBcast d c w x => execClBcast_keeps d c w x s h
  | .clSetcast d c w x => execClSetcast_keeps d c w x s h
  | .clExpress d c w x => execClExpress_keeps d c w x s h
  | .clSlotGranted d c => execClSlotGranted_keeps d c s h
  | .collectiveTimeout d c index => execCollectiveTimeout_keeps d c index s h
  | .expressResend c group => execExpressResend_keeps c group s h
  | .linkCodewordReceived l r => execLinkCodewordReceived_keeps l r s h
  | .idleFlit l f => execIdleFlit_keeps l f s h
  | .creditFlit l f => execCreditFlit_keeps l f s h
  | .replayFlit l f => execReplayFlit_keeps l f s h
  | .abortFlit l f => execAbortFlit_keeps l f s h
  | .helloFlit l f => execHelloFlit_keeps l f s h
  | .controlFlitInterval l => execControlFlitInterval_keeps l s h
  | .laneLockLost l lane => execLaneLockLost_keeps l lane s h
  | .linkRetrainDone l ok => execLinkRetrainDone_keeps l ok s h
  | .routerPacketArrival from_ p => execRouterPacketArrival_keeps from_ p s h
  | .packetAdvance index => execPacketAdvance_keeps index s h
  | .packetStaleTimeout index => execPacketStaleTimeout_keeps index s h
  | .putReceived p => execPutReceived_keeps p s h
  | .signalReceived p => execSignalReceived_keeps p s h
  | .getReqReceived p x => execGetReqReceived_keeps p x s h
  | .getRespReceived p => execGetRespReceived_keeps p s h
  | .collReceived p => execCollReceived_keeps p s h
  | .expressReceived p => execExpressReceived_keeps p s h
  | .ackReceived p => execAckReceived_keeps p s h
  | .nakReceived p => execNakReceived_keeps p s h
  | .msgAckReceived p => execMsgAckReceived_keeps p s h
  | .mgmtReceived p => execMgmtReceived_keeps p s h
  | .ackTimer d srcNode srcDie space => execAckTimer_keeps d srcNode srcDie space s h
  | .e2eTimeout d index => execE2eTimeout_keeps d index s h
  | .nakBackoffExpiry d index => execNakBackoffExpiry_keeps d index s h
  | .trackingEntryExpiry d srcNode srcDie space => execTrackingEntryExpiry_keeps d srcNode srcDie space s h
  | .memoryRequest d address len op who => execMemoryRequest_keeps d address len op who s h
  | .memoryReadReturn d errs => execMemoryReadReturn_keeps d errs s h
  | .rowRepair d pc bank sid row errs => execRowRepair_keeps d pc bank sid row errs s h
  | .pageRetirement d page => execPageRetirement_keeps d page s h
  | .scrubGranule d errs => execScrubGranule_keeps d errs s h
  | .retrainStart d pc cause => execRetrainStart_keeps d pc cause s h
  | .retrainDone d pc eyes => execRetrainDone_keeps d pc eyes s h
  | .stallWindow d demand => execStallWindow_keeps d demand s h
  | .hostMemAccess dpa op errs => execHostMemAccess_keeps dpa op errs s h
  | .lockstepMismatch d => execLockstepMismatch_keeps d s h
  | .captureWrite d => execCaptureWrite_keeps d s h
  | .spareTest d pass => execSpareTest_keeps d pass s h
  | .spareEnterService d => execSpareEnterService_keeps d s h
  | .checkerSelftest d unit a pass => execCheckerSelftest_keeps d unit a pass s h
  | .gambitRun d a vectorEngine gambit vector mismatches => execGambitRun_keeps d a vectorEngine gambit vector mismatches s h
  | .quietWorkStart d arrays work lengthUs => execQuietWorkStart_keeps d arrays work lengthUs s h
  | .quietWindowEnd c => execQuietWindowEnd_keeps c s h
  | .arrayBorrow d a work => execArrayBorrow_keeps d a work s h
  | .arrayReturn d a mismatches => execArrayReturn_keeps d a mismatches s h
  | .marginSweepDone d a topMhz tempC => execMarginSweepDone_keeps d a topMhz tempC s h
  | .linkEyeScan l eyes tempC => execLinkEyeScan_keeps l eyes tempC s h
  | .tallyPeriod d => execTallyPeriod_keeps d s h
  | .tallyDump d => execTallyDump_keeps d s h
  | .bwWindowEnd d win tx rx => execBwWindowEnd_keeps d win tx rx s h
  | .lifetimeRecord d => execLifetimeRecord_keeps d s h
  | .ledgerCheckpoint => execLedgerCheckpoint_keeps s h
  | .ledgerFlashWrite => execLedgerFlashWrite_keeps s h
  | .datagramSend => execDatagramSend_keeps s h
  | .lifetimeRecordsRequest who q => execLifetimeRecordsRequest_keeps who q s h
  | .rollingRecordsRequest who q => execRollingRecordsRequest_keeps who q s h
  | .historyDatagramsRequest who q => execHistoryDatagramsRequest_keeps who q s h
  | .captureSlotRequest who q => execCaptureSlotRequest_keeps who q s h
  | .captureExportedRequest who q => execCaptureExportedRequest_keeps who q s h
  | .checkpointNowRequest who q => execCheckpointNowRequest_keeps who q s h
  | .mctpGambitInstall package => execMctpGambitInstall_keeps package s h
  | .generationCopyDone c generation own namesBack => execGenerationCopyDone_keeps c generation own namesBack s h
  | .stopClassDetermined c maxClass missing => execStopClassDetermined_keeps c maxClass missing s h
  | .restore c generation ownOk buddyImage => execRestore_keeps c generation ownOk buddyImage s h
  | .swapResend => execSwapResend_keeps s h
  | .swapDeadline => execSwapDeadline_keeps s h
  | .cmdDoorbell m tail => execCmdDoorbell_keeps m tail s h
  | .commandFetch m record => execCommandFetch_keeps m record s h
  | .ringEnableWrite m ring v => execRingEnableWrite_keeps m ring v s h
  | .cplHeadWrite m v => execCplHeadWrite_keeps m v s h
  | .evtHeadWrite m v => execEvtHeadWrite_keeps m v s h
  | .mailboxErrClear m v => execMailboxErrClear_keeps m v s h
  | .registerWrite bar offset v => execRegisterWrite_keeps bar offset v s h
  | .getGeometry m ok => execGetGeometry_keeps m ok s h
  | .getStatus m ok => execGetStatus_keeps m ok s h
  | .reset m => execReset_keeps m s h
  | .ctxCreate m data => execCtxCreate_keeps m data s h
  | .ctxDestroy m => execCtxDestroy_keeps m s h
  | .stallSet m => execStallSet_keeps m s h
  | .memAlloc m => execMemAlloc_keeps m s h
  | .memFree m => execMemFree_keeps m s h
  | .descWrite m data => execDescWrite_keeps m data s h
  | .descRead m ok => execDescRead_keeps m ok s h
  | .progLoad m data => execProgLoad_keeps m data s h
  | .launch m => execLaunch_keeps m s h
  | .stop m => execStop_keeps m s h
  | .slotWrite m => execSlotWrite_keeps m s h
  | .slotRead m ok => execSlotRead_keeps m ok s h
  | .entryRegister m data => execEntryRegister_keeps m data s h
  | .entryRead m ok => execEntryRead_keeps m ok s h
  | .groupRegister m data => execGroupRegister_keeps m data s h
  | .groupRelease m => execGroupRelease_keeps m s h
  | .policySetFallback m data => execPolicySetFallback_keeps m data s h
  | .policySetResilience m data => execPolicySetResilience_keeps m data s h
  | .policySetSamplePeriod m => execPolicySetSamplePeriod_keeps m s h
  | .policySetIntegrity m data => execPolicySetIntegrity_keeps m data s h
  | .policySetScrubPeriod m => execPolicySetScrubPeriod_keeps m s h
  | .policySetE2eTimeout m => execPolicySetE2eTimeout_keeps m s h
  | .policySetCheckpointInterval m => execPolicySetCheckpointInterval_keeps m s h
  | .policySetTally m => execPolicySetTally_keeps m s h
  | .policyRead m ok => execPolicyRead_keeps m ok s h
  | .fallbackRead m ok => execFallbackRead_keeps m ok s h
  | .ringRegister m => execRingRegister_keeps m s h
  | .measureSetCounter m => execMeasureSetCounter_keeps m s h
  | .measureSetHistogram m => execMeasureSetHistogram_keeps m s h
  | .measureSetWindow m => execMeasureSetWindow_keeps m s h
  | .tallyRequest m => execTallyRequest_keeps m s h
  | .ledgerRead m ok => execLedgerRead_keeps m ok s h
  | .captureRead m ok => execCaptureRead_keeps m ok s h
  | .captureExported m => execCaptureExported_keeps m s h
  | .checkpointNow m => execCheckpointNow_keeps m s h
  | .collectorSet m data => execCollectorSet_keeps m data s h
  | .gambitInstall m data => execGambitInstall_keeps m data s h
  | .calRead m ok => execCalRead_keeps m ok s h
  | .calWrite m data => execCalWrite_keeps m data s h
  | .fwInstall m data => execFwInstall_keeps m data s h
  | .linkReset m => execLinkReset_keeps m s h
  | .castle m spareRevs sparePorts => execCastle_keeps m spareRevs sparePorts s h
  | .hostLinkDown => execHostLinkDown_keeps s h
  | .hostLinkUp width => execHostLinkUp_keeps width s h
  | .hostLinkRetrain result => execHostLinkRetrain_keeps result s h
  | .hostPortReset => execHostPortReset_keeps s h
  | .spdmGetVersion via req => execSpdmGetVersion_keeps via req s h
  | .spdmGetCapabilities via req => execSpdmGetCapabilities_keeps via req s h
  | .spdmNegotiateAlgorithms via req => execSpdmNegotiateAlgorithms_keeps via req s h
  | .spdmGetDigests via req => execSpdmGetDigests_keeps via req s h
  | .spdmGetCertificate via req => execSpdmGetCertificate_keeps via req s h
  | .spdmChallenge via req => execSpdmChallenge_keeps via req s h
  | .spdmGetMeasurements via req => execSpdmGetMeasurements_keeps via req s h
  | .spdmUnsupportedRequest via req => execSpdmUnsupportedRequest_keeps via req s h
  | .pldmSensorRead sensor => execPldmSensorRead_keeps sensor s h
  | .pldmCollectorSet collector portEnable address => execPldmCollectorSet_keeps collector portEnable address s h
  | .dyoloNop d frame => execDyoloNop_keeps d frame s h
  | .dyoloStatus d frame => execDyoloStatus_keeps d frame s h
  | .dyoloGetNonce d frame => execDyoloGetNonce_keeps d frame s h
  | .dyoloPush d frame => execDyoloPush_keeps d frame s h
  | .dyoloPushReset d frame => execDyoloPushReset_keeps d frame s h
  | .dyoloUnlock d frame => execDyoloUnlock_keeps d frame s h
  | .dyoloRelock d frame => execDyoloRelock_keeps d frame s h
  | .dyoloInstall d frame => execDyoloInstall_keeps d frame s h
  | .dyoloHalt d frame => execDyoloHalt_keeps d frame s h
  | .dyoloResume d frame => execDyoloResume_keeps d frame s h
  | .dyoloStep d frame x => execDyoloStep_keeps d frame x s h
  | .dyoloBreakSet d frame => execDyoloBreakSet_keeps d frame s h
  | .dyoloBreakClear d frame => execDyoloBreakClear_keeps d frame s h
  | .dyoloRead d frame x => execDyoloRead_keeps d frame x s h
  | .dyoloWrite d frame x => execDyoloWrite_keeps d frame x s h
  | .dyoloResetDevice d frame => execDyoloResetDevice_keeps d frame s h
  | .extest d cells => execExtest_keeps d cells s h
  | .idcode d => execIdcode_keeps d s h
  | .samplePreload d cells => execSamplePreload_keeps d cells s h
  | .bypass d => execBypass_keeps d s h
  | .tapReset => execTapReset_keeps s h
  | .powerOn inputMv => execPowerOn_keeps inputMv s h
  | .railsGood => execRailsGood_keeps s h
  | .powerOff => execPowerOff_keeps s h
  | .inputVoltageFault inputMv => execInputVoltageFault_keeps inputMv s h
  | .rideThroughExpiry => execRideThroughExpiry_keeps s h
  | .inputVoltageRecovered inputMv durationUs => execInputVoltageRecovered_keeps inputMv durationUs s h
  | .moduleReset => execModuleReset_keeps s h
  | .resetRelease railsGoodUs => execResetRelease_keeps railsGoodUs s h
  | .boot env => execBoot_keeps env s h
  | .moduleDrain => execModuleDrain_keeps s h
  | .drainComplete => execDrainComplete_keeps s h
  | .shutdownReqRelease => execShutdownReqRelease_keeps s h
  | .pwrLimitSample code => execPwrLimitSample_keeps code s h
  | .powerSample watts avg100us => execPowerSample_keeps watts avg100us s h
  | .cappingEpisodeEnd durationUs => execCappingEpisodeEnd_keeps durationUs s h
  | .thermalSample dieMilliC stackMilliC inletMilliC outletMilliC =>
    execThermalSample_keeps dieMilliC stackMilliC inletMilliC outletMilliC s h
  | .thermtrip d => execThermtrip_keeps d s h
  | .hostRefclkLoss => execHostRefclkLoss_keeps s h
  | .fabRefclkLoss => execFabRefclkLoss_keeps s h
  | .rideThroughEntry inputMv => execRideThroughEntry_keeps inputMv s h
  | .resetHoldExpiry => execResetHoldExpiry_keeps s h
  | .railLeavesWindow => execRailLeavesWindow_keeps s h
  | .fabRefclkReturn => execFabRefclkReturn_keeps s h
  | .hostWindowCompletion d c index reply => execHostWindowCompletion_keeps d c index reply s h
  | .quietWorkDone d arrays mismatches => execQuietWorkDone_keeps d arrays mismatches s h
  | .selftestOverdue d a work pastTwice => execSelftestOverdue_keeps d a work pastTwice s h
  | .watchdogExpiry d => execWatchdogExpiry_keeps d s h

/-- A step runs its command on the queue's rest, or lets time pass, and so leaves what `Keeps` says of that queue. -/
theorem State.Keeps.of_step {s t : State} (h : step s = .next t) : State.Keeps { s with pending := s.pending.tail } t := by
  cases hp : s.pending with
  | nil =>
    simp only [step, hp] at h
    cases h
    exact ⟨hp, .refl _, (State.Keeps.refl s).lifetime, id⟩
  | cons c rest =>
    simp only [step, hp] at h
    exact (exec_keeps (.refl _) c).of_eq h

/-- Settles O4: the memories are among what a step keeps, and the queue is none of them. -/
theorem stepKeepsMemoryWf : Obligations.StepKeepsMemoryWf :=
  fun _ _ hwf hstep => (State.Keeps.of_step hstep).memory hwf

/-- Settles O5: every memory of the reset device is the empty table. -/
theorem resetMemoryWf : Obligations.ResetMemoryWf :=
  ⟨rfl, rfl, rfl, rfl, rfl⟩

end Sys2Proof.Machine
end

section
/-! SUPPORT. Proofs: the bytes of the memories. What a byte reads as after a write, and what a retired page makes of one
(08 R178, R197; 09 R201). -/
namespace Sys2Proof.Machine

/-! ### What a write of bytes or of poison leaves -/

/-- The device with no poison listed. -/
def State.unpoisoned (s : State) : State := { s with stackPoison := [], scratchPoison := [], hostPoison := [] }

/-- The device with no byte stored and no poison listed. -/
def State.unstored (s : State) : State := { s.unpoisoned with stack := [], scratch := [], hostMem := [] }

@[simp] theorem State.unpoisoned_mark (s : State) (p : Place) (o : Origin) : (s.mark p o).unpoisoned = s.unpoisoned := by
  cases p with
  | sp d off => rfl
  | st d off =>
    simp only [State.mark]
    split <;> rfl
  | host h => rfl

@[simp] theorem State.unpoisoned_unmark (s : State) (p : Place) : (s.unmark p).unpoisoned = s.unpoisoned := by
  cases p <;> rfl

/-- The poison bookkeeping of a write changes the poison tables alone. -/
@[simp] theorem State.unpoisoned_touchUnits (s : State) (p : Place) (n : Nat) (poison : Bool) :
    (s.touchUnits p n poison).unpoisoned = s.unpoisoned := by
  unfold State.touchUnits
  split
  · rfl
  · refine foldl_eq_of_step State.unpoisoned (fun st i => ?_) _ s
    extract_lets base q full
    split
    · split
      · exact st.unpoisoned_mark ..
      · exact st.unpoisoned_unmark ..
    · split
      · exact st.unpoisoned_mark ..
      · rfl

/-- Stored bytes have nothing to do with poison. -/
theorem State.byteAt_unpoisoned (s : State) (p : Place) : s.unpoisoned.byteAt p = s.byteAt p := by
  cases p <;> rfl

/-- A write stores its bytes; its poison bookkeeping stores none. -/
theorem State.byteAt_write (s : State) (p q : Place) (bs : Bytes) (poison : Bool) :
    (s.write p bs poison).byteAt q = (s.putBytes p bs).byteAt q := by
  rw [← State.byteAt_unpoisoned, State.write, State.unpoisoned_touchUnits, State.byteAt_unpoisoned]

@[simp] theorem State.unstored_putByte (s : State) (p : Place) (b : Byte) : (s.putByte p b).unstored = s.unstored := by
  cases p with
  | sp d off => rfl
  | st d off =>
    simp only [State.putByte]
    split <;> rfl
  | host h => rfl

@[simp] theorem State.unstored_putBytes (s : State) (p : Place) (bs : Bytes) : (s.putBytes p bs).unstored = s.unstored :=
  foldl_eq_of_step (fun acc : State × Nat => acc.1.unstored) (fun acc b => acc.1.unstored_putByte _ b) bs (s, 0)

/-- A write changes stored bytes and poison tables alone. -/
@[simp] theorem State.unstored_write (s : State) (p : Place) (bs : Bytes) (poison : Bool) :
    (s.write p bs poison).unstored = s.unstored := by
  have h := State.unpoisoned_touchUnits (s.putBytes p bs) p bs.length poison
  rw [State.write, State.unstored, h, ← State.unstored, State.unstored_putBytes]

/-! ### Bytes one after another -/

/-- What holds of no byte, and of a run with one more byte when it holds of the run, holds of every run. -/
theorem concat_induction {α : Type} {motive : List α → Prop} (nil : motive [])
    (concat : ∀ l a, motive l → motive (l ++ [a])) (l : List α) : motive l := by
  have hreverse : ∀ r : List α, motive r.reverse := by
    intro r
    induction r with
    | nil => exact nil
    | cons a r ih => rw [List.reverse_cons]; exact concat r.reverse a ih
  rw [← l.reverse_reverse]
  exact hreverse l.reverse

/-- The last of a run of bytes is stored behind the others. -/
theorem State.putBytes_concat (s : State) (p : Place) (bs : Bytes) (b : Byte) :
    s.putBytes p (bs ++ [b]) = (s.putBytes p bs).putByte (p.plus bs.length) b := by
  have hcount : ∀ (l : Bytes) (acc : State × Nat),
      (l.foldl (fun (acc : State × Nat) b => (acc.1.putByte (p.plus acc.2) b, acc.2 + 1)) acc).2 = acc.2 + l.length := by
    intro l
    induction l with
    | nil => exact fun _ => rfl
    | cons e l ih => intro acc; rw [List.foldl_cons, ih, List.length_cons]; omega
  simp only [State.putBytes, List.foldl_append, List.foldl_cons, List.foldl_nil, hcount, Nat.zero_add]

/-! ### Scratchpads -/

/-- A byte stored in a scratchpad reads back. -/
theorem State.byteAt_putByte_sp_same {s : State} (hwf : SMap.wf 0 s.scratch = true) (d o : Nat) (b : Byte) :
    (s.putByte (.sp d o) b).byteAt (.sp d o) = b :=
  SMap.get_put_same hwf _ b

/-- It leaves every byte with another place. -/
theorem State.byteAt_putByte_sp_other {s : State} {d o : Nat} {p : Place} (b : Byte)
    (hp : ∀ d' o', p = .sp d' o' → spKey d' o' ≠ spKey d o) : (s.putByte (.sp d o) b).byteAt p = s.byteAt p := by
  cases p with
  | sp d' o' => exact SMap.get_put_other 0 s.scratch b (hp d' o' rfl)
  | st d' o' => rfl
  | host h => rfl

/-- A run of bytes stored in a scratchpad leaves every byte with a place outside it. -/
theorem State.byteAt_putBytes_sp_other {s : State} {d off : Nat} {p : Place} {bs : Bytes}
    (hp : ∀ i, i < bs.length → ∀ d' o', p = .sp d' o' → spKey d' o' ≠ spKey d (off + i)) :
    (s.putBytes (.sp d off) bs).byteAt p = s.byteAt p := by
  induction bs using concat_induction with
  | nil => rfl
  | concat bs b ih =>
    rw [List.length_append, List.length_singleton] at hp
    rw [State.putBytes_concat, Place.plus, State.byteAt_putByte_sp_other b (hp bs.length (Nat.lt_succ_self _))]
    exact ih fun i hi => hp i (Nat.lt_succ_of_lt hi)

/-- Each byte of a run stored in a scratchpad reads back. -/
theorem State.byteAt_putBytes_sp_same {s : State} (hwf : s.memoryWf) {d off : Nat} {bs : Bytes} {i : Nat} (hi : i < bs.length) :
    (s.putBytes (.sp d off) bs).byteAt (.sp d (off + i)) = bs[i] := by
  induction bs using concat_induction with
  | nil => exact absurd hi (Nat.not_lt_zero i)
  | concat bs b ih =>
    rw [State.putBytes_concat, Place.plus]
    obtain ⟨-, hscratch, -⟩ : (s.putBytes (.sp d off) bs).memoryWf := (State.putBytes_keeps s _ bs (.refl s)).memory hwf
    rw [List.length_append, List.length_singleton] at hi
    rcases Nat.lt_succ_iff_lt_or_eq.mp hi with hlt | heq
    · have hkey : spKey d (off + i) ≠ spKey d (off + bs.length) := by simp only [spKey]; omega
      rw [State.byteAt_putByte_sp_other b (by rintro _ _ ⟨⟩; exact hkey), ih hlt, List.getElem_append_left hlt]
    · subst heq
      rw [State.byteAt_putByte_sp_same hscratch, List.getElem_concat_length rfl]

/-- A write to a scratchpad reads back. -/
theorem State.read_write_sp {s : State} (hwf : s.memoryWf) (d off : Nat) (bs : Bytes) (poison : Bool) :
    (s.write (.sp d off) bs poison).read (.sp d off) bs.length = bs := by
  refine List.ext_getElem (by simp [State.read]) fun i hi hi' => ?_
  simp only [State.read, List.getElem_map, List.getElem_range, Place.plus, State.byteAt_write]
  exact State.byteAt_putBytes_sp_same hwf hi'

/-- Settles O8: the poison bookkeeping of a write stores no byte, and its bytes are stored one after another. -/
theorem memoryLaws : Obligations.MemoryLaws :=
  ⟨fun _ d off bs poison hwf _ => State.read_write_sp hwf d off bs poison,
    fun s _ _ bs poison p hp => (s.byteAt_write _ p bs poison).trans (State.byteAt_putBytes_sp_other hp)⟩

/-! ### Retired pages -/

/-- A run of bytes that lies in retired pages is discarded. -/
theorem State.putBytes_of_retired {s : State} {d off : Nat} {bs : Bytes}
    (h : ∀ i, i < bs.length → s.isRetired d (off + i) = true) : s.putBytes (.st d off) bs = s := by
  induction bs using concat_induction with
  | nil => rfl
  | concat bs b ih =>
    rw [List.length_append, List.length_singleton] at h
    rw [State.putBytes_concat, ih fun i hi => h i (Nat.lt_succ_of_lt hi)]
    exact if_pos (h bs.length (Nat.lt_succ_self _))

/-- Settles O9: the retirement table is asked before the poison table and before the stack. -/
theorem retiredPage : Obligations.RetiredPage :=
  fun _ _ _ _ hretired hrun => ⟨if_pos hretired, State.putBytes_of_retired hrun⟩

end Sys2Proof.Machine
end

section
/-! SUPPORT. Proofs: the grants of a window (08 R184, R185). -/
namespace Sys2Proof.Machine

/-- A stall of floor 1, 256 units, that the running four windows still owe as many (08 R185). -/
def owedStall : StallSt := { StallSt.reset with enable := true, floor := 1, runWindows := 1, runOwed := 256 }

/-- A stall of the same floor that is owed nothing. -/
def evenStall : StallSt := { StallSt.reset with enable := true, floor := 1 }

/-- Refutes O53: what a stall is still owed of its floor is granted before the next stall's floor is looked at. Of 512 units,
which two floors of 256 fit, a stall that is owed 256 takes all, and the stall behind it none. R185 guarantees a floor over four
windows, not in each. -/
theorem not_grantsFit : ¬ Obligations.GrantsFit := by
  intro h
  obtain ⟨-, -, hfloor⟩ := h 512 [(owedStall, 512), (evenStall, 256)]
  have hfit : min (evenStall.wants 256) 256 ≤ (windowGrants 512 [(owedStall, 512), (evenStall, 256)]).getD 1 0 :=
    hfloor 1 evenStall 256 rfl (by decide)
  exact absurd hfit (by decide)

end Sys2Proof.Machine
end

section
/-! SUPPORT. Proofs: what the controllers' operations leave. A measure of the dies that an operation leaves, with a bound on the
bytes of records that it queues (08 R188 to R198; 13 R333). -/
namespace Sys2Proof.Machine

variable {α : Type} {g : DieSt → α}

/-! ### Bytes of waiting records -/

theorem queueBytes_eq_sum (q : List Rec) : queueBytes q = (q.map (·.bytes.length)).sum :=
  List.sum_eq_foldl.symm

theorem queueBytes_append (p q : List Rec) : queueBytes (p ++ q) = queueBytes p + queueBytes q := by
  simp [queueBytes_eq_sum]

theorem queueBytes_cons (r : Rec) (q : List Rec) : queueBytes (r :: q) = r.bytes.length + queueBytes q := by
  simp only [queueBytes_eq_sum, List.map_cons, List.sum_cons]

theorem queueBytes_eraseIdx_le : ∀ (q : List Rec) (i : Nat), queueBytes (q.eraseIdx i) ≤ queueBytes q
  | [], _ => Nat.le_refl _
  | r :: q, 0 => by rw [List.eraseIdx_zero, List.tail_cons, queueBytes_cons]; exact Nat.le_add_left _ _
  | r :: q, i + 1 => by
    rw [List.eraseIdx_cons_succ, queueBytes_cons, queueBytes_cons]
    exact Nat.add_le_add_left (queueBytes_eraseIdx_le q i) _

/-- Records that are dropped free their bytes. -/
theorem queueBytes_dropRolling_le : ∀ (n : Nat) (q : List Rec), queueBytes (dropRolling n q) ≤ queueBytes q
  | 0, _ => Nat.le_refl _
  | n + 1, q => by
    unfold dropRolling
    split
    · exact Nat.le_refl _
    · split
      · next i _ =>
        exact Nat.le_trans (queueBytes_dropRolling_le n _) (queueBytes_eraseIdx_le q i)
      · exact Nat.le_refl _

theorem length_leBytes : ∀ n v : Nat, (leBytes n v).length = n
  | 0, _ => rfl
  | n + 1, v => congrArg (· + 1) (length_leBytes n (v / 256))

theorem length_eventBody (action reason unit inst a b c d : Nat) : (eventBody action reason unit inst a b c d).length = 64 :=
  length_leBytes 64 _

/-! ### The relation -/

/-- From s to t, the measure g of every die stands, and the ledger's queue grows by at most n bytes. -/
structure State.Leaves (g : DieSt → α) (n : Nat) (s t : State) : Prop where
  dies : ∀ d : Die, g (t.die d) = g (s.die d)
  queue : queueBytes t.ledger.queue ≤ queueBytes s.ledger.queue + n

namespace State.Leaves

theorem refl (s : State) : s.Leaves g 0 s := ⟨fun _ => rfl, Nat.le_refl _⟩

theorem mono {s t : State} {m n : Nat} (a : s.Leaves g m t) (h : m ≤ n) : s.Leaves g n t :=
  ⟨a.dies, Nat.le_trans a.queue (Nat.add_le_add_left h _)⟩

theorem trans {s t u : State} {m n : Nat} (a : s.Leaves g m t) (b : t.Leaves g n u) : s.Leaves g (m + n) u :=
  ⟨fun d => (b.dies d).trans (a.dies d), by have := a.queue; have := b.queue; omega⟩

/-- An operation that queues nothing may follow. -/
theorem trans_zero {s t u : State} {n : Nat} (a : s.Leaves g n t) (b : t.Leaves g 0 u) : s.Leaves g n u := a.trans b

/-- It may go before. -/
theorem zero_trans {s t u : State} {n : Nat} (a : s.Leaves g 0 t) (b : t.Leaves g n u) : s.Leaves g n u :=
  (a.trans b).mono (Nat.le_of_eq (Nat.zero_add n))

/-- What leaves a measure leaves whatever is read off it. -/
theorem comp {β : Type} {s t : State} {n : Nat} (f : α → β) (a : s.Leaves g n t) : s.Leaves (fun x => f (g x)) n t :=
  ⟨fun d => congrArg f (a.dies d), a.queue⟩

/-- An operation on neither the dies nor the ledger leaves every measure. -/
theorem of_eq {s t : State} (hd : t.dies = s.dies) (hl : t.ledger = s.ledger) : s.Leaves g 0 t :=
  ⟨fun d => by rw [State.die, State.die, hd], by rw [hl]; exact Nat.le_refl _⟩

theorem of_unstored {s t : State} (h : t.unstored = s.unstored) : s.Leaves g 0 t :=
  have hd : t.unstored.dies = s.unstored.dies := by rw [h]
  have hl : t.unstored.ledger = s.unstored.ledger := by rw [h]
  of_eq hd hl

theorem updDie (s : State) (d : Die) {f : DieSt → DieSt} (hf : ∀ x, g (f x) = g x) : s.Leaves g 0 (s.updDie d f) :=
  ⟨fun e => by
    rw [State.die_updDie]
    split
    · next h => rw [hf, h]
    · rfl, Nat.le_refl _⟩

theorem updDies (s : State) {f : Die → DieSt → DieSt} (hf : ∀ d x, g (f d x) = g x) : s.Leaves g 0 (s.updDies f) :=
  ⟨fun e => by rw [State.die_updDies, hf], Nat.le_refl _⟩

/-- A fold leaves what each of its turns leaves. -/
theorem foldl {β : Type} {f : State → β → State} {n : Nat} (hf : ∀ (s : State) (e : β), s.Leaves g n (f s e)) :
    ∀ (l : List β) (s : State), s.Leaves g (l.length * n) (l.foldl f s)
  | [], s => (refl s).mono (Nat.zero_le _)
  | e :: l, s => ((hf s e).trans (foldl hf l (f s e))).mono (by rw [List.length_cons, Nat.succ_mul]; omega)

/-- A fold that carries a result along leaves the same. -/
theorem foldlSnd {β γ : Type} {f : γ × State → β → γ × State} {n : Nat}
    (hf : ∀ (p : γ × State) (e : β), p.2.Leaves g n (f p e).2) :
    ∀ (l : List β) (p : γ × State), p.2.Leaves g (l.length * n) (l.foldl f p).2
  | [], p => (refl p.2).mono (Nat.zero_le _)
  | e :: l, p => ((hf p e).trans (foldlSnd hf l (f p e))).mono (by rw [List.length_cons, Nat.succ_mul]; omega)

end State.Leaves

/-! ### Operations on neither the dies nor the ledger -/

theorem State.write_leaves (s : State) (p : Place) (bs : Bytes) (poison : Bool) : s.Leaves g 0 (s.write p bs poison) :=
  .of_unstored (s.unstored_write p bs poison)

theorem State.putBytes_leaves (s : State) (p : Place) (bs : Bytes) : s.Leaves g 0 (s.putBytes p bs) :=
  .of_unstored (s.unstored_putBytes p bs)

theorem State.mark_leaves (s : State) (p : Place) (o : Origin) : s.Leaves g 0 (s.mark p o) :=
  .of_unstored (by rw [State.unstored, s.unpoisoned_mark p o, ← State.unstored])

theorem State.updMbx_leaves (s : State) (m : Mbx) (f : MbxSt → MbxSt) : s.Leaves g 0 (s.updMbx m f) := .of_eq rfl rfl

theorem State.raise_leaves (s : State) (v : Nat) : s.Leaves g 0 (s.raise v) := .of_eq rfl rfl

/-- An event in a mailbox's ring. -/
theorem State.postEvent_leaves (s : State) (m : Mbx) (r : Bytes) : s.Leaves g 0 (s.postEvent m r) := by
  unfold State.postEvent
  dsimp only
  split
  · exact s.updMbx_leaves m _
  · split
    · split
      · exact s.updMbx_leaves m _
      · exact s.updMbx_leaves m _
    · split
      · exact s.updMbx_leaves m _
      · split
        · exact ((s.write_leaves _ _ _).trans_zero (State.updMbx_leaves _ m _)).trans_zero (State.raise_leaves _ _)
        · exact (s.write_leaves _ _ _).trans_zero (State.updMbx_leaves _ m _)

theorem State.post_leaves (s : State) (c : Option Nat) (r : Bytes) : s.Leaves g 0 (s.post c r) := by
  unfold State.post
  cases c with
  | none => exact s.postEvent_leaves 0 r
  | some c =>
    dsimp only
    split
    · exact (s.postEvent_leaves _ r).trans_zero (State.postEvent_leaves _ 0 r)
    · exact s.postEvent_leaves 0 r

/-! ### Records, counts and verdicts leave a controller's tables -/

/-- The tables of a memory controller that no count, record or verdict changes. -/
structure Controller where
  requests : List MemReq
  delivered : Option Delivery
  failedRows : List Nat
  repairedRows : List Nat
  retired : List Nat
  retiredPages : BitVec 32
  scrubNext : Nat
  retraining : Pc → Bool
  charged : Ctx → Nat

def DieSt.controller (x : DieSt) : Controller :=
  { requests := x.requests, delivered := x.delivered, failedRows := x.failedRows, repairedRows := x.repairedRows
    retired := x.retired, retiredPages := x.retiredPages, scrubNext := x.scrubNext
    retraining := fun p => x.pcs[p].retraining, charged := fun c => x.stalls[c].charged }

theorem State.count_leaves (s : State) (d : Die) (ev qual : Nat) (c : Option Nat) (n : Nat) :
    s.Leaves DieSt.controller 0 (s.count d ev qual c n) :=
  .updDie s d fun _ => rfl

/-- Making a record draws a value and takes the die's next record number. -/
theorem State.makeRec_leaves (s : State) (d : Die) (type tier : Nat) (device : Bool) (step ctx : Option Nat) (body : Bytes) :
    s.Leaves DieSt.controller 0 (s.makeRec d type tier device step ctx body).2 :=
  .trans_zero (t := s.draw.2) (.of_eq rfl rfl) (.updDie _ d (f := fun x => { x with recordSeq := x.recordSeq + 1 }) fun _ => rfl)

/-- A record is its header and its body in whole 16 bytes (13 Table 13.9). -/
theorem State.length_makeRec (s : State) (d : Die) (type tier : Nat) (device : Bool) (step ctx : Option Nat) (body : Bytes) :
    (s.makeRec d type tier device step ctx body).1.length = 64 + ceilDiv body.length 16 * 16 := by
  simp only [State.makeRec, recHeader, List.length_append, length_leBytes, padTo, slice, List.drop_zero, List.length_take,
    List.length_replicate]
  omega

/-- A record adds its bytes to the queue; a full queue only drops others. -/
theorem State.enqueue_leaves (s : State) (r : Rec) : s.Leaves DieSt.controller r.bytes.length (s.enqueue r) := by
  have hall : queueBytes (s.ledger.queue ++ [r]) = queueBytes s.ledger.queue + r.bytes.length := by
    rw [queueBytes_append]
    simp [queueBytes]
  unfold State.enqueue
  dsimp only
  split
  · exact ⟨fun _ => rfl, Nat.le_of_eq hall⟩
  · exact ⟨fun e => (State.count_leaves _ 0 _ _ _ _).dies e, Nat.le_trans (queueBytes_dropRolling_le _ _) (Nat.le_of_eq hall)⟩

/-- A record that goes to the ledger adds its header and its body to the queue. -/
theorem State.log_leaves (s : State) (d : Die) (type tier : Nat) (c : Option Nat) (toHost : Bool) (body : Bytes) :
    s.Leaves DieSt.controller (64 + ceilDiv body.length 16 * 16) (s.log d type tier c toHost body) := by
  have hmade := s.makeRec_leaves d type tier false (s.stepOf c) c body
  have hqueued := State.enqueue_leaves (s.makeRec d type tier false (s.stepOf c) c body).2
    { bytes := (s.makeRec d type tier false (s.stepOf c) c body).1, tier := tier }
  rw [State.length_makeRec] at hqueued
  have hlogged := hmade.zero_trans hqueued
  unfold State.log State.logWith
  dsimp only
  split
  · exact hlogged.trans_zero (State.post_leaves _ _ _)
  · exact hlogged

/-- An event record is 128 bytes. -/
theorem State.event_leaves (s : State) (d : Die) (type tier : Nat) (c : Option Nat) (a r u i v w x y : Nat) :
    s.Leaves DieSt.controller 128 (s.event d type tier c (eventBody a r u i v w x y)) := by
  have h := s.log_leaves d type tier c true (eventBody a r u i v w x y)
  rw [length_eventBody] at h
  exact h.mono (by decide)

/-- An event of the host type goes to the host alone (15 R375). -/
theorem State.hostEvent_leaves (s : State) (type : Nat) (c : Option Nat) (body : Bytes) :
    s.Leaves DieSt.controller 0 (s.hostEvent type c body) :=
  (s.makeRec_leaves 0 type 2 true (s.stepOf c) c body).trans_zero (State.post_leaves _ c _)

theorem State.geometryChange_leaves (s : State) (inst : Nat) : s.Leaves DieSt.controller 0 (s.geometryChange inst) := by
  unfold State.geometryChange
  refine .zero_trans ?_ (State.hostEvent_leaves _ _ _ _)
  exact .of_eq rfl rfl

theorem State.judgeCapacity_leaves (s : State) (d : Die) : s.Leaves DieSt.controller 128 (s.judgeCapacity d) := by
  unfold State.judgeCapacity
  dsimp only
  split
  · exact (State.Leaves.refl s).mono (Nat.zero_le _)
  · refine State.Leaves.zero_trans ?_ (State.event_leaves _ d _ _ _ _ _ _ _ _ _ _ _)
    exact .updDie s d fun _ => rfl

end Sys2Proof.Machine
end

section
/-! SUPPORT. Proofs: what a codeword's read leaves. It may correct, poison, erase a pin and judge a row, and leaves the requests
that wait, with at most one pin's records queued (08 R188, R189, R195). -/
namespace Sys2Proof.Machine

/-! ### Pins -/

/-- An update of a pseudo-channel that leaves its retraining leaves the controller's tables. -/
theorem DieSt.controller_updPc (x : DieSt) (p : Pc) {f : PcSt → PcSt} (hf : ∀ q, (f q).retraining = q.retraining) :
    (x.updPc p f).controller = x.controller := by
  have hpcs : ∀ e : Pc, (x.updPc p f).pcs[e].retraining = x.pcs[e].retraining := by
    intro e
    simp only [DieSt.updPc, Fin.getElem_fin, Vector.getElem_set]
    split
    · next h => rw [hf]; simp only [h]
    · rfl
  simp only [DieSt.controller, hpcs]
  rfl

/-- An update of a pin's state, with its event and the verdict that follows. -/
theorem State.pinEvent_leaves (s : State) (d : Die) (p : Pc) {f : PcSt → PcSt} (hf : ∀ q, (f q).retraining = q.retraining)
    (a r u i v w x y : Nat) : s.Leaves DieSt.controller 256
      (((s.updDie d fun z => z.updPc p f).event d 0x06 0 none (eventBody a r u i v w x y)).judgeCapacity d) :=
  ((State.Leaves.updDie s d fun z => z.controller_updPc p hf).zero_trans (State.event_leaves ..)).trans
    (State.judgeCapacity_leaves _ d)

/-- Erasing a pin queues its event and the capacity verdict's. -/
theorem State.erasePin_leaves (s : State) (d : Die) (p : Pc) (pin : Nat) :
    s.Leaves DieSt.controller 256 (s.erasePin d p pin) := by
  have hnone : s.Leaves DieSt.controller 256 s := (State.Leaves.refl s).mono (Nat.zero_le _)
  unfold State.erasePin
  dsimp only
  split
  · exact hnone
  · split
    · refine s.pinEvent_leaves d p ?_ ..
      exact fun _ => rfl
    · split
      · refine s.pinEvent_leaves d p ?_ ..
        exact fun _ => rfl
      · split
        · exact hnone
        · refine s.pinEvent_leaves d p ?_ ..
          exact fun _ => rfl

/-! ### Codewords -/

/-- What leaves a controller's tables leaves the requests that wait in them. -/
theorem State.Leaves.requests {s t : State} {n : Nat} (h : s.Leaves DieSt.controller n t) : s.Leaves DieSt.requests n t :=
  h.comp Controller.requests

theorem State.failRow_leaves (s : State) (d : Die) (row : Nat) : s.Leaves DieSt.requests 0 (s.failRow d row) :=
  .updDie s d fun x => by split <;> rfl

theorem State.updStall_leaves (s : State) (d : Die) (c : Nat) (f : StallSt → StallSt) :
    s.Leaves DieSt.requests 0 (s.updStall d c f) := by
  unfold State.updStall
  split
  · exact .updDie s d fun _ => rfl
  · exact .refl s

/-- A correction judges its pin and its row. -/
theorem State.noteCorrection_leaves (s : State) (d : Die) (off : Nat) (syms : List Nat) :
    s.Leaves DieSt.requests 256 (s.noteCorrection d off syms) := by
  unfold State.noteCorrection
  extract_lets p pin row counted pinned logged q judged
  clear_value pin
  have hcounted : s.Leaves DieSt.requests 0 counted := (s.count_leaves ..).requests
  have hpinned : counted.Leaves DieSt.requests 0 pinned := by
    unfold pinned
    split
    · exact (State.count_leaves ..).requests
    · exact .refl _
  have hlogged : pinned.Leaves DieSt.requests 0 logged := .updDie pinned d fun _ => rfl
  have hjudged : logged.Leaves DieSt.requests 256 judged := by
    unfold judged
    split
    · split
      · exact (State.erasePin_leaves ..).requests
      · exact (State.Leaves.refl _).mono (Nat.zero_le _)
    · exact (State.Leaves.refl _).mono (Nat.zero_le _)
  have hall : s.Leaves DieSt.requests 256 judged :=
    ((hcounted.trans_zero hpinned).trans_zero hlogged).zero_trans hjudged
  split
  · exact hall.trans_zero (State.failRow_leaves ..)
  · exact hall

/-- Decoding a codeword, with what it writes back, counts and judges. -/
theorem State.decodeSeen_leaves (s : State) (d : Die) (off : Nat) (errs : List (Nat × BitVec 8)) (v : CwSeen) :
    s.Leaves DieSt.requests 256 (s.decodeSeen d off errs v).2 := by
  have hnone : s.Leaves DieSt.requests 256 s := (State.Leaves.refl s).mono (Nat.zero_le _)
  unfold State.decodeSeen
  extract_lets +onlyGivenNames base p es
  split
  · exact hnone
  · split
    · exact hnone
    · next left at_ _ =>
      extract_lets data written
      have hwritten : s.Leaves DieSt.requests 0 written := by
        unfold written
        split
        · exact .refl s
        · exact s.write_leaves ..
      exact hwritten.zero_trans (State.noteCorrection_leaves ..)
    · exact hnone
    · extract_lets data counted noted marked
      have hnoted : s.Leaves DieSt.requests 0 noted := (s.count_leaves ..).requests.trans_zero (.updDie counted d fun _ => rfl)
      have hmarked : noted.Leaves DieSt.requests 0 marked := by
        unfold marked
        split
        · exact .refl _
        · exact (noted.putBytes_leaves _ _).trans_zero (State.mark_leaves _ _ _)
      exact ((hnoted.trans_zero hmarked).trans_zero (State.failRow_leaves ..)).mono (Nat.zero_le _)

theorem State.noteRead_leaves (s : State) (d : Die) (off : Nat) (c : Option Nat) :
    s.Leaves DieSt.requests 0 (s.noteRead d off c) := by
  unfold State.noteRead
  extract_lets p noted
  have hnoted : s.Leaves DieSt.requests 0 noted := by
    refine .trans_zero ?_ (.updDie ((s.count d 0x501 p c).addUnits d 1 0 1) d fun _ => rfl)
    exact (s.count_leaves ..).requests.trans_zero (.updDie (s.count d 0x501 p c) d fun _ => rfl)
  split
  · exact hnoted.trans_zero (State.updStall_leaves ..)
  · exact hnoted

/-- A codeword's read. -/
theorem State.readCodeword_leaves (s : State) (d : Die) (off : Nat) (errs : List (Nat × BitVec 8)) (c : Option Nat) (v : CwSeen) :
    s.Leaves DieSt.requests 256 (s.readCodeword d off errs c v).2 := by
  unfold State.readCodeword
  extract_lets noted poison counted
  have hcounted : s.Leaves DieSt.requests 0 counted := by
    unfold counted
    split
    · exact (s.noteRead_leaves ..).trans_zero (State.count_leaves ..).requests
    · exact s.noteRead_leaves ..
  exact hcounted.zero_trans (State.decodeSeen_leaves ..)

theorem State.deliverCw_leaves (s : State) (d : Die) (off : Nat) (errs : List (Nat × BitVec 8)) (c : Option Nat) :
    s.Leaves DieSt.requests 256 (s.deliverCw d off errs c).2 := by
  have h := s.readCodeword_leaves d (off / 64 * 64) errs c (s.cwSeen d (off / 64 * 64))
  simp only [State.deliverCw]
  exact h

/-- A measured latency is a histogram's alone. -/
theorem State.measure_leaves (s : State) (d : Die) (source qual : Nat) (c : Option Nat) (start : Nat) :
    s.Leaves DieSt.controller 0 (s.measure d source qual c start) := by
  unfold State.measure
  split
  · have hdrawn : s.Leaves DieSt.controller 0 s.draw.2 := .of_eq rfl rfl
    exact hdrawn.trans_zero (.updDie s.draw.2 d fun _ => rfl)
  · exact .refl s

end Sys2Proof.Machine
end

section
/-! SUPPORT. Proofs: requests to the memory controllers, the returns of their reads, and the host's codewords through CXL (08
R177, R179, R182; 15 R367). -/
namespace Sys2Proof.Machine

/-! ### Requests -/

/-- A request of a context outside its ranges raises the context fault (01 R22). -/
theorem execMemoryRequest_outside {s : State} {d : Die} {c : Ctx} {a len die off : Nat} {x : CtxSt} (op : MemOp)
    (hplace : deviceAddr d a = some (.st die off)) (hform : requestOk a len = true) (hctx : s.ctx c = some x)
    (howned : x.ownsRun (fun i => some (.st die (off + i))) len = false) :
    execMemoryRequest d a len op (.stall c) s = .next (s.stopFault d c 0 { cls := 4, reason := 4, unit := 10, valueB := a }) := by
  simp only [execMemoryRequest, hplace, hform, hctx, howned, Option.isSome_some, Bool.not_true, Bool.not_false,
    Bool.false_eq_true, if_false, if_true]

/-- One that its controller does not take stays with its issuer (log 11). -/
theorem execMemoryRequest_notReady {s : State} {d : Die} {c : Ctx} {a len die off : Nat} {x : CtxSt} (op : MemOp)
    (hplace : deviceAddr d a = some (.st die off)) (hform : requestOk a len = true) (hctx : s.ctx c = some x)
    (howned : x.ownsRun (fun i => some (.st die (off + i))) len = true) (hready : s.stackReady (dieOf die) c = false) :
    execMemoryRequest d a len op (.stall c) s = .next s := by
  simp only [execMemoryRequest, hplace, hform, hctx, howned, hready, Bool.not_true, Bool.not_false, Bool.false_eq_true, if_false,
    if_true]

/-- A request as its controller takes it, with its codewords as it finds them (08 R178). -/
def State.newRequest (s : State) (t : Die) (off len : Nat) (who : Charge) : MemReq :=
  { offset := off, len := len, who := who, seen := (codewordsIn off len).map (s.cwSeen t), born := s.freeCtr }

/-- A context's request that its controller takes is a read that waits, or a write done (08 R177, R178). -/
theorem execMemoryRequest_taken {s : State} {d : Die} {c : Ctx} {a len die off : Nat} {x : CtxSt}
    (hplace : deviceAddr d a = some (.st die off)) (hform : requestOk a len = true) (hctx : s.ctx c = some x)
    (howned : x.ownsRun (fun i => some (.st die (off + i))) len = true) (hready : s.stackReady (dieOf die) c = true) :
    execMemoryRequest d a len .read (.stall c) s = .next ((s.askUnits (dieOf die) off len c).updDie (dieOf die) fun y =>
        { y with requests := y.requests ++ [s.newRequest (dieOf die) off len (.stall c)] }) ∧
      ∀ (bs : Bytes) (poison : Bool), bs.length = len → execMemoryRequest d a len (.write bs poison) (.stall c) s =
        .next (((s.askUnits (dieOf die) off len c).countWrites (dieOf die) off len (some c.val)).write (.st die off) bs
          poison) := by
  constructor
  · simp only [execMemoryRequest, hplace, hform, hctx, howned, hready, Bool.not_true, Bool.false_eq_true, if_false]
    rfl
  · intro bs poison hlen
    simp only [execMemoryRequest, hplace, hform, hctx, howned, hready, hlen, ne_eq, not_true_eq_false, Bool.not_true,
      Bool.false_eq_true, if_false, Option.map_some]

/-- A service request needs no stall, and is charged to none (08 R183). -/
theorem execMemoryRequest_service {s : State} {d : Die} {a len die off : Nat}
    (hplace : deviceAddr d a = some (.st die off)) (hform : requestOk a len = true)
    (hroom : (s.die (dieOf die)).requests.length < 256) :
    execMemoryRequest d a len .read .service s = .next (s.updDie (dieOf die) fun y =>
        { y with requests := y.requests ++ [s.newRequest (dieOf die) off len .service] }) ∧
      ∀ (bs : Bytes) (poison : Bool), bs.length = len → execMemoryRequest d a len (.write bs poison) .service s =
        .next ((s.countWrites (dieOf die) off len none).write (.st die off) bs poison) := by
  constructor
  · simp only [execMemoryRequest, hplace, hform, hroom, decide_true, Bool.not_true, Bool.false_eq_true, if_false]
    rfl
  · intro bs poison hlen
    simp only [execMemoryRequest, hplace, hform, hroom, hlen, ne_eq, not_true_eq_false, decide_true, Bool.not_true,
      Bool.false_eq_true, if_false, Option.map_none]

/-! ### Returns -/

/-- What leaves a controller's tables leaves its latest delivery. -/
theorem State.Leaves.delivered {s t : State} {n : Nat} (h : s.Leaves DieSt.controller n t) : s.Leaves DieSt.delivered n t :=
  h.comp Controller.delivered

theorem State.countFault_leaves (s : State) (d : Die) (c : Option Nat) (f : FaultInfo) :
    s.Leaves DieSt.controller 0 (s.countFault d c f) := by
  unfold State.countFault
  split
  · exact s.count_leaves ..
  · exact .refl s

theorem State.recordFault_leaves (s : State) (d : Die) (c : Option Nat) (addr : Nat) (f : FaultInfo) :
    s.Leaves DieSt.controller 128 (s.recordFault d c addr f) :=
  s.event_leaves ..

theorem State.orVerdict_leaves (s : State) (c : Ctx) (v : BitVec 64) : s.Leaves DieSt.controller 0 (s.orVerdict c v) :=
  .of_eq rfl rfl

/-- Stopping a context's streams touches no controller. -/
theorem State.faultStop_leaves (s : State) (c : Ctx) (cause : StopCause) : s.Leaves DieSt.controller 0 (s.faultStop c cause) := by
  unfold State.faultStop State.stopStreams
  refine .trans_zero ?_ (.updDies _ fun _ _ => rfl)
  exact .of_eq rfl rfl

/-- A kill queues its record. -/
theorem State.kill_leaves (s : State) (d : Die) (c : Ctx) (addr : Nat) (f : FaultInfo) :
    s.Leaves DieSt.controller 128 (s.kill d c addr f) :=
  (((s.countFault_leaves d _ f).zero_trans (State.recordFault_leaves _ d _ addr f)).trans_zero
    (State.orVerdict_leaves _ c vTainted)).trans_zero (State.faultStop_leaves _ c .memory)

/-- The oldest read's codewords come back: it is the one that its controller delivers, and the others wait on (08 R188). -/
theorem execMemoryReadReturn_delivers {s : State} {d : Die} {q : MemReq} {rest : List MemReq}
    (errs : List (Nat × List (Nat × BitVec 8))) (hq : (s.die d).requests = q :: rest) :
    ∃ t, execMemoryReadReturn d errs s = .next t ∧ (t.die d).requests = rest ∧
      ∃ v, (t.die d).delivered = some v ∧ v.offset = q.offset := by
  unfold execMemoryReadReturn
  split
  · next hnone => exact absurd (hnone.symm.trans hq) (List.cons_ne_nil _ _).symm
  · next first others hfirst =>
    obtain ⟨rfl, rfl⟩ := List.cons.inj (hq.symm.trans hfirst)
    extract_lets +onlyGivenNames taken issuer start turn
    clear_value issuer
    have hturns := State.Leaves.foldlSnd (f := turn) (fun acc e => acc.2.readCodeword_leaves ..) q.seen.zipIdx (([], []), taken)
    split
    next bytes marks read hread =>
    rw [hread] at hturns
    extract_lets measured done
    have hmeasured : read.Leaves DieSt.controller 0 measured := read.measure_leaves ..
    have hrequests : (done.die d).requests = rest :=
      calc (done.die d).requests
        _ = (measured.die d).requests := by simp [done]
        _ = (read.die d).requests := hmeasured.requests.dies d
        _ = (taken.die d).requests := hturns.dies d
        _ = rest := by simp [taken]
    have hdone : ∃ v, (done.die d).delivered = some v ∧ v.offset = q.offset := ⟨_, by simp [done]; rfl, rfl⟩
    have hends : ∀ {n : Nat} {t : State}, done.Leaves DieSt.controller n t →
        ∃ u, (.next t : Out) = .next u ∧ (u.die d).requests = rest ∧
          ∃ v, (u.die d).delivered = some v ∧ v.offset = q.offset := fun {n t} h =>
      ⟨t, rfl, (h.requests.dies d).trans hrequests, by rwa [h.delivered.dies d]⟩
    split
    · exact hends (.refl done)
    · split
      · exact hends (.refl done)
      · split
        · exact hends (State.kill_leaves ..)
        · split
          · exact hends (State.orVerdict_leaves ..)
          · exact hends (.refl done)

/-! ### The host's codewords -/

theorem cwPieces_codeword {p : Nat} (h : p % 64 = 0) : cwPieces p 64 = [(p, 64)] := by
  have hone : (p + 64 - 1) / 64 + 1 - p / 64 = 1 := by omega
  have hlo : max p ((p / 64 + 0) * 64) = p := by omega
  have hhi : min (p + 64) ((p / 64 + 0 + 1) * 64) - p = 64 := by omega
  rw [cwPieces, if_neg (by decide), hone, List.range_one]
  simp only [List.map_cons, List.map_nil, hlo, hhi]

@[simp] theorem errsOf_nil (cw : Nat) : errsOf [] cw = [] := rfl

theorem slice_whole (bs : Bytes) : slice bs 0 bs.length = bs := by
  simp [slice]

/-- A codeword that the host writes through CXL, where a context holds it (15 R367). -/
theorem execHostMemAccess_write {s : State} {dpa die off : Nat} {c : Ctx} {bs : Bytes} (poison : Bool)
    (hlink : s.host.link.isSome) (haligned : dpa % 64 = 0) (hend : dpa + 64 ≤ 2 * (20 * 2 ^ 36))
    (hplace : (dpaAddress dpa).bind (deviceAddr 0) = some (.st die off)) (howner : s.stackOwner die off = some c)
    (hlen : bs.length = 64) :
    execHostMemAccess dpa (.write bs poison) [] s =
      .next (((s.askUnits (dieOf die) off 64 c).countWrites (dieOf die) off 64 (some c)).write (.st die off) bs poison) := by
  have hup : s.host.link.isNone = false := by simpa [Option.isNone_eq_false_iff] using hlink
  have hwhole : slice bs 0 64 = bs := hlen ▸ slice_whole bs
  simp only [execHostMemAccess, hup, hlen, Nat.not_lt.mpr hend, cwPieces_codeword haligned, List.foldl_cons, List.foldl_nil,
    State.hostPiece, hplace, howner, Nat.sub_self, hwhole, Nat.reduceLT, decide_false, Bool.or_self, Bool.false_eq_true, if_false]

/-- One that the host reads. -/
theorem execHostMemAccess_read {s : State} {dpa die off : Nat} {c : Ctx}
    (hlink : s.host.link.isSome) (haligned : dpa % 64 = 0) (hend : dpa + 64 ≤ 2 * (20 * 2 ^ 36))
    (hplace : (dpaAddress dpa).bind (deviceAddr 0) = some (.st die off)) (howner : s.stackOwner die off = some c) :
    let r := (s.askUnits (dieOf die) off 64 c).deliverCw (dieOf die) off [] (some c)
    execHostMemAccess dpa (.read 64) [] s =
      .next { r.2 with host := { r.2.host with lastRead := (slice r.1.1 (off % 64) 64, r.1.2.isSome) } } := by
  have hup : s.host.link.isNone = false := by simpa [Option.isNone_eq_false_iff] using hlink
  simp only [execHostMemAccess, hup, Nat.not_lt.mpr hend, cwPieces_codeword haligned, List.foldl_cons, List.foldl_nil,
    State.hostPiece, hplace, howner, errsOf_nil, List.nil_append, Bool.false_or, Nat.reduceLT, decide_false, Bool.or_self,
    Bool.false_eq_true, if_false]

/-- Settles O51: a request passes its checks in turn, a return's operations leave the other requests, and a codeword of the host's
is one piece of its access. -/
theorem memoryRows : Obligations.MemoryRows := by
  refine ⟨fun s d c a len die off x bs poison hplace hform => ⟨fun hctx howned => ⟨fun hready => ?taken, fun hready => ?kept⟩,
      fun hctx howned => ?outside, fun hroom => ?service⟩, fun s d q rest errs hq => ?returned,
    fun s dpa die off c bs poison hlink haligned hend hplace howner hlen => ⟨?write, ?read⟩⟩
  case taken =>
    obtain ⟨hread, hwrite⟩ := execMemoryRequest_taken hplace hform hctx howned hready
    exact ⟨hread, hwrite bs poison⟩
  case kept => exact execMemoryRequest_notReady .read hplace hform hctx howned hready
  case outside => exact execMemoryRequest_outside .read hplace hform hctx howned
  case service =>
    obtain ⟨hread, hwrite⟩ := execMemoryRequest_service hplace hform hroom
    exact ⟨hread, hwrite bs poison⟩
  case returned => exact execMemoryReadReturn_delivers errs hq
  case write => exact execHostMemAccess_write poison hlink haligned hend hplace howner hlen
  case read => exact execHostMemAccess_read hlink haligned hend hplace howner

end Sys2Proof.Machine
end

section
/-! SUPPORT. Proofs: the care of the stacks. Row repair, page retirement, scrubbing, retraining and the window of the stalls
(08 R184, R192 to R197). -/
namespace Sys2Proof.Machine

/-! ### Background work -/

/-- What an operation queues, whatever else it does. -/
theorem State.Leaves.queued {α : Type} {g : DieSt → α} {s t : State} {n : Nat} (h : s.Leaves g n t) :
    s.Leaves (fun _ => ()) n t :=
  h.comp fun _ => ()

/-- Background work whose records the queue has room for is done (13 R333). -/
theorem background_of_leaves {α : Type} {g : DieSt → α} {s t : State} {n : Nat} (hroom : s.recordRoom) (h : s.Leaves g n t)
    (hn : n ≤ 65536) : background s (.next t) = .next t := by
  have hfits : ¬ 4194304 < queueBytes t.ledger.queue := by
    have hqueue := h.queue
    simp only [State.recordRoom] at hroom
    omega
  simp only [background, State.unlessFull, hfits, decide_false, Bool.false_and, Bool.false_eq_true, if_false]

/-! What leaves a controller's tables leaves each of them. -/

section
variable {s t : State} {n : Nat} (h : s.Leaves DieSt.controller n t)
include h

theorem State.Leaves.failedRows : s.Leaves DieSt.failedRows n t := h.comp Controller.failedRows

theorem State.Leaves.repairedRows : s.Leaves DieSt.repairedRows n t := h.comp Controller.repairedRows

theorem State.Leaves.retired : s.Leaves DieSt.retired n t := h.comp Controller.retired

theorem State.Leaves.retiredPages : s.Leaves DieSt.retiredPages n t := h.comp Controller.retiredPages

theorem State.Leaves.scrubNext : s.Leaves DieSt.scrubNext n t := h.comp Controller.scrubNext

theorem State.Leaves.retraining (p : Pc) : s.Leaves (fun x => x.pcs[p].retraining) n t := h.comp fun x => x.retraining p

theorem State.Leaves.charged (c : Ctx) : s.Leaves (fun x => x.stalls[c].charged) n t := h.comp fun x => x.charged c

end

theorem State.granule_leaves (s : State) (d : Die) (unit : Nat) : s.Leaves DieSt.controller 0 (s.granule d unit) :=
  s.count_leaves ..

/-- The reads of a granule of 16 codewords. -/
theorem State.deliverCws_leaves (s : State) (d : Die) (off : Nat → Nat) (errs : Nat → List (Nat × BitVec 8)) :
    s.Leaves DieSt.requests 4096 ((List.range 16).foldl (fun st i => (st.deliverCw d (off i) (errs i) none).2) s) :=
  State.Leaves.foldl (n := 256) (fun st _ => st.deliverCw_leaves ..) (List.range 16) s

/-! ### Repair and retirement -/

/-- A failed row with a spare left is repaired, and is failed no more (08 R196). -/
theorem runRowRepair_repairs {s : State} {d : Die} {pc : Pc} {bank sid : Fin 16} {row : Fin 4096}
    (errs : List (Nat × List (Nat × BitVec 8))) :
    let p := row.val * 256 + sid.val * 16 + bank.val
    let id := rowId pc p
    (s.die d).failedRows.contains id = true → (s.die d).repairedRows.contains id = false → (s.die d).retired.contains p = false →
    (s.die d).sparesUsed pc p < 2 → (s.die d).retired.length < 32768 →
    ∃ t, runRowRepair d pc bank sid row errs s = .next t ∧ s.Leaves (fun _ => ()) 4352 t ∧
      id ∈ (t.die d).repairedRows ∧ ¬ id ∈ (t.die d).failedRows := by
  intro p id hfailed hrepaired hretired hspare hroom
  unfold runRowRepair
  extract_lets +onlyGivenNames x
  have hgo : ¬ (!x.failedRows.contains id || x.repairedRows.contains id || x.retired.contains p || 2 ≤ x.sparesUsed pc p
      || 32768 ≤ x.retired.length) = true := by
    simp only [x, hfailed, hrepaired, hretired, Nat.not_le.mpr hspare, Nat.not_le.mpr hroom, Bool.not_true, decide_false,
      Bool.or_self, Bool.false_eq_true, not_false_eq_true]
  rw [if_neg hgo]
  extract_lets base read repaired counted
  have hread : s.Leaves DieSt.requests 4096 read := s.deliverCws_leaves ..
  have hrepair : read.Leaves (fun _ => ()) 0 repaired := .updDie read d fun _ => rfl
  have hcounted : repaired.Leaves DieSt.controller 0 counted := (repaired.granule_leaves d 10).trans_zero (State.count_leaves ..)
  have hlogged := (hcounted.zero_trans (State.event_leaves counted d 0x06 0 none 1 0 10 pc base 0 (counted.die d).spareRowsFree 0)
   ).trans (State.judgeCapacity_leaves _ d)
  refine ⟨_, rfl, (hread.queued.trans_zero hrepair).trans hlogged.queued, ?_, ?_⟩
  · rw [hlogged.repairedRows.dies d]
    simp [repaired]
  · rw [hlogged.failedRows.dies d]
    simp [repaired]

/-- A retirement queues its event and the capacity verdict's, and enters the page into the die's table (08 R197). -/
theorem State.retirePage_retires (s : State) (d : Die) (page pc : Nat) :
    s.Leaves (fun _ => ()) 256 (s.retirePage d page pc) ∧ page ∈ ((s.retirePage d page pc).die d).retired ∧
      ((s.retirePage d page pc).die d).retiredPages = (s.die d).retiredPages + 1 := by
  unfold State.retirePage
  extract_lets first cleared retired counted recorded
  have hretired : s.Leaves (fun _ => ()) 0 retired := by
    refine .trans_zero ?_ (.updDie cleared d fun _ => rfl)
    exact .of_eq rfl rfl
  have hcounted : retired.Leaves DieSt.controller 0 counted := (retired.granule_leaves d 10).trans_zero (State.count_leaves ..)
  have hrecorded : counted.Leaves DieSt.controller 128 recorded := counted.event_leaves ..
  have hafter := ((hcounted.zero_trans hrecorded).trans_zero (State.geometryChange_leaves _ d)).trans
    (State.judgeCapacity_leaves _ d)
  refine ⟨hretired.zero_trans hafter.queued, ?_, ?_⟩
  · rw [hafter.retired.dies d]
    simp [retired]
  · rw [hafter.retiredPages.dies d]
    simp only [retired, State.die_updDie, if_true]
    rfl

/-- A page with a failed row that no spare can take is retired, while the table has room (08 R196, R197). -/
theorem execPageRetirement_retires {s : State} {d : Die} {page : Fin 1048576} {r : Nat} (hrecords : s.recordRoom)
    (hnew : (s.die d).retired.contains page.val = false) (hroom : (s.die d).retired.length < 32768)
    (hrow : (s.die d).failedRows.find? (fun r => r % 2 ^ 20 = page.val &&
      ((s.die d).repairedRows.contains r || 2 ≤ (s.die d).sparesUsed (r / 2 ^ 20) page.val)) = some r) :
    execPageRetirement d page s = .next (s.retirePage d page.val (r / 2 ^ 20)) := by
  obtain ⟨hqueue, -⟩ := s.retirePage_retires d page.val (r / 2 ^ 20)
  simp only [execPageRetirement, runPageRetirement, hnew, hrow, Nat.not_le.mpr hroom, decide_false, Bool.or_self,
    Bool.false_eq_true, if_false, background_of_leaves hrecords hqueue (by decide)]

/-! ### Scrub and retraining -/

/-- A scrub granule reads its 16 codewords and moves on behind them (08 R192). -/
theorem runScrubGranule_advances {s : State} {d : Die} {k : Nat} (errs : List (Nat × List (Nat × BitVec 8)))
    (hnext : (s.die d).scrubFrom ((s.die d).retired.length + 2) (s.die d).scrubNext = some k) :
    ∃ t, runScrubGranule d errs s = .next t ∧ s.Leaves (fun _ => ()) 4096 t ∧ (t.die d).scrubNext = (k + 16) % 2 ^ 30 := by
  unfold runScrubGranule
  split
  · next hnone => exact absurd (hnext.symm.trans hnone) (Option.some_ne_none k)
  · next first hfirst =>
    obtain rfl := Option.some.inj (hnext.symm.trans hfirst)
    extract_lets read
    have hread : s.Leaves DieSt.requests 4096 read := s.deliverCws_leaves ..
    have hmoved : s.Leaves (fun _ => ()) 4096 (read.updDie d fun x => { x with scrubNext := (k + 16) % 2 ^ 30 }) :=
      hread.queued.trans_zero (.updDie read d fun _ => rfl)
    have hdone := State.granule_leaves (read.updDie d fun x => { x with scrubNext := (k + 16) % 2 ^ 30 }) d 10
    exact ⟨_, rfl, hmoved.trans_zero hdone.queued, (hdone.scrubNext.dies d).trans (by simp)⟩

/-- What the end of a retraining finds of an erased pin: its run of good eyes, or the pin's return (08 R189). -/
theorem State.keepErasure_leaves (s : State) (d : Die) (p : Pc) (second low : Bool) :
    s.Leaves DieSt.controller 256 (s.keepErasure d p second low) := by
  unfold State.keepErasure
  extract_lets q pin run
  split
  · exact (State.Leaves.refl s).mono (Nat.zero_le _)
  · split
    · refine (State.Leaves.updDie s d fun x => x.controller_updPc p ?_).mono (Nat.zero_le _)
      intro q
      split <;> rfl
    · refine s.pinEvent_leaves d p ?_ ..
      intro q
      split <;> rfl

/-- A margin record has a body of 80 bytes (13 Table 13.14). -/
theorem State.marginRecord_leaves (s : State) (d : Die) (source inst : Nat) (temp : Int) (low : Bool) (entries : List Nat) :
    s.Leaves DieSt.controller 144 (s.marginRecord d source inst temp low entries) := by
  unfold State.marginRecord
  extract_lets supply
  refine (State.log_leaves ..).mono ?_
  rw [length_leBytes]
  decide

/-- A retraining that ends leaves its pseudo-channel, judges its pins, and logs their eyes (08 R189, R193). -/
theorem runRetrainDone_ends {s : State} {d : Die} {pc : Pc} (eyes : List (BitVec 16))
    (hretraining : (s.die d).pcs[pc].retraining = true) :
    ∃ t, runRetrainDone d pc eyes s = .next t ∧ s.Leaves (fun _ => ()) 9872 t ∧ (t.die d).pcs[pc].retraining = false := by
  unfold runRetrainDone
  rw [if_neg (by rw [hretraining]; exact Bool.false_ne_true)]
  extract_lets eye low lows ended counted logged q keptA keptB
  have hended : s.Leaves (fun _ => ()) 0 ended := .updDie s d fun _ => rfl
  have hlogged : ended.Leaves DieSt.controller 144 logged := (State.count_leaves ..).zero_trans (counted.marginRecord_leaves ..)
  have hkept : logged.Leaves DieSt.controller 512 keptB :=
    (logged.keepErasure_leaves d pc false _).trans (keptA.keepErasure_leaves d pc true _)
  have hlows : lows.length ≤ 36 := Nat.le_trans (List.length_filter_le _ _) (Nat.le_of_eq List.length_range)
  have hpins := State.Leaves.foldl (fun st p => st.erasePin_leaves d pc p) lows keptB
  have hjudged := ((hlogged.trans hkept).trans hpins).mono (n := 9872) (by omega)
  refine ⟨_, rfl, hended.zero_trans hjudged.queued, ((hjudged.retraining pc).dies d).trans ?_⟩
  simp [ended, DieSt.updPc]

/-- A retraining that is due begins, where no pseudo-channel of the stack retrains (08 R193). -/
theorem execRetrainStart_begins {s : State} {d : Die} {pc : Pc} {cause : RetrainCause}
    (hquiet : ∀ q : Pc, (s.die d).pcs[q].retraining = false) (hdue : s.retrainDue d pc cause = true) :
    ∃ t, execRetrainStart d pc cause s = .next t ∧ (t.die d).pcs[pc].retraining = true := by
  have hnone : (s.die d).pcs.toList.any (·.retraining) = false := by
    rw [Vector.any_toList]
    refine Vector.any_eq_false.mpr fun i hi => ?_
    simpa using hquiet ⟨i, hi⟩
  unfold execRetrainStart
  rw [if_neg (by simp [hnone, hdue])]
  refine ⟨_, rfl, (((State.granule_leaves _ d 10).retraining pc).dies d).trans ?_⟩
  simp [DieSt.updPc]

/-! ### The window of the stalls -/

/-- A fold that adds one entry a turn to a list that it carries. -/
theorem length_snd_foldl {α β γ : Type} {f : γ × List β → α → γ × List β} (hf : ∀ p e, (f p e).2.length = p.2.length + 1) :
    ∀ (l : List α) (p : γ × List β), (l.foldl f p).2.length = p.2.length + l.length
  | [], _ => rfl
  | e :: l, p => by rw [List.foldl_cons, length_snd_foldl hf l, hf, List.length_cons]; omega

/-- Sharing units changes claims and drops none. -/
theorem length_shareUnits : ∀ (n units : Nat) (cs : List Claim), (shareUnits n units cs).length = cs.length
  | 0, _, _ => rfl
  | n + 1, units, cs => by
    unfold shareUnits
    extract_lets act total rounds one
    split
    · rfl
    · split
      · rw [length_shareUnits, List.length_map]
      · have hlength := length_snd_foldl (f := one) (fun p c => List.length_append) cs (units, [])
        split
        next left shared hshared =>
        rw [hshared, List.length_nil, Nat.zero_add] at hlength
        rw [length_shareUnits, hlength]

/-- Each stall has its grant. -/
theorem length_windowGrants (units : Nat) (ks : List (StallSt × Nat)) : (windowGrants units ks).length = ks.length := by
  unfold windowGrants
  extract_lets floors
  rw [List.length_map, length_shareUnits, length_snd_foldl (f := floors) (fun p e => List.length_append), List.length_nil,
    Nat.zero_add]

@[simp] theorem StallSt.charged_renew (k : StallSt) : k.renew.charged = k.charged := by
  unfold StallSt.renew
  split <;> rfl

@[simp] theorem StallSt.charged_window (k : StallSt) (demand granted : Nat) : (k.window demand granted).1.charged = 0 := rfl

/-- The stalls as a window's grants leave them: each has one, and is charged nothing yet. -/
theorem charged_windowEnds {ks : List (StallSt × Nat)} {gs : List Nat} (hlength : gs.length = ks.length) {i : Nat}
    (hi : i < ks.length) (k : StallSt) :
    ((((List.zip ks gs).map fun ((k, dem), g) => k.window dem g)[i]?.map (·.1)).getD k).renew.charged = 0 := by
  have hzip : i < (List.zip ks gs).length := by rw [List.length_zip, hlength, Nat.min_self]; exact hi
  rw [List.getElem?_map, List.getElem?_eq_getElem hzip]
  simp

/-- A window's end charges every stall anew (08 R185). -/
theorem execStallWindow_uncharged (s : State) (d : Die) (demand : List Nat) :
    ∃ t, execStallWindow d demand s = .next t ∧ ∀ c : Ctx, (t.die d).stalls[c].charged = 0 := by
  unfold execStallWindow
  split
  next n drawn _ =>
  extract_lets service ks delivered pairs grants ends settled counted
  have hcounted : settled.Leaves DieSt.controller 0 counted := settled.count_leaves ..
  have hpairs : pairs.length = 8 := by simp [pairs, ks]
  refine ⟨_, rfl, fun c => ?_⟩
  have hturns : ∀ f : State → Nat → State, (∀ (st : State) i, st.Leaves DieSt.controller 0 (f st i)) →
      counted.Leaves DieSt.controller 0 ((List.range 8).foldl f counted) :=
    fun f hf => State.Leaves.foldl hf (List.range 8) counted
  refine (((hcounted.trans_zero (hturns _ ?turn)).charged c).dies d).trans ?_
  case turn =>
    intro st i
    extract_lets used granted
    split
    next drop miss _ =>
    extract_lets missed
    have hgranted : st.Leaves DieSt.controller 0 granted := st.count_leaves ..
    have hmissed : granted.Leaves DieSt.controller 0 missed := by
      unfold missed
      split
      · exact granted.count_leaves ..
      · exact .refl granted
    split
    · exact (hgranted.trans_zero hmissed).trans_zero (missed.count_leaves ..)
    · exact hgranted.trans_zero hmissed
  simp only [settled, State.die_updDie, if_true, Fin.getElem_fin, Vector.getElem_ofFn]
  exact charged_windowEnds (length_windowGrants ..) (by rw [hpairs]; exact c.isLt) _

/-- Settles O52: the records of each work fit the queue, and what follows its one change leaves the controller's tables. -/
theorem memoryCare : Obligations.MemoryCare := by
  intro s d pc bank sid row page r k cause eyes demand
  refine ⟨fun hrecords => ⟨fun hfailed hrepaired hretired hspare hroom => ?repair, fun hnew hroom hrow => ?retirement,
    fun hnext => ?scrubbed, fun hretraining => ?retrained⟩, execRetrainStart_begins,
    execStallWindow_uncharged s d demand⟩
  case repair =>
    obtain ⟨t, hrun, hqueue, hends⟩ := runRowRepair_repairs [] hfailed hrepaired hretired hspare hroom
    exact ⟨t, (congrArg (background s) hrun).trans (background_of_leaves hrecords hqueue (by decide)), hends⟩
  case retirement =>
    exact ⟨execPageRetirement_retires hrecords hnew hroom hrow, (s.retirePage_retires d page.val (r / 2 ^ 20)).2⟩
  case scrubbed =>
    obtain ⟨t, hrun, hqueue, hends⟩ := runScrubGranule_advances [] hnext
    exact ⟨t, (congrArg (background s) hrun).trans (background_of_leaves hrecords hqueue (by decide)), hends⟩
  case retrained =>
    obtain ⟨t, hrun, hqueue, hends⟩ := runRetrainDone_ends eyes hretraining
    exact ⟨t, (congrArg (background s) hrun).trans (background_of_leaves hrecords hqueue (by decide)), hends⟩

end Sys2Proof.Machine
end

section
/-! SUPPORT. Proofs: moves. What an MV row does once its word issues: it waits behind its queue, asks the host, or runs (09
R220; 15 R368). -/
namespace Sys2Proof.Machine

section
variable {s : State} {d : Die} {c : Ctx} {w : IWord} {op : Nat} {x : Phys} {ok : Bool} {y : CtxSt}
  (h : Issues s d c w 5 op (fun _ _ => ok) y)
include h

/-- A move that issues behind another in its queue waits for it (09 R220). -/
theorem mvEngine_of_queued (hqueued : ((s.afterIssue d c 5 y).die d).moves.any (·.queue = mvQueue w) = true) :
    mvEngine d c w op x ok s =
      .next ((s.afterIssue d c 5 y).runEngine d c w (y.stream d).pc 6 (mvQueue w) x (mvWait w false)) := by
  simp only [mvEngine, State.tryIssue_go h, hqueued, if_true]

/-- At the head of its queue, one that touches the window goes out to the host, where the host's link is up (15 R368). -/
theorem mvEngine_of_window (hfirst : ((s.afterIssue d c 5 y).die d).moves.any (·.queue = mvQueue w) = false)
    (hwindow : ((s.afterIssue d c 5 y).host.link.isSome && (s.afterIssue d c 5 y).touchesHost d c w) = true) :
    mvEngine d c w op x ok s =
      .next ((s.afterIssue d c 5 y).runEngine d c w (y.stream d).pc 6 (mvQueue w) x (mvWait w true)) := by
  simp only [mvEngine, State.tryIssue_go h, hfirst, hwindow, Bool.false_eq_true, if_false, if_true]

/-- One that asks nothing of the host, and that no stack holds back, runs as it issues. -/
theorem mvEngine_of_ready (hfirst : ((s.afterIssue d c 5 y).die d).moves.any (·.queue = mvQueue w) = false)
    (hinside : ((s.afterIssue d c 5 y).host.link.isSome && (s.afterIssue d c 5 y).touchesHost d c w) = false)
    (hfree : (s.afterIssue d c 5 y).holdsBack d c w (y.stream d).pc 6 (mvQueue w) (mvNow w) = false) :
    mvEngine d c w op x ok s =
      .next ((s.afterIssue d c 5 y).runEngine d c w (y.stream d).pc 6 (mvQueue w) x (mvNow w)) := by
  simp only [mvEngine, State.tryIssue_go h, hfirst, hinside, hfree, Bool.false_eq_true, if_false]

end

/-- Each row that `moveRow` lists is an MV row of its operation, on its queue. -/
theorem exec_moveRow {i : Instr} {d : Die} {c : Ctx} {w : IWord} {x : Phys} {op : Nat} {ok : Bool}
    (h : moveRow i = some (d, c, w, x, op, ok)) (s : State) : exec i s = mvEngine d c w op x ok s := by
  unfold moveRow at h
  split at h
  all_goals (cases h <;> rfl)

/-- While the host's link is up, its answer goes to the instruction in flight that it names (15 R368). -/
theorem execHostWindowCompletion_of_link {s : State} (hlink : s.host.link.isSome) (d : Die) (c : Ctx) (k : Nat)
    (reply : HostReply) : execHostWindowCompletion d c k reply s = .next (s.hostAnswer d c k reply) := by
  simp only [execHostWindowCompletion, Option.isNone_eq_false_iff.mpr hlink, Bool.false_eq_true, if_false]

/-- Settles O21: the word issues, its queue and its descriptors pick the body, and a body that meets no stopping fault finishes
its instruction. -/
theorem moveRows : Obligations.MoveRows := by
  intro i d c w x op ok s y r hrow h t q hsound
  rw [exec_moveRow hrow]
  refine ⟨fun hfirst => ⟨fun hinside hfree hrun => ?now, fun hwindow hrun => ?asks⟩, fun hqueued hrun => ?waits,
    fun k reply hlink => execHostWindowCompletion_of_link hlink d c k reply⟩
  case now => rw [mvEngine_of_ready h hfirst hinside hfree, State.runEngine_ok hsound hrun]
  case asks => rw [mvEngine_of_window h hfirst hwindow, State.runEngine_ok hsound hrun]
  case waits => rw [mvEngine_of_queued h hqueued, State.runEngine_ok hsound hrun]

end Sys2Proof.Machine
end

section
/-! SUPPORT. Proofs: the tables of a context that Suphor writes. Programs, descriptors and the forms of slots (01 R11, R23;
09 R202). -/
namespace Sys2Proof.Machine

section
variable {s : State} {m : Mbx} {w : CmdWord} {x : CtxSt} {bs : Bytes}

/-- A program for dies of the device that fits the context's range is loaded while no stream runs. -/
theorem progLoadReply_done (hctx : s.ctx (cmdTarget m w) = some x) (hmask : cmdArg w 0 < 2 ^ 20) (hstopped : x.running = false)
    (hroom : cmdArg w 1 + cmdArg w 2 ≤ x.progCount) (hbuf : Buffer w (32 * cmdArg w 2)) (hlen : bs.length = 32 * cmdArg w 2) :
    progLoadReply m (some bs) w s = (.done, (onesOf (BitVec.ofNat 20 (cmdArg w 0))).foldl
      (fun st d => st.loadProgram (cmdTarget m w) x d (cmdArg w 1)
        ((List.range (cmdArg w 2)).map fun i => wordOf 256 (slice bs (32 * i) 32))) s) := by
  rw [progLoadReply, withCtx_some hctx, if_neg (Nat.not_le.mpr hmask), hstopped, if_neg Bool.false_ne_true,
    if_neg (Nat.not_lt.mpr hroom), dataIn_buffer hbuf hlen]

/-- No argument is wrong exactly where the run of descriptors ends within the context's 4,096 (15 DESC_WRITE). -/
theorem descArgs_eq_none_iff : descArgs w = none ↔ cmdArg w 0 + cmdArg w 1 ≤ 4096 := by
  unfold descArgs
  split
  · exact iff_of_false (Option.some_ne_none _) (by omega)
  · split
    · exact iff_of_false (Option.some_ne_none _) (by omega)
    · exact iff_of_true rfl (by omega)

/-- Descriptors within the table are written. -/
theorem descWriteReply_done (hctx : s.ctx (cmdTarget m w) = some x) (hin : cmdArg w 0 + cmdArg w 1 ≤ 4096)
    (hbuf : Buffer w (64 * cmdArg w 1)) (hlen : bs.length = 64 * cmdArg w 1) :
    descWriteReply m (some bs) w s = (.done, s.updCtx (cmdTarget m w) fun y => { y with
      descs := (List.range (cmdArg w 1)).foldl (fun t i =>
        SMap.put 0 t (cmdArg w 0 + i) (wordOf 512 (slice bs (64 * i) 64))) y.descs }) := by
  rw [descWriteReply, withCtx_some hctx]
  simp only [descArgs_eq_none_iff.mpr hin, dataIn_buffer hbuf hlen]

/-- A form for a slot that fall-back control does not manage waits for the next MK while streams run; else it takes effect
at once, in place of one that waits (01 R23; log 123). -/
theorem slotWriteReply_done (hctx : s.ctx (cmdTarget m w) = some x) (hslot : cmdArg w 0 ≤ 255)
    (hform : slotFormOk (cmdArg w 1) = true)
    (hunmanaged : ∀ p, x.policySet = some p → slotEnable (polSlot p (cmdArg w 0)) = false) :
    slotWriteReply m w s = (.done, s.updCtx (cmdTarget m w) fun y => if x.running
      then { y with slotWrites := SMap.insert y.slotWrites (cmdArg w 0) (setFld (SMap.get 0 x.slots (cmdArg w 0)) 4 0 (cmdArg w 1)) }
      else { y with
        slots := SMap.put 0 y.slots (cmdArg w 0) (setFld (SMap.get 0 x.slots (cmdArg w 0)) 4 0 (cmdArg w 1))
        slotWrites := y.slotWrites.filter (·.1 ≠ cmdArg w 0) }) := by
  rw [slotWriteReply, withCtx_some hctx, if_neg (Nat.not_lt.mpr hslot), hform, if_neg (by decide), if_neg ?managed]
  case managed =>
    split
    next p hset => exact Bool.eq_false_iff.mp (hunmanaged p hset)
    next => exact Bool.false_ne_true
  cases x.running <;> rfl

end

/-- Settles O27: each command passes its row's checks in turn, and the row's body then writes what it names. -/
theorem contextTables : Obligations.ContextTables := by
  intro s m w x bs c hctx
  refine ⟨?program, ?descriptors, ?slot⟩
  case program =>
    intro hruns hmask hstopped hroom hbuf hlen
    change execProgLoad m (some bs) s = _
    exact suphor_of_reply hruns rfl (progLoadReply_done hctx hmask hstopped hroom hbuf hlen)
  case descriptors =>
    intro hruns hin hbuf hlen
    change execDescWrite m (some bs) s = _
    exact suphor_of_reply hruns rfl (descWriteReply_done hctx hin hbuf hlen)
  case slot =>
    intro hruns hslot hform hunmanaged
    change execSlotWrite m s = _
    exact suphor_of_reply hruns rfl (slotWriteReply_done hctx hslot hform hunmanaged)

end Sys2Proof.Machine
end

section
/-! SUPPORT. Proofs: the link layer. What leaves every link alone, what a link's states become as it leaves and enters service, and
what its codewords and control flits lead to (10 R232 to R238). -/
namespace Sys2Proof.Machine

/-! ### Operations that leave every link alone

Memory, records, events and faults: what accompanies a link's change of state. -/

@[simp] theorem State.write_links (s : State) (p : Place) (bs : Bytes) (poison : Bool) : (s.write p bs poison).links = s.links := by
  have h : (s.write p bs poison).unstored.links = s.unstored.links := by rw [s.unstored_write]
  exact h

@[simp] theorem State.postEvent_links (s : State) (m : Mbx) (r : Bytes) : (s.postEvent m r).links = s.links := by
  unfold State.postEvent
  dsimp only
  split
  · rfl
  · split
    · split <;> rfl
    · split
      · rfl
      · split <;> simp only [State.raise_links, State.updMbx_links, State.write_links]

@[simp] theorem State.post_links (s : State) (c : Option Nat) (r : Bytes) : (s.post c r).links = s.links := by
  unfold State.post
  cases c with
  | none => simp
  | some c => dsimp only; split <;> simp

@[simp] theorem State.makeRec_links (s : State) (d : Die) (type tier : Nat) (device : Bool) (step ctx : Option Nat) (body : Bytes) :
    (s.makeRec d type tier device step ctx body).2.links = s.links := rfl

@[simp] theorem State.enqueue_links (s : State) (r : Rec) : (s.enqueue r).links = s.links := by
  unfold State.enqueue
  dsimp only
  split <;> rfl

@[simp] theorem State.log_links (s : State) (d : Die) (type tier : Nat) (c : Option Nat) (toHost : Bool) (body : Bytes) :
    (s.log d type tier c toHost body).links = s.links := by
  unfold State.log State.logWith
  dsimp only
  split <;> simp

@[simp] theorem State.hostEvent_links (s : State) (type : Nat) (c : Option Nat) (body : Bytes) :
    (s.hostEvent type c body).links = s.links := by
  simp [State.hostEvent]

@[simp] theorem State.geometryChange_links (s : State) (inst : Nat) : (s.geometryChange inst).links = s.links := by
  simp [State.geometryChange]

@[simp] theorem State.countFault_links (s : State) (d : Die) (c : Option Nat) (f : FaultInfo) :
    (s.countFault d c f).links = s.links := by
  unfold State.countFault
  split <;> simp

@[simp] theorem State.stopFault_links (s : State) (d : Die) (c : Ctx) (addr : Nat) (f : FaultInfo) (cause : StopCause) :
    (s.stopFault d c addr f cause).links = s.links := by
  simp [State.stopFault, State.recordFault]

@[simp] theorem State.fabricFault_links (s : State) (d : Die) (who : Option (Nat × Nat)) (sub node : Nat) :
    (s.fabricFault d who sub node).links = s.links := by
  refine foldl_eq_of_step State.links (fun st c => ?_) _ s
  split
  · next x _ =>
    extract_lets mine
    split
    · exact st.stopFault_links ..
    · rfl
  · rfl

@[simp] theorem State.judgeIsolation_links (s : State) (l : Link) : (s.judgeIsolation l).links = s.links := by
  unfold State.judgeIsolation
  split
  · rfl
  · exact s.fabricFault_links ..

@[simp] theorem State.judgePort_links (s : State) (port : Nat) : (s.judgePort port).links = s.links := by
  unfold State.judgePort
  dsimp only
  split
  · rfl
  · simp

@[simp] theorem State.linkRecord_links (s : State) (l : Link) (action reason : Nat) : (s.linkRecord l action reason).links = s.links :=
  s.log_links ..

@[simp] theorem State.offer_links (s : State) (p : Pkt) : (s.offer p).links = s.links := by
  unfold State.offer
  split <;> rfl

@[simp] theorem State.nak_links (s : State) (die : Die) (p : Pkt) (reason : Nat) : (s.nak die p reason).links = s.links := by
  unfold State.nak
  split <;> simp

/-- Links that stand as they did read as they did. -/
theorem State.link_eq_of_links {s t : State} (h : t.links = s.links) (l : Link) : t.link l = s.link l := by
  simp only [State.link, h]

@[simp] theorem State.link_linkRecord (s : State) (l k : Link) (action reason : Nat) :
    (s.linkRecord l action reason).link k = s.link k :=
  State.link_eq_of_links (s.linkRecord_links ..) k

@[simp] theorem State.link_judgePort (s : State) (port : Nat) (k : Link) : (s.judgePort port).link k = s.link k :=
  State.link_eq_of_links (s.judgePort_links port) k

@[simp] theorem State.link_judgeIsolation (s : State) (l k : Link) : (s.judgeIsolation l).link k = s.link k :=
  State.link_eq_of_links (s.judgeIsolation_links l) k

@[simp] theorem State.link_nak (s : State) (die : Die) (p : Pkt) (reason : Nat) (k : Link) :
    (s.nak die p reason).link k = s.link k :=
  State.link_eq_of_links (s.nak_links ..) k

/-! ### Operations that leave every link's state

The router fills a link's slots and spends its credits; it takes no link out of service. -/

/-- An update of a link that leaves its state leaves the state of every link. -/
theorem State.state_updLink {s : State} {l : Link} {f : LinkSt → LinkSt} (k : Link)
    (hf : ∀ x, (f x).state = x.state := by exact fun _ => rfl) :
    ((s.updLink l f).link k).state = (s.link k).state := by
  rw [State.link_updLink]
  split
  · next h => rw [hf, h]
  · rfl

@[simp] theorem State.state_emit (s : State) (l k : Link) (slots : List OutSlot) :
    ((s.emit l slots).link k).state = (s.link k).state := by
  have hfill : ((s.updLink l fun x => x.fill slots).link k).state = (s.link k).state := State.state_updLink k
  unfold State.emit
  dsimp only
  split
  · exact hfill
  · rw [State.link_count, hfill]

@[simp] theorem State.state_freeBuffer (s : State) (from_ : Option Nat) (p : Pkt) (k : Link) :
    ((s.freeBuffer from_ p).link k).state = (s.link k).state := by
  cases from_ with
  | none => rfl
  | some l => exact State.state_updLink k

@[simp] theorem State.state_discard (s : State) (from_ : Option Nat) (p : Pkt) (cause : Nat) (k : Link) :
    ((s.discard from_ p cause).link k).state = (s.link k).state := by
  rw [State.discard, State.link_count, State.state_freeBuffer]

@[simp] theorem State.state_sendHop (s : State) (p : Pkt) (h : Hop) (k : Link) :
    ((s.sendHop p h).link k).state = (s.link k).state := by
  rw [State.sendHop, State.state_emit, State.addUnits, State.link_updDie]
  exact State.state_updLink k

@[simp] theorem State.link_noteSent (s : State) (w : Waiting) (hs : List Hop) (k : Link) : (s.noteSent w hs).link k = s.link k := by
  unfold State.noteSent
  split
  · exact State.link_updDie ..
  · rfl

@[simp] theorem State.state_advanceAt (s : State) (i : Nat) (k : Link) : ((s.advanceAt i).link k).state = (s.link k).state := by
  unfold State.advanceAt
  split
  · rfl
  · next w _ =>
    extract_lets +onlyGivenNames fabric without
    have hwithout : without.link k = s.link k := rfl
    split
    · rw [State.link_eq_of_links (State.offer_links ..), State.state_freeBuffer, hwithout]
    · split
      · rfl
      · rw [State.link_nak, State.state_discard, hwithout]
      · split
        · rfl
        · next hs _ _ =>
          rw [foldl_eq_of_step (fun st : State => (st.link k).state) (fun st h => st.state_sendHop w.pkt h k),
            State.state_freeBuffer, State.link_noteSent, hwithout]

@[simp] theorem State.state_buffer (s : State) (from_ : Option Nat) (p : Pkt) (k : Link) :
    ((s.buffer from_ p).link k).state = (s.link k).state :=
  State.state_advanceAt _ _ k

@[simp] theorem State.state_closeLinks (s : State) (k : Link) : (s.closeLinks.link k).state = (s.link k).state := by
  refine foldl_eq_of_step (fun st : State => (st.link k).state) (fun st l => ?_) _ s
  dsimp only
  split
  · rfl
  · exact st.state_emit ..

@[simp] theorem State.state_enter (s : State) (from_ : Option Nat) (p : Pkt) (k : Link) :
    ((s.enter from_ p).link k).state = (s.link k).state := by
  unfold State.enter
  extract_lets d fabric delivered e
  have hdelivered : delivered.link k = s.link k := by
    unfold delivered
    split <;> rfl
  split
  · exact s.state_discard ..
  split
  · exact s.state_discard ..
  split
  · rw [State.link_nak, State.state_discard]
  split
  · split
    · rw [State.state_freeBuffer, hdelivered]
    · rw [State.state_buffer, hdelivered]
  split
  · rw [State.link_eq_of_links (State.offer_links ..), State.state_freeBuffer]
  split
  · rw [State.link_nak, State.state_discard]
  split
  · rw [State.link_nak, State.state_discard]
  · exact s.state_buffer ..

/-! ### Leaving and entering service -/

/-- A link that leaves service trains again, or has FAILED at its third exit in a minute (R238). -/
theorem State.state_leaveService (s : State) (l : Link) (reason : Nat) :
    ((s.leaveService l reason).link l).state = 1 ∨ ((s.leaveService l reason).link l).state = 3 := by
  unfold State.leaveService
  extract_lets x exits next lost begun again refused cut left recorded forgotten fabric released answered entered
  have hleft : (left.link l).state = BitVec.ofNat 2 next := by simp [left]
  have hreleased : released.links = forgotten.links := rfl
  have hanswered : answered.links = released.links :=
    foldl_eq_of_step State.links (fun st p => st.nak_links (linkDie l) p 4) refused released
  have hentered : (entered.link l).state = BitVec.ofNat 2 next :=
    calc (entered.link l).state
      _ = ((answered.judgePort (l.val / 4)).link l).state :=
          foldl_eq_of_step (fun st : State => (st.link l).state) (fun st p => st.state_enter none (unsent p) l) again _
      _ = (forgotten.link l).state := by rw [State.link_judgePort, State.link_eq_of_links (hanswered.trans hreleased)]
      _ = (recorded.link l).state := recorded.state_updLink l
      _ = BitVec.ofNat 2 next := by simp only [recorded, State.link_linkRecord, State.link_count, hleft]
  rw [State.link_judgeIsolation, State.state_closeLinks, hentered]
  unfold next
  split
  · exact .inr rfl
  · exact .inl rfl

/-- A link that comes up is in service, and its codewords are numbered from 0 again (R233, R234). -/
theorem State.link_comeUp (s : State) (l : Link) : ((s.comeUp l).link l).state = 2 ∧ ((s.comeUp l).link l).txSeq = 0 := by
  simp [State.comeUp]

@[simp] theorem State.link_sayHello_same (s : State) (l : Link) : (s.sayHello l).link l =
    { s.link l with
      trained := true
      control := [(s.link l).controlFlit 4 0 0 (s.helloBits l)]
      resent := [] } := by
  simp [State.sayHello]

/-- A trained link whose peer's HELLO fits comes up (R233). -/
theorem State.meetHello_of_fits {s : State} {l : Link} {h : BitVec 33} (hfits : helloFits l h = true)
    (htraining : (s.link l).state = 1) (htrained : (s.link l).trained = true) :
    s.meetHello l h = (s.updLink l fun x => { x with hello := some h }).comeUp l := by
  simp [State.meetHello, hfits, htraining, htrained]

/-- A training link whose peer's HELLO does not fit goes down (R238). -/
theorem State.state_meetHello_of_unfit {s : State} {l : Link} {h : BitVec 33} (hunfit : helloFits l h = false)
    (htraining : (s.link l).state = 1) : ((s.meetHello l h).link l).state = 0 := by
  simp [State.meetHello, hunfit, htraining]

/-! ### Control flits -/

/-- The row of a flit's own kind takes it, where the link's lanes run. -/
theorem controlRow_of_kind {l : Link} {f : BitVec 512} {kind : Nat} {s : State} (hup : (s.link l).state ≠ 0)
    (hok : (s.link l).state ≠ 3) (hkind : flitKind f = kind) :
    controlRow l f kind s = .next (((s.quietLink l).count (linkDie l) 0x702 l none).controlFlit l f) := by
  simp only [controlRow, hkind, hup, hok, ne_eq, not_true_eq_false, decide_false, Bool.or_self, Bool.false_eq_true, if_false]

/-- Settles O45: each row is the row of its kind, and a HELLO is judged by what it reports. -/
theorem controlFlitRows : Obligations.ControlFlitRows := by
  intro l f s hup hok
  refine ⟨controlRow_of_kind hup hok, controlRow_of_kind hup hok, controlRow_of_kind hup hok, controlRow_of_kind hup hok,
    controlRow_of_kind hup hok, fun hlive hclosed => ?alone, fun hlive hopen => ?within, fun h htraining => ⟨?fits, ?unfit⟩⟩
  case alone =>
    change execControlFlitInterval l s = _
    simp only [execControlFlitInterval, hlive, hclosed, ne_eq, not_true_eq_false, List.isEmpty_nil, if_false, if_true]
  case within =>
    change execControlFlitInterval l s = _
    simp only [execControlFlitInterval, hlive, List.isEmpty_eq_false_iff.mpr hopen, ne_eq, not_true_eq_false,
      Bool.false_eq_true, if_false]
  case fits =>
    intro hfits htrained
    rw [State.meetHello_of_fits hfits htraining htrained]
    exact (State.link_comeUp _ l).1
  case unfit => exact fun hunfit => State.state_meetHello_of_unfit hunfit htraining

/-! ### Codewords -/

/-- The link with a codeword counted that came whole or could be corrected (R237). -/
def State.codewordCounted (s : State) (l : Link) (r : LinkCw) : State :=
  let q := (s.quietLink l).updLink l fun x => { x with correctedSymbols := x.correctedSymbols + BitVec.ofNat 32 r.corrected }
  (if r.corrected = 0 then q else q.count (linkDie l) 0x703 l none r.corrected).count (linkDie l) 0x702 l none 10

/-- The link with a codeword counted that could not be corrected (R237). -/
def State.codewordLost (s : State) (l : Link) : State :=
  ((s.quietLink l).updLink l fun x => { x with
    uncorrected := BitVec.ofNat 32 (satAdd 32 x.uncorrected.toNat 1) }).count (linkDie l) 0x704 l none

section
variable {s : State} {l : Link} {r : LinkCw} (hup : (s.link l).state ≠ 0) (hok : (s.link l).state ≠ 3)
include hup hok

/-- A codeword that can be read is taken where it is unsequenced or in order, dropped where it came before, is asked for already
or meets a training link, and else begins a replay (R234, R237). -/
theorem execLinkCodewordReceived_of_good (hgood : r.good = true) :
    execLinkCodewordReceived l r s = .next (
      if fld r.control 19 10 = 1023 then (s.codewordCounted l r).takeSlots l r
      else if fld r.control 19 10 = (s.link l).expected then
        ((s.codewordCounted l r).updLink l fun x => { x with
          rxSeq := fld r.control 19 10, rxAny := true, waitingReplay := false }).takeSlots l r
      else if (s.link l).waitingReplay = true ∨ ((s.link l).expected + 1023 - fld r.control 19 10) % 1023 ≤ 512 ∨ (s.link l).state ≠ 2
        then s.codewordCounted l r
      else (s.codewordCounted l r).askReplay l (s.link l).expected) := by
  simp only [execLinkCodewordReceived, hup, hok, hgood, Bool.not_true, Bool.false_eq_true, decide_false, Bool.or_self, if_false]
  split
  · rfl
  · split
    · rfl
    · simp only [Bool.or_eq_true, decide_eq_true_eq, or_assoc]
      split <;> rfl

/-- One that cannot be read is counted, and a link in service asks for it again (R237). -/
theorem execLinkCodewordReceived_of_bad (hbad : r.good = false) :
    execLinkCodewordReceived l r s = .next (
      if (s.link l).state = 2 then (s.codewordLost l).askReplay l (s.link l).expected else s.codewordLost l) := by
  simp only [execLinkCodewordReceived, hup, hok, hbad, Bool.not_false, Bool.false_eq_true, decide_false, Bool.or_self, if_false,
    if_true, ne_eq, ite_not]
  rfl

end

/-- Asking for a codeword that could not be read leaves RX_SEQ (R237). -/
theorem State.rxSeq_askReplay_codewordLost (s : State) (l : Link) (due : Nat) :
    (((s.codewordLost l).askReplay l due).link l).rxSeq = (s.link l).rxSeq := by
  simp [State.codewordLost, State.askReplay, State.quietLink]

/-! ### Lanes -/

/-- A lane that loses lock takes its link out of service (R238). -/
theorem execLaneLockLost_of_live {s : State} {l : Link} (lane : Fin 8) (hlive : (s.link l).state = 2) :
    execLaneLockLost l lane s = .next (s.leaveService l 3) ∧ ((s.leaveService l 3).link l).state ≠ 2 := by
  refine ⟨by rw [execLaneLockLost, if_pos hlive], ?_⟩
  rcases s.state_leaveService l 3 with h | h <;> simp [h]

/-- One of a training link ends its training (R238). -/
theorem execLaneLockLost_of_training {s : State} {l : Link} (lane : Fin 8) (htraining : (s.link l).state = 1) :
    execLaneLockLost l lane s = .next (s.updLink l fun x => { x with trained := false }) := by
  simp [execLaneLockLost, htraining]

/-- A link that has trained sends its HELLO, and comes up if its peer's has come and fits (R233). -/
theorem execLinkRetrainDone_of_trained {s : State} {l : Link} (htraining : (s.link l).state = 1) (hclock : s.power.fabRefclk = true) :
    execLinkRetrainDone l true s =
      .next (if (s.link l).hello.any (helloFits l) then (s.sayHello l).comeUp l else s.sayHello l) := by
  simp [execLinkRetrainDone, htraining, hclock]

/-- Training that fails leaves a link that was never in service down, and fails one that was (R238). -/
theorem execLinkRetrainDone_of_failed {s : State} {l : Link} (htraining : (s.link l).state = 1) :
    execLinkRetrainDone l false s = .next (
      if (s.link l).fresh then (s.updLink l fun x => { x with state := 0, trained := false }).linkRecord l 0 5
      else (s.updLink l fun x => { x with state := 3, trained := false }).linkRecord l 3 5) := by
  cases hfresh : (s.link l).fresh <;> simp [execLinkRetrainDone, htraining, hfresh]

/-- Settles O46: a codeword's number and a link's state pick the branch; nothing that follows a link out of service brings it
back. -/
theorem linkRows : Obligations.LinkRows := by
  refine ⟨fun l r s hup hok => ?codewords,
    fun l lane s => ⟨execLaneLockLost_of_live lane, execLaneLockLost_of_training lane⟩,
    fun l s htraining => ⟨fun hclock hfits => ⟨?up, (State.link_comeUp _ l).1, (State.link_comeUp _ l).2⟩,
      fun hclock hunfit => ⟨?trained, ?hello⟩, fun hfresh => ?down, fun hused => ?failed⟩⟩
  case codewords =>
    intro d seq due q t bad
    have hgood (h : r.good = true) : exec (.linkCodewordReceived l r) s = _ := execLinkCodewordReceived_of_good hup hok h
    have hbad (h : r.good = false) : exec (.linkCodewordReceived l r) s = _ := execLinkCodewordReceived_of_bad hup hok h
    refine ⟨fun h hseq => ?unsequenced, fun h hseq hdue => ?inOrder, fun h hseq hdue hlive hwaiting hahead => ?ahead,
      fun h hseq hdue hdropped => ?dropped, fun h hlive => ⟨?lost, s.rxSeq_askReplay_codewordLost l due⟩,
      fun h hlive => ?lostInTraining⟩
    case unsequenced => rw [hgood h, if_pos hseq]; rfl
    case inOrder => rw [hgood h, if_neg hseq, if_pos hdue]; rfl
    case ahead =>
      have hasked : ¬ ((s.link l).waitingReplay = true ∨ (due + 1023 - seq) % 1023 ≤ 512 ∨ (s.link l).state ≠ 2) := by
        simp [hwaiting, hlive, hahead]
      rw [hgood h, if_neg hseq, if_neg hdue, if_neg hasked]; rfl
    case dropped => rw [hgood h, if_neg hseq, if_neg hdue, if_pos hdropped]; rfl
    case lost => rw [hbad h, if_pos hlive]; rfl
    case lostInTraining => rw [hbad h, if_neg hlive]; rfl
  case up =>
    change execLinkRetrainDone l true s = _
    rw [execLinkRetrainDone_of_trained htraining hclock, if_pos hfits]
  case trained =>
    change execLinkRetrainDone l true s = _
    rw [execLinkRetrainDone_of_trained htraining hclock, hunfit, if_neg Bool.false_ne_true]
  case hello => rw [State.link_sayHello_same]
  case down =>
    change execLinkRetrainDone l false s = _
    rw [execLinkRetrainDone_of_failed htraining, if_pos hfresh]
  case failed =>
    change execLinkRetrainDone l false s = _
    rw [execLinkRetrainDone_of_failed htraining, hused, if_neg Bool.false_ne_true]

end Sys2Proof.Machine
end

section
/-! SUPPORT. Proofs: the router. A packet for this device goes to its inbox, and one that stays too long is given up (10 R245, R249). -/
namespace Sys2Proof.Machine

/-- A sound unicast packet for this device leaves its buffer and is offered to its inbox (R245). -/
theorem State.enter_of_home {s : State} {p : Pkt} (from_ : Option Nat) (hhead : p.headOk = true) (hvalid : p.valid = true)
    (hunicast : p.mcast = false) (hhops : p.hops < 64) (hhome : p.dst = s.node) :
    s.enter from_ p = (s.freeBuffer from_ p).offer p := by
  simp only [State.enter, hhead, hvalid, hunicast, Nat.not_le.mpr hhops, hhome, Bool.not_true, Bool.false_and, Bool.or_self,
    Bool.false_eq_true, if_false, if_true]

/-- A packet that has waited for too long is discarded with a NAK (R249). -/
theorem execPacketStaleTimeout_of_waiting {s : State} {w : Waiting} {k : Nat} (hwaits : s.fabric.waiting[k]? = some w) :
    execPacketStaleTimeout k s = .next
      ((({ s with fabric := { s.fabric with waiting := s.fabric.waiting.eraseIdx k } } : State).discard w.from_ w.pkt 3).nak
        (routerDie w.from_ w.pkt) w.pkt 0xA).closeLinks := by
  simp only [execPacketStaleTimeout, hwaits]

/-- Settles O47: arrival and advance are the router's own operations, and the packet that waits at the index is the one given up. -/
theorem routerRows : Obligations.RouterRows := by
  refine fun s p w k l => ⟨rfl, fun hhead hvalid hunicast hhops hhome => ?_, rfl, execPacketStaleTimeout_of_waiting⟩
  exact congrArg (fun t => Host.Outcome.next (State.closeLinks t)) (State.enter_of_home none hhead hvalid hunicast hhops hhome)

end Sys2Proof.Machine
end

section
/-! SUPPORT. Proofs: receipt at the destination die. What tracking and the checks make of a packet, and what a SIGNAL adds (10 R251 to
R258, R262; 11 R274). -/
namespace Sys2Proof.Machine

/-! ### Packets that are answered -/

section
variable {s : State} {p : Pkt} {ty : Nat} (hty : p.ty = ty) (hmine : s.isMine p = true) (hpayload : p.payloadOk = true)
include hty hmine hpayload

/-- A packet that is new and may land has its effect, or enters the reorder store (R258, R262). -/
theorem State.receive_of_allowed (hfresh : (s.die (dieOf p.dstDie)).seen p = .fresh)
    (hallowed : (s.unbox p).refusal (dieOf p.dstDie) p = none) :
    s.receive ty p = if p.seqSpace = 1 then (s.unbox p).storeOrdered (dieOf p.dstDie) p
      else ((((s.unbox p).markSeq (dieOf p.dstDie) p).effect (dieOf p.dstDie) p).ackFor (dieOf p.dstDie) p false).drainAll := by
  have hseen : ((s.unbox p).die (dieOf p.dstDie)).seen p = .fresh := hfresh
  simp only [State.receive, hty, hmine, hpayload, hseen, hallowed, ne_eq, not_true_eq_false, decide_false, Bool.not_true, Bool.or_self,
    Bool.false_eq_true, if_false]

/-- One that is new and may not land is refused with a NAK (R255, R256). -/
theorem State.receive_of_refused {r : Nat} (hfresh : (s.die (dieOf p.dstDie)).seen p = .fresh)
    (hrefused : (s.unbox p).refusal (dieOf p.dstDie) p = some r) :
    s.receive ty p = (s.unbox p).nak (dieOf p.dstDie) p r := by
  have hseen : ((s.unbox p).die (dieOf p.dstDie)).seen p = .fresh := hfresh
  simp only [State.receive, hty, hmine, hpayload, hseen, hrefused, ne_eq, not_true_eq_false, decide_false, Bool.not_true, Bool.or_self,
    Bool.false_eq_true, if_false]

/-- A duplicate is counted and acknowledged at once (R258). -/
theorem State.receive_of_duplicate (hduplicate : (s.die (dieOf p.dstDie)).seen p = .duplicate) :
    s.receive ty p = ((s.unbox p).count (dieOf p.dstDie) 0x70C 0 (some p.ctx)).ackFor (dieOf p.dstDie) p true := by
  have hseen : ((s.unbox p).die (dieOf p.dstDie)).seen p = .duplicate := hduplicate
  simp only [State.receive, hty, hmine, hpayload, hseen, ne_eq, not_true_eq_false, decide_false, Bool.not_true, Bool.or_self,
    Bool.false_eq_true, if_false]

end

/-! ### SIGNAL (R254) -/

/-- A SIGNAL to a context of a die of the device is never refused. -/
theorem State.refusal_of_signal {s : State} {p : Pkt} {x : CtxSt} (d : Die) (hty : p.ty = 2) (hdie : p.dstDie ≤ 19)
    (hctx : s.ctx (ctxOf p.ctx) = some x) : s.refusal d p = none := by
  simp [State.refusal, hty, hctx, hdie]

/-- A semaphore reads as its table and its context give it. -/
theorem State.sem_congr {s t : State} (hctxs : t.ctxs = s.ctxs) (hsems : t.sems = s.sems) (d : Die) (c : Ctx) (i : Nat) :
    t.sem d c i = s.sem d c i := by
  simp only [State.sem, State.ctx_eq_of_ctxs hctxs, hsems]

/-- What is added to a semaphore that the context holds is read back (01 R15). -/
theorem State.sem_semAdd_same {s : State} {c : Ctx} {x : CtxSt} {i : Nat} (hwf : SMap.wf 0 s.sems = true) (hctx : s.ctx c = some x)
    (hheld : i < x.semCount) (d : Die) (v : BitVec 32) : (s.semAdd d c i v).sem d c i = s.sem d c i + v := by
  have hset : s.semAdd d c i v = { s with sems := SMap.put 0 s.sems (semKey d x.semBase i) (s.sem d c i + v) } := by
    simp only [State.semAdd, State.semSet, hctx, hheld, if_true]
  have hctx' : (s.semAdd d c i v).ctx c = some x := (State.ctx_eq_of_ctxs (s.semAdd_ctxs d c i v) c).trans hctx
  rw [State.sem, hctx', hset]
  exact SMap.get_put_same hwf _ _

@[simp] theorem State.offer_ctxs (s : State) (p : Pkt) : (s.offer p).ctxs = s.ctxs := by
  unfold State.offer
  split <;> rfl

@[simp] theorem State.offer_sems (s : State) (p : Pkt) : (s.offer p).sems = s.sems := by
  unfold State.offer
  split <;> rfl

/-- Acknowledging a packet changes no context and no semaphore. -/
theorem State.ackFor_semaphores (s : State) (d : Die) (p : Pkt) (now : Bool) :
    (s.ackFor d p now).ctxs = s.ctxs ∧ (s.ackFor d p now).sems = s.sems := by
  unfold State.ackFor
  split
  · exact ⟨rfl, rfl⟩
  · split
    · split
      · simp [State.sendAck]
      · exact ⟨rfl, rfl⟩
    · exact ⟨rfl, rfl⟩

/-- Settles O48: a new SIGNAL's one effect is its addition, and neither marking nor acknowledging touches a semaphore. -/
theorem signalAdds : Obligations.SignalAdds := by
  intro s p x hty hmine hpayload hdie d c hwf hctx hheld
  obtain ⟨-, -, -, hsems, -⟩ := hwf
  have hallowed : (s.unbox p).refusal d p = none := State.refusal_of_signal (x := x) d hty hdie hctx
  refine ⟨fun hfresh hspace => ⟨_, congrArg Host.Outcome.next
      ((State.receive_of_allowed hty hmine hpayload hfresh hallowed).trans (if_neg hspace)), ?added⟩,
    fun hfresh hspace => congrArg Host.Outcome.next
      ((State.receive_of_allowed hty hmine hpayload hfresh hallowed).trans (if_pos hspace)),
    fun hduplicate => ⟨_, congrArg Host.Outcome.next (State.receive_of_duplicate hty hmine hpayload hduplicate),
      (State.ackFor_semaphores ..).2.trans (State.count_sems ..)⟩⟩
  case added =>
    have hmarked : ((s.unbox p).markSeq d p).ctxs = s.ctxs := State.updDies_ctxs ..
    have hkept : ((s.unbox p).markSeq d p).sems = s.sems := State.updDies_sems ..
    generalize (s.unbox p).markSeq d p = marked at hmarked hkept ⊢
    obtain ⟨hctxs, hsame⟩ := State.ackFor_semaphores (marked.effect d p) d p false
    have hadds : marked.effect d p = marked.semAdd d c p.notifySem (BitVec.ofNat 32 p.notifyVal) := by
      simp only [State.effect, hty, c]
    rw [State.sem_congr hctxs hsame, hadds, State.sem_semAdd_same (x := x) (hkept.symm ▸ hsems)
      ((State.ctx_eq_of_ctxs hmarked c).trans hctx) hheld, State.sem_congr hmarked hkept]

/-! ### Collective and express packets (11 R274, R285) -/

/-- What the unit's answer makes of a collective packet: one that is taken counts as received, and one that is refused has its NAK
(11 R274). -/
def CollAnswer.received (d : Die) (p : Pkt) : CollAnswer → State
  | .taken t => (((t.markSeq d p).countMessage d p).ackFor d p false).drainAll
  | .refused r t => t.nak d p r

section
variable {s t : State} {p : Pkt} (hmine : s.isMine p = true) (hpayload : p.payloadOk = true) (hdie : p.dstDie ≤ 19)
include hmine hpayload hdie

/-- A collective packet that is new and of a message that may be counted enters the reorder store, or is taken or refused as the
unit answers it. -/
theorem execCollReceived_of_fresh (hty : p.ty = 5) (hfresh : ((s.unbox p).die (dieOf p.dstDie)).seen p = .fresh)
    (hcounts : ((s.unbox p).die (dieOf p.dstDie)).msgRefusal p = none) :
    execCollReceived p s = .next (if p.seqSpace = 1 then (s.unbox p).storeOrdered (dieOf p.dstDie) p
      else ((s.unbox p).offerColl (dieOf p.dstDie) p).received (dieOf p.dstDie) p) := by
  simp only [execCollReceived, hty, hmine, hpayload, hfresh, hcounts, Nat.not_lt.mpr hdie, ne_eq, not_true_eq_false, decide_false,
    Bool.not_true, Bool.or_self, Bool.false_eq_true, if_false]
  split
  · rfl
  · cases (s.unbox p).offerColl (dieOf p.dstDie) p <;> rfl

/-- An express packet that is new counts as received where the unit keeps it, and is never answered (R241). -/
theorem execExpressReceived_of_fresh (hty : p.ty = 6) (hfresh : ((s.unbox p).die (dieOf p.dstDie)).seen p = .fresh) :
    execExpressReceived p s = .next (if ((s.unbox p).offerExpress (dieOf p.dstDie) p).2
      then ((s.unbox p).offerExpress (dieOf p.dstDie) p).1.markSeq (dieOf p.dstDie) p
      else ((s.unbox p).offerExpress (dieOf p.dstDie) p).1) := by
  simp only [execExpressReceived, hty, hmine, hpayload, hfresh, Nat.not_lt.mpr hdie, ne_eq, not_true_eq_false, decide_false,
    Bool.not_true, Bool.or_self, Bool.false_eq_true, if_false]

end

/-- Settles O49: tracking calls the packet new, and its checks, its space or the unit's answer pick what becomes of it. -/
theorem receiptRows : Obligations.ReceiptRows := by
  refine ⟨fun s p x r hmine hpayload => ?answered, fun s t p hmine hpayload hdie => ?units⟩
  case answered =>
    intro d t u done
    refine ⟨fun hfresh hallowed => ⟨fun hty => ?put, fun hty => ?response⟩,
      fun hfresh hrefused => ⟨fun hty => ?putRefused, fun hty => ?responseRefused⟩, fun hmine' hfresh hallowed hty => ?request⟩
    case put => exact congrArg Host.Outcome.next (State.receive_of_allowed hty hmine hpayload hfresh hallowed)
    case response => exact congrArg Host.Outcome.next (State.receive_of_allowed hty hmine hpayload hfresh hallowed)
    case putRefused => exact congrArg Host.Outcome.next (State.receive_of_refused hty hmine hpayload hfresh hrefused)
    case responseRefused => exact congrArg Host.Outcome.next (State.receive_of_refused hty hmine hpayload hfresh hrefused)
    case request => exact congrArg Host.Outcome.next (State.receive_of_allowed hty hmine' hpayload hfresh hallowed)
  case units =>
    intro d u
    refine ⟨fun hty hfresh hcounts => ?_, fun hty hfresh kept hkept => ?express⟩
    · have hcoll : exec (.collReceived p) s = _ := execCollReceived_of_fresh hmine hpayload hdie hty hfresh hcounts
      refine ⟨fun hspace => ?ordered, fun hspace htaken => ?taken, fun r hspace hrefused => ?refused⟩
      case ordered => rw [hcoll, if_pos hspace]
      case taken => rw [hcoll, if_neg hspace, htaken]; rfl
      case refused => rw [hcoll, if_neg hspace, hrefused]; rfl
    case express =>
      change execExpressReceived p s = _
      rw [execExpressReceived_of_fresh hmine hpayload hdie hty hfresh, hkept]

end Sys2Proof.Machine
end

section
/-! SUPPORT. Proofs: answers and timers at a packet's source. What an answer takes off the source's list, whom a refusal for good stops,
and what each timer sends (10 R257 to R260, R265). -/
namespace Sys2Proof.Machine

/-! ### Answers -/

@[simp] theorem State.unacked_count (s : State) (d e : Die) (ev qual : Nat) (c : Option Nat) (n : Nat) :
    ((s.count d ev qual c n).die e).unacked = (s.die e).unacked := by
  rw [State.count, State.die_updDie]
  split
  · next h => rw [h]
  · rfl

@[simp] theorem State.unacked_measure (s : State) (d e : Die) (source qual : Nat) (c : Option Nat) (start : Nat) :
    ((s.measure d source qual c start).die e).unacked = (s.die e).unacked := by
  unfold State.measure
  split
  · dsimp only
    rw [State.die_updDie]
    split
    · next h => subst h; rfl
    · rfl
  · rfl

/-- An ACK takes what it covers off the list of its source, which then sends what its windows allow (R257). -/
theorem execAckReceived_of_mine {s : State} {p : Pkt} (hty : p.ty = 7) (hmine : s.isMine p = true) :
    ∃ t : State, execAckReceived p s = .next ((t.pump (dieOf p.dstDie)).settle (dieOf p.dstDie)) ∧
      (t.die (dieOf p.dstDie)).unacked = (s.die (dieOf p.dstDie)).unacked.filter (fun k => !ackCovers p k) ∧
      t.stack = s.stack ∧ t.scratch = s.scratch ∧ t.ctxs = s.ctxs := by
  unfold execAckReceived
  rw [if_neg (by simp [hty, hmine])]
  extract_lets d unboxed gone left measured
  have hmeasured {β : Type} (g : State → β) (hg : ∀ st e source qual c start, g (State.measure st e source qual c start) = g st) :
      g measured = g left := by
    refine foldl_eq_of_step g (fun st k => ?_) gone left
    split
    · exact hg ..
    · rfl
  refine ⟨measured, rfl, ?_, hmeasured State.stack ?_, hmeasured State.scratch ?_, hmeasured State.ctxs ?_⟩
  · rw [hmeasured (fun st => (st.die d).unacked) fun st e => st.unacked_measure e d]
    simp only [left, State.die_updDie, if_true]
    rfl
  · exact State.measure_stack
  · exact State.measure_scratch
  · exact State.measure_ctxs

/-- A member's acknowledgement of a multicast message takes the member from each of its packets, and drops those that have none left
(R265). -/
theorem execMsgAckReceived_of_mine {s : State} {p : Pkt} (hty : p.ty = 9) (hmine : s.isMine p = true) :
    ∃ t : State, execMsgAckReceived p s = .next ((t.pump (dieOf p.dstDie)).settle (dieOf p.dstDie)) ∧
      t.stack = s.stack ∧ t.scratch = s.scratch ∧ t.ctxs = s.ctxs ∧
      ∀ k : SrcPkt, k ∈ (t.die (dieOf p.dstDie)).unacked → k.pkt.mcast = true → k.sent = true → k.pkt.msgId = p.msgId →
        ¬ p.src ∈ k.members := by
  unfold execMsgAckReceived
  rw [if_neg (by simp [hty, hmine])]
  extract_lets d unboxed taken
  refine ⟨taken, rfl, rfl, rfl, rfl, fun k hk hmcast hsent hmsg => ?_⟩
  simp only [taken, d, State.die_updDie, if_true, List.mem_filter, List.mem_map] at hk
  obtain ⟨⟨e, -, rfl⟩, -⟩ := hk
  by_cases hof : (e.pkt.mcast && e.sent && decide (e.pkt.msgId = p.msgId)) = true
  · simp [hof]
  · rw [if_neg hof] at hmcast hsent hmsg
    exact absurd (by simp [hmcast, hsent, hmsg]) hof

/-- The packet that a NAK names is looked up in the source's list alone. -/
theorem DieSt.nakked_congr {x y : DieSt} (h : x.unacked = y.unacked) (p : Pkt) : x.nakked p = y.nakked p := by
  simp only [DieSt.nakked, h]

/-- A fault that stops a context stops its streams. -/
theorem State.ctx_stopFault_same (s : State) (d : Die) (c : Ctx) (addr : Nat) (f : FaultInfo) (cause : StopCause) :
    (s.stopFault d c addr f cause).ctx c = (s.ctx c).map (·.faultContributed.streamsStopped cause) := by
  have hctx : ((s.countFault d (some c.val) f).recordFault d (some c.val) addr f).ctx c = s.ctx c :=
    State.ctx_eq_of_ctxs (by simp) c
  rw [State.stopFault, State.ctx_faultStop, if_pos rfl, hctx]

/-- A NAK that refuses a packet for good stops the context that sent it (R260). -/
theorem execNakReceived_of_final {s : State} {p : Pkt} {i : Nat} {k : SrcPkt} {y : CtxSt} (hty : p.ty = 8) (hmine : s.isMine p = true)
    (hfinal : p.aux = 8 ∨ p.aux = 9) (hnakked : (s.die (dieOf p.dstDie)).nakked p = some i)
    (hlisted : (s.die (dieOf p.dstDie)).unacked[i]? = some k) (hctx : s.ctx (ctxOf k.ctx) = some y) :
    ∃ t z, execNakReceived p s = .next t ∧ t.ctx (ctxOf k.ctx) = some z ∧ z.running = false := by
  unfold execNakReceived
  rw [if_neg (by simp [hty, hmine])]
  extract_lets d counted
  have hlist : (counted.die d).unacked = (s.die d).unacked := State.unacked_count ..
  have hstands : (counted.dropSrc d i).ctx (ctxOf k.ctx) = some y := hctx
  rw [DieSt.nakked_congr hlist, hnakked]
  simp only [hlist, d, hlisted]
  rw [if_pos (by simpa using hfinal), if_pos (by rw [hstands]; rfl)]
  refine ⟨_, _, rfl, ?_, CtxSt.running_streamsStopped y.faultContributed .program⟩
  rw [State.ctx_stopFault_same, hstands]
  rfl

/-- A management packet of kind 4 writes FAB_NODE (R246; log 51). -/
theorem execMgmtReceived_of_writeNode {s : State} {p : Pkt} (hty : p.ty = 10) (hmine : s.isMine p = true)
    (hpayload : p.payloadOk = true) (hkind : mgmtKind p = 4) :
    execMgmtReceived p s = .next ((s.unbox p).writeNode (wordOf 64 (slice p.payload 2 8))) := by
  simp only [execMgmtReceived, hty, hmine, hpayload, hkind, ne_eq, not_true_eq_false, decide_false, Bool.not_true, Bool.or_self,
    Bool.false_eq_true, if_false]

/-! ### Timers -/

/-- What a die has received and not yet acknowledged of a source is acknowledged when its timer ends (R259). -/
theorem execAckTimer_of_owed {s : State} {d : Die} {node die space : Nat} {e : Track}
    (htracked : (s.die d).trackOf node die space = some e) (howed : e.unacked ≠ 0) (hspace : space < 2) :
    execAckTimer d node die space s = .next (s.sendAck d e 0) := by
  simp [execAckTimer, htracked, howed, hspace]

section
variable {s : State} {d : Die} {k : Nat} {u : SrcPkt} (hlisted : (s.die d).unacked[k]? = some u)
include hlisted

/-- A packet that stays unacknowledged meets a counted reason, 0 (R260). -/
theorem execE2eTimeout_of_sent (hsent : u.sent = true) (hwait : u.waitReason = 0) :
    execE2eTimeout d k s = .next (s.countedReason d k u 0) := by
  simp [execE2eTimeout, hlisted, hsent, hwait]

/-- A packet whose wait is over is sent again (R260). -/
theorem execNakBackoffExpiry_of_waiting (hwait : u.waitReason ≠ 0) :
    execNakBackoffExpiry d k s = .next ((s.updSrc d k fun u => { u with waitReason := 0 }).resend d u u.waitReason) := by
  simp only [execNakBackoffExpiry, hlisted, hwait, if_false]

end

/-- A tracking entry that expires is forgotten on every die (R258). -/
theorem execTrackingEntryExpiry_forgets (s : State) (d e : Die) (node die space : Nat) :
    ∃ t, execTrackingEntryExpiry e node die space s = .next t ∧ (t.die d).trackOf node die space = none := by
  refine ⟨_, rfl, ?_⟩
  rw [State.die_updDies, DieSt.trackOf, List.find?_eq_none]
  intro t ht
  have hother := (List.mem_filter.mp ht).2
  rwa [Bool.not_eq_eq_eq_not, Bool.not_true, ← Bool.not_eq_true] at hother

/-- Settles O50: each answer's row and each timer's row takes the branch of its conditions; the eighth counted reason is the last that
sends again. -/
theorem answerRows : Obligations.AnswerRows := by
  refine ⟨fun s p hmine => ⟨fun hty => execAckReceived_of_mine hty hmine, fun hty => execMsgAckReceived_of_mine hty hmine,
      fun hty hfinal i k hnakked hlisted y hctx => execNakReceived_of_final hty hmine hfinal hnakked hlisted hctx,
      fun hty hpayload hkind => execMgmtReceived_of_writeNode hty hmine hpayload hkind⟩,
    fun s d node die space k e u => ⟨fun htracked howed hspace => execAckTimer_of_owed htracked howed hspace,
      fun hlisted hsent hwait => ⟨fun hcounted => ?again, fun hcounted => ?givenUp⟩,
      fun hlisted hwait => execNakBackoffExpiry_of_waiting hlisted hwait, execTrackingEntryExpiry_forgets s d d node die space⟩⟩
  case again =>
    refine (execE2eTimeout_of_sent hlisted hsent hwait).trans (congrArg Host.Outcome.next ?_)
    simp [State.countedReason, Nat.not_le.mpr hcounted]
  case givenUp =>
    refine (execE2eTimeout_of_sent hlisted hsent hwait).trans (congrArg Host.Outcome.next ?_)
    rw [State.countedReason, if_pos hcounted]

end Sys2Proof.Machine
end

section
/-! SUPPORT. Proofs: Suphor on the device, its links and its place in the fabric. RESET, LINK_RESET, and CASTLE up to its end (10 R238;
14 R357, R358; 15 R385). -/
namespace Sys2Proof.Machine

/-- RESET completes and then resets the device (15 R385). -/
theorem execReset_of_runs {s : State} {m : Mbx} {w : CmdWord} (h : Runs s m 0x03 w) (harg : cmdArg w 0 = 0) :
    execReset m s = .next ((s.finishCommand m w .done).deviceReset 2) := by
  obtain ⟨hstarted, hop, hserves⟩ := h
  simp [execReset, hstarted, hop, hserves, harg]

/-- LINK_RESET sends a failed link into training (R238). -/
theorem execLinkReset_of_failed {s : State} {m : Mbx} {w : CmdWord} (h : Runs s m 0x70 w) (harg : cmdArg w 0 ≤ 31)
    (hfailed : (s.link (linkOf (cmdArg w 0))).state = 3) :
    Ends (.linkReset m) s m w .done
      ((s.updLink (linkOf (cmdArg w 0)) fun x => { x with state := 1 }).linkRecord (linkOf (cmdArg w 0)) 1 6) := by
  change execLinkReset m s = _
  refine suphor_of_reply h rfl ?_
  simp only [Nat.not_lt.mpr harg, hfailed, if_false, if_true]

/-! ### CASTLE (14 R357, R358) -/

/-- The device that coordinates a swap of l and n, with the swap sent to every device in service and its own table written. -/
def State.castled (s : State) (l n : Nat) : State :=
  (s.sendSwap l n (s.swapEntries l n).1 (s.swapEntries l n).2 s.serving).takeSwap l n (s.swapEntries l n).1 (s.swapEntries l n).2

/-- CASTLE with a sound spare swaps, and waits for the devices in service, or ends at once where there is none. -/
theorem execCastle_of_sound {s : State} {m : Mbx} {w : CmdWord} (h : Runs s m 0x71 w) (hidle : s.fabric.swap = none)
    (hl : cmdArg w 0 < 2 ^ 14) (hn : cmdArg w 1 < 2 ^ 14) (hother : cmdArg w 1 ≠ cmdArg w 0)
    (hvalid : remapValid (s.remapOf (cmdArg w 1)) = true) (hspare : s.inSomeGroup (cmdArg w 1) = false) :
    execCastle m (some (s.fwRev, s.numericsRev)) 0xFF s = .next (
      if s.serving.isEmpty then (s.castled (cmdArg w 0) (cmdArg w 1)).endSwap [] w m.val
      else { s.castled (cmdArg w 0) (cmdArg w 1) with fabric := { (s.castled (cmdArg w 0) (cmdArg w 1)).fabric with
        swap := some (cmdArg w 0, cmdArg w 1, s.serving, w, m.val) } }) := by
  obtain ⟨hstarted, hop, hserves⟩ := h
  simp only [execCastle, hstarted, hop, hserves, hidle, hvalid, hspare, hother, Nat.not_le.mpr hl, Nat.not_le.mpr hn, ne_eq,
    not_true_eq_false, decide_false, Option.isSome_none, Bool.not_true, Bool.or_self, Bool.false_eq_true, if_false]
  split <;> rfl

/-- Settles O32: RESET, LINK_RESET and CASTLE pass their rows' checks in turn, and a swap that is under way is what its timers act
on. -/
theorem suphorDevice : Obligations.SuphorDevice := by
  refine fun s m w => ⟨execReset_of_runs, execLinkReset_of_failed, ?castle, fun l n k left v hswap => ⟨?deadline, ?resend⟩⟩
  case castle =>
    intro l n t h hidle hl hn hother hvalid hspare
    have hcastle : exec (.castle m (some (s.fwRev, s.numericsRev)) 0xFF) s = _ :=
      execCastle_of_sound h hidle hl hn hother hvalid hspare
    refine ⟨fun hserving => ?waits, fun hserving => ?ends⟩
    case waits => rw [hcastle, List.isEmpty_eq_false_iff.mpr hserving, if_neg Bool.false_ne_true]; rfl
    case ends => rw [hcastle, List.isEmpty_iff.mpr hserving, if_pos rfl]; rfl
  case deadline =>
    change execSwapDeadline s = _
    simp only [execSwapDeadline, hswap]
  case resend =>
    change execSwapResend s = _
    simp only [execSwapResend, hswap]

end Sys2Proof.Machine
end

section
/-! SUPPORT. Proofs: collectives. What a CL row does once its word issues: it takes a slot of its context's share, or waits for
one; and what the events of collectives do (11 R273, R276, R286). -/
namespace Sys2Proof.Machine

/-! ### A CL row that issues (11 R273) -/

/-- The operation of a CL word that waits for a slot: its number, its hash and its buffers are still to come. -/
def waitingOp (c : Ctx) (w : IWord) (op addr instr : Nat) : CollOp :=
  { ctx := c, group := clGroup w, op := op, seq := 0, word := w, addr := addr, instr := instr, hash := 0, open_ := false
    expect := [], pieces := [], done := [], dst := none, planes := [], result := false, express := [], outputs := [] }

/-- The device with a CL word that waits for a slot: its operation comes last, and its stream is held. -/
def State.clQueued (s : State) (d : Die) (c : Ctx) (w : IWord) (op addr : Nat) : State :=
  (s.updStream d c fun u => { u with hold := some .slot }).updDie d fun x =>
    { x with ops := x.ops ++ [waitingOp c w op addr ((s.stream d c).getD Stream.reset).issued] }

/-- Its operation follows those that were there (11 R273). -/
@[simp] theorem State.ops_clQueued (s : State) (d : Die) (c : Ctx) (w : IWord) (op addr : Nat) :
    ((s.clQueued d c w op addr).die d).ops =
      (s.die d).ops ++ [waitingOp c w op addr ((s.stream d c).getD Stream.reset).issued] := by
  simp [State.clQueued]

/-- Its stream is held until a slot is granted. -/
@[simp] theorem State.stream_clQueued (s : State) (d : Die) (c : Ctx) (w : IWord) (op addr : Nat) :
    (s.clQueued d c w op addr).stream d c = (s.stream d c).map fun u => { u with hold := some .slot } := by
  rw [State.clQueued, State.stream, State.ctx_updDie]
  exact s.stream_updStream_same d c _

section
variable {s : State} {d : Die} {c : Ctx} {w : IWord} {op : Nat} {x : Phys} {y z : CtxSt} {g : BitVec 256}
  (h : Issues s d c w 6 op (fun _ _ => s.clOk d c w op) y) (hctx : (s.afterIssue d c 6 y).ctx c = some z)
  (hgroup : (s.afterIssue d c 6 y).group (clGroup w) = some g) (hready : s.clWaits d c w op = false)
include h hctx hgroup hready

/-- A CL word that finds a slot of its context's share runs, where no stack holds it back. -/
theorem clRow_of_slot (hslot : (((s.afterIssue d c 6 y).die d).openOps c).length < z.clSlots)
    (hfree : (s.afterIssue d c 6 y).holdsBack d c w (y.stream d).pc 7 0 (clBody w op g) = false) :
    clRow d c w op x s = .next ((s.afterIssue d c 6 y).runCl d c w op (y.stream d).pc x g) := by
  simp only [clRow, State.tryIssue_go h, hctx, hgroup, hready, Nat.not_le.mpr hslot, hfree, Bool.false_eq_true, if_false]

/-- A CL word that finds none waits behind the operations of its die. -/
theorem clRow_of_full (hfull : z.clSlots ≤ (((s.afterIssue d c 6 y).die d).openOps c).length) :
    clRow d c w op x s = .next ((s.afterIssue d c 6 y).clQueued d c w op (y.stream d).pc) := by
  simp only [clRow, State.tryIssue_go h, hctx, hgroup, hready, hfull, Bool.false_eq_true, if_false, if_true]
  rfl

end

/-- Each row that `collectiveRow` lists is a CL row of its operation. -/
theorem exec_collectiveRow {i : Instr} {d : Die} {c : Ctx} {w : IWord} {x : Phys} {op : Nat}
    (h : collectiveRow i = some (d, c, w, x, op)) (s : State) : exec i s = clRow d c w op x s := by
  unfold collectiveRow at h
  split at h
  all_goals (cases h <;> rfl)

/-! ### The events of collectives (11 R273, R276, R286) -/

/-- The device as a slot is granted to operation o of context c on die d: o leaves the list, and its stream goes on. -/
def State.slotGranted (s : State) (d : Die) (c : Ctx) (o : CollOp) : State :=
  (s.updDie d fun x => { x with ops := x.ops.filter fun e => !e.same o }).updStream d c fun u => { u with hold := none }

/-- Granting a slot changes no group. -/
@[simp] theorem State.group_slotGranted (s : State) (d : Die) (c : Ctx) (o : CollOp) (k : Nat) :
    (s.slotGranted d c o).group k = s.group k := by
  simp only [State.group, State.slotGranted, State.updStream_fabric, State.updDie_fabric]

/-- A slot that is free goes to the oldest operation of the context that waits, which runs where no stack holds it back. -/
theorem execClSlotGranted_of_waiting {s : State} {d : Die} {c : Ctx} {y : CtxSt} {o : CollOp} {g : BitVec 256}
    (hctx : s.ctx c = some y) (hslot : ((s.die d).openOps c).length < y.clSlots)
    (holdest : (s.die d).ops.find? (fun o => !o.open_ && o.ctx = c.val) = some o) (hgroup : s.group o.group = some g)
    (hfree : (s.slotGranted d c o).holdsBack d c o.word o.addr 7 0 (clBody o.word o.op g) = false) :
    execClSlotGranted d c s = .next ((s.slotGranted d c o).runCl d c o.word o.op o.addr Phys.none g) := by
  have hkept := (s.group_slotGranted d c o o.group).trans hgroup
  unfold State.slotGranted at hfree hkept
  simp only [execClSlotGranted, hctx, Nat.not_le.mpr hslot, holdest, hkept, hfree, Bool.false_eq_true, if_false]
  rfl

/-- The timeout of an operation, open or waiting, raises the order fault, and ends its context's backoffs (11 R276). -/
theorem execCollectiveTimeout_of_op {s : State} {d : Die} {c : Ctx} {k : Nat} {o : CollOp}
    (hop : ((s.die d).ops.filter (·.ctx = c.val))[k]? = some o) :
    execCollectiveTimeout d c k s =
      .next ((s.orderFault d c o.addr 1 o.group (o.seq, 0) (o.hash.toNat % 256, 0) (0, 0)).endBackoffs c) := by
  simp only [execCollectiveTimeout, hop]

/-- The stage die of a group's device sends the latest outputs of its open EXPRESS operations again (11 R286; log 37). -/
theorem execExpressResend_of_group {s : State} {c : Ctx} {k : Nat} {g : BitVec 256} (hgroup : s.group k = some g) :
    execExpressResend c k s = .next
      (((s.die (stageDie g)).ops.filter fun o => o.op = 11 && o.open_ && o.ctx = c.val && o.group = k).foldl
        (fun st o => o.outputs.foldl (fun st p => (st.count (stageDie g) 0x806 0 (some c.val)).route none p) st) s) := by
  simp only [execExpressResend, hgroup]

/-- Settles O22: the word issues, and the open operations of its context against its share of slots pick between running and
waiting; each event finds what it acts on. -/
theorem collectiveRows : Obligations.CollectiveRows := by
  refine ⟨?rows, fun d c s y o g k n hctx => ⟨?granted, ?timeout, ?resend⟩⟩
  case rows =>
    intro i d c w x op s y z g hrow h t hctx hgroup hready
    refine ⟨fun hslot hfree => ?runs, fun hfull => ?waits⟩
    case runs => rw [exec_collectiveRow hrow, clRow_of_slot h hctx hgroup hready hslot hfree]
    case waits =>
      refine ⟨t.clQueued d c w op (y.stream d).pc, { z.stream d with hold := some .slot },
        waitingOp c w op (y.stream d).pc ((t.stream d c).getD Stream.reset).issued,
        (exec_collectiveRow hrow s).trans (clRow_of_full h hctx hgroup hready hfull), ?held, rfl, State.ops_clQueued .., rfl, rfl⟩
      case held => rw [State.stream_clQueued, State.stream_of_ctx hctx, Option.map_some]
  case granted => exact execClSlotGranted_of_waiting hctx
  case timeout => exact execCollectiveTimeout_of_op
  case resend => exact execExpressResend_of_group

end Sys2Proof.Machine
end

section
/-! SUPPORT. Proofs: the lifetime tier. It is among what every step keeps (13 R332). -/
namespace Sys2Proof.Machine

/-- Settles O7: a step keeps the records of the lifetime tier where they stand, as it keeps the memories and the fuses. -/
theorem stepKeepsLifetime : Obligations.StepKeepsLifetime :=
  fun _ _ hstep => (State.Keeps.of_step hstep).lifetime

end Sys2Proof.Machine
end

section
/-! SUPPORT. Proofs: the values and the measurements that Suphor's commands set (08 R186; 13 R323, R324, R326, R330, R335, R340;
15 Table 15.12). -/
namespace Sys2Proof.Machine

/-- A value between two bounds is in their range. -/
theorem inRange_of_le {v lo hi : Nat} (hlo : lo ≤ v) (hhi : v ≤ hi) : inRange v lo hi = true := by
  simp [inRange, hlo, hhi]

section
variable {s : State} {m : Mbx} {w : CmdWord} {x : CtxSt} {bs : Bytes}

/-! ### Policies that are values -/

/-- A sampling period that is off or in range is the context's at once, and each die that runs it draws its first gap anew (13
R327). -/
theorem policySampleReply_done (hctx : s.ctx (cmdTarget m w) = some x)
    (hperiod : cmdArg w 1 = 0 ∨ (1024 ≤ cmdArg w 1 ∧ cmdArg w 1 ≤ 2 ^ 24)) :
    policySampleReply m w s = (.done, x.launchedDies.foldl (fun st d => st.firstGap (cmdTarget m w) d)
      (s.updCtx (cmdTarget m w) fun y => { y with samplePeriod := cmdArg w 1 })) := by
  have hok : (decide (cmdArg w 1 = 0) || inRange (cmdArg w 1) 1024 (2 ^ 24)) = true := by
    rcases hperiod with hoff | ⟨hmin, hmax⟩
    · rw [decide_eq_true hoff, Bool.true_or]
    · rw [inRange_of_le hmin hmax, Bool.or_true]
  rw [policySampleReply, withCtx_some hctx]
  simp only [hok, Bool.not_true, Bool.false_eq_true, if_false]

/-- An integrity record with sound values is the device's at once (12 Table 12.10). -/
theorem policyIntegrityReply_done (hbuf : Buffer w 16) (hlen : bs.length = 16) (hreserved : fld (wordOf 128 bs) 127 60 = 0)
    (hvalues : integrityValues (wordOf 128 bs) = true) :
    policyIntegrityReply (some bs) w s =
      (.done, { s with ledger := { s.ledger with integrityPolicy := wordOf 128 bs } }) := by
  rw [policyIntegrityReply, dataIn_buffer hbuf hlen]
  simp only [hreserved, hvalues, ne_eq, not_true_eq_false, Bool.not_true, Bool.false_eq_true, if_false]

/-- A value in its range is set (15 Table 15.12). -/
theorem policyValue_done {k lo hi : Nat} {f : CmdWord → State → State} (hruns : Runs s m 0x3B w) (hkind : cmdArg w 0 = k)
    (hmin : lo ≤ cmdArg w 1) (hmax : cmdArg w 1 ≤ hi) :
    suphor m 0x3B (ofKind k) (fun w s => if !inRange (cmdArg w 1) lo hi then (.policyNo 1, s) else (.done, f w s)) s =
      .next ((f w s).finishCommand m w .done) := by
  refine suphor_of_reply hruns (decide_eq_true hkind) ?_
  simp only [inRange_of_le hmin hmax, Bool.not_true, Bool.false_eq_true, if_false]

theorem execPolicySetTally_done (hruns : Runs s m 0x3B w) (hkind : cmdArg w 0 = 8) (hctx : cmdArg w 1 ≤ 7)
    (hminLo : 1000 ≤ cmdArg w 2) (hminHi : cmdArg w 2 ≤ 10000000) (hperLo : 100000 ≤ cmdArg w 3) (hperHi : cmdArg w 3 ≤ 60000000) :
    execPolicySetTally m s = .next (({ s with ledger := { s.ledger with
      tallyCtx := some (cmdArg w 1), tallyMinUs := cmdArg w 2, tallyPeriodUs := cmdArg w 3 } } : State).finishCommand m w .done) := by
  refine suphor_of_reply hruns (decide_eq_true hkind) ?_
  simp only [Nat.not_lt.mpr hctx, inRange_of_le hminLo hminHi, inRange_of_le hperLo hperHi, decide_false, Bool.not_true,
    Bool.or_self, Bool.false_eq_true, if_false]

/-! ### The stall and the collectors -/

/-- A stall that breaks no condition is the context's, and every controller's from its next window (08 R186). -/
theorem stallSetReply_done (hctx : s.ctx (cmdTarget m w) = some x) (hword : cmdArg w 0 < 2 ^ 20)
    (hsound : s.stallPolicy (cmdTarget m w) (BitVec.ofNat 20 (cmdArg w 0)) = 0) :
    stallSetReply m w s = (.done,
      (s.updCtx (cmdTarget m w) fun y => { y with stall := BitVec.ofNat 20 (cmdArg w 0) }).updDies fun _ y =>
        { y with
          stalls := y.stalls.set (cmdTarget m w) { y.stalls[cmdTarget m w] with next := some (BitVec.ofNat 20 (cmdArg w 0)) } }) := by
  rw [stallSetReply, withCtx_some hctx]
  simp only [Nat.not_le.mpr hword, hsound, ne_eq, not_true_eq_false, if_false]

theorem collectorReply_done (hindex : cmdArg w 0 ≤ 1) (hport : cmdArg w 1 < 2 ^ 17) (hbuf : Buffer w 16)
    (hlen : bs.length = 16) :
    collectorReply (some bs) w s =
      (.done, s.setCollector (cmdArg w 0) (cmdArg w 1 % 65536) ((cmdArg w 1).testBit 16) bs) := by
  rw [collectorReply, if_neg (Nat.not_lt.mpr hindex), if_neg (Nat.not_le.mpr hport), dataIn_buffer hbuf hlen]

/-! ### Measurements of the dies of ARG0 -/

theorem maskTooWide_of_lt (hmask : cmdArg w 0 < 2 ^ 20) : maskTooWide w = false :=
  decide_eq_false (Nat.not_le.mpr hmask)

theorem contains_cmdDies (w : CmdWord) (d : Die) : (cmdDies w).contains d = (cmdArg w 0).testBit d.val := by
  rw [Bool.eq_iff_iff, List.contains_iff_mem, cmdDies, List.mem_filter, and_iff_right (List.mem_finRange d)]

/-- Two conditions one inside the other are their conjunction. -/
theorem ite_ite_eq_ite_and {α : Type} (p q : Prop) [Decidable p] [Decidable q] (a b : α) :
    (if p then (if q then a else b) else b) = if p ∧ q then a else b := by
  by_cases hp : p
  · by_cases hq : q
    · rw [if_pos hp, if_pos hq, if_pos ⟨hp, hq⟩]
    · rw [if_pos hp, if_neg hq, if_neg fun h => hq h.2]
  · rw [if_neg hp, if_neg fun h => hp h.1]

/-- A change of the dies of ARG0. -/
theorem onDies_eq (w : CmdWord) (s : State) (f : Die → DieSt → DieSt) :
    onDies w s f = (.done, s.updDies fun d x => if (cmdArg w 0).testBit d.val then f d x else x) := by
  simp only [onDies, contains_cmdDies]

theorem counterReply_done (hmask : cmdArg w 0 < 2 ^ 20) (hindex : cmdArg w 2 ≤ 31)
    (hreserved : fld (BitVec.ofNat 64 (cmdArg w 3)) 63 29 = 0)
    (hsound : selectPolicy (eventQualifier (fld (BitVec.ofNat 64 (cmdArg w 3)) 11 0)) (fld (BitVec.ofNat 64 (cmdArg w 3)) 23 12)
      (bit (BitVec.ofNat 64 (cmdArg w 3)) 24) = 0) :
    counterReply w s = onDies w s fun _ x =>
      { x with counters := x.counters.setIfInBounds (cmdArg w 2) { select := BitVec.ofNat 64 (cmdArg w 3), value := 0 } } := by
  simp only [counterReply, maskTooWide_of_lt hmask, Nat.not_lt.mpr hindex, hreserved, hsound, ne_eq, not_true_eq_false,
    Bool.false_eq_true, if_false]

theorem histogramReply_done (hmask : cmdArg w 0 < 2 ^ 20) (hindex : cmdArg w 2 ≤ 7)
    (hreserved : fld (BitVec.ofNat 64 (cmdArg w 3)) 63 21 = 0)
    (hsound : selectPolicy (sourceQualifier (fld (BitVec.ofNat 64 (cmdArg w 3)) 3 0)) (fld (BitVec.ofNat 64 (cmdArg w 3)) 15 4)
      (bit (BitVec.ofNat 64 (cmdArg w 3)) 16) = 0) :
    histogramReply w s = onDies w s.draw.2 fun _ x => { x with
      hists := x.hists.setIfInBounds (cmdArg w 2)
        (Histogram.fresh (BitVec.ofNat 32 (BitVec.ofNat 64 (cmdArg w 3)).toNat) s.freeCtr) } := by
  simp only [histogramReply, maskTooWide_of_lt hmask, Nat.not_lt.mpr hindex, hreserved, hsound, ne_eq, not_true_eq_false,
    Bool.false_eq_true, if_false]

theorem windowReply_done (hmask : cmdArg w 0 < 2 ^ 20) (hindex : cmdArg w 2 ≤ 4) (hmin : 16 ≤ cmdArg w 3)
    (hmax : cmdArg w 3 ≤ 26) :
    windowReply w s = onDies w s fun d x =>
      if hasBw d ⟨cmdArg w 2 % 5, Nat.mod_lt _ (by decide)⟩ then
        { x with bw := x.bw.setIfInBounds (cmdArg w 2) { BwWin.reset with shift := BitVec.ofNat 5 (cmdArg w 3) } }
      else x := by
  simp only [windowReply, maskTooWide_of_lt hmask, Nat.not_lt.mpr hindex, inRange_of_le hmin hmax, Bool.not_true,
    Bool.false_eq_true, if_false]

theorem execTallyRequest_done (hruns : Runs s m 0x51 w) (hmask : cmdArg w 0 < 2 ^ 20) :
    execTallyRequest m s = .next (((cmdDies w).foldl
      (fun st d => if st.dieInService d then st.latchTally d 3 (st.stepOf none) else st) s).finishCommand m w .done) := by
  refine suphor_of_reply hruns rfl ?_
  simp only [maskTooWide_of_lt hmask, Bool.false_eq_true, if_false]

theorem execCaptureExported_done {t : State} (hruns : Runs s m 0x62 w)
    (hexport : s.exportCapture (cmdArg w 0) (cmdArg w 1) = some t) :
    execCaptureExported m s = .next (t.finishCommand m w .done) := by
  refine suphor_of_reply hruns rfl ?_
  simp only [hexport]

end

/-- Settles O24: each command passes its row's checks in turn, and the row's body then sets what it names. -/
theorem suphorValues : Obligations.SuphorValues := by
  refine ⟨fun s m w x bs => ⟨?sample, ?integrity, ?scrub, ?e2e, ?interval, execPolicySetTally_done, ?stall, ?collector,
    execTallyRequest_done, ?checkpoint, fun t => execCaptureExported_done⟩,
    fun s m w hruns hmask => ⟨?counter, ?histogram, ?window⟩⟩
  case sample =>
    intro hruns hkind hctx hperiod
    change execPolicySetSamplePeriod m s = _
    exact suphor_of_reply hruns (decide_eq_true hkind) (policySampleReply_done hctx hperiod)
  case integrity =>
    intro hruns hkind hbuf hlen hreserved hvalues
    change execPolicySetIntegrity m (some bs) s = _
    exact suphor_of_reply hruns (decide_eq_true hkind) (policyIntegrityReply_done hbuf hlen hreserved hvalues)
  case scrub =>
    intro hruns hkind hmin hmax
    change execPolicySetScrubPeriod m s = _
    exact policyValue_done hruns hkind hmin hmax
  case e2e =>
    intro hruns hkind hmin hmax
    change execPolicySetE2eTimeout m s = _
    exact policyValue_done hruns hkind hmin hmax
  case interval =>
    intro hruns hkind hmin hmax
    change execPolicySetCheckpointInterval m s = _
    exact policyValue_done hruns hkind hmin hmax
  case stall =>
    intro hruns hctx hword v hsound
    change execStallSet m s = _
    exact suphor_of_reply hruns rfl (stallSetReply_done hctx hword hsound)
  case collector =>
    intro hruns hindex hport hbuf hlen
    change execCollectorSet m (some bs) s = _
    exact suphor_of_reply hruns rfl (collectorReply_done hindex hport hbuf hlen)
  case checkpoint =>
    intro hruns
    change execCheckpointNow m s = _
    exact suphor_of_reply hruns rfl rfl
  case counter =>
    intro hkind hindex hreserved hsound
    change execMeasureSetCounter m s = _
    exact suphor_of_reply hruns (decide_eq_true hkind)
      ((counterReply_done hmask hindex hreserved hsound).trans (onDies_eq ..))
  case histogram =>
    intro hkind hindex hreserved hsound
    change execMeasureSetHistogram m s = _
    exact suphor_of_reply hruns (decide_eq_true hkind)
      ((histogramReply_done hmask hindex hreserved hsound).trans (onDies_eq ..))
  case window =>
    intro hkind hindex hmin hmax
    change execMeasureSetWindow m s = _
    refine suphor_of_reply hruns (decide_eq_true hkind) ((windowReply_done hmask hindex hmin hmax).trans ?_)
    simp only [onDies_eq, ite_ite_eq_ite_and]

end Sys2Proof.Machine
end

section
/-! SUPPORT. Proofs: measurements that end. What counting, recording and sending leave of a die, and what a sweep, a tally, a
bandwidth window and a daily record then leave (13 R324, R330, R331, R338; 17 R417). -/
namespace Sys2Proof.Machine

/-! ### What counts and records leave of a die -/

/-- A die without its counts and its record number: what no count and no record changes. -/
def DieSt.unmeasured (x : DieSt) : DieSt :=
  { x with aggregate := [], counters := Vector.replicate 32 { select := 0, value := 0 }, recordSeq := 0 }

section
variable {s t : State} {n : Nat} (h : s.Leaves DieSt.unmeasured n t)
include h

theorem State.Leaves.arrays : s.Leaves DieSt.arrays n t := h.comp DieSt.arrays

theorem State.Leaves.tallies : s.Leaves DieSt.tallies n t := h.comp DieSt.tallies

end

theorem State.count_unmeasured (s : State) (d : Die) (ev qual : Nat) (c : Option Nat) (n : Nat) :
    s.Leaves DieSt.unmeasured 0 (s.count d ev qual c n) :=
  .updDie s d fun _ => rfl

theorem State.makeRec_unmeasured (s : State) (d : Die) (type tier : Nat) (device : Bool) (step ctx : Option Nat) (body : Bytes) :
    s.Leaves DieSt.unmeasured 0 (s.makeRec d type tier device step ctx body).2 :=
  .trans_zero (t := s.draw.2) (.of_eq rfl rfl) (.updDie _ d (f := fun x => { x with recordSeq := x.recordSeq + 1 }) fun _ => rfl)

theorem State.enqueue_unmeasured (s : State) (r : Rec) : s.Leaves DieSt.unmeasured r.bytes.length (s.enqueue r) := by
  refine ⟨fun e => ?_, (s.enqueue_leaves r).queue⟩
  unfold State.enqueue
  extract_lets all
  split
  · rfl
  · exact (State.count_unmeasured _ 0 _ _ _ _).dies e

/-- A record that goes to the ledger, whatever its queue takes (13 R333). -/
theorem State.log_unmeasured (s : State) (d : Die) (type tier : Nat) (c : Option Nat) (toHost : Bool) (body : Bytes) :
    s.Leaves DieSt.unmeasured (64 + ceilDiv body.length 16 * 16) (s.log d type tier c toHost body) := by
  have hmade := s.makeRec_unmeasured d type tier false (s.stepOf c) c body
  refine ⟨fun e => ?_, (s.log_leaves d type tier c toHost body).queue⟩
  have hlogged := (hmade.trans (State.enqueue_unmeasured _
    { bytes := (s.makeRec d type tier false (s.stepOf c) c body).1, tier := tier })).dies e
  unfold State.log State.logWith
  dsimp only
  split
  · exact ((State.post_leaves ..).dies e).trans hlogged
  · exact hlogged

theorem State.marginRecord_unmeasured (s : State) (d : Die) (source inst : Nat) (temp : Int) (low : Bool) (entries : List Nat) :
    s.Leaves DieSt.unmeasured 144 (s.marginRecord d source inst temp low entries) :=
  ⟨(State.log_unmeasured ..).dies, (s.marginRecord_leaves ..).queue⟩

/-! ### Rings and datagrams -/

section
variable {α : Type} {g : DieSt → α}

theorem State.ringWrite_leaves (s : State) (p : Place) (bs : Bytes) : s.Leaves g 0 (s.ringWrite p bs none) := by
  have hwrite : s.ringWrite p bs none = s.write p bs false := by cases p <;> rfl
  exact hwrite ▸ s.write_leaves p bs false

/-- A record for a ring of the host, which no stall is charged for (13 R329). -/
theorem State.hostRingPush_leaves (s : State) (r : Ring) (n : Nat) (bs : Bytes) : s.Leaves g 0 (s.hostRingPush r n bs).2.2 := by
  unfold State.hostRingPush
  split
  · exact .refl s
  · unfold State.ringPush
    dsimp only
    split
    all_goals dsimp only
    · exact s.ringWrite_leaves ..
    · exact (s.ringWrite_leaves ..).trans_zero (State.ringWrite_leaves ..)

end

/-- A datagram that is queued, or for which others are dropped (13 R342). -/
theorem State.queueDatagram_unmeasured (s : State) (g : Datagram) : s.Leaves DieSt.unmeasured 0 (s.queueDatagram g) := by
  have hcounted : s.Leaves DieSt.unmeasured 0 (s.count 19 0xA06 0 none) := s.count_unmeasured ..
  unfold State.queueDatagram
  dsimp only
  split
  · exact ⟨fun _ => rfl, Nat.le_refl _⟩
  · split
    · exact hcounted
    · split
      · exact hcounted.trans_zero ⟨fun _ => rfl, Nat.le_refl _⟩
      · exact hcounted.trans_zero ⟨fun _ => rfl, Nat.le_refl _⟩
      · exact hcounted

theorem State.sendRecord_unmeasured (s : State) (prio : Nat) (r : Bytes) :
    s.Leaves DieSt.unmeasured 0 (s.sendRecord prio r) := by
  unfold State.sendRecord
  refine (State.Leaves.foldl (n := 0) (fun st f => ?_) (datagramForms none r) s).mono (Nat.le_of_eq (Nat.mul_zero _))
  have hmade : st.Leaves DieSt.unmeasured 0 (st.makeDatagram prio none f.1 f.2.1 f.2.2.1 f.2.2.2.1 f.2.2.2.2).2 :=
    ⟨fun _ => rfl, Nat.le_refl _⟩
  exact hmade.trans_zero (State.queueDatagram_unmeasured ..)

/-! ### Sweeps, tallies and windows -/

theorem State.cappingEpisode_leaves {α : Type} {g : DieSt → α} (s : State) : s.Leaves g 0 s.cappingEpisode := by
  unfold State.cappingEpisode
  dsimp only
  split
  · exact .of_eq rfl rfl
  · exact .refl s

/-- The supply that follows a sweep changes no array (17 R417). -/
theorem State.adaptVoltage_arrays (s : State) (d : Die) (a : Nat) : s.Leaves DieSt.arrays 0 (s.adaptVoltage d a) := by
  unfold State.adaptVoltage
  dsimp only
  split
  · exact .refl s
  · refine .trans_zero (.updDie s d ?_) (State.cappingEpisode_leaves _)
    exact fun _ => rfl

/-- A sweep that ends on a taken array leaves its top clock with the array (13 R338). -/
theorem runMarginSweepDone_records {s : State} {d : Die} {a : Arr} (top temp : Nat)
    (htaken : (a.val, UnitWork.margin) ∈ (s.die d).quietWork) :
    ∃ t, runMarginSweepDone d a top temp s = .next t ∧ s.Leaves (fun _ => ()) 144 t ∧ (t.die d).arrays[a].sweep = some top := by
  unfold runMarginSweepDone
  extract_lets x factory low swept
  have hruns : x.quietWork.contains (a.val, UnitWork.margin) = true := List.contains_iff_mem.mpr htaken
  rw [hruns, Bool.true_or, Bool.not_true, if_neg Bool.false_ne_true]
  have hswept : s.Leaves (fun _ => ()) 0 swept := .updDie s d fun _ => rfl
  have hafter : swept.Leaves DieSt.arrays 144 ((swept.marginRecord d 1 a temp low [top, factory, 1400]).adaptVoltage d a) :=
    (State.marginRecord_unmeasured ..).arrays.trans_zero (State.adaptVoltage_arrays ..)
  refine ⟨_, rfl, hswept.zero_trans hafter.queued, ?_⟩
  rw [hafter.dies d]
  simp [swept]

/-- A full tally buffer is freed as its record goes to the host's ring and the network (13 R331). -/
theorem execTallyDump_frees {s : State} {d : Die} {y : Tally} {rest : List Tally} (h : (s.die d).tallies = y :: rest) :
    ∃ t, execTallyDump d s = .next t ∧ (t.die d).tallies = rest := by
  unfold execTallyDump
  split
  next hnone => exact absurd (h.symm.trans hnone) (List.cons_ne_nil y rest)
  next first others hfirst =>
  obtain ⟨rfl, rfl⟩ := List.cons.inj (h.symm.trans hfirst)
  extract_lets freed
  split
  next record made hrecord =>
  extract_lets pushed counted
  have hmade : freed.Leaves DieSt.unmeasured 0 made := by
    have hrec := freed.makeRec_unmeasured d 0x10 2 false (if y.ctx = 0xFF then none else some y.step)
      (if y.ctx = 0xFF then none else some y.ctx) y.body
    rwa [hrecord] at hrec
  have hpushed : made.Leaves DieSt.unmeasured 0 pushed := by
    unfold pushed
    split
    next ring hring => exact (made.hostRingPush_leaves ring 6144 record).trans_zero ⟨fun _ => rfl, Nat.le_refl _⟩
    next => exact .refl made
  have hcounted : freed.Leaves DieSt.unmeasured 0 counted := (hmade.trans_zero hpushed).trans_zero (pushed.count_unmeasured ..)
  have hsent : freed.Leaves DieSt.unmeasured 0 (if counted.pushes then counted.sendRecord 3 record else counted) := by
    split
    · exact hcounted.trans_zero (counted.sendRecord_unmeasured ..)
    · exact hcounted
  refine ⟨_, rfl, (hsent.tallies.dies d).trans ?_⟩
  simp [freed]

/-- A die that has taken no tally since reset is due once TALLY_PERIOD_US has passed since then (13 R330). -/
theorem execTallyPeriod_of_none {s : State} {d : Die} (hin : s.dieInService d = true) (hnone : (s.die d).lastTally = none)
    (hdue : s.ledger.tallyPeriodUs ≤ s.now) : execTallyPeriod d s = .next (s.latchTally d 2 (s.stepOf none)) := by
  simp only [execTallyPeriod, hnone, hin, hdue, decide_true, Bool.and_self, if_true]

/-- A window that ends keeps its units and its peaks, and the next one starts at zero (13 R324). -/
theorem execBwWindowEnd_completes {s : State} {d : Die} {i : Fin 5} (tx rx : BitVec 32) (hbw : hasBw d i = true) :
    let u := (s.die d).bw[i].units i tx rx
    ∃ t, execBwWindowEnd d i tx rx s = .next t ∧ (t.die d).bw[i].txLast = u.1 ∧ (t.die d).bw[i].rxLast = u.2 ∧
      (t.die d).bw[i].txPeak.toNat = max (s.die d).bw[i].txPeak.toNat u.1.toNat ∧ (t.die d).bw[i].txNow = 0 := by
  intro u
  have hpeak : max (s.die d).bw[i].txPeak.toNat u.1.toNat < 2 ^ 32 := Nat.max_lt.mpr ⟨BitVec.isLt _, BitVec.isLt _⟩
  unfold execBwWindowEnd
  rw [if_pos hbw]
  refine ⟨_, rfl, ?_⟩
  simpa [u] using hpeak

/-- Settles O56: each row takes the branch of its conditions, and what a sweep or a tally records leaves what it set on its die. -/
theorem measurementRows : Obligations.MeasurementRows := by
  intro s d a top temp i tx rx y rest
  refine ⟨fun hroom htaken => ?sweep, execTallyPeriod_of_none, execTallyDump_frees, execBwWindowEnd_completes tx rx, rfl⟩
  case sweep =>
    obtain ⟨t, hrun, hqueue, hsweep⟩ := runMarginSweepDone_records top temp htaken
    exact ⟨t, (congrArg (background s) hrun).trans (background_of_leaves hroom hqueue (by decide)), hsweep⟩

end Sys2Proof.Machine
end

section
/-! SUPPORT. Proofs: the ledger's rows and the requests of the management network (12 R305; 13 R333 to R335, R342 to R344). -/
namespace Sys2Proof.Machine

/-- The queue's oldest record is written to flash (13 R333). -/
theorem execLedgerFlashWrite_cons {s : State} {r : Rec} {rest : List Rec} (h : s.ledger.queue = r :: rest) :
    execLedgerFlashWrite s =
      .next ((({ s with ledger := { s.ledger with queue := rest } } : State).writeRecord r).granule 0 13) := by
  simp only [execLedgerFlashWrite, h]

/-- The first datagram of the most urgent priority leaves, while the device is managed and some collector is set (13 R342). -/
theorem execDatagramSend_erases {s : State} {g : Datagram} (hmanaged : s.managed = true) (hpushes : s.pushes = true)
    (hnext : [0, 1, 2, 3].findSome? (fun p => s.ledger.send.find? fun g => g.priority = p) = some g) :
    ∃ t, execDatagramSend s = .next t ∧ t.ledger.send = s.ledger.send.erase g := by
  unfold execDatagramSend
  rw [hmanaged, hpushes, if_neg (by decide)]
  dsimp only
  rw [hnext]
  exact ⟨_, rfl, rfl⟩

/-! ### Requests -/

section
variable {s : State} {who : Requester} {q : BitVec 256}

theorem execLifetimeRecordsRequest_of_answers (h : s.answers who q 1 = true) :
    execLifetimeRecordsRequest who q s = .next (s.replyRecords who q s.flash.lifetime) :=
  congrArg Host.Outcome.next (if_pos h)

theorem execRollingRecordsRequest_of_answers (h : s.answers who q 2 = true) :
    execRollingRecordsRequest who q s = .next (s.replyRecords who q s.flash.rolling) :=
  congrArg Host.Outcome.next (if_pos h)

theorem execHistoryDatagramsRequest_of_answers (h : s.answers who q 3 = true) :
    execHistoryDatagramsRequest who q s = .next
      ((s.ledger.history.filter fun g => fld q 191 128 ≤ g.seq && g.seq < fld q 191 128 + fld q 63 32).foldl
        (fun st g => st.reply who g) s) :=
  if_pos h

/-- A capture slot that is filled is answered with its bytes (13 R343). -/
theorem execCaptureSlotRequest_of_find {k : Capture} (h : s.answers who q 4 = true)
    (hslot : SMap.find s.flash.captures (fld q 27 24) = some k) :
    execCaptureSlotRequest who q s = .next (s.replyBytes who (some (fld q 27 24)) k.bytes) := by
  simp only [execCaptureSlotRequest, h, hslot, if_true]

/-- A capture whose digest the request names is marked exported (12 R305). -/
theorem execCaptureExportedRequest_of_export {u : State} (h : s.answers who q 5 = true)
    (hexport : s.exportCapture (fld q 27 24) (fld q 255 192) = some u) : execCaptureExportedRequest who q s = .next u := by
  simp only [execCaptureExportedRequest, h, hexport, if_true, Option.getD_some]

theorem execCheckpointNowRequest_of_answers (h : s.answers who q 6 = true) :
    execCheckpointNowRequest who q s = .next (s.checkpoint 3) :=
  congrArg Host.Outcome.next (if_pos h)

end

/-- Settles O57: the queues' first entries are what the two writers take, and a request that this device answers gets its answer. -/
theorem ledgerRows : Obligations.LedgerRows :=
  fun _ _ _ _ _ _ _ _ => ⟨execLedgerFlashWrite_cons, rfl, execDatagramSend_erases, execLifetimeRecordsRequest_of_answers,
    execRollingRecordsRequest_of_answers, execHistoryDatagramsRequest_of_answers, execCaptureSlotRequest_of_find,
    execCaptureExportedRequest_of_export, execCheckpointNowRequest_of_answers⟩

end Sys2Proof.Machine
end

section
/-! SUPPORT. Proofs: what Suphor reads. LEDGER_READ's count of records, where two of a tier carry one sequence number (15 Table 15.9;
13 R333; log 110). -/
namespace Sys2Proof.Machine

/-- A record that is its 64-byte header alone, all zero: its LSEQ is 0. -/
def bareRecord : Bytes := List.replicate 64 0

/-- LEDGER_READ of one record of the lifetime tier from LSEQ 0, into a buffer of 128 bytes. -/
def readOneRecord : CmdWord := pack 512 [(0x60, 8), (0, 120), (128, 32), (0, 32), (0, 64), (0, 64), (1, 64)]

/-- A device that serves, whose lifetime tier holds two records of one LSEQ, and whose administration mailbox runs the read. -/
def twiceListed : State :=
  ({ State.reset with
    power := { PowerSt.reset with state := .run }
    bootSt := { BootSt.reset with stage := 0xFF }
    flash := { State.reset.flash with lifetime := [bareRecord, bareRecord] } } : State).updMbx 0
      fun y => { y with started := some readOneRecord }

theorem runs_twiceListed : Runs twiceListed 0 0x60 readOneRecord := ⟨rfl, by decide +kernel, by decide +kernel⟩

theorem fitting_twiceListed :
    fitting (cmdLen readOneRecord) (held
      (if cmdArg readOneRecord 0 = 0 then twiceListed.flash.lifetime else twiceListed.flash.rolling)
      (cmdArg readOneRecord 1) (cmdArg readOneRecord 2)) = [bareRecord, bareRecord] := by
  decide +kernel

/-- Refutes O23: the records that LEDGER_READ writes are those whose LSEQ lies in the window of ARG1 and ARG2, however many those
are. Where a tier holds two records of one LSEQ, a read of one record writes both. -/
theorem not_suphorReads : ¬ Obligations.SuphorReads := by
  rintro ⟨-, hledger⟩
  obtain ⟨-, hcount, -⟩ := hledger twiceListed 0 readOneRecord runs_twiceListed (by decide +kernel) (by decide +kernel)
    (by decide +kernel) ⟨rfl, by decide +kernel, by decide +kernel⟩
  rw [fitting_twiceListed] at hcount
  exact absurd hcount (by decide +kernel)

end Sys2Proof.Machine
end

section
/-! SUPPORT. Proofs: contexts and their memory. What CTX_CREATE, CTX_DESTROY, MEM_ALLOC and MEM_FREE leave once their records pass
(15 R373, R377, R378). -/
namespace Sys2Proof.Machine

section
variable {s : State} {m : Mbx} {w : CmdWord} {x : CtxSt} {bs : Bytes}

/-! ### Contexts -/

/-- What CTX_CREATE asks of its record r for context c: sound values, and semaphores from sem, instruction memory from prog and save
areas that are free (15 R377). -/
structure State.Creates (s : State) (c : Ctx) (r : BitVec 512) (sem prog : Nat) (save : List Nat) : Prop where
  reserved : creReserved r = true
  absent : s.ctx c = none
  slots : 1 ≤ creSlots r ∧ creSlots r ≤ 16
  sems : 1 ≤ creSems r ∧ creSems r ≤ 256
  progWords : 1 ≤ creProg r ∧ creProg r ≤ 8192
  scratch : 4 ≤ creScratch r ∧ creScratch r ≤ 61440 ∧ creScratch r % 4 = 0
  stall : s.stallPolicy c (creStall r) = 0
  action : creAction r = true → creMode r = true
  semRun : s.commonRun 256 (creSems r) (fun x => (x.semBase, x.semCount)) = some sem
  progRun : s.commonRun 8192 (creProg r) (fun x => (x.progBase, x.progCount)) = some prog
  saveAreas : s.saveAreas = some save
  quotas : s.quotasFit r = true

/-- A record that passes makes its context, whose stall every controller then serves (08 R186). -/
theorem ctxCreateReply_done {sem prog : Nat} {save : List Nat} (hbuf : Buffer w 64) (hlen : bs.length = 64)
    (h : s.Creates (cmdTarget m w) (wordOf 512 bs) sem prog save) :
    ctxCreateReply m (some bs) w s = (.results (sem + 65536 * prog) 0,
      (s.setCtx (cmdTarget m w) (some (CtxSt.fresh (wordOf 512 bs) sem prog save))).updDies fun _ y => { y with
        stalls := y.stalls.set (cmdTarget m w)
          { y.stalls[cmdTarget m w].configure (creStall (wordOf 512 bs)) with enable := true } }) := by
  rw [ctxCreateReply, dataIn_buffer hbuf hlen]
  generalize wordOf 512 bs = r at h ⊢
  obtain ⟨hreserved, habsent, hslots, hsems, hprog, hscratch, hstall, haction, hsemRun, hprogRun, hsave, hquotas⟩ := h
  have hpolicy : (creAction r && !creMode r) = false := by simpa using haction
  simp only [hreserved, habsent, Option.isSome_none, Bool.not_true, Bool.false_eq_true, if_false]
  rw [if_neg ?counts]
  case counts =>
    simp only [Bool.or_eq_true, decide_eq_true_eq]
    omega
  simp only [hstall, hpolicy, hsemRun, hprogRun, hsave, hquotas, ne_eq, not_true_eq_false, Bool.false_eq_true, if_false]

/-- Everything of a context goes, and so the context. -/
@[simp] theorem State.ctx_freeCtx_same (s : State) (c : Ctx) (x : CtxSt) : (s.freeCtx c x).ctx c = none := by
  simp [State.freeCtx]

/-- CTX_DESTROY stops a context that runs and frees it, once no command runs on the context's own mailbox (15 R373). -/
theorem execCtxDestroy_of_runs (h : Runs s m 0x11 w) (hwaits : (s.mbx (mbxOf ((cmdTarget m w).val + 1))).started = none)
    (hctx : s.ctx (cmdTarget m w) = some x) :
    execCtxDestroy m s = .next (((if x.running then s.faultStop (cmdTarget m w) .halted else s).freeCtx (cmdTarget m w) x).finishCommand
      m w .done) := by
  obtain ⟨hstarted, hop, hserves⟩ := h
  simp only [execCtxDestroy, hstarted, hop, hserves, hwaits, hctx, ne_eq, not_true_eq_false, decide_false, Option.isSome_none,
    Bool.not_true, Bool.or_self, Bool.false_eq_true, if_false]

/-! ### Memory -/

/-- The answer of MEM_ALLOC where its range is recorded in s: the range's address as its kind has it, and its bytes zeroed. -/
def State.allocated (s : State) (kind die base n i : Nat) : Reply × State :=
  match kind with
  | 0 => (.results ((die + 1) * 2 ^ 36 + base) i, s.zeroStack die base n)
  | 1 => (.results (0x100000000000 + base) i, (List.range 20).foldl (fun st d => st.zeroStack d (base / 20) (n / 20)) s)
  | _ => (.results base i, s.zeroScratch die base n)

/-- A range of whole units that has a free index and a free run is recorded and zeroed; a striped range names no die (15 R378). -/
theorem memAllocReply_done {kind die i u : Nat} (hctx : s.ctx (cmdTarget m w) = some x) (hkind : cmdArg w 0 = kind)
    (hdie : (if kind = 1 then 0 else cmdArg w 1) = die) (hkindMax : kind ≤ 2) (hdieMax : die < 20) (hpos : 0 < cmdArg w 2)
    (hunits : cmdArg w 2 % allocUnit kind = 0) (hindex : x.freeIndex = some i)
    (hrun : s.allocAt x kind die (cmdArg w 2 / allocUnit kind) = some u) :
    memAllocReply m w s =
      (s.updCtx (cmdTarget m w) fun y => { y with ranges := y.ranges ++
        [{ index := i, kind := kind, die := die, base := u * allocUnit kind, len := cmdArg w 2 }] }).allocated
          kind die (u * allocUnit kind) (cmdArg w 2) i := by
  rw [memAllocReply, withCtx_some hctx]
  simp only [hkind, hdie, hunits, hindex, hrun, Nat.not_lt.mpr hkindMax, Nat.not_le.mpr hdieMax, Nat.ne_of_gt hpos, ne_eq,
    not_true_eq_false, decide_false, Bool.or_self, Bool.false_eq_true, if_false]
  rfl

/-- A range on which nothing of its context depends is forgotten, while the context does not run (15 R378). -/
theorem memFreeReply_done {r : Range} (hctx : s.ctx (cmdTarget m w) = some x)
    (hfind : x.ranges.find? (fun r => r.index = cmdArg w 0) = some r) (hstopped : x.running = false)
    (hunused : x.dependsOn r = false) :
    memFreeReply m w s =
      (.done, s.updCtx (cmdTarget m w) fun y => { y with ranges := y.ranges.filter fun q => q.index ≠ r.index }) := by
  rw [memFreeReply, withCtx_some hctx]
  simp only [hfind, hstopped, hunused, Bool.false_eq_true, if_false]

end

/-- Settles O25: the creation record passes its checks in turn; destroying ends with the context's place set free. -/
theorem contextRows : Obligations.ContextRows := by
  intro s m w c
  refine ⟨?create, fun x h hwaits hctx => ⟨execCtxDestroy_of_runs h hwaits hctx, State.ctx_freeCtx_same _ _ _⟩⟩
  case create =>
    intro bs sem prog save h hbuf hlen r hreserved habsent hslots hslotsMax hsems hsemsMax hprog hprogMax hscratch hscratchMax hunits
      hstall haction hsemRun hprogRun hsave hquotas
    change execCtxCreate m (some bs) s = _
    exact suphor_of_reply h rfl (ctxCreateReply_done hbuf hlen ⟨hreserved, habsent, ⟨hslots, hslotsMax⟩, ⟨hsems, hsemsMax⟩,
      ⟨hprog, hprogMax⟩, ⟨hscratch, hscratchMax, hunits⟩, hstall, haction, hsemRun, hprogRun, hsave, hquotas⟩)

/-- Settles O28: the three kinds of ranges are one reply, read at each kind. -/
theorem memoryRanges : Obligations.MemoryRanges := by
  intro s m w x i u c n t hctx
  refine ⟨?stack, ?striped, ?scratch, ?free⟩
  case stack =>
    intro h hkind hdie hpos hunits hindex hrun
    change execMemAlloc m s = _
    exact suphor_of_reply h rfl (memAllocReply_done hctx hkind (if_neg (by decide)) (by decide) hdie hpos hunits hindex hrun)
  case striped =>
    intro h hkind hpos hunits hindex hrun
    change execMemAlloc m s = _
    exact suphor_of_reply h rfl (memAllocReply_done hctx hkind (if_pos rfl) (by decide) (by decide) hpos hunits hindex hrun)
  case scratch =>
    intro h hkind hdie hpos hunits hindex hrun
    change execMemAlloc m s = _
    exact suphor_of_reply h rfl (memAllocReply_done hctx hkind (if_neg (by decide)) (by decide) hdie hpos hunits hindex hrun)
  case free =>
    intro r h hfind hstopped hunused
    change execMemFree m s = _
    exact suphor_of_reply h rfl (memFreeReply_done hctx hfind hstopped hunused)

end Sys2Proof.Machine
end

section
/-! SUPPORT. Proofs: a mailbox and its completions. What the host's writes to a mailbox and a fetch do, and where a completion lands (15
R369 to R374). -/
namespace Sys2Proof.Machine

/-! ### What the host writes -/

section
variable {s : State} {m : Mbx} {v : BitVec 64} {tail : BitVec 32}

theorem execCmdDoorbell_within (hready : s.ready = true)
    (hin : (tail - (s.mbx m).cmdHead).toNat ≤ 2 ^ (s.mbx m).cmdSize.toNat) :
    execCmdDoorbell m tail s = .next (s.updMbx m fun y => { y with cmdTail := tail }) := by
  simp only [execCmdDoorbell, ringSlots, hready, Nat.not_lt.mpr hin, Bool.not_true, Bool.false_eq_true, if_false]

theorem execCmdDoorbell_beyond (hready : s.ready = true)
    (hout : 2 ^ (s.mbx m).cmdSize.toNat < (tail - (s.mbx m).cmdHead).toNat) :
    execCmdDoorbell m tail s = .next (s.updMbx m fun y => { y with tailErr := true }) := by
  simp only [execCmdDoorbell, ringSlots, hready, hout, Bool.not_true, Bool.false_eq_true, if_false, if_true]

/-- A mailbox fetches: Suphor runs, its ring is enabled and holds a record, no fetch has failed, and the host link is up (15 R371). -/
structure State.Fetches (s : State) (m : Mbx) : Prop where
  serves : s.suphorRuns = true
  enabled : (s.mbx m).cmdEnable = true
  sound : (s.mbx m).fetchErr = false
  waiting : (s.mbx m).cmdHead ≠ (s.mbx m).cmdTail
  linked : s.host.link.isSome = true

/-- A record that is read is queued and may start; one that is not sets FETCH_ERR (15 R371). -/
theorem execCommandFetch_of_fetches (h : s.Fetches m) (record : Option (BitVec 512)) :
    execCommandFetch m record s = match record with
      | some w => .next ((s.updMbx m fun y => { y with cmdHead := y.cmdHead + 1, fetched := y.fetched ++ [w] }).startMore m)
      | none => .next (s.updMbx m fun y => { y with fetchErr := true }) := by
  obtain ⟨hserves, henabled, hsound, hwaiting, hlinked⟩ := h
  have hup : s.host.link.isNone = false := by simpa [Option.isNone_eq_false_iff] using hlinked
  simp only [execCommandFetch, hserves, henabled, hsound, hwaiting, hup, Bool.not_true, Bool.or_self, decide_false,
    Bool.false_eq_true, if_false]
  cases record <;> rfl

/-- A SIZE in range is taken while its ring is disabled (log 49). -/
theorem newSize_of_disabled (old : BitVec 4) (hmin : 4 ≤ fld v 3 0) (hmax : fld v 3 0 ≤ 12) :
    newSize old false v = BitVec.ofNat 4 (fld v 3 0) := by
  simp only [newSize, Nat.not_lt.mpr hmin, Nat.not_lt.mpr hmax, decide_false, Bool.or_self, Bool.false_eq_true, if_false]

/-- A ring's BASE is the register at 0x008 of its mailbox's page, and keeps its value while the ring is enabled (15 Table 15.5). -/
theorem execRegisterWrite_cmdBase (m : Mbx) (v : BitVec 64) (s : State) :
    execRegisterWrite 0 (m.val * 4096 + 8) v s = .next (s.updMbx m fun y =>
      if y.cmdEnable then y else { y with cmdBase := BitVec.ofNat 64 (v.toNat / 4096 * 4096) }) := by
  have hpage : mbxOf ((m.val * 4096 + 8) / 4096) = m := Fin.ext (by simp only [mbxOf]; omega)
  have hoffset : (m.val * 4096 + 8) % 4096 = 0x008 := by omega
  have hbar : m.val * 4096 + 8 < 0x9000 := by omega
  simp only [execRegisterWrite, hbar, decide_true, Bool.and_self, if_true, hoffset, hpage]

/-- An update that a mailbox meets as it is changes nothing. -/
theorem State.updMbx_eq_self {f : MbxSt → MbxSt} (h : f (s.mbx m) = s.mbx m) : s.updMbx m f = s := by
  rw [State.mbx] at h
  simp only [State.updMbx, h]
  simp

/-- Two updates that agree on the mailbox as it is are one. -/
theorem State.updMbx_congr {f g : MbxSt → MbxSt} (h : f (s.mbx m) = g (s.mbx m)) : s.updMbx m f = s.updMbx m g := by
  rw [State.mbx] at h
  simp only [State.updMbx, h]

end

/-- Settles O34: each row meets the branch that its hypotheses name. -/
theorem mailboxRows : Obligations.MailboxRows := by
  intro s m v h tail w x
  refine ⟨execCmdDoorbell_within, execCmdDoorbell_beyond, ?fetch, ?command, ?completion, ?event, rfl, rfl, rfl, ?disabled, ?enabled⟩
  case fetch =>
    intro hserves henabled hsound hwaiting hlinked
    have hfetches : s.Fetches m := ⟨hserves, henabled, hsound, hwaiting, hlinked⟩
    exact ⟨execCommandFetch_of_fetches hfetches (some w), execCommandFetch_of_fetches hfetches none⟩
  case command =>
    intro hoff hrises hmin hmax
    change execRingEnableWrite m .cmd v s = _
    simp only [execRingEnableWrite, show (s.mbx m).cmdEnable = false from hoff, hrises, newSize_of_disabled _ hmin hmax,
      Bool.not_false, Bool.and_self, if_true]
  case completion =>
    intro hoff hrises hmin hmax
    change execRingEnableWrite m .cpl v s = _
    simp only [execRingEnableWrite, show (s.mbx m).cplEnable = false from hoff, hrises, newSize_of_disabled _ hmin hmax,
      Bool.not_false, Bool.and_self, if_true]
  case event =>
    intro hoff hrises hmin hmax
    change execRingEnableWrite m .evt v s = _
    simp only [execRingEnableWrite, show (s.mbx m).evtEnable = false from hoff, hrises, newSize_of_disabled _ hmin hmax,
      Bool.not_false, Bool.and_self, if_true]
  case disabled =>
    intro hoff
    refine (execRegisterWrite_cmdBase m v s).trans (congrArg Host.Outcome.next (State.updMbx_congr (if_neg ?_)))
    exact Bool.eq_false_iff.mp hoff
  case enabled =>
    intro hon
    exact (execRegisterWrite_cmdBase m v s).trans (congrArg Host.Outcome.next (State.updMbx_eq_self (if_pos hon)))

/-! ### Completions -/

/-- A byte stored in host memory reads back. -/
theorem State.byteAt_putByte_host_same {s : State} (hwf : SMap.wf 0 s.hostMem = true) (h : Nat) (b : Byte) :
    (s.putByte (.host h) b).byteAt (.host h) = b :=
  SMap.get_put_same hwf _ b

/-- It leaves every other byte of host memory. -/
theorem State.byteAt_putByte_host_other (s : State) {h k : Nat} (b : Byte) (hne : k ≠ h) :
    (s.putByte (.host h) b).byteAt (.host k) = s.byteAt (.host k) :=
  SMap.get_put_other 0 s.hostMem b hne

/-- Each byte of a run stored in host memory reads back. -/
theorem State.byteAt_putBytes_host {s : State} (hwf : s.memoryWf) {h : Nat} {bs : Bytes} {i : Nat} (hi : i < bs.length) :
    (s.putBytes (.host h) bs).byteAt (.host (h + i)) = bs[i] := by
  induction bs using concat_induction with
  | nil => exact absurd hi (Nat.not_lt_zero i)
  | concat bs b ih =>
    rw [State.putBytes_concat, Place.plus]
    obtain ⟨-, -, hhost, -⟩ : (s.putBytes (.host h) bs).memoryWf := (State.putBytes_keeps s _ bs (.refl s)).memory hwf
    rw [List.length_append, List.length_singleton] at hi
    rcases Nat.lt_succ_iff_lt_or_eq.mp hi with hlt | heq
    · rw [State.byteAt_putByte_host_other _ b (by omega), ih hlt, List.getElem_append_left hlt]
    · subst heq
      rw [State.byteAt_putByte_host_same hhost, List.getElem_concat_length rfl]

/-- A write to host memory reads back. -/
theorem State.read_write_host {s : State} (hwf : s.memoryWf) (h : Nat) (bs : Bytes) (poison : Bool) :
    (s.write (.host h) bs poison).read (.host h) bs.length = bs := by
  refine List.ext_getElem (by simp [State.read]) fun i hi hi' => ?_
  simp only [State.read, List.getElem_map, List.getElem_range, Place.plus, State.byteAt_write]
  exact State.byteAt_putBytes_host hwf hi'

/-- A write leaves every mailbox. -/
@[simp] theorem State.mbx_write (s : State) (p : Place) (bs : Bytes) (poison : Bool) (m : Mbx) :
    (s.write p bs poison).mbx m = s.mbx m := by
  have h : (s.write p bs poison).unstored.mbx m = s.unstored.mbx m := by rw [s.unstored_write]
  exact h

/-- The device but for host memory, mailbox m and the raised vectors. -/
def State.besideMailbox (s : State) (m : Mbx) : State :=
  { s with hostMem := [], hostPoison := [], mailboxes := s.mailboxes.set m (MbxSt.reset m.val), host := { s.host with raised := [] } }

@[simp] theorem State.besideMailbox_putBytes_host (s : State) (m : Mbx) (h : Nat) (bs : Bytes) :
    (s.putBytes (.host h) bs).besideMailbox m = s.besideMailbox m := by
  refine foldl_eq_of_step (fun acc : State × Nat => acc.1.besideMailbox m) (fun acc b => ?_) bs (s, 0)
  rfl

@[simp] theorem State.besideMailbox_write_host (s : State) (m : Mbx) (h : Nat) (bs : Bytes) (poison : Bool) :
    (s.write (.host h) bs poison).besideMailbox m = s.besideMailbox m := by
  rw [State.write, State.touchUnits]
  split
  · exact s.besideMailbox_putBytes_host m h bs
  · refine (foldl_eq_of_step (State.besideMailbox · m) (fun st i => ?_) _ _).trans (s.besideMailbox_putBytes_host m h bs)
    extract_lets base q full
    split
    · split <;> rfl
    · split <;> rfl

@[simp] theorem State.besideMailbox_updMbx (s : State) (m : Mbx) (f : MbxSt → MbxSt) :
    (s.updMbx m f).besideMailbox m = s.besideMailbox m := by
  simp [State.besideMailbox, State.updMbx]

/-- A completion changes host memory, its mailbox and the raised vectors alone. -/
@[simp] theorem State.besideMailbox_complete (s : State) (m : Mbx) (w : CmdWord) (r : Reply) :
    (s.complete_ m w r).besideMailbox m = s.besideMailbox m := by
  have hraise : ∀ (t : State) (v : Nat), (t.raise v).besideMailbox m = t.besideMailbox m := fun _ _ => rfl
  rw [State.complete_]
  split
  · simp only [State.putCompletion]
    split
    · rfl
    · split <;> simp only [hraise, State.besideMailbox_updMbx, State.besideMailbox_write_host]
  · exact s.besideMailbox_updMbx m _

/-- What is read beside mailbox m is read alike from devices that agree there. -/
theorem State.eq_of_besideMailbox {β : Type} {s t : State} {m : Mbx} (h : t.besideMailbox m = s.besideMailbox m) (g : State → β)
    (hg : ∀ u : State, g (u.besideMailbox m) = g u) : g t = g s := by
  rw [← hg t, h, hg s]

/-- So is every other mailbox. -/
theorem State.mbx_besideMailbox_other (s : State) {m n : Mbx} (hne : n ≠ m) : (s.besideMailbox m).mbx n = s.mbx n := by
  have hval : m.val ≠ n.val := fun e => hne (Fin.ext e.symm)
  simp [State.besideMailbox, State.mbx, hval]

/-- An enabled ring takes the record, with its PHASE, in the slot of CPL_TAIL, which moves on (15 R374). -/
theorem State.putCompletion_of_enabled (s : State) (m : Mbx) (rec_ : BitVec 256) (irq : Bool) (h : (s.mbx m).cplEnable = true) :
    (s.putCompletion m rec_ irq).hostMem = (s.write (.host ((s.mbx m).cplBase.toNat / 4096 * 4096 +
      32 * ((s.mbx m).cplTail.toNat % 2 ^ (s.mbx m).cplSize.toNat)))
      (leBytes 32 (rec_.toNat + (1 - (s.mbx m).cplTail.toNat / 2 ^ (s.mbx m).cplSize.toNat % 2))) false).hostMem ∧
    ((s.putCompletion m rec_ irq).mbx m).cplTail = (s.mbx m).cplTail + 1 := by
  simp only [State.putCompletion, ringSlots, h, Bool.not_true, Bool.false_eq_true, if_false]
  cases irq <;> simp [State.mbx_write]

/-- Host memories that are one read as one. -/
theorem State.read_host_congr {s t : State} (h : t.hostMem = s.hostMem) (a n : Nat) : t.read (.host a) n = s.read (.host a) n := by
  simp only [State.read, Place.plus, State.byteAt, h]

/-! ### The completion record (15 Table 15.8) -/

theorem Status.code_lt (x : Status) : x.code < 2 ^ 8 := by
  cases x <;> decide

theorem fld_lt {n : Nat} (w : BitVec n) (hi lo : Nat) : fld w hi lo < 2 ^ (hi + 1 - lo) :=
  Nat.mod_lt _ (Nat.two_pow_pos _)

/-- A field of a packed word. -/
theorem cplRecord_toNat (w : CmdWord) (r : Reply) : (cplRecord w r).toNat =
    2 ^ 8 * (r.status.code + 2 ^ 8 * (cmdOp w % 2 ^ 8 + 2 ^ 8 * (r.detail % 2 ^ 8 + 2 ^ 8 * (cmdTag w +
      2 ^ 32 * (r.r0 % 2 ^ 64 + 2 ^ 64 * (r.r1 % 2 ^ 64)))))) := by
  have hcode := r.status.code_lt
  have htag : cmdTag w < 2 ^ 32 := fld_lt w 63 32
  have h0 := Nat.mod_lt r.r0 (Nat.two_pow_pos 64)
  have h1 := Nat.mod_lt r.r1 (Nat.two_pow_pos 64)
  simp only [cplRecord, pack, packNat, BitVec.toNat_ofNat]
  omega

/-- Settles O33: the slot is written and read back from host memory; the record but for PHASE has its fields one after another;
and the device beside the mailbox is as it was. -/
theorem completionWritten : Obligations.CompletionWritten := by
  refine ⟨fun s m w r hwf hlink henabled => ?lands, fun s m w r => ?leaves⟩
  case lands =>
    intro x slot bytes t
    have ht : t = s.putCompletion m (cplRecord w r) (cmdIrq w) := if_pos hlink
    have hput := s.putCompletion_of_enabled m (cplRecord w r) (cmdIrq w) henabled
    rw [← ht] at hput
    obtain ⟨hmem, htail⟩ := hput
    have hrecord := cplRecord_toNat w r
    have hcode := r.status.code_lt
    have htag : cmdTag w < 2 ^ 32 := fld_lt w 63 32
    refine ⟨?slot, htail, ?_, ?_, ?_⟩
    case slot =>
      have hread := State.read_write_host hwf (x.cplBase.toNat / 4096 * 4096 + 32 * slot) bytes false
      rw [show bytes.length = 32 from length_leBytes ..] at hread
      rw [← hread]
      exact State.read_host_congr hmem _ _
    all_goals
      simp only [fld, hrecord, Nat.shiftRight_eq_div_pow]
      omega
  case leaves =>
    have hbeside {β : Type} := State.eq_of_besideMailbox (β := β) (s.besideMailbox_complete m w r)
    exact ⟨hbeside State.stack fun _ => rfl, hbeside State.scratch fun _ => rfl, hbeside State.sems fun _ => rfl,
      hbeside State.program fun _ => rfl, hbeside State.dies fun _ => rfl, hbeside State.ctxs fun _ => rfl,
      hbeside State.links fun _ => rfl, hbeside State.fabric fun _ => rfl, hbeside State.ledger fun _ => rfl,
      hbeside State.flash fun _ => rfl, hbeside State.fuses fun _ => rfl, hbeside State.bootSt fun _ => rfl,
      hbeside State.power fun _ => rfl, fun n hne => hbeside (State.mbx · n) fun u => u.mbx_besideMailbox_other hne⟩

end Sys2Proof.Machine
end

section
/-! SUPPORT. Proofs: management. What the SPDM responder and the PLDM terminus answer (15 R383, R384; 16 R398; logs 52, 53). -/
namespace Sys2Proof.Machine

section
variable {via : SpdmPath} {q : Bytes} {s : State} {code : Nat} {answer : SpdmSt → State → SpdmSt × State}

/-- A responder that answers takes a request of its row's code (15 R383). -/
theorem spdmRow_of_answers (h : s.spdmAnswers via = true) (hcode : reqCode q = code) :
    spdmRow via code q s answer = .next ((answer (s.spdm via) s).2.setSpdm via (answer (s.spdm via) s).1) := by
  simp only [spdmRow, h, hcode, ne_eq, not_true_eq_false, decide_false, Bool.not_true, Bool.or_self, Bool.false_eq_true, if_false]

/-- After negotiation its requests are answered. -/
theorem afterNegotiation_of_answers (h : s.spdmAnswers via = true) (hcode : reqCode q = code)
    (hnegotiated : (s.spdm via).negotiated = true) :
    afterNegotiation via code q s answer = .next ((answer (s.spdm via) s).2.setSpdm via (answer (s.spdm via) s).1) := by
  rw [afterNegotiation, spdmRow_of_answers h hcode]
  simp only [hnegotiated, if_true]

variable (h : s.spdmAnswers via = true)
include h

theorem execSpdmGetVersion_answers (hcode : reqCode q = 0x84) : ∃ y, execSpdmGetVersion via q s = .next (s.setSpdm via y) ∧
    y.vca = q ++ y.response ∧ y.response = [0x10, 0x04, 0, 0, 0, 1, 0x00, 0x13] ∧ y.negotiated = false :=
  ⟨_, spdmRow_of_answers h hcode, rfl, rfl, rfl⟩

theorem execSpdmGetCapabilities_answers (hcode : reqCode q = 0xE1) (hvca : (s.spdm via).vca ≠ []) :
    ∃ y, execSpdmGetCapabilities via q s = .next (s.setSpdm via y) ∧ y.response.take 2 = [0x13, 0x61] ∧
      y.vca = (s.spdm via).vca ++ q ++ y.response := by
  rw [execSpdmGetCapabilities, spdmRow_of_answers h hcode]
  simp only [List.isEmpty_eq_false_iff.mpr hvca, Bool.false_eq_true, if_false]
  exact ⟨_, rfl, rfl, rfl⟩

theorem execSpdmNegotiateAlgorithms_answers (hcode : reqCode q = 0xE3) (hvca : (s.spdm via).vca ≠ [])
    (hasym : (leAt q 8 4).testBit 5 = true) (hhash : (leAt q 12 4).testBit 2 = true) :
    ∃ y, execSpdmNegotiateAlgorithms via q s = .next (s.setSpdm via y) ∧ y.response.take 2 = [0x13, 0x63] ∧
      y.negotiated = true := by
  rw [execSpdmNegotiateAlgorithms, spdmRow_of_answers h hcode]
  simp only [List.isEmpty_eq_false_iff.mpr hvca, hasym, hhash, Bool.not_true, Bool.or_self, Bool.false_eq_true, if_false]
  exact ⟨_, rfl, rfl, rfl⟩

section
variable (hnegotiated : (s.spdm via).negotiated = true)
include hnegotiated

theorem execSpdmGetDigests_answers (hcode : reqCode q = 0x81) : ∃ y, execSpdmGetDigests via q s = .next (s.setSpdm via y) ∧
    y.response = [0x13, 0x01, 0x01, 0x01] ++ sha512 spdmChain :=
  ⟨_, afterNegotiation_of_answers h hcode hnegotiated, rfl⟩

/-- A portion of the chain follows eight bytes: the header and the two lengths. -/
theorem execSpdmGetCertificate_answers (hcode : reqCode q = 0x82) (hslot : reqP1 q % 16 = 0)
    (hoffset : leAt q 4 2 < spdmChain.length) :
    ∃ y, execSpdmGetCertificate via q s = .next (s.setSpdm via y) ∧ y.response.take 2 = [0x13, 0x02] ∧
      y.response.drop 8 = (spdmChain.drop (leAt q 4 2)).take (leAt q 6 2) := by
  rw [execSpdmGetCertificate, afterNegotiation_of_answers h hcode hnegotiated]
  simp only [hslot, Nat.not_le.mpr hoffset, ne_eq, not_true_eq_false, decide_false, Bool.or_self, Bool.false_eq_true, if_false]
  exact ⟨_, rfl, rfl, rfl⟩

theorem execSpdmChallenge_answers (hcode : reqCode q = 0x83) (hslot : reqP1 q = 0) :
    ∃ (t : State) (y : SpdmSt) (m : Bytes), execSpdmChallenge via q s = .next (t.setSpdm via y) ∧
      y.response.take 2 = [0x13, 0x03] ∧ y.certs = [] ∧ ∃ r, y.response = r ++ Config.identitySign m := by
  rw [execSpdmChallenge, afterNegotiation_of_answers h hcode hnegotiated]
  simp only [hslot, ne_eq, not_true_eq_false, if_false]
  exact ⟨_, _, _, rfl, rfl, rfl, _, rfl⟩

/-- The number of blocks, or one of the seven, signed where the request asks for it. -/
theorem execSpdmGetMeasurements_answers (hcode : reqCode q = 0xE0) (hblock : reqP2 q ≤ 7) :
    ∃ (t : State) (y : SpdmSt), execSpdmGetMeasurements via q s = .next (t.setSpdm via y) ∧ y.response.take 2 = [0x13, 0x60] := by
  rw [execSpdmGetMeasurements, afterNegotiation_of_answers h hcode hnegotiated]
  simp only [hblock, decide_true, Bool.true_or, Bool.not_true, Bool.false_eq_true, if_false]
  split
  · exact ⟨_, _, rfl, rfl⟩
  · exact ⟨_, _, rfl, rfl⟩

end

theorem execSpdmUnsupportedRequest_answers (hother : [0x81, 0x82, 0x83, 0x84, 0xE0, 0xE1, 0xE3].contains (reqCode q) = false) :
    execSpdmUnsupportedRequest via q s =
      .next (s.setSpdm via { s.spdm via with response := spdmError 0x07 (reqCode q) }) := by
  rw [execSpdmUnsupportedRequest, hother, if_neg Bool.false_ne_true, spdmRow_of_answers h rfl]

end

/-! ### PLDM -/

section
variable {s : State} (h : s.managed = true)
include h

theorem execPldmSensorRead_some {k : Nat} {v : Int} (hsensor : s.sensor k = some v) :
    execPldmSensorRead k s = .next (s.pldmAnswer (0 :: leBytes 4 (twos 32 v))) := by
  simp only [execPldmSensorRead, h, hsensor, Bool.not_true, Bool.false_eq_true, if_false]

theorem execPldmSensorRead_none {k : Nat} (hsensor : s.sensor k = none) :
    execPldmSensorRead k s = .next (s.pldmAnswer [0x80]) := by
  simp only [execPldmSensorRead, h, hsensor, Bool.not_true, Bool.false_eq_true, if_false]

theorem execPldmCollectorSet_done {collector port : BitVec 64} {address : Bytes} (hindex : collector.toNat ≤ 1)
    (hport : port.toNat < 2 ^ 17) (hlen : address.length = 16) : execPldmCollectorSet collector port address s =
      .next ((s.setCollector collector.toNat (port.toNat % 65536) (bit port 16) address).pldmAnswer [0]) := by
  simp only [execPldmCollectorSet, h, hlen, Nat.not_lt.mpr hindex, Nat.not_le.mpr hport, ne_eq, not_true_eq_false, decide_false,
    Bool.not_true, Bool.or_self, Bool.false_eq_true, if_false]

end

/-- Settles O44: each request finds its responder answering, and its row's answer is the message. -/
theorem managementRows : Obligations.ManagementRows :=
  ⟨fun _ _ _ h => ⟨execSpdmGetVersion_answers h, execSpdmGetCapabilities_answers h, execSpdmNegotiateAlgorithms_answers h,
    fun hnegotiated => ⟨execSpdmGetDigests_answers h hnegotiated, execSpdmGetCertificate_answers h hnegotiated,
      execSpdmChallenge_answers h hnegotiated, execSpdmGetMeasurements_answers h hnegotiated⟩,
    execSpdmUnsupportedRequest_answers h⟩,
  fun _ _ _ _ _ _ h => ⟨execPldmSensorRead_some h, execPldmSensorRead_none h, execPldmCollectorSet_done h⟩⟩

end Sys2Proof.Machine
end

section
/-! SUPPORT. Proofs: what a move leaves. An instruction's body changes no context but its own and never the host link, and a move
that waited, whatever its end, stops no context but its own (09 R220; 12 R299; 15 R364). -/
namespace Sys2Proof.Machine

/-! ### Operations that leave every context and the host link -/

/-- The contexts and the host link. -/
def State.outer (s : State) : Vector (Option CtxSt) 8 × Option HostWidth := (s.ctxs, s.host.link)

theorem State.outer_of_unstored {s t : State} (h : t.unstored = s.unstored) : t.outer = s.outer := by
  have hall : t.unstored.outer = s.unstored.outer := by rw [h]
  exact hall

@[simp] theorem State.write_outer (s : State) (p : Place) (bs : Bytes) (poison : Bool) : (s.write p bs poison).outer = s.outer :=
  State.outer_of_unstored (s.unstored_write p bs poison)

@[simp] theorem State.putBytes_outer (s : State) (p : Place) (bs : Bytes) : (s.putBytes p bs).outer = s.outer :=
  State.outer_of_unstored (s.unstored_putBytes p bs)

@[simp] theorem State.mark_outer (s : State) (p : Place) (o : Origin) : (s.mark p o).outer = s.outer :=
  State.outer_of_unstored (by rw [State.unstored, s.unpoisoned_mark p o, ← State.unstored])

@[simp] theorem State.unmark_outer (s : State) (p : Place) : (s.unmark p).outer = s.outer :=
  State.outer_of_unstored (by rw [State.unstored, s.unpoisoned_unmark p, ← State.unstored])

@[simp] theorem State.updDie_outer (s : State) (d : Die) (f : DieSt → DieSt) : (s.updDie d f).outer = s.outer := rfl

@[simp] theorem State.updDies_outer (s : State) (f : Die → DieSt → DieSt) : (s.updDies f).outer = s.outer := by
  simp only [State.outer, State.updDies_ctxs, State.updDies_host]

@[simp] theorem State.updMbx_outer (s : State) (m : Mbx) (f : MbxSt → MbxSt) : (s.updMbx m f).outer = s.outer := rfl

@[simp] theorem State.raise_outer (s : State) (v : Nat) : (s.raise v).outer = s.outer := rfl

@[simp] theorem State.count_outer (s : State) (d : Die) (ev qual : Nat) (c : Option Nat) (n : Nat) :
    (s.count d ev qual c n).outer = s.outer := rfl

@[simp] theorem State.measure_outer (s : State) (d : Die) (source qual : Nat) (c : Option Nat) (start : Nat) :
    (s.measure d source qual c start).outer = s.outer := by
  simp only [State.outer, State.measure_ctxs, State.measure_host]

@[simp] theorem State.updStall_outer (s : State) (d : Die) (c : Nat) (f : StallSt → StallSt) :
    (s.updStall d c f).outer = s.outer := by
  unfold State.updStall
  split <;> rfl

@[simp] theorem State.noteRead_outer (s : State) (d : Die) (off : Nat) (c : Option Nat) : (s.noteRead d off c).outer = s.outer := by
  cases c with
  | none => rfl
  | some k => exact (State.updStall_outer ..).trans rfl

@[simp] theorem State.countReads_outer (s : State) (d : Die) (off n : Nat) (c : Option Nat) :
    (s.countReads d off n c).outer = s.outer := by
  refine foldl_eq_of_step State.outer (fun st o => ?_) _ s
  dsimp only
  split <;> simp

@[simp] theorem State.countWrites_outer (s : State) (d : Die) (off n : Nat) (c : Option Nat) :
    (s.countWrites d off n c).outer = s.outer := by
  refine foldl_eq_of_step State.outer (fun st o => ?_) _ s
  cases c <;> dsimp only <;> split <;> simp [State.addUnits]

@[simp] theorem State.askUnits_outer (s : State) (d : Die) (off n c : Nat) : (s.askUnits d off n c).outer = s.outer :=
  s.updStall_outer d c _

@[simp] theorem State.chargeDelivery_outer (s : State) (d : Die) (off n c : Nat) :
    (s.chargeDelivery d off n c).outer = s.outer :=
  s.updStall_outer d c _

@[simp] theorem State.makeRec_outer (s : State) (d : Die) (type tier : Nat) (device : Bool) (step ctx : Option Nat) (body : Bytes) :
    (s.makeRec d type tier device step ctx body).2.outer = s.outer := rfl

@[simp] theorem State.enqueue_outer (s : State) (r : Rec) : (s.enqueue r).outer = s.outer := by
  unfold State.enqueue
  dsimp only
  split <;> rfl

@[simp] theorem State.postEvent_outer (s : State) (m : Mbx) (r : Bytes) : (s.postEvent m r).outer = s.outer := by
  unfold State.postEvent
  dsimp only
  split
  · rfl
  · split
    · split <;> rfl
    · split
      · rfl
      · split <;> simp only [State.raise_outer, State.updMbx_outer, State.write_outer]

@[simp] theorem State.post_outer (s : State) (c : Option Nat) (r : Bytes) : (s.post c r).outer = s.outer := by
  unfold State.post
  cases c with
  | none => simp
  | some c => dsimp only; split <;> simp

@[simp] theorem State.recordFault_outer (s : State) (d : Die) (c : Option Nat) (addr : Nat) (f : FaultInfo) :
    (s.recordFault d c addr f).outer = s.outer := by
  simp [State.recordFault, State.log, State.logWith]

@[simp] theorem State.countFault_outer (s : State) (d : Die) (c : Option Nat) (f : FaultInfo) :
    (s.countFault d c f).outer = s.outer := by
  unfold State.countFault
  split <;> simp

@[simp] theorem State.hostPoisonRuns_outer (s : State) (runs : List (Nat × Nat)) : (s.hostPoisonRuns runs).outer = s.outer :=
  foldl_eq_of_step State.outer (fun st _ => foldl_eq_of_step State.outer (fun st _ => st.mark_outer ..) _ st) runs s

@[simp] theorem State.hostStore_outer (s : State) (runs : List (Nat × Nat)) (data : Bytes) :
    (s.hostStore runs data).1.outer = s.outer := by
  refine foldl_eq_of_step (fun acc : State × Bytes => acc.1.outer) (fun acc e => ?_) runs (s, data)
  exact (foldl_eq_of_step State.outer (fun st _ => st.unmark_outer ..) _ _).trans (State.putBytes_outer ..)

/-! ### Bodies -/

/-- What a body leaves: the context it runs for, the host link, and every other context. -/
def Run.beyond (r : Run) : Ctx × Option HostWidth × (Ctx → Option CtxSt) :=
  (r.c, r.s.host.link, fun k => if k = r.c then none else r.s.ctx k)

/-- A body that meets no fault leaves what lies beyond its context. -/
structure ExecLeaves {α : Type} (m : Exec α) : Prop where
  run : ∀ (r : Run) (a : α) (r' : Run), m.run r = .ok (a, r') → r'.beyond = r.beyond

section
variable {α β : Type}

theorem ExecLeaves.pure (a : α) : ExecLeaves (pure a : Exec α) := by
  constructor
  rintro r b r' ⟨⟩
  rfl

/-- What follows an action runs where the action ended. -/
theorem Exec.of_bind_ok {m : Exec α} {f : α → Exec β} {r r' : Run} {b : β} (h : (m >>= f).run r = .ok (b, r')) :
    ∃ a q, m.run r = .ok (a, q) ∧ (f a).run q = .ok (b, r') := by
  rw [StateT.run_bind] at h
  cases hrun : m.run r with
  | error x => rw [hrun] at h; cases h
  | ok p => rw [hrun] at h; exact ⟨p.1, p.2, rfl, h⟩

theorem ExecLeaves.bind {m : Exec α} {f : α → Exec β} (hm : ExecLeaves m) (hf : ∀ a, ExecLeaves (f a)) : ExecLeaves (m >>= f) := by
  constructor
  intro r b r' h
  obtain ⟨a, q, hfirst, hrest⟩ := Exec.of_bind_ok h
  exact ((hf a).run q b r' hrest).trans (hm.run r a q hfirst)

/-- A fault leaves nothing to look at. -/
theorem ExecLeaves.throw (x : Trap) : ExecLeaves (throw x : Exec α) := by
  constructor
  rintro r b r' ⟨⟩

theorem ExecLeaves.get : ExecLeaves (get : Exec Run) := by
  constructor
  rintro r b r' ⟨⟩
  rfl

theorem ExecLeaves.getS : ExecLeaves getS := .bind .get fun _ => .pure _

theorem ExecLeaves.modify {f : Run → Run} (hf : ∀ r, (f r).beyond = r.beyond) : ExecLeaves (modify f : Exec Unit) := by
  constructor
  rintro r b r' ⟨⟩
  exact hf r

/-- A change of the device that leaves the contexts and the host link. -/
theorem Run.beyond_of_outer {r q : Run} (hc : q.c = r.c) (h : q.s.outer = r.s.outer) : q.beyond = r.beyond := by
  have hctxs : q.s.ctxs = r.s.ctxs := congrArg Prod.fst h
  have hlink : q.s.host.link = r.s.host.link := congrArg Prod.snd h
  simp only [Run.beyond, hc, hlink, State.ctx, hctxs]

theorem ExecLeaves.modS {f : State → State} (hf : ∀ s, (f s).outer = s.outer) : ExecLeaves (modS f) :=
  .modify fun r => Run.beyond_of_outer rfl (hf r.s)

theorem ExecLeaves.forM {l : List β} {f : β → Exec PUnit} (hf : ∀ a, ExecLeaves (f a)) : ExecLeaves (l.forM f) := by
  induction l with
  | nil => exact .pure _
  | cons a l ih => exact .bind (hf a) fun _ => ih

theorem ExecLeaves.mapM {l : List α} {f : α → Exec β} (hf : ∀ a, ExecLeaves (f a)) : ExecLeaves (l.mapM f) := by
  induction l with
  | nil => rw [List.mapM_nil]; exact .pure _
  | cons a l ih => rw [List.mapM_cons]; exact (hf a).bind fun _ => ih.bind fun _ => .pure _

theorem ExecLeaves.foldlM {l : List α} {f : β → α → Exec β} (hf : ∀ b a, ExecLeaves (f b a)) (b : β) :
    ExecLeaves (l.foldlM f b) := by
  induction l generalizing b with
  | nil => exact .pure _
  | cons a l ih => rw [List.foldlM_cons]; exact (hf b a).bind ih

theorem ExecLeaves.ite {c : Prop} [Decidable c] {a b : Exec α} (ha : ExecLeaves a) (hb : ExecLeaves b) :
    ExecLeaves (if c then a else b) := by
  split <;> assumption

/-- Either of two ways, and what follows both. -/
theorem ExecLeaves.iteBind {c : Prop} [Decidable c] {a b : Exec α} {k : α → Exec β} (ha : ExecLeaves a) (hb : ExecLeaves b)
    (hk : ∀ x, ExecLeaves (k x)) : ExecLeaves (if c then a >>= k else b >>= k) :=
  .ite (ha.bind hk) (hb.bind hk)

/-- A step on a condition, and what follows with it or without. -/
theorem ExecLeaves.whenBind {c : Prop} [Decidable c] {a : Exec PUnit} {k : PUnit → Exec β} (ha : ExecLeaves a)
    (hk : ∀ x, ExecLeaves (k x)) : ExecLeaves (if c then a >>= k else k ⟨⟩) :=
  .ite (ha.bind hk) (hk _)

end

/-! ### Descriptors and faults -/

theorem contextFault_leaves {α : Type} (a : Nat) : ExecLeaves (contextFault a : Exec α) := .throw _

theorem shapeFault_leaves {α : Type} (i : Nat) : ExecLeaves (shapeFault i : Exec α) := .throw _

theorem shapeIf_leaves (b : Bool) (i : Nat) : ExecLeaves (shapeIf b i) := .ite (.pure _) (shapeFault_leaves i)

theorem getCtx_leaves : ExecLeaves getCtx := by
  refine .bind .get fun r => ?_
  split
  · exact .pure _
  · exact contextFault_leaves 0

theorem setNonfinite_leaves (b : Bool) : ExecLeaves (setNonfinite b) := .modify fun _ => rfl

theorem setTainted_leaves : ExecLeaves setTainted := .modify fun _ => rfl

theorem raiseCompute_leaves (f : FaultInfo) : ExecLeaves (raiseCompute f) :=
  .bind (.modify fun r => Run.beyond_of_outer rfl ((State.recordFault_outer ..).trans (r.s.countFault_outer ..)))
    fun _ => setTainted_leaves

theorem raiseMemory_leaves (f : FaultInfo) : ExecLeaves (raiseMemory f) :=
  .bind (.modify fun r => Run.beyond_of_outer rfl ((State.recordFault_outer ..).trans (r.s.countFault_outer ..)))
    fun _ => setTainted_leaves

theorem metPoison_leaves (o : Origin) (a : Nat) : ExecLeaves (metPoison o a) := by
  cases o with
  | compute => exact setTainted_leaves
  | memory =>
    exact .bind .get fun _ => .ite setTainted_leaves (.bind .get fun _ => .bind (raiseMemory_leaves _) fun _ => .modify fun _ => rfl)

theorem countE_leaves (ev qual n : Nat) : ExecLeaves (countE ev qual n) :=
  .bind .get fun _ => .ite (.pure _) (.modS fun _ => rfl)

/-- Resolving a descriptor reads. -/
theorem resolve_leaves (i : Nat) (v : Want) : ExecLeaves (resolve i v) := by
  have hif {b : Bool} := shapeIf_leaves b i
  refine .bind hif fun _ => .bind getCtx_leaves fun x => .bind .get fun r => .bind hif fun _ => .bind hif fun _ =>
    .bind hif fun _ => .bind hif fun _ => .bind hif fun _ => ?_
  extract_lets act area resolved
  have hresolved : ∀ off, ExecLeaves (resolved off) := by
    intro off
    refine .bind hif fun _ => .bind (.forM fun a => ?_) fun _ => .ite ?_ (.pure _)
    · split
      · exact .pure _
      · exact contextFault_leaves _
    · split
      · exact .pure _
      · exact contextFault_leaves _
  refine .ite (.bind (.pure _) hresolved) ?_
  split
  · exact .bind (.pure _) hresolved
  · exact .bind (contextFault_leaves _) hresolved

/-! ### Reading -/

theorem chargeStack_leaves (d : Die) (o n : Nat) : ExecLeaves (chargeStack d o n) := by
  refine .modify fun r => ?_
  split
  · exact Run.beyond_of_outer rfl (r.s.chargeDelivery_outer ..)
  · exact Run.beyond_of_outer rfl (r.s.askUnits_outer ..)

theorem countStackReads_leaves (t : Tensor) (a n : Nat) : ExecLeaves (countStackReads t a n) := by
  refine .forM fun e => .bind .get fun r => ?_
  split
  · exact .bind (.modify fun _ => rfl) fun _ => .bind (.modS fun s => s.countReads_outer ..) fun _ => chargeStack_leaves ..
  · exact .pure _

theorem raiseSeal_leaves (t : Tensor) (block stored computed : Nat) : ExecLeaves (raiseSeal t block stored computed) :=
  .bind .get fun _ => raiseMemory_leaves _

theorem readBlock_leaves (t : Tensor) (r k : Nat) : ExecLeaves (readBlock t r k) := by
  refine .bind .getS fun s => .bind (countStackReads_leaves ..) fun _ => .whenBind (countStackReads_leaves ..) fun _ => ?_
  extract_lets sealBad
  split
  · exact .bind (metPoison_leaves ..) fun _ => .ite (.pure _) (.pure _)
  · exact .bind (metPoison_leaves ..) fun _ => .pure _
  · exact .ite (.ite (.pure _) (.bind (raiseSeal_leaves ..) fun _ => .pure _)) (.pure _)

theorem readRow_leaves (t : Tensor) (r : Nat) : ExecLeaves (readRow t r) :=
  .bind (.mapM (readBlock_leaves t r)) fun _ => .pure _

theorem readElems_leaves (t : Tensor) : ExecLeaves (readElems t) :=
  .bind (.mapM (readRow_leaves t)) fun _ => .pure _

theorem readPart_leaves (t : Tensor) (lo hi : Nat) : ExecLeaves (readPart t lo hi) := by
  refine .ite (.bind (.mapM fun j => readBlock_leaves ..) fun _ => .pure _) (.bind .getS fun s => ?_)
  refine .bind (.forM fun k => .ite (countStackReads_leaves ..) (.pure _)) fun _ => ?_
  extract_lets marks
  split
  · exact .bind (metPoison_leaves ..) fun _ => .pure _
  · exact .pure _

/-! ### Writing -/

theorem storeAt_leaves (p : Place) (bs : Bytes) (poison : Bool) : ExecLeaves (storeAt p bs poison) := by
  refine .bind .get fun r => .bind (.modS fun s => s.write_outer ..) fun _ => .bind (.modify fun _ => rfl) fun _ => ?_
  cases p with
  | st d o => exact .bind (.modify fun _ => rfl) fun _ => .bind (.modS fun s => s.countWrites_outer ..) fun _ => chargeStack_leaves ..
  | sp d o => exact .pure _
  | host h => exact .pure _

theorem storeRun_leaves (t : Tensor) (a : Nat) (bs : Bytes) (poison : Bool) : ExecLeaves (storeRun t a bs poison) := by
  refine .forM fun e => ?_
  split
  split
  · exact storeAt_leaves ..
  · exact .pure _

theorem storeSeal_leaves (t : Tensor) (j : Nat) (bs : Bytes) : ExecLeaves (storeSeal t j bs) :=
  .ite (storeRun_leaves ..) (.pure _)

theorem writeSpan_leaves (t : Tensor) (r off : Nat) (bs : List PByte) : ExecLeaves (writeSpan t r off bs) := by
  refine .whenBind setTainted_leaves fun _ => .forM fun k => ?_
  refine .ite (.pure _) (.ite (.forM fun e => storeRun_leaves ..) (.ite ?whole ?part))
  case whole => exact .bind (storeRun_leaves ..) fun _ => storeSeal_leaves ..
  case part =>
    exact .bind .getS fun s => .whenBind (raiseSeal_leaves ..) fun _ => .iteBind (storeRun_leaves ..)
      (storeRun_leaves ..) fun _ => storeSeal_leaves ..

theorem onOutput_leaves (k : Nat) {m : Exec Unit} (hm : ExecLeaves m) : ExecLeaves (onOutput k m) :=
  .bind .get fun _ => .bind (.modify fun _ => rfl) fun _ => .bind hm fun _ => .modify fun _ => rfl

theorem writeRow_leaves (t : Tensor) (r : Nat) (bs : List PByte) : ExecLeaves (writeRow t r bs) :=
  .bind .get fun _ => writeSpan_leaves ..

theorem writeElems_leaves (t : Tensor) (rows : List (List PElem)) : ExecLeaves (writeElems t rows) :=
  .bind .get fun _ => .forM fun _ => writeSpan_leaves ..

theorem writeFlat_leaves (t : Tensor) (off : Nat) (bs : List PByte) : ExecLeaves (writeFlat t off bs) :=
  .forM fun _ => .ite (.pure _) (writeSpan_leaves ..)

theorem writeFlatOut_leaves (t : Tensor) (off : Nat) (bs : List PByte) : ExecLeaves (writeFlatOut t off bs) :=
  .bind .get fun _ => writeFlat_leaves ..

/-! ### Operand sets -/

theorem readUnit_leaves (v : SetIn) (u : Nat) : ExecLeaves (readUnit v u) := by
  refine .bind .getS fun s => .bind ?sealed fun _ => .bind (.forM fun e => ?span) fun _ => ?checks
  case sealed =>
    split
    · exact .ite (countStackReads_leaves ..) (.pure _)
    · exact .pure _
  case span =>
    split
    split
    · exact .forM fun i => .ite (countStackReads_leaves ..) (.pure _)
    · exact .pure _
  case checks =>
    extract_lets marks tagged sealMark
    split
    · exact .bind (metPoison_leaves ..) fun _ => .pure _
    · exact .ite (.pure _) (.ite (.pure _) (.bind (raiseSeal_leaves ..) fun _ => .pure _))
    · exact .pure _

theorem readUnits_leaves (v : SetIn) (outs reds : Nat × Nat) : ExecLeaves (readUnits v outs reds) :=
  .foldlM readUnit_leaves v

theorem openSet_leaves (base : Nat) (v : SetWant) : ExecLeaves (openSet base v) := by
  refine .bind (resolve_leaves ..) fun th => .bind (shapeIf_leaves ..) fun _ => .bind (readPart_leaves ..) fun flat =>
    .ite (.pure _) (.bind getCtx_leaves fun x => .bind (resolve_leaves ..) fun t1 => .bind (shapeIf_leaves ..) fun _ =>
      .bind (shapeIf_leaves ..) fun _ => .bind (readPart_leaves ..) fun more => .ite (.pure _)
        (.bind (shapeIf_leaves ..) fun _ => .bind (.mapM fun _ => ?_) fun _ => .pure _))
  exact .ite (.pure _) (.ite (.pure _)
    (.ite (.bind (resolve_leaves ..) fun _ => .bind (shapeIf_leaves ..) fun _ => .pure _) (.pure _)))

theorem openDest_leaves (base : Nat) (v : SetOut) (area : AreaSel) (far move : Bool) :
    ExecLeaves (openDest base v area far move) :=
  .mapM fun _ => .ite (.bind (resolve_leaves ..) fun _ => .bind (shapeIf_leaves ..) fun _ =>
    .whenBind (shapeIf_leaves ..) fun _ => .pure _) (.pure _)

theorem raisePairing_leaves (p : Pairing) : ExecLeaves (raisePairing p) := raiseCompute_leaves _

theorem tagPlane_leaves (t : Tensor) (g : SetShape) (p : Nat) (ks : List Nat) : ExecLeaves (tagPlane t g p ks) := by
  refine .forM fun k => ?_
  split
  · exact .ite (.modS fun _ => rfl) (.pure _)
  · exact .pure _

theorem writePlane_leaves (t : Tensor) (g : SetShape) (p : Nat) (bs : List (Nat × PByte)) : ExecLeaves (writePlane t g p bs) :=
  .bind (.forM fun _ => writeFlat_leaves ..) fun _ => tagPlane_leaves ..

theorem sealUnits_leaves (v : SetIn) (us : List Nat) : ExecLeaves (sealUnits v us) := by
  refine .forM fun u => .bind .getS fun s => ?_
  split
  · exact storeRun_leaves ..
  · exact .pure _

/-! ### The bodies of moves (09 R220 to R228) -/

theorem mvRead_leaves (i : Nat) (fmts : List Nat) : ExecLeaves (mvRead i fmts) := resolve_leaves ..

theorem mvWrite_leaves (i : Nat) (fmts : List Nat) : ExecLeaves (mvWrite i fmts) := resolve_leaves ..

theorem mvCount_leaves (w : IWord) (n : Nat) : ExecLeaves (mvCount w n) := countE_leaves ..

theorem copyBody_leaves (w : IWord) : ExecLeaves (copyBody w) :=
  .bind (mvRead_leaves ..) fun _ => .bind (mvWrite_leaves ..) fun _ => .bind (shapeIf_leaves ..) fun _ =>
    .bind (readElems_leaves _) fun _ => .bind (setNonfinite_leaves _) fun _ => .ite
      (.bind (writeElems_leaves ..) fun _ => mvCount_leaves ..)
      (.bind (setNonfinite_leaves _) fun _ => .bind (writeElems_leaves ..) fun _ => mvCount_leaves ..)

theorem fillBody_leaves (w : IWord) : ExecLeaves (fillBody w) :=
  .bind (mvWrite_leaves ..) fun _ => .bind (writeElems_leaves ..) fun _ => mvCount_leaves ..

theorem sealBody_leaves (w : IWord) : ExecLeaves (sealBody w) := by
  refine .bind (mvWrite_leaves ..) fun b => .bind (shapeIf_leaves ..) fun _ =>
    .bind (.forM fun r => .forM fun k => .bind .getS fun s => .bind (countStackReads_leaves ..) fun _ => ?_) fun _ => mvCount_leaves ..
  split
  · exact .bind (metPoison_leaves ..) fun _ => storeSeal_leaves ..
  · exact storeSeal_leaves ..

theorem poisonPlanes_leaves (g : SetShape) (np : Nat) (ps : List Nat) (planes : List (Option Tensor)) :
    ExecLeaves (poisonPlanes g np ps planes) := by
  refine .forM fun k => ?_
  split
  · exact writePlane_leaves ..
  · exact .pure _

theorem poisonSet_leaves (base : Nat) : ExecLeaves (poisonSet base) :=
  .forM fun _ => .bind (resolve_leaves ..) fun _ => writeFlat_leaves ..

theorem setcopyBody_leaves (w : IWord) : ExecLeaves (setcopyBody w) := by
  refine .bind (openSet_leaves ..) fun v => .ite (poisonSet_leaves _) ?_
  extract_lets opened copied
  have hcopied : ∀ v, ExecLeaves (copied v) := by
    intro v
    refine .bind (openDest_leaves ..) fun planes => ?_
    extract_lets np counted unitOf headed written
    have hcounted : ∀ x, ExecLeaves (counted x) := fun _ => mvCount_leaves ..
    have hheaded : ∀ x, ExecLeaves (headed x) := by
      intro x
      unfold headed
      split
      · exact .bind (onOutput_leaves 12 (writeFlatOut_leaves ..)) hcounted
      · exact hcounted ⟨⟩
    have hwritten : ∀ x, ExecLeaves (written x) := by
      intro x
      refine .ite (.bind (poisonPlanes_leaves ..) fun _ => ?poisoned) (.bind .getS fun s => .bind .get fun r =>
        .whenBind setTainted_leaves fun _ => .bind (.forM fun k => ?plane) fun _ => ?seals)
      case poisoned =>
        split
        · exact .bind (writeFlat_leaves ..) hcounted
        · exact hcounted ⟨⟩
      case plane =>
        split
        · exact writePlane_leaves ..
        · exact .pure _
      case seals =>
        split
        · exact .ite (hheaded ⟨⟩) (.iteBind (.forM fun u => storeRun_leaves ..) (sealUnits_leaves ..) hheaded)
        · exact hheaded ⟨⟩
    split
    · exact .bind (raisePairing_leaves _) hwritten
    · exact hwritten ⟨⟩
  exact .iteBind (.pure _) (readUnits_leaves ..) hcopied

theorem readIndex_leaves (i n : Nat) : ExecLeaves (readIndex i n) :=
  .bind (mvRead_leaves ..) fun _ => .bind (shapeIf_leaves ..) fun _ => .bind (readElems_leaves _) fun _ => .pure _

theorem raiseIndex_leaves (pos : Nat) (i : Int) : ExecLeaves (raiseIndex pos i) := raiseCompute_leaves _

theorem gatherBody_leaves (w : IWord) : ExecLeaves (gatherBody w) := by
  refine .bind (mvRead_leaves ..) fun a => .bind (mvWrite_leaves ..) fun b => .bind (shapeIf_leaves ..) fun _ =>
    .bind (readIndex_leaves ..) fun sels => .bind (shapeIf_leaves ..) fun _ => .bind (.forM fun win => ?window) fun _ =>
      .bind (countE_leaves ..) fun _ => mvCount_leaves ..
  case window =>
    refine .bind (.mapM (readRow_leaves a)) fun rows => .bind (setNonfinite_leaves _) fun _ => .forM fun e => ?_
    split
    split
    · exact writeRow_leaves ..
    · exact writeRow_leaves ..
    · exact .bind (raiseIndex_leaves ..) fun _ => writeRow_leaves ..
    · exact writeRow_leaves ..

theorem scatterBody_leaves (w : IWord) : ExecLeaves (scatterBody w) := by
  refine .bind (mvRead_leaves ..) fun a => .bind (mvWrite_leaves ..) fun b => .bind (shapeIf_leaves ..) fun _ =>
    .bind (readIndex_leaves ..) fun sels => .bind (shapeIf_leaves ..) fun _ => .forM fun e => ?_
  split
  split
  · exact .bind (readRow_leaves ..) fun _ => .ite (.pure _)
      (.bind (setNonfinite_leaves _) fun _ => .bind (writeRow_leaves ..) fun _ => mvCount_leaves ..)
  · exact .pure _
  · exact raiseIndex_leaves ..
  · exact setTainted_leaves

theorem scatterAddBody_leaves (w : IWord) : ExecLeaves (scatterAddBody w) := by
  refine .bind (mvRead_leaves ..) fun a => .bind (mvWrite_leaves ..) fun b => .bind (shapeIf_leaves ..) fun _ =>
    .bind (readIndex_leaves ..) fun sels => .bind (shapeIf_leaves ..) fun _ => .bind (.forM fun e => ?index) fun _ =>
      .forM fun k => .bind (readRow_leaves ..) fun _ => .bind (.mapM (readRow_leaves a)) fun _ =>
        .bind (setNonfinite_leaves _) fun _ => .bind (writeRow_leaves ..) fun _ => mvCount_leaves ..
  case index =>
    split
    split
    · exact raiseIndex_leaves ..
    · exact setTainted_leaves
    · exact .pure _

theorem windowBody_leaves (w : IWord) : ExecLeaves (windowBody w) := by
  refine .bind (mvRead_leaves ..) fun a => .bind (mvWrite_leaves ..) fun b => ?_
  extract_lets cN wd ht
  split
  · exact .bind (shapeIf_leaves ..) fun _ => .bind (readElems_leaves a) fun _ => .bind (setNonfinite_leaves _) fun _ =>
      .bind (writeElems_leaves ..) fun _ => mvCount_leaves ..
  · exact shapeFault_leaves _

theorem mvBody_leaves (w : IWord) : ExecLeaves (mvBody w) := by
  unfold mvBody
  split
  · exact copyBody_leaves w
  · exact setcopyBody_leaves w
  · exact gatherBody_leaves w
  · exact scatterBody_leaves w
  · exact scatterAddBody_leaves w
  · exact windowBody_leaves w
  · exact fillBody_leaves w
  · exact sealBody_leaves w

/-! ### Moves that the host answers (15 R364) -/

theorem hostRefused_leaves (w : IWord) : ExecLeaves (hostRefused w) :=
  .bind .get fun _ => .ite (mvBody_leaves w)
    (.bind getCtx_leaves fun _ => .bind (raiseMemory_leaves _) fun _ => setTainted_leaves)

theorem mvNow_leaves (w : IWord) : ExecLeaves (mvNow w) :=
  .bind .get fun _ => .ite
    (.bind getCtx_leaves fun _ => .bind (.modS fun s => s.hostPoisonRuns_outer _) fun _ => hostRefused_leaves w) (mvBody_leaves w)

/-- The descriptors that a body runs with are its own context's. -/
theorem Run.beyond_updCtx (r : Run) {c : Ctx} (hc : c = r.c) (f : CtxSt → CtxSt) :
    ({ r with s := r.s.updCtx c f } : Run).beyond = r.beyond := by
  subst hc
  simp only [Run.beyond, State.updCtx_host, State.ctx_updCtx]
  congr 2
  funext k
  split
  · rfl
  · next hne => rw [if_neg (Ne.symm hne)]

theorem withDescs_leaves {α : Type} (ds : SMap (BitVec 512)) {m : Exec α} (hm : ExecLeaves m) : ExecLeaves (withDescs ds m) := by
  constructor
  intro r a r' h
  obtain ⟨now, q0, hnow, h⟩ := Exec.of_bind_ok h
  obtain ⟨_, _, ⟨⟩, h⟩ := Exec.of_bind_ok h
  obtain ⟨_, _, ⟨⟩, h⟩ := Exec.of_bind_ok h
  obtain ⟨v, q, hbody, h⟩ := Exec.of_bind_ok h
  obtain ⟨_, _, ⟨⟩, h⟩ := Exec.of_bind_ok h
  cases h
  have hq := (hm.run _ _ _ hbody).trans (q0.beyond_updCtx rfl _)
  have hc : q.c = q0.c := congrArg Prod.fst hq
  exact (q.beyond_updCtx hc.symm _).trans (hq.trans (getCtx_leaves.run _ _ _ hnow))

/-! ### Queues of moves -/

/-- The host link and context c of a device. -/
def State.linkAnd (s : State) (c : Ctx) : Option HostWidth × Option CtxSt := (s.host.link, s.ctx c)

theorem State.linkAnd_of_outer {s t : State} (h : t.outer = s.outer) (c : Ctx) : t.linkAnd c = s.linkAnd c := by
  have hctxs : t.ctxs = s.ctxs := congrArg Prod.fst h
  have hlink : t.host.link = s.host.link := congrArg Prod.snd h
  simp only [State.linkAnd, State.ctx, hctxs, hlink]

theorem State.link_eq_of_linkAnd {s t : State} {c : Ctx} (h : t.linkAnd c = s.linkAnd c) : t.host.link = s.host.link :=
  congrArg Prod.fst h

theorem State.ctx_eq_of_linkAnd {s t : State} {c : Ctx} (h : t.linkAnd c = s.linkAnd c) : t.ctx c = s.ctx c :=
  congrArg Prod.snd h

/-- What a body of another context ends with has context c and the host link as they were. -/
theorem Run.linkAnd_of_beyond {r q : Run} {c : Ctx} (h : q.beyond = r.beyond) (hc : c ≠ r.c) :
    q.s.linkAnd c = r.s.linkAnd c := by
  have hsame : q.c = r.c := congrArg Prod.fst h
  have hlink : q.s.host.link = r.s.host.link := congrArg (·.2.1) h
  have hctx : (if c = q.c then none else q.s.ctx c) = if c = r.c then none else r.s.ctx c := congrArg (·.2.2 c) h
  rw [hsame, if_neg hc, if_neg hc] at hctx
  rw [State.linkAnd, hlink, hctx, State.linkAnd]

section
variable (s : State) {c k : Ctx} (hne : k ≠ c)
include hne

theorem State.linkAnd_updCtx (f : CtxSt → CtxSt) : (s.updCtx k f).linkAnd c = s.linkAnd c := by
  simp [State.linkAnd, hne]

theorem State.linkAnd_faultStop (cause : StopCause) : (s.faultStop k cause).linkAnd c = s.linkAnd c := by
  rw [State.linkAnd, State.faultStop_host, State.ctx_faultStop, if_neg hne, State.linkAnd]

theorem State.linkAnd_stopFault (d : Die) (addr : Nat) (f : FaultInfo) (cause : StopCause) :
    (s.stopFault d k addr f cause).linkAnd c = s.linkAnd c := by
  rw [State.stopFault, State.linkAnd_faultStop _ hne]
  exact State.linkAnd_of_outer ((State.recordFault_outer ..).trans (s.countFault_outer ..)) c

end

/-- An instruction's end is its own context's alone (06 R148; 12 R299). -/
theorem Run.linkAnd_close (r : Run) {c : Ctx} (hne : r.c ≠ c) (was : Bool) (place : List InFlight → List InFlight) :
    (r.close was place).linkAnd c = r.s.linkAnd c := by
  unfold Run.close
  extract_lets tainted nonfinite counted placed
  have htainted : tainted.linkAnd c = r.s.linkAnd c := by
    unfold tainted
    split
    · exact r.s.linkAnd_updCtx hne _
    · rfl
  have hnonfinite : nonfinite.linkAnd c = tainted.linkAnd c := by
    unfold nonfinite
    split
    · exact tainted.linkAnd_updCtx hne _
    · rfl
  have hcounted : counted.linkAnd c = nonfinite.linkAnd c := by
    unfold counted
    split
    · exact State.linkAnd_of_outer rfl c
    · rfl
  have hplaced : placed.linkAnd c = r.s.linkAnd c :=
    (State.linkAnd_updCtx _ hne _).trans (hcounted.trans (hnonfinite.trans htainted))
  split
  · exact (placed.linkAnd_faultStop hne _).trans hplaced
  · exact hplaced

/-! ### Queues of moves (09 R220) -/

/-- A move of a stream with nothing in flight leaves its queue and does nothing else. -/
theorem State.runMove_of_empty {s : State} {d : Die} {m : MoveWait} {body : Exec Unit}
    (h : ∀ t, s.stream d (ctxOf m.ctx) = some t → t.inflight = []) :
    s.runMove d m body = s.updDie d fun x => { x with moves := x.moves.erase m } := by
  have hstream : (s.updDie d fun x => { x with moves := x.moves.erase m }).stream d (ctxOf m.ctx) = s.stream d (ctxOf m.ctx) := rfl
  unfold State.runMove
  dsimp only
  rw [hstream]
  split
  · rfl
  · next t ht => rw [h t ht]; rfl

/-- A move of another context leaves context c and the host link. -/
theorem State.linkAnd_runMove (s : State) (d : Die) (m : MoveWait) {body : Exec Unit} (hbody : ExecLeaves body) {c : Ctx}
    (hne : ctxOf m.ctx ≠ c) : (s.runMove d m body).linkAnd c = s.linkAnd c := by
  unfold State.runMove
  extract_lets k left
  have hleft : left.linkAnd c = s.linkAnd c := rfl
  split
  · exact hleft
  · split
    · exact hleft
    · split
      · exact hleft
      · extract_lets begun
        split
        · exact (State.linkAnd_stopFault _ hne ..).trans ((State.linkAnd_updCtx _ hne _).trans hleft)
        · next r hrun =>
          have hbeyond := (withDescs_leaves m.descs hbody).run _ _ _ hrun
          have hc : r.c = k := congrArg Prod.fst hbeyond
          exact (r.linkAnd_close (hc ▸ hne) _ _).trans ((Run.linkAnd_of_beyond hbeyond hne.symm).trans hleft)

/-- A context is not the only one. -/
theorem Ctx.exists_ne : ∀ k : Ctx, ∃ c, k ≠ c := by decide

/-- No move changes the host link. -/
theorem State.link_runMove (s : State) (d : Die) (m : MoveWait) {body : Exec Unit} (hbody : ExecLeaves body) :
    (s.runMove d m body).host.link = s.host.link := by
  obtain ⟨c, hc⟩ := Ctx.exists_ne (ctxOf m.ctx)
  exact State.link_eq_of_linkAnd (s.linkAnd_runMove d m hbody hc)

/-- What holds of a device whatever is noted of die d, and whatever moves of die d run, holds as a queue of d advances. -/
theorem State.advanceQueue_induction {P : State → Prop} {d : Die} (hnote : ∀ s f, P s → P (s.updDie d f))
    (hrun : ∀ s m, P s → P (s.runMove d m (mvNow m.word))) (q : Nat) :
    ∀ (n : Nat) (s : State), P s → P (State.advanceQueue d q n s)
  | 0, _, h => h
  | n + 1, s, h => by
    unfold State.advanceQueue
    split
    · exact h
    · next m _ =>
      split
      · exact h
      · split
        · exact hnote s _ h
        · exact State.advanceQueue_induction hnote hrun q n _ (hrun s m h)

theorem State.link_advanceQueue (s : State) (d : Die) (q n : Nat) : (State.advanceQueue d q n s).host.link = s.host.link :=
  State.advanceQueue_induction (P := fun t => t.host.link = s.host.link) (fun _ _ h => h)
    (fun t m h => (t.link_runMove d m (mvNow_leaves _)).trans h) q n s rfl

/-- Dropping the moves of a context whose stream on die d has nothing in flight, with the queues advancing, leaves the context. -/
theorem State.linkAnd_dropMoves {s : State} {d : Die} {c : Ctx} (h : ∀ t, s.stream d c = some t → t.inflight = []) :
    (s.dropMoves d c).linkAnd c = s.linkAnd c := by
  have hmove : ∀ (t : State) (m : MoveWait), t.linkAnd c = s.linkAnd c →
      (t.runMove d m (mvNow m.word)).linkAnd c = s.linkAnd c := by
    intro t m ht
    by_cases hc : ctxOf m.ctx = c
    · rw [State.runMove_of_empty (by rw [hc, State.stream, State.ctx_eq_of_linkAnd ht]; exact h)]
      exact ht
    · exact (t.linkAnd_runMove d m (mvNow_leaves _) hc).trans ht
  unfold State.dropMoves
  refine List.foldlRecOn (motive := fun t : State => t.linkAnd c = s.linkAnd c) _ _ rfl fun t ht q _ => ?_
  exact State.advanceQueue_induction (P := fun t => t.linkAnd c = s.linkAnd c) (fun _ _ h => h) hmove q _ t ht

/-- What the host answers, and what the move then does, leave the host link. -/
theorem State.takeReply_leaves (s : State) (d : Die) (m : MoveWait) (reply : HostReply) :
    (s.takeReply d m reply).1.host.link = s.host.link ∧ ExecLeaves (s.takeReply d m reply).2 := by
  have hlink {t u : State} (h : t.outer = u.outer) : t.host.link = u.host.link := congrArg Prod.snd h
  cases reply with
  | completed data => exact ⟨hlink ((State.hostStore_outer ..).trans (s.hostStore_outer ..)), mvBody_leaves _⟩
  | refused => exact ⟨hlink (s.hostPoisonRuns_outer _), hostRefused_leaves _⟩
  | poisoned e => exact ⟨hlink (s.hostPoisonRuns_outer _), .ite (mvBody_leaves _) (hostRefused_leaves _)⟩

/-- No answer of the host changes its link. -/
theorem State.link_hostAnswer (s : State) (d : Die) (c : Ctx) (index : Nat) (reply : HostReply) :
    (s.hostAnswer d c index reply).host.link = s.host.link := by
  unfold State.hostAnswer
  split
  · rfl
  · split
    · rfl
    · next m _ =>
      obtain ⟨htaken, hbody⟩ := s.takeReply_leaves d m reply
      exact (State.link_advanceQueue ..).trans ((State.link_runMove _ d m hbody).trans htaken)

end Sys2Proof.Machine
end

section
/-! SUPPORT. Proofs: the host link. It goes down, comes up at a width, fails to train, and is reset (15 R363, R364; 16 R385; log 50). -/
namespace Sys2Proof.Machine

/-- A host link that is lost is down. -/
@[simp] theorem State.link_dropHostLink (s : State) : s.dropHostLink.host.link = none :=
  foldl_eq_of_step (fun t : State => t.host.link) (fun st _ => st.link_hostAnswer ..) _ _

theorem execHostLinkDown_of_up {s : State} (h : s.host.link.isSome = true) : execHostLinkDown s = .next s.dropHostLink := if_pos h

section
variable {s : State} (hdown : s.host.link = none) (hport : s.hostPortUp = true)
include hdown hport

theorem execHostLinkUp_of_down (u : HostWidth) : execHostLinkUp u s = .next (s.raiseHostLink u) := by
  simp only [execHostLinkUp, hdown, hport, Option.isNone_none, Bool.and_self, if_true]

theorem execHostLinkRetrain_some_of_down (u : HostWidth) : execHostLinkRetrain (some u) s = .next (s.raiseHostLink u) := by
  simp only [execHostLinkRetrain, hdown, hport, Option.isSome_none, Bool.not_true, Bool.or_self, Bool.false_eq_true, if_false]

/-- A retraining that fails is reported. -/
theorem execHostLinkRetrain_none_of_down :
    execHostLinkRetrain none s = .next (s.logDevice 0x07 1 none true (eventBody 0 5 12 0xFF 0 0 0 0)) := by
  simp only [execHostLinkRetrain, hdown, hport, Option.isSome_none, Bool.not_true, Bool.or_self, Bool.false_eq_true, if_false]

end

/-- A reset of the host port loses the link and returns every mailbox to its reset values but for the command that runs. -/
theorem execHostPortReset_resets (s : State) : ∃ t, execHostPortReset s = .next t ∧ t.host.link = none ∧ t.host.msix = [] ∧
    t.host.component = [] ∧
    ∀ m : Mbx, t.mbx m = { MbxSt.reset m.val with started := (s.dropHostLink.mbx m).started } :=
  ⟨_, rfl, s.link_dropHostLink, rfl, rfl, fun m => by simp [State.mbx]⟩

/-- Settles O35: the link's loss ends requests of the window, none of which brings it back. -/
theorem hostLinkRows : Obligations.HostLinkRows := by
  intro s u
  refine ⟨execHostLinkDown_of_up, fun hdown hport => ⟨execHostLinkUp_of_down hdown hport u,
    execHostLinkRetrain_some_of_down hdown hport u, execHostLinkRetrain_none_of_down hdown hport⟩, ?reset⟩
  case reset =>
    obtain ⟨t, hexec, hlink, hmsix, hcomponent, hmbx⟩ := execHostPortReset_resets s
    refine ⟨t, hexec, hlink, hmsix, hcomponent, fun m => ?_⟩
    rw [hmbx m]
    exact ⟨rfl, rfl, rfl, rfl⟩

end Sys2Proof.Machine
end

section
/-! SUPPORT. Proofs: launching and stopping. LAUNCH starts the streams of its mask, whatever the queues that its dropped moves let go on
then do, and STOP contributes FAULT (15 R381; 01 R19; 06 R149; 13 R327). -/
namespace Sys2Proof.Machine

/-! ### A context whose streams have started -/

@[simp] theorem CtxSt.verdict_updStreams (x : CtxSt) (f : Die → Stream → Stream) : (x.updStreams f).verdict = x.verdict := by
  simp only [CtxSt.updStreams]

@[simp] theorem CtxSt.startStep_updStreams (x : CtxSt) (f : Die → Stream → Stream) : (x.updStreams f).startStep = x.startStep := by
  simp only [CtxSt.updStreams]

@[simp] theorem CtxSt.stepGroup_updStreams (x : CtxSt) (f : Die → Stream → Stream) : (x.updStreams f).stepGroup = x.stepGroup := by
  simp only [CtxSt.updStreams]

/-- The context has been launched at `entry` on the dies of `mask`, for the step and the group: nothing is in its verdict, and each of
those streams is as its launch leaves it but for its sampling gap. -/
structure CtxSt.LaunchedAt (x : CtxSt) (mask : BitVec 20) (entry step handle : Nat) : Prop where
  verdict : x.verdict = 0
  step : x.startStep = step
  group : x.stepGroup = handle
  streams : ∀ d : Die, mask.getLsbD d = true → ∃ gap, x.stream d = { launched entry with nextSample := gap }

/-- A device whose context c has been launched so. -/
def State.Launched (s : State) (c : Ctx) (mask : BitVec 20) (entry step handle : Nat) : Prop :=
  ∃ x, s.ctx c = some x ∧ x.LaunchedAt mask entry step handle

section
variable {s t : State} {c : Ctx} {mask : BitVec 20} {entry step handle : Nat}

theorem State.Launched.of_ctx (h : s.Launched c mask entry step handle) (hctx : t.ctx c = s.ctx c) :
    t.Launched c mask entry step handle := by
  obtain ⟨x, hx, hlaunched⟩ := h
  exact ⟨x, hctx.trans hx, hlaunched⟩

/-- A stream that has just been launched has nothing in flight, so that dropping its moves leaves its context. -/
theorem State.Launched.dropMoves (h : s.Launched c mask entry step handle) {d : Die} (hd : mask.getLsbD d = true) :
    (s.dropMoves d c).Launched c mask entry step handle := by
  refine h.of_ctx (State.ctx_eq_of_linkAnd (State.linkAnd_dropMoves fun u hu => ?_))
  obtain ⟨x, hx, hlaunched⟩ := h
  obtain ⟨gap, hgap⟩ := hlaunched.streams d hd
  rw [State.stream_of_ctx hx, hgap] at hu
  cases hu
  rfl

/-- Drawing a first gap sets the gap alone (13 R327). -/
theorem State.Launched.firstGap (h : s.Launched c mask entry step handle) (d : Die) :
    (s.firstGap c d).Launched c mask entry step handle := by
  obtain ⟨x, hx, hlaunched⟩ := h
  unfold State.firstGap
  simp only [hx]
  split
  · exact ⟨x, hx, hlaunched⟩
  · have hdrawn : s.draw.2.ctx c = some x := hx
    refine ⟨_, (State.ctx_updStream ..).trans ((if_pos rfl).trans (congrArg _ hdrawn)), hlaunched.verdict, hlaunched.step,
      hlaunched.group, fun e he => ?_⟩
    obtain ⟨gap, hgap⟩ := hlaunched.streams e he
    rw [CtxSt.stream_updStream]
    split
    · next hsame => subst hsame; rw [hgap]; exact ⟨_, rfl⟩
    · exact ⟨gap, hgap⟩

/-- Streams that start at one entry are launched there (01 Table 1.11). -/
theorem State.Launched.of_startStreams {x : CtxSt} (hctx : s.ctx c = some x) (hverdict : x.verdict = 0) (hstep : x.startStep = step)
    (hgroup : x.stepGroup = handle) : (s.startStreams c mask fun _ => entry).Launched c mask entry step handle := by
  unfold State.startStreams
  extract_lets started cleared
  have hstarted : started.Launched c mask entry step handle := by
    have hbegun : started.ctx c = some (x.updStreams fun d t => if mask.getLsbD d then launched entry else t) := by
      simp only [started, State.ctx_updCtx, if_true, hctx, Option.map_some]
    refine ⟨_, hbegun, (x.verdict_updStreams _).trans hverdict, (x.startStep_updStreams _).trans hstep,
      (x.stepGroup_updStreams _).trans hgroup, fun d hd => ?_⟩
    rw [CtxSt.stream_updStreams, if_pos hd]
    exact ⟨0, rfl⟩
  have hcleared : cleared.Launched c mask entry step handle := hstarted.of_ctx (State.ctx_updDies started _ c)
  refine List.foldlRecOn (motive := fun u : State => u.Launched c mask entry step handle) _ _ hcleared fun u hu d _ => ?_
  split
  · next hd => exact (hu.dropMoves hd).firstGap d
  · exact hu

end

/-- A launch starts the streams of its mask at its entry, for its step and its group (15 R381). -/
theorem State.launched_launchCtx (s : State) (c : Ctx) (x : CtxSt) (mask : BitVec 20) (entry step handle : Nat) :
    (s.launchCtx c x mask entry step handle).Launched c mask entry step handle := by
  unfold State.launchCtx
  extract_lets cleared placed emptied
  exact .of_startStreams ((State.ctx_updDies ..).trans ((State.ctx_setCtx ..).trans (if_pos rfl))) rfl rfl rfl

/-! ### The commands -/

section
variable {s : State} {m : Mbx} {w : CmdWord} {x y : CtxSt}

/-- A launch that breaks no condition of 15 Table 15.14, of a context that does not run, is carried out. -/
theorem launchReply_done (hctx : s.ctx (cmdTarget m w) = some x) (hstopped : x.running = false) (hsome : 1 ≤ cmdArg w 0)
    (hmask : cmdArg w 0 < 2 ^ 20)
    (hsound : s.launchPolicy (cmdTarget m w) x (BitVec.ofNat 20 (cmdArg w 0)) (cmdArg w 1) (cmdArg w 3) = 0)
    (hfallback : x.launchFallback = some y) :
    launchReply m w s = (.done,
      s.launchCtx (cmdTarget m w) y (BitVec.ofNat 20 (cmdArg w 0)) (cmdArg w 1) (cmdArg w 2) (cmdArg w 3)) := by
  rw [launchReply, withCtx_some hctx]
  simp only [hstopped, hsound, hfallback, Nat.ne_of_gt hsome, Nat.not_le.mpr hmask, ne_eq, not_true_eq_false, decide_false,
    Bool.or_self, Bool.false_eq_true, if_false]

/-- A context that runs is stopped, and its last completed step answered (06 R149). -/
theorem stopReply_done (hctx : s.ctx (cmdTarget m w) = some x) (hruns : x.running = true) :
    stopReply m w s = (.results x.lastMk 0, s.faultStop (cmdTarget m w) .halted) := by
  rw [stopReply, withCtx_some hctx]
  simp only [hruns, Bool.not_true, Bool.false_eq_true, if_false]

end

/-- Settles O26: starting the streams leaves the context launched, and the moves that other contexts then run leave it so. -/
theorem launchStop : Obligations.LaunchStop := by
  intro s m w x c hctx
  refine ⟨?launch, ?stop⟩
  case launch =>
    intro y h hstopped hsome hmax mask hsound hfallback t
    obtain ⟨z, hz, hlaunched⟩ := s.launched_launchCtx c y mask (cmdArg w 1) (cmdArg w 2) (cmdArg w 3)
    refine ⟨?_, fun d hd => ?_, z, hz, hlaunched.verdict, hlaunched.step, hlaunched.group⟩
    · change execLaunch m s = _
      exact suphor_of_reply h rfl (launchReply_done hctx hstopped hsome hmax hsound hfallback)
    · obtain ⟨gap, hgap⟩ := hlaunched.streams d hd
      refine ⟨_, (State.stream_of_ctx hz d).trans (congrArg some hgap), rfl, rfl, rfl, rfl, rfl⟩
  case stop =>
    intro h hruns
    change execStop m s = _
    exact suphor_of_reply h rfl (stopReply_done hctx hruns)

end Sys2Proof.Machine
end

section
/-! SUPPORT. Proofs: the fuses. They are among what every step keeps (16 R386, R393; 08 R196). -/
namespace Sys2Proof.Machine

/-- Settles O6: a step keeps the fuses that are blown, as it keeps the memories and the lifetime tier. -/
theorem stepKeepsFuses : Obligations.StepKeepsFuses := by
  intro s t hstep
  obtain ⟨hdevice, hrom, hfw, hcal, hservice, hsec, hrepairs⟩ := (State.Keeps.of_step hstep).fuses
  exact ⟨hdevice, hrom, hfw, hcal, hservice, hsec, hrepairs⟩

end Sys2Proof.Machine
end

section
/-! SUPPORT. Proofs: what records leave. A record is queued for flash and posted to the host, and touches neither the boot
state, nor flash, nor the fuses (13 R333; 15 R375). -/
namespace Sys2Proof.Machine

/-- The boot state, flash and the fuses. -/
def State.rooted (s : State) : BootSt × Flash × Fuses := (s.bootSt, s.flash, s.fuses)

theorem State.bootSt_of_rooted {s t : State} (h : t.rooted = s.rooted) : t.bootSt = s.bootSt := congrArg (·.1) h

@[simp] theorem State.rooted_write (s : State) (p : Place) (bs : Bytes) (poison : Bool) :
    (s.write p bs poison).rooted = s.rooted := by
  have h : (s.write p bs poison).unstored.rooted = s.unstored.rooted := by rw [s.unstored_write]
  exact h

@[simp] theorem State.rooted_updDie (s : State) (d : Die) (f : DieSt → DieSt) : (s.updDie d f).rooted = s.rooted := rfl

@[simp] theorem State.rooted_updMbx (s : State) (m : Mbx) (f : MbxSt → MbxSt) : (s.updMbx m f).rooted = s.rooted := rfl

@[simp] theorem State.rooted_raise (s : State) (v : Nat) : (s.raise v).rooted = s.rooted := rfl

@[simp] theorem State.rooted_makeRec (s : State) (d : Die) (type tier : Nat) (device : Bool) (step ctx : Option Nat)
    (body : Bytes) : (s.makeRec d type tier device step ctx body).2.rooted = s.rooted := rfl

@[simp] theorem State.rooted_enqueue (s : State) (r : Rec) : (s.enqueue r).rooted = s.rooted := by
  unfold State.enqueue
  dsimp only
  split <;> rfl

@[simp] theorem State.rooted_postEvent (s : State) (m : Mbx) (r : Bytes) : (s.postEvent m r).rooted = s.rooted := by
  unfold State.postEvent
  dsimp only
  split
  · rfl
  split
  · split <;> rfl
  split
  · rfl
  · split <;> simp only [State.rooted_raise, State.rooted_updMbx, State.rooted_write]

@[simp] theorem State.rooted_post (s : State) (c : Option Nat) (r : Bytes) : (s.post c r).rooted = s.rooted := by
  unfold State.post
  cases c with
  | none => exact s.rooted_postEvent 0 r
  | some c => dsimp only; split <;> simp only [State.rooted_postEvent]

@[simp] theorem State.rooted_logWith (s : State) (d : Die) (device : Bool) (type tier : Nat) (c : Option Nat) (toHost : Bool)
    (body : Bytes) : (s.logWith d device type tier c toHost body).rooted = s.rooted := by
  unfold State.logWith
  dsimp only
  split <;> simp only [State.rooted_post, State.rooted_enqueue, State.rooted_makeRec]

@[simp] theorem State.rooted_event (s : State) (d : Die) (type tier : Nat) (c : Option Nat) (body : Bytes) :
    (s.event d type tier c body).rooted = s.rooted :=
  s.rooted_logWith ..

@[simp] theorem State.rooted_logDevice (s : State) (type tier : Nat) (c : Option Nat) (toHost : Bool) (body : Bytes) :
    (s.logDevice type tier c toHost body).rooted = s.rooted :=
  s.rooted_logWith ..

@[simp] theorem State.rooted_security (s : State) (action a : Nat) (data : Bytes) : (s.security action a data).rooted = s.rooted :=
  s.rooted_logDevice ..

@[simp] theorem State.rooted_recordFault (s : State) (d : Die) (c : Option Nat) (addr : Nat) (f : FaultInfo) :
    (s.recordFault d c addr f).rooted = s.rooted :=
  s.rooted_logWith ..

@[simp] theorem State.rooted_linkRecord (s : State) (l : Link) (action reason : Nat) :
    (s.linkRecord l action reason).rooted = s.rooted :=
  s.rooted_logWith ..

@[simp] theorem State.rooted_geometryChange (s : State) (inst : Nat) : (s.geometryChange inst).rooted = s.rooted := by
  unfold State.geometryChange State.hostEvent
  simp only [State.rooted_post, State.rooted_makeRec]
  rfl

@[simp] theorem State.rooted_judgeIntegrity (s : State) (d : Die) : (s.judgeIntegrity d).rooted = s.rooted := by
  unfold State.judgeIntegrity
  dsimp only
  split
  · rfl
  · simp only [State.rooted_event, State.rooted_updDie]

@[simp] theorem State.rooted_judgeCapacity (s : State) (d : Die) : (s.judgeCapacity d).rooted = s.rooted := by
  unfold State.judgeCapacity
  dsimp only
  split
  · rfl
  · simp only [State.rooted_event, State.rooted_updDie]

@[simp] theorem State.rooted_judgeLedger (s : State) : s.judgeLedger.rooted = s.rooted := by
  unfold State.judgeLedger
  extract_lets
  split
  · rfl
  · rw [State.rooted_logDevice]; rfl

@[simp] theorem State.rooted_checkpoint (s : State) (trigger : Nat) : (s.checkpoint trigger).rooted = s.rooted :=
  State.rooted_logDevice ..

@[simp] theorem State.rooted_judgePort (s : State) (port : Nat) : (s.judgePort port).rooted = s.rooted := by
  unfold State.judgePort
  dsimp only
  split
  · rfl
  · rw [State.rooted_geometryChange]; rfl

end Sys2Proof.Machine
end

section
/-! SUPPORT. Proofs: the tap and the debug port. What a frame that the port takes answers, whether its row needs no scope, or a
scope that the port grants or, while it is locked, does not (16 R400 to R405; log 54). -/
namespace Sys2Proof.Machine

/-! ### The tap (16 Table 16.9) -/

/-- Settles O43: a tap with power takes each instruction, and the module reset input picks what the boundary ones select. -/
theorem tapRows : Obligations.TapRows := by
  intro d cells s hpower
  have hpowered : s.tapPowered = true := decide_eq_true hpower
  refine ⟨?idcode, ?bypass, fun hreset => ⟨?extest, ?sample⟩, fun hrun => ⟨?extestBypass, ?sampleBypass⟩, ?tapReset⟩
  case idcode =>
    change execIdcode d s = _
    simp only [execIdcode, hpowered, Bool.not_true, Bool.false_eq_true, if_false]
  case bypass =>
    change execBypass d s = _
    simp only [execBypass, hpowered, Bool.not_true, Bool.false_eq_true, if_false]
  case extest =>
    change execExtest d cells s = _
    simp only [execExtest, hpowered, hreset, Bool.not_true, Bool.false_eq_true, if_false, if_true]
  case sample =>
    change execSamplePreload d cells s = _
    simp only [execSamplePreload, hpowered, hreset, Bool.not_true, Bool.false_eq_true, if_false, if_true]
  case extestBypass =>
    change execExtest d cells s = _
    simp only [execExtest, hpowered, hrun, Bool.not_true, Bool.false_eq_true, if_false]
  case sampleBypass =>
    change execSamplePreload d cells s = _
    simp only [execSamplePreload, hpowered, hrun, Bool.not_true, Bool.false_eq_true, if_false]
  case tapReset =>
    change execTapReset s = _
    simp only [execTapReset, hpowered, Bool.not_true, Bool.false_eq_true, if_false]

/-! ### Frames (16 R400, R402) -/

section
variable {s t : State} {d : Die} {f : Frame} {code scope status data : Nat} {act : State → Nat × Nat × State}

/-- A frame that the port takes is answered with what its row makes of it. -/
theorem freeFrame_of_framed (h : Framed s f code) (hact : act s = (status, data, t)) :
    freeFrame d code f s act = .next (t.respond d f status data) := by
  obtain ⟨hup, hcmd, hclear⟩ := h
  simp only [freeFrame, hup, hcmd, hclear, hact, ne_eq, not_true_eq_false, decide_false, Bool.not_true, Bool.or_self,
    Bool.false_eq_true, if_false]

/-- A locked port answers LOCKED to a row that needs a scope. -/
theorem scopedFrame_of_locked (h : Framed s f code) (hlocked : s.bootSt.unlocked = false) :
    scopedFrame d code scope f s act = .next (s.respond d f 1 0) :=
  freeFrame_of_framed h (by simp only [hlocked, Bool.not_false, if_true])

/-- A port that grants the row's scope on the die carries the row out. -/
theorem scopedFrame_of_scoped (h : Scoped s d f code scope) (hact : act s = (status, data, t)) :
    scopedFrame d code scope f s act = .next (t.respond d f status data) := by
  obtain ⟨hframed, hunlocked, hdie, hscope⟩ := h
  exact freeFrame_of_framed hframed (by
    simp only [hunlocked, hdie, hscope, hact, Bool.not_true, Bool.or_self, Bool.false_eq_true, if_false])

end

/-- While the port is locked, every row that needs a scope is a frame of its scope, RESET_DEVICE too. -/
theorem exec_scopedRow_of_locked {i : Instr} {d : Die} {f : BitVec 160} {s : State} {code : Nat}
    (hrow : scopedRow i = some (d, f, code)) (hlocked : s.bootSt.unlocked = false) :
    ∃ scope act, exec i s = scopedFrame d code scope f s act := by
  cases i <;> cases hrow
  case dyoloResetDevice =>
    refine ⟨2, fun s => (4, 0, s), ?_⟩
    change execDyoloResetDevice d f s = _
    simp only [execDyoloResetDevice, hlocked, Bool.and_false, Bool.false_and, Bool.false_eq_true, if_false]
  all_goals
    dsimp only [exec, execDyoloInstall, execDyoloHalt, execDyoloResume, execDyoloStep, execDyoloBreakSet, execDyoloBreakClear,
      execDyoloRead, execDyoloWrite]
    exact ⟨_, _, rfl⟩

/-! ### Rows without a scope (16 R402, R403) -/

/-- The first field of a packed word, one bit, is what the word is modulo 2. -/
theorem packNat_bit_mod_two (b : Bool) (rest : List (Nat × Nat)) : packNat ((b2n b, 1) :: rest) % 2 = if b then 1 else 0 := by
  rw [packNat, Nat.pow_one, Nat.add_mul_mod_self_left]
  cases b <;> rfl

/-- A fold that updates each listed context once. -/
theorem State.ctx_foldl_updCtx (f : CtxSt → CtxSt) (c : Ctx) (l : List Ctx) (s : State) (hl : l.Nodup) :
    (l.foldl (fun st e => st.updCtx e f) s).ctx c = if c ∈ l then (s.ctx c).map f else s.ctx c := by
  induction l generalizing s with
  | nil => rfl
  | cons e l ih =>
    obtain ⟨hnot, hl⟩ := List.nodup_cons.mp hl
    rw [List.foldl_cons, ih _ hl, State.ctx_updCtx]
    by_cases hc : e = c
    · subst hc; simp only [hnot, if_false, if_true, List.mem_cons, or_false]
    · simp only [hc, Ne.symm hc, if_false, List.mem_cons, false_or]

@[simp] theorem State.bootSt_resumeAll (s : State) : s.resumeAll.bootSt = s.bootSt :=
  (foldl_eq_of_step State.bootSt (fun st c => st.updCtx_bootSt c _) _ _).trans (State.updDies_bootSt ..)

/-- No die controller stays halted. -/
theorem State.haltedController_resumeAll (s : State) (d : Die) : (s.resumeAll.die d).tapSide.haltedController = false := by
  have hdies : s.resumeAll.die d = _ := foldl_eq_of_step (fun st : State => st.die d) (fun st c => st.die_updCtx c _ d) _ _
  rw [hdies, State.die_updDies]

/-- No stream does. -/
theorem State.halted_resumeAll {s : State} {d : Die} {c : Ctx} {u : Stream} (hu : s.resumeAll.stream d c = some u) :
    u.halted = false := by
  rw [State.stream, State.resumeAll, State.ctx_foldl_updCtx _ c _ _ (List.nodup_finRange 8), if_pos (List.mem_finRange c),
    Option.map_map, Option.map_eq_some_iff] at hu
  obtain ⟨x, -, rfl⟩ := hu
  simp only [Function.comp_apply, CtxSt.stream_updStreams]
  split
  · rfl
  · next h => exact Bool.eq_false_iff.mpr h

/-- The state that GET_NONCE leaves: the value is drawn, and D0 keeps it. -/
def State.nonceGiven (s : State) (d : Die) : State :=
  if d = 0 then { s.draw.2 with bootSt := { s.bootSt with nonce := some (Config.nonce s.freeCtr) } } else s.draw.2

/-- Settles O41: a locked port grants no scope, and a frame that a row without one takes is answered with the row's own outcome. -/
theorem dyoloFree : Obligations.DyoloFree := by
  refine ⟨?locked, fun d f s => ⟨?nop, ?status, ?nonce, ?push, ?pushReset, ?unlock, ?refused, ?relock⟩⟩
  case locked =>
    intro i d f s code hrow h hlocked
    obtain ⟨scope, act, hscoped⟩ := exec_scopedRow_of_locked (s := s) hrow hlocked
    exact hscoped.trans (scopedFrame_of_locked h hlocked)
  case nop =>
    intro hup hcmd
    have hcode : dyoloCodes.contains 0 = true := rfl
    change execDyoloNop d f s = _
    simp only [execDyoloNop, hup, hcmd, hcode, Bool.not_true, Bool.false_eq_true, ne_eq, not_true_eq_false, if_false]
  case status =>
    intro h
    have hstatus : execDyoloStatus d f s = _ := freeFrame_of_framed h rfl
    exact ⟨_, hstatus, packNat_bit_mod_two ..⟩
  case nonce =>
    intro h
    refine ⟨Config.nonce s.freeCtr, s.nonceGiven d, ?_, fun hd => ?_, fun hd => ?_⟩
    · change execDyoloGetNonce d f s = _
      exact freeFrame_of_framed h rfl
    · rw [State.nonceGiven, if_pos hd]
    · rw [State.nonceGiven, if_neg hd]; rfl
  case push =>
    intro h hd hroom
    change execDyoloPush d f s = _
    refine freeFrame_of_framed h ?_
    simp only [hd, Nat.not_lt.mpr hroom, ne_eq, not_true_eq_false, if_false]
  case pushReset =>
    intro h hd
    change execDyoloPushReset d f s = _
    refine freeFrame_of_framed h ?_
    simp only [hd, ne_eq, not_true_eq_false, if_false]
  case unlock =>
    intro h hd hok
    have hunlock : execDyoloUnlock d f s = _ := freeFrame_of_framed h (by
      simp only [hd, hok, ne_eq, not_true_eq_false, if_false, if_true]
      rfl)
    refine ⟨_, hunlock, ?_⟩
    rw [State.bootSt_of_rooted (State.rooted_security ..)]
    exact ⟨rfl, rfl, rfl⟩
  case refused =>
    intro h hd hbad
    have hunlock : execDyoloUnlock d f s = _ := freeFrame_of_framed h (by
      simp only [hd, hbad, ne_eq, not_true_eq_false, Bool.false_eq_true, if_false]
      rfl)
    refine ⟨_, hunlock, ?_⟩
    rw [State.bootSt_of_rooted (State.rooted_security ..)]
    exact ⟨rfl, rfl⟩
  case relock =>
    intro h
    have hrelock : execDyoloRelock d f s = _ := freeFrame_of_framed h rfl
    refine ⟨_, hrelock, ?_, fun e => ⟨State.haltedController_resumeAll _ e, fun c u => State.halted_resumeAll⟩⟩
    rw [State.bootSt_resumeAll]

/-! ### Rows that a scope grants (16 R402, R404, R405) -/

section
variable {s : State} {d : Die} {c : Ctx} {u : Stream} {f : Frame} (hstream : s.stream d c = some u) (hspace : frSpace f = 4)
  (hctx : frCtx f = c.val)
include hstream hspace hctx

/-- A frame of space 4 names the stream of its context. -/
theorem State.frameStream_of_stream : s.frameStream d f = some (c, u) := by
  have hc : ctxOf (frCtx f) = c := Fin.ext (by rw [hctx]; exact Nat.mod_eq_of_lt c.isLt)
  have hlt : frCtx f < 8 := by rw [hctx]; exact c.isLt
  simp only [State.frameStream, hspace, hlt, hc, hstream, decide_true, Bool.and_self, if_true, Option.map_some]

/-- So its row acts on that stream. -/
theorem onTarget_of_stream (controller : DebugSt → DebugSt) (stream : Stream → Stream) :
    onTarget s d f controller stream = (0, 0, s.updStream d c stream) := by
  have hspace0 : frSpace f ≠ 0 := by rw [hspace]; decide
  rw [onTarget, if_neg hspace0, State.frameStream_of_stream hstream hspace hctx]

/-- A stream that is halted makes one step, and the answer tells whether it ran. -/
theorem execDyoloStep_of_scoped {y : CtxSt} (x : Phys) (h : Scoped s d f 0x12 0) (hy : s.ctx c = some y) (hhalted : u.halted = true)
    (hlaunched : u.launched = true) :
    execDyoloStep d f x s = .next ((s.stepStream d c (s.wordAt d y u.pc) x).2.respond d f
      (if (s.stepStream d c (s.wordAt d y u.pc) x).1 then 0 else 3) 0) := by
  have hspace0 : frSpace f ≠ 0 := by rw [hspace]; decide
  refine scopedFrame_of_scoped h ?_
  rw [if_neg hspace0, State.frameStream_of_stream hstream hspace hctx]
  simp only [hhalted, hlaunched, hy, Bool.not_true, Bool.or_self, Bool.false_eq_true, if_false]

end

section
variable {s : State} {d : Die} {f : Frame} (hspace : frSpace f = 2)
include hspace

/-- No register block lies in a scratchpad's space. -/
theorem frameBlock_of_scratchpad : frameBlock f = none := by
  have hspace1 : frSpace f ≠ 1 := by rw [hspace]; decide
  simp only [frameBlock, hspace1, decide_false, Bool.false_and, Bool.false_eq_true, if_false]

variable (halign : frAddr f % 8 = 0) (hfits : frAddr f < 2 ^ 26)
include halign hfits

/-- An aligned frame of space 2 names its word of the die's scratchpad. -/
theorem framePlace_of_scratchpad : framePlace d f = some (.sp d (frAddr f)) := by
  simp only [framePlace, hspace, halign, hfits, ne_eq, not_true_eq_false, if_false, if_true]

/-- READ of a scratchpad's word. -/
theorem execDyoloRead_of_scoped (x : Phys) (h : Scoped s d f 0x20 1) :
    execDyoloRead d f x s = .next ((s.applyPhys x).respond d f
      (if ((s.applyPhys x).poisonAt (.sp d (frAddr f))).isSome then 6 else 0)
      (leNat ((s.applyPhys x).read (.sp d (frAddr f)) 8))) := by
  have hspace0 : frSpace f ≠ 0 := by rw [hspace]; decide
  refine scopedFrame_of_scoped h ?_
  rw [if_neg hspace0, frameBlock_of_scratchpad hspace, framePlace_of_scratchpad hspace halign hfits]
  rfl

/-- WRITE of a scratchpad's word. -/
theorem execDyoloWrite_of_scoped (x : Phys) (h : Scoped s d f 0x21 2) :
    execDyoloWrite d f x s = .next
      ((((s.applyPhys x).write (.sp d (frAddr f)) (leBytes 8 (frData f)) false).markWritten).respond d f 0 0) := by
  have hspace0 : frSpace f ≠ 0 := by rw [hspace]; decide
  refine scopedFrame_of_scoped h ?_
  dsimp only
  rw [if_neg hspace0, frameBlock_of_scratchpad hspace, framePlace_of_scratchpad hspace halign hfits]

end

/-- INSTALL installs what passes its checks (R392, R396). -/
theorem execDyoloInstall_of_scoped {s : State} {f : Frame} (h : Scoped s 0 f 0x07 2) :
    execDyoloInstall 0 f s = .next ((if s.pkgOk [1] s.bootSt.push then s.installFirmware s.bootSt.push
      else if s.pkgOk [2] s.bootSt.push then s.installCalibration s.bootSt.push
      else s.refusePkg s.bootSt.push).markWritten.respond 0 f
        (if s.pkgOk [1] s.bootSt.push || s.pkgOk [2] s.bootSt.push then 0 else 5) 0) := by
  refine scopedFrame_of_scoped h ?_
  by_cases hfirmware : s.pkgOk [1] s.bootSt.push
  · simp only [hfirmware, ne_eq, not_true_eq_false, if_false, if_true, Bool.true_or]
  · by_cases hcalibration : s.pkgOk [2] s.bootSt.push
    · simp only [hfirmware, hcalibration, ne_eq, not_true_eq_false, if_false, if_true, Bool.or_true, Bool.false_eq_true]
    · simp only [hfirmware, hcalibration, ne_eq, not_true_eq_false, if_false, Bool.or_self, Bool.false_eq_true]

/-- RESET_DEVICE resets the device (R385). -/
theorem execDyoloResetDevice_of_scoped {s : State} {d : Die} {f : Frame} (h : Scoped s d f 0x30 2) :
    execDyoloResetDevice d f s = .next (s.deviceReset 4) := by
  obtain ⟨⟨hup, hcmd, hclear⟩, hunlocked, hdie, hscope⟩ := h
  simp only [execDyoloResetDevice, hup, hcmd, hclear, hunlocked, hdie, hscope, decide_true, Bool.and_self, if_true]

/-- Settles O42: a port that grants a row's scope carries the row out on the stream, the word or the package that the frame
names. -/
theorem dyoloScoped : Obligations.DyoloScoped := by
  intro d f x s c u y hstream hy
  refine ⟨fun hspace hctx => ⟨fun h => ?halt, fun h hhalted => ?resume, fun h hhalted hlaunched => ?step,
    fun h => ?breakSet, fun h => ?breakClear⟩, fun hspace halign hfits =>
      ⟨execDyoloRead_of_scoped hspace halign hfits x, execDyoloWrite_of_scoped hspace halign hfits x⟩, fun h hd => ?install,
    execDyoloResetDevice_of_scoped⟩
  case halt =>
    change execDyoloHalt d f s = _
    exact scopedFrame_of_scoped h (onTarget_of_stream hstream hspace hctx ..)
  case resume =>
    have hresume : execDyoloResume d f s = _ := scopedFrame_of_scoped h (onTarget_of_stream hstream hspace hctx ..)
    refine ⟨_, _, hresume, by rw [State.stream_updStream_same, hstream]; rfl, ?_⟩
    simp only [hhalted, if_true, and_self]
  case step => exact ⟨_, _, execDyoloStep_of_scoped hstream hspace hctx x h hy hhalted hlaunched, rfl⟩
  case breakSet =>
    change execDyoloBreakSet d f s = _
    have hspace0 : frSpace f ≠ 0 := by rw [hspace]; decide
    refine scopedFrame_of_scoped h ?_
    dsimp only
    rw [if_neg hspace0]
    simp only [hspace, hctx, c.isLt, decide_true, Bool.and_self, if_true]
  case breakClear =>
    change execDyoloBreakClear d f s = _
    refine scopedFrame_of_scoped h ?_
    simp only [hspace, decide_true, Bool.or_true, if_true]
  case install =>
    subst hd
    exact execDyoloInstall_of_scoped h

end Sys2Proof.Machine
end

section
/-! SUPPORT. Proofs: packages. What CAL_WRITE, FW_INSTALL and GAMBIT_INSTALL answer once their package is read whole, and that a
gambit which is refused is only recorded (16 R391, R392, R395, R396; 12 R310; log 46). -/
namespace Sys2Proof.Machine

/-- A command whose package is read whole ends as its row's checks of the package decide. -/
theorem suphor_of_package {s t : State} {m : Mbx} {op : Nat} {w : CmdWord} {p : Bytes} {r : Reply}
    {check : State → Bytes → Reply × State} (h : Runs s m op w) (hbuf : Buffer w p.length) (hcheck : check s p = (r, t)) :
    suphor m op (fun _ => true) (fun w s => dataIn w (cmdLen w) (some p) s (check s)) s = .next (t.finishCommand m w r) := by
  have hlen : cmdLen w = p.length := hbuf.1
  refine suphor_of_reply h rfl ?_
  rw [dataIn_buffer (hlen ▸ hbuf) hlen.symm, hcheck]

/-- A gambit that is refused changes the device by its GAMBIT record alone. -/
theorem State.installGambit_of_refusal {s : State} {g : Bytes} (h : s.gambitRefusal g ≠ 0) :
    s.installGambit g = (.refused (s.gambitRefusal g), s.gambitRecord 4 (s.gambitRefusal g) 0 (gambitIdOf g) 0 g) := by
  simp only [State.installGambit, h, ne_eq, not_false_eq_true, if_true]

/-- Settles O31: each row's checks decide between its installation and the record of its refusal. -/
theorem packageRows : Obligations.PackageRows := by
  intro s m w p hbuf
  refine ⟨fun h => ?cal, fun h => ?fw, fun h => ⟨?gambit, fun hrefused => ?record⟩, fun hmanaged => ?mctp⟩
  case cal =>
    change execCalWrite m (some p) s = _
    refine suphor_of_package h hbuf ?_
    split <;> rfl
  case fw =>
    change execFwInstall m (some p) s = _
    refine suphor_of_package h hbuf ?_
    by_cases hok : s.pkgOk [1, 3] p
    · by_cases hfirmware : pkgType p = 1
      · simp only [hok, hfirmware, Bool.not_true, Bool.false_eq_true, if_false, if_true]
      · simp only [hok, hfirmware, Bool.not_true, Bool.false_eq_true, if_false, if_true]
    · simp only [hok, Bool.not_false, Bool.false_eq_true, if_false, if_true]
  case gambit =>
    change execGambitInstall m (some p) s = _
    exact suphor_of_package h hbuf rfl
  case record => rw [State.installGambit_of_refusal hrefused]; rfl
  case mctp =>
    change execMctpGambitInstall p s = _
    rw [execMctpGambitInstall, if_pos hmanaged]

end Sys2Proof.Machine
end

section
/-! SUPPORT. Proofs: the boot. Its stages up to READY leave the count of boots and the calibration set that stage 0x04 takes (16
R387, R388, R393, R396). -/
namespace Sys2Proof.Machine

/-! ### The stages -/

@[simp] theorem State.bootSt_queueDatagram (s : State) (g : Datagram) : (s.queueDatagram g).bootSt = s.bootSt := by
  unfold State.queueDatagram
  dsimp only
  split
  · rfl
  · split
    · rfl
    · split <;> rfl

@[simp] theorem State.bootSt_push (s : State) (tier : Nat) (r : Bytes) : (s.push tier r).bootSt = s.bootSt := by
  unfold State.push State.sendRecord
  split
  · refine foldl_eq_of_step State.bootSt (fun st f => ?_) _ s
    exact State.bootSt_queueDatagram ..
  · rfl

@[simp] theorem State.bootSt_writeRecord (s : State) (r : Rec) : (s.writeRecord r).bootSt = s.bootSt := by
  unfold State.writeRecord
  extract_lets
  split
  · rw [State.bootSt_of_rooted (State.rooted_judgeLedger _), State.bootSt_push]
  · split
    · rfl
    · rw [State.bootSt_of_rooted (State.rooted_judgeLedger _), State.bootSt_push]

@[simp] theorem State.bootSt_flush (n : Nat) (s : State) : (s.flush n).bootSt = s.bootSt := by
  induction n generalizing s with
  | zero => rfl
  | succ n ih =>
    unfold State.flush
    split
    · rfl
    · rw [ih, State.bootSt_writeRecord]

theorem State.bootSt_bootDie (s : State) (d : Die) : (s.bootDie d).bootSt = s.bootSt := by
  unfold State.bootDie
  rfl

/-- A die's soft repairs are fused with no change of the boot state. -/
theorem State.bootSt_fuseRepairs (s : State) (d : Die) (ok : Bool) : (s.fuseRepairs d ok).bootSt = s.bootSt := by
  unfold State.fuseRepairs
  split
  · rfl
  · exact foldl_eq_of_step State.bootSt (fun st r => State.bootSt_of_rooted (State.rooted_event ..)) _ _

theorem State.bootSt_dropDie (s : State) (d : Die) (lockstep : Bool) : (s.dropDie d lockstep).bootSt = s.bootSt := by
  refine State.bootSt_of_rooted ?_
  rw [State.dropDie, State.rooted_geometryChange, State.rooted_recordFault]
  rfl

/-- The boot's records leave the count of boots. -/
theorem State.bootCount_bootLedger (s : State) : s.bootLedger.bootSt.bootCount = s.bootSt.bootCount := by
  unfold State.bootLedger State.flushAll
  extract_lets f life roll reason logged chains boot judged
  rw [State.bootSt_flush, State.bootSt_of_rooted (State.rooted_checkpoint ..), State.bootSt_of_rooted (State.rooted_judgeLedger _)]
  have hlogged : logged.bootSt = s.bootSt := State.bootSt_of_rooted (s.rooted_logDevice ..)
  have hjudged : judged.bootSt.bootCount = logged.bootSt.bootCount := rfl
  rw [hjudged, hlogged]

/-- A training link that is told its peer's HELLO comes up or goes down, and leaves the boot state. -/
theorem State.rooted_meetHello {s : State} {l : Link} {h : BitVec 33} (htraining : (s.link l).state = 1) :
    (s.meetHello l h).rooted = s.rooted := by
  have htold : ((s.updLink l fun x => { x with hello := some h }).link l).state = 1 := by
    rw [State.link_updLink, if_pos rfl]; exact htraining
  unfold State.meetHello
  dsimp only
  rw [htold]
  split
  · split
    · rw [State.comeUp, State.rooted_judgePort, State.rooted_linkRecord]; rfl
    · rfl
  · rw [if_neg (by decide), if_pos rfl, State.rooted_linkRecord]; rfl

/-- A training link that exchanges HELLOs leaves the boot state. -/
theorem State.rooted_hellos {s : State} {l : Link} {h : BitVec 33} (htraining : (s.link l).state = 1) :
    ((s.sayHello l).meetHello l h).rooted = s.rooted :=
  State.rooted_meetHello (s := s.sayHello l) (by rw [State.link_sayHello_same]; exact htraining)

theorem State.rooted_bootLinks (s : State) (hellos : List (Option (BitVec 33))) : (s.bootLinks hellos).rooted = s.rooted := by
  unfold State.bootLinks
  extract_lets trained
  have htrained : trained.rooted = s.rooted := by
    refine foldl_eq_of_step State.rooted (fun st l => ?_) _ s
    extract_lets served started
    have hstarted : started.rooted = st.rooted := State.rooted_linkRecord ..
    have htraining : (started.link l).state = 1 := by
      simp only [started, State.link_linkRecord, State.link_updLink, if_true]
    clear_value started
    split
    · split
      · exact (State.rooted_hellos htraining).trans hstarted
      · exact hstarted
    · exact hstarted
  exact (foldl_eq_of_step State.rooted (fun st p => st.rooted_judgePort p) _ trained).trans htrained

theorem State.bootSt_bootHost (s : State) (w : Option HostWidth) : (s.bootHost w).bootSt = s.bootSt := by
  cases w with
  | some w => rfl
  | none => exact State.bootSt_of_rooted (State.rooted_logDevice ..)

/-! ### The calibration set (16 R396) -/

/-- What a package is checked against, and the calibration set in force. -/
structure CalView where
  flash : Flash
  fuses : Fuses
  nonce : Option (BitVec 64)
  inForce : Bytes

def State.calView (s : State) : CalView :=
  { flash := s.flash, fuses := s.fuses, nonce := s.bootSt.nonce, inForce := s.bootSt.calInForce }

/-- A package is checked against flash, the fuses and the nonce alone. -/
theorem State.pkgOk_of_calView {s t : State} (h : t.calView = s.calView) (types : List Nat) (p : Bytes) :
    t.pkgOk types p = s.pkgOk types p := by
  have hflash : t.flash = s.flash := congrArg CalView.flash h
  have hfuses : t.fuses = s.fuses := congrArg CalView.fuses h
  have hnonce : t.bootSt.nonce = s.bootSt.nonce := congrArg CalView.nonce h
  simp only [State.pkgOk, State.pkgDeviceOk, State.pkgSignerOk, State.pkgTypeOk, hflash, hfuses, hnonce]

theorem State.rooted_installCalibration (s : State) (p : Bytes) :
    (s.installCalibration p).rooted = (s.bootSt, { s.flash with calibration := some p, staging := none }, s.fuses) :=
  State.rooted_security ..

/-- Installing a calibration set changes the view as it changes flash. -/
theorem State.calView_installCalibration (s : State) (p : Bytes) :
    (s.installCalibration p).calView = { s.calView with flash := { s.flash with calibration := some p, staging := none } } := by
  have hbootSt : (s.installCalibration p).bootSt = s.bootSt := congrArg (·.1) (s.rooted_installCalibration p)
  have hflash : (s.installCalibration p).flash = _ := congrArg (·.2.1) (s.rooted_installCalibration p)
  have hfuses : (s.installCalibration p).fuses = s.fuses := congrArg (·.2.2) (s.rooted_installCalibration p)
  simp only [State.calView, hbootSt, hflash, hfuses]

/-- Stage 0x04's first half: an interrupted replacement is completed. -/
def State.staged (s : State) : State :=
  match s.flash.staging with
  | some p => if s.pkgOk [2] p then s.installCalibration p else s
  | none => s

/-- Its second half: the set in flash is taken. -/
def State.takesCalibration (s : State) : State :=
  match s.flash.calibration with
  | some p => if s.pkgOk [2] p then { s with bootSt := { s.bootSt with calInForce := p } } else s
  | none => s

theorem State.calibrate_eq (s : State) : s.calibrate = s.staged.takesCalibration := rfl

theorem State.calView_staged {s t : State} (h : t.calView = s.calView) : t.staged.calView = s.staged.calView := by
  have hflash : t.flash = s.flash := congrArg CalView.flash h
  have hset : t.flash.staging = s.flash.staging := congrArg Flash.staging hflash
  unfold State.staged
  rw [hset]
  split
  · rw [State.pkgOk_of_calView h]
    split
    · rw [State.calView_installCalibration, State.calView_installCalibration, h, hflash]
    · exact h
  · exact h

theorem State.calView_takesCalibration {s t : State} (h : t.calView = s.calView) :
    t.takesCalibration.calView = s.takesCalibration.calView := by
  have hset : t.flash.calibration = s.flash.calibration := congrArg (·.flash.calibration) h
  unfold State.takesCalibration
  rw [hset]
  split
  · next p _ =>
    rw [State.pkgOk_of_calView h]
    split
    · exact congrArg (fun v : CalView => { v with inForce := p }) h
    · exact h
  · exact h

/-- The set that stage 0x04 takes is fixed by the view. -/
theorem State.calInForce_calibrate {s t : State} (h : t.calView = s.calView) :
    t.calibrate.bootSt.calInForce = s.calibrate.bootSt.calInForce := by
  rw [t.calibrate_eq, s.calibrate_eq]
  exact congrArg CalView.inForce (State.calView_takesCalibration (State.calView_staged h))

theorem State.bootCount_calibrate (s : State) : s.calibrate.bootSt.bootCount = s.bootSt.bootCount := by
  have hstaged : s.staged.bootSt = s.bootSt := by
    unfold State.staged
    split
    · split
      · exact congrArg (·.1) (s.rooted_installCalibration _)
      · rfl
    · rfl
  rw [s.calibrate_eq, ← hstaged]
  unfold State.takesCalibration
  split
  · split <;> rfl
  · rfl

/-! ### The boot as a whole (16 R387, R388) -/

/-- The device as its firmware's stages begin: the slot's firmware runs, and the boot is counted. -/
def State.firmwareRuns (s : State) (fw : Bytes) (isB : Bool) : State :=
  { s with
    fwRev := BitVec.ofNat 16 (pkgFwRev fw), numericsRev := BitVec.ofNat 8 (pkgNumerics fw)
    bootSt := { s.bootSt with bootCount := s.bootSt.bootCount + 1, runningB := isB, runningSec := pkgSec fw, runningPkg := fw } }

theorem State.calView_firmwareRuns (s : State) (fw : Bytes) (isB : Bool) : (s.firmwareRuns fw isB).calView = s.calView := rfl

/-- What the boot takes of a die of which the environment tells nothing. -/
def dieSound : DieBoot := { lockstepOk := true, stackOk := true, arraysOk := true }

/-- A die fails its boot. -/
def bootFails (env : BootEnv) (d : Nat) : Bool :=
  !((env.dies.getD d dieSound).lockstepOk && (env.dies.getD d dieSound).stackOk && (env.dies.getD d dieSound).arraysOk)

/-- The stages between the calibration set and READY: the slot that was passed over is recorded, the dies boot and are judged, and
the chains, the links and the host follow. -/
def State.bootStages (s : State) (env : BootEnv) (passed : Option Bytes) : State :=
  let s := match passed with | some p => s.security 2 (pkgFwRev p) p | none => s
  let s := (List.finRange 20).foldl (fun st d => (st.bootDie d).fuseRepairs d env.fuseWriteOk) s
  let s := (List.finRange 20).foldl
    (fun st d => if bootFails env d.val then st.dropDie d (!(env.dies.getD d.val dieSound).lockstepOk) else st) s
  let s := (List.finRange 20).foldl (fun st d => (if st.dieInService d then st.judgeIntegrity d else st).judgeCapacity d) s
  ((s.bootLedger).bootLinks env.hellos).bootHost env.hostLink

/-- They leave the count of boots. -/
theorem State.bootCount_bootStages (s : State) (env : BootEnv) (passed : Option Bytes) :
    (s.bootStages env passed).bootSt.bootCount = s.bootSt.bootCount := by
  unfold State.bootStages
  extract_lets reported fused dropped judged
  have hreported : reported.bootSt = s.bootSt := by
    unfold reported
    split
    · exact State.bootSt_of_rooted (State.rooted_security ..)
    · rfl
  have hfused : fused.bootSt = reported.bootSt :=
    foldl_eq_of_step State.bootSt (fun st d => (State.bootSt_fuseRepairs ..).trans (st.bootSt_bootDie d)) _ reported
  have hdropped : dropped.bootSt = fused.bootSt := by
    refine foldl_eq_of_step State.bootSt (fun st d => ?_) _ fused
    split
    · exact st.bootSt_dropDie ..
    · rfl
  have hjudged : judged.bootSt = dropped.bootSt := by
    refine foldl_eq_of_step State.bootSt (fun st d => ?_) _ dropped
    rw [State.bootSt_of_rooted (State.rooted_judgeCapacity ..)]
    split
    · exact State.bootSt_of_rooted (State.rooted_judgeIntegrity ..)
    · rfl
  rw [State.bootSt_bootHost, State.bootSt_of_rooted (State.rooted_bootLinks ..), State.bootCount_bootLedger, hjudged, hdropped,
    hfused, hreported]

/-- A die D0 that is good, or of which nothing is told, does not fail. -/
theorem bootFails_zero {env : BootEnv}
    (hgood : ∀ k : DieBoot, env.dies[0]? = some k → k.lockstepOk = true ∧ k.stackOk = true ∧ k.arraysOk = true) :
    bootFails env 0 = false := by
  rw [bootFails, List.getD_eq_getElem?_getD]
  cases hk : env.dies[0]? with
  | none => rfl
  | some k =>
    obtain ⟨hlockstep, hstack, harrays⟩ := hgood k hk
    rw [Option.getD_some, hlockstep, hstack, harrays]
    rfl

/-- A device in RUN that has not booted begins its boot. -/
theorem boot_begins {s : State} (hrun : s.power.state = .run) (hstage : s.bootSt.stage = 0) :
    (decide (s.power.state ≠ .run) || decide (s.bootSt.stage ≠ 0)) = false := by
  simp only [hrun, hstage, ne_eq, not_true_eq_false, decide_false, Bool.or_self]

section
variable {s : State} {env : BootEnv} (hrun : s.power.state = .run) (hstage : s.bootSt.stage = 0)
  (hreq : s.power.shutdownReq = false)
include hrun hstage hreq

/-- A die D0 that fails stops the boot at its first stage (R388). -/
theorem execBoot_of_fails (hfails : bootFails env 0 = true) : execBoot env s = .next (s.bootStops 0x01) := by
  unfold execBoot
  rw [if_neg (Bool.eq_false_iff.mp (boot_begins hrun hstage)), if_neg (Bool.eq_false_iff.mp hreq)]
  exact if_pos hfails

/-- Without firmware that boots, the boot stops at stage 0xE0 (R393). -/
theorem execBoot_of_none (hpasses : bootFails env 0 = false) (hslot : s.bootSlot = none) :
    execBoot env s = .next (s.bootStops 0xE0) := by
  unfold execBoot
  rw [if_neg (Bool.eq_false_iff.mp (boot_begins hrun hstage)), if_neg (Bool.eq_false_iff.mp hreq), hslot]
  exact if_neg (Bool.eq_false_iff.mp hpasses)

/-- With firmware and a calibration set in force, the boot reaches READY (R387, R396). -/
theorem execBoot_of_slot {fw : Bytes} {isB : Bool} (hpasses : bootFails env 0 = false) (hslot : s.bootSlot = some (fw, isB))
    (hcal : (s.firmwareRuns fw isB).calibrate.bootSt.calInForce ≠ []) :
    ∃ passed, execBoot env s = .next (((s.firmwareRuns fw isB).calibrate.bootStages env passed).bootReady.raise 18) := by
  have hset : (s.firmwareRuns fw isB).calibrate.bootSt.calInForce.isEmpty = false := List.isEmpty_eq_false_iff.mpr hcal
  unfold execBoot
  rw [if_neg (Bool.eq_false_iff.mp (boot_begins hrun hstage)), if_neg (Bool.eq_false_iff.mp hreq), hslot]
  exact ⟨_, (if_neg (Bool.eq_false_iff.mp hpasses)).trans (if_neg (Bool.eq_false_iff.mp hset))⟩

end

/-- Settles O40: each stage of a boot either stops it or leaves what the next one asks for, and the fuses only blow. -/
theorem bootRow : Obligations.BootRow := by
  intro s env hrun hstage hreq
  refine ⟨fun k hk hbad => ?bad, fun hgood => ⟨fun hslot => ?none, fun fw isB hslot hcal => ?ready⟩⟩
  case bad =>
    have hfails : bootFails env 0 = true := by
      rw [bootFails, List.getD_eq_getElem?_getD, hk, Option.getD_some, hbad]; rfl
    exact execBoot_of_fails hrun hstage hreq hfails
  case none => exact execBoot_of_none hrun hstage hreq (bootFails_zero hgood) hslot
  case ready =>
    have hset : (s.firmwareRuns fw isB).calibrate.bootSt.calInForce = s.calibrate.bootSt.calInForce :=
      State.calInForce_calibrate (s.calView_firmwareRuns fw isB)
    rw [← hset] at hcal
    obtain ⟨passed, hboot⟩ := execBoot_of_slot hrun hstage hreq (bootFails_zero hgood) hslot hcal
    refine ⟨_, hboot, rfl, ?_, rfl, ((execBoot_keeps env s (.refl s)).of_eq hboot).fuses.secVersion⟩
    calc (((s.firmwareRuns fw isB).calibrate.bootStages env passed).bootReady.raise 18).bootSt.bootCount
      _ = ((s.firmwareRuns fw isB).calibrate.bootStages env passed).bootSt.bootCount := rfl
      _ = (s.firmwareRuns fw isB).bootSt.bootCount := by rw [State.bootCount_bootStages, State.bootCount_calibrate]
      _ = s.bootSt.bootCount + 1 := rfl

end Sys2Proof.Machine
end

section
/-! SUPPORT. Proofs: the queue. An empty queue lets time pass, and no command touches the queue (log 5). -/
namespace Sys2Proof.Machine

/-- Settles O2: `step` is its queue's first case. -/
theorem stepIdles : Obligations.StepIdles := by
  intro s hempty
  simp only [step, hempty, State.tick]

/-- Settles O3: the queue is among what a command's meaning keeps, and the command was taken off before it ran. -/
theorem stepKeepsRest : Obligations.StepKeepsRest := by
  intro s t c rest hqueue hstep
  rw [(State.Keeps.of_step hstep).pending, hqueue, List.tail_cons]

end Sys2Proof.Machine
end

section
/-! SUPPORT. Proofs: the package. What records, a flush of the ledger and a reset leave of the power registers and the fuses, and the
ways up and down (16 R385, R386; 17 R406 to R411). -/
namespace Sys2Proof.Machine

/-! ### Records leave the package -/

/-- The power registers and the fuses. -/
def State.package (s : State) : PowerSt × Fuses := (s.power, s.fuses)

theorem State.power_of_package {s t : State} (h : t.package = s.package) : t.power = s.power := congrArg Prod.fst h

theorem State.fuses_of_package {s t : State} (h : t.package = s.package) : t.fuses = s.fuses := congrArg Prod.snd h

theorem State.package_of_unstored {s t : State} (h : t.unstored = s.unstored) : t.package = s.package := by
  have hall : t.unstored.package = s.unstored.package := by rw [h]
  exact hall

@[simp] theorem State.package_write (s : State) (p : Place) (bs : Bytes) (poison : Bool) :
    (s.write p bs poison).package = s.package :=
  State.package_of_unstored (s.unstored_write p bs poison)

@[simp] theorem State.package_updDie (s : State) (d : Die) (f : DieSt → DieSt) : (s.updDie d f).package = s.package := rfl

@[simp] theorem State.package_updDies (s : State) (f : Die → DieSt → DieSt) : (s.updDies f).package = s.package := by
  simp only [State.package, State.updDies_power, State.updDies_fuses]

@[simp] theorem State.package_updCtx (s : State) (c : Ctx) (f : CtxSt → CtxSt) : (s.updCtx c f).package = s.package := rfl

@[simp] theorem State.package_updMbx (s : State) (m : Mbx) (f : MbxSt → MbxSt) : (s.updMbx m f).package = s.package := rfl

@[simp] theorem State.package_updLink (s : State) (l : Link) (f : LinkSt → LinkSt) : (s.updLink l f).package = s.package := rfl

@[simp] theorem State.package_raise (s : State) (v : Nat) : (s.raise v).package = s.package := rfl

@[simp] theorem State.package_count (s : State) (d : Die) (ev qual : Nat) (c : Option Nat) (n : Nat) :
    (s.count d ev qual c n).package = s.package := rfl

@[simp] theorem State.package_makeRec (s : State) (d : Die) (type tier : Nat) (device : Bool) (step ctx : Option Nat)
    (body : Bytes) : (s.makeRec d type tier device step ctx body).2.package = s.package := rfl

@[simp] theorem State.package_enqueue (s : State) (r : Rec) : (s.enqueue r).package = s.package := by
  unfold State.enqueue
  dsimp only
  split <;> rfl

@[simp] theorem State.package_postEvent (s : State) (m : Mbx) (r : Bytes) : (s.postEvent m r).package = s.package := by
  unfold State.postEvent
  dsimp only
  split
  · rfl
  split
  · split <;> rfl
  split
  · rfl
  · split <;> simp only [State.package_raise, State.package_updMbx, State.package_write]

@[simp] theorem State.package_post (s : State) (c : Option Nat) (r : Bytes) : (s.post c r).package = s.package := by
  unfold State.post
  cases c with
  | none => exact s.package_postEvent 0 r
  | some c => dsimp only; split <;> simp only [State.package_postEvent]

@[simp] theorem State.package_logWith (s : State) (d : Die) (device : Bool) (type tier : Nat) (c : Option Nat) (toHost : Bool)
    (body : Bytes) : (s.logWith d device type tier c toHost body).package = s.package := by
  unfold State.logWith
  dsimp only
  split <;> simp only [State.package_post, State.package_enqueue, State.package_makeRec]

@[simp] theorem State.package_logDevice (s : State) (type tier : Nat) (c : Option Nat) (toHost : Bool) (body : Bytes) :
    (s.logDevice type tier c toHost body).package = s.package :=
  s.package_logWith ..

@[simp] theorem State.package_excursion (s : State) (action sensor peak limit us : Nat) :
    (s.excursion action sensor peak limit us).package = s.package :=
  s.package_logDevice ..

@[simp] theorem State.package_faultStop (s : State) (c : Ctx) (k : StopCause) : (s.faultStop c k).package = s.package := by
  unfold State.faultStop State.contributeFault State.stopStreams
  simp only [State.package_updDies, State.package_updCtx]

/-! ### A flush of the ledger, and a reset, leave what a reset keeps (13 R333; 16 R386) -/

@[simp] theorem State.package_judgeLedger (s : State) : s.judgeLedger.package = s.package := by
  unfold State.judgeLedger
  extract_lets
  split
  · rfl
  · rw [State.package_logDevice]; rfl

@[simp] theorem State.package_push (s : State) (tier : Nat) (r : Bytes) : (s.push tier r).package = s.package := by
  unfold State.push State.sendRecord
  split
  · refine foldl_eq_of_step State.package (fun st f => ?_) _ s
    unfold State.queueDatagram
    dsimp only
    repeat' split
    all_goals rfl
  · rfl

@[simp] theorem State.package_writeRecord (s : State) (r : Rec) : (s.writeRecord r).package = s.package := by
  unfold State.writeRecord
  extract_lets
  split
  · rw [State.package_judgeLedger, State.package_push]; rfl
  · split
    · rfl
    · rw [State.package_judgeLedger, State.package_push]; rfl

@[simp] theorem State.package_flush (n : Nat) (s : State) : (s.flush n).package = s.package := by
  induction n generalizing s with
  | zero => rfl
  | succ n ih =>
    unfold State.flush
    split
    · rfl
    · rw [ih, State.package_writeRecord]; rfl

/-- A reset returns the capping loop and the outputs to their start, and leaves the pins and measurements. -/
@[simp] theorem State.power_deviceReset (s : State) (cause : Nat) : (s.deviceReset cause).power = s.power.afterReset :=
  congrArg PowerSt.afterReset (State.power_of_package (s.package_flush _))

@[simp] theorem State.fuses_deviceReset (s : State) (cause : Nat) : (s.deviceReset cause).fuses = s.fuses :=
  State.fuses_of_package (t := s.flushAll) (s.package_flush _)

/-! ### The way up (17 R406, R408) -/

/-- Released into reset with rails that have been good for a millisecond, the device runs. -/
theorem execResetRelease_of_good {s : State} {us : Nat} (hreset : s.power.state = .reset) (hhold : s.power.resetHold = false)
    (hgood : 1000 ≤ us) : ∃ t, execResetRelease us s = .next t ∧ t.power.state = .run ∧ t.power.resetAsserted = false := by
  refine ⟨_, if_pos ?_, rfl, ?_⟩
  · simp [State.setPower, hreset, hhold, hgood]
  · simp [State.setPower, State.afresh, PowerSt.afterReset]

/-- Released earlier, it stays in reset until the millisecond ends. -/
theorem execResetRelease_of_early {s : State} {us : Nat} (hreset : s.power.state = .reset)
    (hasserted : s.power.resetAsserted = true) (hearly : us < 1000) :
      ∃ t, execResetRelease us s = .next t ∧ t.power.state = .reset ∧ t.power.resetHold = true := by
  refine ⟨_, if_neg ?_, hreset, ?_⟩
  · simp [State.setPower, hreset, hasserted, hearly]
  · simp [State.setPower, hreset, hasserted, hearly]

theorem inputInRange_of_le {mv : Nat} (hlow : 44000 ≤ mv) (hhigh : mv ≤ 58000) : inputInRange mv = true := by
  simp [inputInRange, inRange, hlow, hhigh]

/-- Settles O36: each row takes the branch of its conditions; good rails wipe the device but for its fuses and pins. -/
theorem powerUpRows : Obligations.PowerUpRows := by
  intro s mv us
  refine ⟨fun hlow hoff hmin hmax => ?on, fun hoff hstarting => ?rails, fun hreset _ hhold hgood => ?release,
    fun hreset hasserted hearly => ?early, fun hreset hhold => ?expiry⟩
  case on =>
    change execPowerOn mv s = _
    have hstarts : (decide (s.power.state = .off) && inputInRange mv) = true := by simp [hoff, inputInRange_of_le hmin hmax]
    rw [execPowerOn, hlow, if_neg Bool.false_ne_true]
    simp only [State.setPower, hstarts]
  case rails =>
    have hgood : (decide (s.power.state = .off) && s.power.starting) = true := by simp [hoff, hstarting]
    exact ⟨_, if_pos hgood, rfl, rfl, rfl, rfl, rfl, s.fuses_deviceReset s.bootSt.cause⟩
  case release => exact execResetRelease_of_good hreset hhold hgood
  case early => exact execResetRelease_of_early hreset hasserted hearly
  case expiry =>
    have hdue : (decide (s.power.state = .reset) && s.power.resetHold) = true := by simp [hreset, hhold]
    exact ⟨_, if_pos hdue, rfl⟩

/-! ### The ways down (17 R407, R409 to R411, R415) -/

/-- A supply that fails lowers the rails, without a checkpoint. -/
theorem execInputVoltageFault_of_outside {s : State} {mv : Nat} (hpowered : s.power.state ≠ .off)
    (hout : mv < 41000 ∨ 59000 < mv) :
    ∃ t, execInputVoltageFault mv s = .next t ∧ t.power.state = .off ∧ t.bootSt.cleanShutdown = false := by
  have houtside : ¬ inRange mv 41000 59000 = true := by
    simp only [inRange, Bool.and_eq_true, decide_eq_true_eq]
    omega
  exact ⟨_, (if_neg houtside).trans (if_neg hpowered), rfl, rfl⟩

/-- An input between 40 V and 44 V begins a ride-through, and the device stays in its state. -/
theorem execRideThroughEntry_of_low {s : State} {mv : Nat} (hpowered : s.power.state ≠ .off) (hmin : 40000 ≤ mv)
    (hlow : mv < 44000) : ∃ t, execRideThroughEntry mv s = .next t ∧ t.power.rideThrough.isSome ∧ t.power.state = s.power.state := by
  have hrides : (decide (s.power.state ≠ .off) && decide (40000 ≤ mv) && decide (mv < 44000)) = true := by
    simp [hpowered, hmin, hlow]
  exact ⟨_, if_pos hrides, rfl, rfl⟩

/-- The input that is back in range ends its ride-through, recorded while the device is up. -/
theorem execInputVoltageRecovered_of_range {s : State} {mv : Nat} (us : Nat) (hrides : s.power.rideThrough.isSome)
    (hmin : 44000 ≤ mv) (hmax : mv ≤ 58000) : ∃ t, execInputVoltageRecovered mv us s = .next t ∧ t.power.rideThrough = none := by
  have hback : (s.power.rideThrough.isSome && inputInRange mv) = true := by rw [hrides, inputInRange_of_le hmin hmax]; rfl
  refine ⟨_, if_pos hback, ?_⟩
  split
  · exact congrArg PowerSt.rideThrough (State.power_of_package (State.package_excursion ..))
  · rfl

/-- A fold whose turn for e brings about what is asked of e, and whose turns end it for no index, ends with it for every index of
its list. -/
theorem foldl_establishes {ι σ : Type} {P : ι → σ → Prop} {f : σ → ι → σ} (hturn : ∀ s e, P e (f s e))
    (hkeep : ∀ s e k, P k s → P k (f s e)) (l : List ι) (s : σ) : ∀ k ∈ l, P k (l.foldl f s) := by
  induction l generalizing s with
  | nil => exact fun _ hk => absurd hk List.not_mem_nil
  | cons e l ih =>
    intro k hk
    obtain rfl | hk := List.mem_cons.mp hk
    · exact List.foldlRecOn l f (hturn s k) fun t ht e _ => hkeep t e k ht
    · exact ih _ k hk

/-- No stream of context c is launched. -/
def State.Stopped (s : State) (c : Ctx) : Prop := ∀ x, s.ctx c = some x → x.running = false

/-- A fault stops its own context, and starts none. -/
theorem State.stopped_faultStop {s : State} {c k : Ctx} (cause : StopCause) (h : c = k ∨ s.Stopped k) :
    (s.faultStop c cause).Stopped k := by
  intro x hx
  rw [State.ctx_faultStop] at hx
  split at hx
  · obtain ⟨y, _, rfl⟩ := Option.map_eq_some_iff.mp hx
    exact CtxSt.running_streamsStopped _ _
  · next hne => exact h.resolve_left hne x hx

/-- The drain stops every context. -/
theorem State.stopped_stopAll (s : State) (c : Ctx) : s.stopAll.Stopped c := by
  refine foldl_establishes (P := fun k t => t.Stopped k) (fun t k => ?turn) (fun t e k hk => ?keep) _ s c (List.mem_finRange c)
  case turn =>
    split
    · next x hx =>
      split
      · exact State.stopped_faultStop _ (.inl rfl)
      · next hstopped =>
        intro y hy
        obtain rfl : x = y := Option.some.inj (hx.symm.trans hy)
        exact Bool.eq_false_iff.mpr hstopped
    · next hnone => exact fun y hy => absurd (hy.symm.trans hnone) (Option.some_ne_none y)
  case keep =>
    split
    · split
      · exact State.stopped_faultStop _ (.inr hk)
      · exact hk
    · exact hk

/-- It touches no power register and no fuse. -/
theorem State.package_stopAll (s : State) : s.stopAll.package = s.package := by
  refine foldl_eq_of_step State.package (fun st c => ?_) _ s
  split
  · split
    · exact st.package_faultStop ..
    · rfl
  · rfl

/-- A drain of a booted device stops its contexts before it is acknowledged. -/
theorem execModuleDrain_of_booted {s : State} (hrun : s.power.state = .run) (hbooted : s.bootSt.stage = 0xFF) :
    ∃ t, execModuleDrain s = .next t ∧ t.power.state = .drain ∧ t.power.shutdownReq = true ∧ ∀ c, t.Stopped c := by
  unfold execModuleDrain
  extract_lets asked
  have hasked : asked.stopAll.power.shutdownReq = true := by rw [State.power_of_package asked.package_stopAll]; rfl
  have hstopped := asked.stopped_stopAll
  have hruns : ¬ asked.power.state ≠ .run := not_not_intro hrun
  have hstage : asked.bootSt.stage = 0xFF := hbooted
  rw [if_neg hruns, if_pos hstage]
  generalize asked.stopAll = stopped at hasked hstopped ⊢
  exact ⟨_, rfl, rfl, hasked, hstopped⟩

/-- Settles O37: each row takes the branch of its conditions; lowered rails and resets leave the pins as they are. -/
theorem powerDownRows : Obligations.PowerDownRows := by
  intro s mv d
  refine ⟨fun hpowered => ⟨?off, execInputVoltageFault_of_outside hpowered, execRideThroughEntry_of_low hpowered, ?expiry,
    ?trip, ?reset⟩, execInputVoltageRecovered_of_range 5, ⟨_, rfl, rfl⟩, execModuleDrain_of_booted, ?drained, rfl⟩
  case off => exact ⟨_, if_neg hpowered, rfl, congrArg PowerSt.pwrEn (State.power_deviceReset _ 1)⟩
  case expiry =>
    intro hrides
    have hdue : (decide (s.power.state ≠ .off) && s.power.rideThrough.isSome) = true := by simp [hpowered, hrides]
    exact ⟨_, if_pos hdue, rfl⟩
  case trip => exact ⟨_, if_neg hpowered, rfl, rfl⟩
  case reset => exact ⟨_, if_neg hpowered, rfl, rfl, rfl⟩
  case drained =>
    intro hdrain hwaits
    have hdue : (decide (s.power.state = .drain) && !s.power.shutdownAck) = true := by simp [hdrain, hwaits]
    exact if_pos hdue

end Sys2Proof.Machine
end

section
/-! SUPPORT. Proofs: the capping loop and the margin cap (17 R413, R414, R417, R418). -/
namespace Sys2Proof.Machine

/-! ### The capping loop (17 R413) -/

/-- A step down never leaves 700 MHz, and takes what is above it lower. -/
theorem stepDown_bounds {mhz : Nat} (hlow : 700 ≤ mhz) :
    700 ≤ stepDown mhz ∧ stepDown mhz ≤ mhz ∧ (700 < mhz → stepDown mhz < mhz) := by
  unfold stepDown
  omega

/-- A step up stays within 1,400 MHz. -/
theorem stepUp_bounds {mhz : Nat} (hhigh : mhz ≤ 1400) : mhz ≤ stepUp mhz ∧ stepUp mhz ≤ 1400 := by
  unfold stepUp
  omega

/-- Settles O39: above the limit the clock steps down; below 97 % of it the clock steps up or waits; between them it stands. -/
theorem cappingStaysInRange : Obligations.CappingStaysInRange := by
  intro watts limit mhz count hlow hhigh
  unfold cappingStep
  split
  case isTrue hover =>
    obtain ⟨hmin, hle, hlt⟩ := stepDown_bounds hlow
    exact ⟨hmin, hle.trans hhigh, fun _ => ⟨hle, hlt⟩, fun hraised => absurd hraised (Nat.not_lt.mpr hle)⟩
  case isFalse hwithin =>
    split
    case isFalse => exact ⟨hlow, hhigh, fun hover => absurd hover hwithin, fun hraised => absurd hraised (lt_irrefl mhz)⟩
    case isTrue hbelow =>
      split
      case isFalse => exact ⟨hlow, hhigh, fun hover => absurd hover hwithin, fun hraised => absurd hraised (lt_irrefl mhz)⟩
      case isTrue hcount =>
        obtain ⟨hle, hmax⟩ := stepUp_bounds hhigh
        exact ⟨hlow.trans hle, hmax, fun hover => absurd hover hwithin, fun _ => ⟨hbelow, Nat.le_of_succ_le_succ hcount⟩⟩

/-! ### The margin cap (17 R418) -/

/-- While a die's clock is capped, a capping episode lasts (17 R414). -/
theorem State.episode_cappingEpisode {s : State} {d : Die} (hcapped : (s.die d).marginMhz < 1400) :
    s.cappingEpisode.power.episode.isSome := by
  have hany : s.dies.toList.any (fun x => x.powerMhz < 1400 || x.marginMhz < 1400) = true :=
    List.any_eq_true.mpr ⟨s.die d, Vector.mem_toList_iff.mpr (Vector.getElem_mem d.isLt), by simp [hcapped]⟩
  unfold State.cappingEpisode
  dsimp only
  rw [hany, Bool.true_or, if_pos rfl]
  rfl

/-- Whether a die whose smallest margin is m has its aclk capped after a sweep: the cap begins at the supply's ceiling, and stays
until a margin of 70 MHz. -/
def DieSt.capsAt (x : DieSt) (m : Int) (ceiling : Nat) : Bool := m < 70 && (x.capMargin || decide (ceiling ≤ x.vddMv))

/-- The clock that a margin of m leaves a die whose aclk is capped. -/
def marginClock (m : Int) : Nat := ((1330 + m) / 14 * 14).toNat

/-- A margin below 70 MHz takes the clock below nominal. -/
theorem marginClock_lt {m : Int} (h : m < 70) : marginClock m < 1400 := by
  unfold marginClock
  omega

theorem cast_marginClock (m : Int) : (marginClock m : Int) = max 0 ((1400 + m - 70) / 14 * 14) := by
  have hsum : 1400 + m - 70 = 1330 + m := by omega
  rw [marginClock, Int.toNat_eq_max, hsum, max_comm]

/-- A die with a smallest margin m, as the end of a sweep leaves it with VDD_A at v (17 R417, R418). -/
def DieSt.adapted (x : DieSt) (m : Int) (ceiling v : Nat) : DieSt :=
  { x with vddMv := v, capMargin := x.capsAt m ceiling, marginMhz := if x.capsAt m ceiling then marginClock m else 1400 }

/-- The end of a sweep sets the die's supply and its cap, and looks at the episode. -/
theorem State.adaptVoltage_eq {s : State} {d : Die} {m : Int} (a : Nat) (hm : (s.die d).smallestMargin = some m) :
    ∃ v, s.adaptVoltage d a = (s.updDie d fun _ => (s.die d).adapted m (s.calAt d (islandAt 0 + 4) 2) v).cappingEpisode := by
  unfold State.adaptVoltage
  dsimp only
  rw [hm]
  exact ⟨_, rfl⟩

@[simp] theorem State.die_cappingEpisode (s : State) (d : Die) : s.cappingEpisode.die d = s.die d :=
  (State.cappingEpisode_leaves (g := id) s).dies d

/-- Settles O55: the cap that a sweep sets is decided by the margin, the cap before and the supply before. -/
theorem marginCap : Obligations.MarginCap := by
  intro s d a m hm ceiling y
  obtain ⟨v, hadapted⟩ := State.adaptVoltage_eq a hm
  have hy : y = (s.die d).adapted m ceiling v := by
    simp only [y, hadapted, State.die_cappingEpisode, State.die_updDie, if_true, ceiling]
  refine ⟨fun hlow hceiling => ?begins, fun hlow hcap => ?stays, fun hwide => ?ends⟩
  case begins =>
    have hcaps : (s.die d).capsAt m ceiling = true := by simp [DieSt.capsAt, hlow, hceiling]
    have hclock : y.marginMhz = marginClock m := by rw [hy, DieSt.adapted, hcaps]; rfl
    refine ⟨by rw [hy]; exact hcaps, by rw [hclock, cast_marginClock], Nat.min_le_right _ _, ?_⟩
    have hbelow : ((s.updDie d fun _ => (s.die d).adapted m ceiling v).die d).marginMhz < 1400 := by
      rw [State.die_updDie, if_pos rfl, ← hy, hclock]
      exact marginClock_lt hlow
    rw [hadapted]
    exact State.episode_cappingEpisode hbelow
  case stays => simp [hy, DieSt.adapted, DieSt.capsAt, hlow, hcap]
  case ends => simp [hy, DieSt.adapted, DieSt.capsAt, Int.not_lt.mpr hwide]

end Sys2Proof.Machine
end

section
/-! SUPPORT. Proofs: the samples and the reference clocks. No move and no packet touches the power registers, so that what a
sample or a lost clock sets there stays (17 R412 to R416, R419). -/
namespace Sys2Proof.Machine

/-! ### What an instruction's body does to the device -/

@[simp] theorem State.package_putBytes (s : State) (p : Place) (bs : Bytes) : (s.putBytes p bs).package = s.package :=
  State.package_of_unstored (s.unstored_putBytes p bs)

@[simp] theorem State.package_mark (s : State) (p : Place) (o : Origin) : (s.mark p o).package = s.package :=
  State.package_of_unstored (by rw [State.unstored, s.unpoisoned_mark p o, ← State.unstored])

@[simp] theorem State.package_unmark (s : State) (p : Place) : (s.unmark p).package = s.package :=
  State.package_of_unstored (by rw [State.unstored, s.unpoisoned_unmark p, ← State.unstored])

@[simp] theorem State.package_updStall (s : State) (d : Die) (c : Nat) (f : StallSt → StallSt) :
    (s.updStall d c f).package = s.package := by
  unfold State.updStall
  split <;> rfl

@[simp] theorem State.package_measure (s : State) (d : Die) (source qual : Nat) (c : Option Nat) (start : Nat) :
    (s.measure d source qual c start).package = s.package := by
  unfold State.measure
  split <;> rfl

@[simp] theorem State.package_noteRead (s : State) (d : Die) (off : Nat) (c : Option Nat) :
    (s.noteRead d off c).package = s.package := by
  cases c with
  | none => rfl
  | some k => exact (State.package_updStall ..).trans rfl

@[simp] theorem State.package_countReads (s : State) (d : Die) (off n : Nat) (c : Option Nat) :
    (s.countReads d off n c).package = s.package := by
  refine foldl_eq_of_step State.package (fun st o => ?_) _ s
  dsimp only
  split <;> simp only [State.package_count, State.package_measure, State.package_noteRead]

@[simp] theorem State.package_countWrites (s : State) (d : Die) (off n : Nat) (c : Option Nat) :
    (s.countWrites d off n c).package = s.package := by
  refine foldl_eq_of_step State.package (fun st o => ?_) _ s
  cases c <;> dsimp only <;> split <;> simp [State.addUnits]

@[simp] theorem State.package_countFault (s : State) (d : Die) (c : Option Nat) (f : FaultInfo) :
    (s.countFault d c f).package = s.package := by
  unfold State.countFault
  split <;> simp only [State.package_count]

@[simp] theorem State.package_recordFault (s : State) (d : Die) (c : Option Nat) (addr : Nat) (f : FaultInfo) :
    (s.recordFault d c addr f).package = s.package :=
  s.package_logWith ..

@[simp] theorem State.package_stopFault (s : State) (d : Die) (c : Ctx) (addr : Nat) (f : FaultInfo) (cause : StopCause) :
    (s.stopFault d c addr f cause).package = s.package := by
  simp only [State.stopFault, State.package_faultStop, State.package_recordFault, State.package_countFault]

@[simp] theorem State.package_hostPoisonRuns (s : State) (runs : List (Nat × Nat)) : (s.hostPoisonRuns runs).package = s.package :=
  foldl_eq_of_step State.package (fun st _ => foldl_eq_of_step State.package (fun st _ => st.package_mark ..) _ st) runs s

@[simp] theorem State.package_hostStore (s : State) (runs : List (Nat × Nat)) (data : Bytes) :
    (s.hostStore runs data).1.package = s.package := by
  refine foldl_eq_of_step (fun acc : State × Bytes => acc.1.package) (fun acc e => ?_) runs (s, data)
  exact (foldl_eq_of_step State.package (fun st _ => st.package_unmark ..) _ _).trans (State.package_putBytes ..)

/-! ### Bodies -/

/-- A body that meets no fault leaves the power registers and the fuses. -/
structure ExecSteady {α : Type} (m : Exec α) : Prop where
  run : ∀ (r : Run) (a : α) (r' : Run), m.run r = .ok (a, r') → r'.s.package = r.s.package

section
variable {α β : Type}

theorem ExecSteady.pure (a : α) : ExecSteady (pure a : Exec α) := by
  constructor
  rintro r b r' ⟨⟩
  rfl

theorem ExecSteady.bind {m : Exec α} {f : α → Exec β} (hm : ExecSteady m) (hf : ∀ a, ExecSteady (f a)) :
    ExecSteady (m >>= f) := by
  constructor
  intro r b r' h
  obtain ⟨a, q, hfirst, hrest⟩ := Exec.of_bind_ok h
  exact ((hf a).run q b r' hrest).trans (hm.run r a q hfirst)

/-- A fault leaves nothing to look at. -/
theorem ExecSteady.throw (x : Trap) : ExecSteady (throw x : Exec α) := by
  constructor
  rintro r b r' ⟨⟩

theorem ExecSteady.get : ExecSteady (get : Exec Run) := by
  constructor
  rintro r b r' ⟨⟩
  rfl

theorem ExecSteady.getS : ExecSteady getS := .bind .get fun _ => .pure _

theorem ExecSteady.modify {f : Run → Run} (hf : ∀ r, (f r).s.package = r.s.package) : ExecSteady (modify f : Exec Unit) := by
  constructor
  rintro r b r' ⟨⟩
  exact hf r

theorem ExecSteady.modS {f : State → State} (hf : ∀ s, (f s).package = s.package) : ExecSteady (modS f) :=
  .modify fun r => hf r.s

theorem ExecSteady.forM {l : List β} {f : β → Exec PUnit} (hf : ∀ a, ExecSteady (f a)) : ExecSteady (l.forM f) := by
  induction l with
  | nil => exact .pure _
  | cons a l ih => exact .bind (hf a) fun _ => ih

theorem ExecSteady.mapM {l : List α} {f : α → Exec β} (hf : ∀ a, ExecSteady (f a)) : ExecSteady (l.mapM f) := by
  induction l with
  | nil => rw [List.mapM_nil]; exact .pure _
  | cons a l ih => rw [List.mapM_cons]; exact (hf a).bind fun _ => ih.bind fun _ => .pure _

theorem ExecSteady.foldlM {l : List α} {f : β → α → Exec β} (hf : ∀ b a, ExecSteady (f b a)) (b : β) :
    ExecSteady (l.foldlM f b) := by
  induction l generalizing b with
  | nil => exact .pure _
  | cons a l ih => rw [List.foldlM_cons]; exact (hf b a).bind ih

theorem ExecSteady.ite {c : Prop} [Decidable c] {a b : Exec α} (ha : ExecSteady a) (hb : ExecSteady b) :
    ExecSteady (if c then a else b) := by
  split <;> assumption

/-- Either of two ways, and what follows both. -/
theorem ExecSteady.iteBind {c : Prop} [Decidable c] {a b : Exec α} {k : α → Exec β} (ha : ExecSteady a) (hb : ExecSteady b)
    (hk : ∀ x, ExecSteady (k x)) : ExecSteady (if c then a >>= k else b >>= k) :=
  .ite (ha.bind hk) (hb.bind hk)

/-- A step on a condition, and what follows with it or without. -/
theorem ExecSteady.whenBind {c : Prop} [Decidable c] {a : Exec PUnit} {k : PUnit → Exec β} (ha : ExecSteady a)
    (hk : ∀ x, ExecSteady (k x)) : ExecSteady (if c then a >>= k else k ⟨⟩) :=
  .ite (ha.bind hk) (hk _)

end

/-! ### Descriptors and faults -/

theorem shapeIf_steady (b : Bool) (i : Nat) : ExecSteady (shapeIf b i) := .ite (.pure _) (.throw _)

theorem getCtx_steady : ExecSteady getCtx := by
  refine .bind .get fun r => ?_
  split
  · exact .pure _
  · exact .throw _

theorem setNonfinite_steady (b : Bool) : ExecSteady (setNonfinite b) := .modify fun _ => rfl

theorem setTainted_steady : ExecSteady setTainted := .modify fun _ => rfl

theorem raiseCompute_steady (f : FaultInfo) : ExecSteady (raiseCompute f) :=
  .bind (.modify fun r => (State.package_recordFault ..).trans (r.s.package_countFault ..)) fun _ => setTainted_steady

theorem raiseMemory_steady (f : FaultInfo) : ExecSteady (raiseMemory f) :=
  .bind (.modify fun r => (State.package_recordFault ..).trans (r.s.package_countFault ..)) fun _ => setTainted_steady

theorem metPoison_steady (o : Origin) (a : Nat) : ExecSteady (metPoison o a) := by
  cases o with
  | compute => exact setTainted_steady
  | memory =>
    exact .bind .get fun _ => .ite setTainted_steady
      (.bind .get fun _ => .bind (raiseMemory_steady _) fun _ => .modify fun _ => rfl)

theorem countE_steady (ev qual n : Nat) : ExecSteady (countE ev qual n) :=
  .bind .get fun _ => .ite (.pure _) (.modS fun _ => rfl)

/-- Resolving a descriptor reads. -/
theorem resolve_steady (i : Nat) (v : Want) : ExecSteady (resolve i v) := by
  have hif {b : Bool} := shapeIf_steady b i
  refine .bind hif fun _ => .bind getCtx_steady fun x => .bind .get fun r => .bind hif fun _ => .bind hif fun _ =>
    .bind hif fun _ => .bind hif fun _ => .bind hif fun _ => ?_
  extract_lets act area resolved
  have hresolved : ∀ off, ExecSteady (resolved off) := by
    intro off
    refine .bind hif fun _ => .bind (.forM fun a => ?_) fun _ => .ite ?_ (.pure _)
    · split
      · exact .pure _
      · exact .throw _
    · split
      · exact .pure _
      · exact .throw _
  refine .ite (.bind (.pure _) hresolved) ?_
  split
  · exact .bind (.pure _) hresolved
  · exact .bind (.throw _) hresolved

/-! ### Reading -/

theorem chargeStack_steady (d : Die) (o n : Nat) : ExecSteady (chargeStack d o n) := by
  refine .modify fun r => ?_
  split
  · exact r.s.package_updStall ..
  · exact r.s.package_updStall ..

theorem countStackReads_steady (t : Tensor) (a n : Nat) : ExecSteady (countStackReads t a n) := by
  refine .forM fun e => .bind .get fun r => ?_
  split
  · exact .bind (.modify fun _ => rfl) fun _ => .bind (.modS fun s => s.package_countReads ..) fun _ => chargeStack_steady ..
  · exact .pure _

theorem raiseSeal_steady (t : Tensor) (block stored computed : Nat) : ExecSteady (raiseSeal t block stored computed) :=
  .bind .get fun _ => raiseMemory_steady _

theorem readBlock_steady (t : Tensor) (r k : Nat) : ExecSteady (readBlock t r k) := by
  refine .bind .getS fun s => .bind (countStackReads_steady ..) fun _ => .whenBind (countStackReads_steady ..) fun _ => ?_
  extract_lets sealBad
  split
  · exact .bind (metPoison_steady ..) fun _ => .ite (.pure _) (.pure _)
  · exact .bind (metPoison_steady ..) fun _ => .pure _
  · exact .ite (.ite (.pure _) (.bind (raiseSeal_steady ..) fun _ => .pure _)) (.pure _)

theorem readRow_steady (t : Tensor) (r : Nat) : ExecSteady (readRow t r) :=
  .bind (.mapM (readBlock_steady t r)) fun _ => .pure _

theorem readElems_steady (t : Tensor) : ExecSteady (readElems t) :=
  .bind (.mapM (readRow_steady t)) fun _ => .pure _

theorem readPart_steady (t : Tensor) (lo hi : Nat) : ExecSteady (readPart t lo hi) := by
  refine .ite (.bind (.mapM fun j => readBlock_steady ..) fun _ => .pure _) (.bind .getS fun s => ?_)
  refine .bind (.forM fun k => .ite (countStackReads_steady ..) (.pure _)) fun _ => ?_
  extract_lets marks
  split
  · exact .bind (metPoison_steady ..) fun _ => .pure _
  · exact .pure _

/-! ### Writing -/

theorem storeAt_steady (p : Place) (bs : Bytes) (poison : Bool) : ExecSteady (storeAt p bs poison) := by
  refine .bind .get fun r => .bind (.modS fun s => s.package_write ..) fun _ => .bind (.modify fun _ => rfl) fun _ => ?_
  cases p with
  | st d o =>
    exact .bind (.modify fun _ => rfl) fun _ => .bind (.modS fun s => s.package_countWrites ..) fun _ => chargeStack_steady ..
  | sp d o => exact .pure _
  | host h => exact .pure _

theorem storeRun_steady (t : Tensor) (a : Nat) (bs : Bytes) (poison : Bool) : ExecSteady (storeRun t a bs poison) := by
  refine .forM fun e => ?_
  split
  split
  · exact storeAt_steady ..
  · exact .pure _

theorem storeSeal_steady (t : Tensor) (j : Nat) (bs : Bytes) : ExecSteady (storeSeal t j bs) :=
  .ite (storeRun_steady ..) (.pure _)

theorem writeSpan_steady (t : Tensor) (r off : Nat) (bs : List PByte) : ExecSteady (writeSpan t r off bs) := by
  refine .whenBind setTainted_steady fun _ => .forM fun k => ?_
  refine .ite (.pure _) (.ite (.forM fun e => storeRun_steady ..) (.ite ?whole ?part))
  case whole => exact .bind (storeRun_steady ..) fun _ => storeSeal_steady ..
  case part =>
    exact .bind .getS fun s => .whenBind (raiseSeal_steady ..) fun _ => .iteBind (storeRun_steady ..)
      (storeRun_steady ..) fun _ => storeSeal_steady ..

theorem onOutput_steady (k : Nat) {m : Exec Unit} (hm : ExecSteady m) : ExecSteady (onOutput k m) :=
  .bind .get fun _ => .bind (.modify fun _ => rfl) fun _ => .bind hm fun _ => .modify fun _ => rfl

theorem writeRow_steady (t : Tensor) (r : Nat) (bs : List PByte) : ExecSteady (writeRow t r bs) :=
  .bind .get fun _ => writeSpan_steady ..

theorem writeElems_steady (t : Tensor) (rows : List (List PElem)) : ExecSteady (writeElems t rows) :=
  .bind .get fun _ => .forM fun _ => writeSpan_steady ..

theorem writeFlat_steady (t : Tensor) (off : Nat) (bs : List PByte) : ExecSteady (writeFlat t off bs) :=
  .forM fun _ => .ite (.pure _) (writeSpan_steady ..)

theorem writeFlatOut_steady (t : Tensor) (off : Nat) (bs : List PByte) : ExecSteady (writeFlatOut t off bs) :=
  .bind .get fun _ => writeFlat_steady ..

/-! ### Operand sets -/

theorem readUnit_steady (v : SetIn) (u : Nat) : ExecSteady (readUnit v u) := by
  refine .bind .getS fun s => .bind ?sealed fun _ => .bind (.forM fun e => ?span) fun _ => ?checks
  case sealed =>
    split
    · exact .ite (countStackReads_steady ..) (.pure _)
    · exact .pure _
  case span =>
    split
    split
    · exact .forM fun i => .ite (countStackReads_steady ..) (.pure _)
    · exact .pure _
  case checks =>
    extract_lets marks tagged sealMark
    split
    · exact .bind (metPoison_steady ..) fun _ => .pure _
    · exact .ite (.pure _) (.ite (.pure _) (.bind (raiseSeal_steady ..) fun _ => .pure _))
    · exact .pure _

theorem readUnits_steady (v : SetIn) (outs reds : Nat × Nat) : ExecSteady (readUnits v outs reds) :=
  .foldlM readUnit_steady v

theorem openSet_steady (base : Nat) (v : SetWant) : ExecSteady (openSet base v) := by
  refine .bind (resolve_steady ..) fun th => .bind (shapeIf_steady ..) fun _ => .bind (readPart_steady ..) fun flat =>
    .ite (.pure _) (.bind getCtx_steady fun x => .bind (resolve_steady ..) fun t1 => .bind (shapeIf_steady ..) fun _ =>
      .bind (shapeIf_steady ..) fun _ => .bind (readPart_steady ..) fun more => .ite (.pure _)
        (.bind (shapeIf_steady ..) fun _ => .bind (.mapM fun _ => ?_) fun _ => .pure _))
  exact .ite (.pure _) (.ite (.pure _)
    (.ite (.bind (resolve_steady ..) fun _ => .bind (shapeIf_steady ..) fun _ => .pure _) (.pure _)))

theorem openDest_steady (base : Nat) (v : SetOut) (area : AreaSel) (far move : Bool) :
    ExecSteady (openDest base v area far move) :=
  .mapM fun _ => .ite (.bind (resolve_steady ..) fun _ => .bind (shapeIf_steady ..) fun _ =>
    .whenBind (shapeIf_steady ..) fun _ => .pure _) (.pure _)

theorem tagPlane_steady (t : Tensor) (g : SetShape) (p : Nat) (ks : List Nat) : ExecSteady (tagPlane t g p ks) := by
  refine .forM fun k => ?_
  split
  · exact .ite (.modS fun _ => rfl) (.pure _)
  · exact .pure _

theorem writePlane_steady (t : Tensor) (g : SetShape) (p : Nat) (bs : List (Nat × PByte)) : ExecSteady (writePlane t g p bs) :=
  .bind (.forM fun _ => writeFlat_steady ..) fun _ => tagPlane_steady ..

theorem sealUnits_steady (v : SetIn) (us : List Nat) : ExecSteady (sealUnits v us) := by
  refine .forM fun u => .bind .getS fun s => ?_
  split
  · exact storeRun_steady ..
  · exact .pure _

/-! ### The bodies of moves (09 R220 to R228) -/

theorem copyBody_steady (w : IWord) : ExecSteady (copyBody w) :=
  .bind (resolve_steady ..) fun _ => .bind (resolve_steady ..) fun _ => .bind (shapeIf_steady ..) fun _ =>
    .bind (readElems_steady _) fun _ => .bind (setNonfinite_steady _) fun _ => .ite
      (.bind (writeElems_steady ..) fun _ => countE_steady ..)
      (.bind (setNonfinite_steady _) fun _ => .bind (writeElems_steady ..) fun _ => countE_steady ..)

theorem fillBody_steady (w : IWord) : ExecSteady (fillBody w) :=
  .bind (resolve_steady ..) fun _ => .bind (writeElems_steady ..) fun _ => countE_steady ..

theorem sealBody_steady (w : IWord) : ExecSteady (sealBody w) := by
  refine .bind (resolve_steady ..) fun b => .bind (shapeIf_steady ..) fun _ =>
    .bind (.forM fun r => .forM fun k => .bind .getS fun s => .bind (countStackReads_steady ..) fun _ => ?_) fun _ => countE_steady ..
  split
  · exact .bind (metPoison_steady ..) fun _ => storeSeal_steady ..
  · exact storeSeal_steady ..

theorem poisonPlanes_steady (g : SetShape) (np : Nat) (ps : List Nat) (planes : List (Option Tensor)) :
    ExecSteady (poisonPlanes g np ps planes) := by
  refine .forM fun k => ?_
  split
  · exact writePlane_steady ..
  · exact .pure _

theorem poisonSet_steady (base : Nat) : ExecSteady (poisonSet base) :=
  .forM fun _ => .bind (resolve_steady ..) fun _ => writeFlat_steady ..

theorem setcopyBody_steady (w : IWord) : ExecSteady (setcopyBody w) := by
  refine .bind (openSet_steady ..) fun v => .ite (poisonSet_steady _) ?_
  extract_lets opened copied
  have hcopied : ∀ v, ExecSteady (copied v) := by
    intro v
    refine .bind (openDest_steady ..) fun planes => ?_
    extract_lets np counted unitOf headed written
    have hcounted : ∀ x, ExecSteady (counted x) := fun _ => countE_steady ..
    have hheaded : ∀ x, ExecSteady (headed x) := by
      intro x
      unfold headed
      split
      · exact .bind (onOutput_steady 12 (writeFlatOut_steady ..)) hcounted
      · exact hcounted ⟨⟩
    have hwritten : ∀ x, ExecSteady (written x) := by
      intro x
      refine .ite (.bind (poisonPlanes_steady ..) fun _ => ?poisoned) (.bind .getS fun s => .bind .get fun r =>
        .whenBind setTainted_steady fun _ => .bind (.forM fun k => ?plane) fun _ => ?seals)
      case poisoned =>
        split
        · exact .bind (writeFlat_steady ..) hcounted
        · exact hcounted ⟨⟩
      case plane =>
        split
        · exact writePlane_steady ..
        · exact .pure _
      case seals =>
        split
        · exact .ite (hheaded ⟨⟩) (.iteBind (.forM fun u => storeRun_steady ..) (sealUnits_steady ..) hheaded)
        · exact hheaded ⟨⟩
    split
    · exact .bind (raiseCompute_steady _) hwritten
    · exact hwritten ⟨⟩
  exact .iteBind (.pure _) (readUnits_steady ..) hcopied

theorem readIndex_steady (i n : Nat) : ExecSteady (readIndex i n) :=
  .bind (resolve_steady ..) fun _ => .bind (shapeIf_steady ..) fun _ => .bind (readElems_steady _) fun _ => .pure _

theorem gatherBody_steady (w : IWord) : ExecSteady (gatherBody w) := by
  refine .bind (resolve_steady ..) fun a => .bind (resolve_steady ..) fun b => .bind (shapeIf_steady ..) fun _ =>
    .bind (readIndex_steady ..) fun sels => .bind (shapeIf_steady ..) fun _ => .bind (.forM fun win => ?window) fun _ =>
      .bind (countE_steady ..) fun _ => countE_steady ..
  case window =>
    refine .bind (.mapM (readRow_steady a)) fun rows => .bind (setNonfinite_steady _) fun _ => .forM fun e => ?_
    split
    split
    · exact writeRow_steady ..
    · exact writeRow_steady ..
    · exact .bind (raiseCompute_steady ..) fun _ => writeRow_steady ..
    · exact writeRow_steady ..

theorem scatterBody_steady (w : IWord) : ExecSteady (scatterBody w) := by
  refine .bind (resolve_steady ..) fun a => .bind (resolve_steady ..) fun b => .bind (shapeIf_steady ..) fun _ =>
    .bind (readIndex_steady ..) fun sels => .bind (shapeIf_steady ..) fun _ => .forM fun e => ?_
  split
  split
  · exact .bind (readRow_steady ..) fun _ => .ite (.pure _)
      (.bind (setNonfinite_steady _) fun _ => .bind (writeRow_steady ..) fun _ => countE_steady ..)
  · exact .pure _
  · exact raiseCompute_steady ..
  · exact setTainted_steady

theorem scatterAddBody_steady (w : IWord) : ExecSteady (scatterAddBody w) := by
  refine .bind (resolve_steady ..) fun a => .bind (resolve_steady ..) fun b => .bind (shapeIf_steady ..) fun _ =>
    .bind (readIndex_steady ..) fun sels => .bind (shapeIf_steady ..) fun _ => .bind (.forM fun e => ?index) fun _ =>
      .forM fun k => .bind (readRow_steady ..) fun _ => .bind (.mapM (readRow_steady a)) fun _ =>
        .bind (setNonfinite_steady _) fun _ => .bind (writeRow_steady ..) fun _ => countE_steady ..
  case index =>
    split
    split
    · exact raiseCompute_steady ..
    · exact setTainted_steady
    · exact .pure _

theorem windowBody_steady (w : IWord) : ExecSteady (windowBody w) := by
  refine .bind (resolve_steady ..) fun a => .bind (resolve_steady ..) fun b => ?_
  extract_lets cN wd ht
  split
  · exact .bind (shapeIf_steady ..) fun _ => .bind (readElems_steady a) fun _ => .bind (setNonfinite_steady _) fun _ =>
      .bind (writeElems_steady ..) fun _ => countE_steady ..
  · exact .throw _

theorem mvBody_steady (w : IWord) : ExecSteady (mvBody w) := by
  unfold mvBody
  split
  · exact copyBody_steady w
  · exact setcopyBody_steady w
  · exact gatherBody_steady w
  · exact scatterBody_steady w
  · exact scatterAddBody_steady w
  · exact windowBody_steady w
  · exact fillBody_steady w
  · exact sealBody_steady w

/-! ### Moves that the host answers (15 R364) -/

theorem hostRefused_steady (w : IWord) : ExecSteady (hostRefused w) :=
  .bind .get fun _ => .ite (mvBody_steady w)
    (.bind getCtx_steady fun _ => .bind (raiseMemory_steady _) fun _ => setTainted_steady)

theorem mvNow_steady (w : IWord) : ExecSteady (mvNow w) :=
  .bind .get fun _ => .ite
    (.bind getCtx_steady fun _ => .bind (.modS fun s => s.package_hostPoisonRuns _) fun _ => hostRefused_steady w) (mvBody_steady w)

theorem withDescs_steady {α : Type} (ds : SMap (BitVec 512)) {m : Exec α} (hm : ExecSteady m) : ExecSteady (withDescs ds m) :=
  .bind getCtx_steady fun _ => .bind .get fun _ => .bind (.modS fun _ => rfl) fun _ => .bind hm fun _ =>
    .bind (.modS fun _ => rfl) fun _ => .pure _

/-! ### Queues of moves, and the host link's loss (09 R220; 15 R364) -/

theorem Run.package_close (r : Run) (was : Bool) (place : List InFlight → List InFlight) :
    (r.close was place).package = r.s.package := by
  unfold Run.close
  extract_lets tainted nonfinite counted placed
  have htainted : tainted.package = r.s.package := by
    unfold tainted
    split
    · exact r.s.package_updCtx ..
    · rfl
  have hnonfinite : nonfinite.package = tainted.package := by
    unfold nonfinite
    split
    · exact tainted.package_updCtx ..
    · rfl
  have hcounted : counted.package = nonfinite.package := by
    unfold counted
    split
    · exact nonfinite.package_count ..
    · rfl
  have hplaced : placed.package = r.s.package :=
    (counted.package_updCtx ..).trans (hcounted.trans (hnonfinite.trans htainted))
  split
  · exact (placed.package_faultStop ..).trans hplaced
  · exact hplaced

theorem State.package_runMove (s : State) (d : Die) (m : MoveWait) {body : Exec Unit} (hbody : ExecSteady body) :
    (s.runMove d m body).package = s.package := by
  unfold State.runMove
  extract_lets k left
  split
  · rfl
  · split
    · rfl
    · split
      · rfl
      · extract_lets begun
        split
        · exact State.package_stopFault ..
        · next r hrun => exact (r.package_close ..).trans ((withDescs_steady m.descs hbody).run _ _ _ hrun)

theorem State.package_advanceQueue (s : State) (d : Die) (q n : Nat) : (State.advanceQueue d q n s).package = s.package :=
  State.advanceQueue_induction (P := fun t => t.package = s.package) (fun _ _ h => h)
    (fun t m h => (t.package_runMove d m (mvNow_steady _)).trans h) q n s rfl

/-- What the host answers, and what the move then does, leave the package. -/
theorem State.takeReply_steady (s : State) (d : Die) (m : MoveWait) (reply : HostReply) :
    (s.takeReply d m reply).1.package = s.package ∧ ExecSteady (s.takeReply d m reply).2 := by
  cases reply with
  | completed data => exact ⟨(State.package_hostStore ..).trans (s.package_hostStore ..), mvBody_steady _⟩
  | refused => exact ⟨s.package_hostPoisonRuns _, hostRefused_steady _⟩
  | poisoned e => exact ⟨s.package_hostPoisonRuns _, .ite (mvBody_steady _) (hostRefused_steady _)⟩

theorem State.package_hostAnswer (s : State) (d : Die) (c : Ctx) (index : Nat) (reply : HostReply) :
    (s.hostAnswer d c index reply).package = s.package := by
  unfold State.hostAnswer
  split
  · rfl
  · split
    · rfl
    · next m _ =>
      obtain ⟨htaken, hbody⟩ := s.takeReply_steady d m reply
      exact (State.package_advanceQueue ..).trans ((State.package_runMove _ d m hbody).trans htaken)

theorem State.package_dropHostLink (s : State) : s.dropHostLink.package = s.package :=
  foldl_eq_of_step State.package (fun st _ => st.package_hostAnswer ..) _ _

/-- Without its reference clock the host link is down. -/
theorem execHostRefclkLoss_loses (s : State) :
    ∃ t, execHostRefclkLoss s = .next t ∧ t.power.hostRefclk = false ∧ t.host.link = none := by
  unfold execHostRefclkLoss
  extract_lets lost
  refine ⟨_, rfl, ?_⟩
  split
  · exact ⟨by rw [State.power_of_package lost.package_dropHostLink]; rfl, lost.link_dropHostLink⟩
  · next hdown => exact ⟨rfl, Option.not_isSome_iff_eq_none.mp hdown⟩

/-! ### Packets and links (10 R238, R242 to R250, R266, R267) -/

@[simp] theorem State.package_hostEvent (s : State) (type : Nat) (c : Option Nat) (body : Bytes) :
    (s.hostEvent type c body).package = s.package := by
  simp only [State.hostEvent, State.package_post, State.package_makeRec]

@[simp] theorem State.package_linkRecord (s : State) (l : Link) (action reason : Nat) :
    (s.linkRecord l action reason).package = s.package :=
  s.package_logWith ..

@[simp] theorem State.package_judgePort (s : State) (port : Nat) : (s.judgePort port).package = s.package := by
  unfold State.judgePort State.geometryChange
  dsimp only
  split
  · rfl
  · rw [State.package_hostEvent]; rfl

@[simp] theorem State.package_judgeIsolation (s : State) (l : Link) : (s.judgeIsolation l).package = s.package := by
  unfold State.judgeIsolation
  split
  · rfl
  · refine foldl_eq_of_step State.package (fun st c => ?_) _ s
    split
    · dsimp only
      split
      · exact st.package_stopFault ..
      · rfl
    · rfl

@[simp] theorem State.package_offer (s : State) (p : Pkt) : (s.offer p).package = s.package := by
  unfold State.offer
  split <;> rfl

@[simp] theorem State.package_nak (s : State) (die : Die) (p : Pkt) (reason : Nat) : (s.nak die p reason).package = s.package := by
  unfold State.nak
  split
  · exact State.package_offer ..
  · rfl

@[simp] theorem State.package_emit (s : State) (l : Link) (slots : List OutSlot) : (s.emit l slots).package = s.package := by
  unfold State.emit
  dsimp only
  split <;> rfl

@[simp] theorem State.package_freeBuffer (s : State) (from_ : Option Nat) (p : Pkt) :
    (s.freeBuffer from_ p).package = s.package := by
  cases from_ <;> rfl

@[simp] theorem State.package_discard (s : State) (from_ : Option Nat) (p : Pkt) (cause : Nat) :
    (s.discard from_ p cause).package = s.package := by
  rw [State.discard, State.package_count, State.package_freeBuffer]

@[simp] theorem State.package_sendHop (s : State) (p : Pkt) (h : Hop) : (s.sendHop p h).package = s.package := by
  rw [State.sendHop, State.package_emit]
  rfl

@[simp] theorem State.package_noteSent (s : State) (w : Waiting) (hs : List Hop) : (s.noteSent w hs).package = s.package := by
  unfold State.noteSent
  split <;> rfl

@[simp] theorem State.package_advanceAt (s : State) (i : Nat) : (s.advanceAt i).package = s.package := by
  unfold State.advanceAt
  split
  · rfl
  · extract_lets +onlyGivenNames fabric without
    have hwithout : without.package = s.package := rfl
    split
    · rw [State.package_offer, State.package_freeBuffer, hwithout]
    split
    · rfl
    · rw [State.package_nak, State.package_discard, hwithout]
    split
    · rfl
    · rw [foldl_eq_of_step State.package (fun st h => st.package_sendHop _ h), State.package_freeBuffer, State.package_noteSent,
        hwithout]

@[simp] theorem State.package_closeLinks (s : State) : s.closeLinks.package = s.package := by
  refine foldl_eq_of_step State.package (fun st l => ?_) _ s
  dsimp only
  split
  · rfl
  · exact st.package_emit ..

@[simp] theorem State.package_enter (s : State) (from_ : Option Nat) (p : Pkt) : (s.enter from_ p).package = s.package := by
  have hbuffer {t : State} : (t.buffer from_ p).package = t.package := State.package_advanceAt ..
  unfold State.enter
  extract_lets d fabric delivered e
  have hdelivered : delivered.package = s.package := by
    unfold delivered
    split <;> rfl
  repeat' split
  all_goals simp only [hbuffer, hdelivered, State.package_discard, State.package_nak, State.package_offer, State.package_freeBuffer]

@[simp] theorem State.package_leaveService (s : State) (l : Link) (reason : Nat) : (s.leaveService l reason).package = s.package := by
  unfold State.leaveService
  extract_lets x exits next lost begun again refused cut left recorded forgotten fabric released answered entered
  have hleft : left.package = s.package := s.package_updLink l _
  have hrecorded : recorded.package = left.package :=
    (State.package_linkRecord ..).trans (left.package_count (linkDie l) 0x706 l none 1)
  have hforgotten : forgotten.package = recorded.package := recorded.package_updLink l _
  clear_value forgotten
  have hreleased : released.package = forgotten.package := rfl
  have hanswered : answered.package = released.package :=
    foldl_eq_of_step State.package (fun st p => st.package_nak (linkDie l) p 4) refused released
  have hentered : entered.package = (answered.judgePort (l.val / 4)).package :=
    foldl_eq_of_step State.package (fun st p => st.package_enter none (unsent p)) again _
  rw [State.package_judgeIsolation, State.package_closeLinks, hentered, State.package_judgePort, hanswered, hreleased,
    hforgotten, hrecorded, hleft]

/-- A link that leaves service leaves the state of every other link. -/
theorem State.state_leaveService_ne {s : State} {l k : Link} (reason : Nat) (hne : l ≠ k) :
    ((s.leaveService l reason).link k).state = (s.link k).state := by
  unfold State.leaveService
  extract_lets x exits next lost begun again refused cut left recorded forgotten fabric released answered entered
  have hreleased : released.links = forgotten.links := rfl
  have hforgotten : forgotten.link k = s.link k := by
    simp only [forgotten, recorded, left, State.link_updLink, State.link_linkRecord, State.link_count, if_neg hne]
  have hanswered : answered.links = released.links :=
    foldl_eq_of_step State.links (fun st p => st.nak_links (linkDie l) p 4) refused released
  have hentered : (entered.link k).state = ((answered.judgePort (l.val / 4)).link k).state :=
    foldl_eq_of_step (fun st : State => (st.link k).state) (fun st p => st.state_enter none (unsent p) k) again _
  rw [State.link_judgeIsolation, State.state_closeLinks, hentered, State.link_judgePort,
    State.link_eq_of_links (hanswered.trans hreleased), hforgotten]

/-- A link without its reference clock: one in service leaves it, and one that trains is no longer trained (17 R419). -/
def State.loseClock (s : State) (l : Link) : State :=
  if (s.link l).state = 2 then s.leaveService l 3
  else if (s.link l).state = 1 then s.updLink l fun x => { x with trained := false } else s

@[simp] theorem State.package_loseClock (s : State) (l : Link) : (s.loseClock l).package = s.package := by
  unfold State.loseClock
  split
  · exact s.package_leaveService ..
  · split <;> rfl

theorem State.state_loseClock_same (s : State) (l : Link) : ((s.loseClock l).link l).state ≠ 2 := by
  unfold State.loseClock
  split
  · obtain hstate | hstate := s.state_leaveService l 3 <;> rw [hstate] <;> decide
  · next hout =>
    split
    · rw [State.state_updLink]; exact hout
    · exact hout

/-- It brings no link into service. -/
theorem State.state_loseClock {s : State} {k : Link} (l : Link) (hk : (s.link k).state ≠ 2) :
    ((s.loseClock l).link k).state ≠ 2 := by
  by_cases hlk : l = k
  · subst hlk
    exact s.state_loseClock_same l
  · unfold State.loseClock
    split
    · rw [State.state_leaveService_ne 3 hlk]; exact hk
    · split
      · rw [State.state_updLink]; exact hk
      · exact hk

theorem execFabRefclkLoss_eq (s : State) :
    execFabRefclkLoss s = .next ((List.finRange 32).foldl State.loseClock (s.setPower fun p => { p with fabRefclk := false })) := rfl

/-- Without its reference clock no fabric link is in service (17 R419). -/
theorem execFabRefclkLoss_loses (s : State) :
    ∃ t, execFabRefclkLoss s = .next t ∧ t.power.fabRefclk = false ∧ ∀ l : Link, (t.link l).state ≠ 2 := by
  have hpower (u : State) : ((List.finRange 32).foldl State.loseClock u).power = u.power :=
    State.power_of_package (foldl_eq_of_step State.package State.package_loseClock _ u)
  have hlinks (u : State) (l : Link) : (((List.finRange 32).foldl State.loseClock u).link l).state ≠ 2 :=
    foldl_establishes (P := fun k t => (t.link k).state ≠ 2) State.state_loseClock_same (fun _ e _ => State.state_loseClock e) _ u l
      (List.mem_finRange l)
  exact ⟨_, execFabRefclkLoss_eq s, by rw [hpower]; rfl, hlinks _⟩

/-! ### Samples (17 R412 to R416) -/

/-- A capping episode that begins or goes on changes the episode alone. -/
theorem State.power_cappingEpisode (s : State) :
    s.cappingEpisode.power = { s.power with episode := s.cappingEpisode.power.episode } := by
  unfold State.cappingEpisode
  dsimp only
  split <;> rfl

/-- Coolant over its limits is recorded; the temperatures are kept either way. -/
theorem State.power_coolant (s : State) (inlet outlet : Nat) : (s.coolant inlet outlet).power = { s.power with
    inletMilliC := (inlet : Int), outletMilliC := (outlet : Int), coolantHigh := inlet + 25000 < outlet || 45000 < inlet } := by
  unfold State.coolant
  extract_lets warm hot was noted
  have hnoted : noted.power =
      { s.power with inletMilliC := (inlet : Int), outletMilliC := (outlet : Int), coolantHigh := warm || hot } := rfl
  split
  · exact hnoted
  · split
    · rw [State.power_of_package (State.package_excursion ..), hnoted]
    · rw [State.power_of_package (State.package_excursion ..), hnoted]

/-- Counting an occurrence leaves every die's clock. -/
theorem State.powerMhz_count (s : State) (d e : Die) (ev qual : Nat) (c : Option Nat) (n : Nat) :
    ((s.count d ev qual c n).die e).powerMhz = (s.die e).powerMhz :=
  ((s.count_unmeasured d ev qual c n).comp DieSt.powerMhz).dies e

/-- A sample of the input power steps every die's clock as the capping loop says (17 R413). -/
theorem execPowerSample_steps {s : State} (watts avg : Nat) (hup : s.up = true) :
    ∃ t, execPowerSample watts avg s = .next t ∧ t.power.inputW = avg ∧
      ∀ d : Die, (t.die d).powerMhz = (cappingStep watts s.power.effectiveW (s.die 0).powerMhz s.power.belowCount).1 := by
  unfold execPowerSample
  rw [hup, Bool.not_true, if_neg Bool.false_ne_true]
  extract_lets counted
  have hpower : counted.power = s.power := State.power_of_package (foldl_eq_of_step State.package (fun u d => by
    dsimp only
    split
    · exact u.package_count ..
    · rfl) _ s)
  have hclock : (counted.die 0).powerMhz = (s.die 0).powerMhz := foldl_eq_of_step (fun u => (u.die 0).powerMhz) (fun u d => by
    dsimp only
    split
    · exact u.powerMhz_count ..
    · rfl) _ s
  rw [hpower, hclock]
  clear_value counted
  obtain ⟨mhz, below⟩ := cappingStep watts s.power.effectiveW (s.die 0).powerMhz s.power.belowCount
  dsimp -zeta only
  extract_lets stepped noted
  have hstepped (d : Die) : (stepped.die d).powerMhz = mhz := congrArg DieSt.powerMhz (State.die_updDies ..)
  clear_value stepped
  have hnoted : noted.dies = stepped.dies := rfl
  refine ⟨_, rfl, ?_, fun d => ?_⟩
  · rw [State.power_cappingEpisode]; rfl
  · rw [State.die_cappingEpisode, State.die, hnoted]
    exact hstepped d

/-- Samples of the temperatures keep those of the coolant (17 R415, R416). -/
theorem execThermalSample_keeps_coolant {s : State} (dies hbm : List Nat) (inlet outlet : Nat) (hup : s.up = true) :
    ∃ t, execThermalSample dies hbm inlet outlet s = .next t ∧ t.power.inletMilliC = inlet ∧ t.power.outletMilliC = outlet := by
  unfold execThermalSample
  rw [hup, Bool.not_true, if_neg Bool.false_ne_true]
  extract_lets sampled
  have hpower : (sampled.coolant inlet outlet).setLimit.power.inletMilliC = (sampled.coolant inlet outlet).power.inletMilliC ∧
      (sampled.coolant inlet outlet).setLimit.power.outletMilliC = (sampled.coolant inlet outlet).power.outletMilliC := by
    rw [State.setLimit, State.power_cappingEpisode]
    exact ⟨rfl, rfl⟩
  rw [State.power_coolant] at hpower
  exact ⟨_, rfl, hpower⟩

/-- Clocks that are at nominal on every die end the episode with its record (17 R414). -/
theorem execCappingEpisodeEnd_of_nominal {s : State} {peak limit : Nat} (us : Nat) (hup : s.up = true)
    (hepisode : s.power.episode = some (peak, limit))
    (hnominal : ∀ d : Die, 1400 ≤ (s.die d).powerMhz ∧ 1400 ≤ (s.die d).marginMhz) :
    ∃ t, execCappingEpisodeEnd us s = .next t ∧ t.power.episode = none := by
  have hall : s.dies.toList.all (fun x => decide (1400 ≤ x.powerMhz) && decide (1400 ≤ x.marginMhz)) = true := by
    refine List.all_eq_true.mpr fun x hx => ?_
    obtain ⟨i, hi, rfl⟩ := Vector.mem_iff_getElem.mp (Vector.mem_toList_iff.mp hx)
    obtain ⟨hpower, hmargin⟩ := hnominal ⟨i, hi⟩
    exact Bool.and_eq_true_iff.mpr ⟨decide_eq_true hpower, decide_eq_true hmargin⟩
  unfold execCappingEpisodeEnd
  rw [hepisode]
  dsimp only
  rw [hup, hall, Bool.and_self, if_pos rfl]
  exact ⟨_, rfl, congrArg PowerSt.episode (State.power_of_package (State.package_excursion ..))⟩

/-- Settles O38: each sample sets its register, which its records leave, and a lost clock takes its links down. -/
theorem supplyRows : Obligations.SupplyRows := by
  intro s code watts avg us dies hbm inlet outlet hup
  refine ⟨?limit, execPowerSample_steps watts avg hup, fun _ _ => execCappingEpisodeEnd_of_nominal us hup,
    execThermalSample_keeps_coolant dies hbm inlet outlet hup, execHostRefclkLoss_loses s, execFabRefclkLoss_loses s, rfl⟩
  case limit =>
    change execPwrLimitSample code s = _
    rw [execPwrLimitSample, hup, Bool.not_true, if_neg Bool.false_ne_true]

end Sys2Proof.Machine
end

section
/-! SUPPORT. Proofs: every command is carried out. Each row answers a next state, whatever its state and operands (00). -/
namespace Sys2Proof.Machine

/-! ### Answers -/

/-- An outcome is a next state. -/
def Carried (o : Out) : Prop := ∃ t, o = .next t

theorem Carried.next (t : State) : Carried (.next t) := ⟨t, rfl⟩

theorem Carried.ite {p : Prop} [Decidable p] {a b : Out} (ha : Carried a) (hb : Carried b) : Carried (if p then a else b) := by
  split
  · exact ha
  · exact hb

/-- Background work is carried out where it would be, or waits (13 R333). -/
theorem Carried.background {s : State} {o : Out} (h : Carried o) : Carried (background s o) := by
  obtain ⟨t, rfl⟩ := h
  exact .next _

/-! ### What rows share -/

section
variable (d : Die) (c : Ctx) (w : IWord) (x : Phys) (s : State)

theorem sequencer_carried (cls op : Nat) (ok : CtxSt → Stream → Bool) (effect : State → State) :
    Carried (sequencer d c w cls op ok effect s) := by
  unfold sequencer
  split <;> exact .next _

theorem engine_carried (cls op unit inst : Nat) (ok : CtxSt → Stream → Bool) (body : Exec Unit) :
    Carried (engine d c w cls op unit inst x ok body s) := by
  unfold engine
  split <;> exact .next _

theorem heldEngine_carried (op : Nat) (ok : CtxSt → Stream → Bool) (body : Exec Unit) :
    Carried (heldEngine d c w op x ok body s) := by
  unfold heldEngine
  split
  · exact .next _
  · exact .ite (.next _) (.ite (.next _) (.next _))

theorem mvEngine_carried (op : Nat) (ok : Bool) : Carried (mvEngine d c w op x ok s) := by
  unfold mvEngine
  split
  · exact .next _
  · exact .ite (.next _) (.ite (.next _) (.next _))

theorem clRow_carried (op : Nat) : Carried (clRow d c w op x s) := by
  unfold clRow
  split
  · exact .next _
  · split
    · exact .ite (.next _) (.ite (.next _) (.next _))
    · exact .next _

end

theorem suphor_carried (m : Mbx) (op : Nat) (also : CmdWord → Bool) (body : CmdWord → State → Reply × State) (s : State) :
    Carried (suphor m op also body s) := by
  unfold suphor
  split
  · exact .next _
  · exact .ite (.next _) (.next _)

theorem spdmRow_carried (via : SpdmPath) (code : Nat) (req : Bytes) (s : State) (answer : SpdmSt → State → SpdmSt × State) :
    Carried (spdmRow via code req s answer) :=
  .ite (.next _) (.next _)

theorem freeFrame_carried (d : Die) (code : Nat) (f : Frame) (s : State) (act : State → Nat × Nat × State) :
    Carried (freeFrame d code f s act) :=
  .ite (.next _) (.ite (.next _) (.next _))

theorem afterNegotiation_carried (via : SpdmPath) (code : Nat) (req : Bytes) (s : State)
    (answer : SpdmSt → State → SpdmSt × State) : Carried (afterNegotiation via code req s answer) :=
  spdmRow_carried ..

theorem scopedFrame_carried (d : Die) (code scope : Nat) (f : Frame) (s : State) (act : State → Nat × Nat × State) :
    Carried (scopedFrame d code scope f s act) :=
  freeFrame_carried ..

/-! ### Every row -/

/-- A command's row is one of the shared ones, or chooses between next states, or each case of its own definition is one. -/
theorem exec_carried (i : Instr) (s : State) : Carried (exec i s) := by
  unfold exec
  cases i with
  | sySignal | sySet | cfSeed | cfAccdef | cfTimeout | cfNop => exact sequencer_carried ..
  | shDequant | shRotate | vxAdd | vxSub | vxMul | vxFma | vxMax | vxMin | vxScale | vxConvert | vxFunc | vxReduce | vxSoftmax
  | vxSoftmaxBwd | vxNorm | vxNormBwd | vxTopk | vxRelu | vxDropout | vxMaxpool | vxMaskmul | vxUnpool | vxMaskgen | vxRandom
  | vxTable | vxKvappend | vxKvscore | vxKvmix | upStep | upWcopy => exact engine_carried ..
  | mmDrain | mmSpill | mmDiscard => exact heldEngine_carried ..
  | mvCopy | mvSetcopy | mvGather | mvScatter | mvScatterAdd | mvWindow | mvFill | mvSeal => exact mvEngine_carried ..
  | clShift | clPermute | clAlltoall | clGradsend | clGradrecv | clReduce | clReduceScatter | clGather | clBcast | clSetcast
  | clExpress => exact clRow_carried ..
  | getGeometry | getStatus | ctxCreate | stallSet | memAlloc | memFree | descWrite | descRead | progLoad | launch | stop
  | slotWrite | slotRead | entryRegister | entryRead | groupRegister | groupRelease | policySetFallback | policySetResilience
  | policySetSamplePeriod | policySetIntegrity | policySetScrubPeriod | policySetE2eTimeout | policySetCheckpointInterval
  | policySetTally | policyRead | fallbackRead | ringRegister | measureSetCounter | measureSetHistogram | measureSetWindow
  | tallyRequest | ledgerRead | captureRead | captureExported | checkpointNow | collectorSet | gambitInstall | calRead
  | calWrite | fwInstall | linkReset => exact suphor_carried ..
  | spdmGetVersion | spdmGetCapabilities | spdmNegotiateAlgorithms => exact spdmRow_carried ..
  | spdmGetDigests | spdmGetCertificate | spdmChallenge | spdmGetMeasurements => exact afterNegotiation_carried ..
  | dyoloStatus | dyoloGetNonce | dyoloPush | dyoloPushReset | dyoloUnlock | dyoloRelock => exact freeFrame_carried ..
  | dyoloInstall | dyoloHalt | dyoloResume | dyoloStep | dyoloBreakSet | dyoloBreakClear | dyoloRead | dyoloWrite =>
    exact scopedFrame_carried ..
  | dyoloResetDevice => exact .ite (.next _) (scopedFrame_carried ..)
  | routerPacketArrival | packetAdvance | putReceived | signalReceived | getReqReceived | getRespReceived | trackingEntryExpiry
  | stallWindow | quietWindowEnd | lifetimeRecord | ledgerCheckpoint | lifetimeRecordsRequest | rollingRecordsRequest
  | checkpointNowRequest | mctpGambitInstall | ringEnableWrite | cplHeadWrite | evtHeadWrite | mailboxErrClear | hostPortReset
  | shutdownReqRelease | hostRefclkLoss | fabRefclkLoss | railLeavesWindow | fabRefclkReturn | quietWorkDone => exact .next _
  | idleFlit | creditFlit | replayFlit | abortFlit | helloFlit | ackReceived | msgAckReceived | retrainStart | lockstepMismatch
  | spareEnterService | quietWorkStart | arrayBorrow | tallyPeriod | bwWindowEnd | historyDatagramsRequest
  | captureExportedRequest | hostLinkDown | hostLinkUp | idcode | bypass | tapReset | powerOn | railsGood | powerOff
  | rideThroughExpiry | inputVoltageRecovered | moduleReset | resetRelease | drainComplete | pwrLimitSample | powerSample
  | thermalSample | thermtrip | rideThroughEntry | resetHoldExpiry | hostWindowCompletion | selftestOverdue | watchdogExpiry =>
    exact .ite (.next _) (.next _)
  | controlFlitInterval | laneLockLost | cmdDoorbell | spdmUnsupportedRequest | pldmCollectorSet | extest | samplePreload
  | inputVoltageFault | moduleDrain => exact .ite (.next _) (.ite (.next _) (.next _))
  | rowRepair | retrainDone | checkerSelftest | marginSweepDone | linkEyeScan => exact .background (.ite (.next _) (.next _))
  | spareTest => exact .background (.ite (.next _) (.ite (.next _) (.next _)))
  | pageRetirement => refine .background ?_; fun_cases runPageRetirement <;> exact .next _
  | scrubGranule => refine .background ?_; fun_cases runScrubGranule <;> exact .next _
  | captureWrite => refine .background ?_; fun_cases runCaptureWrite <;> exact .next _
  | gambitRun => refine .background ?_; fun_cases runGambitRun <;> exact .next _
  | syWait => dsimp only; fun_cases execSyWait <;> exact .next _
  | syFence => dsimp only; fun_cases execSyFence <;> exact .next _
  | syJump => dsimp only; fun_cases execSyJump <;> exact .next _
  | mkStep => dsimp only; fun_cases execMkStep <;> exact .next _
  | mkFencePassed => dsimp only; fun_cases execMkFencePassed <;> exact .next _
  | mkReductionReceived => dsimp only; fun_cases execMkReductionReceived <;> exact .next _
  | instructionComplete => dsimp only; fun_cases execInstructionComplete <;> exact .next _
  | syncTimeout => dsimp only; fun_cases execSyncTimeout <;> exact .next _
  | shQuant => dsimp only; fun_cases execShQuant <;> exact .next _
  | mmProduct => dsimp only; fun_cases execMmProduct <;> exact .next _
  | tileCheckComplete => dsimp only; fun_cases execTileCheckComplete <;> exact .next _
  | upVerdict => dsimp only; fun_cases execUpVerdict <;> exact .next _
  | roundVerdictReceived => dsimp only; fun_cases execRoundVerdictReceived <;> exact .next _
  | clSlotGranted => dsimp only; fun_cases execClSlotGranted <;> exact .next _
  | collectiveTimeout => dsimp only; fun_cases execCollectiveTimeout <;> exact .next _
  | expressResend => dsimp only; fun_cases execExpressResend <;> exact .next _
  | linkCodewordReceived => dsimp only; fun_cases execLinkCodewordReceived <;> exact .next _
  | linkRetrainDone => dsimp only; fun_cases execLinkRetrainDone <;> exact .next _
  | packetStaleTimeout => dsimp only; fun_cases execPacketStaleTimeout <;> exact .next _
  | collReceived => dsimp only; fun_cases execCollReceived <;> exact .next _
  | expressReceived => dsimp only; fun_cases execExpressReceived <;> exact .next _
  | nakReceived => dsimp only; fun_cases execNakReceived <;> exact .next _
  | mgmtReceived => dsimp only; fun_cases execMgmtReceived <;> exact .next _
  | ackTimer => dsimp only; fun_cases execAckTimer <;> exact .next _
  | e2eTimeout => dsimp only; fun_cases execE2eTimeout <;> exact .next _
  | nakBackoffExpiry => dsimp only; fun_cases execNakBackoffExpiry <;> exact .next _
  | memoryRequest => dsimp only; fun_cases execMemoryRequest <;> exact .next _
  | memoryReadReturn => dsimp only; fun_cases execMemoryReadReturn <;> exact .next _
  | hostMemAccess => dsimp only; fun_cases execHostMemAccess <;> exact .next _
  | arrayReturn => dsimp only; fun_cases execArrayReturn <;> exact .next _
  | tallyDump => dsimp only; fun_cases execTallyDump <;> exact .next _
  | ledgerFlashWrite => dsimp only; fun_cases execLedgerFlashWrite <;> exact .next _
  | datagramSend => dsimp only; fun_cases execDatagramSend <;> exact .next _
  | captureSlotRequest => dsimp only; fun_cases execCaptureSlotRequest <;> exact .next _
  | generationCopyDone => dsimp only; fun_cases execGenerationCopyDone <;> exact .next _
  | stopClassDetermined => dsimp only; fun_cases execStopClassDetermined <;> exact .next _
  | restore => dsimp only; fun_cases execRestore <;> exact .next _
  | swapResend => dsimp only; fun_cases execSwapResend <;> exact .next _
  | swapDeadline => dsimp only; fun_cases execSwapDeadline <;> exact .next _
  | commandFetch => dsimp only; fun_cases execCommandFetch <;> exact .next _
  | registerWrite => dsimp only; fun_cases execRegisterWrite <;> exact .next _
  | reset => dsimp only; fun_cases execReset <;> exact .next _
  | ctxDestroy => dsimp only; fun_cases execCtxDestroy <;> exact .next _
  | castle => dsimp only; fun_cases execCastle <;> exact .next _
  | hostLinkRetrain => dsimp only; fun_cases execHostLinkRetrain <;> exact .next _
  | pldmSensorRead => dsimp only; fun_cases execPldmSensorRead <;> exact .next _
  | dyoloNop => dsimp only; fun_cases execDyoloNop <;> exact .next _
  | boot => dsimp only; fun_cases execBoot <;> exact .next _
  | cappingEpisodeEnd => dsimp only; fun_cases execCappingEpisodeEnd <;> exact .next _

/-- Settles O60: every command's meaning is a next state, whatever the command finds. -/
theorem nothingRefused : Obligations.NothingRefused := exec_carried

end Sys2Proof.Machine
end
